-- ==== Sys2Proof/Word.lean ====
section
/-! DEFINITION. The machine's plain words, and the one sparse table that memories and register files are kept in.

A sparse table lists (key, value) pairs; a key that is not listed reads as the table's default. Its canonical form has
strictly rising keys and lists no default, so two tables that read alike are equal lists. -/

namespace Sys2Proof

/-- A byte (R9). -/
abbrev Byte := BitVec 8
/-- A half (R9). -/
abbrev Half := BitVec 16
/-- A word, and an instruction word (R9). -/
abbrev Word := BitVec 32
/-- A dword, and a term word (R9). -/
abbrev DWord := BitVec 64
/-- A set of the lanes of one team: bit i is lane i (R20, R24); a team has at most 1,024 lanes (R19). -/
abbrev Mask := BitVec 1024

/-- A table of values by key, in rising key order, that lists no default value. -/
abbrev Sparse (α : Type) := List (Nat × α)

namespace Sparse

variable {α : Type}

/-- The value at a key; `d` where the key is not listed. -/
def get (d : α) : Sparse α → Nat → α
  | [], _ => d
  | (k, x) :: r, j => if k = j then x else get d r j

/-- The table without a key. -/
def erase : Sparse α → Nat → Sparse α
  | [], _ => []
  | (k, x) :: r, j => if k = j then erase r j else (k, x) :: erase r j

/-- The table with a key added before the first larger one. -/
def insert : Sparse α → Nat → α → Sparse α
  | [], j, y => [(j, y)]
  | (k, x) :: r, j, y => if j < k then (j, y) :: (k, x) :: r else (k, x) :: insert r j y

/-- Writes a key; writing the default removes the entry. -/
def set [DecidableEq α] (d : α) (m : Sparse α) (k : Nat) (x : α) : Sparse α :=
  if x = d then erase m k else insert (erase m k) k x

/-- The canonical form from a least key on. -/
def wfFrom [DecidableEq α] (d : α) : Nat → Sparse α → Bool
  | _, [] => true
  | lo, (k, x) :: r => decide (lo ≤ k) && decide (x ≠ d) && wfFrom d (k + 1) r

/-- The canonical form: keys strictly rise, and no entry holds the default. -/
def wf [DecidableEq α] (d : α) (m : Sparse α) : Bool := wfFrom d 0 m

end Sparse

/-- A memory: bytes by address. Every memory of the part is zeroed at bring-up (R392), so an unlisted byte is 0. -/
abbrev Memory := Sparse Byte

namespace Memory

/-- One byte. -/
def byte (m : Memory) (a : Nat) : Byte := Sparse.get 0 m a

/-- Stores one byte. -/
def setByte (m : Memory) (a : Nat) (b : Byte) : Memory := Sparse.set 0 m a b

/-- `n` bytes from `a` as one little-endian number (R8). -/
def read (m : Memory) (a : Nat) : Nat → Nat
  | 0 => 0
  | n + 1 => (byte m a).toNat + 256 * read m (a + 1) n

/-- Stores the low `n` bytes of a number from `a` on, little-endian (R8). -/
def write (m : Memory) (a : Nat) : Nat → Nat → Memory
  | 0, _ => m
  | n + 1, v => write (setByte m a (BitVec.ofNat 8 v)) (a + 1) n (v / 256)

/-- The canonical form of a memory. -/
def wf (m : Memory) : Bool := Sparse.wf 0 m

/-- A word of memory. -/
def word (m : Memory) (a : Nat) : Word := BitVec.ofNat 32 (read m a 4)
/-- A dword of memory. -/
def dword (m : Memory) (a : Nat) : DWord := BitVec.ofNat 64 (read m a 8)

/-- Stores a list of bytes from `a` on. -/
def writeBytes (m : Memory) (a : Nat) : List Byte → Memory
  | [] => m
  | b :: r => writeBytes (setByte m a b) (a + 1) r

/-- The bytes from `a` on, lowest address first. -/
def bytes (m : Memory) (a : Nat) : Nat → List Byte
  | 0 => []
  | n + 1 => byte m a :: bytes m (a + 1) n

end Memory

/-- The lanes of a mask below `n`, ascending (R11). -/
def Mask.lanes (m : Mask) (n : Nat) : List Nat := (List.range n).filter (fun i => m.getLsbD i)

/-- The number of lanes in a mask. -/
def Mask.count (m : Mask) : Nat := (Mask.lanes m 1024).length

/-- The mask of all lanes below `n`. -/
def Mask.below (n : Nat) : Mask := BitVec.ofNat 1024 (2 ^ n - 1)

/-- The mask of one lane. -/
def Mask.one (i : Nat) : Mask := BitVec.ofNat 1024 (2 ^ i)

/-- The mask of a list of lanes. -/
def Mask.ofLanes : List Nat → Mask
  | [] => 0
  | i :: r => Mask.one i ||| Mask.ofLanes r

/-- Mask word `w`: lanes 32w to 32w+31 (R24). -/
def Mask.word (m : Mask) (w : Nat) : Word := (m >>> (32 * w)).setWidth 32

/-- The mask words that are not zero, ascending (R24, R25). -/
def Mask.sweep (m : Mask) : List Nat := (List.range 32).filter (fun w => decide (Mask.word m w ≠ 0))

/-- The summary word: bit w is 1 exactly when mask word w is non-zero (R24). -/
def Mask.summary (m : Mask) : Word := (Mask.sweep m).foldl (fun acc w => acc ||| BitVec.ofNat 32 (2 ^ w)) 0

/-- The number of set bits of a word. -/
def popcount {n : Nat} (x : BitVec n) : Nat := ((List.range n).filter (fun k => x.getLsbD k)).length

/-- Reads a field: bits `lo` up to `lo + n − 1` (R7). -/
def field {w : Nat} (x : BitVec w) (lo n : Nat) : Nat := (x.toNat / 2 ^ lo) % 2 ^ n

/-- A number's field. -/
def nfield (x lo n : Nat) : Nat := (x / 2 ^ lo) % 2 ^ n

end Sys2Proof
end

