-- ==== Sys2Proof/Syntax.lean ====
section
/-! DEFINITION. The instructions and the steps of the part: one constructor for each row of the table of operations.

An instruction's operands are decoded here once: registers, special sources and modifiers are constructors, never bits.
`ext` says whether the instruction was encoded in the extended form (R54); an instruction whose operands name a literal
carries it in each operand that reads it (R15). Events (R112, R255 and the other rows of the list of steps that no
word encodes) carry the item of the state they act on, or what the outside world sends. -/

namespace Sys2Proof

/-- An operand: a register of R34, or a source of R56. -/
inductive Opnd where
  | l (n : Fin 4) | o (n : Fin 16) | v (n : Fin 256) | s (n : Fin 192) | a (n : Fin 64) | h (n : Fin 16)
  | zero | lane | lit (x : DWord) | team | block | core | quarter | cluster | die | nlanes | nteams | blane | depth
  deriving DecidableEq, Repr

/-- A source field: the operand and its T bit (R14, R42). -/
structure Src where
  op : Opnd
  t : Bool := false
  deriving DecidableEq, Repr

/-- Fields D and A. -/
structure DA where
  ext : Bool
  d : Opnd
  a : Src
  deriving DecidableEq, Repr

/-- Fields D, A and B. -/
structure DAB where
  ext : Bool
  d : Opnd
  a : Src
  b : Src
  deriving DecidableEq, Repr

/-- Fields D, A, B and C (R61). -/
structure DABC where
  ext : Bool
  d : Opnd
  a : Src
  b : Src
  c : Src
  deriving DecidableEq, Repr

/-- Fields A and B. -/
structure AB where
  ext : Bool
  a : Src
  b : Src
  deriving DecidableEq, Repr

/-- One source field. -/
structure A1 where
  ext : Bool
  a : Src
  deriving DecidableEq, Repr

/-- A destination and an immediate (layout imm, R60). -/
structure Imm where
  ext : Bool
  d : Opnd
  imm : BitVec 21
  deriving DecidableEq, Repr

/-- A displacement in words (layout jump, R60). -/
structure Jump where
  ext : Bool
  off : BitVec 21
  deriving DecidableEq, Repr

/-- A displacement and an operand (layout cbr, R60). -/
structure Cbr where
  ext : Bool
  b : Src
  off : BitVec 21
  deriving DecidableEq, Repr

/-- A load form: D, the address and its byte offset (R62). -/
structure LdArgs where
  ext : Bool
  d : Opnd
  a : Src
  x : BitVec 21
  deriving DecidableEq, Repr

/-- A store form: the address, its byte offset and the value (R62). -/
structure StArgs where
  ext : Bool
  a : Src
  b : Src
  x : BitVec 21
  deriving DecidableEq, Repr

/-- An atomic with a return: D, the address and offset, the operand, and for .cas the expected value (R130, R132). -/
structure RmwArgs where
  ext : Bool
  d : Opnd
  a : Src
  b : Src
  c : Src
  x : BitVec 21
  deriving DecidableEq, Repr

/-- Condition of icmp and scmp (R67). -/
inductive Cond where | gt | ge | lt | le | eq | ne
  deriving DecidableEq, Repr
/-- Signedness of a comparison (R67). -/
inductive Sign where | s | u
  deriving DecidableEq, Repr
/-- The scans (R91). -/
inductive ScanOp where | addIncl | addExcl | maxSIncl | maxSExcl | maxUIncl | maxUExcl
  deriving DecidableEq, Repr
/-- Rounding modes (R63). -/
inductive Rm where | rn | rz | rp | rm | rs
  deriving DecidableEq, Repr
/-- Saturation (R63). -/
inductive Sat where | dflt | sat | nosat
  deriving DecidableEq, Repr
/-- Condition of fcmp (R157). -/
inductive FCond where | eq | ne | lt | le | gt | ge | un | ord
  deriving DecidableEq, Repr
/-- The 16-bit packed formats (R68). -/
inductive HalfFmt where | f16 | bf16
  deriving DecidableEq, Repr
/-- The format codes (R68). -/
inductive Fmt where | bf16 | f16 | e4m3 | e5m2 | e2m3 | e3m2 | e2m1 | s32 | u32 | s8 | s4 | e8m0
  deriving DecidableEq, Repr
/-- Element formats of dot4 (R68). -/
inductive Dot4Fmt where | e4m3 | e5m2 | s8 | e2m3 | e3m2
  deriving DecidableEq, Repr
/-- Element formats of dot8 (R68). -/
inductive Dot8Fmt where | e2m1 | s4
  deriving DecidableEq, Repr
/-- Sizes of ld (R69). -/
inductive LdSize where | b | h | w | d | sb | sh
  deriving DecidableEq, Repr
/-- Sizes of st (R69). -/
inductive StSize where | b | h | w | d
  deriving DecidableEq, Repr
/-- Word or dword. -/
inductive WD where | w | d
  deriving DecidableEq, Repr
/-- The atomic operations (R69, R129). -/
inductive AOp where | add | fadd | minS | minU | maxS | maxU | and | or | xor | xchg | cas | fmin | fmax
  deriving DecidableEq, Repr
/-- The operations of vcomb (R121). -/
inductive VOp where | add | fadd | minS | maxS | minU | maxU | or | fmin | fmax
  deriving DecidableEq, Repr
/-- Place of a global atomic (R132). -/
inductive Place where | predictor | home | near
  deriving DecidableEq, Repr
/-- Context values tmark reads (R178). -/
inductive CtxSel where | tt | ht | bp | cb | ct | cs
  deriving DecidableEq, Repr
/-- Reductions of sred (R97). -/
inductive Rop where | add | minS | minU | maxS | maxU | and | or | xor
  deriving DecidableEq, Repr
/-- Formats of the matrix engine (R227). -/
inductive MFmt where | bf16 | f16 | e4m3 | e5m2 | e2m3 | e3m2 | e2m1 | s8 | s4
  deriving DecidableEq, Repr
/-- Formats of mrd (R234). -/
inductive RdFmt where | f32 | bf16 | f16
  deriving DecidableEq, Repr
/-- Directions of a copy (R252). -/
inductive Dir where | g2n | n2g | n2n | g2g
  deriving DecidableEq, Repr
/-- Collective operations (R273). -/
inductive CollOp where | allred | redsc | allgat | bcast
  deriving DecidableEq, Repr
/-- Collective reductions (R273). -/
inductive CollRop where | add | max | min
  deriving DecidableEq, Repr
/-- Collective formats (R273). -/
inductive CollFmt where | f32 | bf16 | f16 | s32 | e4m3 | e5m2 | e2m3 | e3m2 | e2m1
  deriving DecidableEq, Repr
/-- Forms of ftest (R263). -/
inductive TestForm where | plain | id | tok
  deriving DecidableEq, Repr
/-- Scopes of fence (R71). -/
inductive Scope where | lane | team | block | die | device | system
  deriving DecidableEq, Repr
/-- Classes of cwait (R71). -/
inductive CClass where | copy | coll | promote | wl | matrix
  deriving DecidableEq, Repr
/-- Sub-operations of rett (R72). -/
inductive RettOp where | plain | rel | drop
  deriving DecidableEq, Repr

/-- A command entry of a submission ring (R386): the function whose ring it came from, and its 64 bytes as a number. -/
structure CmdEntry where
  fn : Nat
  bits : BitVec 512
  deriving DecidableEq, Repr

/-- A link frame (R384): its header and its 20 flits of 32 bytes. -/
structure Frame where
  kind : BitVec 4
  seq : BitVec 8
  ack : BitVec 8
  flits : List (BitVec 256)
  deriving DecidableEq, Repr

/-- What a rank of another device sends into a collective (R273): the fields that must agree, and its source bytes
and scales. -/
structure RemoteRank where
  rank : Nat
  op : CollOp
  fmt : CollFmt
  rop : CollRop
  count : Nat
  root : Nat
  data : List Byte
  scales : List Byte
  deriving DecidableEq, Repr

/-- Where an encoding may stand (R66, R73, R74): in the matrix stream, in a team, in a copy-role team, under pblk. -/
structure Standing where
  stream : Bool
  team : Bool
  copyRole : Bool
  cover : Bool
  deriving DecidableEq, Repr

/-- A placement the distributor may choose (R22): the quarters, ascending, and the allocation offset P. -/
structure PlaceChoice where
  quarters : List Nat
  p : Nat
  deriving DecidableEq, Repr

/-- The instructions and events, one constructor per row of the table of operations. -/
inductive Instr where
  -- Moves and selects (R83)
  | mov (f : DA) | movi (f : Imm) | sel (f : DABC)
  -- Integer arithmetic (R84, R85)
  | iadd (f : DAB) | isub (f : DAB) | ineg (f : DA) | iabs (f : DA) | iadd64 (f : DAB)
  | imul (f : DAB) | imulhS (f : DAB) | imulhU (f : DAB) | imad (f : DABC)
  | iminS (f : DAB) | iminU (f : DAB) | imaxS (f : DAB) | imaxU (f : DAB)
  -- Shifts, counts, comparison, logic, bit fields (R86 to R88)
  | shl (f : DAB) | shr (f : DAB) | sar (f : DAB) | rotl (f : DAB)
  | clz (f : DA) | popc (f : DA) | brev (f : DA)
  | icmp (c : Cond) (g : Sign) (f : DAB)
  | and (f : DAB) | or (f : DAB) | xor (f : DAB) | andn (f : DAB) | not (f : DA)
  | bfxU (f : DAB) | bfxS (f : DAB) | bfi (f : DABC)
  -- Lane movement (R89 to R91)
  | shfl (f : DAB) | shflx (f : DAB) | bcast (f : DAB)
  | ballot (f : DA) | vany (f : DA) | vall (f : DA) | scan (k : ScanOp) (f : DA)
  -- Float (R155 to R166)
  | fadd (r : Rm) (f : DAB) | fsub (r : Rm) (f : DAB) | fmul (r : Rm) (f : DAB) | ffma (r : Rm) (f : DABC)
  | fmin (f : DAB) | fmax (f : DAB) | fcmp (c : FCond) (f : DAB)
  | frcp (r : Rm) (f : DA) | frsq (r : Rm) (f : DA) | fsqrt (r : Rm) (f : DA) | fexp2 (r : Rm) (f : DA)
  | flog2 (r : Rm) (f : DA) | frnd (r : Rm) (f : DA) | fclass (f : DA)
  | h2add (m : HalfFmt) (r : Rm) (f : DAB) | h2mul (m : HalfFmt) (r : Rm) (f : DAB)
  | h2fma (m : HalfFmt) (r : Rm) (f : DABC)
  | dot4 (m : Dot4Fmt) (r : Rm) (f : DABC) | dot8 (m : Dot8Fmt) (r : Rm) (f : DABC)
  | fscl (r : Rm) (f : DAB)
  | fcvtFromF32 (m : Fmt) (r : Rm) (t : Sat) (f : DA) | fcvtToF32 (m : Fmt) (r : Rm) (f : DA)
  | fpack (m : Fmt) (r : Rm) (t : Sat) (p : Fin 4) (f : DAB) | funpack (m : Fmt) (f : DAB)
  -- Near memory (R104 to R110)
  | ld (z : LdSize) (f : LdArgs) | st (z : StSize) (f : StArgs) | ldq (f : LdArgs) | stq (f : StArgs)
  | lds (z : WD) (f : LdArgs) | sts (z : WD) (f : StArgs) | cmpst (z : WD) (f : StArgs) | exld (z : WD) (f : LdArgs)
  | spl (f : AB) | fil (f : DA) | lsget (n : BitVec 10) (f : DAB) | lsret (n : BitVec 10) (f : DAB)
  -- Atomics and pre-combining (R121, R130, R132)
  | satom (p : AOp) (f : RmwArgs) | gatom (p : AOp) (l : Place) (z : WD) (f : RmwArgs)
  | gred (p : AOp) (l : Place) (z : WD) (f : StArgs) | cdet (f : DA) | vcomb (p : VOp) (f : DAB)
  -- Terms (R178)
  | tmk (f : DAB) | ttag (f : DA) | tval (f : DA) | tis (k : BitVec 4) (f : DA) | deref (f : DA)
  | unify (f : DAB) | unifyOc (f : DAB) | bind (f : AB) | mkvar (f : DA) | mkvarH (d : Opnd)
  | mkcvar (f : DAB) | mkstr (f : DAB) | getarg (f : DAB)
  | tmark (c : CtxSel) (ext : Bool) (d : Opnd) | untrail (f : A1) | bcol (f : A1)
  | cpush (f : Jump) | cnext (f : Jump) | cut (f : A1)
  -- Control (R199)
  | jmp (f : Jump) | jmpInd (f : A1) | brc (f : Cbr) | brcF (f : Cbr) | brsNz (f : Cbr) | brsZ (f : Cbr)
  | call (f : Jump) | callInd (f : A1) | sbar (f : Cbr) | brk (ext : Bool) (n : BitVec 6) (off : BitVec 21)
  | yield (f : Jump)
  -- Matrix (R234)
  | mwld (m : MFmt) (sp : Bool) (qm : BitVec 16) (a b : Src) | mwldT (m : MFmt) (qm : BitVec 16) (a b : Src)
  | mamap (map : Fin 8) (m : MFmt) (tr : Bool) (stride : BitVec 7) (kc : BitVec 8) (a b : Src)
  | mclr (tile : Fin 64) | mmul (tile : Fin 64) (map : Fin 8) (z : Bool) (x : BitVec 21)
  | mmsp (tile : Fin 64) (map : Fin 8) (z : Bool) (x : BitVec 21)
  | mrd (m : RdFmt) (r : Rm) (stride : BitVec 7) (a : Src) (tile : Fin 64) (x : BitVec 21)
  | mtov (d : Opnd) (tile : Fin 64) (b : Src) | mfuse (ext : Bool) (e : BitVec 4)
  | mbarArr (f : A1) | mbarWait (a b : Src) | mprio (ext : Bool) (c : Fin 4) | mloop (f : Cbr)
  -- Engine commands, futures, work lists, launch, handles (R252, R290, R298, R304)
  | cpy (dir : Dir) (bar : Option (Fin 64)) (d : Opnd) (a b : Src) (len : BitVec 21)
  | cpy2 (dir : Dir) (bar : Option (Fin 64)) (d : Opnd) (a b c : Src)
  | cpyx (scat : Bool) (rlen : BitVec 10) (bar : Option (Fin 64)) (d : Opnd) (a b c : Src) (n : BitVec 21)
  | cpyxH (rlen : BitVec 10) (bar : Option (Fin 64)) (d : Opnd) (a b : Src) (h : Fin 16)
  | cpym (near : Bool) (bar : Option (Fin 64)) (d : Opnd) (a b c : Src) (len : BitVec 21)
  | coll (op : CollOp) (m : CollFmt) (rop : CollRop) (bar : Option (Fin 64)) (d : Opnd) (a b : Src)
  | amsg (d : Opnd) (a b c : Src) (len : BitVec 21)
  | ftest (t : TestForm) (ext : Bool) (d a : Opnd) | fcan (tok : Bool) (ext : Bool) (a : Opnd)
  | wlpush (l : BitVec 6) (f : DAB) | wlpull (f : DA) | wlsteal (f : DAB) | childLaunch (d : Opnd) (a : Src)
  | hld (h : Fin 16) (a : Src) | hset (h : Fin 16) (k : Fin 6) (a : Src) | hget (d : Opnd) (h : Fin 16) (k : Fin 8)
  | hchkReport (d : Opnd) (h : Fin 16) | hchkWalk (d : Opnd) (h : Fin 16)
  -- Barriers, fences, waits (R268, R270, R339, R262)
  | barInit (f : StArgs) | barExp (f : StArgs) | barArr (l : Bool) (f : StArgs) | barWait (f : StArgs)
  | fence (c : Scope) (ext : Bool) | cwait (c : CClass) (ext : Bool) (n : BitVec 14)
  -- Regions and near rows (R309)
  | arbeg (d : Opnd) (x : BitVec 21) | arrng (f : AB) | arld (f : LdArgs) | arst (f : StArgs)
  | arstIx (sc : BitVec 2) (a b c : Src) (x : BitVec 21) | arabt (f : A1)
  | prom (f : DA) | promPin (f : DA) | dem (f : DA) | lclass (f : DA)
  -- Uniform (R94 to R97)
  | smov (f : DA) | smovi (f : Imm) | sadd (f : DAB) | ssub (f : DAB) | smul (f : DAB) | sand (f : DAB)
  | sor (f : DAB) | sxor (f : DAB) | sshl (f : DAB) | sshr (f : DAB) | scmp (c : Cond) (g : Sign) (f : DAB)
  | ssel (f : DABC) | vtos (f : DAB) | sred (r : Rop) (f : DA)
  -- Prefix and system (R65, R373)
  | pblk (pat : Byte) (n : BitVec 3) (p : Fin 32) (t : Bool)
  | rett (f : A1) | rettRel (f : A1) | rettDrop (f : A1) | sysr (ext : Bool) (d : Opnd) (b : Src)
  | sysw (f : AB) | rpcWrite (f : AB) | rmaskWrite (f : AB) | trap (f : A1) | ptlb (f : AB)
  | usg (ext : Bool) (d : Opnd) (b : Src)
  -- Returns, elements, engines (R41, R112, R114, R137, R363, R255, R254, R273, R277)
  | producerReturn (req word : Nat) | window1ElementArrive (req elem : Nat) | parkedElementReplay (team entry : Nat)
  | globalAtomicExecute (req elem : Nat) | translationWalk (cluster tenant va : Nat) | enginePieceLand (cmd : Nat)
  | engineCommandComplete (cmd : Nat) | collMatch (tenant group : Nat) (remote : List RemoteRank)
  | amsgDeliver (cluster : Nat) (p : PlaceChoice)
  -- Matrix engine, regions, near rows, handles, work lists (R239, R247, R235, R321, R328, R291, R299, R300, R303)
  | matrixStepEnd (step : Nat) | matrixStarvationGrant (step : Nat) | mwldLatch (latch : Nat)
  | regionCommit (team : Nat) | promoteMoveComplete (cmd : Nat) | demoteComplete (cmd : Nat) | hldComplete (req : Nat)
  | wlpushAppend (push : Nat) | wlpullServe (team : Nat) | endOfWork (grid : Nat)
  -- Ends, placement, handlers (R31, R33, R21, R350, R370, R407, R49, R210)
  | teamRetire (team : Nat) | gridEnd (grid : Nat) | blockPlace (grid : Nat) (p : PlaceChoice)
  | distributorStarvation (grid : Nat) (p : PlaceChoice) | handlerTeamStart (tenant : Nat) (p : PlaceChoice)
  | trapRecordEnqueue (tenant : Nat) | systemEvent (tenant : Nat) (code : Byte) (addr : DWord)
  | spillLeaseRevoke (team : Nat) | fetchFill (team : Nat)
  -- Slices, pre-emption, arbitration (R352, R357, R359, R360, R354, R366)
  | sliceEnd (part : Nat) | sliceStart (part : Nat) | preemptForClass3 (grid block : Nat) | blockSave (block : Nat)
  | blockRestore (block : Nat)
  -- Link and host path (R383 to R388)
  | packetReceive (port : Nat)
  | completionWrite (fn : Nat) | unassignedCommand (e : CmdEntry)
  -- Host commands (R387, R389)
  | tenantMake (e : CmdEntry) | tenantSet (e : CmdEntry) | teardown (e : CmdEntry) | partitionAssign (e : CmdEntry)
  | partitionWithdraw (e : CmdEntry) | pageOwn (e : CmdEntry) | pageOwnAck (fn : Nat) | groupMake (e : CmdEntry)
  | groupEnd (e : CmdEntry) | clusterReset (e : CmdEntry) | fnReset (e : CmdEntry) | checkpoint (e : CmdEntry)
  | restore (e : CmdEntry) | attest (e : CmdEntry) | fwWrite (e : CmdEntry) | powerCap (e : CmdEntry)
  | suspend (e : CmdEntry) | resume (e : CmdEntry) | launch (e : CmdEntry) | cancel (e : CmdEntry)
  | memWrite (e : CmdEntry) | memRead (e : CmdEntry)
  -- Power, heat, late completions (R392, R394, R382, R378, R75, R377, R242, R395)
  | usgReportComplete (cmd : Nat) | illegalInstruction (code : Byte) (place : Standing)
  | ptlbComplete (team : Nat) | mrdComplete (mrd : Nat)
  -- The forms without operands, and the events that only the outside world sends
  | clast | ret | sarr | exit | nop | mend | gbar | arend | powerLoss | thermalThrottle | clockRecover
  | thermalTrip | checkpointComplete | restoreComplete
  | powerGood (failed : Option (Byte × Byte)) (hostPorts : BitVec 16) | linkTraining (port : Nat) (host ok : Bool)
  | frameReceive (port : Nat) (frame : Frame) (correctable : Bool) | frameIdle (port : Nat) (frame : Frame)
  | retryRequest (port : Nat) (ack : Byte) | portDown (port : Nat) | portRetrain (port : Nat)
  | crosspointForcedGrant (xp : Nat) | channelFloorWindow (ch : Nat) | clusterInternalFault (cluster : Nat)
  | doorbellSubmissionTail (fn index : Nat) | doorbellCompletionHead (fn index : Nat)
  | doorbellRingSetup (fn k : Nat) (sq cq : DWord)
  deriving DecidableEq, Repr

end Sys2Proof
end

