-- ==== Sys2Proof/Decode.lean ====
section
/-! DEFINITION. Decoding and encoding: the fields of R14, R54 and R60 to R62, the operand codes of R14 and R55, the opcode
map of R67 to R72 with the operand classes each instruction's entry names, and the encoding traps of R75 to R78. -/

namespace Sys2Proof

/-- What a field of an instruction holds: nothing, an operand code with its T bit, or a constant (R60). -/
inductive Slot where
  | none
  | op (o : Opnd) (t : Bool)
  | const (k : BitVec 6)
  deriving DecidableEq, Repr

/-- The fields of one instruction, whichever form carries them. -/
structure Fields where
  ext : Bool
  d : Slot := .none
  a : Slot := .none
  b : Slot := .none
  c : Slot := .none
  x : BitVec 21 := 0
  m : BitVec 20 := 0
  deriving DecidableEq, Repr

/-- Layouts of the base word (R60). -/
inductive Layout where | reg | imm | jump | cbr | pfx | none
  deriving DecidableEq, Repr

/-- Operand classes (R58, and the entries that narrow them). -/
inductive Cls where
  | laneSrc | laneDst | uniSrc | uniDst | sOnly | sOrLit | vOnly | loadDst | pairDst | src64 | term | target
  | quadDst | quadSrc | brsSrc | hOnly | tile | streamSrc | zeroOnly | entry
  deriving DecidableEq, Repr

/-- What a row says of a field: not used, an operand of a class, a token field or a destination in A (R72) whose T bit is
reserved, or a constant: the bits of it that are reserved, and the values it takes. -/
inductive Spec where
  | unused
  | cls (c : Cls)
  | clsNoT (c : Cls)
  | dst (c : Cls)
  | const (resv : BitVec 6) (ok : BitVec 6 → Bool)
  /-- a C field whose non-zero value is a modifier error (R309) -/
  | zero05

/-- The shape of a row of the opcode map. -/
structure Sig where
  lay : Layout := .reg
  d : Spec := .unused
  a : Spec := .unused
  b : Spec := .unused
  c : Spec := .unused
  /-- X is assigned -/
  x : Bool := false
  /-- the form exists in the extended form only (R71, marked E) -/
  extOnly : Bool := false
  /-- a three-source layout: the base word's C is the register D names (R61) -/
  dabc : Bool := false
  modOk : BitVec 20 → Bool := fun m => m == 0
  /-- an X the entry gives no meaning to -/
  xResv : BitVec 21 → Bool := fun _ => false
  /-- a value of several fields together that the entry leaves unassigned (trap 0x05) -/
  bad05 : Fields → Bool := fun _ => false

/-- A row: its shape, and the instruction its fields make. -/
structure Row where
  sig : Sig
  make : Fields → Instr

/-! ### Operand codes -/

/-- Short operand codes (R14); `lit` stands for the trailing literal. -/
def shortOpnd (lit : DWord) (n : Nat) : Option Opnd :=
  if h : n < 4 then some (.l ⟨n, h⟩)
  else if h : n < 20 then some (.o ⟨n - 4, by omega⟩)
  else if h : n < 52 then some (.v ⟨n - 20, by omega⟩)
  else if h : n < 60 then some (.s ⟨n - 52, by omega⟩)
  else match n with
    | 60 => some .zero
    | 61 => some .lane
    | 62 => some (.lit lit)
    | _ => none

/-- Long operand codes (R55, R56). -/
def longOpnd (lit : DWord) (n : Nat) : Option Opnd :=
  if h : n < 4 then some (.l ⟨n, h⟩)
  else if h : 0x10 ≤ n ∧ n < 0x20 then some (.o ⟨n - 0x10, by omega⟩)
  else if h : 0x100 ≤ n ∧ n < 0x200 then some (.v ⟨n - 0x100, by omega⟩)
  else if h : 0x200 ≤ n ∧ n < 0x2C0 then some (.s ⟨n - 0x200, by omega⟩)
  else if h : 0x300 ≤ n ∧ n < 0x340 then some (.a ⟨n - 0x300, by omega⟩)
  else if h : 0x340 ≤ n ∧ n < 0x350 then some (.h ⟨n - 0x340, by omega⟩)
  else match n with
    | 0x3F0 => some .zero
    | 0x3F1 => some .lane
    | 0x3F2 => some (.lit lit)
    | 0x3F3 => some .team
    | 0x3F4 => some .block
    | 0x3F5 => some .core
    | 0x3F6 => some .quarter
    | 0x3F7 => some .cluster
    | 0x3F8 => some .die
    | 0x3F9 => some .nlanes
    | 0x3FA => some .nteams
    | 0x3FB => some .blane
    | 0x3FC => some .depth
    | _ => none

/-- The short code of an operand, if it has one (R14). -/
def Opnd.short? : Opnd → Option Nat
  | .l n => some n
  | .o n => some (4 + n)
  | .v n => if n.val < 32 then some (20 + n) else none
  | .s n => if n.val < 8 then some (52 + n) else none
  | .zero => some 60
  | .lane => some 61
  | .lit _ => some 62
  | _ => none

/-- The long code of an operand (R55). -/
def Opnd.long : Opnd → Nat
  | .l n => n
  | .o n => 0x10 + n
  | .v n => 0x100 + n
  | .s n => 0x200 + n
  | .a n => 0x300 + n
  | .h n => 0x340 + n
  | .zero => 0x3F0
  | .lane => 0x3F1
  | .lit _ => 0x3F2
  | .team => 0x3F3
  | .block => 0x3F4
  | .core => 0x3F5
  | .quarter => 0x3F6
  | .cluster => 0x3F7
  | .die => 0x3F8
  | .nlanes => 0x3F9
  | .nteams => 0x3FA
  | .blane => 0x3FB
  | .depth => 0x3FC

/-- A source with full/empty state, the only kind whose T bit is not reserved (R59). -/
def Opnd.stateful : Opnd → Bool
  | .v _ => true
  | .s _ => true
  | _ => false

def Opnd.isSpecial : Opnd → Bool
  | .zero | .lane | .lit _ | .team | .block | .core | .quarter | .cluster | .die | .nlanes | .nteams | .blane
  | .depth => true
  | _ => false

/-- The operands a uniform instruction reads (R58). -/
def Opnd.isUniform : Opnd → Bool
  | .lane | .blane => false
  | .s _ => true
  | q => q.isSpecial

def Opnd.isLit : Opnd → Bool
  | .lit _ => true
  | _ => false

def Opnd.isS : Opnd → Bool
  | .s _ => true
  | _ => false

/-- An even v register, naming a pair (R38). -/
def Opnd.isEvenV : Opnd → Bool
  | .v n => n.val % 2 == 0
  | _ => false

/-- The operands of a class (R58 and the entries). -/
def Cls.ok (c : Cls) (o : Opnd) : Bool :=
  match c with
  | .laneSrc => match o with
    | .l _ | .o _ | .v _ | .s _ => true
    | q => q.isSpecial
  | .laneDst => match o with
    | .l n => n.val == 0
    | .o _ | .v _ | .zero => true
    | _ => false
  | .uniSrc => o.isUniform
  | .uniDst => o.isS || o == .zero
  | .sOnly => o.isS
  | .sOrLit => o.isS || o.isLit
  | .vOnly => match o with
    | .v _ => true
    | _ => false
  | .loadDst => match o with
    | .v _ | .zero => true
    | _ => false
  | .pairDst => o.isEvenV || o == .zero
  | .src64 => match o with
    | .v n => n.val % 2 == 0
    | .s _ => true
    | q => q.isSpecial
  | .term => o.isEvenV || o.isS || o.isLit || o == .zero
  | .target => o.isEvenV || o.isS || o.isLit
  | .quadDst => match o with
    | .v n => n.val % 4 == 0
    | _ => false
  | .quadSrc => match o with
    | .v n => n.val % 4 == 0
    | .zero => true
    | _ => false
  | .brsSrc => o.isS || o.isLit || o == .zero
  | .hOnly => match o with
    | .h _ => true
    | _ => false
  | .tile => match o with
    | .a _ => true
    | _ => false
  | .streamSrc => match o with
    | .s _ => false
    | q => q.isUniform
  | .zeroOnly => o == .zero
  | .entry => o.isS || o == .zero

/-! ### Slots -/

def Slot.opnd : Slot → Opnd
  | .op o _ => o
  | _ => .zero

def Slot.src : Slot → Src
  | .op o t => ⟨o, t⟩
  | _ => ⟨.zero, false⟩

def Slot.k : Slot → BitVec 6
  | .const k => k
  | _ => 0

def Slot.lit? : Slot → Option DWord
  | .op (.lit x) _ => some x
  | _ => Option.none

def Opnd.slot (o : Opnd) : Slot := .op o false
def Src.slot (s : Src) : Slot := .op s.op s.t

/-- The literal the fields read, if any (R57: they all read the same one). -/
def Fields.lit? (f : Fields) : Option DWord :=
  f.a.lit?.or (f.b.lit?.or (f.c.lit?.or f.d.lit?))

/-- The size in words (R52). -/
def Fields.words (f : Fields) : Nat := (if f.ext then 3 else 1) + (if f.lit?.isSome then 2 else 0)

/-! ### Operand records from fields, and back -/

def Fields.da (f : Fields) : DA := ⟨f.ext, f.d.opnd, f.a.src⟩
def Fields.dab (f : Fields) : DAB := ⟨f.ext, f.d.opnd, f.a.src, f.b.src⟩
def Fields.dabc (f : Fields) : DABC := ⟨f.ext, f.d.opnd, f.a.src, f.b.src, f.c.src⟩
def Fields.ab (f : Fields) : AB := ⟨f.ext, f.a.src, f.b.src⟩
def Fields.a1 (f : Fields) : A1 := ⟨f.ext, f.a.src⟩
def Fields.b1 (f : Fields) : A1 := ⟨f.ext, f.b.src⟩
def Fields.immArgs (f : Fields) : Imm := ⟨f.ext, f.d.opnd, f.x⟩
def Fields.jump (f : Fields) : Jump := ⟨f.ext, f.x⟩
def Fields.cbr (f : Fields) : Cbr := ⟨f.ext, f.b.src, f.x⟩
def Fields.ld (f : Fields) : LdArgs := ⟨f.ext, f.d.opnd, f.a.src, f.x⟩
def Fields.st (f : Fields) : StArgs := ⟨f.ext, f.a.src, f.b.src, f.x⟩
def Fields.rmw (f : Fields) : RmwArgs := ⟨f.ext, f.d.opnd, f.a.src, f.b.src, f.c.src, f.x⟩

def DA.fields (f : DA) (m : BitVec 20 := 0) : Fields := { ext := f.ext, d := f.d.slot, a := f.a.slot, m := m }
def DAB.fields (f : DAB) (m : BitVec 20 := 0) : Fields :=
  { ext := f.ext, d := f.d.slot, a := f.a.slot, b := f.b.slot, m := m }
def DABC.fields (f : DABC) (m : BitVec 20 := 0) : Fields :=
  { ext := f.ext, d := f.d.slot, a := f.a.slot, b := f.b.slot, c := f.c.slot, m := m }
def AB.fields (f : AB) (m : BitVec 20 := 0) : Fields := { ext := f.ext, a := f.a.slot, b := f.b.slot, m := m }
def A1.fields (f : A1) : Fields := { ext := f.ext, a := f.a.slot }
def A1.bfields (f : A1) : Fields := { ext := f.ext, b := f.a.slot }
def Imm.fields (f : Imm) : Fields := { ext := f.ext, d := f.d.slot, x := f.imm }
def Jump.fields (f : Jump) : Fields := { ext := f.ext, x := f.off }
def Cbr.fields (f : Cbr) : Fields := { ext := f.ext, b := f.b.slot, x := f.off }
def LdArgs.fields (f : LdArgs) : Fields := { ext := f.ext, d := f.d.slot, a := f.a.slot, x := f.x }
def StArgs.fields (f : StArgs) (m : BitVec 20 := 0) : Fields :=
  { ext := f.ext, a := f.a.slot, b := f.b.slot, x := f.x, m := m }
def RmwArgs.fields (f : RmwArgs) (cas : Bool) (m : BitVec 20 := 0) : Fields :=
  { ext := f.ext, d := f.d.slot, a := f.a.slot, b := f.b.slot, c := if cas then f.c.slot else .none, x := f.x, m := m }

/-! ### Modifier codes (R63 and the entries) -/

/-- The modifier field at `lo`, `n` bits wide. -/
def mf (m : BitVec 20) (lo n : Nat) : Nat := field m lo n

def Rm.code : Rm → Nat | .rn => 0 | .rz => 1 | .rp => 2 | .rm => 3 | .rs => 4
def Rm.ofCode : Nat → Rm | 1 => .rz | 2 => .rp | 3 => .rm | 4 => .rs | _ => .rn
def Sat.code : Sat → Nat | .dflt => 0 | .sat => 1 | .nosat => 2
def Sat.ofCode : Nat → Sat | 1 => .sat | 2 => .nosat | _ => .dflt
def Cond.code : Cond → Nat | .gt => 0 | .ge => 1 | .lt => 2 | .le => 3 | .eq => 4 | .ne => 5
def Cond.ofCode : Nat → Cond | 1 => .ge | 2 => .lt | 3 => .le | 4 => .eq | 5 => .ne | _ => .gt
def Sign.code : Sign → Nat | .s => 0 | .u => 1
def Sign.ofCode : Nat → Sign | 1 => .u | _ => .s
def ScanOp.code : ScanOp → Nat
  | .addIncl => 0 | .addExcl => 1 | .maxSIncl => 2 | .maxSExcl => 3 | .maxUIncl => 4 | .maxUExcl => 5
def ScanOp.ofCode : Nat → ScanOp
  | 1 => .addExcl | 2 => .maxSIncl | 3 => .maxSExcl | 4 => .maxUIncl | 5 => .maxUExcl | _ => .addIncl
def FCond.code : FCond → Nat
  | .eq => 0 | .ne => 1 | .lt => 2 | .le => 3 | .gt => 4 | .ge => 5 | .un => 6 | .ord => 7
def FCond.ofCode : Nat → FCond
  | 1 => .ne | 2 => .lt | 3 => .le | 4 => .gt | 5 => .ge | 6 => .un | 7 => .ord | _ => .eq
def HalfFmt.code : HalfFmt → Nat | .f16 => 0 | .bf16 => 1
def HalfFmt.ofCode : Nat → HalfFmt | 1 => .bf16 | _ => .f16
def Fmt.code : Fmt → Nat
  | .bf16 => 1 | .f16 => 2 | .e4m3 => 3 | .e5m2 => 4 | .e2m3 => 5 | .e3m2 => 6 | .e2m1 => 7 | .s32 => 8 | .u32 => 9
  | .s8 => 0xA | .s4 => 0xB | .e8m0 => 0xC
def Fmt.ofCode : Nat → Fmt
  | 2 => .f16 | 3 => .e4m3 | 4 => .e5m2 | 5 => .e2m3 | 6 => .e3m2 | 7 => .e2m1 | 8 => .s32 | 9 => .u32
  | 0xA => .s8 | 0xB => .s4 | 0xC => .e8m0 | _ => .bf16
def Dot4Fmt.code : Dot4Fmt → Nat | .e4m3 => 0 | .e5m2 => 1 | .s8 => 2 | .e2m3 => 3 | .e3m2 => 4
def Dot4Fmt.ofCode : Nat → Dot4Fmt | 1 => .e5m2 | 2 => .s8 | 3 => .e2m3 | 4 => .e3m2 | _ => .e4m3
def Dot8Fmt.code : Dot8Fmt → Nat | .e2m1 => 0 | .s4 => 1
def Dot8Fmt.ofCode : Nat → Dot8Fmt | 1 => .s4 | _ => .e2m1
def LdSize.code : LdSize → Nat | .b => 0 | .h => 1 | .w => 2 | .d => 3 | .sb => 4 | .sh => 5
def LdSize.ofCode : Nat → LdSize | 1 => .h | 2 => .w | 3 => .d | 4 => .sb | 5 => .sh | _ => .b
def StSize.code : StSize → Nat | .b => 0 | .h => 1 | .w => 2 | .d => 3
def StSize.ofCode : Nat → StSize | 1 => .h | 2 => .w | 3 => .d | _ => .b
def WD.code : WD → Nat | .w => 0 | .d => 1
def WD.ofCode : Nat → WD | 1 => .d | _ => .w
def AOp.code : AOp → Nat
  | .add => 0 | .fadd => 1 | .minS => 2 | .minU => 3 | .maxS => 4 | .maxU => 5 | .and => 6 | .or => 7 | .xor => 8
  | .xchg => 9 | .cas => 0xA | .fmin => 0xB | .fmax => 0xC
def AOp.ofCode : Nat → AOp
  | 1 => .fadd | 2 => .minS | 3 => .minU | 4 => .maxS | 5 => .maxU | 6 => .and | 7 => .or | 8 => .xor
  | 9 => .xchg | 0xA => .cas | 0xB => .fmin | 0xC => .fmax | _ => .add
def VOp.code : VOp → Nat
  | .add => 1 | .fadd => 2 | .minS => 3 | .maxS => 4 | .minU => 5 | .maxU => 6 | .or => 7 | .fmin => 8 | .fmax => 9
def VOp.ofCode : Nat → VOp
  | 2 => .fadd | 3 => .minS | 4 => .maxS | 5 => .minU | 6 => .maxU | 7 => .or | 8 => .fmin | 9 => .fmax | _ => .add
def Place.code : Place → Nat | .predictor => 0 | .home => 1 | .near => 2
def Place.ofCode : Nat → Place | 1 => .home | 2 => .near | _ => .predictor
def CtxSel.code : CtxSel → Nat | .tt => 0 | .ht => 1 | .bp => 2 | .cb => 3 | .ct => 4 | .cs => 5
def CtxSel.ofCode : Nat → CtxSel | 1 => .ht | 2 => .bp | 3 => .cb | 4 => .ct | 5 => .cs | _ => .tt
def Rop.code : Rop → Nat
  | .add => 0 | .minS => 1 | .minU => 2 | .maxS => 3 | .maxU => 4 | .and => 5 | .or => 6 | .xor => 7
def Rop.ofCode : Nat → Rop
  | 1 => .minS | 2 => .minU | 3 => .maxS | 4 => .maxU | 5 => .and | 6 => .or | 7 => .xor | _ => .add
def MFmt.code : MFmt → Nat
  | .bf16 => 1 | .f16 => 2 | .e4m3 => 3 | .e5m2 => 4 | .e2m3 => 5 | .e3m2 => 6 | .e2m1 => 7 | .s8 => 0xA | .s4 => 0xB
def MFmt.ofCode : Nat → MFmt
  | 2 => .f16 | 3 => .e4m3 | 4 => .e5m2 | 5 => .e2m3 | 6 => .e3m2 | 7 => .e2m1 | 0xA => .s8 | 0xB => .s4 | _ => .bf16
/-- The nine formats of R227. -/
def mfmtOk (n : Nat) : Bool := (1 ≤ n && n ≤ 7) || n == 0xA || n == 0xB
def RdFmt.code : RdFmt → Nat | .f32 => 0 | .bf16 => 1 | .f16 => 2
def RdFmt.ofCode : Nat → RdFmt | 1 => .bf16 | 2 => .f16 | _ => .f32
def RdFmt.size : RdFmt → Nat | .f32 => 4 | _ => 2
def Dir.code : Dir → Nat | .g2n => 0 | .n2g => 1 | .n2n => 2 | .g2g => 3
def Dir.ofCode : Nat → Dir | 1 => .n2g | 2 => .n2n | 3 => .g2g | _ => .g2n
def CollOp.code : CollOp → Nat | .allred => 0 | .redsc => 1 | .allgat => 2 | .bcast => 3
def CollOp.ofCode : Nat → CollOp | 1 => .redsc | 2 => .allgat | 3 => .bcast | _ => .allred
def CollRop.code : CollRop → Nat | .add => 0 | .max => 1 | .min => 2
def CollRop.ofCode : Nat → CollRop | 1 => .max | 2 => .min | _ => .add
def CollFmt.code : CollFmt → Nat
  | .f32 => 0 | .bf16 => 1 | .f16 => 2 | .s32 => 8 | .e4m3 => 3 | .e5m2 => 4 | .e2m3 => 5 | .e3m2 => 6 | .e2m1 => 7
def CollFmt.ofCode : Nat → CollFmt
  | 1 => .bf16 | 2 => .f16 | 3 => .e4m3 | 4 => .e5m2 | 5 => .e2m3 | 6 => .e3m2 | 7 => .e2m1 | 8 => .s32 | _ => .f32
def TestForm.code : TestForm → Nat | .plain => 0 | .id => 1 | .tok => 2
def TestForm.ofCode : Nat → TestForm | 1 => .id | 2 => .tok | _ => .plain
def Scope.code : Scope → Nat | .lane => 0 | .team => 1 | .block => 2 | .die => 3 | .device => 4 | .system => 5
def Scope.ofCode : Nat → Scope | 1 => .team | 2 => .block | 3 => .die | 4 => .device | 5 => .system | _ => .lane
def CClass.code : CClass → Nat | .copy => 0 | .coll => 1 | .promote => 2 | .wl => 3 | .matrix => 4
def CClass.ofCode : Nat → CClass | 1 => .coll | 2 => .promote | 3 => .wl | 4 => .matrix | _ => .copy

/-- The barrier a command credits: BC in bit 6, N in bits [5:0] (R252). -/
def creditOf (m : BitVec 20) : Option (Fin 64) :=
  if m.getLsbD 6 then some (Fin.ofNat 64 (mf m 0 6)) else none
def creditCode : Option (Fin 64) → Nat
  | some n => 64 + n
  | none => 0
/-- BC = 0 with N ≠ 0 is unassigned (R252). -/
def creditOk (m : BitVec 20) : Bool := m.getLsbD 6 || mf m 0 6 == 0

/-! ### The opcode map (R67 to R72) -/

/-- Only the rounding modes 0 to 3 (R63, R154). -/
def rm03 (m : BitVec 20) : Bool := m.toNat ≤ 3
/-- No constant bit is reserved, and any value up to `n` is assigned. -/
def kUpTo (n : Nat) : Spec := .const 0 (fun k => k.toNat ≤ n)

def rDA (mk : DA → Instr) : Row := ⟨{ d := .cls .laneDst, a := .cls .laneSrc }, fun f => mk f.da⟩
def rDAB (mk : DAB → Instr) : Row :=
  ⟨{ d := .cls .laneDst, a := .cls .laneSrc, b := .cls .laneSrc }, fun f => mk f.dab⟩
def rDABC (mk : DABC → Instr) : Row :=
  ⟨{ d := .cls .laneDst, a := .cls .laneSrc, b := .cls .laneSrc, c := .cls .laneSrc, dabc := true }, fun f => mk f.dabc⟩
def rDArm (mk : Rm → DA → Instr) : Row :=
  ⟨{ d := .cls .laneDst, a := .cls .laneSrc, modOk := rm03 }, fun f => mk (Rm.ofCode (mf f.m 0 3)) f.da⟩
def rDABrm (mk : Rm → DAB → Instr) : Row :=
  ⟨{ d := .cls .laneDst, a := .cls .laneSrc, b := .cls .laneSrc, modOk := rm03 },
   fun f => mk (Rm.ofCode (mf f.m 0 3)) f.dab⟩
def rDABCrm (mk : Rm → DABC → Instr) : Row :=
  ⟨{ d := .cls .laneDst, a := .cls .laneSrc, b := .cls .laneSrc, c := .cls .laneSrc, dabc := true, modOk := rm03 },
   fun f => mk (Rm.ofCode (mf f.m 0 3)) f.dabc⟩
def rUni2 (mk : DAB → Instr) : Row :=
  ⟨{ d := .cls .uniDst, a := .cls .uniSrc, b := .cls .uniSrc }, fun f => mk f.dab⟩
def rJump (mk : Jump → Instr) : Row := ⟨{ lay := .jump, x := true }, fun f => mk f.jump⟩
def rCbr (b : Cls) (mk : Cbr → Instr) : Row := ⟨{ lay := .cbr, b := .cls b, x := true }, fun f => mk f.cbr⟩
def rNone (i : Instr) : Row := ⟨{ lay := .none }, fun _ => i⟩
def rA (c : Cls) (mk : A1 → Instr) : Row := ⟨{ a := .cls c }, fun f => mk f.a1⟩

/-- Majors 0x00 to 0x0D (R67). -/
def rowLane (maj min : Nat) : Option Row :=
  match maj, min with
  | 0x00, 1 => some (rDA .mov)
  | 0x00, 2 => some ⟨{ lay := .imm, d := .cls .laneDst, x := true }, fun f => .movi f.immArgs⟩
  | 0x00, 3 => some (rDABC .sel)
  | 0x01, 0 => some (rDAB .iadd)
  | 0x01, 1 => some (rDAB .isub)
  | 0x01, 2 => some (rDA .ineg)
  | 0x01, 3 => some (rDA .iabs)
  | 0x01, 4 => some ⟨{ d := .cls .pairDst, a := .cls .src64, b := .cls .src64 }, fun f => .iadd64 f.dab⟩
  | 0x02, 0 => some (rDAB .imul)
  | 0x02, 1 => some (rDAB .imulhS)
  | 0x02, 2 => some (rDAB .imulhU)
  | 0x02, 3 => some (rDABC .imad)
  | 0x03, 0 => some (rDAB .iminS)
  | 0x03, 1 => some (rDAB .iminU)
  | 0x03, 2 => some (rDAB .imaxS)
  | 0x03, 3 => some (rDAB .imaxU)
  | 0x04, 0 => some (rDAB .shl)
  | 0x04, 1 => some (rDAB .shr)
  | 0x04, 2 => some (rDAB .sar)
  | 0x04, 3 => some (rDAB .rotl)
  | 0x05, 0 => some (rDA .clz)
  | 0x05, 1 => some (rDA .popc)
  | 0x05, 2 => some (rDA .brev)
  | 0x06, n => if n % 8 < 6 then some (rDAB (.icmp (Cond.ofCode (n % 8)) (Sign.ofCode (n / 8)))) else none
  | 0x07, 0 => some (rDAB .and)
  | 0x07, 1 => some (rDAB .or)
  | 0x07, 2 => some (rDAB .xor)
  | 0x07, 3 => some (rDAB .andn)
  | 0x07, 4 => some (rDA .not)
  | 0x08, 0 => some (rDAB .bfxU)
  | 0x08, 1 => some (rDAB .bfxS)
  | 0x08, 2 => some (rDABC .bfi)
  | 0x0A, 0 => some (rDAB .shfl)
  | 0x0A, 1 => some (rDAB .shflx)
  | 0x0A, 2 => some ⟨{ d := .cls .laneDst, a := .cls .laneSrc, b := .cls .uniSrc }, fun f => .bcast f.dab⟩
  | 0x0C, 0 => some (rDA .ballot)
  | 0x0C, 1 => some (rDA .vany)
  | 0x0C, 2 => some (rDA .vall)
  | 0x0D, n => if n < 6 then some (rDA (.scan (ScanOp.ofCode n))) else none
  | _, _ => none

/-- A conversion's MOD: RM, .rs only to a float destination (R160), and SAT, .nosat only where R150 gives it. -/
def cvtModOk (k : Nat) (m : BitVec 20) : Bool :=
  let flt := k ≤ 7
  m.toNat < 32 && (mf m 0 3 ≤ 3 || (mf m 0 3 == 4 && flt)) && (mf m 3 2 ≤ 1 || (mf m 3 2 == 2 && k ≤ 4))

/-- Elements of a format in a word (R147). -/
def fmtPerWord (k : Nat) : Nat := if k ≤ 2 then 2 else if k == 7 || k == 0xB then 8 else 4

/-- Majors 0x10 to 0x1F (R68). -/
def rowFloat (maj min : Nat) : Option Row :=
  match maj, min with
  | 0x10, 0 => some (rDABrm .fadd)
  | 0x10, 1 => some (rDABrm .fsub)
  | 0x10, 2 => some (rDABrm .fmul)
  | 0x10, 3 => some (rDABCrm .ffma)
  | 0x11, 0 => some (rDAB .fmin)
  | 0x11, 1 => some (rDAB .fmax)
  | 0x12, n => if n < 8 then some (rDAB (.fcmp (FCond.ofCode n))) else none
  | 0x13, 0 => some (rDArm .frcp)
  | 0x13, 1 => some (rDArm .frsq)
  | 0x13, 2 => some (rDArm .fsqrt)
  | 0x13, 3 => some (rDArm .fexp2)
  | 0x13, 4 => some (rDArm .flog2)
  | 0x14, 0 => some (rDArm .frnd)
  | 0x14, 1 => some (rDA .fclass)
  | 0x15, n =>
    if n < 2 then some (rDABrm (.h2add (HalfFmt.ofCode n)))
    else if n < 4 then some (rDABrm (.h2mul (HalfFmt.ofCode (n - 2))))
    else if n < 6 then some (rDABCrm (.h2fma (HalfFmt.ofCode (n - 4)))) else none
  | 0x18, n => if n < 5 then some (rDABCrm (.dot4 (Dot4Fmt.ofCode n))) else none
  | 0x19, n => if n < 2 then some (rDABCrm (.dot8 (Dot8Fmt.ofCode n))) else none
  | 0x1A, 0 => some (rDABrm .fscl)
  | 0x1C, n => if 1 ≤ n ∧ n ≤ 0xC then
      some ⟨{ d := .cls .laneDst, a := .cls .laneSrc, modOk := cvtModOk n },
        fun f => .fcvtFromF32 (Fmt.ofCode n) (Rm.ofCode (mf f.m 0 3)) (Sat.ofCode (mf f.m 3 2)) f.da⟩ else none
  | 0x1D, n => if 1 ≤ n ∧ n ≤ 0xC then
      some ⟨{ d := .cls .laneDst, a := .cls .laneSrc, modOk := rm03 },
        fun f => .fcvtToF32 (Fmt.ofCode n) (Rm.ofCode (mf f.m 0 3)) f.da⟩ else none
  | 0x1E, n => if (1 ≤ n ∧ n ≤ 7) ∨ n = 0xA ∨ n = 0xB then
      some ⟨{ d := .cls .laneDst, a := .cls .laneSrc, b := .cls .laneSrc,
              modOk := (fun m => cvtModOk n (m &&& 0x1F) && m.toNat < 128 && 2 * mf m 5 2 < fmtPerWord n) },
        fun f => .fpack (Fmt.ofCode n) (Rm.ofCode (mf f.m 0 3)) (Sat.ofCode (mf f.m 3 2)) (Fin.ofNat 4 (mf f.m 5 2)) f.dab⟩
    else none
  | 0x1F, n => if (1 ≤ n ∧ n ≤ 7) ∨ n = 0xA ∨ n = 0xB then some (rDAB (.funpack (Fmt.ofCode n))) else none
  | _, _ => none

/-- A load row: destination class, address class. -/
def rLd (d a : Cls) (mk : LdArgs → Instr) : Row := ⟨{ d := .cls d, a := .cls a, x := true }, fun f => mk f.ld⟩
/-- A store row: address class, value class. -/
def rSt (a b : Cls) (mk : StArgs → Instr) : Row := ⟨{ a := .cls a, b := .cls b, x := true }, fun f => mk f.st⟩

/-- MOD of gatom and gred (R132): SZ, PLACE other than 3, no dword float. -/
def gModOk (op : AOp) (m : BitVec 20) : Bool :=
  m.toNat < 8 && mf m 1 2 ≠ 3 && !(m.getLsbD 0 && (op == .fadd || op == .fmin || op == .fmax))

/-- Majors 0x20 to 0x2B (R69). -/
def rowNear (maj min : Nat) (m : BitVec 20) : Option Row :=
  match maj, min with
  | 0x20, n => if n < 6 then
      some (rLd (if n = 3 then .pairDst else .loadDst) .laneSrc (.ld (LdSize.ofCode n))) else none
  | 0x21, n => if n < 4 then some (rSt .laneSrc (if n = 3 then .src64 else .laneSrc) (.st (StSize.ofCode n))) else none
  | 0x22, 0 => some (rLd .quadDst .laneSrc .ldq)
  | 0x22, 1 => some (rSt .laneSrc .quadSrc .stq)
  | 0x23, 0 => some (rLd .uniDst .uniSrc (.lds .w))
  | 0x23, 1 => some (rLd .uniDst .uniSrc (.lds .d))
  | 0x23, 2 => some (rSt .uniSrc .uniSrc (.sts .w))
  | 0x23, 3 => some (rSt .uniSrc .uniSrc (.sts .d))
  | 0x24, 2 => some (rSt .uniSrc .laneSrc (.cmpst .w))
  | 0x24, 3 => some (rSt .uniSrc .src64 (.cmpst .d))
  | 0x25, 2 => some (rLd .loadDst .uniSrc (.exld .w))
  | 0x25, 3 => some (rLd .pairDst .uniSrc (.exld .d))
  | 0x26, 0 => some ⟨{ a := .cls .laneSrc, b := .cls .laneSrc }, fun f => .spl f.ab⟩
  | 0x26, 1 => some ⟨{ d := .cls .loadDst, a := .cls .laneSrc }, fun f => .fil f.da⟩
  | 0x27, 0 => some ⟨{ d := .cls .uniDst, a := .cls .uniSrc, b := .cls .uniSrc, modOk := (fun m => m.toNat < 1024) },
      fun f => .lsget (f.m.setWidth 10) f.dab⟩
  | 0x27, 1 => some ⟨{ d := .cls .uniDst, a := .cls .uniSrc, b := .cls .uniSrc, modOk := (fun m => m.toNat < 1024) },
      fun f => .lsret (f.m.setWidth 10) f.dab⟩
  | 0x28, n => if n ≤ 0xC then
      some ⟨{ d := .cls .loadDst, a := .cls .laneSrc, b := .cls .laneSrc, x := true, dabc := (n == 0xA),
              c := (if n = 0xA then .cls .laneSrc else .unused) }, fun f => .satom (AOp.ofCode n) f.rmw⟩ else none
  | 0x29, n => if n ≤ 0xC then
      let vs : Cls := if m.getLsbD 0 then .src64 else .laneSrc
      some ⟨{ d := .cls (if m.getLsbD 0 then .pairDst else .loadDst), a := .cls .term, b := .cls vs, x := true,
              dabc := (n == 0xA), c := (if n = 0xA then .cls vs else .unused), modOk := gModOk (AOp.ofCode n) },
        fun f => .gatom (AOp.ofCode n) (Place.ofCode (mf f.m 1 2)) (WD.ofCode (mf f.m 0 1)) f.rmw⟩ else none
  | 0x2A, n => if n ≤ 0xC ∧ n ≠ 9 ∧ n ≠ 0xA then
      some ⟨{ a := .cls .term, b := .cls (if m.getLsbD 0 then .src64 else .laneSrc), x := true,
              modOk := gModOk (AOp.ofCode n) },
        fun f => .gred (AOp.ofCode n) (Place.ofCode (mf f.m 1 2)) (WD.ofCode (mf f.m 0 1)) f.st⟩ else none
  | 0x2B, n => if n = 0 then some (rDA .cdet) else if n ≤ 9 then some (rDAB (.vcomb (VOp.ofCode n))) else none
  | _, _ => none

/-- Majors 0x2C to 0x35 (R70). -/
def rowTerm (maj min : Nat) (m : BitVec 20) : Option Row :=
  match maj, min with
  | 0x2C, 0 => some ⟨{ d := .cls .pairDst, a := .cls .laneSrc, b := .cls .laneSrc }, fun f => .tmk f.dab⟩
  | 0x2C, 1 => some ⟨{ d := .cls .laneDst, a := .cls .term }, fun f => .ttag f.da⟩
  | 0x2C, 2 => some ⟨{ d := .cls .pairDst, a := .cls .term }, fun f => .tval f.da⟩
  | 0x2C, 3 => some ⟨{ d := .cls .laneDst, a := .cls .term, b := kUpTo 15 }, fun f => .tis (f.b.k.setWidth 4) f.da⟩
  | 0x2C, 4 => some ⟨{ d := .cls .pairDst, a := .cls .term }, fun f => .deref f.da⟩
  | 0x2D, 0 => some ⟨{ d := .cls .loadDst, a := .cls .term, b := .cls .term }, fun f => .unify f.dab⟩
  | 0x2D, 1 => some ⟨{ d := .cls .loadDst, a := .cls .term, b := .cls .term }, fun f => .unifyOc f.dab⟩
  | 0x2D, 2 => some ⟨{ a := .cls .term, b := .cls .term }, fun f => .bind f.ab⟩
  | 0x2D, 3 =>
    if m.getLsbD 0 then
      some ⟨{ d := .cls .pairDst, extOnly := true, modOk := (fun m => m == 1) }, fun f => .mkvarH f.d.opnd⟩
    else some ⟨{ d := .cls .pairDst, a := .cls .laneSrc }, fun f => .mkvar f.da⟩
  | 0x2D, 4 => some ⟨{ d := .cls .pairDst, a := .cls .laneSrc, b := .cls .laneSrc }, fun f => .mkcvar f.dab⟩
  | 0x2D, 5 => some ⟨{ d := .cls .pairDst, a := .cls .laneSrc, b := .cls .laneSrc }, fun f => .mkstr f.dab⟩
  | 0x2D, 6 => some ⟨{ d := .cls .pairDst, a := .cls .term, b := .cls .laneSrc }, fun f => .getarg f.dab⟩
  | 0x2E, 0 => some ⟨{ d := .cls .laneDst, modOk := (fun m => m.toNat ≤ 5) },
      fun f => .tmark (CtxSel.ofCode (mf f.m 0 3)) f.ext f.d.opnd⟩
  | 0x2E, 1 => some (rA .laneSrc .untrail)
  | 0x2E, 2 => some (rA .laneSrc .bcol)
  | 0x2F, 0 => some (rJump .cpush)
  | 0x2F, 1 => some (rJump .cnext)
  | 0x2F, 2 => some (rNone .clast)
  | 0x2F, 3 => some (rA .laneSrc .cut)
  | 0x30, 0 => some (rJump .jmp)
  | 0x30, 1 => some (rA .target .jmpInd)
  | 0x31, 0 => some (rCbr .laneSrc .brc)
  | 0x31, 1 => some (rCbr .laneSrc .brcF)
  | 0x32, 0 => some (rCbr .brsSrc .brsNz)
  | 0x32, 1 => some (rCbr .brsSrc .brsZ)
  | 0x33, 0 => some (rJump .call)
  | 0x33, 1 => some (rA .sOrLit .callInd)
  | 0x33, 2 => some (rNone .ret)
  | 0x34, 0 => some (rCbr .brsSrc .sbar)
  | 0x34, 1 => some (rNone .sarr)
  | 0x34, 2 => some ⟨{ lay := .cbr, b := .const 0 (fun k => k.toNat ≠ 0), x := true }, fun f => .brk f.ext f.b.k f.x⟩
  | 0x35, 0 => some (rNone .exit)
  | 0x35, 1 => some (rJump .yield)
  | 0x35, 2 => some (rNone .nop)
  | _, _ => none

/-- A scale operand with a 16-bit format is unassigned (R234). -/
def scale16 (fmt : Nat) (f : Fields) : Bool := (fmt == 1 || fmt == 2) && f.b.opnd != .zero

/-- The C constant of mwld: [5] reserved, [4] SP, [3:0] FMT (R234). -/
def mwldC (sp : Bool) : Spec :=
  .const 0x20 (fun k => mfmtOk (field k 0 4) && (!k.getLsbD 4 || (sp && field k 0 4 ≠ 1 && field k 0 4 ≠ 2)))

/-- Majors 0x38 to 0x3B (R71, R234). -/
def rowMatrix (maj min : Nat) (m : BitVec 20) : Option Row :=
  match maj, min with
  | 0x38, 0 => some ⟨{
      a := .cls .streamSrc, b := .cls .streamSrc, c := mwldC true, extOnly := true,
      modOk := (fun m => m.toNat < 65536), bad05 := (fun f => scale16 (field f.c.k 0 4) f) },
      fun f => .mwld (MFmt.ofCode (field f.c.k 0 4)) (f.c.k.getLsbD 4) (f.m.setWidth 16) f.a.src f.b.src⟩
  | 0x38, 1 => some ⟨{
      a := .cls .streamSrc, b := .cls .streamSrc, c := mwldC false, extOnly := true,
      modOk := (fun m => m.toNat < 65536), bad05 := (fun f => scale16 (field f.c.k 0 4) f) },
      fun f => .mwldT (MFmt.ofCode (field f.c.k 0 4)) (f.m.setWidth 16) f.a.src f.b.src⟩
  | 0x38, 2 => some ⟨{
      d := kUpTo 7, a := .cls .streamSrc, b := .cls .streamSrc, extOnly := true,
      modOk := (fun m => mfmtOk (mf m 16 4) && mf m 8 7 ≠ 0 && mf m 0 8 ≠ 0),
      bad05 := (fun f => scale16 (mf f.m 16 4) f) },
      fun f => .mamap (Fin.ofNat 8 f.d.k.toNat) (MFmt.ofCode (mf f.m 16 4)) (f.m.getLsbD 15)
        (BitVec.ofNat 7 (mf f.m 8 7)) (BitVec.ofNat 8 (mf f.m 0 8)) f.a.src f.b.src⟩
  | 0x38, 3 => some ⟨{ d := .cls .tile, extOnly := true },
      fun f => .mclr (match f.d.opnd with | .a n => n | _ => 0)⟩
  | 0x39, n => if n < 2 then
      some ⟨{ d := .cls .tile, a := kUpTo 7, x := true, extOnly := true, modOk := (fun m => m.toNat < 2) },
        fun f => (if n = 0 then Instr.mmul else Instr.mmsp) (match f.d.opnd with | .a n => n | _ => 0)
          (Fin.ofNat 8 f.a.k.toNat) (f.m.getLsbD 0) f.x⟩ else none
  | 0x3A, 0 => some ⟨{
      a := .cls .uniSrc, b := .cls .tile, x := true, extOnly := true,
      modOk := (fun m => mf m 16 4 ≤ 2 && !m.getLsbD 15 && mf m 3 5 == 0 && mf m 0 3 ≤ 3 &&
        decide (32 * (RdFmt.ofCode (mf m 16 4)).size ≤ 16 * mf m 8 7)) },
      fun f => .mrd (RdFmt.ofCode (mf f.m 16 4)) (Rm.ofCode (mf f.m 0 3)) (BitVec.ofNat 7 (mf f.m 8 7)) f.a.src
        (match f.b.opnd with | .a n => n | _ => 0) f.x⟩
  | 0x3A, 1 => some ⟨{ d := .cls .vOnly, a := .cls .tile, b := .cls .uniSrc, extOnly := true },
      fun f => .mtov f.d.opnd (match f.a.opnd with | .a n => n | _ => 0) f.b.src⟩
  | 0x3A, 2 => some ⟨{ a := .const 0 (fun k => [0, 1, 2, 3, 4, 8, 0xC, 0xF].contains k.toNat) },
      fun f => .mfuse f.ext (f.a.k.setWidth 4)⟩
  | 0x3B, 0 =>
    if m.getLsbD 0 then
      some ⟨{ a := .cls .streamSrc, b := .cls .streamSrc, extOnly := true, modOk := (fun m => m == 1) },
        fun f => .mbarWait f.a.src f.b.src⟩
    else some (rA .streamSrc .mbarArr)
  | 0x3B, 1 => some ⟨{ a := kUpTo 3 }, fun f => .mprio f.ext (Fin.ofNat 4 f.a.k.toNat)⟩
  | 0x3B, 2 => some (rCbr .streamSrc .mloop)
  | 0x3B, 3 => some (rNone .mend)
  | _, _ => none

/-- MOD of coll (R252, R273): OP, ROP and FMT as the section on collectives assigns them. -/
def collModOk (m : BitVec 20) : Bool :=
  m.toNat < 65536 && mf m 14 2 ≤ 2 && mf m 11 3 ≤ 3 && mf m 7 4 ≤ 8 && creditOk m &&
    (mf m 11 3 < 2 || mf m 14 2 == 0)

/-- The register number of an h operand. -/
def hNum : Opnd → Fin 16
  | .h n => n
  | _ => 0

/-- Major 0x3C (R71, R221, R252, R290, R298, R304): the source of the plain cpy, a global address, is an s register or the literal,
and that of its other directions any uniform operand. (DEDUCED, log 116) -/
def rowEngine (min : Nat) (m : BitVec 20) : Option Row :=
  match min with
  | 0x0 => some ⟨{
      d := .cls .uniDst, a := .cls .uniSrc, b := .cls (if mf m 7 2 = 0 then .sOrLit else .uniSrc), x := true, extOnly := true,
      modOk := (fun m => m.toNat < 512 && creditOk m) },
      fun f => .cpy (Dir.ofCode (mf f.m 7 2)) (creditOf f.m) f.d.opnd f.a.src f.b.src f.x⟩
  | 0x1 => some ⟨{
      d := .cls .uniDst, a := .cls .uniSrc, b := .cls .uniSrc, c := .cls .uniSrc, extOnly := true,
      modOk := (fun m => m.toNat < 512 && creditOk m) },
      fun f => .cpy2 (Dir.ofCode (mf f.m 7 2)) (creditOf f.m) f.d.opnd f.a.src f.b.src f.c.src⟩
  | 0x2 =>
    if m.getLsbD 7 then
      some ⟨{ d := .cls .uniDst, a := .cls .uniSrc, b := .cls .uniSrc, c := .cls .hOnly, extOnly := true,
              modOk := (fun m => !m.getLsbD 9 && !m.getLsbD 8 && creditOk m) },
        fun f => .cpyxH (BitVec.ofNat 10 (mf f.m 10 10)) (creditOf f.m) f.d.opnd f.a.src f.b.src (hNum f.c.opnd)⟩
    else
      some ⟨{ d := .cls .uniDst, a := .cls .uniSrc, b := .cls .uniSrc, c := .cls .uniSrc, x := true, extOnly := true,
              modOk := (fun m => !m.getLsbD 8 && creditOk m), bad05 := (fun f => Cls.hOnly.ok f.c.opnd) },
        fun f => .cpyx (f.m.getLsbD 9) (BitVec.ofNat 10 (mf f.m 10 10)) (creditOf f.m) f.d.opnd f.a.src f.b.src
          f.c.src f.x⟩
  | 0x3 => some ⟨{
      d := .cls .uniDst, a := .cls .uniSrc, b := .cls .uniSrc, c := .cls .uniSrc, x := true,
      extOnly := true, modOk := (fun m => m.toNat < 512 && creditOk m && !m.getLsbD 7) },
      fun f => .cpym (f.m.getLsbD 8) (creditOf f.m) f.d.opnd f.a.src f.b.src f.c.src f.x⟩
  | 0x4 => some ⟨{ d := .cls .uniDst, a := .cls .uniSrc, b := .cls .uniSrc, extOnly := true, modOk := collModOk },
      fun f => .coll (CollOp.ofCode (mf f.m 11 3)) (CollFmt.ofCode (mf f.m 7 4)) (CollRop.ofCode (mf f.m 14 2))
        (creditOf f.m) f.d.opnd f.a.src f.b.src⟩
  | 0x5 => some ⟨{
      d := .cls .uniDst, a := .cls .uniSrc, b := .cls .uniSrc, c := .cls .uniSrc, x := true,
      extOnly := true }, fun f => .amsg f.d.opnd f.a.src f.b.src f.c.src f.x⟩
  | 0x6 => some ⟨{
      d := .cls .uniDst, a := .clsNoT (if mf m 0 2 = 2 then .uniSrc else .sOnly),
      modOk := (fun m => m.toNat ≤ 2) }, fun f => .ftest (TestForm.ofCode (mf f.m 0 2)) f.ext f.d.opnd f.a.opnd⟩
  | 0x7 => some ⟨{ a := .clsNoT (if m.getLsbD 0 then .uniSrc else .sOnly), modOk := (fun m => m.toNat ≤ 1) },
      fun f => .fcan (f.m.getLsbD 0) f.ext f.a.opnd⟩
  | 0x8 => some ⟨{ d := .cls .uniDst, a := .cls .term, b := .cls .laneSrc, modOk := (fun m => m.toNat < 64) },
      fun f => .wlpush (f.m.setWidth 6) f.dab⟩
  | 0x9 => some ⟨{ d := .cls .sOnly, a := .cls .uniSrc }, fun f => .wlpull f.da⟩
  | 0xA => some ⟨{ d := .cls .sOnly, a := .cls .uniSrc, b := .cls .uniSrc }, fun f => .wlsteal f.dab⟩
  | 0xB => some ⟨{ d := .cls .uniDst, a := .cls .uniSrc, extOnly := true }, fun f => .childLaunch f.d.opnd f.a.src⟩
  | 0xC => some ⟨{ d := .cls .hOnly, a := .cls .sOrLit, extOnly := true }, fun f => .hld (hNum f.d.opnd) f.a.src⟩
  | 0xD => some ⟨{ d := .cls .hOnly, a := .cls .uniSrc, b := kUpTo 5, extOnly := true },
      fun f => .hset (hNum f.d.opnd) (Fin.ofNat 6 f.b.k.toNat) f.a.src⟩
  | 0xE => some ⟨{ d := .cls .uniDst, a := .cls .hOnly, b := kUpTo 7, extOnly := true },
      fun f => .hget f.d.opnd (hNum f.a.opnd) (Fin.ofNat 8 f.b.k.toNat)⟩
  | 0xF => some ⟨{ d := .cls .uniDst, a := .cls .hOnly, b := kUpTo 1, extOnly := true },
      fun f => (if f.b.k = 1 then Instr.hchkWalk else Instr.hchkReport) f.d.opnd (hNum f.a.opnd)⟩
  | _ => none

/-- A barrier row (R268): X is added to B. -/
def rBar (mk : StArgs → Instr) : Row := ⟨{ a := .cls .uniSrc, b := .cls .uniSrc, x := true }, fun f => mk f.st⟩

/-- Majors 0x3D and 0x3E (R71, R268, R309, R339). An X of cwait that IMM14 cannot hold raises the reserved-bits trap (R262).
(DEDUCED, log 123) -/
def rowSync (maj min : Nat) (m : BitVec 20) : Option Row :=
  match maj, min with
  | 0x3D, 0 => some (rBar .barInit)
  | 0x3D, 1 => some (rBar .barExp)
  | 0x3D, 2 =>
    if m.getLsbD 0 then
      some ⟨{ a := .cls .uniSrc, b := .cls .zeroOnly, modOk := (fun m => m == 1) }, fun f => .barArr true f.st⟩
    else some (rBar (.barArr false))
  | 0x3D, 3 => some (rBar .barWait)
  | 0x3D, 4 => some (rNone .gbar)
  | 0x3D, 5 => some ⟨{ b := kUpTo 5 }, fun f => .fence (Scope.ofCode f.b.k.toNat) f.ext⟩
  | 0x3D, 6 => some ⟨{ lay := .imm, d := kUpTo 4, x := true, xResv := (fun x => decide (16384 ≤ x.toNat)) },
      fun f => .cwait (CClass.ofCode f.d.k.toNat) f.ext (f.x.setWidth 14)⟩
  | 0x3E, 0 => some ⟨{ d := .cls .sOnly, x := true, extOnly := true }, fun f => .arbeg f.d.opnd f.x⟩
  | 0x3E, 1 => some ⟨{ a := .cls .sOrLit, b := .cls .uniSrc }, fun f => .arrng f.ab⟩
  | 0x3E, 2 => some (rLd .vOnly .target .arld)
  | 0x3E, 3 =>
    if m.getLsbD 2 then
      some ⟨{ a := .cls .target, b := .cls .laneSrc, c := .cls .vOnly, x := true, extOnly := true,
              modOk := (fun m => m.toNat < 8) },
        fun f => .arstIx (BitVec.ofNat 2 (mf f.m 0 2)) f.a.src f.b.src f.c.src f.x⟩
    else some ⟨{ a := .cls .target, b := .cls .laneSrc, c := .zero05, x := true,
                   modOk := (fun m => m.toNat < 4) }, fun f => .arst f.st⟩
  | 0x3E, 4 => some (rNone .arend)
  | 0x3E, 5 => some (rA .laneSrc .arabt)
  | 0x3E, 6 => some ⟨{ d := .cls .uniDst, a := .cls .sOrLit }, fun f => .prom f.da⟩
  | 0x3E, 7 => some ⟨{ d := .cls .uniDst, a := .cls .sOrLit }, fun f => .promPin f.da⟩
  | 0x3E, 8 => some ⟨{ d := .cls .uniDst, a := .cls .sOrLit }, fun f => .dem f.da⟩
  | 0x3E, 9 => some ⟨{ d := .cls .uniDst, a := .cls .sOrLit }, fun f => .lclass f.da⟩
  | _, _ => none

/-- The condition of scmp (R95). -/
def scmpModOk (m : BitVec 20) : Bool := m.toNat < 16 && m.toNat % 8 < 6

/-- A system row's shape: the sub-operation stands in D as a constant (R72). -/
def sysSig (a b : Spec) : Sig := { d := kUpTo 7, a := a, b := b }

/-- The register of a sysw whose number is a literal: the rows of R374 that RPC and RMASK have of their own. -/
def syswRow (f : AB) : Instr :=
  match f.a.op with
  | .lit n => if n = 0x10 then .rpcWrite f else if 0x100 ≤ n.toNat ∧ n.toNat < 0x120 then .rmaskWrite f else .sysw f
  | _ => .sysw f

/-- Major 0x3F (R72). `kd` is the D field, which holds the system group's sub-operation. -/
def rowUni (min : Nat) (kd : Nat) : Option Row :=
  match min with
  | 0x0 => some ⟨{ d := .cls .uniDst, a := .cls .uniSrc }, fun f => .smov f.da⟩
  | 0x1 => some ⟨{ lay := .imm, d := .cls .uniDst, x := true }, fun f => .smovi f.immArgs⟩
  | 0x2 => some (rUni2 .sadd)
  | 0x3 => some (rUni2 .ssub)
  | 0x4 => some (rUni2 .smul)
  | 0x5 => some (rUni2 .sand)
  | 0x6 => some (rUni2 .sor)
  | 0x7 => some (rUni2 .sxor)
  | 0x8 => some (rUni2 .sshl)
  | 0x9 => some (rUni2 .sshr)
  | 0xA => some ⟨{ d := .cls .uniDst, a := .cls .uniSrc, b := .cls .uniSrc, extOnly := true, modOk := scmpModOk },
      fun f => .scmp (Cond.ofCode (mf f.m 0 3)) (Sign.ofCode (mf f.m 3 1)) f.dab⟩
  | 0xB => some ⟨{ d := .cls .uniDst, a := .cls .uniSrc, b := .cls .uniSrc, c := .cls .uniSrc, dabc := true },
      fun f => .ssel f.dabc⟩
  | 0xC => some ⟨{ d := .cls .uniDst, a := .cls .vOnly, b := .cls .uniSrc }, fun f => .vtos f.dab⟩
  | 0xD => some ⟨{ d := .cls .uniDst, a := .cls .vOnly, modOk := (fun m => m.toNat < 8) },
      fun f => .sred (Rop.ofCode (mf f.m 0 3)) f.da⟩
  | 0xE => some ⟨{ lay := .pfx }, fun f => .pblk (f.x.setWidth 8) (BitVec.ofNat 3 (field f.x 8 3))
      (match f.b.opnd with | .v n => Fin.ofNat 32 n | _ => 0) f.b.src.t⟩
  | 0xF => match kd with
    | 0 => some ⟨sysSig .unused (.cls .entry), fun f => .rett f.b1⟩
    | 1 => some ⟨sysSig .unused (.cls .entry), fun f => .rettRel f.b1⟩
    | 2 => some ⟨sysSig .unused (.cls .entry), fun f => .rettDrop f.b1⟩
    | 3 => some ⟨sysSig (.dst .sOnly) (.cls .uniSrc), fun f => .sysr f.ext f.a.opnd f.b.src⟩
    | 4 => some ⟨sysSig (.cls .uniSrc) (.cls .uniSrc), fun f => syswRow f.ab⟩
    | 5 => some ⟨sysSig .unused (.cls .uniSrc), fun f => .trap f.b1⟩
    | 6 => some ⟨sysSig (.cls .uniSrc) (.cls .uniSrc), fun f => .ptlb f.ab⟩
    | 7 => some ⟨sysSig (.dst .sOnly) (.cls .uniSrc), fun f => .usg f.ext f.a.opnd f.b.src⟩
    | _ => none
  | _ => none

/-- The opcode map: the row of a major, a minor, MOD, and the constant in D. Absent: unassigned (R75). -/
def row (maj min : Nat) (m : BitVec 20) (kd : Nat) : Option Row :=
  if maj < 0x10 then rowLane maj min
  else if maj < 0x20 then rowFloat maj min
  else if maj < 0x2C then rowNear maj min m
  else if maj < 0x36 then rowTerm maj min m
  else if maj < 0x3C then rowMatrix maj min m
  else if maj = 0x3C then rowEngine min m
  else if maj = 0x3F then rowUni min kd
  else rowSync maj min m

/-- Where an instruction may stand: R73 for the stream, R74 for the copy role, R66 for pblk coverage. -/
def standing (maj min : Nat) : Standing :=
  let matrix := 0x38 ≤ maj && maj ≤ 0x3B
  let nop := maj == 0x35 && min == 2
  let mrd := maj == 0x3A && min == 0
  let mtov := maj == 0x3A && min == 1
  { stream := (matrix && !mtov) || nop
    team := !matrix || mrd || mtov
    copyRole := maj == 0x3D || (maj == 0x3F && !(min == 0xC || min == 0xD || min == 0xE)) ||
      (maj == 0x3C && [0, 1, 2, 3, 4, 6, 7].contains min) || (maj == 0x3E && [6, 7, 8].contains min) ||
      (maj == 0x30 && min == 0) || maj == 0x33 || maj == 0x32 || maj == 0x35
    cover := !((0x30 ≤ maj && maj ≤ 0x37) || (maj == 0x3F && (min == 0xE || min == 0xF)) || maj == 0x2F ||
      (maj == 0x3E && (min == 0 || min == 4))) }

/-! ### Parsing words -/

/-- The bits of an instruction as its form lays them out: each field's code, T bits, X, MOD, and the bits of the base word
that its layout reserves. -/
structure Raw where
  maj : Nat
  min : Nat
  ext : Bool
  lit : Option DWord
  d : Nat
  ta : Bool
  a : Nat
  tb : Bool
  b : Nat
  tc : Bool
  c : Nat
  x : BitVec 21
  m : BitVec 20
  low : BitVec 20
  deriving DecidableEq, Repr

/-- How many words the length field of the first word asks for (R52). -/
def wordCount (w0 : Word) : Nat :=
  (if w0.getLsbD 30 then 3 else 1) + (if w0.getLsbD 31 then 2 else 0)

def litOf (lo hi : Word) : DWord := hi ++ lo

/-- The common fields of a first word. -/
def headMaj (w0 : Word) : Nat := field w0 24 6
def headMin (w0 : Word) : Nat := field w0 20 4

/-- Splits the words of one instruction (R14, R54). The X of a base word is that of its layout. -/
def parse (lay : Layout) (ws : List Word) : Raw :=
  let w0 := ws.getD 0 0
  let low : BitVec 20 := w0.setWidth 20
  if w0.getLsbD 30 then
    let w1 := ws.getD 1 0
    let w2 := ws.getD 2 0
    { maj := headMaj w0, min := headMin w0, ext := true
      lit := if w0.getLsbD 31 then some (litOf (ws.getD 3 0) (ws.getD 4 0)) else none
      d := field w1 22 10, ta := w1.getLsbD 21, a := field w1 11 10, tb := w1.getLsbD 10, b := field w1 0 10
      c := field w2 22 10, tc := w2.getLsbD 21, x := w2.setWidth 21, m := low, low := 0 }
  else
    let lit := if w0.getLsbD 31 then some (litOf (ws.getD 1 0) (ws.getD 2 0)) else none
    let r : Raw := { maj := headMaj w0, min := headMin w0, ext := false, lit := lit, d := 0, ta := false, a := 0,
                     tb := false, b := 0, tc := false, c := 0, x := 0, m := 0, low := 0 }
    match lay with
    | .reg => { r with d := field w0 14 6, ta := w0.getLsbD 13, a := field w0 7 6, tb := w0.getLsbD 6, b := field w0 0 6 }
    | .imm => { r with d := field w0 14 6, x := (w0.setWidth 14).signExtend 21 }
    | .jump => { r with x := (w0.setWidth 20).signExtend 21 }
    | .cbr => { r with x := ((w0 >>> 7).setWidth 13).signExtend 21, tb := w0.getLsbD 6, b := field w0 0 6 }
    | .pfx => { r with tb := w0.getLsbD 6, b := field w0 0 6, x := BitVec.ofNat 21 (field w0 12 8 + 256 * field w0 9 3),
                       low := BitVec.ofNat 20 (field w0 7 2) }
    | .none => { r with low := low }

/-- The operand a code names in the form it stands in. -/
def Raw.opnd (r : Raw) (n : Nat) : Option Opnd :=
  if r.ext then longOpnd (r.lit.getD 0) n else shortOpnd (r.lit.getD 0) n

/-- A field holds the literal's code (R57). -/
def Raw.holdsLit (r : Raw) (n : Nat) : Bool := if r.ext then n == 0x3F2 else n == 62

def Spec.isConst : Spec → Bool
  | .const _ _ => true
  | _ => false

/-- A field that may count as a source field in R57: A, B or C, unless it holds a constant or a destination (R72). -/
def Spec.mayRead : Spec → Bool
  | .const _ _ | .dst _ => false
  | _ => true

/-- The literal rule of R57 over the operand fields: with a literal some source holds its code, without one no field does.
(DEDUCED, log 24) -/
def litRule (g : Sig) (r : Raw) : Bool :=
  let src := (g.a.mayRead && r.holdsLit r.a) || (g.b.mayRead && r.holdsLit r.b) ||
    (g.c.mayRead && r.holdsLit (if !r.ext && g.dabc then r.d else r.c))
  let dst := (!g.d.isConst && r.holdsLit r.d) || (!g.a.isConst && r.holdsLit r.a)
  match r.lit with
  | some _ => src
  | none => !(src || dst)

/-- The length rule of R75. -/
def lenRule (g : Sig) (r : Raw) : Bool :=
  match g.lay with
  | .pfx | .none => !r.ext && r.lit.isNone
  | .imm | .jump => r.lit.isNone
  | _ => r.ext || !g.extOnly

/-- A field's slot: the operand it names, or its constant. A reserved code reads as zero here and is trapped apart. -/
def slotOf (s : Spec) (r : Raw) (n : Nat) (t : Bool) : Slot :=
  match s with
  | .unused | .zero05 => .none
  | .const _ _ => .const (BitVec.ofNat 6 n)
  | .cls _ | .clsNoT _ | .dst _ => .op ((r.opnd n).getD .zero) t

/-- The fields of an instruction, C of a base three-source word taken from D (R61). -/
def fieldsOf (g : Sig) (r : Raw) : Fields :=
  { ext := r.ext
    d := slotOf g.d r r.d false
    a := slotOf g.a r r.a r.ta
    b := if g.lay = .pfx then .op ((r.opnd r.b).getD .zero) r.tb else slotOf g.b r r.b r.tb
    c := if !r.ext && g.dabc then slotOf g.d r r.d false else slotOf g.c r r.c r.tc
    x := r.x
    m := r.m }

/-- Reserved bits of one field (R54, R59, R60, R62): a code or T bit of an unused field, the T bit of an operand without
full/empty state, bits [9:6] of a constant, a constant's own reserved bits and its T bit. A reserved code names nothing
that has such state, so the T bit beside it is one of them. (DEDUCED, log 107) -/
def resvBad (s : Spec) (r : Raw) (n : Nat) (t : Bool) : Bool :=
  match s with
  | .unused => n != 0 || t
  | .zero05 => t
  | .const resv _ => n / 64 != 0 || t || (BitVec.ofNat 6 n &&& resv) != 0
  | .cls _ => t && !((r.opnd n).elim false Opnd.stateful)
  | .clsNoT _ | .dst _ => t

/-- A reserved operand code in a used field (R77, 0x03). -/
def codeBad (s : Spec) (r : Raw) (n : Nat) : Bool :=
  match s with
  | .cls _ | .clsNoT _ | .dst _ => (r.opnd n).isNone
  | _ => false

/-- A constant the entry does not assign (R63). -/
def constBad (s : Spec) (n : Nat) : Bool :=
  match s with
  | .const _ ok => !ok (BitVec.ofNat 6 n)
  | .zero05 => n != 0
  | _ => false

/-- A valid code of a class the field does not accept (R58). -/
def classBad (s : Spec) (r : Raw) (n : Nat) : Bool :=
  match s with
  | .cls c | .clsNoT c | .dst c => (r.opnd n).elim false (fun o => !c.ok o)
  | _ => false

/-- The checks of the fields, in the order 0x01, 0x03, 0x05, 0x02 (R78). -/
def fieldTrap (g : Sig) (r : Raw) : Option Byte :=
  let f := fieldsOf g r
  -- in a base word C has no field of its own
  let gc : Spec := if r.ext then g.c else .unused
  if g.lay = .pfx then
    -- bits [8:7], and PAT bits above position N (R16, R65)
    if r.low ≠ 0 || field r.x 0 8 / 2 ^ (field r.x 8 3 + 1) ≠ 0 || resvBad (.cls .vOnly) r r.b r.tb then some 0x01
    else match r.opnd r.b with
      | none => some 0x03
      | some (.v n) => if n.val < 32 then none else some 0x02
      | some _ => some 0x02
  else if r.low ≠ 0 || resvBad g.d r r.d false || resvBad g.a r r.a r.ta || resvBad g.b r r.b r.tb ||
      resvBad gc r r.c r.tc || (!g.x && r.x ≠ 0) || g.xResv (if r.ext then r.x else f.x.setWidth 14 |>.setWidth 21) then
    some 0x01
  else if codeBad g.d r r.d || codeBad g.a r r.a || codeBad g.b r r.b || codeBad gc r r.c then some 0x03
  else if !g.modOk r.m || constBad g.d r.d || constBad g.a r.a || constBad g.b r.b || constBad gc r.c || g.bad05 f then
    some 0x05
  else if classBad g.d r r.d || classBad g.a r r.a || classBad g.b r r.b || classBad gc r r.c then some 0x02
  else none

/-- What decoding the words of one instruction gives: an instruction, or the encoding trap they raise (R77) and where
the instruction that was recognised may stand (every place, when none was). -/
inductive Decoded where
  | ok (i : Instr)
  | trap (code : Byte) (place : Standing)
  deriving DecidableEq, Repr

def Standing.anywhere : Standing := ⟨true, true, true, true⟩

/-- The constant a base or extended word carries in D, for the rows that need it. -/
def rawD (ws : List Word) : Nat := if (ws.getD 0 0).getLsbD 30 then field (ws.getD 1 0) 22 6 else field (ws.getD 0 0) 14 6

/-- Decodes the words of one instruction, as many as its length field asks for (R75 to R78). -/
def decodeWords (ws : List Word) : Decoded :=
  let w0 := ws.getD 0 0
  let m : BitVec 20 := if w0.getLsbD 30 then w0.setWidth 20 else 0
  match row (headMaj w0) (headMin w0) m (rawD ws) with
  | none => .trap 0x00 Standing.anywhere
  | some rw =>
    let r := parse rw.sig.lay ws
    if !lenRule rw.sig r || !litRule rw.sig r then .trap 0x04 Standing.anywhere
    else match fieldTrap rw.sig r with
      | some c => .trap c (standing r.maj r.min)
      | none => .ok (rw.make (fieldsOf rw.sig r))

/-- A word from four bytes, lowest address first (R8). -/
def wordOfBytes (b0 b1 b2 b3 : Byte) : Word := b3 ++ b2 ++ b1 ++ b0

/-- The words of a list of bytes; a tail of fewer than four bytes gives none. -/
def wordsOf : List Byte → List Word
  | b0 :: b1 :: b2 :: b3 :: r => wordOfBytes b0 b1 b2 b3 :: wordsOf r
  | _ => []

/-- Decodes an instruction from bytes: the trap or the instruction, and the bytes left behind it. Bytes too few for the
words the first one asks for are refused as a fetch fault (R77, 0x09). -/
def decodeBytes (bs : List Byte) : Decoded × List Byte :=
  match wordsOf bs with
  | [] => (.trap 0x09 Standing.anywhere, bs)
  | w0 :: rest =>
    let n := wordCount w0
    if (w0 :: rest).length < n then (.trap 0x09 Standing.anywhere, bs)
    else (decodeWords ((w0 :: rest).take n), bs.drop (4 * n))

/-! ### Encoding -/

/-- Major, minor, layout and fields of an instruction; an event has none. -/
def Instr.enc? : Instr → Option (Nat × Nat × Layout × Fields)
  | .mov f => some (0x00, 1, .reg, f.fields)
  | .movi f => some (0x00, 2, .imm, f.fields)
  | .sel f => some (0x00, 3, .reg, f.fields)
  | .iadd f => some (0x01, 0, .reg, f.fields)
  | .isub f => some (0x01, 1, .reg, f.fields)
  | .ineg f => some (0x01, 2, .reg, f.fields)
  | .iabs f => some (0x01, 3, .reg, f.fields)
  | .iadd64 f => some (0x01, 4, .reg, f.fields)
  | .imul f => some (0x02, 0, .reg, f.fields)
  | .imulhS f => some (0x02, 1, .reg, f.fields)
  | .imulhU f => some (0x02, 2, .reg, f.fields)
  | .imad f => some (0x02, 3, .reg, f.fields)
  | .iminS f => some (0x03, 0, .reg, f.fields)
  | .iminU f => some (0x03, 1, .reg, f.fields)
  | .imaxS f => some (0x03, 2, .reg, f.fields)
  | .imaxU f => some (0x03, 3, .reg, f.fields)
  | .shl f => some (0x04, 0, .reg, f.fields)
  | .shr f => some (0x04, 1, .reg, f.fields)
  | .sar f => some (0x04, 2, .reg, f.fields)
  | .rotl f => some (0x04, 3, .reg, f.fields)
  | .clz f => some (0x05, 0, .reg, f.fields)
  | .popc f => some (0x05, 1, .reg, f.fields)
  | .brev f => some (0x05, 2, .reg, f.fields)
  | .icmp c g f => some (0x06, 8 * g.code + c.code, .reg, f.fields)
  | .and f => some (0x07, 0, .reg, f.fields)
  | .or f => some (0x07, 1, .reg, f.fields)
  | .xor f => some (0x07, 2, .reg, f.fields)
  | .andn f => some (0x07, 3, .reg, f.fields)
  | .not f => some (0x07, 4, .reg, f.fields)
  | .bfxU f => some (0x08, 0, .reg, f.fields)
  | .bfxS f => some (0x08, 1, .reg, f.fields)
  | .bfi f => some (0x08, 2, .reg, f.fields)
  | .shfl f => some (0x0A, 0, .reg, f.fields)
  | .shflx f => some (0x0A, 1, .reg, f.fields)
  | .bcast f => some (0x0A, 2, .reg, f.fields)
  | .ballot f => some (0x0C, 0, .reg, f.fields)
  | .vany f => some (0x0C, 1, .reg, f.fields)
  | .vall f => some (0x0C, 2, .reg, f.fields)
  | .scan k f => some (0x0D, k.code, .reg, f.fields)
  | .fadd r f => some (0x10, 0, .reg, f.fields (BitVec.ofNat 20 r.code))
  | .fsub r f => some (0x10, 1, .reg, f.fields (BitVec.ofNat 20 r.code))
  | .fmul r f => some (0x10, 2, .reg, f.fields (BitVec.ofNat 20 r.code))
  | .ffma r f => some (0x10, 3, .reg, f.fields (BitVec.ofNat 20 r.code))
  | .fmin f => some (0x11, 0, .reg, f.fields)
  | .fmax f => some (0x11, 1, .reg, f.fields)
  | .fcmp c f => some (0x12, c.code, .reg, f.fields)
  | .frcp r f => some (0x13, 0, .reg, f.fields (BitVec.ofNat 20 r.code))
  | .frsq r f => some (0x13, 1, .reg, f.fields (BitVec.ofNat 20 r.code))
  | .fsqrt r f => some (0x13, 2, .reg, f.fields (BitVec.ofNat 20 r.code))
  | .fexp2 r f => some (0x13, 3, .reg, f.fields (BitVec.ofNat 20 r.code))
  | .flog2 r f => some (0x13, 4, .reg, f.fields (BitVec.ofNat 20 r.code))
  | .frnd r f => some (0x14, 0, .reg, f.fields (BitVec.ofNat 20 r.code))
  | .fclass f => some (0x14, 1, .reg, f.fields)
  | .h2add m r f => some (0x15, m.code, .reg, f.fields (BitVec.ofNat 20 r.code))
  | .h2mul m r f => some (0x15, 2 + m.code, .reg, f.fields (BitVec.ofNat 20 r.code))
  | .h2fma m r f => some (0x15, 4 + m.code, .reg, f.fields (BitVec.ofNat 20 r.code))
  | .dot4 m r f => some (0x18, m.code, .reg, f.fields (BitVec.ofNat 20 r.code))
  | .dot8 m r f => some (0x19, m.code, .reg, f.fields (BitVec.ofNat 20 r.code))
  | .fscl r f => some (0x1A, 0, .reg, f.fields (BitVec.ofNat 20 r.code))
  | .fcvtFromF32 m r t f => some (0x1C, m.code, .reg, f.fields (BitVec.ofNat 20 (r.code + 8 * t.code)))
  | .fcvtToF32 m r f => some (0x1D, m.code, .reg, f.fields (BitVec.ofNat 20 r.code))
  | .fpack m r t p f => some (0x1E, m.code, .reg, f.fields (BitVec.ofNat 20 (r.code + 8 * t.code + 32 * p)))
  | .funpack m f => some (0x1F, m.code, .reg, f.fields)
  | .ld z f => some (0x20, z.code, .reg, f.fields)
  | .st z f => some (0x21, z.code, .reg, f.fields)
  | .ldq f => some (0x22, 0, .reg, f.fields)
  | .stq f => some (0x22, 1, .reg, f.fields)
  | .lds z f => some (0x23, z.code, .reg, f.fields)
  | .sts z f => some (0x23, 2 + z.code, .reg, f.fields)
  | .cmpst z f => some (0x24, 2 + z.code, .reg, f.fields)
  | .exld z f => some (0x25, 2 + z.code, .reg, f.fields)
  | .spl f => some (0x26, 0, .reg, f.fields)
  | .fil f => some (0x26, 1, .reg, f.fields)
  | .lsget n f => some (0x27, 0, .reg, f.fields (n.setWidth 20))
  | .lsret n f => some (0x27, 1, .reg, f.fields (n.setWidth 20))
  | .satom p f => some (0x28, p.code, .reg, f.fields (p == .cas))
  | .gatom p l z f => some (0x29, p.code, .reg, f.fields (p == .cas) (BitVec.ofNat 20 (z.code + 2 * l.code)))
  | .gred p l z f => some (0x2A, p.code, .reg, f.fields (BitVec.ofNat 20 (z.code + 2 * l.code)))
  | .cdet f => some (0x2B, 0, .reg, f.fields)
  | .vcomb p f => some (0x2B, p.code, .reg, f.fields)
  | .tmk f => some (0x2C, 0, .reg, f.fields)
  | .ttag f => some (0x2C, 1, .reg, f.fields)
  | .tval f => some (0x2C, 2, .reg, f.fields)
  | .tis k f => some (0x2C, 3, .reg, { f.fields with b := .const (k.setWidth 6) })
  | .deref f => some (0x2C, 4, .reg, f.fields)
  | .unify f => some (0x2D, 0, .reg, f.fields)
  | .unifyOc f => some (0x2D, 1, .reg, f.fields)
  | .bind f => some (0x2D, 2, .reg, f.fields)
  | .mkvar f => some (0x2D, 3, .reg, f.fields)
  | .mkvarH d => some (0x2D, 3, .reg, { ext := true, d := d.slot, m := 1 })
  | .mkcvar f => some (0x2D, 4, .reg, f.fields)
  | .mkstr f => some (0x2D, 5, .reg, f.fields)
  | .getarg f => some (0x2D, 6, .reg, f.fields)
  | .tmark c e d => some (0x2E, 0, .reg, { ext := e, d := d.slot, m := BitVec.ofNat 20 c.code })
  | .untrail f => some (0x2E, 1, .reg, f.fields)
  | .bcol f => some (0x2E, 2, .reg, f.fields)
  | .cpush f => some (0x2F, 0, .jump, f.fields)
  | .cnext f => some (0x2F, 1, .jump, f.fields)
  | .clast => some (0x2F, 2, .none, { ext := false })
  | .cut f => some (0x2F, 3, .reg, f.fields)
  | .jmp f => some (0x30, 0, .jump, f.fields)
  | .jmpInd f => some (0x30, 1, .reg, f.fields)
  | .brc f => some (0x31, 0, .cbr, f.fields)
  | .brcF f => some (0x31, 1, .cbr, f.fields)
  | .brsNz f => some (0x32, 0, .cbr, f.fields)
  | .brsZ f => some (0x32, 1, .cbr, f.fields)
  | .call f => some (0x33, 0, .jump, f.fields)
  | .callInd f => some (0x33, 1, .reg, f.fields)
  | .ret => some (0x33, 2, .none, { ext := false })
  | .sbar f => some (0x34, 0, .cbr, f.fields)
  | .sarr => some (0x34, 1, .none, { ext := false })
  | .brk e n x => some (0x34, 2, .cbr, { ext := e, b := .const n, x := x })
  | .exit => some (0x35, 0, .none, { ext := false })
  | .yield f => some (0x35, 1, .jump, f.fields)
  | .nop => some (0x35, 2, .none, { ext := false })
  | .mwld m sp q a b => some (0x38, 0, .reg,
      { ext := true, a := a.slot, b := b.slot, c := .const (BitVec.ofNat 6 (m.code + if sp then 16 else 0)),
        m := q.setWidth 20 })
  | .mwldT m q a b => some (0x38, 1, .reg,
      { ext := true, a := a.slot, b := b.slot, c := .const (BitVec.ofNat 6 m.code), m := q.setWidth 20 })
  | .mamap p m tr s k a b => some (0x38, 2, .reg,
      { ext := true, d := .const (BitVec.ofNat 6 p), a := a.slot, b := b.slot,
        m := BitVec.ofNat 20 (k.toNat + 256 * s.toNat + (if tr then 32768 else 0) + 65536 * m.code) })
  | .mclr t => some (0x38, 3, .reg, { ext := true, d := (Opnd.a t).slot })
  | .mmul t p z x => some (0x39, 0, .reg,
      { ext := true, d := (Opnd.a t).slot, a := .const (BitVec.ofNat 6 p), x := x, m := if z then 1 else 0 })
  | .mmsp t p z x => some (0x39, 1, .reg,
      { ext := true, d := (Opnd.a t).slot, a := .const (BitVec.ofNat 6 p), x := x, m := if z then 1 else 0 })
  | .mrd m r s a t x => some (0x3A, 0, .reg,
      { ext := true, a := a.slot, b := (Opnd.a t).slot, x := x,
        m := BitVec.ofNat 20 (r.code + 256 * s.toNat + 65536 * m.code) })
  | .mtov d t b => some (0x3A, 1, .reg, { ext := true, d := d.slot, a := (Opnd.a t).slot, b := b.slot })
  | .mfuse e k => some (0x3A, 2, .reg, { ext := e, a := .const (k.setWidth 6) })
  | .mbarArr f => some (0x3B, 0, .reg, f.fields)
  | .mbarWait a b => some (0x3B, 0, .reg, { ext := true, a := a.slot, b := b.slot, m := 1 })
  | .mprio e c => some (0x3B, 1, .reg, { ext := e, a := .const (BitVec.ofNat 6 c) })
  | .mloop f => some (0x3B, 2, .cbr, f.fields)
  | .mend => some (0x3B, 3, .none, { ext := false })
  | .cpy r n d a b x => some (0x3C, 0, .reg,
      { ext := true, d := d.slot, a := a.slot, b := b.slot, x := x, m := BitVec.ofNat 20 (creditCode n + 128 * r.code) })
  | .cpy2 r n d a b c => some (0x3C, 1, .reg,
      { ext := true, d := d.slot, a := a.slot, b := b.slot, c := c.slot,
        m := BitVec.ofNat 20 (creditCode n + 128 * r.code) })
  | .cpyx s r n d a b c x => some (0x3C, 2, .reg,
      { ext := true, d := d.slot, a := a.slot, b := b.slot, c := c.slot, x := x,
        m := BitVec.ofNat 20 (creditCode n + (if s then 512 else 0) + 1024 * r.toNat) })
  | .cpyxH r n d a b h => some (0x3C, 2, .reg,
      { ext := true, d := d.slot, a := a.slot, b := b.slot, c := (Opnd.h h).slot,
        m := BitVec.ofNat 20 (creditCode n + 128 + 1024 * r.toNat) })
  | .cpym near n d a b c x => some (0x3C, 3, .reg,
      { ext := true, d := d.slot, a := a.slot, b := b.slot, c := c.slot, x := x,
        m := BitVec.ofNat 20 (creditCode n + if near then 256 else 0) })
  | .coll o f r n d a b => some (0x3C, 4, .reg,
      { ext := true, d := d.slot, a := a.slot, b := b.slot,
        m := BitVec.ofNat 20 (creditCode n + 128 * f.code + 2048 * o.code + 16384 * r.code) })
  | .amsg d a b c x => some (0x3C, 5, .reg,
      { ext := true, d := d.slot, a := a.slot, b := b.slot, c := c.slot, x := x })
  | .ftest t e d a => some (0x3C, 6, .reg, { ext := e, d := d.slot, a := a.slot, m := BitVec.ofNat 20 t.code })
  | .fcan t e a => some (0x3C, 7, .reg, { ext := e, a := a.slot, m := if t then 1 else 0 })
  | .wlpush l f => some (0x3C, 8, .reg, f.fields (l.setWidth 20))
  | .wlpull f => some (0x3C, 9, .reg, f.fields)
  | .wlsteal f => some (0x3C, 0xA, .reg, f.fields)
  | .childLaunch d a => some (0x3C, 0xB, .reg, { ext := true, d := d.slot, a := a.slot })
  | .hld h a => some (0x3C, 0xC, .reg, { ext := true, d := (Opnd.h h).slot, a := a.slot })
  | .hset h k a => some (0x3C, 0xD, .reg,
      { ext := true, d := (Opnd.h h).slot, a := a.slot, b := .const (BitVec.ofNat 6 k) })
  | .hget d h k => some (0x3C, 0xE, .reg,
      { ext := true, d := d.slot, a := (Opnd.h h).slot, b := .const (BitVec.ofNat 6 k) })
  | .hchkReport d h => some (0x3C, 0xF, .reg, { ext := true, d := d.slot, a := (Opnd.h h).slot, b := .const 0 })
  | .hchkWalk d h => some (0x3C, 0xF, .reg, { ext := true, d := d.slot, a := (Opnd.h h).slot, b := .const 1 })
  | .barInit f => some (0x3D, 0, .reg, f.fields)
  | .barExp f => some (0x3D, 1, .reg, f.fields)
  | .barArr l f => some (0x3D, 2, .reg, f.fields (if l then 1 else 0))
  | .barWait f => some (0x3D, 3, .reg, f.fields)
  | .gbar => some (0x3D, 4, .none, { ext := false })
  | .fence c e => some (0x3D, 5, .reg, { ext := e, b := .const (BitVec.ofNat 6 c.code) })
  | .cwait c e n => some (0x3D, 6, .imm,
      { ext := e, d := .const (BitVec.ofNat 6 c.code), x := if e then n.setWidth 21 else n.signExtend 21 })
  | .arbeg d x => some (0x3E, 0, .reg, { ext := true, d := d.slot, x := x })
  | .arrng f => some (0x3E, 1, .reg, f.fields)
  | .arld f => some (0x3E, 2, .reg, f.fields)
  | .arst f => some (0x3E, 3, .reg, f.fields)
  | .arstIx sc a b c x => some (0x3E, 3, .reg,
      { ext := true, a := a.slot, b := b.slot, c := c.slot, x := x, m := BitVec.ofNat 20 (4 + sc.toNat) })
  | .arend => some (0x3E, 4, .none, { ext := false })
  | .arabt f => some (0x3E, 5, .reg, f.fields)
  | .prom f => some (0x3E, 6, .reg, f.fields)
  | .promPin f => some (0x3E, 7, .reg, f.fields)
  | .dem f => some (0x3E, 8, .reg, f.fields)
  | .lclass f => some (0x3E, 9, .reg, f.fields)
  | .smov f => some (0x3F, 0, .reg, f.fields)
  | .smovi f => some (0x3F, 1, .imm, f.fields)
  | .sadd f => some (0x3F, 2, .reg, f.fields)
  | .ssub f => some (0x3F, 3, .reg, f.fields)
  | .smul f => some (0x3F, 4, .reg, f.fields)
  | .sand f => some (0x3F, 5, .reg, f.fields)
  | .sor f => some (0x3F, 6, .reg, f.fields)
  | .sxor f => some (0x3F, 7, .reg, f.fields)
  | .sshl f => some (0x3F, 8, .reg, f.fields)
  | .sshr f => some (0x3F, 9, .reg, f.fields)
  | .scmp c g f => some (0x3F, 0xA, .reg, f.fields (BitVec.ofNat 20 (8 * g.code + c.code)))
  | .ssel f => some (0x3F, 0xB, .reg, f.fields)
  | .vtos f => some (0x3F, 0xC, .reg, f.fields)
  | .sred r f => some (0x3F, 0xD, .reg, f.fields (BitVec.ofNat 20 r.code))
  | .pblk pat n p t => some (0x3F, 0xE, .pfx,
      { ext := false, b := .op (.v (p.castLE (by decide))) t, x := BitVec.ofNat 21 (pat.toNat + 256 * n.toNat) })
  | .rett f => some (0x3F, 0xF, .reg, { f.bfields with d := .const 0 })
  | .rettRel f => some (0x3F, 0xF, .reg, { f.bfields with d := .const 1 })
  | .rettDrop f => some (0x3F, 0xF, .reg, { f.bfields with d := .const 2 })
  | .sysr e d b => some (0x3F, 0xF, .reg, { ext := e, d := .const 3, a := d.slot, b := b.slot })
  | .sysw f | .rpcWrite f | .rmaskWrite f => some (0x3F, 0xF, .reg, { f.fields with d := .const 4 })
  | .trap f => some (0x3F, 0xF, .reg, { f.bfields with d := .const 5 })
  | .ptlb f => some (0x3F, 0xF, .reg, { f.fields with d := .const 6 })
  | .usg e d b => some (0x3F, 0xF, .reg, { ext := e, d := .const 7, a := d.slot, b := b.slot })
  | _ => none

/-- A slot's code in an extended form. -/
def Slot.long : Slot → Nat
  | .none => 0
  | .op o _ => o.long
  | .const k => k.toNat

/-- A slot's code in a base word; an operand without a short code gives 63, which is reserved. -/
def Slot.short : Slot → Nat
  | .none => 0
  | .op o _ => o.short?.getD 63
  | .const k => k.toNat

def Slot.tbit : Slot → Nat
  | .op _ true => 1
  | _ => 0

/-- The low 20 bits of a base word (R60). -/
def baseLow (lay : Layout) (f : Fields) : Nat :=
  match lay with
  | .reg => f.d.short * 2 ^ 14 + f.a.tbit * 2 ^ 13 + f.a.short * 2 ^ 7 + f.b.tbit * 2 ^ 6 + f.b.short
  | .imm => f.d.short * 2 ^ 14 + field f.x 0 14
  | .jump => field f.x 0 20
  | .cbr => field f.x 0 13 * 2 ^ 7 + f.b.tbit * 2 ^ 6 + f.b.short
  | .pfx => field f.x 0 8 * 2 ^ 12 + field f.x 8 3 * 2 ^ 9 + f.b.tbit * 2 ^ 6 + f.b.short
  | .none => 0

/-- The words of an instruction, first word first (R52, R54, R60, R15). -/
def encodeFields (maj min : Nat) (lay : Layout) (f : Fields) : List Word :=
  let top := maj * 2 ^ 24 + min * 2 ^ 20 + (if f.lit?.isSome then 2 ^ 31 else 0)
  let tail : List Word := match f.lit? with
    | some x => [x.setWidth 32, (x >>> 32).setWidth 32]
    | none => []
  if f.ext then
    [BitVec.ofNat 32 (top + 2 ^ 30 + f.m.toNat),
     BitVec.ofNat 32 (f.d.long * 2 ^ 22 + f.a.tbit * 2 ^ 21 + f.a.long * 2 ^ 11 + f.b.tbit * 2 ^ 10 + f.b.long),
     BitVec.ofNat 32 (f.c.long * 2 ^ 22 + f.c.tbit * 2 ^ 21 + f.x.toNat)] ++ tail
  else BitVec.ofNat 32 (top + baseLow lay f) :: tail

/-- The words of an instruction; an event has none. -/
def encode (i : Instr) : List Word :=
  match i.enc? with
  | some (maj, min, lay, f) => encodeFields maj min lay f
  | none => []

/-- The bytes of an instruction, lowest address first. -/
def bytesOf : List Word → List Byte
  | [] => []
  | w :: r => w.setWidth 8 :: (w >>> 8).setWidth 8 :: (w >>> 16).setWidth 8 :: (w >>> 24).setWidth 8 :: bytesOf r

/-- The size of an instruction in bytes (R52); 4 for an event, which has no encoding. -/
def Instr.size (i : Instr) : Nat :=
  match i.enc? with
  | some (_, _, _, f) => 4 * f.words
  | none => 4

/-- Where an instruction may stand (R66, R73, R74). -/
def Instr.standing (i : Instr) : Standing :=
  match i.enc? with
  | some (maj, min, _, _) => Sys2Proof.standing maj min
  | none => Standing.anywhere

/-- The words of a table number: `n` words from the least significant bits up, and zeros to the longest instruction. -/
def tableWords (w : Nat) : List Word :=
  [BitVec.ofNat 32 w, BitVec.ofNat 32 (w / 2 ^ 32), BitVec.ofNat 32 (w / 2 ^ 64), BitVec.ofNat 32 (w / 2 ^ 96),
   BitVec.ofNat 32 (w / 2 ^ 128)]

/-- The instruction the decoder reads from bits numbered as the table numbers them; bits above `nbits` are 0. -/
def decodeTableWord (nbits w : Nat) : Option Instr :=
  match (decodeBytes (bytesOf (tableWords (w % 2 ^ nbits)))).1 with
  | .ok i => some i
  | .trap _ _ => none

end Sys2Proof
end

