-- ==== Sys2Proof/Config.lean ====
section
/-! DEFINITION. What the spec fixes for every part, and the free values: what it leaves open, each an opaque constant that
nothing in Lean can evaluate. `State.draws` supplies a fresh argument where a value may differ from use to use. -/

namespace Sys2Proof.Config

/-- Compute dies (R1). -/
abbrev dies : Nat := 4
/-- Clusters (R1). -/
abbrev clusters : Nat := 32
/-- Cores (R1). -/
abbrev cores : Nat := 512
/-- Quarters (R1). -/
abbrev quarters : Nat := 2048
/-- Scratchpad bytes of a core (R1). -/
abbrev scratchBytes : Nat := 0x100000
/-- Named barriers of a core (R1). -/
abbrev barriers : Nat := 64
/-- Bytes of device DRAM: physical addresses 0 to 372 GiB − 1 (R324, R361). -/
abbrev dramBytes : Nat := 372 * 2 ^ 30
/-- The first host address: system scope begins at 2^51 (R361). -/
abbrev hostBase : Nat := 2 ^ 51

/-- FREE, log 12. Which of several enabled steps of the part comes next (R18 R337, R320, R355): any index. -/
opaque freeChoice : Nat → Nat → Nat
/-- FREE, log 12. Which words of a piece, a step or a memory image are reached together, by the draw and the word (R249, R255, R335). -/
opaque pickWord : Nat → Nat → Bool
/-- FREE, log 13. The cycles that pass between two readings of the cycle count (R374). -/
opaque elapsed : Nat → BitVec 64
/-- FREE, log 74. The placement the distributor chooses among those R22 allows. -/
opaque placeChoice : Nat → Nat → Nat
/-- FREE, log 43. Whether an uncorrectable error meets the copy of a spill slot, by the draw and the slot's key (R49). -/
opaque copyError : Nat → Nat → Bool
/-- FREE, log 43. How many single-bit errors the scratchpad reads of a step meet, by the draw (R117). -/
opaque corrected : Nat → Nat
/-- FREE, log 43. The registers that uncorrectable errors in a save area poison, by the draw: a team, a v register's number and a mask word,
256 and an s register's number, or 512 and a spill slot's with its lane (R380). -/
opaque saveErrors : Nat → List (Nat × Nat × Nat)
/-- FREE, log 43. The scratchpad words that such errors poison: a core, and a word of the block's part there (R380). -/
opaque saveErrorWords : Nat → List (Nat × Nat)
/-- FREE, log 103. Whether an access is served by a cached translation or by the tables (R363). -/
opaque useCached : Nat → Bool
/-- FREE, log 32. The second word of a stack entry that an occurs check spills (R185, R186). -/
opaque occursWord : Nat → Nat
/-- FREE, log 42. The home die of a level-two line (R136, R137): any number, taken mod 4. -/
opaque homeDie : Nat → Nat
/-- FREE, log 99. The output of its home die's crossbar that leads to a line's slice (R354): any number, taken mod 36. -/
opaque slicePort : Nat → Nat
/-- FREE, log 96. The output of its die's crossbar that leads to a link port, or for 16 to the root (R354): any number, taken mod 36. -/
opaque linkPort : Nat → Nat
/-- FREE, log 99. A cluster's send allowance at a crosspoint, in flits (R367). -/
opaque allowance : Nat → Nat
/-- FREE, log 99. The memory channel behind a line's home slice (R366). -/
opaque channelOf : Nat → Nat
/-- FREE, log 53. The token of an engine command (R263), by the draw. -/
opaque token : Nat → BitVec 48
/-- FREE, log 66. The status word of a promote or demote, and the class of lclass, for a byte of host memory, of which the spec says
nothing (R328, R329). -/
opaque hostStripe : Nat → BitVec 64
/-- FREE, log 96. The host's number among the devices (R385). -/
opaque hostDevice : Nat
/-- FREE, log 96. The payload of a packet's first flit, where no rule lays it down (R385), by the draw. -/
opaque payload : Nat → BitVec 192
/-- FREE, log 98. The flits that fill a frame, of which the spec says nothing (R384), by the draw and the place. -/
opaque fillFlit : Nat → Nat → BitVec 256
/-- FREE, log 59. This device's number among those of the fabric (R273, R385). -/
opaque device : Nat
/-- FREE, log 92. Whether the kernel of a code range and an entry has a global data section, of which a launch record says nothing
(R217, R390). -/
opaque globalSection : BitVec 64 → BitVec 64 → Bool
/-- FREE, log 69. The key the root draws for a tenant (R365), by the draw. -/
opaque drawKey : Nat → BitVec 512
/-- FREE, log 69. The root's public key (R378). -/
opaque rootKey : List Byte
/-- FREE, log 69. The Falcon-1024 signature of 128 report bytes, padded to 1,280 bytes (R378, R389), by the draw. -/
opaque reportSignature : Nat → List Byte → List Byte
/-- FREE, log 69. The length an image's header holds (R393). -/
opaque imageLength : List Byte → Nat
/-- FREE, log 69. The Falcon-1024 signature by the root of a checkpoint's header (R394), by the draw. -/
opaque headerSignature : Nat → List Byte
/-- FREE, log 69. The version an image's header holds (R393). -/
opaque imageVersion : List Byte → BitVec 64
/-- FREE, log 69. The signer's public key an image's header holds (R393). -/
opaque imageKey : List Byte → List Byte
/-- FREE, log 69. Whether the signature of an image verifies (R393). -/
opaque imageVerifies : List Byte → Bool
/-- FREE, log 69. The key digest the fuses hold (R393). -/
opaque fusedKeyDigest : BitVec 256
/-- FREE, log 72. What the record of a system event says of its party in TEAM and BLOCK, where no rule says it (R371), by the draw. -/
opaque eventParty : Nat → BitVec 38
/-- FREE, log 72. RPC at the start of a handler whose record has no resume PC (R372, R374), by the draw. -/
opaque noResume : Nat → BitVec 64
/-- FREE, log 72. PC in the record of a trap at retirement, where no instruction traps (R371, R372), by the draw. -/
opaque noPc : Nat → BitVec 64
/-- FREE, log 60. The index of a message's block within its grid, of which the spec says nothing (R56, R277), by the draw. -/
opaque msgBlock : Nat → BitVec 32
/-- FREE, log 59. Whether the collectives of a tenant's group have traffic on a port (R384): the port, the tenant, the group. -/
opaque onPort : Nat → Nat → Nat → Bool

end Sys2Proof.Config
end

