-- ==== Sys2Proof/Machine/Parts.lean ====
section
/-! DEFINITION. The parts the machine's state is made of: registers, control state, requests in flight, teams, blocks, grids,
tenants, engines and the host path. All of it is plain data. -/

namespace Sys2Proof.Machine

/-- Who issues the next instruction: a team, the matrix sequencer of a block, or nobody. -/
inductive Agent where
  | none | team (k : Nat) | stream (b : Nat)
  deriving DecidableEq, Repr

/-- The state of a register in one mask word, or of an s register (R34, R45). -/
inductive Flag where
  | full | empty | poisoned
  deriving DecidableEq, Repr

/-- The live coverage of a pblk (R65): the mask M at its issue, the predicate, PAT, N and the next index. -/
structure Cover where
  m : Mask
  p : Mask
  pat : Byte
  n : Nat
  next : Nat
  deriving DecidableEq, Repr

/-- An entry of a control stack (R201, R212). -/
inductive Entry where
  | path (pc : DWord) (mask : Mask)
  | barrier (rpc : DWord) (enr arr : Mask) (t : Nat)
  | ret (ra : DWord) (d : Nat) (m arr : Mask)
  deriving DecidableEq, Repr

/-- A control stack: the spill slots in use and the entries in hardware, oldest first (R213). `moved` holds, by slot, the
lanes whose regions a save has aborted, latest first, each with the fallback pc that its path takes (R322). -/
structure CStack where
  spilled : Nat := 0
  hw : List Entry := []
  moved : Sparse (List (Nat × DWord)) := []
  deriving DecidableEq, Repr

/-- What a yield waits for (R209). -/
inductive Yield where
  | none | waiting | woken
  deriving DecidableEq, Repr

/-- A team's control state (R24, R52, R65, R196, R201, R210). -/
structure Ctl where
  pc : DWord := 0
  mask : Mask := 0
  exited : Mask := 0
  cover : Option Cover := Option.none
  /-- the lanes a term instruction is reissued on (R196) -/
  resume : Option Mask := Option.none
  ds : CStack := {}
  rs : CStack := {}
  /-- how many words from the pc on stand in the instruction buffer of 16 (R27, R210) -/
  buf : Nat := 0
  yield : Yield := .none
  deriving DecidableEq, Repr

/-- The state of a handle register (R289). -/
inductive HState where
  | null | pending | valid | failed (cause : Byte)
  deriving DecidableEq, Repr

/-- A handle register: its image and its state (R287, R289). -/
structure Handle where
  image : BitVec 512 := 0
  state : HState := .null
  deriving DecidableEq, Repr

/-- A tag of a lane register inside a region (R313). -/
inductive Tag where
  | val (k : Fin 4) (c : Word)
  | cmp (k : Fin 4) (c : Word) (cond : Cond) (sign : Sign) (y : Word) (left : Bool)
  deriving DecidableEq, Repr

/-- The registers of a team (R34 to R39). Lane registers are keyed by 512 × lane + number (`Ops` gives the numbers of the
v, l and o files), flags of v registers by 32 × number + mask word. -/
structure Regs where
  lane : Sparse Word := []
  flag : Sparse Flag := []
  sreg : Sparse DWord := []
  sflag : Sparse Flag := []
  h : Sparse Handle := []
  tag : Sparse (Option Tag) := []
  deriving DecidableEq, Repr

/-- The float status word (R152) and the generators (R149), by lane. -/
structure Fp where
  flags : BitVec 5 := 0
  enables : BitVec 4 := 0
  rng : Sparse Word := []
  deriving DecidableEq, Repr

/-- A lane's term context (R172). -/
structure TermCtx where
  ht : Word := 0
  tt : Word := 0
  cs : Word := 0
  bp : Word := 0
  cb : Word := 0
  ct : Word := 0
  deriving DecidableEq, Repr

/-- What a term instruction that reads or writes memory does in its lanes (R182 to R194). The branch-like ones carry the address
their displacement names, and cpush the continuation. -/
inductive TermOp where
  | deref | unify (oc : Bool) | bind | mkvar | mkvarH | mkcvar | mkstr | getarg | untrail | bcol
  | cpush (alt cont : DWord) | cnext (alt : DWord) | clast | cut
  deriving DecidableEq, Repr

/-- Where a lane stands in a term instruction (R195, R196): at work; stopped, with the entries it has still to undo; stopped and
undone, by a fault or by a pre-emption; complete, with its value. -/
inductive TermSt where
  | running
  | undoing (entries : List DWord) (why : Option (Byte × DWord))
  | stopped (code : Byte) (addr : DWord)
  | held
  | done (x : DWord)
  deriving DecidableEq, Repr

/-- A lane of a term instruction: its operands, and what its accesses so far have answered, the oldest first. -/
structure TermLane where
  lane : Nat
  a : DWord := 0
  b : DWord := 0
  log : List DWord := []
  st : TermSt := .running
  deriving DecidableEq, Repr

/-- A term instruction in progress: what it does, its destination, its length, its lanes, and the request it fills anew, if it
reads again for a restored team (R46, R359). `moved` is its pc, once a save has sent its path to a fallback (R322). -/
structure TermRun where
  op : TermOp
  d : Opnd
  size : Nat
  lanes : List TermLane
  fill : Option Nat := Option.none
  moved : Option DWord := Option.none
  deriving DecidableEq, Repr

/-- A symbolic input of a region (R308). -/
structure Input where
  addr : DWord
  v : Word
  pinned : Bool := false
  deriving DecidableEq, Repr

/-- A constraint of a region: (v(k) + c) cond y = b, with y on its side (R314). -/
structure Constraint where
  k : Fin 4
  c : Word
  cond : Cond
  sign : Sign
  y : Word
  left : Bool
  b : Bool
  deriving DecidableEq, Repr

/-- The address of a store record (R315). -/
inductive RecAddr where
  | direct (g : DWord)
  | indexed (base : DWord) (sc : BitVec 2) (k : Fin 4) (c : Word)
  deriving DecidableEq, Repr

/-- The value of a store record (R315). -/
inductive RecVal where
  | word (x : Word)
  | input (k : Fin 4) (c : Word)
  deriving DecidableEq, Repr

/-- A lane's region (R308). -/
structure Region where
  doom : Option (Byte × Byte) := Option.none
  fb : DWord := 0
  cr : Nat := 0
  rb : DWord := 0
  rl : DWord := 0
  inputs : List Input := []
  constraints : List Constraint := []
  records : List (RecAddr × RecVal) := []
  deriving DecidableEq, Repr

/-- Where a lane's region stands at an arend in progress (R320 to R322): not taken up; in its second round, with the lines it
locks; committed; or aborted. -/
inductive Outcome where
  | waiting | second (lines : List Nat) | committed | aborted (cause detail : Byte)
  deriving DecidableEq, Repr

/-- Where an element stands (R17, R103, R112, R114, R140): on its way and not yet checked for its grant, or to its slice; checked
and not landed; landed; parked; faulted again at its replay; dropped; ended with an error. -/
inductive ElemSt where
  | transit | landing | done | parked (code : Byte) | again (code : Byte) | dropped | poisoned
  deriving DecidableEq, Repr

/-- One lane's element of a memory instruction: its address, its store value or operand, an expected value, and, once it has
read, what it read. -/
structure Elem where
  lane : Nat
  addr : DWord
  val : BitVec 128 := 0
  exp : DWord := 0
  /-- the physical address of a global element, as translated at its issue -/
  pa : Nat := 0
  got : BitVec 128 := 0
  /-- the words of a 16-byte element that have landed (R335), and whether one met an error -/
  landed : List Nat := []
  bad : Bool := false
  st : ElemSt := .transit
  deriving DecidableEq, Repr

/-- What a request does (R40, R107 to R110, R130, R134, R188, R312). -/
inductive ReqKind where
  | load (size : Nat) (signed : Bool)
  | store (size : Nat)
  | satom (op : AOp)
  | gatom (op : AOp) (size : Nat) (place : Place)
  /-- words fixed in each lane's `got`: unify, arld -/
  | value
  /-- words read, and read again if the team is saved before they return: a spill slot, whose key is the address; a term's
  dereference, and its argument, whose operands are `val` and `exp` -/
  | fil | deref | getarg
  /-- a value for an s register: a usage counter -/
  | uni (x : DWord)
  /-- an lds and an sts: the scratchpad place, and the size -/
  | lds (core off size : Nat)
  | sts (core off size : Nat)
  /-- a reissued system read, by register number -/
  | sysr (num : Nat)
  /-- a header load into h register n (R291) -/
  | hld (n : Nat) (g : DWord)
  /-- a signed usage report (R378): the core and offset of its area -/
  | usg (core off : Nat)
  deriving DecidableEq, Repr

/-- The destination of a request. -/
inductive Dst where
  | none
  | v (base count : Nat)
  | s (n : Nat)
  | h (n : Nat)
  deriving DecidableEq, Repr

/-- A long-latency request, or a memory instruction whose elements are not all settled. `words` are the mask words its
destination still awaits; `entry` its number in the replay queue, once formed. -/
structure Req where
  team : Nat
  gen : Byte := 0
  kind : ReqKind
  dst : Dst := .none
  words : List Nat := []
  elems : List Elem := []
  pc : DWord := 0
  entry : Option Nat := Option.none
  released : Bool := false
  /-- a plain rett has left the entry parked: its trap is raised anew when its team waits on it (R376) -/
  renew : Bool := false
  /-- an arld, which is withdrawn at a save (R358) -/
  arld : Bool := false
  /-- a gred, whose elements are posted (R134) -/
  posted : Bool := false
  deriving DecidableEq, Repr

/-- Team roles (R272). -/
inductive Role where
  | free | copy | vector
  deriving DecidableEq, Repr

/-- Where a team stands: it runs, or waits for its handler (R372, kind 0), or has retired. -/
inductive TeamSt where
  | running | trapped | retired
  deriving DecidableEq, Repr

/-- The trapped party a record names. -/
inductive Party where
  | team (k : Nat) | stream (b : Nat) | device
  deriving DecidableEq, Repr

/-- A trap record (R371) with what its handler team is given besides s0 to s7. -/
structure TrapRec where
  tenant : Nat
  grid : Nat
  party : Party
  kind : Nat
  code : Byte
  detail : Byte := 0
  /-- s1 without its reserved bits -/
  ident : DWord := 0
  addr : DWord := 0
  aux : DWord := 0
  pc : DWord := 0
  mask : Mask := 0
  cycle : DWord := 0
  /-- the resume PC of R372 -/
  rpc : DWord := 0
  /-- the record mask is a term resume mask (R196) -/
  term : Bool := false
  /-- a save has sent the trapped path to a fallback (R322) -/
  moved : Bool := false
  cover : Option Cover := Option.none
  deriving DecidableEq, Repr

/-- What a handler team holds of its record (R374): the record, RPC and RMASK as software has left them. -/
structure HandlerRec where
  trap : TrapRec
  rpc : DWord
  rmask : Mask
  deriving DecidableEq, Repr

/-- What a team waits for besides its instruction: a completing instruction's answer. -/
inductive Hold where
  | none
  | ptlb (selA selB : DWord)
  | pull (req : DWord) (dst : Nat)
  deriving DecidableEq, Repr

/-- The outstanding-operation counters (R253, R242), by class of R71. -/
structure Counters where
  copy : Nat := 0
  coll : Nat := 0
  promote : Nat := 0
  wl : Nat := 0
  matrix : Nat := 0
  deriving DecidableEq, Repr

/-- An error flag: its first entry, and how many have been recorded (R141: the address; R256: the issue address and the
status). -/
structure ErrFlag where
  addr : DWord
  val : DWord
  status : Byte := 0
  deriving DecidableEq, Repr

/-- A team (R19 to R31). -/
structure Team where
  block : Nat
  index : Nat
  quarter : Nat
  lanes : Nat
  vregs : Nat := 8
  sregs : Nat := 8
  spill : Nat := 0
  priv : Nat := 0
  cstack : Nat := 0
  heap : Nat := 0
  trail : Nat := 0
  chpt : Nat := 0
  tstride : Nat := 0
  role : Role := .free
  st : TeamSt := .running
  regs : Regs := {}
  ctl : Ctl := {}
  fp : Fp := {}
  term : Sparse TermCtx := []
  /-- a term instruction in progress (R177, R195), and those a restore reads again after it, in order (R46, R359) -/
  run : Option TermRun := Option.none
  reruns : List TermRun := []
  /-- private memory, keyed by 65,536 × lane + offset (R100) -/
  privMem : Memory := []
  /-- spill slots, keyed by 256 × lane + slot, the slots poisoned, and the lending quarter, if leased (R47 to R49) -/
  slots : Sparse Word := []
  slotPoison : Sparse Bool := []
  lease : Option Nat := Option.none
  region : Sparse (Option Region) := []
  /-- the cause words of a save's abort event whose registers are still empty, each with its s register (R43, R319) -/
  causes : List (Nat × DWord) := []
  /-- an arend in progress: each active lane's outcome (R320) -/
  arend : Option (List (Nat × Outcome)) := Option.none
  count : Counters := {}
  /-- the command ids of each class, newest first, that cwait orders (R262) -/
  issued : List (CClass × Nat) := []
  hold : Hold := .none
  /-- the named barrier, not initialised, that a bar.wait in progress waits on (R266) -/
  waitBar : Option Nat := Option.none
  atomErr : Option ErrFlag := Option.none
  engErr : Option ErrFlag := Option.none
  gen : Byte := 0
  precnt : DWord := 0
  /-- gbars arrived at and passed (R270) -/
  gbarIn : Nat := 0
  gbarOut : Nat := 0
  /-- releases and drops recorded while the team was saved: entry and whether it is released (R116) -/
  recorded : List (Nat × Bool) := []
  handler : Option HandlerRec := Option.none
  /-- the stamp of the last grant of the issue slot (R27) -/
  stamp : Nat := 0
  deriving DecidableEq, Repr

/-- A kernel's fields of a launch record (R390). -/
structure Kernel where
  entry : DWord := 0
  lanes : Nat := 32
  vregs : Nat := 8
  sregs : Nat := 8
  scratch : Nat := 0
  priv : Nat := 0
  spill : Nat := 0
  cstack : Nat := 0
  ftrap : BitVec 4 := 0
  heap : Nat := 0
  trail : Nat := 0
  chpt : Nat := 0
  tstride : Nat := 0
  sdata : DWord := 0
  sdlen : Nat := 0
  deriving DecidableEq, Repr

/-- A role of a launch record (R390). -/
structure RoleDecl where
  entry : DWord
  count : Nat
  copy : Bool
  deriving DecidableEq, Repr

/-- A launch record, read when the grid enters its queue (R390), or a child's descriptor (R304). -/
structure Launch where
  kernel : Kernel := {}
  code : DWord := 0
  codeLen : Nat := 0
  nblk : Nat := 1
  teams : Nat := 1
  span : Nat := 1
  gnear : Bool := false
  gang : Bool := false
  cls : Nat := 0
  core : Option Nat := Option.none
  tiles : Nat := 0
  srseed : Word := 0
  gdata : DWord := 0
  csbase : DWord := 0
  wln : Nat := 0
  wlcap : Nat := 0
  wlbase : DWord := 0
  handler : Option Kernel := Option.none
  amsg : List Kernel := []
  grants : List (Word × Nat) := []
  roles : List RoleDecl := []
  stream : DWord := 0
  /-- a child's ARG (R305) -/
  arg : Option DWord := Option.none
  deriving DecidableEq, Repr

/-- Where a grid's end is reported: a host launch's tag, or a child's future (R33, R305, R389). -/
inductive Owner where
  | host (fn : Nat) (tag : Word)
  | child (parent : Nat) (team : Nat) (fut : Option Nat)
  deriving DecidableEq, Repr

/-- A grid (R19, R33, R349). `status` is set when the grid is ended (R351). -/
structure Grid where
  tenant : Nat
  queue : Nat
  number : Nat
  launch : Launch
  owner : Owner
  depth : Nat := 0
  placed : Nat := 0
  suspended : Bool := false
  status : Option Byte := Option.none
  endOfWork : Bool := false
  /-- blocks of higher classes placed while this grid waited (R350) -/
  passed : Nat := 0
  /-- the queue generation its slot was tagged with (R368) -/
  qgen : Nat := 0
  /-- the grid has been reported ended -/
  ended : Bool := false
  /-- a child's launcher's requests in flight at the launch (R306) -/
  after : List Nat := []
  deriving DecidableEq, Repr

/-- An operand map (R236). -/
structure MMap where
  base : Word
  scales : Option Word
  fmt : MFmt
  tr : Bool
  stride : Nat
  kc : Nat
  deriving DecidableEq, Repr

/-- A weight context (R228): column-major weights by element code, scale codes, sparse metadata. -/
structure Context where
  fmt : MFmt
  sparse : Bool
  image : List Byte
  transposed : Bool
  scales : Option (List Byte)
  poison : Bool
  deriving DecidableEq, Repr

/-- A block's matrix stream (R228, R232, R233, R240, R245, R246). Tiles are keyed by 1024 × tile + 32 × row + column, and an
unlisted element is +0; contexts and maps by their numbers. -/
structure Stream where
  pc : DWord
  halted : Bool := false
  ended : Bool := false
  fusion : BitVec 4 := 0
  loops : List (DWord × Nat) := []
  cls : Nat := 0
  maps : List (Nat × MMap) := []
  contexts : List (Nat × Context) := []
  tiles : Sparse Word := []
  tilePoison : Sparse Bool := []
  seqr : Nat := 0
  /-- the named barrier, not initialised, that an mbar.wait in progress waits on (R266) -/
  waiting : Option Nat := Option.none
  /-- traps taken while it was halted, whose handlers have still to return -/
  owed : Nat := 0
  deriving DecidableEq, Repr

/-- Where a block stands (R357 to R360). -/
inductive BlockSt where
  | placed | saving | saved | ended
  deriving DecidableEq, Repr

/-- A block (R22). `index` is its index in the grid, 2^32 − 1 for a handler's block (R370). -/
structure Block where
  grid : Nat
  index : Nat
  quarters : List Nat
  p : Nat := 0
  scratch : Nat := 0
  nteams : Nat := 1
  lanes : Nat := 32
  cls : Nat := 0
  st : BlockSt := .placed
  isHandler : Bool := false
  stream : Option Stream := Option.none
  /-- the saved scratchpad parts: core, bytes by offset, and poisoned words by number (R360) -/
  saved : List (Nat × Memory × Sparse Bool) := []
  /-- the order of placement, for the youngest block of R357 -/
  age : Nat := 0
  deriving DecidableEq, Repr

/-- A submission and completion ring pair (R386, R388). -/
structure Rings where
  k : Nat
  sq : DWord
  cq : DWord
  read : Nat := 0
  tail : Nat := 0
  write : Nat := 0
  head : Nat := 0
  phase : Bool := true
  deriving DecidableEq, Repr

/-- A completion entry (R386). -/
structure Completion where
  tag : Word
  status : Byte
  launch : Byte := 0
  value : DWord := 0
  deriving DecidableEq, Repr

/-- A function of the host command path (R386, R391). `running` is the command that has begun and not completed. -/
structure Fn where
  rings : Option Rings := Option.none
  queue : List (BitVec 512) := []
  running : Option CmdEntry := Option.none
  owed : List Completion := []
  qgen : Nat := 0
  /-- how far a MEM_WRITE or MEM_READ in progress has come, and the first offset at which it met an error (R389) -/
  done : Nat := 0
  bad : Option Nat := Option.none
  deriving DecidableEq, Repr

/-- A held system event: its code and address (R407). -/
structure SysEvent where
  code : Byte
  addr : DWord
  deriving DecidableEq, Repr

/-- A collective group (R273): the ranks, each a device and a die. -/
structure Group where
  number : Nat
  ranks : List (Nat × Nat)
  deriving DecidableEq, Repr

/-- A tenant (R347). -/
structure Tenant where
  w : Nat := 1
  u : Nat := 120000
  f : Nat := 0
  q : Nat := 64
  nearQuota : Nat := 0
  ptroot : DWord := 0
  qbase : Nat := 0
  qn : Nat := 1
  key : BitVec 512 := 0
  groups : List Group := []
  /-- the handler queue of 256 records (R370) -/
  records : List TrapRec := []
  /-- held system events and the number dropped since the last reported (R407) -/
  held : List SysEvent := []
  dropped : Nat := 0
  nextGrid : Nat := 0
  /-- the launch queue that was served last (R350) -/
  lastQueue : Option Nat := Option.none
  /-- the tokens of the tenant's commands, newest first, each with its command's number (R263) -/
  tokens : List (DWord × Nat) := []
  /-- collective groups that end once their commands have completed (R389) -/
  endingGroups : List Nat := []
  deriving DecidableEq, Repr

/-- A partition (R348, R352): its quarters, its tenants with their deficits, whose turn it is, whose slice has ended while its
blocks are still being saved, who had the last turn, and the cycle at which its slice began. -/
structure Partition where
  quarters : List Nat
  tenants : List (Nat × Int)
  shared : Bool := false
  turn : Option Nat := Option.none
  closing : Option Nat := Option.none
  last : Option Nat := Option.none
  start : DWord := 0
  deriving DecidableEq, Repr

/-- A named barrier or a barrier object's fields (R267). -/
structure Barrier where
  owner : Option Nat := Option.none
  xa : Nat := 0
  ar : Nat := 0
  land : Nat := 0
  xb : Nat := 0
  pn : Nat := 0
  cred : Nat := 0
  deriving DecidableEq, Repr

/-- An entry of a cluster's grant table (R103): the block, the core, the first granule and the run. -/
structure Grant where
  cluster : Nat
  block : Nat
  core : Nat
  first : Nat
  run : Nat
  deriving DecidableEq, Repr

/-- The state of a class F stripe that is not far (R326): its slot once it has one. -/
structure Stripe where
  slot : Nat
  moving : Bool := false
  pinned : Bool := false
  owner : Nat := 0
  seq : Nat := 0
  deriving DecidableEq, Repr

/-- A cached translation (R363): the page's virtual base, its size, its physical base, its permissions, and the physical
pages the walk used. -/
structure Tlb where
  cluster : Nat
  tenant : Nat
  va : Nat
  size : Nat
  pa : Nat
  x : Bool
  w : Bool
  pages : List Nat
  deriving DecidableEq, Repr

/-- A page-table walk in flight (R363). -/
structure Walk where
  cluster : Nat
  tenant : Nat
  va : Nat
  pages : List Nat
  deriving DecidableEq, Repr

/-- The tracked state of a level-two line (R137): its owning die when it is not at home, and the contention counter. -/
structure Line where
  near : Option Nat := Option.none
  counter : Nat := 0
  deriving DecidableEq, Repr

/-- A byte an engine reads or writes: of a scratchpad, of physical memory, or one the command itself supplies, good or
poisoned. -/
inductive PLoc where
  | spm (core off : Nat)
  | phys (pa : Nat)
  | const (b : Byte)
  | bad (b : Byte)
  deriving DecidableEq, Repr

/-- A side of a copy: near bytes from a near address, or global bytes from a virtual address. -/
inductive Side where
  | near | glob
  deriving DecidableEq, Repr

/-- What an engine command does (R252, R257 to R260, R273, R277, R293, R295, R299, R328). -/
inductive CmdKind where
  /-- planes of rows of w bytes: destination and source, and their strides by row and by plane (R257, R258) -/
  | copy (dstSide srcSide : Side) (dst src : DWord) (w h p : Nat) (dr dp sr sp : DWord)
  /-- n rows of r bytes, gathered or scattered by a list (R259) -/
  | rows (scat : Bool) (near : Word) (base : DWord) (list : Word) (n r : Nat)
  /-- n rows of r bytes of the matrix of h register `reg` (R295) -/
  | handle (reg : Nat) (image : BitVec 512) (near list : Word) (n r : Nat)
  /-- a copy to one offset of several cores (R260) -/
  | multi (off : Nat) (cores : List Nat) (srcSide : Side) (src : DWord) (len : Nat)
  | coll (op : CollOp) (fmt : CollFmt) (rop : CollRop) (group : Nat) (src dst : DWord) (count root : Nat)
      (ssc dsc : DWord)
  /-- the results of a matched collective, to be written: elements, then scales -/
  | results (group : Nat) (dst : DWord) (bytes : List Byte) (dsc : DWord) (scales : List Byte) (poison : Bool)
  | amsg (cluster h : Nat) (payload : List Byte)
  /-- a walk of a matrix: the positions read so far, and the entries checked (R293) -/
  | check (reg : Nat) (image : BitVec 512) (poss : List Nat) (done : Nat)
  | push (list : Nat) (items : List (Nat × DWord))
  | promote (pin : Bool) (va : DWord)
  | demote (va : DWord)
  deriving DecidableEq, Repr

/-- A 64-byte piece of a command whose places have been found and that has not landed (R255): its offset in the byte stream,
the places of its source bytes, what has been read of them, whether a word of it was poisoned, the destination bytes still to
be written with the source byte each takes, whether it has begun, and the handle flags it sets (R295). -/
structure Piece where
  pos : Nat
  src : List PLoc
  data : List (Option Byte)
  bad : Bool := false
  dst : List (PLoc × Nat)
  begun : Bool := false
  flags : BitVec 64 := 0
  deriving DecidableEq, Repr

/-- A barrier a command credits: its core, its number, and the block that owned it when the command issued (R261). -/
structure Credit where
  core : Nat
  bar : Nat
  owner : Nat
  deriving DecidableEq, Repr

/-- An engine command in flight (R253 to R256, R264). Pieces below `next` have been addressed; those in `pending` have not
landed; `ahead` holds what pieces beyond a pending one have written; `row` holds the words read for the row that `next`, or a walk, has come to
(R259, R293, R295); `data` what a collective has read of its source, `srcBad` whether a word of it was poisoned, and `fail` the status
that refused it; `stop` is the status and value it ends early with. -/
structure Cmd where
  team : Nat
  block : Nat
  core : Nat
  tenant : Nat
  cls : CClass
  kind : CmdKind
  future : Option Nat := Option.none
  credit : List Credit := []
  pc : DWord := 0
  token : DWord := 0
  engine : Nat := 0
  next : Nat := 0
  pending : List Piece := []
  ahead : List (Nat × List PLoc) := []
  row : List Nat := []
  data : List Byte := []
  srcBad : Bool := false
  fail : Option Byte := Option.none
  landed : Nat := 0
  stop : Option (Byte × Nat) := Option.none
  poisonAt : Option Nat := Option.none
  /-- the stripe whose move has started (R328), and the stripe it puts out of its slot -/
  move : Option Nat := Option.none
  victim : Option Nat := Option.none
  deriving DecidableEq, Repr

/-- A quadrant of a fused group (R240): its number, its columns' place, and the half of the depth it holds. -/
structure Member where
  quad : Nat
  col : Nat
  half : Nat
  deriving DecidableEq, Repr

/-- A matrix step that has issued and not ended (R237, R239): what it writes when it ends. -/
structure MStep where
  block : Nat
  quads : List Nat
  cls : Nat
  running : Bool := false
  passed : Nat := 0
  group : List Member
  /-- the step's fields: tile, map, Z and the K offset -/
  tile : Nat
  mapNo : Nat
  map : MMap
  z : Bool
  x : Nat
  sparse : Bool
  /-- the scratchpad bytes of its operands, line by line, and of the activations' scales, each with what has been read of it;
  absent before it starts -/
  lines : List (List (Nat × Option Byte)) := []
  scales : List (Nat × Option Byte) := []
  /-- a word that it read was poisoned -/
  bad : Bool := false
  /-- its address in the stream -/
  pc : DWord := 0
  deriving DecidableEq, Repr

/-- A weight load whose contexts are not latched (R235). -/
structure Latch where
  block : Nat
  quads : List Nat
  ctx : Context
  deriving DecidableEq, Repr

/-- A tile write on its way (R242): the bytes each row puts at a core's offset; a team's when `team` is present. -/
structure MRead where
  block : Nat
  team : Option Nat
  core : Nat
  rows : List (Nat × List Byte)
  deriving DecidableEq, Repr

/-- A work-list segment (R297): its items, oldest first. -/
structure Segment where
  grid : Nat
  list : Nat
  cluster : Nat
  items : List DWord := []
  deriving DecidableEq, Repr

/-- A queued message (R277). -/
structure Msg where
  cluster : Nat
  grid : Nat
  h : Nat
  payload : List DWord
  deriving DecidableEq, Repr

/-- Whose packet crosses the fabric: a global element's, an engine piece's, a block's save or restore, a signed usage report's,
or that of the packet a link port has received. -/
inductive PktOwner where
  | elem (req lane : Nat) | piece (cmd pos : Nat) | save (block : Nat) | restore (block : Nat) | report (req : Nat)
  | link (port : Nat)
  deriving DecidableEq, Repr

/-- A packet inside the package (R354, R355): its class, its tenant and cluster, the level-two line it goes to (of a link port's,
the port it leaves by, or 16 for the root), the crosspoints
it has still to cross with its input at each, how many flits it is and how many have still to cross the first, whether its
source has injected it whole, and whether it holds an atomic slot of its channel (R366). -/
structure Packet where
  owner : PktOwner
  cls : Nat
  tenant : Nat
  cluster : Nat
  line : Nat
  route : List (Nat × Nat)
  flits : Nat
  left : Nat
  whole : Bool := false
  slot : Bool := false
  deriving DecidableEq, Repr

/-- The arbitration state of a crosspoint (R354): grants since a lower class was granted, and its inputs in the order of their
grants, the latest first. -/
structure Crosspoint where
  since : Nat := 0
  granted : List Nat := []
  deriving DecidableEq, Repr

/-- The arbitration state of a memory channel (R354, R366): slots served per tenant in its window, grants since a lower class
was granted, and whether a slot has been given ahead of the highest class that waits. -/
structure Channel where
  served : List (Nat × Nat) := []
  since : Nat := 0
  ahead : Bool := false
  deriving DecidableEq, Repr

/-- The state of a link port (R383 to R385). -/
inductive PortSt where
  | down | training | up (host : Bool)
  deriving DecidableEq, Repr

/-- A Plovtan Link port (R384): its state, the next SEQ to accept and to send, the unacknowledged frames, those to be
transmitted, consecutive retry requests, and the flits received and not yet taken as packets. -/
structure Port where
  st : PortSt := .down
  accept : Byte := 0
  send : Byte := 0
  window : List Frame := []
  outbox : List Frame := []
  retries : Nat := 0
  flits : List (BitVec 256) := []
  /-- flits of packets that wait to be sent -/
  sendq : List (BitVec 256) := []
  dropped : Nat := 0
  deriving DecidableEq, Repr

/-- Power and bring-up (R381, R392). -/
inductive Power where
  | off
  /-- up, with READY; `failed` is the recorded cause and its detail of a stage that failed -/
  | on (failed : Option (Byte × Byte))
  /-- the root has stopped every clock (R382) -/
  | tripped
  deriving DecidableEq, Repr

/-- A boot image in flash (R393): its bytes; version, length, signature and key are in its header. -/
structure FwImage where
  bytes : List Byte := []
  deriving DecidableEq, Repr

/-- A checkpoint image in the persistent tier (R394). -/
structure Image where
  identity : BitVec 256
  /-- the identity of the root that signed the header, and its signature -/
  signer : BitVec 256
  signature : List Byte
  dram : Memory
  dramPoison : Sparse Bool
  rot : Sparse Half
  tenants : List (Nat × Tenant)
  partitions : List (Nat × Partition)
  stripes : List (Nat × Stripe)
  setSeq : Sparse Nat
  bars : Sparse Barrier
  grants : List Grant
  grids : List (Nat × Grid)
  blocks : List (Nat × Block)
  teams : List (Nat × Team)
  cmds : List (Nat × Cmd)
  reqs : List (Nat × Req)
  segments : List Segment
  msgs : List Msg
  arising : List TrapRec
  deriving DecidableEq, Repr

end Sys2Proof.Machine
end

