-- ==== Sys2Proof/Machine/State.lean ====
section
/-! DEFINITION. The machine's state, its faults and refusals, and the state after bring-up (R392). -/

namespace Sys2Proof.Machine

/-- Why the machine stops. -/
inductive Fault where
  /-- Raised by `step` alone, when no clock runs: the part has no power, or the root has stopped every clock after a thermal
  trip (R382). Safe: nothing more happens until power is good again, an event the outside world sends. -/
  | noClock
  deriving DecidableEq, Repr

/-- Why the model gives no meaning. -/
inductive Refusal where
  /-- Raised by an arm of `exec` whose instruction has no meaning in the model yet. Safe: nothing is claimed of it. -/
  | notModelled (mnemonic : String)
  deriving DecidableEq, Repr

/-- Objects by number, in rising order of their numbers. -/
abbrev Table (α : Type) := List (Nat × α)

/-- The state of the part. -/
structure State where
  /-- who issues next -/
  cur : Agent := .none
  /-- how many free values have been drawn; the model's own -/
  draws : Nat := 0
  /-- events of the outside world not yet taken; the model's own -/
  inputs : List Instr := []
  /-- the number the next piece of in-flight work takes; the model's own -/
  nextId : Nat := 0
  /-- the stamp of the latest grant of an issue slot (R27); the model's own -/
  clock : Nat := 0
  /-- the cycle count as last read (R374) -/
  cycle : DWord := 0
  /-- device DRAM (R324) and its poisoned words, by word number (R140) -/
  dram : Memory := []
  dramPoison : Sparse Bool := []
  /-- host memory at system scope (R361) and its poisoned words, by word number (R255) -/
  host : Memory := []
  hostPoison : Sparse Bool := []
  /-- scratchpads, keyed by 2^20 × core + offset (R98), and their poisoned words (R117) -/
  spm : Memory := []
  spmPoison : Sparse Bool := []
  /-- single-bit scratchpad errors corrected and counted (R117) -/
  corrected : Nat := 0
  /-- the reverse ownership table by 4 KiB page (R362) -/
  rot : Sparse Half := []
  /-- cached translations and walks in flight (R363) -/
  tlb : List Tlb := []
  walks : Table Walk := []
  /-- tracked level-two lines by line number (R137) -/
  lines : Table Line := []
  /-- named barriers, keyed by 64 × core + number (R266) -/
  bars : Sparse Barrier := []
  /-- the clusters' grant tables (R103) -/
  grants : List Grant := []
  /-- class F stripes that are not far, by stripe number, and each bank set's next sequence number (R326) -/
  stripes : Table Stripe := []
  setSeq : Sparse Nat := []
  teams : Table Team := []
  blocks : Table Block := []
  grids : Table Grid := []
  tenants : Table Tenant := []
  partitions : Table Partition := []
  fns : Table Fn := []
  reqs : Table Req := []
  cmds : Table Cmd := []
  msteps : Table MStep := []
  latches : Table Latch := []
  mreads : Table MRead := []
  segments : List Segment := []
  /-- the clusters' message queues, oldest first (R277) -/
  msgs : List Msg := []
  /-- trap records that wait for room, oldest first (R370) -/
  arising : List TrapRec := []
  /-- system events raised and not delivered, oldest first: tenant, code and address (R370, R407) -/
  sysEvents : List (Nat × Byte × DWord) := []
  /-- page-ownership changes not acknowledged (R363) -/
  pageChange : Option (Nat × Nat × Half) := none
  /-- packets on their way to their slices, and the arbiters of crosspoints and channels (R354, R355, R366) -/
  fabric : Table Packet := []
  crosspoints : Table Crosspoint := []
  channels : Table Channel := []
  /-- the number of a block's latest grant of a quadrant, keyed by 2,048 × block + quarter (R247) -/
  quadLast : Sparse Nat := []
  ports : Table Port := []
  /-- packets and doorbells dropped and counted (R385, R388) -/
  droppedPackets : Nat := 0
  droppedDoorbells : Nat := 0
  /-- power, the two status signals and the recorded fault cause (R381, R382, R392) -/
  powerSt : Power := .on none
  ready : Bool := true
  faultPin : Bool := false
  faultCause : Byte := 0
  faultDetail : Byte := 0
  /-- the arithmetic clock in MHz and the package power cap in W (R382) -/
  mhz : Nat := 1200
  cap : Nat := 2800
  /-- boot flash (R393) -/
  imageA : FwImage := {}
  imageB : FwImage := {}
  activeB : Bool := false
  /-- the image that booted: true for B -/
  bootedB : Bool := false
  rollback : DWord := 0
  /-- the persistent tier's image (R394) -/
  tier : Option Image := none
  /-- a checkpoint or a restore in progress, and the cluster resets that wait for a checkpoint's end (R394, R395) -/
  checkpointing : Bool := false
  restoring : Bool := false
  heldResets : List Nat := []
  /-- usage counters and report numbers by tenant, which live as long as the part is powered (R378) -/
  usage : Table (List DWord × DWord) := []
  deriving DecidableEq, Repr

/-- The state after bring-up (R392, stage 6): every memory zero, no tenant, function 0 answering, READY asserted.
(DESIGN CHOICE, log 1; DESIGN CHOICE, log 3; DESIGN CHOICE, log 8; DESIGN CHOICE, log 9) -/
def State.reset : State :=
  { ports := [(0, { st := .up true })] }

end Sys2Proof.Machine
end

