-- ==== Sys2Proof/Machine/Ops.lean ====
section
/-! DEFINITION. Named operations over the state: tables, teams and their owners, registers and masks, the end of a grid, and
taking a trap. -/

namespace Sys2Proof.Machine

/-! ### Tables -/

namespace Table
variable {α : Type}

/-- The object of a number. -/
def get? : Table α → Nat → Option α
  | [], _ => none
  | (k, x) :: r, j => if k = j then some x else get? r j

/-- Puts an object at a number. -/
def put (t : Table α) (k : Nat) (x : α) : Table α := Sparse.insert (Sparse.erase t k) k x

/-- Takes an object away. -/
def del (t : Table α) (k : Nat) : Table α := Sparse.erase t k

/-- Changes an object, if there is one. -/
def mod (t : Table α) (k : Nat) (f : α → α) : Table α :=
  match get? t k with
  | some x => put t k (f x)
  | none => t

/-- The numbers of the objects that satisfy a test, rising. -/
def keys (t : Table α) (p : α → Bool) : List Nat := (t.filter (fun e => p e.2)).map Prod.fst

end Table

/-! ### Free values -/

/-- Reads the cycle count: it has risen by a free amount since the last reading (R374). (DEDUCED, log 13) -/
def State.readCycle (s : State) : DWord × State :=
  let c := s.cycle + Config.elapsed s.draws
  (c, { s with cycle := c, draws := s.draws + 1 })

/-- A free index below `n`. -/
def State.choose (s : State) (n : Nat) : Nat × State :=
  (Config.freeChoice s.draws n % n, { s with draws := s.draws + 1 })

/-- A number for a new piece of in-flight work. (DESIGN CHOICE, log 14) -/
def State.fresh (s : State) : Nat × State := (s.nextId, { s with nextId := s.nextId + 1 })

/-- A tenant's usage counter j rises by n (R378). -/
def bumpUsage (u : Table (List DWord × DWord)) (tenant j n : Nat) : Table (List DWord × DWord) :=
  let e := (u.get? tenant).getD (List.replicate 5 0, 0)
  u.put tenant (e.1.modify j (fun x => x + BitVec.ofNat 64 n), e.2)

/-! ### Places -/

/-- The package core index of a quarter (R2). -/
def coreOf (q : Nat) : Nat := q / 4
/-- The cluster of a quarter, 0 to 31 (R2). -/
def clusterOf (q : Nat) : Nat := q / 64
/-- The die of a quarter (R2). -/
def dieOf (q : Nat) : Nat := q / 512
/-- The cluster of a core. -/
def clusterOfCore (c : Nat) : Nat := c / 16

/-! ### Teams and what they belong to -/

def State.team? (s : State) (k : Nat) : Option Team := s.teams.get? k
def State.block? (s : State) (b : Nat) : Option Block := s.blocks.get? b
def State.grid? (s : State) (g : Nat) : Option Grid := s.grids.get? g
def State.tenant? (s : State) (t : Nat) : Option Tenant := s.tenants.get? t

def State.setTeam (s : State) (k : Nat) (t : Team) : State := { s with teams := s.teams.put k t }
def State.setBlock (s : State) (b : Nat) (x : Block) : State := { s with blocks := s.blocks.put b x }
def State.setGrid (s : State) (g : Nat) (x : Grid) : State := { s with grids := s.grids.put g x }
def State.setTenant (s : State) (t : Nat) (x : Tenant) : State := { s with tenants := s.tenants.put t x }
def State.modTeam (s : State) (k : Nat) (f : Team → Team) : State := { s with teams := s.teams.mod k f }
def State.modBlock (s : State) (b : Nat) (f : Block → Block) : State := { s with blocks := s.blocks.mod b f }
def State.modGrid (s : State) (g : Nat) (f : Grid → Grid) : State := { s with grids := s.grids.mod g f }
def State.modTenant (s : State) (t : Nat) (f : Tenant → Tenant) : State := { s with tenants := s.tenants.mod t f }

/-- The grid of a team. -/
def State.gridIdOf (s : State) (t : Team) : Nat := ((s.block? t.block).map Block.grid).getD 0
/-- The tenant of a grid, 0 for none. -/
def State.tenantOfGrid (s : State) (g : Nat) : Nat := ((s.grid? g).map Grid.tenant).getD 0
/-- The tenant of a team. -/
def State.tenantIdOf (s : State) (t : Team) : Nat := s.tenantOfGrid (s.gridIdOf t)
/-- The tenant of a block. -/
def State.tenantOfBlock (s : State) (b : Nat) : Nat := ((s.block? b).map (fun x => s.tenantOfGrid x.grid)).getD 0

/-- A block that has been placed and has not ended; a saved block is live (R266). -/
def Block.live (b : Block) : Bool := b.st != .ended
/-- A grid that has not been ended or reported (R33, R351). -/
def Grid.live (g : Grid) : Bool := g.status.isNone && !g.ended

/-- The teams of a block that have not retired. -/
def State.liveTeams (s : State) (b : Nat) : List Nat :=
  s.teams.keys (fun t => t.block == b && t.st != .retired)
/-- The live blocks of a grid. -/
def State.liveBlocks (s : State) (g : Nat) : List Nat :=
  s.blocks.keys (fun b => b.grid == g && b.live)

/-- A block holds its quarters: it is placed, or being saved. -/
def Block.resident (b : Block) : Bool := b.st == .placed || b.st == .saving

/-- The block is resident. -/
def State.residentBlock (s : State) (b : Nat) : Bool := ((s.block? b).map Block.resident).getD false

/-- The team's cluster. -/
def Team.cluster (t : Team) : Nat := clusterOf t.quarter
/-- The team's core. -/
def Team.core (t : Team) : Nat := coreOf t.quarter

/-! ### Registers -/

/-- The number of a register in a lane's file: v0 to v255, l0 to l3, o0 to o15. -/
def laneNum : Opnd → Option Nat
  | .v n => some n
  | .l n => some (256 + n)
  | .o n => some (272 + n)
  | _ => none

/-- The key of a lane register. -/
def laneKey (lane num : Nat) : Nat := 512 * lane + num
/-- The key of a v register's flag in a mask word. -/
def flagKey (v w : Nat) : Nat := 32 * v + w

def Regs.word (r : Regs) (lane num : Nat) : Word := Sparse.get 0 r.lane (laneKey lane num)
def Regs.setWord (r : Regs) (lane num : Nat) (x : Word) : Regs :=
  { r with lane := Sparse.set 0 r.lane (laneKey lane num) x }
def Regs.vflag (r : Regs) (v w : Nat) : Flag := Sparse.get .full r.flag (flagKey v w)
def Regs.setVflag (r : Regs) (v w : Nat) (f : Flag) : Regs := { r with flag := Sparse.set .full r.flag (flagKey v w) f }
def Regs.s (r : Regs) (n : Nat) : DWord := Sparse.get 0 r.sreg n
def Regs.setS (r : Regs) (n : Nat) (x : DWord) : Regs := { r with sreg := Sparse.set 0 r.sreg n x }
def Regs.sflg (r : Regs) (n : Nat) : Flag := Sparse.get .full r.sflag n
def Regs.setSflg (r : Regs) (n : Nat) (f : Flag) : Regs := { r with sflag := Sparse.set .full r.sflag n f }
def Regs.handle (r : Regs) (n : Nat) : Handle := Sparse.get {} r.h n
def Regs.setHandle (r : Regs) (n : Nat) (h : Handle) : Regs := { r with h := Sparse.set {} r.h n h }
def Regs.tagOf (r : Regs) (lane num : Nat) : Option Tag := Sparse.get none r.tag (laneKey lane num)
def Regs.setTag (r : Regs) (lane num : Nat) (t : Option Tag) : Regs :=
  { r with tag := Sparse.set none r.tag (laneKey lane num) t }

/-- Sets the flag of a v register in each of the given mask words. -/
def Regs.setVflags (r : Regs) (v : Nat) (f : Flag) : List Nat → Regs
  | [] => r
  | w :: ws => Regs.setVflags (r.setVflag v w f) v f ws

/-- Writes one lane's l file: the four-deep shift of R36. -/
def Regs.push (r : Regs) (lane : Nat) (x : Word) (tag : Option Tag) : Regs :=
  let r1 := ((r.setWord lane 259 (r.word lane 258)).setWord lane 258 (r.word lane 257)).setWord lane 257 (r.word lane 256)
  let r2 := ((r1.setTag lane 259 (r.tagOf lane 258)).setTag lane 258 (r.tagOf lane 257)).setTag lane 257 (r.tagOf lane 256)
  (r2.setWord lane 256 x).setTag lane 256 tag

/-- The lane's term context (R172). -/
def Team.ctx (t : Team) (lane : Nat) : TermCtx := Sparse.get {} t.term lane
def Team.setCtx (t : Team) (lane : Nat) (c : TermCtx) : Team := { t with term := Sparse.set {} t.term lane c }

/-- The lane's region, if one is open (R308). -/
def Team.regionOf (t : Team) (lane : Nat) : Option Region := Sparse.get none t.region lane
def Team.setRegion (t : Team) (lane : Nat) (r : Option Region) : Team :=
  { t with region := Sparse.set none t.region lane r }

/-- A cause word for an s register: the register becomes full with it; one that is empty takes it when its producer has
returned (R43, R319). (DEDUCED, log 117) -/
def Team.giveCause (t : Team) (n : Nat) (x : DWord) : Team :=
  if t.regs.sflg n == .empty then { t with causes := (n, x) :: t.causes.filter (fun e => e.1 != n) }
  else { t with regs := (t.regs.setS n x).setSflg n .full }

/-- An s register whose producer has returned takes the cause word that waits for it. -/
def Team.takeCause (t : Team) (n : Nat) : Team :=
  match t.causes.find? (fun e => e.1 == n) with
  | some e => { t with regs := (t.regs.setS n e.2).setSflg n .full, causes := t.causes.filter (fun e => e.1 != n) }
  | none => t

/-! ### The active mask (R24, R65, R196) -/

/-- The mask the covered instruction of an index runs with (R65). -/
def Cover.mask (c : Cover) (k : Nat) : Mask :=
  if c.pat.getLsbD k then c.m &&& c.p else c.m &&& ~~~c.p

/-- The mask an instruction issues with: the path's, narrowed by a live coverage, or the resume mask of a reissued term
instruction. -/
def Ctl.amask (c : Ctl) : Mask :=
  match c.resume with
  | some m => m
  | none =>
    match c.cover with
    | some v => v.mask v.next
    | none => c.mask

def Team.amask (t : Team) : Mask := t.ctl.amask
/-- The active lanes, ascending (R11). -/
def Team.active (t : Team) : List Nat := Mask.lanes t.amask t.lanes
/-- The swept mask words, ascending (R25). -/
def Team.swept (t : Team) : List Nat := Mask.sweep t.amask

/-- The coverage after one covered instruction has completed (R65). -/
def Cover.after (c : Cover) : Option Cover := if c.next < c.n then some { c with next := c.next + 1 } else none

/-- Moves a team past an instruction of `n` bytes: the pc, the buffer, the coverage, and a resume mask that has been used. -/
def Ctl.advance (c : Ctl) (n : Nat) : Ctl :=
  { c with pc := c.pc + BitVec.ofNat 64 n, buf := c.buf - n / 4, cover := c.cover.bind Cover.after, resume := none }

/-- Sends a team's current path to an address. The buffer goes on at the next instruction, or where the pc does not change,
and every other pc flushes it (R210). -/
def Ctl.goto (c : Ctl) (pc next : DWord) : Ctl :=
  { c with
    pc := pc
    buf := if pc = next then c.buf - (next - c.pc).toNat / 4 else if pc = c.pc then c.buf else 0 }

/-! ### Parked entries -/

/-- The formed entries of a team's replay queue: their numbers and requests (R112, R113). -/
def State.entries (s : State) (k : Nat) : List (Nat × Nat) :=
  s.reqs.filterMap (fun e => if e.2.team = k then e.2.entry.map (fun n => (n, e.1)) else none)

/-- A request whose entry may still be formed: an element of it is in transit. -/
def Req.forming (r : Req) : Bool :=
  r.entry.isNone && (match r.kind with
    | .load _ _ | .store _ | .satom _ => r.elems.any (fun e => e.st == .transit)
    | _ => false)

/-- How many places of the replay queue a team has in use, formed entries and those in formation. (DEDUCED, log 111) -/
def State.queueUse (s : State) (k : Nat) : Nat :=
  (s.reqs.filter (fun e => e.2.team == k && (e.2.entry.isSome || e.2.forming))).length

/-- The lowest number no entry of the team has. -/
def State.freeEntry (s : State) (k : Nat) : Nat :=
  ((List.range 8).find? (fun n => !(s.entries k).any (fun e => e.1 == n))).getD 0

/-! ### Accesses under a grant (R103) -/

/-- The code of a parked element. -/
def Elem.parkedCode (e : Elem) : Option Byte :=
  match e.st with
  | .parked c => some c
  | _ => none

/-- A parked element of 16 bytes some of whose words have been replayed: it has been checked, and goes on word by word. -/
def Elem.midway (e : Elem) : Bool := e.parkedCode.isSome && !e.landed.isEmpty

/-- A granule granted to a block by an entry of the table. -/
def State.leased (s : State) (block core g : Nat) : Bool :=
  s.grants.any (fun e => e.block == block && e.core == core && decide (e.first ≤ g) && decide (g < e.first + e.run))

/-- A byte of a core lies in a run of granules. -/
def inRun (core first n c off : Nat) : Bool := c == core && decide (first ≤ off / 64) && decide (off / 64 < first + n)

/-- A place lies in a run of granules. -/
def PLoc.inRun (core first n : Nat) : PLoc → Bool
  | .spm c off => Sys2Proof.Machine.inRun core first n c off
  | _ => false

/-- The core and offset of an element with a window 1 address, in its block's frame (R99). -/
def Block.window1 (b : Block) (r : Req) (e : Elem) : Option (Nat × Nat) :=
  match r.kind with
  | .load _ _ | .store _ | .satom _ | .lds _ _ _ | .sts _ _ _ =>
    if field e.addr 28 4 = 1 then some (clusterOf (b.quarters.headD 0) * 16 + field e.addr 24 4, b.p + field e.addr 0 20)
    else none
  | _ => none

/-- An element has been checked and not landed. -/
def Elem.checked (e : Elem) : Bool := e.st == .landing || e.midway

/-- The byte of a team's window 1 element that has been checked and not landed. -/
def State.checkedAt (s : State) (b : Nat) (r : Req) (e : Elem) : Option (Nat × Nat) :=
  if e.checked then (s.block? b).bind (fun x => x.window1 r e) else none

/-- The bytes a tile write stores. -/
def MRead.bytes (m : MRead) : List Nat := m.rows.flatMap (fun r => (List.range r.2.length).map (fun j => r.1 + j))

/-- An access of a block that has been checked against a grant of a run has not landed: an element, a piece of an engine
command, a matrix step's operand or a tile write (R103). -/
def State.runBusy (s : State) (block : Nat → Bool) (core first n : Nat) : Bool :=
  s.reqs.any (fun r => match s.team? r.2.team with
    | none => false
    | some t => block t.block && r.2.elems.any (fun e =>
        ((s.checkedAt t.block r.2 e).map (fun x => inRun core first n x.1 x.2)).getD false)) ||
    s.cmds.any (fun c => block c.2.block && c.2.pending.any (fun p => (p.src ++ p.dst.map Prod.fst).any (PLoc.inRun core first n))) ||
    s.msteps.any (fun m => block m.2.block && m.2.running && (m.2.lines.flatten ++ m.2.scales).any (fun e =>
      inRun core first n (e.1 / Config.scratchBytes) (e.1 % Config.scratchBytes))) ||
    s.mreads.any (fun m => block m.2.block && m.2.bytes.any (inRun core first n m.2.core))

/-- A checked element of a store, in a granule leased to its block, which lands though the block ends (R103). -/
def State.outlives (s : State) (b : Nat) (r : Req) (e : Elem) : Bool :=
  (match r.kind with
    | .store _ | .satom _ | .sts _ _ _ => true
    | _ => false) && ((s.checkedAt b r e).map (fun x => s.leased b x.1 (x.2 / 64))).getD false

/-- A tile write to granules leased to its block, which lands though the block ends. -/
def State.writeOutlives (s : State) (m : MRead) : Bool := m.bytes.any (fun o => s.leased m.block m.core (o / 64))

/-- The grants of ended blocks end once no access checked against them is left (R103). -/
def State.sweepGrants (s : State) : State :=
  let gone (g : Grant) : Bool := !((s.block? g.block).map Block.live).getD false && !s.runBusy (fun b => b == g.block) g.core g.first g.run
  if s.grants.any gone then { s with grants := s.grants.filter (fun g => !gone g) } else s

/-! ### The end of blocks and grids -/

/-- Frees what a block holds: its named barriers and its grants (R32); a grant stays until every access checked against it has
landed (R103). (DEDUCED, log 83) -/
def State.freeBlock (s : State) (b : Nat) : State :=
  let s1 : State := { s with
    bars := s.bars.map (fun e => if e.2.owner = some b then (e.1, {}) else e) |>.filter (fun e => e.2 != ({} : Barrier))
    msteps := s.msteps.filter (fun e => e.2.block != b)
    latches := s.latches.filter (fun e => e.2.block != b)
    mreads := s.mreads.filter (fun e => e.2.block != b || s.writeOutlives e.2)
    blocks := s.blocks.mod b (fun x => { x with st := .ended, stream := none, saved := [] }) }
  { s1 with grants := s.grants.filter (fun g => g.block != b || s1.runBusy (fun k => k == b) g.core g.first g.run) }

def State.freeBlocks (s : State) : List Nat → State
  | [] => s
  | b :: r => State.freeBlocks (s.freeBlock b) r

/-- A request with some of its elements alone, of which nothing returns. -/
def Req.only (r : Req) (es : List Elem) : Option Req :=
  if es.isEmpty then none
  else some { r with elems := es, words := [], dst := .none, entry := none, released := false, renew := false }

/-- What is left of a request of a team of block b that ends: the global atomics whose packets have been injected whole, which take
effect (R367), and the stores under grants that have been checked, which land (R103). (DEDUCED, log 83) -/
def State.sentOnly (s : State) (b : Nat) (n : Nat) (r : Req) : Option Req :=
  match r.kind with
  | .gatom _ _ _ => r.only (r.elems.filter (fun e => e.st == .transit &&
      s.fabric.any (fun p => p.2.owner == .elem n e.lane && p.2.whole)))
  | _ => r.only ((r.elems.filter (s.outlives b r)).map (fun e => { e with st := .landing }))

/-- Retires the teams of the given blocks at once, with their parked entries (R372). -/
def State.killTeams (s : State) (bs : List Nat) : State :=
  let ks := s.teams.keys (fun t => bs.contains t.block)
  { s with
    teams := s.teams.map (fun e => if ks.contains e.1 then (e.1, { e.2 with st := .retired }) else e)
    reqs := s.reqs.filterMap (fun e => if ks.contains e.2.team then
        (s.sentOnly (((s.team? e.2.team).map Team.block).getD 0) e.1 e.2).map (fun r => (e.1, r)) else some e) }

/-- The command needs its block's scratchpad, or delivers to its grid. -/
def CmdKind.ofBlock : CmdKind → Bool
  | .copy ds ss _ _ _ _ _ _ _ _ _ => ds == .near || ss == .near
  | .rows .. | .handle .. | .multi .. | .amsg .. => true
  | _ => false

/-- Cuts short the commands of ended blocks that need them, but for pieces that have been read, which land whole; pushes to
their lists are withdrawn. (DEDUCED, log 83) -/
def State.cutCmds (s : State) (bs : List Nat) : State :=
  let cut (c : Cmd) : Cmd :=
    if bs.contains c.block && c.kind.ofBlock && c.stop.isNone then
      { c with stop := some (0x01, c.next), pending := c.pending.filter (fun p => p.begun && p.data.all Option.isSome) }
    else c
  { s with cmds := (s.cmds.map (fun e => (e.1, cut e.2))).filter (fun e => !(bs.contains e.2.block && e.2.cls == .wl)) }

/-- A record of a grid. -/
def TrapRec.ofGrid (g : Nat) (r : TrapRec) : Bool := r.grid == g && r.kind != 4

/-- Ends a grid with a status (R351, R372): its blocks end, none of its blocks is placed any more, its records and its
queued messages are dropped. Its end is reported by the grid's own event once its children have ended (R33). -/
def State.endGrid (s : State) (g : Nat) (status : Byte) : State :=
  match s.grid? g with
  | none => s
  | some x =>
    if x.status.isSome || x.ended then s
    else
      let bs := s.liveBlocks g
      let s := ((s.killTeams bs).cutCmds bs).freeBlocks bs
      { s.setGrid g { x with status := some status } with
        arising := s.arising.filter (fun r => !r.ofGrid g)
        msgs := s.msgs.filter (fun m => m.grid != g)
        segments := s.segments.filter (fun m => m.grid != g)
        tenants := s.tenants.mod x.tenant (fun t => { t with records := t.records.filter (fun r => !r.ofGrid g) }) }

def State.endGrids (s : State) (status : Byte) : List Nat → State
  | [] => s
  | g :: r => State.endGrids (s.endGrid g status) status r

/-! ### Regions doomed by a trap (R317) -/

/-- Dooms the region of a lane that has one and is not doomed. -/
def Team.doom (t : Team) (cause detail : Byte) (lane : Nat) : Team :=
  match t.regionOf lane with
  | some r => if r.doom.isNone then t.setRegion lane (some { r with doom := some (cause, detail) }) else t
  | none => t

def Team.doomAll (t : Team) (cause detail : Byte) : List Nat → Team
  | [] => t
  | i :: r => Team.doomAll (t.doom cause detail i) cause detail r

/-! ### Taking a trap (R370 to R372) -/

/-- What an instruction says of the trap it raises: its code and the fields its area gives. (DEDUCED, log 48) -/
structure Trap where
  code : Byte
  detail : Byte := 0
  addr : DWord := 0
  aux : DWord := 0
  /-- the record mask, when it is not the active mask (R153, R196) -/
  mask : Option Mask := none
  /-- the mask is a term resume mask -/
  term : Bool := false
  /-- the party resumes at the next instruction: trap n (R375) -/
  after : Nat := 0
  /-- the instruction's pc, when its team or its stream has gone on since -/
  pc : Option DWord := none
  deriving DecidableEq, Repr

/-- s1 of a record, and TEAMID (R371, R374): grid, handler, stream, team and block. -/
def identWord (grid : Nat) (handler stream : Bool) (team block : Nat) : DWord :=
  BitVec.ofNat 64 (grid % 2 ^ 24 * 2 ^ 40 + (if handler then 2 ^ 39 else 0) + (if stream then 2 ^ 38 else 0) +
    team % 64 * 2 ^ 32 + block % 2 ^ 32)

/-- A team's identifier. -/
def State.teamIdent (s : State) (t : Team) : DWord :=
  let b := s.block? t.block
  identWord (((s.grid? (s.gridIdOf t)).map Grid.number).getD 0) t.handler.isSome false t.index ((b.map Block.index).getD 0)

/-- Puts a record into its tenant's handler queue, or among those that wait for room (R370). -/
def State.enqueue (s : State) (r : TrapRec) : State :=
  match s.tenant? r.tenant with
  | none => s
  | some t =>
    if t.records.length < 256 && !s.arising.any (fun x => x.tenant == r.tenant) then
      s.setTenant r.tenant { t with records := t.records ++ [r] }
    else { s with arising := s.arising ++ [r] }

/-- Raises a record of a party of grid `g`: it goes to the handler queue; with no handler the grid ends with status 0x10, and
from a handler team with 0x11 (R372). -/
def State.raise (s : State) (g : Nat) (fromHandler : Bool) (r : TrapRec) : State :=
  match s.grid? g with
  | none => s
  | some x =>
    if fromHandler then s.endGrid g 0x11
    else if x.launch.handler.isNone then s.endGrid g 0x10
    else s.enqueue r

/-- TAKING A TRAP OF A TEAM. The instruction has no effect; the record holds the cause, the pc, the mask and the cycle count;
the regions of the lanes active in the instruction are doomed (R317); a team that raised a precise trap (kind 0) is not ready
until its handler resumes it (R372). -/
def State.takeTrap (s : State) (k : Nat) (kind : Nat) (tr : Trap) : State :=
  match s.team? k with
  | none => s
  | some t =>
    let g := s.gridIdOf t
    let (cyc, s) := s.readCycle
    let mask := tr.mask.getD t.amask
    let t' := if kind = 0 then { t.doomAll 4 tr.code t.active with st := .trapped } else t
    let r : TrapRec :=
      { tenant := s.tenantOfGrid g, grid := g, party := .team k, kind := kind, code := tr.code, detail := tr.detail
        ident := s.teamIdent t, addr := tr.addr, aux := tr.aux, pc := tr.pc.getD t.ctl.pc, mask := mask
        cycle := cyc, rpc := if kind = 0 then t.ctl.pc + BitVec.ofNat 64 tr.after else 0
        term := tr.term, cover := t.ctl.cover }
    (s.setTeam k t').raise g t.handler.isSome r

/-- A stream halted by a trap, at its resume PC (R233). -/
def Stream.halt (m : Stream) (rpc : DWord) : Stream :=
  { m with pc := rpc, halted := true, waiting := none, owed := if m.halted then m.owed + 1 else m.owed }

/-- A stream whose handler returns: it goes where a changed RPC names, and on once no other handler of it is owed. -/
def Stream.resume (m : Stream) (h : HandlerRec) : Stream :=
  { m with pc := if h.rpc = h.trap.rpc then m.pc else h.rpc, halted := m.owed != 0, owed := m.owed - 1 }

/-- TAKING A TRAP OF A STREAM: the sequencer halts before the instruction takes effect, and the record is the block's. A step
that has not started has not issued, and is issued again (R233). (DEDUCED, log 119) -/
def State.takeStreamTrap (s : State) (b : Nat) (size : Nat) (tr : Trap) (retry : Bool := false) : State :=
  match s.block? b with
  | none => s
  | some x =>
    match x.stream with
    | none => s
    | some m =>
      let (cyc, s) := s.readCycle
      let r : TrapRec :=
        { tenant := s.tenantOfGrid x.grid, grid := x.grid, party := .stream b, kind := 2, code := tr.code
          detail := tr.detail
          ident := identWord (((s.grid? x.grid).map Grid.number).getD 0) false true 0 x.index
          addr := tr.addr, aux := tr.aux, pc := tr.pc.getD m.pc, mask := 0, cycle := cyc
          rpc := if retry || tr.pc.isSome then m.pc else m.pc + BitVec.ofNat 64 size }
      ({ s.setBlock b { x with stream := some (m.halt r.rpc) } with
        msteps := s.msteps.filter (fun e => e.2.block != b || e.2.running) }).raise x.grid false r

/-- A request of a term instruction. -/
def ReqKind.term : ReqKind → Bool
  | .value | .deref | .getarg => true
  | _ => false

/-- The lanes a handler has cleared from a term resume mask are not reissued: their destination becomes full holding 0
(R196). A changed RPC clears them all. -/
def Req.abandon (k : Nat) (pc : DWord) (keep : Mask) (r : Req) : Req :=
  if r.team = k && r.pc == pc && r.kind.term then
    { r with elems := r.elems.map (fun e => match e.st with
        | .parked _ => if keep.getLsbD e.lane then e else { e with st := .done, got := 0 }
        | _ => e) }
  else r

/-- A stopped lane of a term instruction in progress goes to work again, or is abandoned and holds 0 (R196). -/
def TermRun.resume (keep : Mask) (r : TermRun) : TermRun :=
  { r with lanes := r.lanes.map (fun l => match l.st with
      | .stopped _ _ => if keep.getLsbD l.lane then { l with log := [], st := .running } else { l with st := .done 0 }
      | _ => l) }

/-- RETURN FROM A TRAP. A party resumes at the pc of its handler's RPC, with the mask and coverage its trap saved; a changed
RPC ends a live coverage, and a term instruction is reissued on the lanes left in its record mask (R376, R196), unless a save
has sent its path to a fallback, which ends it as a changed RPC does. `size` is the length of the instruction that trapped.
(DEDUCED, log 121) -/
def State.resumeParty (s : State) (h : HandlerRec) (size : Nat) : State :=
  match h.trap.party with
  | .team k =>
    let same := h.rpc == h.trap.rpc && !(h.trap.term && h.trap.moved)
    if h.trap.kind = 0 then
      let s := s.modTeam k (fun t =>
        if t.st != .trapped then t else
        let c := if same then t.ctl else { t.ctl with cover := none }
        { t with
          st := .running
          run := t.run.map (TermRun.resume (if same then h.rmask else 0))
          ctl := { c.goto h.rpc (t.ctl.pc + BitVec.ofNat 64 size) with
            resume := if !same then none else if h.trap.term && t.run.isNone then some h.rmask else t.ctl.resume } })
      if h.trap.term then
        { s with reqs := s.reqs.map (fun e => (e.1, e.2.abandon k h.trap.pc (if same then h.rmask else 0))) }
      else s
    else s
  | .stream b =>
    s.modBlock b (fun x => { x with stream := x.stream.map (fun m => m.resume h) })
  | .device => s

end Sys2Proof.Machine
end

