-- ==== Sys2Proof/Machine/Flags.lean ====
section
/-! DEFINITION. The flags an instruction meets: full, empty and poison bits of the registers it names (R40 to R45), the
register traps (R51, R78), and the float status word (R152, R153). -/

namespace Sys2Proof.Machine

/-- A register with full/empty state, or a handle register. -/
inductive RegRef where
  | v (n : Nat) | s (n : Nat) | h (n : Nat)
  deriving DecidableEq, Repr

/-- What an instruction names: registers it reads, each with its T bit; registers it writes; registers it only names. -/
structure Uses where
  reads : List (RegRef × Bool) := []
  writes : List RegRef := []
  names : List RegRef := []
  deriving DecidableEq, Repr

/-- How many registers an operand of a class names (R38, R106). -/
def clsWidth : Cls → Nat
  | .pairDst | .src64 | .term | .target => 2
  | .quadDst | .quadSrc => 4
  | _ => 1

/-- The registers an operand of a class names. -/
def regsOf (c : Cls) : Opnd → List RegRef
  | .v n => (List.range (clsWidth c)).map (fun j => .v (n + j))
  | .s n => [.s n]
  | .h n => [.h n]
  | _ => []

def slotRegs (sp : Spec) : Slot → List RegRef
  | .op o _ => match sp with
    | .cls c => regsOf c o
    | .clsNoT c | .dst c => regsOf c o
    | _ => []
  | _ => []

def slotReads (sp : Spec) (sl : Slot) : List (RegRef × Bool) :=
  (slotRegs sp sl).map (fun r => (r, match sl with | .op _ t => t | _ => false))

/-- What an instruction names, from its fields and its row. sysr and usg write the register A names (R373); ftest and fcan
read the state of the register A names and not its value (R263, R264); arbeg writes no register (R310);
fpack reads its old D (R162). -/
def usesOf (i : Instr) : Uses :=
  match i.enc? with
  | none => {}
  | some (maj, min, _, f) =>
    match row maj min f.m f.d.k.toNat with
    | none => {}
    | some rw =>
      let g := rw.sig
      match i with
      | .sysr .. | .usg .. => { reads := slotReads g.b f.b, writes := slotRegs g.a f.a }
      | .ftest .tok _ _ _ => { reads := slotReads g.a f.a, writes := slotRegs g.d f.d }
      | .ftest _ _ _ _ => { writes := slotRegs g.d f.d, names := slotRegs g.a f.a }
      | .fcan true _ _ => { reads := slotReads g.a f.a }
      | .fcan false _ _ => { names := slotRegs g.a f.a }
      | .arbeg .. => { names := slotRegs g.d f.d }
      | .vtos _ => { reads := slotReads g.b f.b, writes := slotRegs g.d f.d, names := slotRegs g.a f.a }
      | .pblk _ _ p t => { reads := [(.v p, t)] }
      | .fpack .. =>
        { reads := slotReads g.a f.a ++ slotReads g.b f.b ++ slotReads g.d f.d, writes := slotRegs g.d f.d }
      | _ => { reads := slotReads g.a f.a ++ slotReads g.b f.b ++ slotReads g.c f.c, writes := slotRegs g.d f.d }

def Uses.all (u : Uses) : List RegRef := u.reads.map Prod.fst ++ u.writes ++ u.names

/-- A register at or beyond its team's allocation (R51, 0x11). -/
def RegRef.beyond (t : Team) : RegRef → Bool
  | .v n => decide (t.vregs ≤ n)
  | .s n => decide (t.sregs ≤ n)
  | .h _ => false

/-- A register's state over the mask words an instruction sweeps: poisoned in one, else empty in one, else full (R42). -/
def RegRef.state (t : Team) (ws : List Nat) : RegRef → Flag
  | .v n =>
    if ws.any (fun w => t.regs.vflag n w == .poisoned) then .poisoned
    else if ws.any (fun w => t.regs.vflag n w == .empty) then .empty
    else .full
  | .s n => t.regs.sflg n
  | .h n => if (t.regs.handle n).state == .pending then .empty else .full

/-- A register is empty in some mask word an instruction sweeps, whatever its other words hold (R43). -/
def RegRef.anyEmpty (t : Team) (ws : List Nat) : RegRef → Bool
  | .v n => ws.any (fun w => t.regs.vflag n w == .empty)
  | r => r.state t ws == .empty

/-- What the register checks of R42 to R45 and R51 say. -/
inductive RegCheck where
  | go | wait | trap (code : Byte)
  deriving DecidableEq, Repr

/-- The register checks, in the order 0x11, 0x12, 0x10 of R78; then the waits of R42, R43 and R39. An instruction with no
active lane checks only the allocation (R25). `extra` is a read of single mask words (R96). A reissued instruction does not
wait for the registers it has itself left empty (R196). -/
def regCheck (t : Team) (u : Uses) (extra : List (RegRef × Bool × Nat) := []) : RegCheck :=
  let ws := t.swept
  let own := if t.ctl.resume.isSome then u.writes else []
  let rd := (u.reads.filter (fun r => !own.contains r.1)).map (fun r => (r.1.state t ws, r.2)) ++ extra.map (fun r => (r.1.state t [r.2.2], r.2.1))
  if u.all.any (RegRef.beyond t) then .trap 0x11
  else if ws.isEmpty then .go
  else if rd.any (fun r => r.1 == .poisoned) then .trap 0x12
  else if rd.any (fun r => r.2 && r.1 == .empty) then .trap 0x10
  else if rd.any (fun r => r.1 == .empty) || u.writes.any (fun r => !own.contains r && r.anyEmpty t ws) then
    .wait
  else .go

/-- Marks a destination empty where a long-latency producer sweeps it (R40). -/
def Team.markEmpty (t : Team) (d : Dst) : Team :=
  match d with
  | .none => t
  | .v b n => { t with regs := (List.range n).foldl (fun r j => r.setVflags (b + j) .empty t.swept) t.regs }
  | .s n => { t with regs := t.regs.setSflg n .empty }
  | .h n => { t with regs := t.regs.setHandle n { t.regs.handle n with state := .pending } }

/-! ### Float flags -/

/-- The causes of one lane's float operation (R152). -/
structure FFlags where
  iv : Bool := false
  dz : Bool := false
  of : Bool := false
  uf : Bool := false
  nx : Bool := false
  deriving DecidableEq, Repr

def FFlags.or (a b : FFlags) : FFlags :=
  { iv := a.iv || b.iv, dz := a.dz || b.dz, of := a.of || b.of, uf := a.uf || b.uf, nx := a.nx || b.nx }

/-- The flags as FSTAT's bits [4:0] (R374). -/
def FFlags.bits (f : FFlags) : BitVec 5 :=
  BitVec.ofNat 5 ((if f.iv then 1 else 0) + (if f.dz then 2 else 0) + (if f.of then 4 else 0) + (if f.uf then 8 else 0) +
    (if f.nx then 16 else 0))

/-- The lanes in which a cause arose. -/
def causeMask (p : FFlags → Bool) (l : List (Nat × FFlags)) : Mask :=
  Mask.ofLanes ((l.filter (fun e => p e.2)).map Prod.fst)

/-- The float trap of R153: the first enabled cause in the order IV, DZ, OF, UF, with its lanes. -/
def floatTrap (en : BitVec 4) (l : List (Nat × FFlags)) : Option Trap :=
  if en.getLsbD 0 && l.any (fun e => e.2.iv) then some { code := 0x40, mask := some (causeMask (·.iv) l) }
  else if en.getLsbD 1 && l.any (fun e => e.2.dz) then some { code := 0x41, mask := some (causeMask (·.dz) l) }
  else if en.getLsbD 2 && l.any (fun e => e.2.of) then some { code := 0x42, mask := some (causeMask (·.of) l) }
  else if en.getLsbD 3 && l.any (fun e => e.2.uf) then some { code := 0x43, mask := some (causeMask (·.uf) l) }
  else none

/-- Sets the sticky flags of the lanes' causes (R152). -/
def Fp.raise (f : Fp) (l : List (Nat × FFlags)) : Fp :=
  { f with flags := f.flags ||| (l.foldl (fun (a : FFlags) e => a.or e.2) {}).bits }

end Sys2Proof.Machine
end

