-- ==== Sys2Proof/Machine/Operands.lean ====
section
/-! DEFINITION. Reading operands: the special sources (R56), lane operands of 32 and 64 bits (R58, R81, R85), uniform
operands (R58, R93), and the sources of the matrix stream (R56, R221); writing lane and uniform results (R36, R45, R58). -/

namespace Sys2Proof.Machine

/-- The value of a special source in a lane of a team (R56). -/
def State.special (s : State) (t : Team) (lane : Nat) : Opnd → Nat
  | .lane => lane
  | .lit x => x.toNat
  | .team => t.index
  | .block => ((s.block? t.block).map Block.index).getD 0
  | .core => t.core
  | .quarter => t.quarter
  | .cluster => t.cluster
  | .die => dieOf t.quarter
  | .nlanes => t.lanes
  | .nteams => ((s.block? t.block).map Block.nteams).getD 0
  | .blane => t.index * t.lanes + lane
  | .depth => ((s.grid? (s.gridIdOf t)).map Grid.depth).getD 0
  | _ => 0

/-- A lane operand of 32 bits (R81). -/
def State.word (s : State) (t : Team) (lane : Nat) (o : Opnd) : Word :=
  match o with
  | .v n => t.regs.word lane n
  | .l n => t.regs.word lane (256 + n)
  | .o n => t.regs.word lane (272 + n)
  | .s n => (t.regs.s n).setWidth 32
  | q => BitVec.ofNat 32 (s.special t lane q)

/-- A lane operand of 64 bits: a pair, an s register, or a special source zero-extended (R38, R85). -/
def State.dword (s : State) (t : Team) (lane : Nat) (o : Opnd) : DWord :=
  match o with
  | .v n => (t.regs.word lane (n + 1)) ++ (t.regs.word lane n)
  | .s n => t.regs.s n
  | q => BitVec.ofNat 64 (s.special t lane q)

/-- A uniform operand (R58, R93). -/
def State.uni (s : State) (t : Team) (o : Opnd) : DWord :=
  match o with
  | .s n => t.regs.s n
  | q => BitVec.ofNat 64 (s.special t 0 q)

/-- The stream core of a block: the core of its first quarter (R232). -/
def Block.core (b : Block) : Nat := coreOf (b.quarters.headD 0)

/-- A source of the matrix stream (R56, R221). -/
def State.streamSrc (s : State) (b : Block) (o : Opnd) : DWord :=
  match o with
  | .lit x => x
  | .block => BitVec.ofNat 64 b.index
  | .core => BitVec.ofNat 64 b.core
  | .quarter => BitVec.ofNat 64 (b.quarters.headD 0)
  | .cluster => BitVec.ofNat 64 (clusterOf (b.quarters.headD 0))
  | .die => BitVec.ofNat 64 (dieOf (b.quarters.headD 0))
  | .nlanes => BitVec.ofNat 64 b.lanes
  | .nteams => BitVec.ofNat 64 b.nteams
  | .depth => BitVec.ofNat 64 (((s.grid? b.grid).map Grid.depth).getD 0)
  | _ => 0

/-! ### Results -/

/-- Writes a 32-bit lane result to its destination, if it is a register (R58); the register takes a tag or none (R313). -/
def Regs.putLane (r : Regs) (lane : Nat) (d : Opnd) (x : Word) (tag : Option Tag) : Regs :=
  match d with
  | .v n => (r.setWord lane n x).setTag lane n tag
  | .o n => (r.setWord lane (272 + n) x).setTag lane (272 + n) tag
  | _ => r

/-- A lane instruction's results: every lane's destination and its push onto the l file (R36). -/
def Regs.putResults (r : Regs) (d : Opnd) : List (Nat × Word × Option Tag) → Regs
  | [] => r
  | (i, x, tag) :: rest => Regs.putResults ((r.putLane i d x tag).push i x tag) d rest

/-- A 64-bit lane result: the pair, and no push (R36, R85). -/
def Regs.putPair (r : Regs) (lane : Nat) (d : Opnd) (x : DWord) : Regs :=
  match d with
  | .v n => (((r.setWord lane n (x.setWidth 32)).setWord lane (n + 1) ((x >>> 32).setWidth 32)).setTag lane n none).setTag
      lane (n + 1) none
  | _ => r

def Regs.putPairs (r : Regs) (d : Opnd) : List (Nat × DWord) → Regs
  | [] => r
  | (i, x) :: rest => Regs.putPairs (r.putPair i d x) d rest

/-- Marks a lane destination full, and free of poison, in the words an instruction wrote (R45). -/
def Regs.fillLane (r : Regs) (d : Opnd) (count : Nat) (ws : List Nat) : Regs :=
  match d with
  | .v n => (List.range count).foldl (fun r j => r.setVflags (n + j) .full ws) r
  | _ => r

/-- Writes a uniform result: the register is full and free of poison (R45, R93). -/
def Regs.putUni (r : Regs) (d : Opnd) (x : DWord) : Regs :=
  match d with
  | .s n => (r.setS n x).setSflg n .full
  | _ => r

/-- A team's lane results: values and pushes in the active lanes, and the words it swept full. -/
def Team.laneResults (t : Team) (d : Opnd) (rs : List (Nat × Word × Option Tag)) : Team :=
  { t with regs := (t.regs.putResults d rs).fillLane d 1 t.swept }

def Team.pairResults (t : Team) (d : Opnd) (rs : List (Nat × DWord)) : Team :=
  { t with regs := (t.regs.putPairs d rs).fillLane d 2 t.swept }

def Team.uniResult (t : Team) (d : Opnd) (x : DWord) : Team := { t with regs := t.regs.putUni d x }

/-! ### Tags (R313) -/

/-- The tag of a lane operand. -/
def Team.tagOf (t : Team) (lane : Nat) (o : Opnd) : Option Tag :=
  match laneNum o with
  | some n => t.regs.tagOf lane n
  | none => none

def Tag.input : Tag → Fin 4
  | .val k _ => k
  | .cmp k .. => k

/-- Pins an input of a lane's region. -/
def Region.pin (r : Region) (k : Nat) : Region :=
  { r with inputs := r.inputs.modify k (fun i => { i with pinned := true }) }

/-- Pins the inputs that a lane's operands carry. -/
def Team.pinLane (t : Team) (lane : Nat) (os : List Opnd) : Team :=
  os.foldl (fun t o =>
    match t.tagOf lane o, t.regionOf lane with
    | some g, some r => t.setRegion lane (some (r.pin g.input))
    | _, _ => t) t

def Team.pinLanes (t : Team) (os : List Opnd) : List Nat → Team
  | [] => t
  | i :: r => Team.pinLanes (t.pinLane i os) os r

/-- The lane operands an instruction's source slots name; a pair names both its registers. -/
def slotOpnds (sp : Spec) : Slot → List Opnd
  | .op (.v n) _ => match sp with
    | .cls c => (List.range (clsWidth c)).map (fun j => Opnd.v (Fin.ofNat 256 (n + j)))
    | _ => []
  | .op q _ => match sp with
    | .cls _ => [q]
    | _ => []
  | _ => []

/-- The lane operands whose tagged registers an instruction pins (R313): none for the instructions that keep tags, for those
that pin only what they read of another lane, and for the stores of a region. -/
def pinsOf (i : Instr) : List Opnd :=
  match i with
  | .mov _ | .iadd _ | .isub _ | .icmp .. | .brc _ | .brcF _ | .arst _ | .arstIx .. | .shfl _ | .shflx _ | .bcast _
  | .vtos _ => []
  | .pblk _ _ p _ => [.v (p.castLE (by decide))]
  | _ =>
    match i.enc? with
    | none => []
    | some (maj, min, _, f) =>
      match row maj min f.m f.d.k.toNat with
      | none => []
      | some rw =>
        let os := slotOpnds rw.sig.a f.a ++ slotOpnds rw.sig.b f.b ++ slotOpnds rw.sig.c f.c
        match i with
        | .fpack .. => os ++ slotOpnds rw.sig.d f.d
        | _ => os

/-- The one mask word of A that vtos checks: the word of lane j, when B is readable and j is below L (R96). -/
def State.vtosWord (s : State) (t : Team) (i : Instr) : List (RegRef × Bool × Nat) :=
  match i with
  | .vtos f =>
    match f.a.op with
    | .v n =>
      let j := (s.uni t f.b.op).toNat % 2 ^ 32
      let ready := match f.b.op with
        | .s b => t.regs.sflg b == .full
        | _ => true
      if ready && decide (j < t.lanes) then [(.v n, f.a.t, j / 32)] else []
    | _ => []
  | _ => []

end Sys2Proof.Machine
end

