-- ==== Sys2Proof/Machine/Issue.lean ====
section
/-! DEFINITION. Issuing an instruction: the checks every instruction meets before its own effect, in the order of R78, the
waits, and the advance of the pc and the coverage behind it. -/

namespace Sys2Proof.Machine

/-- The outcomes of `exec`. -/
abbrev Out := Host.Outcome State Fault Refusal

/-- What an instruction's own effect comes to. -/
inductive Effect where
  /-- it is complete, and its team goes on at the next instruction -/
  | done (s : State)
  /-- it is complete and has itself set its team's pc and mask -/
  | jump (s : State)
  /-- it raises a precise trap and has no effect -/
  | trap (t : Trap)
  /-- its team is not ready for it yet -/
  | wait

/-- The agent is not ready: the issue slot is given back, and nothing else changes. (DEDUCED, log 10) -/
def State.notReady (s : State) : Out := .next { s with cur := .none }

/-- What the checks before an instruction's own effect say. -/
inductive Gate where
  | go | wait | trap (code : Byte)
  deriving DecidableEq, Repr

/-- A record of the team waits for room, so that it issues nothing further (R370, kind 1). -/
def State.heldByRecord (s : State) (k : Nat) : Bool :=
  s.arising.any (fun r => r.party == .team k)

/-- The team may issue at all: it runs, its block is placed, a lane of its path is left, and no earlier instruction or record
holds it. -/
def State.mayIssue (s : State) (k : Nat) (t : Team) : Bool :=
  t.st == .running && t.ctl.mask != 0 && t.hold == .none && t.arend.isNone && t.run.isNone && !s.heldByRecord k &&
    ((s.block? t.block).map (fun b => b.st == .placed)).getD false

/-- Context, role and coverage (R73, R74, R66), in the order of R78. -/
def placeTrap (t : Team) (p : Standing) : Option Byte :=
  if !p.team then some 0x07
  else if t.role == .copy && !p.copyRole then some 0x08
  else if t.ctl.cover.isSome && !p.cover then some 0x06
  else none

/-- The checks of a decoded instruction of a team. -/
def State.gate (s : State) (k : Nat) (t : Team) (i : Instr) : Gate :=
  if !s.mayIssue k t then .wait
  else match placeTrap t i.standing with
    | some c => .trap c
    | none =>
      match regCheck t (usesOf i) (s.vtosWord t i) with
      | .go => .go
      | .wait => .wait
      | .trap c => .trap c

/-! ### Parked entries whose trap is raised anew (R112, R376) -/

/-- The mask of the parked elements. -/
def Req.parkedMask (r : Req) : Mask := Mask.ofLanes ((r.elems.filter (fun e => e.parkedCode.isSome)).map Elem.lane)

/-- Raises the trap of a formed entry (R112). -/
def State.entryTrap (s : State) (r : Req) (n : Nat) : State :=
  match r.elems.find? (fun e => e.parkedCode.isSome) with
  | none => s
  | some e =>
    s.takeTrap r.team 1 { code := e.parkedCode.getD 0, addr := e.addr, aux := BitVec.ofNat 64 (8 + n)
                          mask := some r.parkedMask, pc := some r.pc }

/-- A plain rett has left an entry of the team parked, and its trap has not been raised anew. -/
def State.owesTraps (s : State) (k : Nat) : Bool := s.reqs.any (fun r => r.2.team == k && r.2.renew && r.2.entry.isSome)

/-- Raises anew the traps of the entries that a plain rett has left parked (R376). -/
def State.renewTraps (s : State) (k : Nat) : List Nat → State
  | [] => s
  | n :: rest =>
    let s1 := match s.reqs.get? n with
      | some r =>
        match r.entry with
        | some e => if r.team = k && r.renew then
            State.entryTrap { s with reqs := s.reqs.put n { r with renew := false } } r e else s
        | none => s
      | none => s
    State.renewTraps s1 k rest

/-- The v registers an instruction reads or writes, but does not leave empty itself, each in the mask words it looks at. -/
def State.waitRegs (s : State) (t : Team) (i : Instr) : List (Nat × List Nat) :=
  let u := usesOf i
  ((u.reads.map Prod.fst ++ u.writes).map (fun r => (r, t.swept)) ++ (s.vtosWord t i).map (fun r => (r.1, [r.2.2]))).filterMap
    (fun e => match e.1 with
      | .v n => some (n, e.2)
      | _ => none)

/-- The requests whose entries a plain rett has left parked, and on whose destinations an instruction waits (R376). -/
def State.waitedEntries (s : State) (k : Nat) (t : Team) (i : Instr) : List Nat :=
  if !s.owesTraps k || !s.mayIssue k t then []
  else s.reqs.keys (fun r => r.team == k && r.renew && r.entry.isSome && (match r.dst with
    | .v base count => (s.waitRegs t i).any (fun e => decide (base ≤ e.1) && decide (e.1 < base + count) &&
        e.2.any (fun w => r.words.contains w && t.regs.vflag e.1 w == .empty))
    | _ => false))

/-- An instruction that waits: the traps of the entries it waits on are raised anew, or its team is not ready. -/
def State.await (s : State) (k : Nat) (t : Team) (i : Instr) : Out :=
  match s.waitedEntries k t i with
  | [] => s.notReady
  | es => .next (s.renewTraps k es)

/-- A team past an instruction of `n` bytes. -/
def Team.advance (t : Team) (n : Nat) : Team := { t with ctl := t.ctl.advance n }

def State.advance (s : State) (k n : Nat) : State := s.modTeam k (fun t => t.advance n)

/-- The team with the inputs pinned that the instruction's tagged operands carry (R313). -/
def Team.pinned (t : Team) (i : Instr) : Team :=
  if t.region.isEmpty then t else t.pinLanes (pinsOf i) t.active

/-- Settles an instruction's effect. -/
def State.settle (s : State) (k : Nat) (i : Instr) : Effect → Out
  | .done s' => .next (s'.advance k i.size)
  | .jump s' => .next s'
  | .trap tr => .next (s.takeTrap k 0 tr)
  | .wait => s.notReady

/-- Issues an instruction of a team. With no active lane it has no effect, and only the team moves on (R25).
(DEDUCED, log 110) -/
def State.issueTeam (s : State) (k : Nat) (i : Instr) (body : Nat → Team → State → Effect) : Out :=
  match s.team? k with
  | none => s.notReady
  | some t =>
    match s.gate k t i with
    | .wait => s.await k t i
    | .trap c => .next (s.takeTrap k 0 { code := c })
    | .go =>
      if t.amask = 0 then .next (s.advance k i.size)
      else
        let t' := t.pinned i
        s.settle k i (body k t' (s.setTeam k t'))

/-- A step of the block has not started: the stream's next instruction waits for it (R239). -/
def State.stepWaits (s : State) (b : Nat) : Bool := s.msteps.any (fun e => e.2.block == b && !e.2.running)

/-- The stream may issue: it runs, and its block is placed. -/
def streamMayIssue (b : Block) (m : Stream) : Bool := !m.halted && !m.ended && b.st == .placed

def State.setStream (s : State) (b : Nat) (m : Stream) : State :=
  s.modBlock b (fun x => { x with stream := some m })

/-- A stream past an instruction of `n` bytes. -/
def State.advanceStream (s : State) (b n : Nat) : State :=
  s.modBlock b (fun x => { x with stream := x.stream.map (fun m => { m with pc := m.pc + BitVec.ofNat 64 n }) })

/-- Issues an instruction of a block's matrix stream (R233). -/
def State.issueStream (s : State) (b : Nat) (i : Instr) (body : Nat → Block → Stream → State → Effect) : Out :=
  match s.block? b with
  | none => s.notReady
  | some x =>
    match x.stream with
    | none => s.notReady
    | some m =>
      if !streamMayIssue x m || s.stepWaits b then s.notReady
      else if !i.standing.stream then .next (s.takeStreamTrap b i.size { code := 0x07 })
      else
        match body b x m s with
        | .done s' => .next (s'.advanceStream b i.size)
        | .jump s' => .next s'
        | .trap tr => .next (s.takeStreamTrap b i.size tr)
        | .wait => s.notReady

/-- An instruction that a team alone issues. In the stream it raises the context trap (R73). -/
def State.issue (s : State) (i : Instr) (body : Nat → Team → State → Effect) : Out :=
  match s.cur with
  | .team k => s.issueTeam k i body
  | .stream b => s.issueStream b i (fun _ _ _ _ => .trap { code := 0x07 })
  | .none => s.notReady

/-- An instruction that the stream alone issues. -/
def State.issueS (s : State) (i : Instr) (body : Nat → Block → Stream → State → Effect) : Out :=
  match s.cur with
  | .team k => s.issueTeam k i (fun _ _ _ => .trap { code := 0x07 })
  | .stream b => s.issueStream b i body
  | .none => s.notReady

/-- An instruction both issue: nop and mrd (R73). -/
def State.issueBoth (s : State) (i : Instr) (team : Nat → Team → State → Effect)
    (stream : Nat → Block → Stream → State → Effect) : Out :=
  match s.cur with
  | .team k => s.issueTeam k i team
  | .stream b => s.issueStream b i stream
  | .none => s.notReady

/-- A lane instruction: one 32-bit result in each active lane, pushed onto the l file (R36, R81). -/
def laneBody (d : Opnd) (f : Nat → Word) (k : Nat) (t : Team) (s : State) : Effect :=
  .done (s.setTeam k (t.laneResults d (t.active.map (fun i => (i, f i, none)))))

/-- A uniform instruction: one 64-bit result (R93). -/
def uniBody (d : Opnd) (f : DWord) (k : Nat) (t : Team) (s : State) : Effect :=
  .done (s.setTeam k (t.uniResult d f))

end Sys2Proof.Machine
end

