-- ==== Sys2Proof/Machine/GlobMem.lean ====
section
/-! DEFINITION. Global memory: the page-table walk and the ownership check (R361 to R363), the checks of an element and of an
engine access (R136, R254), reads and writes with their poison (R140), and the ranges no writer may touch (R53, R362). -/

namespace Sys2Proof.Machine

/-- Why a global access is refused (R361, R362). -/
inductive GFault where
  | translation | protection | owner
  deriving DecidableEq, Repr

/-- The element code of a refusal (R136). -/
def GFault.code : GFault → Byte
  | .translation => 0x31 | .protection => 0x32 | .owner => 0x33

/-- The status of an engine access refused (R254). -/
def GFault.status : GFault → Byte
  | .translation => 0x02 | .protection => 0x03 | .owner => 0x04

/-- What an access wants of the page: to fetch instructions, to read, or to write, by a handler team or another party. -/
inductive Want where
  | fetch | read | write (handler : Bool)
  deriving DecidableEq, Repr

/-- A physical address names device DRAM or host memory (R361). -/
def paOk (pa : Nat) : Bool := decide (pa < Config.dramBytes) || decide (Config.hostBase ≤ pa ∧ pa < 2 ^ 52)

/-- A dword at a physical address. -/
def State.physDword (s : State) (pa : Nat) : DWord :=
  if Config.hostBase ≤ pa then Memory.dword s.host pa else Memory.dword s.dram pa

/-- A page the walk has found, with every page it used. -/
structure Leaf where
  /-- the page's size and its physical base -/
  size : Nat
  pa : Nat
  x : Bool
  w : Bool
  pages : List Nat
  deriving DecidableEq, Repr

/-- A table entry's reserved bits are clear and it is valid (R361); P64 exists at level 0 only. -/
def pteOk (e : DWord) (level : Nat) : Bool :=
  e.getLsbD 0 && field e 52 12 == 0 && field e 5 7 == 0 && (level == 0 || !e.getLsbD 4)

/-- ADDR of an entry. -/
def pteAddr (e : DWord) : Nat := field e 12 40 * 4096

/-- The 16 entries of an aligned level 0 group agree: P64 is set alike, and a 64 KiB page is named alike (R361). -/
def groupAgrees (s : State) (table idx : Nat) (e : DWord) : Bool :=
  (List.range 16).all (fun j =>
    let o := s.physDword (table + 8 * (idx / 16 * 16 + j))
    if e.getLsbD 4 then o == e else !o.getLsbD 4)

/-- The page size a leaf of a level maps. -/
def leafSize (level : Nat) (e : DWord) : Nat :=
  if level = 2 then 2 ^ 30 else if level = 1 then 2 ^ 21 else if e.getLsbD 4 then 2 ^ 16 else 2 ^ 12

/-- The walk from a table of a level down (R361). -/
def State.walkFrom (s : State) (va : Nat) (table : Nat) (pages : List Nat) : Nat → Option Leaf
  | 0 =>
    let idx := nfield va 12 9
    let a := table + 8 * idx
    let e := s.physDword a
    if !paOk a || !pteOk e 0 || !e.getLsbD 3 || !groupAgrees s table idx e then none
    else
      let sz := leafSize 0 e
      if pteAddr e % sz ≠ 0 || !paOk (pteAddr e) then none
      else some { size := sz, pa := pteAddr e, x := e.getLsbD 2, w := e.getLsbD 1, pages := a / 4096 :: pages }
  | level + 1 =>
    let idx := nfield va (12 + 9 * (level + 1)) (if level + 1 = 3 then 13 else 9)
    let a := table + 8 * idx
    let e := s.physDword a
    if !paOk a || !pteOk e (level + 1) then none
    else if e.getLsbD 3 then
      let sz := leafSize (level + 1) e
      if level + 1 = 3 || pteAddr e % sz ≠ 0 || !paOk (pteAddr e) then none
      else some { size := sz, pa := pteAddr e, x := e.getLsbD 2, w := e.getLsbD 1, pages := a / 4096 :: pages }
    else State.walkFrom s va (pteAddr e) (a / 4096 :: pages) level

/-- The walk of a tenant's tables for a 52-bit virtual address (R361). -/
def State.walk (s : State) (tenant va : Nat) : Option Leaf :=
  match s.tenant? tenant with
  | none => none
  | some t => s.walkFrom va t.ptroot.toNat [] 3

/-- The ownership entry of a page names the tenant (R362). -/
def State.owns (s : State) (tenant page : Nat) : Bool :=
  let e := Sparse.get 0 s.rot page
  e.getLsbD 15 && field e 0 10 == tenant

/-- The page holds page tables (R362). -/
def State.isTable (s : State) (page : Nat) : Bool := (Sparse.get 0 s.rot page).getLsbD 14

/-- The cached translation of an address in a cluster. -/
def State.cached (s : State) (cluster tenant va : Nat) : Option Tlb :=
  s.tlb.find? (fun e => e.cluster == cluster && e.tenant == tenant && decide (e.va ≤ va ∧ va < e.va + e.size))

/-- The page an access uses: a cached translation, if the part uses one, or the tables (R363). (DEDUCED, log 103) -/
def State.leafFor (s : State) (cluster tenant va : Nat) : Option Leaf :=
  match s.cached cluster tenant va with
  | some e =>
    if Config.useCached s.draws then some { size := e.size, pa := e.pa, x := e.x, w := e.w, pages := e.pages }
    else s.walk tenant va
  | none => s.walk tenant va

/-- One of n bytes from an address lies in the code range of a live grid of the tenant (R53). -/
def State.inCode (s : State) (tenant va n : Nat) : Bool :=
  s.grids.any (fun e => e.2.tenant == tenant && !e.2.ended && decide (e.2.launch.code.toNat < va + n) &&
    decide (va < e.2.launch.code.toNat + e.2.launch.codeLen))

/-- Translates a 52-bit virtual address and checks the access of n bytes: mapping, then permission, then ownership, in the order of
R136. -/
def State.translate (s : State) (cluster tenant va : Nat) (want : Want) (n : Nat := 1) : Except GFault Nat :=
  match s.leafFor cluster tenant va with
  | none => .error .translation
  | some l =>
    let pa := l.pa + va % l.size
    let perm := match want with
      | .fetch => l.x
      | .read => true
      | .write h => l.w && !s.inCode tenant va n && (h || !s.isTable (pa / 4096))
    if !perm then .error .protection
    else if !(l.pages ++ [pa / 4096]).all (s.owns tenant) then .error .owner
    else .ok pa

/-- Starts a page-table walk for an address no cluster entry serves (R363). -/
def State.noteWalk (s : State) (cluster tenant va : Nat) : State :=
  match s.cached cluster tenant va, s.walk tenant va with
  | none, some l =>
    if s.walks.any (fun e => e.2.cluster == cluster && e.2.tenant == tenant && e.2.va / l.size == va / l.size) then s
    else { s with walks := s.walks.put s.nextId ⟨cluster, tenant, va, l.pages⟩, nextId := s.nextId + 1 }
  | _, _ => s

/-! ### Physical bytes -/

def State.physByte (s : State) (pa : Nat) : Byte :=
  if Config.hostBase ≤ pa then Memory.byte s.host pa else Memory.byte s.dram pa

def State.setPhysByte (s : State) (pa : Nat) (b : Byte) : State :=
  if Config.hostBase ≤ pa then { s with host := Memory.setByte s.host pa b }
  else { s with dram := Memory.setByte s.dram pa b }

/-- Reads `n` bytes of physical memory, little-endian. -/
def State.physRead (s : State) (pa : Nat) (n : Nat) : Nat :=
  if Config.hostBase ≤ pa then Memory.read s.host pa n else Memory.read s.dram pa n

/-- Writes `n` bytes of physical memory. -/
def State.physWrite (s : State) (pa : Nat) (n : Nat) (v : Nat) : State :=
  if Config.hostBase ≤ pa then { s with host := Memory.write s.host pa n v }
  else { s with dram := Memory.write s.dram pa n v }

/-- The word of physical memory is poisoned. (DEDUCED, log 43) -/
def State.physPoison (s : State) (pa : Nat) : Bool :=
  if Config.hostBase ≤ pa then Sparse.get false s.hostPoison (pa / 4) else Sparse.get false s.dramPoison (pa / 4)

/-- A word of the `n` bytes from `pa` is poisoned. -/
def State.physPoisoned (s : State) (pa n : Nat) : Bool :=
  (List.range (n / 4 + 1)).any (fun j => decide (4 * j < n ∨ j = 0) && s.physPoison (pa + 4 * j))

def State.setPhysPoison (s : State) (pa : Nat) (p : Bool) : State :=
  if Config.hostBase ≤ pa then { s with hostPoison := Sparse.set false s.hostPoison (pa / 4) p }
  else { s with dramPoison := Sparse.set false s.dramPoison (pa / 4) p }

/-- Poisons the words of the level-two line of an address (R255). -/
def State.poisonLine (s : State) (pa : Nat) : State :=
  (List.range 16).foldl (fun s j => s.setPhysPoison (pa / 64 * 64 + 4 * j) true) s

/-! ### Elements (R136) -/

/-- The checks of a global element, giving its physical address or its code. -/
def State.gcheck (s : State) (cluster tenant : Nat) (g : DWord) (size : Nat) (want : Want) : Except Byte Nat :=
  if field g 52 12 ≠ 0 then .error 0x30
  else if g.toNat % size ≠ 0 then .error 0x34
  else match s.translate cluster tenant g.toNat want size with
    | .ok pa => .ok pa
    | .error e => .error e.code

/-- An engine access of one byte (R254): the physical address, or the status. -/
def State.engineAddr (s : State) (cluster tenant : Nat) (va : Nat) (want : Want) : Except Byte Nat :=
  if 2 ^ 52 ≤ va then .error 0x02
  else match s.translate cluster tenant va want with
    | .ok pa => .ok pa
    | .error e => .error e.status

/-- The physical addresses of a run of bytes, or the first refusal. -/
def State.engineRun (s : State) (cluster tenant : Nat) (va : Nat) (want : Want) : Nat → Except Byte (List Nat)
  | 0 => .ok []
  | n + 1 =>
    match s.engineAddr cluster tenant va want with
    | .error e => .error e
    | .ok pa =>
      match State.engineRun s cluster tenant (va + 1) want n with
      | .error e => .error e
      | .ok r => .ok (pa :: r)

/-- Reads a run of bytes as one engine read: the bytes and whether a word was poisoned, or the status. -/
def State.engineRead (s : State) (cluster tenant va n : Nat) : Except Byte (List Byte × Bool) :=
  match s.engineRun cluster tenant va .read n with
  | .error e => .error e
  | .ok pas => .ok (pas.map s.physByte, pas.any s.physPoison)

/-- Stores bytes at physical addresses. -/
def State.physStore (s : State) : List (Nat × Byte) → State
  | [] => s
  | (pa, b) :: r => State.physStore (s.setPhysByte pa b) r

/-- The whole words among a list of byte addresses: those all four of whose bytes are listed. -/
def wholeWords (pas : List Nat) : List Nat :=
  (pas.filter (fun a => a % 4 == 0 && pas.contains (a + 1) && pas.contains (a + 2) && pas.contains (a + 3)))

/-- Sets or clears poison after an engine write: a poisoned write poisons its level-two lines; another clears the words it
writes whole (R140, R255). -/
def State.enginePoison (s : State) (pas : List Nat) (poison : Bool) : State :=
  if poison then ((pas.map (fun a => a / 64 * 64)).eraseDups).foldl State.poisonLine s
  else (wholeWords pas).foldl (fun s a => s.setPhysPoison a false) s

/-- An engine write of a run of bytes, poisoned or not; or the status. -/
def State.engineWrite (s : State) (cluster tenant va : Nat) (bs : List Byte) (poison handler : Bool) : Except Byte State :=
  match s.engineRun cluster tenant va (.write handler) bs.length with
  | .error e => .error e
  | .ok pas => .ok ((s.physStore (pas.zip bs)).enginePoison pas poison)

/-! ### Fetching instructions (R52, R77, R78) -/

/-- One word of an instruction: a misaligned address is trap 0x0A, a refused translation 0x09, an uncorrectable error 0x0B.
(DEDUCED, log 109) -/
def State.fetchWord (s : State) (cluster tenant : Nat) (va : DWord) : Except Byte Word :=
  if field va 0 2 ≠ 0 then .error 0x0A
  else if field va 52 12 ≠ 0 then .error 0x09
  else match s.translate cluster tenant va.toNat .fetch with
    | .error _ => .error 0x09
    | .ok pa => if s.physPoison pa then .error 0x0B else .ok (BitVec.ofNat 32 (s.physRead pa 4))

/-- The words of an instruction after its first, in address order. -/
def State.fetchWords (s : State) (cluster tenant : Nat) (va : DWord) : Nat → Except Byte (List Word)
  | 0 => .ok []
  | n + 1 =>
    match s.fetchWord cluster tenant va with
    | .error e => .error e
    | .ok w =>
      match State.fetchWords s cluster tenant (va + 4) n with
      | .error e => .error e
      | .ok r => .ok (w :: r)

/-- Fetches and decodes the instruction at an address. -/
def State.fetch (s : State) (cluster tenant : Nat) (pc : DWord) : Decoded :=
  match s.fetchWord cluster tenant pc with
  | .error e => .trap e Standing.anywhere
  | .ok w0 =>
    match s.fetchWords cluster tenant (pc + 4) (wordCount w0 - 1) with
    | .error e => .trap e Standing.anywhere
    | .ok r => decodeWords (w0 :: r)

end Sys2Proof.Machine
end

