-- ==== Sys2Proof/Machine/Fabric.lean ====
section
/-! DEFINITION. Level-two lines and their owners (R137), and packets on the die's fabric: injection and routes, the arbitration
of crosspoints and memory channels, atomic slots and bandwidth floors (R139, R354, R355, R366, R367). -/

namespace Sys2Proof.Machine

/-! ### Ownership of lines (R137) -/

/-- The level-two line of a physical address. -/
def lineOf (pa : Nat) : Nat := pa / 64

/-- A line's home die. (DESIGN CHOICE, log 42) -/
def homeDie (line : Nat) : Nat := Config.homeDie line % Config.dies

/-- The die that owns a line. -/
def Line.owner (l : Line) (line : Nat) : Nat := l.near.getD (homeDie line)

/-- Ownership at a die's near slice, which on the home die is the home slice. -/
def nearOf (line die : Nat) : Option Nat := if die = homeDie line then none else some die

/-- Where a request of a die finds the line: the contention counter moves, and ownership with it (R137). -/
def Line.request (l : Line) (line die : Nat) (place : Place) : Line :=
  match place with
  | .home => { l with near := none }
  | .near => { l with near := nearOf line die }
  | .predictor =>
    let c := if die = l.owner line then l.counter - 1 else min 3 (l.counter + 1)
    { near := if c ≤ 1 then nearOf line die else none, counter := c }

/-- The tracked state after a request. -/
def State.touchLine (s : State) (pa die : Nat) (place : Place) : State :=
  let n := lineOf pa
  { s with lines := s.lines.put n (((s.lines.get? n).getD {}).request n die place) }

/-! ### Routes (R2, R355) -/

/-- The die of a cluster. -/
def dieOfCluster (c : Nat) : Nat := c / 8

/-- The crosspoint of a die's crossbar at one of its outputs: outputs 0 to 3 are the bundles to the other dies, the others its
slices. (DEDUCED, log 99) -/
def crosspoint (die output : Nat) : Nat := 64 * die + output

/-- The output of a line's slice. -/
def sliceOutput (line : Nat) : Nat := 4 + Config.slicePort line % 36

/-- The input of a crossbar that a cluster of its die drives. -/
def clusterInput (cluster : Nat) : Nat := 4 + cluster % 8

/-- Two dies of the square are diagonal. -/
def diagonal (a b : Nat) : Bool := a + b == 3

/-- The regional occupancy count of a die: the flits that wait at its crosspoints. (DEDUCED, log 99) -/
def State.occupancy (s : State) (die : Nat) : Nat :=
  ((s.fabric.filter (fun p => (p.2.route.head?.map (fun x => x.1 / 64)) == some die)).map (fun p => p.2.left)).sum

/-- The neighbour that a packet between diagonal dies takes: the less occupied one, or the lower-numbered on a tie. -/
def State.viaDie (s : State) (a b : Nat) : Nat :=
  match (List.range 4).filter (fun d => d != a && d != b) with
  | [x, y] => if s.occupancy y < s.occupancy x then y else x
  | _ => b

/-- The crosspoints from an input of die a's crossbar to an output of another's, each with the packet's input there. -/
def State.routeFrom (s : State) (a input die output : Nat) : List (Nat × Nat) :=
  let last (i : Nat) : Nat × Nat := (crosspoint die output, i)
  if a = die then [last input]
  else if diagonal a die then
    let v := s.viaDie a die
    [(crosspoint a v, input), (crosspoint v die, a), last v]
  else [(crosspoint a die, input), last a]

/-- The crosspoints from a cluster to the slice of a line on a die. -/
def State.route (s : State) (cluster die line : Nat) : List (Nat × Nat) :=
  s.routeFrom (dieOfCluster cluster) (clusterInput cluster) die (sliceOutput line)

/-- The die of a link port, or of the root (R381), its input of the die's crossbar, and its output. -/
def linkDie (n : Nat) : Nat := if n < 16 then n / 4 else 0
def linkInput (n : Nat) : Nat := 12 + n % 4
def linkOutput (n : Nat) : Nat := 4 + Config.linkPort n % 36

/-! ### Injection -/

/-- What the packet carries is still on its way. -/
def State.pktAlive (s : State) (p : Packet) : Bool :=
  match p.owner with
  | .elem n lane => ((s.reqs.get? n).map (fun r => r.elems.any (fun e => e.lane == lane && e.st == .transit))).getD false
  | .piece n pos => ((s.cmds.get? n).map (fun c => c.pending.any (fun q => q.pos == pos))).getD false
  | .save b => ((s.block? b).map (fun x => x.st == .saving)).getD false
  | .restore b => ((s.block? b).map (fun x => x.st == .saved)).getD false
  | .report n => (s.reqs.get? n).isSome
  | .link n => ((s.ports.get? n).map (fun p => !p.flits.isEmpty)).getD false

/-- The packets that carry what is still on its way. -/
def State.packets (s : State) : Table Packet := s.fabric.filter (fun p => s.pktAlive p.2)

/-- The packet of an owner. -/
def State.packetOf (s : State) (o : PktOwner) : Option (Nat × Packet) := s.fabric.find? (fun p => p.2.owner == o)

/-- A cluster's flits that wait at a crosspoint for packets it has not injected whole: what it has spent of its allowance. -/
def State.spent (s : State) (xp cluster : Nat) : Nat :=
  ((s.packets.filter (fun p => p.2.cluster == cluster && !p.2.whole && (p.2.route.head?.map Prod.fst) == some xp)).map
    (fun p => p.2.left)).sum

/-- A cluster may begin a packet on a route: its send allowance at the first crosspoint is not spent (R367); what comes from no
cluster needs none. -/
def State.mayInject (s : State) (cluster : Nat) (route : List (Nat × Nat)) : Bool :=
  decide (Config.clusters ≤ cluster) || (match route.head? with
    | none => true
    | some x => s.spent x.1 cluster == 0 || decide (s.spent x.1 cluster < Config.allowance x.1))

/-- A packet of n flits enters the fabric, on a route fixed at its source. -/
def State.injectOn (s : State) (o : PktOwner) (cls tenant cluster line n : Nat) (route : List (Nat × Nat)) : State :=
  if (s.packetOf o).isSome || !s.mayInject cluster route then s
  else
    let p : Packet :=
      { owner := o, cls := cls, tenant := tenant, cluster := cluster, line := line, route := route, flits := n, left := n }
    { s with fabric := Table.put s.packets s.nextId p, nextId := s.nextId + 1, draws := s.draws + 1 }

/-- A packet of a free number of flits enters the fabric at its cluster. -/
def State.inject (s : State) (o : PktOwner) (cls tenant cluster die line : Nat) : State :=
  s.injectOn o cls tenant cluster line (Config.freeChoice s.draws 4 % 4 + 1) (s.route cluster die line)

/-- Traffic of class 3 between a cluster and device memory, at a free line: a save, a restore, a report of the root (R354). -/
def State.injectTop (s : State) (o : PktOwner) (tenant cluster : Nat) : State :=
  let (line, s1) := s.choose (Config.dramBytes / 64)
  s1.inject o 3 tenant cluster (homeDie line) line

/-! ### Crosspoints (R354) -/

/-- The packets that wait at a crosspoint, oldest first. -/
def State.waitingAt (s : State) (xp : Nat) : Table Packet :=
  s.packets.filter (fun p => (p.2.route.head?.map Prod.fst) == some xp)

/-- The highest class among packets. -/
def topClass (ps : Table Packet) : Nat := ps.foldl (fun m p => max m p.2.cls) 0

/-- The oldest packet of a class below the highest. -/
def lowerPacket (ps : Table Packet) : Option (Nat × Packet) := ps.find? (fun p => decide (p.2.cls < topClass ps))

/-- The input at the first crosspoint of a packet's route. -/
def Packet.input (p : Packet) : Nat := (p.route.head?.map Prod.snd).getD 0

/-- How long ago an input was granted, by the order of grants; one never granted is the longest ago. -/
def Crosspoint.idle (x : Crosspoint) (input : Nat) : Nat := x.granted.idxOf input

/-- The packet that a grant of the highest class goes to: the oldest at the least recently granted input. -/
def Crosspoint.next (x : Crosspoint) (ps : Table Packet) : Option (Nat × Packet) :=
  let top := ps.filter (fun p => p.2.cls == topClass ps)
  top.find? (fun p => top.all (fun q => decide (x.idle q.2.input < x.idle p.2.input) ||
    (x.idle q.2.input == x.idle p.2.input && decide (p.2.input ≤ q.2.input))))

/-- A packet after one of its flits has crossed the first crosspoint of its route. -/
def Packet.cross (p : Packet) : Packet :=
  if 1 < p.left then { p with left := p.left - 1 } else { p with route := p.route.tail, left := p.flits, whole := true }

/-- The arbiter after a grant to an input. -/
def Crosspoint.grant (x : Crosspoint) (input since : Nat) : Crosspoint :=
  { since := since, granted := input :: x.granted.filter (fun i => i != input) }

/-- A crosspoint. -/
def State.xp (s : State) (n : Nat) : Crosspoint := (s.crosspoints.get? n).getD {}

/-- A flit of a packet is granted. -/
def State.grantFlit (s : State) (xp id : Nat) (p : Packet) (since : Nat) : State :=
  { s with
    fabric := s.fabric.put id p.cross
    crosspoints := s.crosspoints.put xp ((s.xp xp).grant p.input since) }

/-- A lower class waits, and the highest has had 63 grants since the last of a lower one. -/
def State.forcedAt (s : State) (xp : Nat) : Bool := decide (63 ≤ (s.xp xp).since) && (lowerPacket (s.waitingAt xp)).isSome

/-- A crosspoint grants a flit of the highest class that waits. -/
def State.grantTop (s : State) (xp : Nat) : State :=
  if s.forcedAt xp then s
  else match (s.xp xp).next (s.waitingAt xp) with
    | none => s
    | some (id, p) => s.grantFlit xp id p ((s.xp xp).since + 1)

/-! ### Channels (R139, R366) -/

/-- The memory channel behind a line's slice. -/
def channelOf (line : Nat) : Nat := Config.channelOf line

/-- A channel. -/
def State.chan (s : State) (n : Nat) : Channel := (s.channels.get? n).getD {}

/-- The atomic slots of a channel that a tenant may hold. -/
def State.slotShare (s : State) (tenant : Nat) : Nat := max 1 (32 * ((s.tenant? tenant).map Tenant.f).getD 0 / 256)

/-- An atomic slot of a channel is free for a tenant: its share, and the 32 there are, are not all held. -/
def State.slotFree (s : State) (ch tenant : Nat) : Bool :=
  let held := s.packets.filter (fun p => p.2.slot && channelOf p.2.line == ch)
  decide ((held.filter (fun p => p.2.tenant == tenant)).length < s.slotShare tenant) && decide (held.length < 32)

/-- An element of a global atomic executes at its line's home slice, and so through the channel. -/
def State.atHome (s : State) (pa die : Nat) (place : Place) : Bool :=
  let n := lineOf pa
  (((s.lines.get? n).getD {}).request n die place).near.isNone

/-- The packet's element is an atomic that needs a slot of its channel. -/
def State.needsSlot (s : State) (p : Packet) : Bool :=
  match p.owner with
  | .elem n lane =>
    match s.reqs.get? n with
    | some r => (match r.kind with
      | .gatom _ _ place => r.elems.any (fun e => e.lane == lane && s.atHome e.pa (dieOfCluster p.cluster) place)
      | _ => false)
    | none => false
  | _ => false

/-- The packet reaches no memory channel: its element executes at a near slice that is no home, or it is a link port's. -/
def State.staysNear (s : State) (p : Packet) : Bool :=
  match p.owner with
  | .elem n _ => (match (s.reqs.get? n).map Req.kind with
    | some (.gatom _ _ _) => !s.needsSlot p
    | _ => false)
  | .link _ => true
  | _ => false

/-- The requests that wait at a channel: arrived, and with a slot if they need one. -/
def State.waitingChan (s : State) (ch : Nat) : Table Packet :=
  s.packets.filter (fun p => p.2.route.isEmpty && channelOf p.2.line == ch && !s.staysNear p.2 && (p.2.slot || !s.needsSlot p.2))

/-- The slots a tenant has been served in a window, and all of them. -/
def Channel.servedOf (c : Channel) (tenant : Nat) : Nat := ((c.served.find? (fun e => e.1 == tenant)).map Prod.snd).getD 0
def Channel.total (c : Channel) : Nat := (c.served.map Prod.snd).sum

/-- A tenant has had its floor of a channel's slots in the window. -/
def State.floorMet (s : State) (c : Channel) (tenant : Nat) : Bool :=
  decide (((s.tenant? tenant).map Tenant.f).getD 0 * c.total ≤ 256 * c.servedOf tenant)

/-- A channel may serve a waiting request next: one of the highest class that waits; or, after 63 grants to it, the oldest of a
lower class alone; or before that one below its tenant's floor, at most one ahead of a waiting request of class 3. -/
def State.channelTakes (s : State) (id : Nat) (p : Packet) : Bool :=
  let ch := channelOf p.line
  let c := s.chan ch
  let ws := s.waitingChan ch
  let forced := (lowerPacket ws).map Prod.fst
  if p.cls = topClass ws then decide (c.since < 63) || forced.isNone
  else if 63 ≤ c.since then forced == some id
  else !s.floorMet c p.tenant && (topClass ws != 3 || !c.ahead)

/-- A channel after a request of a tenant has been served. -/
def Channel.serve (c : Channel) (tenant : Nat) (top : Bool) : Channel :=
  { served := (tenant, c.servedOf tenant + 1) :: c.served.filter (fun e => e.1 != tenant)
    since := if top then c.since + 1 else 0
    ahead := !top }

/-- A request that has reached its slice may be carried out: at a near slice, or once its channel takes it. -/
def State.arrives (s : State) (o : PktOwner) : Bool :=
  match s.packetOf o with
  | none => false
  | some (id, p) => p.route.isEmpty && (s.staysNear p || ((p.slot || !s.needsSlot p) && s.channelTakes id p))

/-- A request that is carried out leaves the fabric, and its channel has served it. -/
def State.leaveFabric (s : State) (o : PktOwner) : State :=
  match s.packetOf o with
  | none => s
  | some (id, p) =>
    let s1 := { s with fabric := s.fabric.del id }
    if s.staysNear p then s1
    else
      let ch := channelOf p.line
      { s1 with channels := s1.channels.put ch ((s.chan ch).serve p.tenant (p.cls == topClass (s.waitingChan ch))) }

/-- An atomic at its home slice takes a slot of its channel, if one is free for its tenant (R139). -/
def State.takeSlot (s : State) (id : Nat) (p : Packet) : State :=
  if p.slot || !p.route.isEmpty || !s.needsSlot p || !s.slotFree (channelOf p.line) p.tenant then s
  else { s with fabric := s.fabric.put id { p with slot := true } }

/-! ### The events of arbiters -/

/-- CROSSPOINT_FORCED_GRANT. After 63 grants to the highest class, the oldest request of a lower class is granted. -/
def execCrosspointForcedGrant (xp : Nat) (s : State) : Out :=
  match lowerPacket (s.waitingAt xp) with
  | none => .next s
  | some (id, p) => if (s.xp xp).since < 63 then .next s else .next (s.grantFlit xp id p 0)

/-- Every tenant with a request that waits at a channel has had its floor in the window. -/
def State.floorsMet (s : State) (ch : Nat) : Bool := (s.waitingChan ch).all (fun p => s.floorMet (s.chan ch) p.2.tenant)

/-- CHANNEL_FLOOR_WINDOW. A window of a memory channel ends, its floors met, and the next begins with nothing served. -/
def execChannelFloorWindow (ch : Nat) (s : State) : Out :=
  match s.channels.get? ch with
  | none => .next s
  | some c => if s.floorsMet ch then .next { s with channels := s.channels.put ch { c with served := [] } } else .next s

end Sys2Proof.Machine
end

