-- ==== Sys2Proof/Machine/Float.lean ====
section
/-! DEFINITION. Number formats and rounding (R143 to R151), and the float functions of R155 to R166 on values: every result
is the exact value rounded once. -/

namespace Sys2Proof.Machine

/-! ### Formats -/

/-- A floating-point format (R143, R144): its mantissa width, its sign bit's place, its bias, the codes of its largest finite
magnitude and of infinity and of its canonical NaN where it has them, and its top exponent code's use. -/
structure FloatFmt where
  m : Nat
  sign : Nat
  bias : Nat
  top : Nat
  inf : Option Nat
  nan : Option Nat
  /-- the format tells quiet NaNs from signalling ones (R145) -/
  quiet : Bool := false
  deriving DecidableEq, Repr

def fF32 : FloatFmt :=
  { m := 23, sign := 31, bias := 127, top := 0x7F7FFFFF, inf := some 0x7F800000, nan := some 0x7FC00000, quiet := true }
def fBF16 : FloatFmt := { m := 7, sign := 15, bias := 127, top := 0x7F7F, inf := some 0x7F80, nan := some 0x7FC0, quiet := true }
def fF16 : FloatFmt := { m := 10, sign := 15, bias := 15, top := 0x7BFF, inf := some 0x7C00, nan := some 0x7E00, quiet := true }
def fE4M3 : FloatFmt := { m := 3, sign := 7, bias := 7, top := 0x7E, inf := none, nan := some 0x7F }
def fE5M2 : FloatFmt := { m := 2, sign := 7, bias := 15, top := 0x7B, inf := some 0x7C, nan := some 0x7E }
def fE2M3 : FloatFmt := { m := 3, sign := 5, bias := 1, top := 0x1F, inf := none, nan := none }
def fE3M2 : FloatFmt := { m := 2, sign := 5, bias := 3, top := 0x1F, inf := none, nan := none }
def fE2M1 : FloatFmt := { m := 1, sign := 3, bias := 1, top := 0x7, inf := none, nan := none }

/-- A value: a NaN, an infinity, or ± mag × 2^exp. -/
inductive FVal where
  | nan (signalling : Bool)
  | inf (neg : Bool)
  | fin (neg : Bool) (mag : Nat) (exp : Int)
  deriving DecidableEq, Repr

/-- The value of a code of a format (R143 to R145). -/
def FloatFmt.decode (f : FloatFmt) (c : Nat) : FVal :=
  let neg := c.testBit f.sign
  let mag := c % 2 ^ f.sign
  if f.top < mag then
    if f.inf = some mag then .inf neg else .nan (f.quiet && !mag.testBit (f.m - 1))
  else
    let e := mag / 2 ^ f.m
    let m := mag % 2 ^ f.m
    if e = 0 then .fin neg m (1 - (f.bias : Int) - f.m)
    else .fin neg (2 ^ f.m + m) ((e : Int) - f.bias - f.m)

/-- A code with its sign bit. -/
def FloatFmt.signed (f : FloatFmt) (neg : Bool) (mag : Nat) : Nat := if neg then 2 ^ f.sign + mag else mag

/-- The canonical NaN; a format without one holds +0 (R145, R151). -/
def FloatFmt.nanCode (f : FloatFmt) : Nat := f.nan.getD 0

/-! ### Rounding -/

/-- A magnitude (mag + δ) × 2^exp: δ is 0 when it is exact, and otherwise lies strictly between 0 and 1. -/
structure Mag where
  mag : Nat
  exp : Int
  inexact : Bool := false
  deriving DecidableEq, Repr

/-- Rounds a magnitude to a multiple of 2^u: the multiple, and whether it differs from the exact value (R148, R149). `draw`
is the stochastic draw. -/
def Mag.roundAt (x : Mag) (u : Int) (neg : Bool) (r : Rm) (draw : Nat) : Nat × Bool :=
  if u ≤ x.exp then (x.mag * 2 ^ (x.exp - u).toNat, x.inexact)
  else
    let d := (u - x.exp).toNat
    let k := x.mag / 2 ^ d
    let rem := x.mag % 2 ^ d
    let inexact := rem != 0 || x.inexact
    let half := 2 ^ (d - 1)
    let up := match r with
      | .rn => decide (half < rem) || (rem == half && (x.inexact || k % 2 == 1))
      | .rz => false
      | .rp => inexact && !neg
      | .rm => inexact && neg
      | .rs => decide (2 ^ 16 ≤ rem * 2 ^ 16 / 2 ^ d + draw)
    (if up then k + 1 else k, inexact)

/-- The exponent of a format's smallest spacing. -/
def FloatFmt.least (f : FloatFmt) : Int := 1 - (f.bias : Int) - f.m

/-- Rounds a magnitude to the format with its range unbounded above: the magnitude's code and whether it is inexact. -/
def FloatFmt.roundMag (f : FloatFmt) (x : Mag) (neg : Bool) (r : Rm) (draw : Nat) : Nat × Bool :=
  if x.mag = 0 ∧ x.inexact = false then (0, false)
  else
    let u := max ((Nat.log2 x.mag : Int) + x.exp - f.m) f.least
    let (k, inexact) := x.roundAt u neg r draw
    ((u - f.least).toNat * 2 ^ f.m + k, inexact)

/-- What an overflow gives (R150): its magnitude's code, and whether it is ∞ or the NaN. -/
def FloatFmt.overflow (f : FloatFmt) (neg : Bool) (r : Rm) (t : Sat) : Nat × Bool :=
  let sat := match t with
    | .sat => true
    | .nosat => false
    | .dflt => f.inf.isNone
  let toInf := match r with
    | .rn => true
    | .rz | .rs => false
    | .rp => !neg
    | .rm => neg
  if sat || !toInf then (f.signed neg f.top, false)
  else match f.inf with
    | some i => (f.signed neg i, true)
    | none => (f.nanCode, true)

/-- Rounds ± a magnitude to a format, with its flags (R148 to R152). -/
def FloatFmt.round (f : FloatFmt) (neg : Bool) (x : Mag) (r : Rm) (t : Sat := .dflt) (draw : Nat := 0) : Nat × FFlags :=
  let (c, inexact) := f.roundMag x neg r draw
  if f.top < c then
    let (o, inf) := f.overflow neg r t
    (o, { of := inf, nx := true })
  else (f.signed neg c, { uf := inexact && decide (c ≠ 0) && decide (c < 2 ^ f.m), nx := inexact })

/-! ### Exact sums and products -/

/-- A finite term of a sum. -/
structure Term where
  neg : Bool
  mag : Nat
  exp : Int
  deriving DecidableEq, Repr

/-- A term as an integer in units of 2^e; e is no more than its exponent. -/
def Term.at (t : Term) (e : Int) : Int :=
  let n : Int := ((t.mag * 2 ^ (t.exp - e).toNat : Nat) : Int)
  if t.neg then -n else n

/-- The least exponent of a list of terms. -/
def leastExp : List Term → Int
  | [] => 0
  | [t] => t.exp
  | t :: r => min t.exp (leastExp r)

/-- The exact sum of terms, rounded once; an exact zero takes its sign as R148 says. (DEDUCED, log 29) -/
def FloatFmt.sum (f : FloatFmt) (ts : List Term) (r : Rm) : Nat × FFlags :=
  let e := leastExp ts
  let v := ts.foldl (fun a t => a + t.at e) (0 : Int)
  if v = 0 then (f.signed (ts.all (fun t => t.neg && t.mag == 0) || r == .rm) 0, {})
  else f.round (decide (v < 0)) { mag := v.natAbs, exp := e } r

/-- A value that is a signalling NaN. -/
def FVal.signalling : FVal → Bool
  | .nan s => s
  | _ => false

def FVal.isNan : FVal → Bool
  | .nan _ => true
  | _ => false

def FVal.neg : FVal → FVal
  | .nan s => .nan s
  | .inf n => .inf (!n)
  | .fin n m e => .fin (!n) m e

/-- A product: exact, a NaN of an operand, or the invalid 0 × ∞ (R155). -/
inductive Prod where
  | val (v : FVal) | invalid
  deriving DecidableEq, Repr

/-- The product of two values: its sign is the exclusive or of theirs, of a zero too. (DEDUCED, log 112) -/
def FVal.mul : FVal → FVal → Prod
  | .nan s, _ => .val (.nan s)
  | _, .nan s => .val (.nan s)
  | .inf n, .inf k => .val (.inf (n != k))
  | .inf n, .fin k m _ => if m = 0 then .invalid else .val (.inf (n != k))
  | .fin n m _, .inf k => if m = 0 then .invalid else .val (.inf (n != k))
  | .fin n m e, .fin k p q => .val (.fin (n != k) (m * p) (e + q))

/-- A product of integers: its zero has no sign (R147). -/
def Prod.ofInts (p : Prod) : Prod :=
  match p with
  | .val (.fin _ 0 e) => .val (.fin false 0 e)
  | _ => p

/-- The finite terms among values. -/
def finTerms : List FVal → List Term
  | [] => []
  | .fin n m e :: r => ⟨n, m, e⟩ :: finTerms r
  | _ :: r => finTerms r

/-- The rounded sum of values: a NaN gives the canonical NaN, opposite infinities are invalid (R155, R165). `iv` says that the
operands were invalid already. -/
def FloatFmt.sumVals (f : FloatFmt) (ps : List Prod) (iv : Bool) (r : Rm) : Nat × FFlags :=
  let vs := ps.filterMap (fun p => match p with
    | .val v => some v
    | .invalid => none)
  let pos := vs.contains (.inf false)
  let neg := vs.contains (.inf true)
  let bad := iv || ps.contains .invalid || (pos && neg)
  if bad || vs.any FVal.isNan then (f.nanCode, { iv := bad })
  else if pos then (f.inf.getD f.top, {})
  else if neg then (f.signed true (f.inf.getD f.top), {})
  else f.sum (finTerms vs) r

/-- A + B, A − B, A × B and A × B + C of a format (R155, R164). -/
def FloatFmt.add (f : FloatFmt) (a b : Nat) (r : Rm) : Nat × FFlags :=
  let x := f.decode a
  let y := f.decode b
  f.sumVals [.val x, .val y] (x.signalling || y.signalling) r

def FloatFmt.sub (f : FloatFmt) (a b : Nat) (r : Rm) : Nat × FFlags :=
  let x := f.decode a
  let y := f.decode b
  f.sumVals [.val x, .val y.neg] (x.signalling || y.signalling) r

def FloatFmt.fma (f : FloatFmt) (a b c : Nat) (r : Rm) : Nat × FFlags :=
  let x := f.decode a
  let y := f.decode b
  let z := f.decode c
  f.sumVals [x.mul y, .val z] (x.signalling || y.signalling || z.signalling) r

def FloatFmt.mul (f : FloatFmt) (a b : Nat) (r : Rm) : Nat × FFlags :=
  let x := f.decode a
  let y := f.decode b
  let iv := x.signalling || y.signalling
  match x.mul y with
  | .val (.fin n m e) => f.round n { mag := m, exp := e } r
  | p => f.sumVals [p] iv r

/-! ### Minimum, maximum, comparison, class -/

/-- The order of finite and infinite FP32 codes with −0 < +0. -/
def fkey (a : Word) : Int := if a.msb then -((field a 0 31 : Nat) : Int) - 1 else (field a 0 31 : Nat)

/-- fmin and fmax (R156). -/
def fminmax (max : Bool) (a b : Word) : Word × FFlags :=
  let x := fF32.decode a.toNat
  let y := fF32.decode b.toNat
  let fl : FFlags := { iv := x.signalling || y.signalling }
  let first := if max then decide (fkey b ≤ fkey a) else decide (fkey a ≤ fkey b)
  (if x.isNan && y.isNan then 0x7FC00000
   else if x.isNan then b
   else if y.isNan then a
   else if first then a else b, fl)

/-- The order of FP32 codes with +0 = −0. -/
def fvalue (a : Word) : Int := if a.msb then -((field a 0 31 : Nat) : Int) else (field a 0 31 : Nat)

/-- fcmp (R157). -/
def fcompare (c : FCond) (a b : Word) : Bool × FFlags :=
  let x := fF32.decode a.toNat
  let y := fF32.decode b.toNat
  let nan := x.isNan || y.isNan
  let sig := x.signalling || y.signalling
  let p := fvalue a
  let q := fvalue b
  match c with
  | .eq => (!nan && decide (p = q), { iv := sig })
  | .ne => (nan || decide (p ≠ q), { iv := sig })
  | .lt => (!nan && decide (p < q), { iv := nan })
  | .le => (!nan && decide (p ≤ q), { iv := nan })
  | .gt => (!nan && decide (q < p), { iv := nan })
  | .ge => (!nan && decide (q ≤ p), { iv := nan })
  | .un => (nan, { iv := sig })
  | .ord => (!nan, { iv := sig })

/-- The class bit of an FP32 value (R159). -/
def fclassBit (a : Word) : Nat :=
  match fF32.decode a.toNat with
  | .nan true => 8
  | .nan false => 9
  | .inf true => 0
  | .inf false => 7
  | .fin n m _ =>
    if m = 0 then (if n then 3 else 4)
    else if m < 2 ^ 23 then (if n then 2 else 5)
    else if n then 1 else 6

/-! ### Functions of one operand (R158) -/

/-- The integer square root, by its bits from 2^n down. -/
def isqrtFrom (x : Nat) : Nat → Nat → Nat
  | 0, r => if (r + 1) * (r + 1) ≤ x then r + 1 else r
  | n + 1, r => isqrtFrom x n (if (r + 2 ^ (n + 1)) * (r + 2 ^ (n + 1)) ≤ x then r + 2 ^ (n + 1) else r)

/-- The integer square root. -/
def isqrt (x : Nat) : Nat := isqrtFrom x (Nat.log2 x / 2 + 1) 0

/-- 1/(m × 2^e). -/
def recipMag (m : Nat) (e : Int) : Mag :=
  let k := Nat.log2 m + 64
  { mag := 2 ^ k / m, exp := -e - k, inexact := 2 ^ k % m != 0 }

/-- √(m × 2^e). -/
def sqrtMag (m : Nat) (e : Int) : Mag :=
  let m' := if e % 2 = 0 then m else 2 * m
  let e' := if e % 2 = 0 then e else e - 1
  let n := m' * 2 ^ 128
  let r := isqrt n
  { mag := r, exp := e' / 2 - 64, inexact := r * r != n }

/-- 1/√(m × 2^e). -/
def rsqrtMag (m : Nat) (e : Int) : Mag :=
  let m' := if e % 2 = 0 then m else 2 * m
  let e' := if e % 2 = 0 then e else e - 1
  let k := Nat.log2 m' + 64
  let r := isqrt (2 ^ (2 * k) / m')
  { mag := r, exp := -(e' / 2) - k, inexact := r * r * m' != 2 ^ (2 * k) }

/-- The bits of precision the two transcendental functions are computed to before the one rounding. -/
def fbits : Nat := 192

/-- 2^f in units of 2^−fbits, where f is the fraction n / 2^d: the product of the roots 2^(1/2), 2^(1/4), … that the bits of n
from the top down select. `c` is the last root taken. -/
def pow2Frac (n : Nat) : Nat → Nat → Nat → Nat
  | 0, _, acc => acc
  | d + 1, c, acc =>
    let c' := isqrt (c * 2 ^ fbits)
    pow2Frac n d c' (if n.testBit d then acc * c' / 2 ^ fbits else acc)

/-- 2^(± m × 2^e), m ≠ 0. -/
def exp2Mag (neg : Bool) (m : Nat) (e : Int) : Mag :=
  if 0 ≤ e then
    let n : Int := (min (m * 2 ^ (min e 16).toNat) 1024 : Nat)
    { mag := 1, exp := if neg then -n else n }
  else
    let d := (-e).toNat
    let top := (Nat.log2 m : Int) + e
    if top < -64 then { mag := if neg then 2 ^ 128 - 1 else 2 ^ 128, exp := -128, inexact := true }
    else
      let x : Int := if neg then -(m : Int) else m
      let n := x / 2 ^ d
      let f := (x - n * 2 ^ d).toNat
      if f = 0 then { mag := 1, exp := n }
      else { mag := pow2Frac f d (2 ^ (fbits + 1)) (2 ^ fbits), exp := n - fbits, inexact := true }

/-- The first n bits of log2 y after the point, for y in [1, 2) in units of 2^−fbits × 2^−fbits: y is squared, and each doubling
past 2 is a bit. -/
def log2Frac : Nat → Nat → Nat → Nat
  | 0, _, acc => acc
  | n + 1, y, acc =>
    let z := y * y / 2 ^ (2 * fbits)
    if 2 ^ (2 * fbits + 1) ≤ z then log2Frac n (z / 2) (2 * acc + 1) else log2Frac n z (2 * acc)

/-- log2 (m × 2^e), m ≠ 0: its sign and magnitude. (DEDUCED, log 113) -/
def log2Mag (m : Nat) (e : Int) : Bool × Mag :=
  let k := Nat.log2 m
  let n : Int := k + e
  if m = 2 ^ k then (decide (n < 0), { mag := n.natAbs, exp := 0 })
  else
    let v := n * 2 ^ 128 + (log2Frac 128 (m * 2 ^ (2 * fbits - k)) 0 : Nat)
    if v < 0 then (true, { mag := (-v - 1).toNat, exp := -128, inexact := true })
    else (false, { mag := v.toNat, exp := -128, inexact := true })

/-- The functions of R158. -/
inductive Fun1 where
  | rcp | rsq | sqrt | exp2 | log2
  deriving DecidableEq, Repr

def finf (neg : Bool) : Nat := fF32.signed neg 0x7F800000

/-- One of them (R158). -/
def func1 (g : Fun1) (a : Word) (r : Rm) : Nat × FFlags :=
  let bad : Nat × FFlags := (0x7FC00000, { iv := true })
  match fF32.decode a.toNat with
  | .nan s => (0x7FC00000, { iv := s })
  | .inf n =>
    match g with
    | .rcp => (fF32.signed n 0, {})
    | .rsq => if n then bad else (0, {})
    | .sqrt => if n then bad else (finf false, {})
    | .exp2 => (if n then 0 else finf false, {})
    | .log2 => if n then bad else (finf false, {})
  | .fin n m e =>
    if m = 0 then
      match g with
      | .rcp | .rsq => (finf n, { dz := true })
      | .sqrt => (fF32.signed n 0, {})
      | .exp2 => (0x3F800000, {})
      | .log2 => (finf true, { dz := true })
    else
      match g with
      | .rcp => fF32.round n (recipMag m e) r
      | .exp2 => fF32.round false (exp2Mag n m e) r
      | .rsq => if n then bad else fF32.round false (rsqrtMag m e) r
      | .sqrt => if n then bad else fF32.round false (sqrtMag m e) r
      | .log2 =>
        if n then bad
        else
          let (neg, x) := log2Mag m e
          fF32.round neg x r

/-- frnd (R159). -/
def fround (a : Word) (r : Rm) : Nat × FFlags :=
  match fF32.decode a.toNat with
  | .nan s => (0x7FC00000, { iv := s })
  | .inf n => (finf n, {})
  | .fin n m e =>
    if 0 ≤ e then (a.toNat, {})
    else
      let k := (Mag.roundAt { mag := m, exp := e } 0 n r 0).1
      ((fF32.round n { mag := k, exp := 0 } .rn).1, {})

/-! ### Conversions (R160 to R163) -/

/-- What a format code names. -/
inductive FmtKind where
  | float (f : FloatFmt) | int (w : Nat) (signed : Bool) | scale
  deriving DecidableEq, Repr

def fmtKind : Fmt → FmtKind
  | .bf16 => .float fBF16 | .f16 => .float fF16 | .e4m3 => .float fE4M3 | .e5m2 => .float fE5M2
  | .e2m3 => .float fE2M3 | .e3m2 => .float fE3M2 | .e2m1 => .float fE2M1
  | .s32 => .int 32 true | .u32 => .int 32 false | .s8 => .int 8 true | .s4 => .int 4 true
  | .e8m0 => .scale

/-- An FP32 value in a narrow float format (R148 to R151). -/
def toFloat (f : FloatFmt) (v : FVal) (r : Rm) (t : Sat) (draw : Nat) : Nat × FFlags :=
  match v with
  | .nan s => (f.nanCode, { iv := s || f.nan.isNone })
  | .inf n =>
    match f.inf, f.nan, t with
    | some _, _, .sat => (f.signed n f.top, { iv := true })
    | some i, _, _ => (f.signed n i, {})
    | none, some c, .nosat => (c, {})
    | none, _, _ => (f.signed n f.top, { iv := true })
  | .fin n m e => f.round n { mag := m, exp := e } r t draw

/-- An FP32 value in an integer format (R160), as a 32-bit pattern. (DEDUCED, log 28) -/
def toInteger (w : Nat) (signed : Bool) (v : FVal) (r : Rm) : Word × FFlags :=
  let lo : Int := if signed then -(2 ^ (w - 1) : Nat) else 0
  let hi : Int := if signed then (2 ^ (w - 1) : Nat) - 1 else (2 ^ w : Nat) - 1
  match v with
  | .nan _ => (0, { iv := true })
  | .inf n => (BitVec.ofInt 32 (if n then lo else hi), { iv := true })
  | .fin n m e =>
    let (k, inexact) := Mag.roundAt { mag := m, exp := e } 0 n r 0
    let x : Int := if n then -(k : Int) else k
    if x < lo then (BitVec.ofInt 32 lo, { iv := true })
    else if hi < x then (BitVec.ofInt 32 hi, { iv := true })
    else (BitVec.ofInt 32 x, { nx := inexact })

/-- An FP32 value as an E8M0 scale (R160). -/
def toScale (v : FVal) (r : Rm) : Nat × FFlags :=
  match v with
  | .nan s => (0xFF, { iv := s })
  | .inf _ => (0xFE, { iv := true })
  | .fin _ m e =>
    if m = 0 then (0, {})
    else
      let k := Nat.log2 m
      let j : Int := k + e
      let exact := m == 2 ^ k
      let up := match r with
        | .rn => decide (3 * 2 ^ k < 2 * m) || (2 * m == 3 * 2 ^ k && decide ((j + 127) % 2 = 1))
        | .rp => true
        | _ => false
      let c := if !exact && up then j + 128 else j + 127
      let c' := max 0 (min 254 c)
      (c'.toNat, { nx := !exact || decide (c' ≠ c) })

/-- The conversion of R160 to a format. -/
def fromF32 (m : Fmt) (a : Word) (r : Rm) (t : Sat) (draw : Nat) : Word × FFlags :=
  let v := fF32.decode a.toNat
  match fmtKind m with
  | .float f => let (c, fl) := toFloat f v r t draw; (BitVec.ofNat 32 c, fl)
  | .int w sg => toInteger w sg v r
  | .scale => let (c, fl) := toScale v r; (BitVec.ofNat 32 c, fl)

/-- The value of an E8M0 scale (R146). -/
def scaleVal (c : Nat) : FVal := if c = 0xFF then .nan false else .fin false 1 ((c : Int) - 127)

/-- A value of R143 to R147 in FP32, rounded where it must be. -/
def FVal.toF32 (v : FVal) (r : Rm) : Nat × FFlags :=
  match v with
  | .nan s => (0x7FC00000, { iv := s })
  | .inf n => (finf n, {})
  | .fin n m e => fF32.round n { mag := m, exp := e } r

/-- An integer as a value. -/
def FVal.ofInt (x : Int) : FVal := .fin (decide (x < 0)) x.natAbs 0

/-- The value of an element of a format (R143 to R147), in the low bits of a number. -/
def element (k : FmtKind) (x : Nat) : FVal :=
  match k with
  | .float f => f.decode (x % 2 ^ (f.sign + 1))
  | .int w true => .ofInt (BitVec.ofNat w x).toInt
  | .int w false => .ofInt (BitVec.ofNat w x).toNat
  | .scale => scaleVal (x % 256)

/-- The conversion of R161 from a format. -/
def toF32 (m : Fmt) (a : Word) (r : Rm) : Nat × FFlags := (element (fmtKind m) a.toNat).toF32 r

/-- The bits an element takes in a packed word, and how many there are (R147). -/
def packWidth : Fmt → Nat
  | .bf16 | .f16 => 16
  | .e2m1 | .s4 => 4
  | _ => 8

/-- A word with one element replaced. -/
def putElement (m : Fmt) (w : Word) (k : Nat) (x : Word) : Word :=
  let n := packWidth m
  let mask := BitVec.ofNat 32 ((2 ^ n - 1) * 2 ^ (k * n))
  (w &&& ~~~mask) ||| ((x <<< (k * n)) &&& mask)

/-- Element k of a packed word, converted to FP32 (R163). -/
def unpackElement (m : Fmt) (w : Word) (k : Nat) : Nat × FFlags :=
  let n := packWidth m
  (element (fmtKind m) (nfield w.toNat (k * n) n)).toF32 .rn

/-! ### Packed halves, dot products, scales (R164 to R166) -/

def halfFmt : HalfFmt → FloatFmt
  | .f16 => fF16
  | .bf16 => fBF16

/-- A function of the two 16-bit elements of a word (R164). -/
def halves (g : Nat → Nat × FFlags) : Word × FFlags :=
  let (x, p) := g 0
  let (y, q) := g 1
  (BitVec.ofNat 32 (x + 2 ^ 16 * y), p.or q)

def half (w : Word) (k : Nat) : Nat := field w (16 * k) 16

/-- The product of two elements of a format. -/
def FmtKind.mul (k : FmtKind) (a b : FVal) : Prod :=
  match k with
  | .int _ _ => (a.mul b).ofInts
  | _ => a.mul b

/-- The exact dot product of packed elements plus C, rounded once (R165). -/
def dotProduct (k : FmtKind) (n w : Nat) (a b c : Word) (r : Rm) : Nat × FFlags :=
  let z := fF32.decode c.toNat
  let ps := (List.range n).map (fun j => k.mul (element k (field a (w * j) w)) (element k (field b (w * j) w)))
  fF32.sumVals (.val z :: ps) z.signalling r

def dot4Fmt : Dot4Fmt → FmtKind
  | .e4m3 => .float fE4M3 | .e5m2 => .float fE5M2 | .s8 => .int 8 true | .e2m3 => .float fE2M3 | .e3m2 => .float fE3M2

def dot8Fmt : Dot8Fmt → FmtKind
  | .e2m1 => .float fE2M1 | .s4 => .int 4 true

/-- fscl (R166). (DEDUCED, log 27) -/
def fscale (a b : Word) (r : Rm) : Nat × FFlags :=
  let x := fF32.decode a.toNat
  match scaleVal (field b 0 8) with
  | .fin _ _ e =>
    match x with
    | .fin n m q => fF32.round n { mag := m, exp := q + e } r
    | v => v.toF32 r
  | _ => (0x7FC00000, { iv := true })

/-! ### The generator (R149) -/

/-- One step of a lane's generator. -/
def rngStep (x : Word) : Word :=
  let x := x ^^^ (x <<< 13)
  let x := x ^^^ (x >>> 17)
  x ^^^ (x <<< 5)

/-- The draw of a state. -/
def rngDraw (x : Word) : Nat := field x 16 16

/-- A lane's state at team start. -/
def rngSeed (srseed : Word) (blane block : Nat) : Word :=
  let x := srseed ^^^ BitVec.ofNat 32 (blane * 0x9E3779B9) ^^^ BitVec.ofNat 32 (block * 0x85EBCA6B)
  if x = 0 then 1 else x

end Sys2Proof.Machine
end

