-- ==== Sys2Proof/Machine/Lane.lean ====
section
/-! DEFINITION. Lane arithmetic, logic, comparison and lane movement (R79 to R91), with the tags a region gives their results
(R313). -/

namespace Sys2Proof.Machine

/-! ### Values -/

/-- A condition on two values, signed or unsigned (R67). -/
def condHolds {n : Nat} (c : Cond) (g : Sign) (a b : BitVec n) : Bool :=
  match c, g with
  | .gt, .s => b.slt a
  | .gt, .u => b.ult a
  | .ge, .s => b.sle a
  | .ge, .u => b.ule a
  | .lt, .s => a.slt b
  | .lt, .u => a.ult b
  | .le, .s => a.sle b
  | .le, .u => a.ule b
  | .eq, _ => a == b
  | .ne, _ => a != b

/-- The 32-bit predicate of a Bool (R88). -/
def predWord (b : Bool) : Word := if b then 1 else 0

/-- The number of leading zero bits (R86). -/
def clzWord (a : Word) : Word := if a = 0 then 32 else BitVec.ofNat 32 (31 - Nat.log2 a.toNat)

/-- The shift count of a lane shift: B[4:0] (R86). -/
def shiftCount (b : Word) : Nat := field b 0 5

/-- Position and width of a bit-field control (R87). -/
def fieldPos (b : Word) : Nat := field b 0 5
def fieldWidth (b : Word) : Nat := min (field b 8 6) 32

/-- The field of A under a control, zero-extended (R87). -/
def bfxU (a b : Word) : Word := BitVec.ofNat 32 (nfield a.toNat (fieldPos b) (fieldWidth b))

/-- The field of A under a control, sign-extended from its top bit (R87). -/
def bfxS (a b : Word) : Word :=
  let w := fieldWidth b
  let f := nfield a.toNat (fieldPos b) w
  if w = 0 then 0 else if f.testBit (w - 1) then BitVec.ofInt 32 ((f : Int) - (2 ^ w : Nat)) else BitVec.ofNat 32 f

/-- C with the low bits of A put at the field a control names (R87). -/
def bfi (a b c : Word) : Word :=
  let p := fieldPos b
  let m := BitVec.ofNat 32 ((2 ^ fieldWidth b - 1) * 2 ^ p)
  (c &&& ~~~m) ||| (BitVec.ofNat 32 (a.toNat * 2 ^ p) &&& m)

/-- The high word of the signed product (R84). -/
def mulhS (a b : Word) : Word := BitVec.ofInt 32 ((a.toInt * b.toInt) / 2 ^ 32)
/-- The high word of the unsigned product (R84). -/
def mulhU (a b : Word) : Word := BitVec.ofNat 32 ((a.toNat * b.toNat) / 2 ^ 32)

/-- The absolute value mod 2^32 (R84). -/
def absWord (a : Word) : Word := if a.msb then -a else a

def minS {n : Nat} (a b : BitVec n) : BitVec n := if a.sle b then a else b
def minU {n : Nat} (a b : BitVec n) : BitVec n := if a.ule b then a else b
def maxS {n : Nat} (a b : BitVec n) : BitVec n := if b.sle a then a else b
def maxU {n : Nat} (a b : BitVec n) : BitVec n := if b.ule a then a else b

/-! ### Shapes -/

/-- A lane instruction of one source. -/
def lane1 (i : Instr) (f : DA) (g : Word → Word) (s : State) : Out :=
  s.issue i (fun k t s => laneBody f.d (fun n => g (s.word t n f.a.op)) k t s)

/-- A lane instruction of two sources. -/
def lane2 (i : Instr) (f : DAB) (g : Word → Word → Word) (s : State) : Out :=
  s.issue i (fun k t s => laneBody f.d (fun n => g (s.word t n f.a.op) (s.word t n f.b.op)) k t s)

/-- A lane instruction of three sources. -/
def lane3 (i : Instr) (f : DABC) (g : Word → Word → Word → Word) (s : State) : Out :=
  s.issue i (fun k t s =>
    laneBody f.d (fun n => g (s.word t n f.a.op) (s.word t n f.b.op) (s.word t n f.c.op)) k t s)

/-- Results whose registers may carry tags: an operand that a result's tag does not carry on is pinned (R313). -/
def tagBody (d : Opnd) (os : List Opnd) (f : Nat → Word) (g : Nat → Option Tag) (k : Nat) (t : Team) (s : State) : Effect :=
  let t1 := t.pinLanes os (t.active.filter (fun n => (g n).isNone))
  .done (s.setTeam k (t1.laneResults d (t.active.map (fun n => (n, f n, g n)))))

/-! ### Moves and selects (R83) -/

/-- A value tag, which mov carries on. -/
def valueTag : Option Tag → Option Tag
  | some (.val k c) => some (.val k c)
  | _ => none

/-- mov. -/
def execMov (f : DA) (s : State) : Out :=
  s.issue (.mov f) (fun k t s =>
    tagBody f.d [f.a.op] (fun n => s.word t n f.a.op) (fun n => valueTag (t.tagOf n f.a.op)) k t s)

/-- movi. -/
def execMovi (f : Imm) (s : State) : Out :=
  s.issue (.movi f) (laneBody f.d (fun _ => f.imm.signExtend 32))

/-- sel. -/
def execSel (f : DABC) (s : State) : Out := lane3 (.sel f) f (fun a b c => if a.getLsbD 0 then b else c) s

/-! ### Integer arithmetic (R84, R85) -/

/-- The tag of a sum (R313): of one tagged source and a concrete one. -/
def addTag (ta tb : Option Tag) (a b : Word) : Option Tag :=
  match ta, tb with
  | some (.val k c), none => some (.val k (c + b))
  | none, some (.val k c) => some (.val k (c + a))
  | _, _ => none

/-- The tag of a difference (R313): of a tagged minuend and a concrete subtrahend. -/
def subTag (ta tb : Option Tag) (b : Word) : Option Tag :=
  match ta, tb with
  | some (.val k c), none => some (.val k (c - b))
  | _, _ => none

/-- The tag of a comparison (R313): of one source with a value tag and a concrete one. -/
def cmpTag (c : Cond) (g : Sign) (ta tb : Option Tag) (a b : Word) : Option Tag :=
  match ta, tb with
  | some (.val k x), none => some (.cmp k x c g b true)
  | none, some (.val k x) => some (.cmp k x c g a false)
  | _, _ => none

/-- A lane instruction of two sources whose result may carry a tag. -/
def lane2Tagged (i : Instr) (f : DAB) (g : Word → Word → Word)
    (h : Option Tag → Option Tag → Word → Word → Option Tag) (s : State) : Out :=
  s.issue i (fun k t s =>
    tagBody f.d [f.a.op, f.b.op] (fun n => g (s.word t n f.a.op) (s.word t n f.b.op))
      (fun n => h (t.tagOf n f.a.op) (t.tagOf n f.b.op) (s.word t n f.a.op) (s.word t n f.b.op)) k t s)

/-- iadd. -/
def execIadd (f : DAB) (s : State) : Out := lane2Tagged (.iadd f) f (· + ·) addTag s
/-- isub. -/
def execIsub (f : DAB) (s : State) : Out :=
  lane2Tagged (.isub f) f (· - ·) (fun ta tb _ b => subTag ta tb b) s
/-- ineg. -/
def execIneg (f : DA) (s : State) : Out := lane1 (.ineg f) f (fun a => -a) s
/-- iabs. -/
def execIabs (f : DA) (s : State) : Out := lane1 (.iabs f) f absWord s

/-- iadd64. -/
def execIadd64 (f : DAB) (s : State) : Out :=
  s.issue (.iadd64 f) (fun k t s =>
    .done (s.setTeam k (t.pairResults f.d
      (t.active.map (fun n => (n, s.dword t n f.a.op + s.dword t n f.b.op))))))

/-- imul. -/
def execImul (f : DAB) (s : State) : Out := lane2 (.imul f) f (· * ·) s
/-- imulh.s. -/
def execImulhS (f : DAB) (s : State) : Out := lane2 (.imulhS f) f mulhS s
/-- imulh.u. -/
def execImulhU (f : DAB) (s : State) : Out := lane2 (.imulhU f) f mulhU s
/-- imad. -/
def execImad (f : DABC) (s : State) : Out := lane3 (.imad f) f (fun a b c => a * b + c) s
/-- imin.s. -/
def execIminS (f : DAB) (s : State) : Out := lane2 (.iminS f) f minS s
/-- imin.u. -/
def execIminU (f : DAB) (s : State) : Out := lane2 (.iminU f) f minU s
/-- imax.s. -/
def execImaxS (f : DAB) (s : State) : Out := lane2 (.imaxS f) f maxS s
/-- imax.u. -/
def execImaxU (f : DAB) (s : State) : Out := lane2 (.imaxU f) f maxU s

/-! ### Logic, shifts and bit fields (R86, R87) -/

/-- shl. -/
def execShl (f : DAB) (s : State) : Out := lane2 (.shl f) f (fun a b => a <<< shiftCount b) s
/-- shr. -/
def execShr (f : DAB) (s : State) : Out := lane2 (.shr f) f (fun a b => a >>> shiftCount b) s
/-- sar. -/
def execSar (f : DAB) (s : State) : Out := lane2 (.sar f) f (fun a b => a.sshiftRight (shiftCount b)) s
/-- rotl. -/
def execRotl (f : DAB) (s : State) : Out := lane2 (.rotl f) f (fun a b => a.rotateLeft (shiftCount b)) s
/-- clz. -/
def execClz (f : DA) (s : State) : Out := lane1 (.clz f) f clzWord s
/-- popc. -/
def execPopc (f : DA) (s : State) : Out := lane1 (.popc f) f (fun a => BitVec.ofNat 32 (popcount a)) s
/-- brev. -/
def execBrev (f : DA) (s : State) : Out := lane1 (.brev f) f BitVec.reverse s
/-- and. -/
def execAnd (f : DAB) (s : State) : Out := lane2 (.and f) f (· &&& ·) s
/-- or. -/
def execOr (f : DAB) (s : State) : Out := lane2 (.or f) f (· ||| ·) s
/-- xor. -/
def execXor (f : DAB) (s : State) : Out := lane2 (.xor f) f (· ^^^ ·) s
/-- andn. -/
def execAndn (f : DAB) (s : State) : Out := lane2 (.andn f) f (fun a b => a &&& ~~~b) s
/-- not. -/
def execNot (f : DA) (s : State) : Out := lane1 (.not f) f (fun a => ~~~a) s
/-- bfx.u. -/
def execBfxU (f : DAB) (s : State) : Out := lane2 (.bfxU f) f bfxU s
/-- bfx.s. -/
def execBfxS (f : DAB) (s : State) : Out := lane2 (.bfxS f) f bfxS s
/-- bfi. -/
def execBfi (f : DABC) (s : State) : Out := lane3 (.bfi f) f bfi s

/-! ### Comparison (R88) -/

/-- icmp. -/
def execIcmp (c : Cond) (g : Sign) (f : DAB) (s : State) : Out :=
  lane2Tagged (.icmp c g f) f (fun a b => predWord (condHolds c g a b)) (cmpTag c g) s

/-! ### Lane movement (R89 to R91) -/

/-- The lane that gives lane `n` its value: `j` when it is a lane of the team active in this instruction, else `n` itself
(R89). -/
def Team.sourceLane (t : Team) (n j : Nat) : Nat := if decide (j < t.lanes) && t.amask.getLsbD j then j else n

/-- Every active lane takes A of its source lane; the inputs read in other lanes, and those B carries, are pinned (R313). -/
def moveBody (f : DAB) (src : Nat → Nat) (k : Nat) (t : Team) (s : State) : Effect :=
  let t1 := (t.pinLanes [f.b.op] t.active).pinLanes [f.a.op] (t.active.map src)
  .done (s.setTeam k (t1.laneResults f.d (t.active.map (fun n => (n, s.word t (src n) f.a.op, none)))))

/-- shfl. -/
def execShfl (f : DAB) (s : State) : Out :=
  s.issue (.shfl f) (fun k t s => moveBody f (fun n => t.sourceLane n (s.word t n f.b.op).toNat) k t s)
/-- shflx. -/
def execShflx (f : DAB) (s : State) : Out :=
  s.issue (.shflx f) (fun k t s => moveBody f (fun n => t.sourceLane n (n ^^^ field (s.word t n f.b.op) 0 10)) k t s)
/-- bcast. -/
def execBcast (f : DAB) (s : State) : Out :=
  s.issue (.bcast f) (fun k t s => moveBody f (fun n => t.sourceLane n (s.word t n f.b.op).toNat) k t s)

/-- The active lanes in which bit 0 of an operand is 1. -/
def State.votes (s : State) (t : Team) (a : Opnd) : List Nat := t.active.filter (fun n => (s.word t n a).getLsbD 0)

/-- ballot. -/
def execBallot (f : DA) (s : State) : Out :=
  s.issue (.ballot f) (fun k t s =>
    let m := Mask.ofLanes (s.votes t f.a.op)
    laneBody f.d (fun n => Mask.word m (n / 32)) k t s)
/-- vany. -/
def execVany (f : DA) (s : State) : Out :=
  s.issue (.vany f) (fun k t s => laneBody f.d (fun _ => predWord (!(s.votes t f.a.op).isEmpty)) k t s)
/-- vall. -/
def execVall (f : DA) (s : State) : Out :=
  s.issue (.vall f) (fun k t s => laneBody f.d (fun _ => predWord ((s.votes t f.a.op).length == t.active.length)) k t s)

/-- The operation of a scan. -/
def scanOp : ScanOp → Word → Word → Word
  | .addIncl | .addExcl => (· + ·)
  | .maxSIncl | .maxSExcl => maxS
  | .maxUIncl | .maxUExcl => maxU

/-- Its identity. -/
def scanIdentity : ScanOp → Word
  | .maxSIncl | .maxSExcl => 0x80000000
  | _ => 0

/-- An exclusive scan gives each lane what stood before it. -/
def scanExclusive : ScanOp → Bool
  | .addExcl | .maxSExcl | .maxUExcl => true
  | _ => false

/-- The running reduction over lanes and their values, ascending (R91). -/
def scanFrom (k : ScanOp) : Word → List (Nat × Word) → List (Nat × Word)
  | _, [] => []
  | acc, (n, x) :: r =>
    let y := scanOp k acc x
    (n, if scanExclusive k then acc else y) :: scanFrom k y r

/-- scan. -/
def execScan (k : ScanOp) (f : DA) (s : State) : Out :=
  s.issue (.scan k f) (fun j t s =>
    let rs := scanFrom k (scanIdentity k) (t.active.map (fun n => (n, s.word t n f.a.op)))
    .done (s.setTeam j (t.laneResults f.d (rs.map (fun r => (r.1, r.2, none))))))

end Sys2Proof.Machine
end

