-- ==== Sys2Proof/Machine/NearMem.lean ====
section
/-! DEFINITION. Near addresses, their checks and grants (R98 to R103), elements of scratchpad and private memory (R107, R111,
R117), parked entries (R17, R112 to R114), and the atomic operations (R129). -/

namespace Sys2Proof.Machine

/-! ### Addresses and checks -/

/-- A block as near addresses see it: its number, its allocation, and where the access is issued. -/
structure Frame where
  block : Nat
  p : Nat
  scratch : Nat
  cores : List Nat
  core : Nat
  priv : Nat := 0
  deriving DecidableEq, Repr

def Block.frame (b : Block) (n core priv : Nat) : Frame :=
  { block := n, p := b.p, scratch := b.scratch, cores := b.quarters.map coreOf, core := core, priv := priv }

/-- A team's frame. -/
def State.frame (s : State) (t : Team) : Frame :=
  match s.block? t.block with
  | some b => b.frame t.block t.core t.priv
  | none => { block := t.block, p := 0, scratch := 0, cores := [], core := t.core, priv := t.priv }

/-- Where a near address lands: a byte of a core's scratchpad, through window 1 or window 0, or of a lane's private memory. -/
inductive NearLoc where
  | spm (core off : Nat) (win1 : Bool)
  | priv (lane off : Nat)
  deriving DecidableEq, Repr

/-- Checks 1 to 3 of R102; an access of no lane has `lane` none (R108). -/
def nearPlace (f : Frame) (lane : Option Nat) (e : Word) (size : Nat) : Except Byte NearLoc :=
  let o := field e 0 20
  if field e 28 4 = 0 then
    if field e 20 8 ≠ 0 then .error 0x23
    else if o % size ≠ 0 then .error 0x24
    else if f.scratch < o + size then .error 0x21
    else .ok (.spm f.core (f.p + o) false)
  else if field e 28 4 = 1 then
    if field e 20 4 ≠ 0 then .error 0x23
    else if o % size ≠ 0 then .error 0x24
    else if Config.scratchBytes ≤ f.p + o then .error 0x21
    else .ok (.spm (clusterOfCore f.core * 16 + field e 24 4) (f.p + o) true)
  else if field e 28 4 = 2 then
    if field e 20 8 ≠ 0 then .error 0x23
    else match lane with
      | none => .error 0x25
      | some i =>
        if o % size ≠ 0 then .error 0x24
        else if f.priv < o + size then .error 0x22
        else .ok (.priv i o)
  else .error 0x23

/-- A byte of a core's scratchpad is open to a block: it lies below `.scratch` in the block's allocation there, or a grant
covers it (R99, R103). -/
def State.grantedByte (s : State) (f : Frame) (core off : Nat) : Bool :=
  (f.cores.contains core && decide (off < f.p + f.scratch) && decide (f.p ≤ off)) ||
    s.grants.any (fun g => g.block == f.block && g.core == core && decide (g.first ≤ off / 64) &&
      decide (off / 64 < g.first + g.run))

/-- Check 4 of R102: the byte the element starts at is open. An aligned element lies in one granule. -/
def State.granted (s : State) (f : Frame) (core off : Nat) : Bool := s.grantedByte f core off

/-- All four checks at once, for an access that is checked when it issues. -/
def State.nearCheck (s : State) (f : Frame) (lane : Option Nat) (e : Word) (size : Nat) : Except Byte NearLoc :=
  match nearPlace f lane e size with
  | .error c => .error c
  | .ok (.spm core off true) => if s.granted f core off then .ok (.spm core off true) else .error 0x20
  | .ok l => .ok l

/-! ### Bytes -/

/-- The key of a scratchpad byte. -/
def spmKey (core off : Nat) : Nat := Config.scratchBytes * core + off
/-- The key of a private byte. -/
def privKey (lane off : Nat) : Nat := 0x10000 * lane + off

/-- Reads the bytes of a near place. -/
def State.nearRead (s : State) (k : Nat) (l : NearLoc) (size : Nat) : Nat :=
  match l with
  | .spm core off _ => Memory.read s.spm (spmKey core off) size
  | .priv lane off => ((s.team? k).map (fun t => Memory.read t.privMem (privKey lane off) size)).getD 0

/-- A word of the bytes of a near place is poisoned (R117). -/
def State.nearPoisoned (s : State) (l : NearLoc) (size : Nat) : Bool :=
  match l with
  | .spm core off _ =>
    (List.range ((size + 3) / 4)).any (fun j => Sparse.get false s.spmPoison (spmKey core off / 4 + j))
  | .priv _ _ => false

/-- Clears the poison of n words from a word on. -/
def clearPoison (m : Sparse Bool) (w : Nat) : Nat → Sparse Bool
  | 0 => m
  | n + 1 => clearPoison (Sparse.set false m w false) (w + 1) n

/-- Writes the bytes of a near place; a word or wider store clears an error, a byte or half store does not (R117). -/
def State.nearWrite (s : State) (k : Nat) (l : NearLoc) (size v : Nat) : State :=
  match l with
  | .spm core off _ =>
    { s with
      spm := Memory.write s.spm (spmKey core off) size v
      spmPoison := clearPoison s.spmPoison (spmKey core off / 4) (size / 4) }
  | .priv lane off => s.modTeam k (fun t => { t with privMem := Memory.write t.privMem (privKey lane off) size v })

/-! ### Atomic operations (R129) -/

/-- The new value of a word. -/
def atomicWord (op : AOp) (old b c : Word) : Word :=
  match op with
  | .add => old + b
  | .fadd => BitVec.ofNat 32 (fF32.add old.toNat b.toNat .rn).1
  | .minS => minS old b
  | .minU => minU old b
  | .maxS => maxS old b
  | .maxU => maxU old b
  | .and => old &&& b
  | .or => old ||| b
  | .xor => old ^^^ b
  | .xchg => b
  | .cas => if old = c then b else old
  | .fmin => (fminmax false old b).1
  | .fmax => (fminmax true old b).1

/-- The new value of a dword; the float operations have no dword form (R132). -/
def atomicDWord (op : AOp) (old b c : DWord) : DWord :=
  match op with
  | .add => old + b
  | .minS => minS old b
  | .minU => minU old b
  | .maxS => maxS old b
  | .maxU => maxU old b
  | .and => old &&& b
  | .or => old ||| b
  | .xor => old ^^^ b
  | .xchg => b
  | .cas => if old = c then b else old
  | .fadd | .fmin | .fmax => old

/-- Records an atomic without a destination that met an error (R141): the first address, and the number. -/
def Team.recordAtomic (t : Team) (a : DWord) : Team :=
  { t with atomErr := some (match t.atomErr with
      | none => { addr := a, val := 1 }
      | some f => { f with val := f.val + 1 }) }

/-! ### One element -/

/-- Carries out an element of team k at its place: a load reads, a store writes, an atomic does both; an atomic that reads an
error writes nothing (R107, R130, R140). -/
def State.nearAct (s : State) (k : Nat) (kind : ReqKind) (dst : Dst) (e : Elem) (l : NearLoc) : State × Elem :=
  match kind with
  | .load size _ =>
    (s, { e with
      got := BitVec.ofNat 128 (s.nearRead k l size)
      st := if s.nearPoisoned l size then .poisoned else .done })
  | .lds _ _ size =>
    (s, { e with
      got := BitVec.ofNat 128 (s.nearRead k l size)
      st := if s.nearPoisoned l size then .poisoned else .done })
  | .store size | .sts _ _ size => (s.nearWrite k l size e.val.toNat, { e with st := .done })
  | .satom op =>
    if s.nearPoisoned l 4 then
      (if dst = .none then s.modTeam k (fun t => t.recordAtomic e.addr) else s, { e with st := .poisoned })
    else
      let old := BitVec.ofNat 32 (s.nearRead k l 4)
      let new := atomicWord op old (e.val.setWidth 32) (e.exp.setWidth 32)
      (s.nearWrite k l 4 new.toNat, { e with got := old.setWidth 128, st := .done })
  | _ => (s, e)

/-- The bytes of a near element. -/
def ReqKind.size : ReqKind → Nat
  | .load n _ => n
  | .store n => n
  | .satom _ => 4
  | .gatom _ n _ => n
  | .lds _ _ n => n
  | .sts _ _ n => n
  | _ => 0

/-- The kinds whose elements reach scratchpad or private memory. -/
def ReqKind.near : ReqKind → Bool
  | .load _ _ | .store _ | .satom _ | .lds _ _ _ | .sts _ _ _ => true
  | _ => false

/-- The element has not landed. -/
def Elem.flying (e : Elem) : Bool := e.st == .transit || e.st == .landing

/-- The units in which an element lands: the words of 16 bytes, or the whole of a smaller one (R335). -/
def ReqKind.units (kind : ReqKind) : List Nat := if kind.size = 16 then [0, 1, 2, 3] else [0]

/-- A near place n bytes on. -/
def NearLoc.plus (l : NearLoc) (n : Nat) : NearLoc :=
  match l with
  | .spm core off win1 => .spm core (off + n) win1
  | .priv lane off => .priv lane (off + n)

/-- An element one of whose four words has landed. -/
def Elem.landWord (e : Elem) (w : Nat) : Elem :=
  let e1 := { e with landed := w :: e.landed }
  if e1.landed.length < 4 then e1 else { e1 with st := if e.bad then .poisoned else .done }

/-- One unit of an element lands: a word of ldq and stq, else the whole element. -/
def State.nearUnit (s : State) (k : Nat) (kind : ReqKind) (dst : Dst) (e : Elem) (l : NearLoc) (w : Nat) : State × Elem :=
  if kind.size ≠ 16 then s.nearAct k kind dst e l
  else
    let p := l.plus (4 * w)
    match kind with
    | .load _ _ =>
      let e1 := { e with got := e.got ||| (BitVec.ofNat 128 (s.nearRead k p 4) <<< (32 * w)), bad := e.bad || s.nearPoisoned p 4 }
      (s, e1.landWord w)
    | .store _ => (s.nearWrite k p 4 (field e.val (32 * w) 32), e.landWord w)
    | _ => (s, e)

/-- An element's place, by checks 1 to 3; a satom has no window 2 (R122). -/
def elemPlace (f : Frame) (kind : ReqKind) (e : Elem) : Except Byte NearLoc :=
  match kind with
  | .lds core off _ | .sts core off _ => .ok (.spm core off false)
  | .satom _ => if field e.addr 28 4 = 2 then .error 0x23 else nearPlace f (some e.lane) (e.addr.setWidth 32) 4
  | _ => nearPlace f (some e.lane) (e.addr.setWidth 32) kind.size

/-- The place of an element that has not landed. -/
def flyingPlace (f : Frame) (kind : ReqKind) (e : Elem) : Option NearLoc :=
  if kind.near && e.flying then (elemPlace f kind e).toOption else none

/-- Where accesses are kept in issue order: a core's scratchpad, or a lane's private memory (R111). -/
def NearLoc.home : NearLoc → Nat × Bool
  | .spm core _ _ => (core, true)
  | .priv lane _ => (lane, false)

/-- An element of the team to the place's core or private memory has not landed; `before` limits the requests to those issued
earlier (R111). (DEDUCED, log 19) -/
def State.homeBusy (s : State) (k : Nat) (l : NearLoc) (before : Nat) : Bool :=
  match s.team? k with
  | none => false
  | some t => s.reqs.any (fun r => r.2.team == k && decide (r.1 < before) &&
      r.2.elems.any (fun e => ((flyingPlace (s.frame t) r.2.kind e).map NearLoc.home) == some l.home))

/-- An element of the team to a core has not landed. (DEDUCED, log 19) -/
def State.inTransit (s : State) (k core : Nat) (before : Nat) : Bool := s.homeBusy k (.spm core 0 false) before

/-- A scratchpad or private access of the team has not taken effect. -/
def State.nearOut (s : State) (k : Nat) : Bool :=
  s.reqs.any (fun r => r.2.team == k && r.2.kind.near && r.2.elems.any Elem.flying)

/-- Parks an element; the region of its lane is doomed (R317). -/
def State.park (s : State) (k : Nat) (e : Elem) (c : Byte) : State × Elem :=
  (s.modTeam k (fun t => t.doom 4 c e.lane), { e with st := .parked c })

/-- Issues one element: it parks, or is on its way, in window 1 to be checked for its grant when it reaches its core (R102,
R112). -/
def State.nearIssue1 (s : State) (k : Nat) (f : Frame) (kind : ReqKind) (e : Elem) : State × Elem :=
  match elemPlace f kind e with
  | .error c => s.park k e c
  | .ok (.spm _ _ true) => (s, { e with st := .transit })
  | .ok _ => (s, { e with st := .landing })

/-! ### Requests and entries -/

/-- Issues the elements of an instruction in ascending lane order. -/
def State.nearIssueAll (s : State) (k : Nat) (f : Frame) (kind : ReqKind) : List Elem → State × List Elem
  | [] => (s, [])
  | e :: r =>
    let (s1, e1) := s.nearIssue1 k f kind e
    let (s2, r1) := State.nearIssueAll s1 k f kind r
    (s2, e1 :: r1)

/-- An element that has landed, been dropped, or ended with an error. -/
def Elem.settled (e : Elem) : Bool :=
  match e.st with
  | .done | .dropped | .poisoned => true
  | _ => false

/-- Nothing of a request is left. -/
def Req.idle (r : Req) : Bool := r.words.isEmpty && r.entry.isNone && r.elems.all Elem.settled

/-- Forgets a request of which nothing is left. -/
def State.tidy (s : State) (n : Nat) : State :=
  match s.reqs.get? n with
  | some r => if r.idle then { s with reqs := s.reqs.del n } else s
  | none => s

/-- The instructions whose faulted elements park in the replay queue (R112, R123, R136). -/
def ReqKind.queued : ReqKind → Bool
  | .load _ _ | .store _ | .satom _ | .gatom _ _ _ => true
  | _ => false

/-- Forms the entry of a request whose elements have all been checked, if one parked, and raises its one trap (R112). -/
def State.formEntry (s : State) (n : Nat) : State :=
  match s.reqs.get? n with
  | none => s
  | some r =>
    if !r.kind.queued || r.entry.isSome || r.forming || !r.elems.any (fun e => e.parkedCode.isSome) then s
    else
      let e := s.freeEntry r.team
      let s1 := { s with reqs := s.reqs.put n { r with entry := some e, released := false, renew := false } }
      s1.entryTrap r e

/-- An element not yet checked waits: 8 entries are held, and a fault would form a ninth; only a load that a restore reissues
comes to it (R113). (DEDUCED, log 118) -/
def State.entryWaits (s : State) (r : Req) : Bool := r.entry.isNone && decide (8 ≤ (s.entries r.team).length)

/-- Adds a request, if anything of it is left, and forms its entry. -/
def State.addReq (s : State) (r : Req) : State :=
  if r.idle then s
  else
    let (n, s1) := s.fresh
    State.formEntry { s1 with reqs := s1.reqs.put n r } n

/-- The team waits on its replay queue. -/
def State.waitOn (s : State) (k : Nat) : Effect :=
  if s.owesTraps k then .jump (s.renewTraps k (s.reqs.map Prod.fst)) else .wait

/-- The mask words a destination awaits. -/
def dstWords (t : Team) (d : Dst) : List Nat :=
  match d with
  | .v _ _ => t.swept
  | _ => []

/-- An instruction of majors 0x20, 0x21, 0x22, 0x24, 0x25 or 0x28: its elements, in lane order, and its destination. -/
def nearBody (kind : ReqKind) (dst : Dst) (els : List Elem) (k : Nat) (t : Team) (s : State) : Effect :=
  if 8 ≤ s.queueUse k then s.waitOn k
  else
    let (s1, es) := s.nearIssueAll k (s.frame t) kind els
    let s2 := s1.modTeam k (fun u => u.markEmpty dst)
    .done (s2.addReq { team := k, gen := t.gen, kind := kind, dst := dst, words := dstWords t dst, elems := es
                       pc := t.ctl.pc })

/-! ### Returns (R41, R45) -/

/-- The value a load's element leaves in its lane. -/
def ReqKind.extend (kind : ReqKind) (x : BitVec 128) : BitVec 128 :=
  match kind with
  | .load size true => BitVec.ofInt 128 ((x.setWidth (8 * size)).toInt)
  | _ => x

/-- Writes one lane's registers of a destination. -/
def Regs.putDst (r : Regs) (lane base : Nat) (x : BitVec 128) : Nat → Regs
  | 0 => r
  | n + 1 =>
    let r1 := (r.setWord lane base (x.setWidth 32)).setTag lane base none
    Regs.putDst r1 lane (base + 1) (x >>> 32) n

/-- Writes the lanes of one mask word whose elements landed. -/
def Regs.putWord (r : Regs) (kind : ReqKind) (base count w : Nat) : List Elem → Regs
  | [] => r
  | e :: rest =>
    let r1 := if e.lane / 32 = w && e.st == .done then r.putDst e.lane base (kind.extend e.got) count else r
    Regs.putWord r1 kind base count w rest

/-- Sets the flags of the registers of a destination in one mask word. -/
def Regs.setDstFlag (r : Regs) (base w : Nat) (f : Flag) : Nat → Regs
  | 0 => r
  | n + 1 => Regs.setDstFlag (r.setVflag base w f) (base + 1) w f n

/-- The elements of a mask word. -/
def Req.inWord (r : Req) (w : Nat) : List Elem := r.elems.filter (fun e => e.lane / 32 == w)

/-- Gives a destination mask word its data: it becomes full, or empty and poisoned where an element met an error. -/
def Team.returnWord (t : Team) (r : Req) (w : Nat) : Team :=
  match r.dst with
  | .v base n =>
    let f := if (r.inWord w).any (fun e => e.st == .poisoned) then Flag.poisoned else Flag.full
    { t with regs := (t.regs.putWord r.kind base n w r.elems).setDstFlag base w f n }
  | _ => t

/-- Gives an s register its data, and then the cause word that waits for it (R43). -/
def Team.returnS (t : Team) (n : Nat) (x : DWord) (poison : Bool) : Team :=
  { t with regs := if poison then t.regs.setSflg n .poisoned else (t.regs.setS n x).setSflg n .full }.takeCause n

/-- Returns every mask word of a request whose elements are all settled (R123). -/
def State.returnReady (s : State) (n : Nat) : State :=
  match s.reqs.get? n with
  | none => s
  | some r =>
    let ready := r.words.filter (fun w => (r.inWord w).all Elem.settled)
    let s1 := s.modTeam r.team (fun t => ready.foldl (fun u w => u.returnWord r w) t)
    State.tidy { s1 with reqs := s1.reqs.put n { r with words := r.words.filter (fun w => !ready.contains w) } } n

/-! ### Replay (R114, R123, R136) -/

/-- Carries out one unit of a parked element: a free one of the words of ldq and stq that are left (R335), else the whole. -/
def State.replayUnit (s : State) (k : Nat) (kind : ReqKind) (dst : Dst) (e : Elem) (l : NearLoc) : State × Elem :=
  match kind.units.filter (fun w => !e.landed.contains w) with
  | [] | [_] => s.nearUnit k kind dst e l ((kind.units.find? (fun w => !e.landed.contains w)).getD 0)
  | ws => let (i, s1) := s.choose ws.length
    s1.nearUnit k kind dst e l (ws.getD i 0)

/-- Carries out a parked near element again, on memory as it stands: it is checked once, when its replay begins. -/
def State.nearReplay (s : State) (k : Nat) (f : Frame) (kind : ReqKind) (dst : Dst) (e : Elem) : State × Elem :=
  match elemPlace f kind e with
  | .error c => s.park k e c
  | .ok (.spm core off true) =>
    if e.midway || s.granted f core off then s.replayUnit k kind dst e (.spm core off true) else s.park k e 0x20
  | .ok l => s.replayUnit k kind dst e l

end Sys2Proof.Machine
end

