-- ==== Sys2Proof/Machine/Near.lean ====
section
/-! DEFINITION. Loads and stores, spills, and cluster grants (R104 to R110). -/

namespace Sys2Proof.Machine

/-- The register destination of a load. -/
def loadDst (d : Opnd) (count : Nat) : Dst :=
  match d with
  | .v n => .v n count
  | _ => .none

/-- A uniform destination. -/
def uniDst (d : Opnd) : Dst :=
  match d with
  | .s n => .s n
  | _ => .none

/-- The near address of a lane: (A + X) mod 2^32 (R106). -/
def State.laneAddr (s : State) (t : Team) (a : Opnd) (x : BitVec 21) (n : Nat) : DWord :=
  (s.word t n a + x.signExtend 32).setWidth 64

/-- The uniform near address (R106). -/
def State.uniAddr (s : State) (t : Team) (a : Opnd) (x : BitVec 21) : Word := (s.uni t a).setWidth 32 + x.signExtend 32

/-- The elements of a load. -/
def State.loadElems (s : State) (t : Team) (a : Opnd) (x : BitVec 21) : List Elem :=
  t.active.map (fun n => { lane := n, addr := s.laneAddr t a x n })

def ldSize : LdSize → Nat
  | .b | .sb => 1
  | .h | .sh => 2
  | .w => 4
  | .d => 8

def ldSigned : LdSize → Bool
  | .sb | .sh => true
  | _ => false

def stSize : StSize → Nat
  | .b => 1
  | .h => 2
  | .w => 4
  | .d => 8

def wdSize : WD → Nat
  | .w => 4
  | .d => 8

/-- The registers a result of a size takes. -/
def sizeRegs (n : Nat) : Nat := if n ≤ 4 then 1 else n / 4

/-- A lane's store value of a size: a word operand, a 64-bit operand, or four registers (R106). -/
def State.storeValue (s : State) (t : Team) (b : Opnd) (size n : Nat) : BitVec 128 :=
  if size ≤ 4 then (s.word t n b).setWidth 128
  else if size = 8 then (s.dword t n b).setWidth 128
  else match b with
    | .v q => ((t.regs.word n (q + 3) ++ t.regs.word n (q + 2)) ++ (t.regs.word n (q + 1) ++ t.regs.word n q)).setWidth 128
    | _ => 0

/-- The elements of a store. -/
def State.storeElems (s : State) (t : Team) (f : StArgs) (size : Nat) : List Elem :=
  t.active.map (fun n => { lane := n, addr := s.laneAddr t f.a.op f.x n, val := s.storeValue t f.b.op size n })

/-- ld. -/
def execLd (z : LdSize) (f : LdArgs) (s : State) : Out :=
  s.issue (.ld z f) (fun k t s =>
    nearBody (.load (ldSize z) (ldSigned z)) (loadDst f.d (sizeRegs (ldSize z))) (s.loadElems t f.a.op f.x) k t s)

/-- st. -/
def execSt (z : StSize) (f : StArgs) (s : State) : Out :=
  s.issue (.st z f) (fun k t s => nearBody (.store (stSize z)) .none (s.storeElems t f (stSize z)) k t s)

/-- ldq. -/
def execLdq (f : LdArgs) (s : State) : Out :=
  s.issue (.ldq f) (fun k t s => nearBody (.load 16 false) (loadDst f.d 4) (s.loadElems t f.a.op f.x) k t s)

/-- stq. -/
def execStq (f : StArgs) (s : State) : Out :=
  s.issue (.stq f) (fun k t s => nearBody (.store 16) .none (s.storeElems t f 16) k t s)

/-- The dense elements of cmpst and exld: lane and rank (R109). -/
def denseElems (base : Word) (size : Nat) (val : Nat → BitVec 128) (lanes : List Nat) : List Elem :=
  lanes.zipIdx.map (fun p =>
    { lane := p.1, addr := (base + BitVec.ofNat 32 (size * p.2)).setWidth 64, val := val p.1 })

/-- cmpst. -/
def execCmpst (z : WD) (f : StArgs) (s : State) : Out :=
  s.issue (.cmpst z f) (fun k t s =>
    nearBody (.store (wdSize z)) .none
      (denseElems (s.uniAddr t f.a.op f.x) (wdSize z) (fun n => s.storeValue t f.b.op (wdSize z) n) t.active) k t s)

/-- exld. -/
def execExld (z : WD) (f : LdArgs) (s : State) : Out :=
  s.issue (.exld z f) (fun k t s =>
    nearBody (.load (wdSize z) false) (loadDst f.d (sizeRegs (wdSize z)))
      (denseElems (s.uniAddr t f.a.op f.x) (wdSize z) (fun _ => 0) t.active) k t s)

/-- The team's older elements to the core of a scratchpad place have not landed (R111). -/
def State.behind (s : State) (k : Nat) (l : NearLoc) : Bool := s.homeBusy k l s.nextId

/-- An access of the team to the cores of near addresses would pass its older elements there (R111, R337). -/
def State.behindRun (s : State) (k : Nat) (f : Frame) (run : List Word) : Bool :=
  run.any (fun e => match nearPlace f none e 1 with
    | .ok l => s.behind k l
    | .error _ => false)

/-- The request of an lds or an sts whose address has been checked (R108). -/
def uniReq (k : Nat) (t : Team) (kind : ReqKind) (e : Word) (v : DWord) (dst : Dst) : Req :=
  { team := k, gen := t.gen, kind := kind, dst := dst, pc := t.ctl.pc
    words := match dst with
      | .s _ => [0]
      | _ => []
    elems := [{ lane := 0, addr := e.setWidth 64, val := v.setWidth 128, st := .landing }] }

/-- lds: its fault is precise (R108). (DEDUCED, log 22) -/
def execLds (z : WD) (f : LdArgs) (s : State) : Out :=
  s.issue (.lds z f) (fun k t s =>
    let e := s.uniAddr t f.a.op f.x
    match s.nearCheck (s.frame t) none e (wdSize z) with
    | .error c => .trap { code := c, addr := e.setWidth 64 }
    | .ok l =>
      match uniDst f.d, l with
      | .s n, .spm core off _ =>
        .done ((s.setTeam k (t.markEmpty (.s n))).addReq (uniReq k t (.lds core off (wdSize z)) e 0 (.s n)))
      | _, _ => .done s)

/-- sts. -/
def execSts (z : WD) (f : StArgs) (s : State) : Out :=
  s.issue (.sts z f) (fun k t s =>
    let e := s.uniAddr t f.a.op f.x
    match s.nearCheck (s.frame t) none e (wdSize z) with
    | .error c => .trap { code := c, addr := e.setWidth 64 }
    | .ok (.spm core off _) => .done (s.addReq (uniReq k t (.sts core off (wdSize z)) e (s.uni t f.b.op) .none))
    | .ok (.priv _ _) => .done s)

/-! ### Spills (R47, R110) -/

/-- The key of a lane's spill slot. -/
def slotKey (lane slot : Nat) : Nat := 256 * lane + slot

/-- A lane's slot index lies in the spill area. -/
def State.slotsOk (s : State) (t : Team) (a : Opnd) : Bool :=
  t.active.all (fun n => decide ((s.word t n a).toNat < t.spill))

/-- Writes one spill slot, which clears its poison. (DEDUCED, log 20) -/
def Team.setSlot (t : Team) (key : Nat) (x : Word) : Team :=
  { t with slots := Sparse.set 0 t.slots key x, slotPoison := Sparse.set false t.slotPoison key false }

def Team.setSlots (t : Team) : List (Nat × Word) → Team
  | [] => t
  | (key, x) :: r => Team.setSlots (t.setSlot key x) r

/-- spl. -/
def execSpl (f : AB) (s : State) : Out :=
  s.issue (.spl f) (fun k t s =>
    if !s.slotsOk t f.a.op then .trap { code := 0x13 }
    else .done (s.setTeam k (t.setSlots (t.active.map (fun n => (slotKey n (s.word t n f.a.op).toNat, s.word t n f.b.op))))))

/-- fil. -/
def execFil (f : DA) (s : State) : Out :=
  s.issue (.fil f) (fun k t s =>
    if !s.slotsOk t f.a.op then .trap { code := 0x13 }
    else match loadDst f.d 1 with
      | .none => .done s
      | d =>
        let els := t.active.map (fun n =>
          let key := slotKey n (s.word t n f.a.op).toNat
          ({ lane := n, addr := BitVec.ofNat 64 key, got := (Sparse.get 0 t.slots key).setWidth 128
             st := if Sparse.get false t.slotPoison key then .poisoned else .done } : Elem))
        .done ((s.setTeam k (t.markEmpty d)).addReq
          { team := k, gen := t.gen, kind := .fil, dst := d, words := dstWords t d, elems := els, pc := t.ctl.pc }))

/-! ### Cluster grants (R103, R104) -/

/-- The tenant's scratchpad partition on a core: the granules of the quarters its partition holds there, a quarter of the core
each (R348). -/
def State.granuleOwned (s : State) (tenant core g : Nat) : Bool :=
  s.partitions.any (fun p => p.2.tenants.any (fun e => e.1 == tenant) &&
    p.2.quarters.contains (core * 4 + g / (Config.scratchBytes / 64 / 4)))

/-- A granule that R99 grants always: all of its bytes lie in the block's allocation. -/
def Frame.always (f : Frame) (core g : Nat) : Bool :=
  f.cores.contains core && decide (f.p ≤ 64 * g) && decide (64 * g + 64 ≤ f.p + f.scratch)

/-- The entries a cluster's grant table holds. -/
def State.grantCount (s : State) (cluster : Nat) : Nat := (s.grants.filter (fun g => g.cluster == cluster)).length

/-- A run cut into entries of at most 1,024 granules from its start (R103). -/
def splitRun (cluster block core first : Nat) : Nat → Nat → List Grant
  | 0, _ => []
  | fuel + 1, n =>
    if n = 0 then []
    else { cluster := cluster, block := block, core := core, first := first, run := min n 1024 } ::
      splitRun cluster block core (first + min n 1024) fuel (n - min n 1024)

/-- An entry without the granules of a run: what is left before it and after it. -/
def Grant.cut (g : Grant) (first n : Nat) : List Grant :=
  let lo := g.first
  let hi := g.first + g.run
  let a := max lo first
  let b := min hi (first + n)
  if b ≤ a then [g]
  else
    (if lo < a then [{ g with run := a - lo }] else []) ++ (if b < hi then [{ g with first := b, run := hi - b }] else [])

/-- The table without a run of a block's granules on a core. -/
def State.cutGrants (s : State) (block core first n : Nat) : List Grant :=
  s.grants.flatMap (fun g => if g.block = block ∧ g.core = core then g.cut first n else [g])

/-- The grantee that B names: the operand zero for the issuing block, else the block of a team identifier of the tenant
(R104). (DEDUCED, log 17) -/
def State.grantee (s : State) (t : Team) (o : Opnd) : Option (Nat × Block) :=
  if o = .zero then (s.block? t.block).map (fun x => (t.block, x))
  else
    let b := s.uni t o
    let tenant := s.tenantIdOf t
    let handler := b.getLsbD 39
    (s.blocks.find? (fun e =>
      e.2.live && e.2.isHandler == handler && e.2.index == field b 0 32 &&
      ((s.grid? e.2.grid).map (fun g => g.tenant == tenant && g.number == field b 40 24)).getD false &&
      (if b.getLsbD 38 then e.2.stream.isSome else s.teams.any (fun q => q.2.block == e.1 && q.2.index == field b 32 6))))

/-- The granule run of A in the grantee's frame (R104): the core, the first granule and whether A is valid. -/
def grantRun (b : Block) (a : Word) (n : Nat) : Option (Nat × Nat) :=
  if field a 28 4 ≠ 1 ∨ field a 20 4 ≠ 0 then none
  else
    let first := (b.p + field a 0 20) / 64
    if Config.scratchBytes < 64 * (first + n) then none
    else some (clusterOf (b.quarters.headD 0) * 16 + field a 24 4, first)

/-- A is a window 1 address: what can be judged of it where its grantee, and so P, is not known. (DEDUCED, log 124) -/
def grantAddr (a : Word) : Bool := field a 28 4 = 1 && field a 20 4 = 0

/-- lsget: status and table (R104). A run that is not granted already is leased whole, with granules that R99 grants always.
(DEDUCED, log 16; DEDUCED, log 125) -/
def State.grantStep (s : State) (t : Team) (a : DWord) (b : Opnd) (n : Nat) : Nat × State :=
  match s.grantee t b with
  | none => (if grantAddr (a.setWidth 32) then 4 else 1, s)
  | some (bn, x) =>
    match grantRun x (a.setWidth 32) n with
    | none => (1, s)
    | some (core, first) =>
      let tenant := s.tenantIdOf t
      let f := x.frame bn core 0
      let gs := (List.range n).map (fun j => first + j)
      if !gs.all (s.granuleOwned tenant core) then (2, s)
      else if gs.all (fun g => s.leased bn core g || f.always core g) then (0, s)
      else
        let cluster := clusterOfCore core
        if 512 ≤ s.grantCount cluster then (3, s)
        else (0, { s with grants := s.grants ++ [⟨cluster, bn, core, first, n⟩] })

/-- lsret: status and table (R104). A granule that R99 grants always can be returned where a lease covers it too.
(DEDUCED, log 125) -/
def State.returnStep (s : State) (t : Team) (a : DWord) (b : Opnd) (n : Nat) : Nat × State :=
  match s.grantee t b with
  | none => (if grantAddr (a.setWidth 32) then 4 else 1, s)
  | some (bn, x) =>
    match grantRun x (a.setWidth 32) n with
    | none => (1, s)
    | some (core, first) =>
      let gs := (List.range n).map (fun j => first + j)
      if !gs.all (s.granuleOwned (s.tenantIdOf t) core) then (2, s)
      else if !gs.all (s.leased bn core) then (5, s)
      else
        let new := s.cutGrants bn core first n
        let cluster := clusterOfCore core
        if 512 < (new.filter (fun g => g.cluster == cluster)).length then (3, s) else (0, { s with grants := new })

/-- The run that an lsret would end, of the grantee B names, holds an access that has not landed. -/
def State.returnWaits (s : State) (t : Team) (a : DWord) (b : Opnd) (n : Nat) : Bool :=
  match s.grantee t b with
  | none => false
  | some (bn, x) =>
    match grantRun x (a.setWidth 32) n with
    | none => false
    | some (core, first) => s.runBusy (fun k => k == bn) core first n

/-- The answer of the grant table, which completes before the team's next instruction. (DEDUCED, log 18) -/
def grantBody (d : Opnd) (r : Nat × State) (k : Nat) : Effect :=
  .done (r.2.modTeam k (fun t => t.uniResult d (BitVec.ofNat 64 r.1)))

/-- lsget. -/
def execLsget (n : BitVec 10) (f : DAB) (s : State) : Out :=
  s.issue (.lsget n f) (fun k t s => grantBody f.d (s.grantStep t (s.uni t f.a.op) f.b.op (n.toNat + 1)) k)

/-- lsret: a grant ends only after every access already checked against it has landed (R103). -/
def execLsret (n : BitVec 10) (f : DAB) (s : State) : Out :=
  s.issue (.lsret n f) (fun k t s =>
    if s.returnWaits t (s.uni t f.a.op) f.b.op (n.toNat + 1) then .wait
    else grantBody f.d (s.returnStep t (s.uni t f.a.op) f.b.op (n.toNat + 1)) k)

end Sys2Proof.Machine
end

