-- ==== Sys2Proof/Machine/Stacks.lean ====
section
/-! DEFINITION. The divergence and return stacks with their spill areas (R201, R212 to R214), and resuming (R202). Every
operation either takes effect whole or raises the trap of the access that was refused. -/

namespace Sys2Proof.Machine

/-- Where a team's stack spills (R213), and the trap its overflow raises. -/
structure Area where
  cluster : Nat
  tenant : Nat
  handler : Bool
  base : Nat
  cap : Nat
  /-- mask words of an entry -/
  w : Nat
  full : Byte
  deriving DecidableEq, Repr

/-- Bytes of an image (R212). -/
def Area.bytes (a : Area) : Nat := 16 + 8 * a.w

/-- The address of a slot. -/
def Area.slot (a : Area) (n : Nat) : Nat := (a.base + n * a.bytes) % 2 ^ 64

/-- The spill area of a team's divergence stack, or with `rs` of its return stack; a grid that its launch gives no base, a child
among them, has its areas from 0 on. (DEDUCED, log 128) -/
def State.area (s : State) (t : Team) (rs : Bool) : Area :=
  let b := s.block? t.block
  let g := ((b.map Block.index).getD 0) * ((b.map Block.nteams).getD 1) + t.index
  let w := t.lanes / 32
  let base := ((s.grid? (s.gridIdOf t)).map (fun x => x.launch.csbase.toNat)).getD 0
  { cluster := t.cluster, tenant := s.tenantIdOf t, handler := t.handler.isSome
    base := base + (2 * g + (if rs then 1 else 0)) * t.cstack * (16 + 8 * w)
    cap := t.cstack, w := w, full := if rs then 0x62 else 0x61 }

/-- The number an entry's image is, little-endian. -/
def Entry.image (w : Nat) : Entry → Nat
  | .path pc m => pc.toNat + 2 ^ 128 * (m.toNat % 2 ^ (32 * w))
  | .barrier pc enr arr t =>
    pc.toNat + 2 ^ 64 * (t % 2 ^ 16) + 2 ^ 120 + 2 ^ 128 * (enr.toNat % 2 ^ (32 * w)) +
      2 ^ (128 + 32 * w) * (arr.toNat % 2 ^ (32 * w))
  | .ret pc d m arr =>
    pc.toNat + 2 ^ 64 * (d % 2 ^ 16) + 2 * 2 ^ 120 + 2 ^ 128 * (m.toNat % 2 ^ (32 * w)) +
      2 ^ (128 + 32 * w) * (arr.toNat % 2 ^ (32 * w))

/-- The entry an image stands for. (DEDUCED, log 35) -/
def Entry.ofImage (w : Nat) (x : Nat) : Entry :=
  let pc := BitVec.ofNat 64 x
  let n := nfield x 64 16
  let m := BitVec.ofNat 1024 (nfield x 128 (32 * w))
  let r := BitVec.ofNat 1024 (nfield x (128 + 32 * w) (32 * w))
  if nfield x 120 8 = 1 then .barrier pc m r n
  else if nfield x 120 8 = 2 then .ret pc n m r
  else .path pc m

/-- The bytes of a number, lowest first. -/
def natBytes (x : Nat) : Nat → List Byte
  | 0 => []
  | n + 1 => BitVec.ofNat 8 x :: natBytes (x / 256) n

/-- The number of a list of bytes, lowest first. -/
def bytesNat : List Byte → Nat
  | [] => 0
  | b :: r => b.toNat + 256 * bytesNat r

/-- Translates the bytes of an image; a refused byte raises trap 0x64 with its address (R214). -/
def State.imageRun (s : State) (a : Area) (want : Want) (va : Nat) : Nat → Except Trap (List Nat)
  | 0 => .ok []
  | n + 1 =>
    match s.engineAddr a.cluster a.tenant va want with
    | .error _ => .error { code := 0x64, addr := BitVec.ofNat 64 va }
    | .ok pa =>
      match State.imageRun s a want (va + 1) n with
      | .error e => .error e
      | .ok r => .ok (pa :: r)

/-- Reads a slot's image. -/
def State.readImage (s : State) (a : Area) (n : Nat) : Except Trap Nat :=
  match s.imageRun a .read (a.slot n) a.bytes with
  | .error e => .error e
  | .ok pas => if pas.any s.physPoison then .error { code := 0x65 } else .ok (bytesNat (pas.map s.physByte))

/-- Writes a slot's image. -/
def State.writeImage (s : State) (a : Area) (n x : Nat) : Except Trap State :=
  match s.imageRun a (.write a.handler) (a.slot n) a.bytes with
  | .error e => .error e
  | .ok pas => .ok ((s.physStore (pas.zip (natBytes x a.bytes))).enginePoison pas false)

/-- Writes the images of entries to the slots from n on. -/
def State.writeImages (s : State) (a : Area) (n : Nat) : List Entry → Except Trap State
  | [] => .ok s
  | e :: r =>
    match s.writeImage a n (e.image a.w) with
    | .error t => .error t
    | .ok s1 => State.writeImages s1 a (n + 1) r

/-- A path entry whose lanes a save has sent to a fallback takes its pc (R322). -/
def Entry.withPc (e : Entry) (moved : List (Nat × DWord)) : Entry :=
  match e with
  | .path pc m => .path (((moved.find? (fun x => m.getLsbD x.1)).map Prod.snd).getD pc) m
  | x => x

/-- The lanes that saves have sent to fallbacks, for the entry of a slot. -/
def CStack.fix (c : CStack) (n : Nat) : List (Nat × DWord) := ((c.moved.find? (fun e => e.1 == n)).map Prod.snd).getD []

/-- Changes the numbers of the slots that fallback pcs are held for. -/
def CStack.renumber (c : CStack) (f : Nat → Option Nat) : CStack :=
  { c with moved := c.moved.filterMap (fun e => (f e.1).map (fun n => (n, e.2))) }

def CStack.depth (c : CStack) : Nat := c.spilled + c.hw.length

/-- The entry at a position, counted from the bottom. -/
def State.stackGet (s : State) (a : Area) (c : CStack) (n : Nat) : Except Trap (Option Entry) :=
  if n < c.spilled then
    match s.readImage a n with
    | .error e => .error e
    | .ok x => .ok (some ((Entry.ofImage a.w x).withPc (c.fix n)))
  else .ok (c.hw[n - c.spilled]?)

/-- Replaces the entry at a position; a spilled one's image is rewritten in place. -/
def State.stackSet (s : State) (a : Area) (c : CStack) (n : Nat) (e : Entry) : Except Trap (State × CStack) :=
  if n < c.spilled then
    match s.writeImage a n (e.image a.w) with
    | .error t => .error t
    | .ok s1 => .ok (s1, c.renumber (fun j => if j = n then none else some j))
  else .ok (s, { c with hw := c.hw.set (n - c.spilled) e })

/-- Reads the entries of slots n, n + 1, … -/
def State.readEntries (s : State) (a : Area) (c : CStack) (n : Nat) : Nat → Except Trap (List Entry)
  | 0 => .ok []
  | m + 1 =>
    match s.readImage a n with
    | .error e => .error e
    | .ok x =>
      match State.readEntries s a c (n + 1) m with
      | .error e => .error e
      | .ok r => .ok ((Entry.ofImage a.w x).withPc (c.fix n) :: r)

/-- Fills the hardware entries again when none is left and slots are in use (R213). -/
def State.stackFill (s : State) (a : Area) (c : CStack) : Except Trap CStack :=
  if c.hw.isEmpty && decide (0 < c.spilled) then
    let n := min 8 c.spilled
    let at0 := c.spilled - n
    match s.readEntries a c at0 n with
    | .error e => .error e
    | .ok es => .ok ({ c with spilled := at0, hw := es }.renumber (fun j => if j < at0 then some j else none))
  else .ok c

/-- Makes room for one more hardware entry: 16 in hardware send the 8 oldest to the next 8 slots (R213). -/
def State.stackRoom (s : State) (a : Area) (c : CStack) : Except Trap (State × CStack) :=
  if 16 ≤ c.hw.length then
    if a.cap < c.spilled + 8 then .error { code := a.full }
    else match s.writeImages a c.spilled (c.hw.take 8) with
      | .error t => .error t
      | .ok s1 => .ok (s1, { c with spilled := c.spilled + 8, hw := c.hw.drop 8 })
  else .ok (s, c)

/-- Pushes an entry. -/
def State.stackPush (s : State) (a : Area) (c : CStack) (e : Entry) : Except Trap (State × CStack) :=
  match s.stackRoom a c with
  | .error t => .error t
  | .ok (s1, c1) => .ok (s1, { c1 with hw := c1.hw ++ [e] })

/-- Pops the top entry. -/
def State.stackPop (s : State) (a : Area) (c : CStack) : Except Trap (Option Entry × CStack) :=
  match c.hw.getLast? with
  | none => .ok (none, c)
  | some e =>
    match s.stackFill a { c with hw := c.hw.dropLast } with
    | .error t => .error t
    | .ok c1 => .ok (some e, c1)

/-- Copies the images of `m` slots from slot n up by one, the highest first. -/
def State.shiftUp (s : State) (a : Area) (n : Nat) : Nat → Except Trap State
  | 0 => .ok s
  | m + 1 =>
    match s.readImage a (n + m) with
    | .error e => .error e
    | .ok x =>
      match s.writeImage a (n + m + 1) x with
      | .error e => .error e
      | .ok s1 => State.shiftUp s1 a n m

/-- Copies the images of `m` slots above slot n down by one, the lowest first. -/
def State.shiftDown (s : State) (a : Area) (n : Nat) : Nat → Except Trap State
  | 0 => .ok s
  | m + 1 =>
    match s.readImage a (n + 1) with
    | .error e => .error e
    | .ok x =>
      match s.writeImage a n x with
      | .error e => .error e
      | .ok s1 => State.shiftDown s1 a (n + 1) m

/-- Inserts an entry among the slots: the images above it move up, and with every slot in use the newest image becomes the
oldest entry in hardware. -/
def State.slotInsert (s : State) (a : Area) (c : CStack) (n : Nat) (e : Entry) : Except Trap (State × CStack) :=
  let up (c1 : CStack) : CStack := c1.renumber (fun j => some (if n ≤ j then j + 1 else j))
  let put (m : Nat) : Except Trap State :=
    match s.shiftUp a n m with
    | .error t => .error t
    | .ok s1 => s1.writeImage a n (e.image a.w)
  if c.spilled < a.cap then
    match put (c.spilled - n) with
    | .error t => .error t
    | .ok s1 => .ok (s1, up { c with spilled := c.spilled + 1 })
  else
    match s.readImage a (c.spilled - 1) with
    | .error t => .error t
    | .ok x =>
      match put (c.spilled - 1 - n) with
      | .error t => .error t
      | .ok s1 =>
        let top := (Entry.ofImage a.w x).withPc (c.fix (c.spilled - 1))
        .ok (s1, up ({ c with hw := top :: c.hw }.renumber (fun j => if j + 1 < c.spilled then some j else none)))

/-- Inserts an entry at a position, where the stack does not pass its capacity (R216). (DEDUCED, log 36) -/
def State.stackInsert (s : State) (a : Area) (c : CStack) (n : Nat) (e : Entry) : Except Trap (State × CStack) :=
  if 16 + a.cap ≤ c.depth then .error { code := a.full }
  else
    let room : Except Trap (State × CStack) :=
      if n < c.spilled || decide (c.hw.length < 16) then .ok (s, c)
      else
        let m := min 8 (a.cap - c.spilled)
        match s.writeImages a c.spilled (c.hw.take m) with
        | .error t => .error t
        | .ok s1 => .ok (s1, { c with spilled := c.spilled + m, hw := c.hw.drop m })
    match room with
    | .error t => .error t
    | .ok (s1, c1) =>
      if n < c1.spilled then s1.slotInsert a c1 n e
      else .ok (s1, { c1 with hw := c1.hw.take (n - c1.spilled) ++ e :: c1.hw.drop (n - c1.spilled) })

/-- Pushes of so many entries find room (R213). -/
def CStack.pushesFit (cap spilled hw : Nat) : Nat → Bool
  | 0 => true
  | n + 1 =>
    if 16 ≤ hw then decide (spilled + 8 ≤ cap) && CStack.pushesFit cap (spilled + 8) (hw - 7) n
    else CStack.pushesFit cap spilled (hw + 1) n

/-- Removes the entry at a position: the images above a removal among the slots move down; one that leaves no entry in hardware
fills at once, as a pop does. (DEDUCED, log 36) -/
def State.stackRemove (s : State) (a : Area) (c : CStack) (n : Nat) : Except Trap (State × CStack) :=
  if n < c.spilled then
    match s.shiftDown a n (c.spilled - 1 - n) with
    | .error t => .error t
    | .ok s1 =>
      .ok (s1, { c with spilled := c.spilled - 1 }.renumber
        (fun j => if j = n then none else some (if n < j then j - 1 else j)))
  else
    match s.stackFill a { c with hw := c.hw.eraseIdx (n - c.spilled) } with
    | .error t => .error t
    | .ok c1 => .ok (s, c1)

/-! ### A control instruction's working state -/

/-- The control state an instruction works on, with the machine whose spill areas it reads and writes. -/
structure Work where
  s : State
  da : Area
  ra : Area
  ds : CStack
  rs : CStack
  m : Mask
  x : Mask
  pc : DWord
  deriving DecidableEq, Repr

/-- A team's control state. -/
def State.work (s : State) (t : Team) : Work :=
  { s := s, da := s.area t false, ra := s.area t true, ds := t.ctl.ds, rs := t.ctl.rs, m := t.ctl.mask
    x := t.ctl.exited, pc := t.ctl.pc }

/-- Puts the control state back; a pc that is not the next instruction flushes the buffer (R210). -/
def Work.commit (w : Work) (k : Nat) (next : DWord) : State :=
  w.s.modTeam k (fun t =>
    { t with ctl := { t.ctl.goto w.pc next with mask := w.m, exited := w.x, ds := w.ds, rs := w.rs } })

/-- The d of the newest return entry, or 0 (R201). -/
def Work.frameBase (w : Work) : Nat :=
  match w.rs.hw.getLast? with
  | some (.ret _ d _ _) => d
  | _ => 0

/-- Pushes an entry on the divergence stack, or on the return stack. -/
def Work.pushDs (w : Work) (e : Entry) : Except Trap Work :=
  match w.s.stackPush w.da w.ds e with
  | .error t => .error t
  | .ok (s, c) => .ok { w with s := s, ds := c }

def Work.pushRs (w : Work) (e : Entry) : Except Trap Work :=
  match w.s.stackPush w.ra w.rs e with
  | .error t => .error t
  | .ok (s, c) => .ok { w with s := s, rs := c }

/-- Resumes when the current path is empty (R202). -/
def Work.resumeFrom (w : Work) : Nat → Except Trap Work
  | 0 => .ok w
  | n + 1 =>
    let atCall := match w.rs.hw.getLast? with
      | some (.ret _ d _ _) => d == w.ds.depth
      | _ => false
    if atCall then
      match w.s.stackPop w.ra w.rs with
      | .error t => .error t
      | .ok (some (.ret ra _ _ arr), c) =>
        let left := arr &&& ~~~w.x
        if left = 0 then Work.resumeFrom { w with rs := c } n else .ok { w with rs := c, m := left, pc := ra }
      | .ok (_, c) => Work.resumeFrom { w with rs := c } n
    else
      match w.s.stackPop w.da w.ds with
      | .error t => .error t
      | .ok (none, _) => .ok { w with m := 0 }
      | .ok (some e, c) =>
        let (left, pc) := match e with
          | .path pc m => (m &&& ~~~w.x, pc)
          | .barrier pc _ arr _ => (arr &&& ~~~w.x, pc)
          | .ret pc _ _ arr => (arr &&& ~~~w.x, pc)
        if left = 0 then Work.resumeFrom { w with ds := c } n else .ok { w with ds := c, m := left, pc := pc }

/-- Resuming is part of the instruction that emptied the path. -/
def Work.resume (w : Work) : Except Trap Work := w.resumeFrom (w.ds.depth + w.rs.depth + 1)

/-- The positions of barrier entries in the frame from the top down, at most `want` of them that satisfy a test, with their
entries (R201). -/
def Work.barriers (w : Work) (p : Entry → Bool) (lo : Nat) : Nat → Nat → Except Trap (List (Nat × Entry))
  | _, 0 => .ok []
  | 0, _ => .ok []
  | want + 1, n + 1 =>
    if n < lo then .ok []
    else
      match w.s.stackGet w.da w.ds n with
      | .error t => .error t
      | .ok none => Work.barriers w p lo (want + 1) n
      | .ok (some e) =>
        if p e then
          match Work.barriers w p lo want n with
          | .error t => .error t
          | .ok r => .ok ((n, e) :: r)
        else Work.barriers w p lo (want + 1) n

end Sys2Proof.Machine
end

