-- ==== Sys2Proof/Machine/Control.lean ====
section
/-! DEFINITION. Control instructions (R199 to R209) and pblk (R65). -/

namespace Sys2Proof.Machine

/-- Settles a control instruction: it takes effect whole, or raises the trap of a refused access (R200, R215). -/
def controlEffect (k : Nat) (next : DWord) (r : Except Trap Work) : Effect :=
  match r with
  | .error t => .trap t
  | .ok w => .jump (w.commit k next)

/-- A displacement target (R200). -/
def target (pc : DWord) (off : BitVec 21) : DWord := pc + 4 * off.signExtend 64

/-- The address of the next instruction. -/
def nextPc (t : Team) (i : Instr) : DWord := t.ctl.pc + BitVec.ofNat 64 i.size

/-- A lane of the current path is in a region (R318). -/
def Team.inRegion (t : Team) : Bool := t.active.any (fun n => (t.regionOf n).isSome)

/-- A control instruction: `bad` is the trap it raises inside a region, if it may not run there (R318). -/
def State.control (s : State) (i : Instr) (bad : Option Byte) (f : Team → State → DWord → Except Trap Work) : Out :=
  s.issue i (fun k t s =>
    match bad, t.inRegion with
    | some c, true => .trap { code := c }
    | _, _ => controlEffect k (nextPc t i) (f t s (nextPc t i)))

/-- The whole current path goes to an address. -/
def moveTo (t : Team) (s : State) (pc : DWord) : Except Trap Work := .ok { s.work t with pc := pc }

/-- jmp. -/
def execJmp (f : Jump) (s : State) : Out :=
  s.control (.jmp f) none (fun t s _ => moveTo t s (target t.ctl.pc f.off))

/-- The lanes grouped by their targets, the groups ordered by their lowest lanes (R203). -/
def groupLanes : List (Nat × DWord) → List (DWord × List Nat) → List (DWord × List Nat)
  | [], gs => gs
  | (n, a) :: r, gs =>
    if gs.any (fun g => g.1 == a) then groupLanes r (gs.map (fun g => if g.1 == a then (g.1, g.2 ++ [n]) else g))
    else groupLanes r (gs ++ [(a, [n])])

/-- Pushes path entries in the order of the list. -/
def Work.pushPaths (w : Work) : List (DWord × List Nat) → Except Trap Work
  | [] => .ok w
  | (a, ls) :: r =>
    match w.pushDs (.path a (Mask.ofLanes ls)) with
    | .error t => .error t
    | .ok w1 => Work.pushPaths w1 r

/-- jmp.ind. -/
def execJmpInd (f : A1) (s : State) : Out :=
  s.control (.jmpInd f) (some 0xA3) (fun t s _ =>
    let gs := t.active.map (fun n => (n, s.dword t n f.a.op))
    if gs.any (fun g => field g.2 0 2 != 0) then .error { code := 0x0A }
    else match groupLanes gs [] with
      | [] => moveTo t s t.ctl.pc
      | (a, ls) :: r =>
        let w := s.work t
        if !CStack.pushesFit w.da.cap w.ds.spilled w.ds.hw.length r.length then .error { code := w.da.full }
        else match w.pushPaths r.reverse with
        | .error e => .error e
        | .ok w => .ok { w with m := Mask.ofLanes ls, pc := a })

/-- A divided branch: the taken lanes wait as a path, and the others go on (R203). -/
def branch (t : Team) (s : State) (next dest : DWord) (taken : Mask) : Except Trap Work :=
  let w := s.work t
  let stay := w.m &&& ~~~taken
  if taken = 0 then .ok { w with pc := next }
  else if stay = 0 then .ok { w with pc := dest }
  else match w.pushDs (.path dest taken) with
    | .error e => .error e
    | .ok w1 => .ok { w1 with m := stay, pc := next }

/-- Records the constraint of a predicate's comparison tag in a lane's region (R314), or pins what any other tag names. -/
def Team.constrainLane (t : Team) (b : Opnd) (bit : Bool) (n : Nat) : Team :=
  match t.tagOf n b, t.regionOf n with
  | some (.cmp k c cond sign y left), some r =>
    if r.doom.isSome then t
    else if 8 ≤ r.constraints.length then t.doom 3 2 n
    else t.setRegion n (some { r with constraints := r.constraints ++
      [{ k := k, c := c, cond := cond, sign := sign, y := y, left := left, b := bit }] })
  | some (.val k _), some r => t.setRegion n (some (r.pin k))
  | _, _ => t

def Team.constrain (t : Team) (b : Opnd) (bits : List (Nat × Bool)) : Team :=
  match bits with
  | [] => t
  | (n, bit) :: r => Team.constrain (t.constrainLane b bit n) b r

/-- brc and brc.f: `inv` turns the predicate. A divided branch of a region leaves its constraints whichever way a lane goes. -/
def branchOn (i : Instr) (f : Cbr) (inv : Bool) (s : State) : Out :=
  s.issue i (fun k t s =>
    let bits := t.active.map (fun n => (n, (s.word t n f.b.op).getLsbD 0))
    let taken := Mask.ofLanes ((bits.filter (fun p => p.2 != inv)).map Prod.fst)
    match branch t s (nextPc t i) (target t.ctl.pc f.off) taken with
    | .error e => .trap e
    | .ok w => .jump ((w.commit k (nextPc t i)).modTeam k (fun u => u.constrain f.b.op bits)))

/-- brc. -/
def execBrc (f : Cbr) (s : State) : Out := branchOn (.brc f) f false s
/-- brc.f. -/
def execBrcF (f : Cbr) (s : State) : Out := branchOn (.brcF f) f true s

/-- brs.nz. -/
def execBrsNz (f : Cbr) (s : State) : Out :=
  s.control (.brsNz f) none (fun t s next =>
    moveTo t s (if s.uni t f.b.op = 0 then next else target t.ctl.pc f.off))

/-- brs.z. -/
def execBrsZ (f : Cbr) (s : State) : Out :=
  s.control (.brsZ f) none (fun t s next =>
    moveTo t s (if s.uni t f.b.op = 0 then target t.ctl.pc f.off else next))

/-- A call: a return entry, and the target (R207). -/
def callTo (t : Team) (s : State) (next dest : DWord) : Except Trap Work :=
  let w := s.work t
  match w.pushRs (.ret next w.ds.depth w.m 0) with
  | .error e => .error e
  | .ok w1 => .ok { w1 with pc := dest }

/-- call. -/
def execCall (f : Jump) (s : State) : Out :=
  s.control (.call f) (some 0xA3) (fun t s next => callTo t s next (target t.ctl.pc f.off))

/-- call.ind. -/
def execCallInd (f : A1) (s : State) : Out :=
  s.control (.callInd f) (some 0xA3) (fun t s next =>
    let a := s.uni t f.a.op
    if field a 0 2 ≠ 0 then .error { code := 0x0A } else callTo t s next a)

/-- ret: the path's lanes wait in the return entry (R207). A return address that is not a multiple of 4 is a misaligned
target (R77). -/
def execRet (s : State) : Out :=
  s.control .ret (some 0xA3) (fun t s _ =>
    let w := s.work t
    match w.rs.hw.getLast? with
    | some (.ret ra d m arr) =>
      let c := { w.rs with hw := w.rs.hw.dropLast ++ [.ret ra d m (arr ||| w.m)] }
      match Work.resume { w with rs := c, m := 0 } with
      | .error e => .error e
      | .ok w1 => if w1.m ≠ 0 ∧ field w1.pc 0 2 ≠ 0 then .error { code := 0x0A } else .ok w1
    | _ => .error { code := 0x60 })

/-- sbar. -/
def execSbar (f : Cbr) (s : State) : Out :=
  s.control (.sbar f) (some 0xA3) (fun t s next =>
    let w := s.work t
    let n := Mask.count w.m
    let b := (s.uni t f.b.op).toNat
    match w.pushDs (.barrier (target t.ctl.pc f.off) w.m 0 (if b = 0 then n else min b n)) with
    | .error e => .error e
    | .ok w1 => .ok { w1 with pc := next })

/-- A barrier entry whose release PC is an address. -/
def Entry.releasesAt (pc : DWord) : Entry → Bool
  | .barrier rpc _ _ _ => rpc == pc
  | _ => false

def Entry.isBarrier : Entry → Bool
  | .barrier .. => true
  | _ => false

/-- Lanes arrive at a barrier entry: it stays with them, or it is removed and its lanes join the path (R205). -/
def Work.arrive (w : Work) (n : Nat) (e : Entry) : Except Trap Work :=
  match e with
  | .barrier rpc enr arr t =>
    let arr1 := arr ||| (w.m &&& enr)
    let m1 := w.m &&& ~~~enr
    if t ≤ Mask.count arr1 ∨ enr &&& ~~~w.x &&& ~~~arr1 = 0 then
      match w.s.stackRemove w.da w.ds n with
      | .error e => .error e
      | .ok (s, c) => .ok { w with s := s, ds := c, m := m1 ||| (arr1 &&& ~~~w.x) }
    else
      match w.s.stackSet w.da w.ds n (.barrier rpc enr arr1 t) with
      | .error e => .error e
      | .ok (s, c) => .ok { w with s := s, ds := c, m := m1 }
  | _ => .ok w

/-- sarr. -/
def execSarr (s : State) : Out :=
  s.control .sarr (some 0xA3) (fun t s next =>
    let w := s.work t
    match w.barriers (Entry.releasesAt next) w.frameBase 1 w.ds.depth with
    | .error e => .error e
    | .ok [] => .ok { w with pc := next }
    | .ok ((n, e) :: _) =>
      match w.arrive n e with
      | .error e => .error e
      | .ok w1 => if w1.m = 0 then w1.resume else .ok { w1 with pc := next })

/-- Takes the broken-out lanes from each barrier entry: fewer enrolled, and a lower threshold (R206). -/
def Work.breakOut (w : Work) (lanes : Mask) : List (Nat × Entry) → Except Trap Work
  | [] => .ok w
  | (n, .barrier rpc enr arr t) :: r =>
    match w.s.stackSet w.da w.ds n (.barrier rpc (enr &&& ~~~lanes) arr (max (t - Mask.count (lanes &&& enr)) 1)) with
    | .error e => .error e
    | .ok (s, c) => Work.breakOut { w with s := s, ds := c } lanes r
  | _ :: r => Work.breakOut w lanes r

/-- Removes the barrier entries that no longer enrol a lane, the topmost first; each stands one place higher than it did. -/
def Work.dropEmpty (w : Work) (lanes : Mask) : List (Nat × Entry) → Except Trap Work
  | [] => .ok w
  | (n, .barrier _ enr _ _) :: r =>
    if enr &&& ~~~lanes = 0 then
      match w.s.stackRemove w.da w.ds (n + 1) with
      | .error e => .error e
      | .ok (s, c) => Work.dropEmpty { w with s := s, ds := c } lanes r
    else Work.dropEmpty w lanes r
  | _ :: r => Work.dropEmpty w lanes r

/-- brk. -/
def execBrk (ext : Bool) (n : BitVec 6) (off : BitVec 21) (s : State) : Out :=
  s.control (.brk ext n off) (some 0xA3) (fun t s _ =>
    let w := s.work t
    match w.barriers Entry.isBarrier w.frameBase n.toNat w.ds.depth with
    | .error e => .error e
    | .ok es =>
      if es.length < n.toNat then .error { code := 0x63 }
      else match w.breakOut w.m es with
        | .error e => .error e
        | .ok w1 =>
          match w1.s.stackInsert w1.da w1.ds ((es.getLast?.map Prod.fst).getD 0) (.path (target t.ctl.pc off) w.m) with
          | .error e => .error e
          | .ok (s2, c) =>
            match Work.dropEmpty { w1 with s := s2, ds := c } w.m es with
            | .error e => .error e
            | .ok w2 => Work.resume { w2 with m := 0 })

/-- exit. -/
def execExit (s : State) : Out :=
  s.control .exit (some 0xA1) (fun t s _ =>
    let w := s.work t
    Work.resume { w with x := w.x ||| w.m, m := 0 })

/-- nop, in a team or in the matrix stream. -/
def execNop (s : State) : Out := s.issueBoth .nop (fun _ _ s => .done s) (fun _ _ _ s => .done s)

/-- Every outstanding-operation counter is 0. -/
def Counters.none (c : Counters) : Bool := c.copy == 0 && c.coll == 0 && c.promote == 0 && c.wl == 0 && c.matrix == 0

/-- yield: with a counter above 0 the team waits until one of its counters has decreased (R209). -/
def execYield (f : Jump) (s : State) : Out :=
  s.issue (.yield f) (fun k t s =>
    if t.inRegion then .trap { code := 0xA3 }
    else
      let go : Effect := .jump (s.modTeam k (fun u =>
        { u with ctl := { u.ctl.goto (target t.ctl.pc f.off) (nextPc t (.yield f)) with yield := .none } }))
      match t.ctl.yield with
      | .woken => go
      | .none => if t.count.none then go else .jump (s.modTeam k (fun u => { u with ctl := { u.ctl with yield := .waiting } }))
      | .waiting => if t.count.none then go else .wait)

/-- pblk: the predicate is read once; a pattern bit runs its instruction on the lanes that hold it, or on the others. -/
def execPblk (pat : Byte) (n : BitVec 3) (p : Fin 32) (tb : Bool) (s : State) : Out :=
  s.issue (.pblk pat n p tb) (fun k t s =>
    let q := Mask.ofLanes (t.active.filter (fun i => (t.regs.word i p).getLsbD 0))
    .jump (s.modTeam k (fun u =>
      { u with ctl := { u.ctl.advance 4 with
          cover := some { m := t.ctl.mask, p := q, pat := pat, n := n.toNat, next := 0 } } })))

end Sys2Proof.Machine
end

