-- ==== Sys2Proof/Machine/Regions.lean ====
section
/-! DEFINITION. Atomic regions (R308 to R321): opening, symbolic inputs, store records, and the commit. -/

namespace Sys2Proof.Machine

/-- Some active lane is not in a region. -/
def Team.outside (t : Team) : Bool := t.active.any (fun n => (t.regionOf n).isNone)

/-- The tags of a lane: the keys of its registers. -/
def tagLane (key : Nat) : Nat := key / 512

/-- Clears every tag of a lane. -/
def Regs.clearTags (r : Regs) (lane : Nat) : Regs := { r with tag := r.tag.filter (fun e => tagLane e.1 != lane) }

/-- Gives each of the lanes a region, or none, and clears its tags. -/
def Team.setRegions (t : Team) (r : Option Region) : List Nat → Team
  | [] => t
  | i :: rest => Team.setRegions { t.setRegion i r with regs := t.regs.clearTags i } r rest

/-- arbeg. -/
def execArbeg (d : Opnd) (x : BitVec 21) (s : State) : Out :=
  s.issue (.arbeg d x) (fun k t s =>
    if t.inRegion then .trap { code := 0xA1 }
    else
      let r : Region := { fb := target t.ctl.pc x, cr := match d with
        | .s n => n
        | _ => 0 }
      .done (s.setTeam k (t.setRegions (some r) t.active)))

/-- Changes the regions of the lanes. -/
def Team.modRegions (t : Team) (f : Region → Region) : List Nat → Team
  | [] => t
  | i :: rest => Team.modRegions (t.setRegion i ((t.regionOf i).map f)) f rest

/-- arrng. -/
def execArrng (f : AB) (s : State) : Out :=
  s.issue (.arrng f) (fun k t s =>
    let rb := s.uni t f.a.op
    let rl := s.uni t f.b.op
    if t.outside then .trap { code := 0xA0 }
    else if rl.toNat % 4 ≠ 0 ∨ rl.toNat < 4 ∨ 1048576 < rl.toNat ∨ rb.toNat % 4 ≠ 0 ∨ 2 ^ 52 < rb.toNat + rl.toNat then
      .trap { code := 0xA2 }
    else .done (s.setTeam k (t.modRegions (fun r => { r with rb := rb, rl := rl }) t.active)))

/-! ### arld (R312) -/

/-- One lane of an arld: its element, with its input's number plus 1 when it makes one, and its region after. -/
def State.arldLane (s : State) (k : Nat) (n : Nat) (g : DWord) : State × Elem :=
  match s.team? k with
  | none => (s, { lane := n, addr := g, st := .done })
  | some t =>
    match t.regionOf n with
    | none => (s, { lane := n, addr := g, st := .done })
    | some r =>
      let chk := s.gcheck t.cluster (s.tenantIdOf t) g 4 .read
      let read : Elem := match chk with
        | .ok pa => { lane := n, addr := g, pa := pa }
        | .error _ => { lane := n, addr := g, st := .done }
      if r.doom.isSome then (s, read)
      else if 4 ≤ r.inputs.length then (s.setTeam k (t.doom 3 1 n), read)
      else match chk with
        | .error c => (s.setTeam k (t.doom 4 c n), read)
        | .ok pa =>
          (s.setTeam k (t.setRegion n (some { r with inputs := r.inputs ++ [{ addr := g, v := 0 }] })),
           { lane := n, addr := g, pa := pa, exp := BitVec.ofNat 64 (r.inputs.length + 1) })

/-- The elements of an arld's lanes, in ascending order, with the inputs they record (R312). (DEDUCED, log 39) -/
def State.arldAll (s : State) (k : Nat) : List (Nat × DWord) → State × List Elem
  | [] => (s, [])
  | (n, g) :: r =>
    let (s1, e) := s.arldLane k n g
    let (s2, es) := State.arldAll s1 k r
    (s2, e :: es)

/-- arld: its inputs are numbered at issue, and each is read at its slice. -/
def execArld (f : LdArgs) (s : State) : Out :=
  s.issue (.arld f) (fun k t s =>
    if t.outside then .trap { code := 0xA0 }
    else
      let (s1, es) := s.arldAll k (t.active.map (fun n => (n, s.dword t n f.a.op + f.x.signExtend 64)))
      let dst : Dst := match f.d with
        | .v n => .v n 1
        | _ => .none
      let s2 := s1.modTeam k (fun u => u.markEmpty dst)
      .done (s2.addReq { team := k, gen := t.gen, kind := .value, dst := dst, words := dstWords t dst, elems := es
                         pc := t.ctl.pc, arld := true }))

/-- Reads one input at its slice. An uncorrectable error dooms the lane, and gives 0 (R312). -/
def State.readInput (s : State) (k : Nat) (e : Elem) : State × Elem :=
  match e.st with
  | .transit =>
    let x : Word := BitVec.ofNat 32 (s.physRead e.pa 4)
    if s.physPoisoned e.pa 4 then (s.modTeam k (fun t => t.doom 4 0xE0 e.lane), { e with got := 0, st := .done })
    else
      let put (r : Region) : Region :=
        if e.exp = 0 then r
        else { r with inputs := r.inputs.modify (e.exp.toNat - 1) (fun i => { i with v := x }) }
      (s.modTeam k (fun t => t.setRegion e.lane ((t.regionOf e.lane).map put)), { e with got := x.setWidth 128, st := .done })
  | _ => (s, e)

/-- Tags the register of each lane that made an input and is not doomed (R312, R313). -/
def Team.tagInputs (t : Team) (v w : Nat) : List Elem → Team
  | [] => t
  | e :: r =>
    let ok := e.lane / 32 == w && e.exp != 0 && ((t.regionOf e.lane).map (fun g => g.doom.isNone)).getD false
    let t1 := if ok then { t with regs := t.regs.setTag e.lane v (some (.val (Fin.ofNat 4 (e.exp.toNat - 1)) 0)) } else t
    Team.tagInputs t1 v w r

/-- An arld of the team has not read all its inputs. -/
def State.arldOut (s : State) (k : Nat) : Bool := s.reqs.any (fun r => r.2.team == k && r.2.arld && !r.2.words.isEmpty)

/-! ### Store records (R315) -/

/-- The value of a record. -/
def State.recVal (s : State) (t : Team) (n : Nat) (b : Opnd) : RecVal :=
  match t.tagOf n b with
  | some (.val k c) => .input k c
  | _ => .word (s.word t n b)

/-- The registers of an address pair. -/
def pairOpnds : Opnd → List Opnd
  | .v n => [.v n, .v (Fin.ofNat 256 (n + 1))]
  | _ => []

/-- Operands whose comparison tags pin what they name. -/
def Team.cmpOpnds (t : Team) (n : Nat) (os : List Opnd) : List Opnd :=
  os.filter (fun o => match t.tagOf n o with
    | some (.cmp ..) => true
    | _ => false)

/-- Records a store in a lane's region. -/
def Team.record (t : Team) (n : Nat) (a : RecAddr) (v : RecVal) : Team :=
  match t.regionOf n with
  | none => t
  | some r =>
    if r.doom.isSome then t
    else if 8 ≤ r.records.length then t.doom 3 3 n
    else t.setRegion n (some { r with records := r.records ++ [(a, v)] })

/-- A lane that takes no record has no input pinned by it. -/
def Team.records (t : Team) (n : Nat) : Bool :=
  match t.regionOf n with
  | some r => r.doom.isNone && decide (r.records.length < 8)
  | none => false

/-- arst in one lane. -/
def State.arstLane (s : State) (t : Team) (f : StArgs) (n : Nat) : Team :=
  let g := s.dword t n f.a.op + f.x.signExtend 64
  let t1 := if t.records n then t.pinLane n (pairOpnds f.a.op ++ t.cmpOpnds n [f.b.op]) else t
  t1.record n (.direct g) (s.recVal t n f.b.op)

/-- arst.ix in one lane. -/
def State.arstIxLane (s : State) (t : Team) (sc : BitVec 2) (a b c : Opnd) (x : BitVec 21) (n : Nat) : Team :=
  let base := s.dword t n a + x.signExtend 64
  let t1 := if t.records n then t.pinLane n (pairOpnds a ++ t.cmpOpnds n [b, c]) else t
  let addr : RecAddr := match t.tagOf n c with
    | some (.val k y) => .indexed base sc k y
    | _ => .direct (base + ((s.word t n c).setWidth 64 <<< sc.toNat))
  t1.record n addr (s.recVal t n b)

/-- arst. -/
def execArst (f : StArgs) (s : State) : Out :=
  s.issue (.arst f) (fun k t s =>
    if t.outside then .trap { code := 0xA0 }
    else .done (s.setTeam k (t.active.foldl (fun u n => s.arstLane u f n) t)))

/-- arst.ix. -/
def execArstIx (sc : BitVec 2) (a b c : Src) (x : BitVec 21) (s : State) : Out :=
  s.issue (.arstIx sc a b c x) (fun k t s =>
    if t.outside then .trap { code := 0xA0 }
    else .done (s.setTeam k (t.active.foldl (fun u n => s.arstIxLane u sc a.op b.op c.op x n) t)))

/-- arabt. -/
def execArabt (f : A1) (s : State) : Out :=
  s.issue (.arabt f) (fun k t s =>
    if t.outside then .trap { code := 0xA0 }
    else .done (s.setTeam k (t.active.foldl (fun u n => u.doom 7 (BitVec.ofNat 8 (field (s.word t n f.a.op) 0 8)) n) t)))

/-! ### arend (R320) -/

/-- The fallback of a lane. -/
def Team.fallback (t : Team) (n : Nat) : DWord := ((t.regionOf n).map Region.fb).getD 0

/-- The path after an arend: committed lanes go on, aborted lanes wait by their fallbacks (R320). -/
def arendPaths (w : Work) (next : DWord) (kept : List Nat) (gone : List (Nat × DWord)) : Except Trap Work :=
  let gs := groupLanes gone []
  if !kept.isEmpty then
    match w.pushPaths gs.reverse with
    | .error e => .error e
    | .ok w1 => .ok { w1 with m := Mask.ofLanes kept, pc := next }
  else match gs with
    | [] => .ok { w with pc := next }
    | (a, ls) :: r =>
      match w.pushPaths r.reverse with
      | .error e => .error e
      | .ok w1 => .ok { w1 with m := Mask.ofLanes ls, pc := a }

/-- DS takes one entry for each distinct fallback of the active lanes. -/
def State.arendFits (s : State) (t : Team) : Except Trap Work :=
  (s.work t).pushPaths (groupLanes (t.active.map (fun n => (n, t.fallback n))) [])

/-- arend: its lanes' commits follow, one at a time. -/
def execArend (s : State) : Out :=
  s.issue .arend (fun k t s =>
    if t.outside then .trap { code := 0xA0 }
    else match s.arendFits t with
      | .error e => .trap e
      | .ok _ =>
        if s.arldOut k then .wait
        else .jump (s.setTeam k { t with arend := some (t.active.map (fun n => (n, Outcome.waiting))) }))

/-! ### The commit of a lane (R321) -/

/-- What a commit comes to: it needs a second round on these lines, it writes these words, or it aborts. -/
inductive Commit where
  | again (lines : List Nat)
  | write (ws : List (Nat × Word))
  | abort (cause detail : Byte)
  deriving DecidableEq, Repr

/-- The value of an input as the region read it, or as it stands. -/
def valueAt (f : List Word) (k : Fin 4) : Word := (f[k.val]?).getD 0

def recAddr (f : List Word) : RecAddr → DWord
  | .direct g => g
  | .indexed base sc k c => base + ((valueAt f k + c).setWidth 64 <<< sc.toNat)

def recWord (f : List Word) : RecVal → Word
  | .word x => x
  | .input k c => valueAt f k + c

/-- Translates store addresses under R136: their physical addresses, or the element code. -/
def State.storeAddrs (s : State) (t : Team) : List DWord → Except Byte (List Nat)
  | [] => .ok []
  | g :: r =>
    match s.gcheck t.cluster (s.tenantIdOf t) g 4 (.write t.handler.isSome) with
    | .error c => .error c
    | .ok pa =>
      match State.storeAddrs s t r with
      | .error c => .error c
      | .ok l => .ok (pa :: l)

/-- Where the inputs stand now, or the element code. (DEDUCED, log 40) -/
def State.inputAddrs (s : State) (t : Team) : List Input → Except Byte (List Nat)
  | [] => .ok []
  | i :: r =>
    match s.gcheck t.cluster (s.tenantIdOf t) i.addr 4 .read with
    | .error c => .error c
    | .ok pa =>
      match State.inputAddrs s t r with
      | .error c => .error c
      | .ok l => .ok (pa :: l)

/-- A constraint holds on the fresh values. -/
def Constraint.ok (j : Constraint) (f : List Word) : Bool :=
  let x := valueAt f j.k + j.c
  (if j.left then condHolds j.cond j.sign x j.y else condHolds j.cond j.sign j.y x) == j.b

/-- The word at an address lies in the declared range. -/
def Region.inRange (r : Region) (g : DWord) : Bool :=
  decide (r.rb.toNat ≤ g.toNat) && decide (g.toNat + 4 ≤ r.rb.toNat + r.rl.toNat)

/-- The checks of the records' final addresses, in order. -/
def Region.recordFault (r : Region) (f : List Word) : List (RecAddr × RecVal) → Nat → Option (Byte × Byte)
  | [], _ => none
  | (a, _) :: rest, n =>
    let g := recAddr f a
    let indexed := match a with
      | .indexed .. => true
      | .direct _ => false
    if indexed && !r.inRange g then some (6, BitVec.ofNat 8 n)
    else if g.toNat % 4 ≠ 0 then some (4, 0x34)
    else Region.recordFault r f rest (n + 1)

/-- The checks on the fresh values f of a region's inputs: pinned inputs, constraints, records. -/
def Region.fault (r : Region) (f : List Word) : Option (Byte × Byte) :=
  match ((List.range r.inputs.length).zip (r.inputs.zip f)).find? (fun e => e.2.1.pinned && e.2.1.v != e.2.2) with
  | some e => some (2, BitVec.ofNat 8 e.1)
  | none =>
    match ((List.range r.constraints.length).zip r.constraints).find? (fun e => !e.2.ok f) with
    | some e => some (1, BitVec.ofNat 8 e.1)
    | none => r.recordFault f r.records 0

/-- One round of a commit: the lines locked are those of the inputs and, in the first round, of the store addresses as read,
in the second, of those the first found, which are not translated again before it. (DEDUCED, log 41) -/
def State.commitRound (s : State) (t : Team) (r : Region) (second : Option (List Nat)) : Commit :=
  match if second.isSome then .ok [] else s.storeAddrs t (r.records.map (fun e => recAddr (r.inputs.map Input.v) e.1)) with
  | .error c => .abort 4 c
  | .ok ts =>
    match s.inputAddrs t r.inputs with
    | .error c => .abort 4 c
    | .ok ins =>
      let locked := (ins.map (· / 64)) ++ (second.getD (ts.map (· / 64)))
      if ins.any (fun pa => s.physPoisoned pa 4) then .abort 4 0xE0
      else
        let f := ins.map (fun pa => (BitVec.ofNat 32 (s.physRead pa 4) : Word))
        match r.fault f with
        | some e => .abort e.1 e.2
        | none =>
          match s.storeAddrs t (r.records.map (fun e => recAddr f e.1)) with
          | .error c => .abort 4 c
          | .ok pas =>
            if pas.any (fun pa => !locked.contains (pa / 64)) then
              if second.isSome then .abort 8 0 else .again (pas.map (· / 64))
            else .write (pas.zip (r.records.map (fun e => recWord f e.2)))

/-- Writes the records of a commit in order; a whole word's write clears its poison. -/
def State.writeWords (s : State) : List (Nat × Word) → State
  | [] => s
  | (pa, x) :: r => State.writeWords ((s.physWrite pa 4 x.toNat).setPhysPoison pa false) r

/-- One round of one lane: what its region comes to. A doomed lane aborts with its cause. -/
def State.commitLane (s : State) (t : Team) (n : Nat) (second : Option (List Nat)) : State × Outcome :=
  match t.regionOf n with
  | none => (s, .committed)
  | some r =>
    match r.doom with
    | some (c, d) => (s, .aborted c d)
    | none =>
      match s.commitRound t r second with
      | .again ls => (s, .second ls)
      | .write ws => (s.writeWords ws, .committed)
      | .abort c d => (s, .aborted c d)

/-- The cause word of an aborting lane (R319). -/
def causeWord (lane : Nat) (cause detail : Byte) : DWord :=
  BitVec.ofNat 64 (lane % 256 * 2 ^ 16 + detail.toNat * 256 + cause.toNat)

/-- Writes the cause words of an abort event: in descending lane order, so that each register keeps its lowest lane's. -/
def Team.causeWords (t : Team) : List (Nat × Byte × Byte) → Team
  | [] => t
  | (n, c, d) :: r =>
    let t1 := Team.causeWords t r
    match t1.regionOf n with
    | some g => t1.giveCause g.cr (causeWord n c d)
    | none => t1

/-- An aborted lane of an arend. -/
def abortOf : Nat × Outcome → Option (Nat × Byte × Byte)
  | (n, .aborted c d) => some (n, c, d)
  | _ => none

/-- A register that takes a cause word of an arend is empty, so that the arend waits to write it (R43). -/
def Team.causeWaits (t : Team) (ls : List (Nat × Outcome)) : Bool :=
  (ls.filterMap abortOf).any (fun e => ((t.regionOf e.1).map (fun g => t.regs.sflg g.cr == .empty)).getD false)

/-- Completes an arend whose lanes are all settled. -/
def State.arendFinish (s : State) (k : Nat) (t : Team) (ls : List (Nat × Outcome)) : State :=
  let gone := ls.filterMap abortOf
  let kept := (ls.filter (fun e => e.2 == .committed)).map Prod.fst
  let next := t.ctl.pc + BitVec.ofNat 64 (Instr.size .arend)
  match arendPaths (s.work t) next kept (gone.map (fun e => (e.1, t.fallback e.1))) with
  | .error e => s.takeTrap k 0 e
  | .ok w =>
    (w.commit k next).modTeam k (fun u => { (u.causeWords gone).setRegions none (ls.map Prod.fst) with arend := none })

/-- The first lane of an arend that is not settled: it waits, or is in its second round. -/
def nextCommit (ls : List (Nat × Outcome)) : Option (Nat × Outcome) :=
  ls.find? (fun e => match e.2 with
    | .waiting | .second _ => true
    | _ => false)

/-- REGION_COMMIT. The next lane of an arend commits or aborts; with the last, the arend completes, once the
registers of its cause words are not empty (R43). A lane in its second round goes on while its team is saved; the others wait
for their team (R322). (DEDUCED, log 117) -/
def execRegionCommit (team : Nat) (s : State) : Out :=
  match s.team? team with
  | none => .next s
  | some t =>
    match t.arend with
    | none => .next s
    | some ls =>
      let runs := t.st == .running && ((s.block? t.block).map (fun b => b.st == .placed)).getD false
      let settle (n : Nat) (r : State × Outcome) : Out :=
        let ls1 := ls.map (fun e => if e.1 = n then (n, r.2) else e)
        let s1 := r.1.modTeam team (fun u => { u with arend := some ls1 })
        match nextCommit ls1, s1.team? team with
        | none, some u => if runs && !u.causeWaits ls1 then .next (s1.arendFinish team u ls1) else .next s1
        | _, _ => .next s1
      match nextCommit ls with
      | none => if runs && !t.causeWaits ls then .next (s.arendFinish team t ls) else .next s
      | some (n, .second lines) => settle n (s.commitLane t n (some lines))
      | some (n, _) => if runs then settle n (s.commitLane t n none) else .next s

end Sys2Proof.Machine
end

