-- ==== Sys2Proof/Machine/Atomic.lean ====
section
/-! DEFINITION. Pre-combining (R121), scratchpad atomics (R122, R130), global atomics and where they run (R132 to R141). -/

namespace Sys2Proof.Machine

/-! ### Pre-combining -/

/-- cdet of one lane: twice its rank among the lanes that share its key, plus 1 for the last of them. -/
def cdetWord (keys : List (Nat × Word)) (n : Nat) (x : Word) : Word :=
  let r := (keys.filter (fun p => decide (p.1 < n) && p.2 == x)).length
  BitVec.ofNat 32 (2 * r + (if keys.any (fun p => decide (n < p.1) && p.2 == x) then 0 else 1))

/-- cdet. -/
def execCdet (f : DA) (s : State) : Out :=
  s.issue (.cdet f) (fun k t s =>
    let keys := t.active.map (fun n => (n, s.word t n f.a.op))
    laneBody f.d (fun n => cdetWord keys n (s.word t n f.a.op)) k t s)

/-- The operation of a vcomb (R121). -/
def vcombOp (p : VOp) (acc x : Word) : Word :=
  match p with
  | .add => acc + x
  | .fadd => BitVec.ofNat 32 (fF32.add acc.toNat x.toNat .rn).1
  | .minS => minS acc x
  | .maxS => maxS acc x
  | .minU => minU acc x
  | .maxU => maxU acc x
  | .or => acc ||| x
  | .fmin => (fminmax false acc x).1
  | .fmax => (fminmax true acc x).1

/-- The fold of a list of values, from its first. -/
def foldFirst (g : Word → Word → Word) : List Word → Word
  | [] => 0
  | x :: r => r.foldl g x

/-- vcomb. -/
def execVcomb (p : VOp) (f : DAB) (s : State) : Out :=
  s.issue (.vcomb p f) (fun k t s =>
    let vs := t.active.map (fun n => (n, s.word t n f.b.op, s.word t n f.a.op))
    laneBody f.d (fun n =>
      foldFirst (vcombOp p) ((vs.filter (fun v => decide (v.1 ≤ n) && v.2.1 == s.word t n f.b.op)).map (fun v => v.2.2)))
      k t s)

/-! ### Scratchpad atomics -/

/-- satom. -/
def execSatom (p : AOp) (f : RmwArgs) (s : State) : Out :=
  s.issue (.satom p f) (fun k t s =>
    nearBody (.satom p) (loadDst f.d 1)
      (t.active.map (fun n =>
        { lane := n, addr := s.laneAddr t f.a.op f.x n, val := (s.word t n f.b.op).setWidth 128
          exp := (s.word t n f.c.op).setWidth 64 })) k t s)

/-! ### Global atomics -/

/-- An operand of a global atomic, by its size (R133). -/
def State.sized (s : State) (t : Team) (z : WD) (o : Opnd) (n : Nat) : DWord :=
  match z with
  | .w => (s.word t n o).setWidth 64
  | .d => s.dword t n o

/-- The elements of a gatom or gred. -/
def State.gatomElems (s : State) (t : Team) (z : WD) (a b c : Opnd) (x : BitVec 21) : List Elem :=
  t.active.map (fun n =>
    { lane := n, addr := s.dword t n a + x.signExtend 64, val := (s.sized t z b n).setWidth 128, exp := s.sized t z c n })

/-- Checks one element (R136): it parks, or travels to its slice. -/
def State.gatomIssue1 (s : State) (k : Nat) (t : Team) (size : Nat) (e : Elem) : State × Elem :=
  let tenant := s.tenantIdOf t
  match s.gcheck t.cluster tenant e.addr size (.write t.handler.isSome) with
  | .error c => s.park k e c
  | .ok pa => (s.noteWalk t.cluster tenant e.addr.toNat, { e with pa := pa, st := .transit })

def State.gatomIssueAll (s : State) (k : Nat) (t : Team) (size : Nat) : List Elem → State × List Elem
  | [] => (s, [])
  | e :: r =>
    let (s1, e1) := s.gatomIssue1 k t size e
    let (s2, r1) := State.gatomIssueAll s1 k t size r
    (s2, e1 :: r1)

/-- gatom and gred: the elements are checked, and the destination is empty until they return (R134). -/
def gatomBody (op : AOp) (l : Place) (z : WD) (posted : Bool) (dst : Dst) (els : List Elem) (k : Nat) (t : Team) (s : State) :
    Effect :=
  if 8 ≤ s.queueUse k then s.waitOn k
  else
    let (s1, es) := s.gatomIssueAll k t (wdSize z) els
    let s2 := s1.modTeam k (fun u => u.markEmpty dst)
    .done (s2.addReq { team := k, gen := t.gen, kind := .gatom op (wdSize z) l, dst := dst, words := dstWords t dst
                       elems := es, pc := t.ctl.pc, posted := posted })

/-- gatom. -/
def execGatom (p : AOp) (l : Place) (z : WD) (f : RmwArgs) (s : State) : Out :=
  s.issue (.gatom p l z f) (fun k t s =>
    gatomBody p l z false (loadDst f.d (sizeRegs (wdSize z))) (s.gatomElems t z f.a.op f.b.op f.c.op f.x) k t s)

/-- gred. -/
def execGred (p : AOp) (l : Place) (z : WD) (f : StArgs) (s : State) : Out :=
  s.issue (.gred p l z f) (fun k t s => gatomBody p l z true .none (s.gatomElems t z f.a.op f.b.op .zero f.x) k t s)

/-! ### An atomic at its slice -/

/-- Carries out a global atomic element on memory (R134, R140). -/
def State.gatomAct (s : State) (k : Nat) (op : AOp) (size : Nat) (dst : Dst) (e : Elem) : State × Elem :=
  if s.physPoisoned e.pa size then
    (if dst = .none then s.modTeam k (fun t => t.recordAtomic e.addr) else s, { e with st := .poisoned })
  else
    let old := s.physRead e.pa size
    let new := if size = 4 then (atomicWord op (BitVec.ofNat 32 old) (e.val.setWidth 32) (e.exp.setWidth 32)).toNat
      else (atomicDWord op (BitVec.ofNat 64 old) (e.val.setWidth 64) e.exp).toNat
    (s.physWrite e.pa size new, { e with got := BitVec.ofNat 128 old, st := .done })

/-! ### The events of elements in flight -/

/-- The request with one element replaced. -/
def Req.setElem (r : Req) (e : Elem) : Req := { r with elems := r.elems.map (fun x => if x.lane = e.lane then e else x) }

/-- The element of a lane that is in transit, and the one that has not landed. -/
def Req.transit? (r : Req) (lane : Nat) : Option Elem := r.elems.find? (fun e => e.lane == lane && e.st == .transit)
def Req.flying? (r : Req) (lane : Nat) : Option Elem := r.elems.find? (fun e => e.lane == lane && e.flying)

/-- Two elements of a size touch a byte in common. -/
def NearLoc.meets (l m : NearLoc) (size : Nat) : Bool :=
  match l, m with
  | .spm c o _, .spm c' o' _ => c == c' && decide (o < o' + size ∧ o' < o + size)
  | .priv i o, .priv i' o' => i == i' && decide (o < o' + size ∧ o' < o + size)
  | _, _ => false

/-- A lower lane's element of the same instruction goes first: of a satom always (R122), of a store where both write a byte
(R127). -/
def laneFirst (kind : ReqKind) (l : NearLoc) (x : Option NearLoc) : Bool :=
  match kind, x with
  | .satom _, some _ => true
  | .store n, some m => l.meets m n
  | _, _ => false

/-- An element may land: the team's earlier accesses to its core or private memory have landed, and so have the lower lanes'
elements that go first (R111, R122, R127). -/
def State.nearFirst (s : State) (f : Frame) (n : Nat) (r : Req) (e : Elem) : Bool :=
  match flyingPlace f r.kind e with
  | none => false
  | some l =>
    !s.homeBusy r.team l n &&
      r.elems.all (fun x => decide (e.lane ≤ x.lane) || !laneFirst r.kind l (flyingPlace f r.kind x))

/-- What an element that reaches its core finds: its grant, or a fault (R102). -/
def State.arrive1 (s : State) (k : Nat) (f : Frame) (kind : ReqKind) (e : Elem) : State × Elem :=
  match elemPlace f kind e with
  | .ok (.spm core off _) => if s.granted f core off then (s, { e with st := .landing }) else s.park k e 0x20
  | _ => (s, e)

/-- One unit of a checked element lands, if it may (R111). -/
def State.land1 (s : State) (f : Frame) (n : Nat) (r : Req) (e : Elem) (w : Nat) : State × Elem :=
  match elemPlace f r.kind e with
  | .ok l =>
    if s.nearFirst f n r e && r.kind.units.contains w && !e.landed.contains w then s.nearUnit r.team r.kind r.dst e l w
    else (s, e)
  | .error _ => (s, e)

/-- Two elements of a load read one scratchpad word, or one dword of a wider load. -/
def NearLoc.sameWord (l m : NearLoc) (size : Nat) : Bool :=
  match l, m with
  | .spm c o _, .spm c' o' _ => c == c' && o / max 4 size == o' / max 4 size
  | _, _ => false

/-- The elements served in the round of one that lands: those of its pass that read the word a load's element reads (R127). -/
def Req.served (r : Req) (f : Frame) (e : Elem) : List Elem :=
  match r.kind, elemPlace f r.kind e with
  | .load size _, .ok l => e :: r.elems.filter (fun x => x.lane != e.lane && x.lane / 32 == e.lane / 32 && x.st == .landing &&
      ((flyingPlace f r.kind x).map (fun m => l.sameWord m size)).getD false)
  | _, _ => [e]

/-- One unit of each of the elements that a round serves lands. -/
def State.landAll (s : State) (f : Frame) (n : Nat) (r : Req) (w : Nat) : List Elem → State × List Elem
  | [] => (s, [])
  | e :: es =>
    let (s1, e1) := s.land1 f n r e w
    let (s2, l) := State.landAll s1 f n r w es
    (s2, e1 :: l)

/-- Replaces several elements of a request. -/
def Req.setElems (r : Req) (es : List Elem) : Req := es.foldl Req.setElem r

/-- WINDOW1_ELEMENT_ARRIVE. An element that reaches its core is checked for its grant, or parks, and the last of an
instruction's elements to be checked forms its entry (R112); an element that has been checked lands, one unit at a time, and
with a load's those that read its word (R127). A store that has been checked lands though its block has ended (R103).
(DEDUCED, log 106) -/
def execWindow1ElementArrive (req elem : Nat) (s : State) : Out :=
  match s.reqs.get? req with
  | none => .next s
  | some r =>
    match s.team? r.team, r.flying? (elem % 1024) with
    | some t, some e =>
      if !r.kind.near || !(s.residentBlock t.block || s.outlives t.block r e) || (e.st == .transit && s.entryWaits r) then .next s
      else
        let f := s.frame t
        let (s1, es) := if e.st = .transit then (fun p => (p.1, [p.2])) (s.arrive1 r.team f r.kind e)
          else s.landAll f req r (elem / 1024) (r.served f e)
        let r1 := { r.setElems es with renew := r.renew || (r.entry.isSome && es.any (fun x => x.parkedCode.isSome)) }
        .next (((State.formEntry { s1 with reqs := s1.reqs.put req r1 } req).tidy req).sweepGrants)
    | _, _ => .next s

/-- Elements of one line take effect in lane order, and in the order of their instructions (R134, R138). -/
def State.lineFirst (s : State) (n : Nat) (r : Req) (e : Elem) : Bool :=
  let same (x : Elem) : Bool := x.st == .transit && lineOf x.pa == lineOf e.pa
  r.elems.all (fun x => decide (e.lane ≤ x.lane) || !same x) &&
    s.reqs.all (fun q => q.2.team != r.team || decide (n ≤ q.1) || (match q.2.kind with
      | .gatom _ _ _ => !q.2.elems.any same
      | _ => true))

/-- Carries out one parked element of a released entry again, from its parked address; none while an element that goes before
it on its line is in transit (R114, R134, R138). -/
def State.replay1 (s : State) (k : Nat) (t : Team) (n : Nat) (r : Req) (e : Elem) : Option (State × Elem) :=
  match r.kind with
  | .gatom op size place =>
    match s.gatomIssue1 k t size e with
    | (s1, e1) =>
      if e1.parkedCode.isSome then some (s1, e1)
      else if !s1.lineFirst n r e1 ||
          (s1.atHome e1.pa (dieOf t.quarter) place && !s1.slotFree (channelOf (lineOf e1.pa)) (s1.tenantIdOf t)) then none
      else some ((s1.touchLine e1.pa (dieOf t.quarter) place).gatomAct k op size r.dst e1)
  | kind => some (s.nearReplay k (s.frame t) kind r.dst e)

/-- An element that faults again at its replay joins the new entry; one some of whose words have landed goes on. -/
def Elem.refault (e : Elem) : Elem :=
  match e.st with
  | .parked c => if e.landed.isEmpty then { e with st := .again c } else e
  | _ => e

/-- The elements that faulted again are parked in the new entry. -/
def Elem.repark (e : Elem) : Elem :=
  match e.st with
  | .again c => { e with st := .parked c }
  | _ => e

/-- Gives a replayed element's lane its data at once (R123). -/
def Team.putLane (t : Team) (r : Req) (e : Elem) : Team :=
  match r.dst, e.st with
  | .v base n, .done => { t with regs := t.regs.putDst e.lane base (r.kind.extend e.got) n }
  | _, _ => t

/-- Replays the lowest parked element of a released entry; the last one ends the entry, and those that faulted again form a new
one (R114, R123). -/
def State.replayNext (s : State) (n : Nat) (r : Req) (t : Team) : State :=
  match r.elems.find? (fun e => e.parkedCode.isSome) with
  | none => s
  | some e =>
    match s.replay1 r.team t n r e with
    | none => s
    | some (s1, e1) =>
      let r1 := r.setElem e1.refault
      let ended := !r1.elems.any (fun x => x.parkedCode.isSome)
      let r2 := if ended then { r1 with elems := r1.elems.map Elem.repark, entry := none, released := false } else r1
      let s2 := (State.modTeam { s1 with reqs := s1.reqs.put n r2 } r.team (fun u => u.putLane r e1)).returnReady n
      if ended then s2.formEntry n else s2

/-- A released entry may go on: the instruction's good near elements have landed (R122, R127), and its team's block is placed,
or an element of it that has begun lands before the save. -/
def State.mayReplay (s : State) (r : Req) : Bool :=
  r.released && !(r.kind.near && r.elems.any Elem.flying) &&
    ((s.team? r.team).map (fun t => ((s.block? t.block).map (fun b => b.st == .placed ||
      (b.st == .saving && r.elems.any Elem.midway))).getD false)).getD false

/-- PARKED_ELEMENT_REPLAY. The next element, or word of one, of a released entry replays. -/
def execParkedElementReplay (team entry : Nat) (s : State) : Out :=
  match s.reqs.find? (fun e => e.2.team == team && e.2.entry == some entry && e.2.released), s.team? team with
  | some (n, r), some t =>
    if !s.mayReplay r then .next s else .next (s.replayNext n r t)
  | _, _ => .next s

/-- A global element's packet enters the fabric: it goes to the line's home slice, which decides the place of an atomic, or to
its own die's for .near; an arld's to the slice that owns the line (R137, R312). (DEDUCED, log 99) -/
def State.injectElem (s : State) (n lane : Nat) : State :=
  match s.reqs.get? n with
  | none => s
  | some r =>
    match s.team? r.team, r.transit? lane with
    | some t, some e =>
      let line := lineOf e.pa
      let die := match r.kind with
        | .gatom _ _ .near => dieOf t.quarter
        | .gatom _ _ _ => homeDie line
        | _ => ((s.lines.get? line).getD {}).owner line
      s.inject (.elem n lane) (((s.block? t.block).map Block.cls).getD 0) (s.tenantIdOf t) t.cluster die line
    | _, _ => s

/-- An atomic at its home slice takes a slot, behind those that go before it on its line. -/
def State.slotElem (s : State) (n lane : Nat) : State :=
  match s.reqs.get? n, s.packetOf (.elem n lane) with
  | some r, some (id, p) =>
    match r.transit? lane with
    | some e => if s.lineFirst n r e then s.takeSlot id p else s
    | none => s
  | _, _ => s

/-- GLOBAL_ATOMIC_EXECUTE. An element takes effect at the slice that owns its line (R137); so is an input of an arld read there
(R312). -/
def execGlobalAtomicExecute (req elem : Nat) (s : State) : Out :=
  match s.reqs.get? req with
  | none => .next s
  | some r =>
    match r.kind, s.team? r.team, r.transit? elem with
    | .gatom op size place, some t, some e =>
      if !s.lineFirst req r e || !s.arrives (.elem req elem) then .next s
      else
        let (s1, e1) := ((s.leaveFabric (.elem req elem)).touchLine e.pa (dieOf t.quarter) place).gatomAct r.team op size r.dst e
        .next (State.tidy { s1 with reqs := s1.reqs.put req (r.setElem e1) } req)
    | .value, some _, some e =>
      if !r.arld || !s.arrives (.elem req elem) then .next s
      else
        let (s1, e1) := (s.leaveFabric (.elem req elem)).readInput r.team e
        .next { s1 with reqs := s1.reqs.put req (r.setElem e1) }
    | _, _, _ => .next s

/-- A request's data for an s register. -/
def Req.uniValue (r : Req) : DWord :=
  match r.kind with
  | .uni x => x
  | _ => (r.elems.headD { lane := 0, addr := 0 }).got.setWidth 64

/-- An atomic's return and a usage counter fill their register whether the team is saved or restored; other returns need a
placed block (R46, R358). -/
def State.returns (s : State) (r : Req) : Bool :=
  match r.kind with
  | .gatom _ _ _ | .satom _ | .uni _ => true
  | _ => ((s.team? r.team).map (fun t => ((s.block? t.block).map (fun b => b.st == .placed)).getD false)).getD false

/-- PRODUCER_RETURN. The data of a destination mask word, or of an s register, arrive once every element of it is settled
(R41, R45). (DEDUCED, log 11) -/
def execProducerReturn (req word : Nat) (s : State) : Out :=
  match s.reqs.get? req with
  | none => .next s
  | some r =>
    if !r.words.contains word || !(r.inWord word).all Elem.settled || !s.returns r then .next s
    else
      let put (f : Team → Team) : Out :=
        let s1 := s.modTeam r.team f
        .next (State.tidy { s1 with reqs := s1.reqs.put req { r with words := r.words.erase word } } req)
      match r.dst, r.kind with
      | .v base _, _ => put (fun t =>
          let t1 := t.returnWord r word
          if r.arld then t1.tagInputs base word r.elems else t1)
      | .s _, .usg _ _ => .next s
      | .s n, _ => put (fun t => t.returnS n r.uniValue (r.elems.any (fun e => e.st == .poisoned)))
      | _, _ => .next s

end Sys2Proof.Machine
end

