-- ==== Sys2Proof/Machine/Matrix.lean ====
section
/-! DEFINITION. The matrix engine: images, contexts and maps (R227 to R236), steps and their exact sums (R237 to R239), fusion
(R240), tiles (R241 to R243), stream control (R245, R246) and the sharing of quadrants (R247). -/

namespace Sys2Proof.Machine

/-! ### Formats and packed lines (R227, R229) -/

/-- The width of an element in bits. -/
def mfmtBits : MFmt → Nat
  | .bf16 | .f16 => 16
  | .e4m3 | .e5m2 | .s8 => 8
  | .e2m3 | .e3m2 => 6
  | .e2m1 | .s4 => 4

/-- The dense depth K_w of a class. -/
def mfmtDepth (f : MFmt) : Nat :=
  match mfmtBits f with
  | 16 => 32
  | 4 => 128
  | _ => 64

def mfmtKind : MFmt → FmtKind
  | .bf16 => .float fBF16 | .f16 => .float fF16 | .e4m3 => .float fE4M3 | .e5m2 => .float fE5M2
  | .e2m3 => .float fE2M3 | .e3m2 => .float fE3M2 | .e2m1 => .float fE2M1 | .s8 => .int 8 true | .s4 => .int 4 true

/-- The bytes of a line of n elements. -/
def lineBytes (f : MFmt) (n : Nat) : Nat := (n * mfmtBits f + 7) / 8

/-- Element k of a packed line: the elements stand bit by bit, lowest first. -/
def packedElem (bs : Array Byte) (start : Nat) (f : MFmt) (k : Nat) : Nat :=
  let w := mfmtBits f
  let at0 := start + k * w / 8
  let lo := ((bs[at0]?).getD 0).toNat + 256 * ((bs[at0 + 1]?).getD 0).toNat
  nfield lo (k * w % 8) w

/-- A format pairs with a context's format (R237, check 3). -/
def mfmtPairs (map ctx : MFmt) : Bool :=
  match map, ctx with
  | .s8, .s8 | .s4, .s4 => true
  | .s8, _ | _, .s8 | .s4, _ | _, .s4 => false
  | a, b =>
    mfmtBits a == mfmtBits b || (mfmtBits a == 8 && mfmtBits b == 6) || (mfmtBits a == 6 && mfmtBits b == 8)

/-! ### Images (R230, R231) -/

/-- Bytes of a column's kept values in a sparse image. -/
def keptBytes (f : MFmt) : Nat := mfmtDepth f / 2 * mfmtBits f / 8

/-- The bytes of an image. -/
def imageBytes (f : MFmt) (sparse : Bool) : Nat :=
  if sparse then 32 * keptBytes f + 32 * (mfmtDepth f / 8) else 32 * (mfmtDepth f * mfmtBits f / 8)

/-- The scale bytes of a tile. -/
def tileScales (f : MFmt) : Nat := 32 * (mfmtDepth f / 32)

/-- The metadata code of group g of column n. -/
def metaCode (c : Context) (bs : Array Byte) (n g : Nat) : Nat :=
  let b := ((bs[32 * keptBytes c.fmt + n * (mfmtDepth c.fmt / 8) + g / 2]?).getD 0).toNat
  if g % 2 = 0 then b % 16 else b / 16

/-- The six legal codes (R220). -/
def legalCode (c : Nat) : Bool := [0x4, 0x8, 0xC, 0x9, 0xD, 0xE].contains c

/-- The weight at depth k of column n, as an element code; none where a sparse group keeps none (R238). -/
def weightCode (c : Context) (bs : Array Byte) (k n : Nat) : Option Nat :=
  if c.sparse then
    let g := k / 4
    let code := metaCode c bs n g
    if k % 4 = code % 4 then some (packedElem bs (n * keptBytes c.fmt) c.fmt (2 * g))
    else if k % 4 = code / 4 then some (packedElem bs (n * keptBytes c.fmt) c.fmt (2 * g + 1))
    else none
  else if c.transposed then some (packedElem bs (k * (32 * mfmtBits c.fmt / 8)) c.fmt n)
  else some (packedElem bs (n * (mfmtDepth c.fmt * mfmtBits c.fmt / 8)) c.fmt k)

/-- The scale of column n at depth k. -/
def weightScale (c : Context) (k n : Nat) : Nat :=
  match c.scales with
  | none => 127
  | some l => ((l[n * (mfmtDepth c.fmt / 32) + k / 32]?).getD 0).toNat

/-! ### A block's quadrants and tiles (R232) -/

/-- The block's quadrants on its stream core. -/
def Block.quads (b : Block) : List Nat := (b.quarters.filter (fun q => coreOf q == b.core)).map (· % 4)

/-- The package quarter of a quadrant of the stream core. -/
def Block.quarterOf (b : Block) (q : Nat) : Nat := 4 * b.core + q

/-- A tile name is the block's. -/
def State.tileOk (s : State) (b : Block) (tile : Nat) : Bool :=
  b.quads.contains (tile / 16) && decide (tile % 16 < ((s.grid? b.grid).map (fun g => g.launch.tiles)).getD 0)

def tileKey (tile row col : Nat) : Nat := 1024 * tile + 32 * row + col

/-- A step in flight writes a tile. -/
def State.stepOn (s : State) (b tile : Nat) (outs : MStep → List Nat) : Bool :=
  s.msteps.any (fun e => e.2.block == b && (outs e.2).contains tile)

/-! ### Fusion (R240) -/

/-- The group that a quadrant leads under an edge code; none when it is fused and does not lead. -/
def fusedGroup (e : BitVec 4) (q : Nat) : Option (List Member) :=
  if e = 0xF then
    if q = 0 then some [⟨0, 0, 0⟩, ⟨1, 32, 0⟩, ⟨2, 0, 1⟩, ⟨3, 32, 1⟩] else none
  else if e = 0x1 ∨ e = 0x2 ∨ e = 0x3 then
    let on := if q < 2 then e.getLsbD 0 else e.getLsbD 1
    if !on then some [⟨q, 0, 0⟩] else if q % 2 = 0 then some [⟨q, 0, 0⟩, ⟨q + 1, 32, 0⟩] else none
  else if e = 0x4 ∨ e = 0x8 ∨ e = 0xC then
    let on := if q % 2 = 0 then e.getLsbD 2 else e.getLsbD 3
    if !on then some [⟨q, 0, 0⟩] else if q < 2 then some [⟨q, 0, 0⟩, ⟨q + 2, 0, 1⟩] else none
  else some [⟨q, 0, 0⟩]

/-- The quadrants an edge code names. -/
def fusedQuads (e : BitVec 4) : List Nat :=
  (List.range 4).filter (fun q => (fusedGroup e q).isNone || ((fusedGroup e q).getD []).length != 1)

/-- The tiles a step of a group writes. -/
def groupTiles (g : List Member) (t : Nat) : List Nat := (g.filter (fun m => m.half == 0)).map (fun m => 16 * m.quad + t)

/-- The tiles a step in flight will write. -/
def MStep.tiles (m : MStep) : List Nat := groupTiles m.group (m.tile % 16)

/-! ### Reading near bytes for the engine -/

/-- The first byte of a list of near addresses that fails R102, as the element code. -/
def State.firstBad (s : State) (f : Frame) : List Word → Option Byte
  | [] => none
  | a :: r =>
    match s.nearCheck f none a 1 with
    | .error c => some c
    | .ok _ => State.firstBad s f r

/-- The addresses of n bytes from an address on. -/
def byteRun (a : Word) (n : Nat) : List Word := (List.range n).map (fun j => a + BitVec.ofNat 32 j)

/-- The byte at a near address, and whether its word is poisoned; 0 where it is refused. -/
def State.nearByte (s : State) (f : Frame) (a : Word) : Byte × Bool :=
  match s.nearCheck f none a 1 with
  | .ok l => (BitVec.ofNat 8 (s.nearRead 0 l 1), s.nearPoisoned l 1)
  | .error _ => (0, false)

/-- The bytes of a run, and whether one of their words is poisoned. -/
def State.nearBytes (s : State) (f : Frame) (a : Word) (n : Nat) : List Byte × Bool :=
  let bs := (byteRun a n).map (s.nearByte f)
  (bs.map Prod.fst, bs.any Prod.snd)

/-- A step's sources are zero, or an address (R234). -/
def State.scaleAddr (s : State) (b : Block) (o : Opnd) : Option Word :=
  match o with
  | .zero => none
  | q => some ((s.streamSrc b q).setWidth 32)

/-- A stream's frame: window 0 is the stream core (R221). -/
def Block.streamFrame (b : Block) (n : Nat) : Frame := b.frame n b.core 0

/-- A stream mrd of the block has not landed. -/
def State.readsOut (s : State) (b : Nat) : Bool := s.mreads.any (fun e => e.2.block == b && e.2.team.isNone)

/-! ### Weights (R235) -/

/-- A weight load of the block on a quadrant has not latched. -/
def State.latchOut (s : State) (b : Nat) (qs : List Nat) : Bool :=
  s.latches.any (fun e => e.2.block == b && e.2.quads.any (fun q => qs.contains q))

/-- mwld and mwld.t: the image is read once, for the contexts of every selected quadrant. -/
def loadWeights (m : MFmt) (sparse transposed : Bool) (qm : BitVec 16) (a b : Opnd) (n : Nat) (x : Block) (_ : Stream)
    (s : State) : Effect :=
  let sel := (List.range 16).filter (fun j => qm.getLsbD j)
  let on := sel.map (fun j => (x.quarters[j]?).map coreOf)
  if sel.isEmpty || on.any (fun c => c != some x.core) then .trap { code := 0x79 }
  else
    let f := x.streamFrame n
    let addr := (s.streamSrc x a).setWidth 32
    let size := imageBytes m sparse
    let sc := s.scaleAddr x b
    let scBytes := (sc.map (fun p => byteRun p (tileScales m))).getD []
    match s.firstBad f (byteRun addr size ++ scBytes) with
    | some c => .trap { code := 0x76, detail := c }
    | none =>
      if s.readsOut n then .wait
      else
        let (image, p) := s.nearBytes f addr size
        let ss := sc.map (fun q => s.nearBytes f q (tileScales m))
        let ctx : Context :=
          { fmt := m, sparse := sparse, image := image, transposed := transposed, scales := ss.map Prod.fst
            poison := p || (ss.map Prod.snd).getD false }
        let (id, s1) := s.fresh
        let l : Latch := { block := n, quads := sel.map (fun j => ((x.quarters[j]?).getD 0) % 4), ctx := ctx }
        .done { s1 with latches := s1.latches.put id l }

/-- mwld. -/
def execMwld (m : MFmt) (sp : Bool) (qm : BitVec 16) (a b : Src) (s : State) : Out :=
  s.issueS (.mwld m sp qm a b) (loadWeights m sp false qm a.op b.op)
/-- mwld.t. -/
def execMwldT (m : MFmt) (qm : BitVec 16) (a b : Src) (s : State) : Out :=
  s.issueS (.mwldT m qm a b) (loadWeights m false true qm a.op b.op)

/-- MWLD_LATCH. The contexts take the load once the steps before it on their quadrants have ended. -/
def execMwldLatch (latch : Nat) (s : State) : Out :=
  match s.latches.get? latch with
  | none => .next s
  | some l =>
    if s.msteps.any (fun e => e.2.block == l.block && e.2.quads.any (fun q => l.quads.contains (q % 4))) ||
        s.latches.any (fun e => e.2.block == l.block && decide (e.1 < latch) && e.2.quads.any (fun q => l.quads.contains q))
    then .next s
    else
      let latched (m : Stream) : Stream := { m with contexts := l.quads.foldl (fun t q => Table.put t q l.ctx) m.contexts }
      let s1 := s.modBlock l.block (fun b => { b with stream := b.stream.map latched })
      .next { s1 with latches := s1.latches.del latch }

/-! ### Maps, clearing and control (R236, R240, R241, R245, R246) -/

/-- mamap. -/
def execMamap (map : Fin 8) (m : MFmt) (tr : Bool) (stride : BitVec 7) (kc : BitVec 8) (a b : Src) (s : State) : Out :=
  s.issueS (.mamap map m tr stride kc a b) (fun n x st s =>
    if 16 * stride.toNat < lineBytes m (if tr then 32 else kc.toNat) then .trap { code := 0x72 }
    else
      let v : MMap := { base := (s.streamSrc x a.op).setWidth 32, scales := s.scaleAddr x b.op, fmt := m, tr := tr
                        stride := 16 * stride.toNat, kc := kc.toNat }
      .done (s.setStream n { st with maps := Table.put st.maps map v }))

/-- mclr. -/
def execMclr (tile : Fin 64) (s : State) : Out :=
  s.issueS (.mclr tile) (fun n x st s =>
    if !s.tileOk x tile then .trap { code := 0x73 }
    else if s.stepOn n tile MStep.tiles then .wait
    else .done (s.setStream n { st with
      tiles := st.tiles.filter (fun e => e.1 / 1024 != tile.val)
      tilePoison := Sparse.set false st.tilePoison tile false }))

/-- mfuse takes effect after every earlier step has ended. -/
def execMfuse (ext : Bool) (e : BitVec 4) (s : State) : Out :=
  s.issueS (.mfuse ext e) (fun n x st s =>
    if (fusedQuads e).any (fun q => !x.quads.contains q) then .trap { code := 0x78 }
    else if s.msteps.any (fun m => m.2.block == n) then .wait
    else .done (s.setStream n { st with fusion := e }))

/-- mprio. -/
def execMprio (ext : Bool) (c : Fin 4) (s : State) : Out :=
  s.issueS (.mprio ext c) (fun n x st s => .done (s.setStream n { st with cls := min c x.cls }))

/-- mloop. -/
def execMloop (f : Cbr) (s : State) : Out :=
  s.issueS (.mloop f) (fun n x st s =>
    let next := st.pc + BitVec.ofNat 64 (Instr.size (.mloop f))
    let go (rest : List (DWord × Nat)) (rem : Nat) : Effect :=
      let st1 : Stream :=
        if 0 < rem then { st with loops := (st.pc, rem) :: rest, pc := st.pc + 4 * f.off.signExtend 64 }
        else { st with loops := rest, pc := next }
      .jump (s.setStream n st1)
    match st.loops with
    | (p, rem) :: rest =>
      if p = st.pc then go rest (rem - 1)
      else if 4 ≤ st.loops.length then .trap { code := 0x75 }
      else go st.loops (max (field (s.streamSrc x f.b.op) 0 32) 1 - 1)
    | [] => go [] (max (field (s.streamSrc x f.b.op) 0 32) 1 - 1))

/-! ### Steps (R237) -/

/-- What a step is: the tile it writes, its map, its K offset, and the form. -/
structure StepArgs where
  tile : Nat
  map : Nat
  z : Bool
  x : BitVec 21
  sparse : Bool
  deriving DecidableEq, Repr

/-- The near addresses of an activation line. -/
def MMap.line (m : MMap) (j : Nat) : List Word :=
  byteRun (m.base + BitVec.ofNat 32 (j * m.stride)) (lineBytes m.fmt (if m.tr then 32 else m.kc))

/-- How many lines a map reads. -/
def MMap.lines (m : MMap) : Nat := if m.tr then m.kc else 32

/-- The near addresses of the activation scales. -/
def MMap.scaleRun (m : MMap) : List Word :=
  match m.scales with
  | none => []
  | some a => byteRun a (32 * ((m.kc + 31) / 32))

/-- Checks 1 to 3 of a step (R237), giving its group, its map and the contexts of the group. -/
def State.stepParts (s : State) (x : Block) (st : Stream) (a : StepArgs) :
    Except Trap (List Member × MMap × List (Member × Context)) :=
  if !s.tileOk x a.tile then .error { code := 0x73 }
  else match fusedGroup st.fusion (a.tile / 16) with
    | none => .error { code := 0x78 }
    | some g =>
      match Table.get? st.maps a.map with
      | none => .error { code := 0x74 }
      | some m =>
        let cs := g.filterMap (fun u => (Table.get? st.contexts u.quad).map (fun c => (u, c)))
        if cs.length ≠ g.length ∨ cs.any (fun c => c.2.sparse != a.sparse) then .error { code := 0x71 }
        else if cs.any (fun c => !mfmtPairs m.fmt c.2.fmt) then .error { code := 0x71 }
        else if cs.any (fun c => some c.2.fmt != (cs.head?).map (fun d => d.2.fmt)) then .error { code := 0x78 }
        else if cs.any (fun c => c.2.poison) then .error { code := 0x77 }
        else .ok (g, m, cs)

/-- Check 4: the K range. (DEDUCED, log 44) -/
def rangeOk (a : StepArgs) (g : List Member) (m : MMap) (cs : List (Member × Context)) : Bool :=
  let f := ((cs.head?).map (fun c => c.2.fmt)).getD .bf16
  let d := if g.any (fun u => u.half == 1) then 2 * mfmtDepth f else mfmtDepth f
  let x := a.x.toNat
  let mult (n : Nat) : Bool := x % n == 0 && m.kc % n == 0
  !a.x.msb && decide (x + m.kc ≤ d) &&
    (!(a.sparse || mfmtBits f == 6 || mfmtBits m.fmt == 6) || mult 4) && (mfmtBits f != 4 || mult 2) &&
    (!(m.scales.isSome || cs.any (fun c => c.2.scales.isSome)) || mult 32)

/-- Check 5: the lowest column, and in it the lowest group, with an illegal code. -/
def badMeta (a : StepArgs) (m : MMap) (cs : List (Member × Context)) : Option (Nat × Nat × Nat) :=
  let x := a.x.toNat
  let groups := (List.range (m.kc / 4)).map (fun j => x / 4 + j)
  let arr := cs.map (fun c => (c.1, c.2, c.2.image.toArray))
  (List.range 64).findSome? (fun n =>
    groups.findSome? (fun g =>
      arr.findSome? (fun c =>
        let per := mfmtDepth c.2.1.fmt / 4
        if c.1.col = n / 32 * 32 ∧ c.1.half = g / per then
          let code := metaCode c.2.1 c.2.2 (n % 32) (g % per)
          if legalCode code then none else some (n, g, code)
        else none)))

/-- Check 6: the element code of the first operand byte that fails. (DEDUCED, log 23) -/
def State.operandBad (s : State) (f : Frame) (m : MMap) : Option Byte :=
  match nearPlace f none m.base 1 with
  | .error 0x23 => some 0x23
  | .error 0x25 => some 0x25
  | _ =>
    if m.base.toNat % 4 ≠ 0 then some 0x24
    else s.firstBad f ((List.range m.lines).flatMap m.line ++ m.scaleRun)

/-- The checks of a step, in order. -/
def State.stepCheck (s : State) (n : Nat) (x : Block) (st : Stream) (a : StepArgs) : Except Trap (List Member × MMap) :=
  match s.stepParts x st a with
  | .error t => .error t
  | .ok (g, m, cs) =>
    if !rangeOk a g m cs then .error { code := 0x72 }
    else match (if a.sparse then badMeta a m cs else none) with
      | some (c, g, code) =>
        .error { code := 0x70, detail := BitVec.ofNat 8 code, aux := BitVec.ofNat 64 (c * 256 + g) }
      | none =>
        match s.operandBad (x.streamFrame n) m with
        | some c => .error { code := 0x76, detail := c }
        | none => .ok (g, m)

/-- No running step holds a quarter. -/
def State.quadFree (s : State) (quarter : Nat) : Bool :=
  !s.msteps.any (fun e => e.2.running && e.2.quads.contains quarter)

/-- The key of a block's latest grant of a quadrant. -/
def grantKey (block quarter : Nat) : Nat := 2048 * block + quarter

/-- The scratchpad byte of a near address that has been checked. -/
def nearKey (f : Frame) (e : Word) : Nat :=
  match nearPlace f none e 1 with
  | .ok (.spm core off _) => spmKey core off
  | _ => 0

/-- A tile a step accumulates on has met an error (R251). -/
def MStep.tileBad (m : MStep) (st : Stream) : Bool :=
  !m.z && m.group.any (fun u => u.half == 0 && Sparse.get false st.tilePoison (16 * u.quad + m.tile % 16))

/-- Starts a step: it holds its quadrants until it ends, and reads its operands meanwhile. An error that stands in an operand
or in a tile it accumulates on stops it (R237, R251). (DEDUCED, log 45) -/
def State.startStep (s : State) (n : Nat) (x : Block) (id : Nat) (m : MStep) : Except Trap State :=
  let f := x.streamFrame n
  let run (l : List Word) : List (Nat × Option Byte) := l.map (fun e => (nearKey f e, none))
  let bad (l : List Word) : Bool := l.any (fun e => (s.nearByte f e).2)
  let rd := (List.range m.map.lines).map m.map.line
  if rd.any bad || bad m.map.scaleRun || (x.stream.map m.tileBad).getD false then .error { code := 0x77 }
  else
    let m1 := { m with running := true, lines := rd.map run, scales := run m.map.scaleRun }
    .ok { s with
      msteps := s.msteps.put id m1
      quadLast := m.quads.foldl (fun t q => Sparse.set 0 t (grantKey n q) (s.nextId + 1)) s.quadLast
      nextId := s.nextId + 1 }

/-! ### The operands of a running step (R249) -/

/-- The scratchpad words of a step that have not been read. -/
def MStep.unread (m : MStep) : List Nat :=
  ((m.lines.flatten ++ m.scales).filter (fun e => e.2.isNone)).map (fun e => e.1 / 4)

/-- Reads some of a step's words, each whole and once, at least one of those left. -/
def State.readStep (s : State) (draw : Nat) (m : MStep) : MStep :=
  let first := m.unread.headD 0
  let now (e : Nat × Option Byte) : Bool := e.2.isNone && (e.1 / 4 == first || Config.pickWord draw (e.1 / 4))
  let rd (e : Nat × Option Byte) : Nat × Option Byte := if now e then (e.1, some (Memory.byte s.spm e.1)) else e
  let poisoned (e : Nat × Option Byte) : Bool := now e && Sparse.get false s.spmPoison (e.1 / 4)
  { m with
    lines := m.lines.map (fun l => l.map rd)
    scales := m.scales.map rd
    bad := m.bad || m.lines.any (fun l => l.any poisoned) || m.scales.any poisoned }

/-! ### Sharing the quadrants (R247) -/

/-- The latest grant of a step's sequencer on its first quadrant. -/
def State.lastGrant (s : State) (m : MStep) : Nat := Sparse.get 0 s.quadLast (grantKey m.block (m.quads.headD 0))

/-- A waiting step goes before another: passed over 64 times, then by class, then the sequencer granted longer ago. -/
def State.stepBefore (s : State) (a b : Nat × MStep) : Bool :=
  let pa := decide (64 ≤ a.2.passed)
  let pb := decide (64 ≤ b.2.passed)
  if pa != pb then pa
  else if a.2.cls ≠ b.2.cls && !pa then decide (b.2.cls < a.2.cls)
  else if s.lastGrant a.2 ≠ s.lastGrant b.2 then decide (s.lastGrant a.2 < s.lastGrant b.2)
  else decide (a.1 ≤ b.1)

/-- A block is on the machine and not being saved. -/
def State.placedBlock (s : State) (b : Nat) : Bool := ((s.block? b).map (fun x => x.st == .placed)).getD false

/-- Two steps need a quadrant in common. -/
def MStep.shares (a b : MStep) : Bool := a.quads.any (fun q => b.quads.contains q)

/-- A step may start: its block is not being saved, its quadrants are free, and no step passed over 64 times keeps one of
them (R247, R248). -/
def State.mayStart1 (s : State) (e : Nat × MStep) : Bool :=
  s.placedBlock e.2.block && e.2.quads.all s.quadFree &&
    !s.msteps.any (fun a => a.1 != e.1 && !a.2.running && decide (64 ≤ a.2.passed) && s.placedBlock a.2.block &&
      a.2.shares e.2 && s.stepBefore a e)

/-- Counts a step's start against the waiting steps of lower classes that it passes over. -/
def State.passOver (s : State) (id : Nat) (m : MStep) : State :=
  { s with msteps := s.msteps.map (fun e =>
      if !e.2.running && e.1 != id && decide (e.2.cls < m.cls) && e.2.shares m then (e.1, { e.2 with passed := e.2.passed + 1 })
      else e) }

/-- The arguments a waiting step was issued with. -/
def MStep.args (m : MStep) (map : Nat) : StepArgs :=
  { tile := m.tile, map := map, z := m.z, x := BitVec.ofNat 21 m.x, sparse := m.sparse }

/-- mmul and mmsp: with its quadrants free the step starts; else it waits to be granted them (R239, R247). -/
def stepBody (a : StepArgs) (n : Nat) (x : Block) (st : Stream) (s : State) : Effect :=
  let qs := ((fusedGroup st.fusion (a.tile / 16)).getD []).map Member.quad
  if s.latchOut n qs then .wait
  else match s.stepCheck n x st a with
    | .error t => .trap t
    | .ok (g, m) =>
      let (id, s1) := s.fresh
      let step : MStep := { block := n, quads := g.map (fun u => x.quarterOf u.quad), cls := st.cls, group := g
                            tile := a.tile, mapNo := a.map, map := m, z := a.z, x := a.x.toNat, sparse := a.sparse
                            pc := st.pc }
      if s.mayStart1 (id, step) then
        match (s1.passOver id step).startStep n x id step with
        | .error t => .trap t
        | .ok s2 => .done s2
      else .jump { s1 with msteps := s1.msteps.put id step }

/-- mmul. -/
def execMmul (tile : Fin 64) (map : Fin 8) (z : Bool) (x : BitVec 21) (s : State) : Out :=
  s.issueS (.mmul tile map z x) (stepBody { tile := tile, map := map, z := z, x := x, sparse := false })
/-- mmsp. -/
def execMmsp (tile : Fin 64) (map : Fin 8) (z : Bool) (x : BitVec 21) (s : State) : Out :=
  s.issueS (.mmsp tile map z x) (stepBody { tile := tile, map := map, z := z, x := x, sparse := true })

/-! ### The sum of a step -/

/-- The activation (row, k) of the lines read. -/
def MStep.act (m : MStep) (ls : Array (Array Byte)) (row k : Nat) : FVal :=
  let (line, el) := if m.map.tr then (k, row) else (row, k)
  element (mfmtKind m.map.fmt) (packedElem ((ls[line]?).getD #[]) 0 m.map.fmt el)

/-- The scale of an activation. -/
def MStep.actScale (m : MStep) (row k : Nat) : Nat :=
  match m.map.scales with
  | none => 127
  | some _ => (((m.scales[row * ((m.map.kc + 31) / 32) + k / 32]?).bind Prod.snd).getD 0).toNat

/-- A product of a weight's kind with its two scales. -/
def scaledProduct (kind : FmtKind) (a w : FVal) (sa sw : Nat) : Prod :=
  match kind.mul a w with
  | .invalid => .invalid
  | .val v =>
    match v.mul (scaleVal sa) with
    | .invalid => .invalid
    | .val u => u.mul (scaleVal sw)

/-- The products of an output element: row, and column within the output quadrant; `cs` holds the contexts that feed the
column, by depth half. -/
def MStep.products (m : MStep) (ls : Array (Array Byte)) (cs : List (Nat × Context × Array Byte)) (row col : Nat) :
    List Prod :=
  (List.range m.map.kc).filterMap (fun k =>
    let depth := m.x + k
    cs.findSome? (fun c =>
      let kw := mfmtDepth c.2.1.fmt
      if c.1 = depth / kw then
        (weightCode c.2.1 c.2.2 (depth % kw) col).map (fun w =>
          scaledProduct (mfmtKind c.2.1.fmt) (m.act ls row k) (element (mfmtKind c.2.1.fmt) w) (m.actScale row k)
            (weightScale c.2.1 (depth % kw) col))
      else none))

/-- One output element: the tile's value, or +0, and the exact sum, rounded once. -/
def MStep.out (m : MStep) (ls : Array (Array Byte)) (cs : List (Nat × Context × Array Byte)) (old : Word) (row col : Nat) :
    Word :=
  let acc := if m.z then FVal.fin false 0 0 else fF32.decode old.toNat
  BitVec.ofNat 32 (fF32.sumVals (.val acc :: m.products ls cs row col) false .rn).1

/-- The elements of one output tile. -/
def MStep.tileOut (m : MStep) (st : Stream) (u : Member) : List (Nat × Word) :=
  let ls := (m.lines.map (fun l => (l.map (fun e => e.2.getD 0)).toArray)).toArray
  let cs := (m.group.filter (fun v => v.col == u.col)).filterMap (fun v =>
    (Table.get? st.contexts v.quad).map (fun c => (v.half, c, c.image.toArray)))
  let tile := 16 * u.quad + m.tile % 16
  (List.range 32).flatMap (fun r => (List.range 32).map (fun c =>
    (tileKey tile r c, m.out ls cs (Sparse.get 0 st.tiles (tileKey tile r c)) r c)))

/-- Writes elements of tiles. -/
def putElems (t : Sparse Word) : List (Nat × Word) → Sparse Word
  | [] => t
  | (k, x) :: r => putElems (Sparse.set 0 t k x) r

/-- The stream after a step has written its tiles, which clears an error in them. -/
def MStep.finish (m : MStep) (st : Stream) : Stream :=
  let us := m.group.filter (fun u => u.half == 0)
  { st with
    tiles := putElems st.tiles (us.flatMap (m.tileOut st))
    tilePoison := us.foldl (fun p u => Sparse.set false p (16 * u.quad + m.tile % 16) false) st.tilePoison }

/-! ### Granting (R247) -/

/-- The waiting steps that may start. -/
def State.readySteps (s : State) : List (Nat × MStep) := s.msteps.filter (fun e => !e.2.running && s.mayStart1 e)

/-- The ready step that is granted its quadrants next. -/
def State.nextStep (s : State) : Option (Nat × MStep) :=
  let rs := s.readySteps
  rs.find? (fun a => rs.all (fun b => s.stepBefore a b))

/-- The size of a step's instruction, which exists in the extended form only. -/
def stepSize : Nat := 12

/-- Grants a waiting step its quadrants: its checks are made again, and it starts, or its stream traps. -/
def State.grantStep1 (s : State) (id : Nat) (m : MStep) : State :=
  let s1 := s.passOver id m
  match s1.block? m.block with
  | none => { s1 with msteps := s1.msteps.del id }
  | some x =>
    match x.stream with
    | none => { s1 with msteps := s1.msteps.del id }
    | some st =>
      let fail (t : Trap) : State := State.takeStreamTrap { s1 with msteps := s1.msteps.del id } m.block stepSize t
      match s1.stepCheck m.block x st (m.args m.mapNo) with
      | .error t => fail t
      | .ok _ =>
        match s1.startStep m.block x id m with
        | .error t => fail t
        | .ok s2 => s2.advanceStream m.block stepSize

/-- Grants free quadrants to the ready steps, one after another. -/
def State.grantSteps (s : State) : Nat → State
  | 0 => s
  | n + 1 =>
    match s.nextStep with
    | none => s
    | some (id, m) => State.grantSteps (s.grantStep1 id m) n

/-- A step without its effect: an operand word it read was poisoned, and its stream traps (R237). -/
def State.failStep (s : State) (m : MStep) : State := s.takeStreamTrap m.block stepSize { code := 0x77, pc := some m.pc }

/-- A step's effect: its tiles are written at one instant. -/
def State.endStep (s : State) (m : MStep) : State :=
  { s.modBlock m.block (fun b => { b with stream := b.stream.map m.finish }) with
    usage := bumpUsage s.usage (s.tenantOfBlock m.block) 1 m.quads.length }

/-- MATRIX_STEP_END. A running step reads words of its operands; once it has read them all it ends, and its quadrants are
granted to the steps that wait. -/
def execMatrixStepEnd (step : Nat) (s : State) : Out :=
  match s.msteps.get? step with
  | none => .next s
  | some m =>
    if !m.running then .next s
    else if !m.unread.isEmpty then
      .next { s with msteps := s.msteps.put step (s.readStep s.draws m), draws := s.draws + 1 }
    else
      let s1 := { s with msteps := s.msteps.del step }
      let s2 := if m.bad then s1.failStep m else s1.endStep m
      .next (s2.grantSteps s2.msteps.length)

/-- MATRIX_STARVATION_GRANT. The step that goes next is granted its quadrants, which have come free. -/
def execMatrixStarvationGrant (step : Nat) (s : State) : Out :=
  match s.nextStep with
  | some (id, m) => if id = step then .next (s.grantStep1 id m) else .next s
  | none => .next s

/-! ### Tiles to scratchpad and to registers (R242, R243) -/

/-- The bytes of an element of mrd. -/
def rdSize : RdFmt → Nat
  | .f32 => 4
  | .bf16 | .f16 => 2

/-- A tile element as mrd writes it. -/
def rdConvert (m : RdFmt) (r : Rm) (x : Word) : Nat :=
  match m with
  | .f32 => x.toNat
  | .bf16 => (toFloat fBF16 (fF32.decode x.toNat) r .nosat 0).1
  | .f16 => (toFloat fF16 (fF32.decode x.toNat) r .nosat 0).1

/-- A row of a tile as mrd writes it. -/
def rdRow (m : RdFmt) (r : Rm) (st : Stream) (tile row : Nat) : List Byte :=
  (List.range 32).flatMap (fun c =>
    let v := rdConvert m r (Sparse.get 0 st.tiles (tileKey tile row c))
    (List.range (rdSize m)).map (fun j => BitVec.ofNat 8 (v / 256 ^ j)))

/-- The first word an mrd writes that fails R102. -/
def State.rdBad (s : State) (f : Frame) (e : Word) (stride size : Nat) : Option Byte :=
  ((List.range 32).flatMap (fun m => (List.range (8 * size)).map (fun j => e + BitVec.ofNat 32 (m * stride + 4 * j)))).findSome?
    (fun a => match s.nearCheck f none a 4 with
      | .error c => some c
      | .ok _ => none)

/-- The write of a tile, on its way. -/
def tileWrite (m : RdFmt) (r : Rm) (f : Frame) (n : Nat) (team : Option Nat) (st : Stream) (tile stride : Nat) (e : Word) :
    MRead :=
  { block := n, team := team
    core := match nearPlace f none e 4 with
      | .ok (.spm core _ _) => core
      | _ => f.core
    rows := (List.range 32).map (fun k => (f.p + (field e 0 20 + k * stride), rdRow m r st tile k)) }

/-- The checks of mrd before it reads its tile. -/
def State.rdCheck (s : State) (m : RdFmt) (f : Frame) (x : Block) (tile stride : Nat) (e : Word) : Except Trap Unit :=
  if !s.tileOk x tile then .error { code := 0x73 }
  else match s.rdBad f e stride (rdSize m) with
    | some c => .error { code := 0x76, detail := c }
    | none => .ok ()

/-- Reads a tile for mrd: its checks in order, and the write. -/
def State.tileRead (s : State) (m : RdFmt) (r : Rm) (f : Frame) (n : Nat) (x : Block) (st : Stream) (team : Option Nat)
    (tile stride : Nat) (e : Word) : Except Trap MRead :=
  match s.rdCheck m f x tile stride e with
  | .error t => .error t
  | .ok _ =>
    if Sparse.get false st.tilePoison tile then .error { code := 0x77 }
    else .ok (tileWrite m r f n team st tile stride e)

/-- The block of a team that stands on its block's stream core (R232). -/
def State.streamOf (s : State) (t : Team) : Option (Block × Stream) :=
  match s.block? t.block with
  | none => none
  | some x => if x.core = t.core then x.stream.map (fun m => (x, m)) else none

/-- A source the stream has: it has no s registers (R221). -/
def streamSource : Opnd → Bool
  | .s _ => false
  | _ => true

/-- mrd: in the stream it reads its tile once the earlier steps on it have ended (R242). -/
def execMrd (m : RdFmt) (r : Rm) (stride : BitVec 7) (a : Src) (tile : Fin 64) (x : BitVec 21) (s : State) : Out :=
  s.issueBoth (.mrd m r stride a tile x)
    (fun k t s =>
      match s.streamOf t with
      | none => .trap { code := 0x73 }
      | some (b, st) =>
        match s.tileRead m r (s.frame t) t.block b st (some k) tile (16 * stride.toNat) (s.uni t a.op |>.setWidth 32 |> (· + x.signExtend 32)) with
        | .error e => .trap e
        | .ok w =>
          if 255 ≤ t.count.matrix then .wait
          else
            let (id, s1) := s.fresh
            let counted (u : Team) : Team :=
              { u with count := { u.count with matrix := u.count.matrix + 1 }, issued := (.matrix, id) :: u.issued }
            let s2 := s1.modTeam k counted
            .done { s2 with mreads := s2.mreads.put id w })
    (fun n b st s =>
      if !streamSource a.op then .trap { code := 0x02 }
      else
        let e := (s.streamSrc b a.op).setWidth 32 + x.signExtend 32
        match s.rdCheck m (b.streamFrame n) b tile (16 * stride.toNat) e with
        | .error t => .trap t
        | .ok _ =>
          if s.stepOn n tile MStep.tiles then .wait
          else match s.tileRead m r (b.streamFrame n) n b st none tile (16 * stride.toNat) e with
            | .error t => .trap t
            | .ok w =>
              let (id, s1) := s.fresh
              .done { s1 with mreads := s1.mreads.put id w })

/-- mtov. -/
def execMtov (d : Opnd) (tile : Fin 64) (b : Src) (s : State) : Out :=
  s.issue (.mtov d tile b) (fun k t s =>
    match s.streamOf t with
    | none => .trap { code := 0x73 }
    | some (x, st) =>
      let row := field (s.uni t b.op) 0 32
      if !s.tileOk x tile || decide (32 ≤ row) then .trap { code := 0x73 }
      else if Sparse.get false st.tilePoison tile then .trap { code := 0x77 }
      else laneBody d (fun n => Sparse.get 0 st.tiles (tileKey tile row (n % 32))) k t s)

end Sys2Proof.Machine
end

