-- ==== Sys2Proof/Machine/Barriers.lean ====
section
/-! DEFINITION. Barriers (R222, R223, R244, R266 to R269), fences (R271, R339, R340), the grid-wide barrier (R270) and
cwait (R262). -/

namespace Sys2Proof.Machine

/-! ### Barriers -/

/-- A barrier: a named one of a core, or an object in a core's scratchpad (R222, R267). -/
inductive BarRef where
  | named (core n : Nat)
  | object (core off : Nat)
  deriving DecidableEq, Repr

/-- The barrier a value names, or the element code of R102 that refuses its object (R222, R267). -/
def State.barRef (s : State) (f : Frame) (v : DWord) : Except Byte BarRef :=
  let e : Word := v.setWidth 32
  if e.toNat < 64 then .ok (.named f.core e.toNat)
  else match s.nearCheck f none e 16 with
    | .ok (.spm core off _) => .ok (.object core off)
    | .ok (.priv _ _) => .error 0x25
    | .error c => .error c

/-- The key of a named barrier. -/
def barKey (core n : Nat) : Nat := 64 * core + n

/-- A barrier object's fields, from its 16 bytes (R267). -/
def barDecode (x : Nat) : Barrier :=
  { land := nfield x 0 32, xb := nfield x 32 32, xa := nfield x 64 16, ar := nfield x 80 16
    cred := nfield x 96 12, pn := nfield x 112 16 }

/-- A barrier object's 16 bytes; the reserved bits keep what they hold. -/
def barEncode (b : Barrier) (old : Nat) : Nat :=
  b.land + 2 ^ 32 * b.xb + 2 ^ 64 * b.xa + 2 ^ 80 * b.ar + 2 ^ 96 * b.cred + 2 ^ 108 * nfield old 108 4 + 2 ^ 112 * b.pn

def State.bar (s : State) : BarRef → Barrier
  | .named core n => Sparse.get {} s.bars (barKey core n)
  | .object core off => barDecode (Memory.read s.spm (spmKey core off) 16)

def State.setBar (s : State) (r : BarRef) (b : Barrier) : State :=
  match r with
  | .named core n => { s with bars := Sparse.set {} s.bars (barKey core n) b }
  | .object core off =>
    s.nearWrite 0 (.spm core off false) 16 (barEncode b (Memory.read s.spm (spmKey core off) 16))

/-- A barrier as a block finds it (R266). -/
inductive BarHold where
  | mine | foreign | uninit
  deriving DecidableEq, Repr

def barHold (b : Barrier) (r : BarRef) (block : Nat) : BarHold :=
  match r with
  | .named _ _ =>
    match b.owner with
    | none => .uninit
    | some o => if o = block then .mine else .foreign
  | .object _ _ => if b.xa = 0 then .uninit else .mine

/-- The test of R268: a phase completes when both counts meet their targets. -/
def Barrier.test (b : Barrier) : Barrier :=
  if b.ar = b.xa ∧ b.land = b.xb then { b with ar := 0, land := 0, xb := 0, pn := (b.pn + 1) % 2 ^ 16 } else b

/-- Phase m has completed (R268). -/
def Barrier.passed (b : Barrier) (m : Nat) : Bool := decide ((b.pn + 2 ^ 16 - m % 2 ^ 16 + (2 ^ 16 - 1)) % 2 ^ 16 < 2 ^ 15)

/-- bar.init. -/
def Barrier.init (b : Barrier) (h : BarHold) (block n : Nat) (named : Bool) : Except Trap Barrier :=
  if h = .foreign then .error { code := 0x81 }
  else if n < 1 ∨ 65535 < n then .error { code := 0x82 }
  else if b.ar ≠ 0 ∨ b.land ≠ 0 ∨ b.xb ≠ 0 ∨ b.cred ≠ 0 then .error { code := 0x83 }
  else .ok { owner := if named then some block else none, xa := n }

/-- bar.exp: the expected bytes change by n. -/
def Barrier.expect (b : Barrier) (h : BarHold) (n : Int) : Except Trap Barrier :=
  if h ≠ .mine then .error { code := 0x81 }
  else if b.xb + n < 0 ∨ (2 : Int) ^ 32 ≤ b.xb + n then .error { code := 0x82 }
  else .ok ({ b with xb := (b.xb + n).toNat }).test

/-- bar.arr: n arrivals. -/
def Barrier.arrive (b : Barrier) (h : BarHold) (n : Nat) : Except Trap Barrier :=
  if h ≠ .mine then .error { code := 0x81 }
  else if n < 1 ∨ b.xa < b.ar + n then .error { code := 0x82 }
  else .ok ({ b with ar := b.ar + n }).test

/-- A credit of c landed bytes (R261, R268). -/
def Barrier.credit (b : Barrier) (c : Nat) : Barrier := ({ b with land := (b.land + c) % 2 ^ 32 }).test

def BarRef.isNamed : BarRef → Bool
  | .named _ _ => true
  | .object _ _ => false

/-- A barrier operation of a block: the barrier after it, or its trap. (DEDUCED, log 47) -/
def State.barOp (s : State) (f : Frame) (v : DWord) (op : Barrier → BarHold → Bool → Except Trap Barrier) :
    Except Trap State :=
  match s.barRef f v with
  | .error c => .error { code := 0x84, detail := c }
  | .ok r =>
    let b := s.bar r
    match op b (barHold b r f.block) r.isNamed with
    | .error t => .error t
    | .ok b1 => .ok (s.setBar r b1)

/-- The key of a named barrier; none for an object. -/
def BarRef.key : BarRef → Option Nat
  | .named core n => some (barKey core n)
  | .object _ _ => none

/-- A wait for a phase, of a barrier the block owns or one not initialised, which holds while the phase has not completed: its
test, and the named barrier that is not initialised (R266). -/
def State.barWaits (s : State) (f : Frame) (v : DWord) (m : Nat) : Except Trap (Bool × Option Nat) :=
  match s.barRef f v with
  | .error c => .error { code := 0x84, detail := c }
  | .ok r =>
    let b := s.bar r
    match barHold b r f.block with
    | .foreign => .error { code := 0x81 }
    | .uninit => .ok (!b.passed m, r.key)
    | .mine => .ok (!b.passed m, none)

/-- Takes trap 0x81 of the waits on a named barrier that another block has just come to own (R266). -/
def State.trapTeams (s : State) : List Nat → State
  | [] => s
  | k :: r => State.trapTeams ((s.modTeam k (fun t => { t with waitBar := none })).takeTrap k 0 { code := 0x81 }) r

def State.trapStreams (s : State) : List Nat → State
  | [] => s
  | b :: r =>
    let s1 := s.modBlock b (fun x => { x with stream := x.stream.map (fun m => { m with waiting := none }) })
    State.trapStreams (s1.takeStreamTrap b 0 { code := 0x81 } true) r

/-- The waits of other blocks on a barrier that a block has initialised trap at that moment; those of saved blocks are tested
afresh at their restore. -/
def State.trapWaits (s : State) (block key : Nat) : State :=
  let open_ (b : Nat) : Bool := b != block && ((s.block? b).map (fun x => x.st == .placed)).getD false
  let ks := s.teams.keys (fun t => t.waitBar == some key && t.st == .running && open_ t.block)
  let bs := (s.blocks.filter (fun e => open_ e.1 &&
    (e.2.stream.map (fun m => m.waiting == some key && !m.halted)).getD false)).map Prod.fst
  (s.trapTeams ks).trapStreams bs

/-- An operation that has an effect or traps. -/
def doneOr : Except Trap State → Effect
  | .error t => .trap t
  | .ok s => .done s

/-- B + X (R268). -/
def State.barArg (s : State) (t : Team) (f : StArgs) : DWord := s.uni t f.b.op + f.x.signExtend 64

/-- bar.init. -/
def execBarInit (f : StArgs) (s : State) : Out :=
  s.issue (.barInit f) (fun _ t s =>
    match s.barOp (s.frame t) (s.uni t f.a.op) (fun b h named => b.init h t.block (s.barArg t f).toNat named) with
    | .error e => .trap e
    | .ok s1 =>
      match s.barRef (s.frame t) (s.uni t f.a.op) with
      | .ok (.named core n) => .done (s1.trapWaits t.block (barKey core n))
      | _ => .done s1)

/-- bar.exp. -/
def execBarExp (f : StArgs) (s : State) : Out :=
  s.issue (.barExp f) (fun _ t s =>
    doneOr (s.barOp (s.frame t) (s.uni t f.a.op) (fun b h _ => b.expect h ((s.barArg t f).setWidth 32).toInt)))

/-- bar.wait. -/
def execBarWait (f : StArgs) (s : State) : Out :=
  s.issue (.barWait f) (fun k t s =>
    match s.barWaits (s.frame t) (s.uni t f.a.op) ((s.barArg t f).toNat % 2 ^ 16) with
    | .error e => .trap e
    | .ok (true, key) => if t.waitBar = key then .wait else .jump (s.setTeam k { t with waitBar := key })
    | .ok (false, _) => .done (s.setTeam k { t with waitBar := none }))

/-! ### Fences -/

/-- The trap a team owes at a fence: 0x35 for the atomic-error flag, then 0x86 for the engine-error flag; raising it clears
the flag (R141, R256, R271). -/
def State.owedTrap (s : State) (k : Nat) (t : Team) (kind : Nat) : Option State :=
  match t.atomErr, t.engErr with
  | some e, _ => some ((s.modTeam k (fun u => { u with atomErr := none })).takeTrap k kind
      { code := 0x35, addr := e.addr, aux := e.val })
  | none, some e => some ((s.modTeam k (fun u => { u with engErr := none })).takeTrap k kind { code := 0x86, aux := e.val })
  | none, none => none

/-- A request of the team whose accesses have not taken effect: atomics in flight, with a destination or posted; header
loads; region inputs. -/
def Req.unserved (r : Req) : Bool :=
  match r.kind with
  | .gatom _ _ _ => r.elems.any (fun e => e.st == .transit)
  | .hld _ _ => true
  | _ => r.arld && !r.words.isEmpty

/-- The posted gred elements of a team have not all taken effect (R134). -/
def State.postedOut (s : State) (k : Nat) : Bool := s.reqs.any (fun r => r.2.team == k && r.2.posted && r.2.unserved)

/-- An access of a team that fence.die waits for besides scratchpad and private ones has not taken effect (R339). -/
def State.globalOut (s : State) (k : Nat) : Bool := s.reqs.any (fun r => r.2.team == k && r.2.unserved)

/-- The scopes that wait for global accesses too. -/
def scopeWide : Scope → Bool
  | .lane | .team | .block => false
  | .die | .device | .system => true

/-- What a scope waits for besides the conditions of R271 (R339). -/
def State.scopeOut (s : State) (k : Nat) (c : Scope) : Bool := (c != .lane && s.nearOut k) || (scopeWide c && s.globalOut k)

/-- What a fence of a team does: the trap it owes, a wait, or its completion (R271, R339). An element whose grant has not been
checked keeps its place of the replay queue, since it may yet park. (DEDUCED, log 19) -/
def State.fenced (s : State) (k : Nat) (t : Team) (c : Scope) (go : Effect) : Effect :=
  match s.owedTrap k t 0 with
  | some s1 => .jump s1
  | none =>
    if s.queueUse k ≠ 0 then s.waitOn k
    else if s.postedOut k || s.scopeOut k c then .wait
    else go

/-- fence. -/
def execFence (c : Scope) (ext : Bool) (s : State) : Out :=
  s.issue (.fence c ext) (fun k t s => s.fenced k t c (.done s))

/-- bar.arr: it acts as fence.team before its arrival counts (R340). -/
def execBarArr (l : Bool) (f : StArgs) (s : State) : Out :=
  s.issue (.barArr l f) (fun k t s =>
    s.fenced k t .team
      (doneOr (s.barOp (s.frame t) (s.uni t f.a.op) (fun b h _ =>
        b.arrive h (if l then t.active.length else (s.barArg t f).toNat)))))

/-! ### The grid-wide barrier (R270) -/

/-- Every team of the grid has arrived at its gbar number n, or retired; blocks not yet placed have not arrived.
(DEDUCED, log 50) -/
def State.gbarMet (s : State) (g n : Nat) : Bool :=
  match s.grid? g with
  | none => true
  | some x =>
    decide (x.launch.nblk ≤ x.placed) &&
      (s.liveBlocks g).all (fun b =>
        (s.liveTeams b).all (fun k => ((s.team? k).map (fun t => decide (n ≤ t.gbarIn))).getD true))

/-- gbar: it acts as fence.device, arrives, and holds its team until every team has arrived. -/
def execGbar (s : State) : Out :=
  s.issue .gbar (fun k t s =>
    let g := s.gridIdOf t
    if !((s.grid? g).map (fun x => x.launch.gang)).getD false then .trap { code := 0x8A }
    else
      let n := t.gbarOut + 1
      if t.gbarIn < n then
        s.fenced k t .device (.jump (s.modTeam k (fun u => { u with gbarIn := n })))
      else if s.gbarMet g n then .done (s.modTeam k (fun u => { u with gbarOut := n }))
      else .wait)

/-! ### cwait (R262) -/

/-- The command has not completed: an engine command, or a tile write of a team. -/
def State.outstanding (s : State) (c : CClass) (id : Nat) : Bool :=
  match c with
  | .matrix => (s.mreads.get? id).isSome
  | _ => (s.cmds.get? id).isSome

/-- cwait: it passes once every command of the class but the n youngest has completed. -/
def execCwait (c : CClass) (ext : Bool) (n : BitVec 14) (s : State) : Out :=
  s.issue (.cwait c ext n) (fun _ t s =>
    let ids := (t.issued.filter (fun e => e.1 == c)).map Prod.snd
    if (ids.drop n.toNat).any (s.outstanding c) then .wait else .done s)

/-! ### The matrix stream's barriers and its end (R244, R246) -/

/-- Work of the block's stream is in flight: steps, weight loads or tile writes. -/
def State.streamBusy (s : State) (n : Nat) : Bool :=
  s.msteps.any (fun m => m.2.block == n) || s.latches.any (fun l => l.2.block == n) || s.readsOut n

/-- mbar.arr: one arrival, once every earlier step has ended, every weight load has latched and every tile write has
landed (R223, R235, R242). -/
def execMbarArr (f : A1) (s : State) : Out :=
  s.issueS (.mbarArr f) (fun n x _ s =>
    if s.streamBusy n then .wait
    else doneOr (s.barOp (x.streamFrame n) (s.streamSrc x f.a.op) (fun b h _ => b.arrive h 1)))

/-- mbar.wait. A wait that has begun on a barrier not initialised, and that a restore finds another block's, traps and is
retried after its handler (R266, R233). -/
def execMbarWait (a b : Src) (s : State) : Out :=
  s.issueS (.mbarWait a b) (fun n x m s =>
    match s.barWaits (x.streamFrame n) (s.streamSrc x a.op) ((s.streamSrc x b.op).toNat % 2 ^ 16) with
    | .error e =>
      if m.waiting.isSome then
        .jump ((s.setStream n { m with waiting := none }).takeStreamTrap n (Instr.size (.mbarWait a b)) e true)
      else .trap e
    | .ok (true, key) => if m.waiting = key then .wait else .jump (s.setStream n { m with waiting := key })
    | .ok (false, _) => .done (s.setStream n { m with waiting := none }))

/-- A block whose stream, if any, has ended, and whose last team has retired, ends (R32, R246). -/
def State.endBlock (s : State) (b : Nat) : State :=
  match s.block? b with
  | none => s
  | some x =>
    if x.live && (s.liveTeams b).isEmpty && (x.stream.map (fun m => m.ended)).getD true then s.freeBlock b else s

/-- mend: the stream's earlier work ends before the stream does. (DEDUCED, log 46) -/
def execMend (s : State) : Out :=
  s.issueS .mend (fun n _ m s =>
    if s.streamBusy n then .wait else .jump ((s.setStream n { m with ended := true }).endBlock n))

/-! ### The end of a tile write (R242) -/

/-- A team whose counter has fallen wakes from its yield (R209). -/
def Ctl.wake (c : Ctl) : Ctl := if c.yield = .waiting then { c with yield := .woken } else c

/-- Writes rows of bytes to a core's scratchpad. -/
def State.storeRows (s : State) (core : Nat) : List (Nat × List Byte) → State
  | [] => s
  | (off, bs) :: r =>
    State.storeRows { s with
      spm := Memory.writeBytes s.spm (spmKey core off) bs
      spmPoison := clearPoison s.spmPoison (spmKey core off / 4) (bs.length / 4) } core r

/-- MRD_COMPLETE. The tile's bytes have landed; a team's matrix counter falls. -/
def execMrdComplete (mrd : Nat) (s : State) : Out :=
  match s.mreads.get? mrd with
  | none => .next s
  | some m =>
    let s1 := s.storeRows m.core m.rows
    let s2 := { s1 with mreads := s1.mreads.del mrd }
    match m.team with
    | none => .next s2.sweepGrants
    | some k => .next (s2.sweepGrants.modTeam k (fun t =>
        { t with count := { t.count with matrix := t.count.matrix - 1 }, ctl := t.ctl.wake }))

end Sys2Proof.Machine
end

