-- ==== Sys2Proof/Machine/Engines.lean ====
section
/-! DEFINITION. Engine commands (R252 to R265): their checks and issue, the pieces of the copy commands (R255 to R260, R283,
R295), the walk of hchk (R293), futures and tokens (R263, R264), messages (R277), and their completion (R254, R256). -/

namespace Sys2Proof.Machine

/-! ### Futures, counters and tokens -/

/-- The s register a future destination names; none for zero. -/
def futureOf : Opnd → Option Nat
  | .s n => some n
  | _ => none

def Counters.get (c : Counters) : CClass → Nat
  | .copy => c.copy | .coll => c.coll | .promote => c.promote | .wl => c.wl | .matrix => c.matrix

def Counters.up (c : Counters) : CClass → Counters
  | .copy => { c with copy := c.copy + 1 }
  | .coll => { c with coll := c.coll + 1 }
  | .promote => { c with promote := c.promote + 1 }
  | .wl => { c with wl := c.wl + 1 }
  | .matrix => { c with matrix := c.matrix + 1 }

def Counters.down (c : Counters) : CClass → Counters
  | .copy => { c with copy := c.copy - 1 }
  | .coll => { c with coll := c.coll - 1 }
  | .promote => { c with promote := c.promote - 1 }
  | .wl => { c with wl := c.wl - 1 }
  | .matrix => { c with matrix := c.matrix - 1 }

/-- The status word of R254. -/
def statusWord (st : Byte) (val : Nat) : DWord := BitVec.ofNat 64 (st.toNat * 2 ^ 56 + val % 2 ^ 52)

/-- A token that is not zero and that no outstanding command of the tenant holds, from a free value on (R263).
(DESIGN CHOICE, log 53) -/
def tokenFrom (used : List DWord) (x : Nat) : Nat → DWord
  | 0 => BitVec.ofNat 64 (x % (2 ^ 48 - 1) + 1)
  | n + 1 =>
    let v := BitVec.ofNat 64 (x % (2 ^ 48 - 1) + 1)
    if used.contains v then tokenFrom used (x + 1) n else v

/-- The tokens of a tenant's outstanding commands. -/
def State.usedTokens (s : State) (tenant : Nat) : List DWord :=
  (s.cmds.filter (fun c => c.2.tenant == tenant)).map (fun c => c.2.token)

/-- Fills a team's future, which then takes the cause word that waits for it (R43). -/
def Team.fill (t : Team) (n : Nat) (x : DWord) : Team := { t with regs := (t.regs.setS n x).setSflg n .full }.takeCause n

/-! ### Issue (R253) -/

/-- The commands queued in an engine. -/
def State.queued (s : State) (engine : Nat) : Nat := (s.cmds.filter (fun c => c.2.engine == engine)).length

/-- The number of a cluster's copy engine, of a die's collective engine, and of what holds no queue of its own. -/
def copyEngine (cluster j : Nat) : Nat := 4 * cluster + j
def collEngine (die : Nat) : Nat := 128 + die
def noEngine : Nat := 132

/-- The copy engine of the cluster with the fewest queued commands, the lowest on a tie, if one has room (R253). -/
def State.pickCopy (s : State) (cluster : Nat) : Option Nat :=
  let q (j : Nat) := s.queued (copyEngine cluster j)
  let best := (List.range 4).foldl (fun b j => if q j < q b then j else b) 0
  if 64 ≤ q best then none else some (copyEngine cluster best)

/-- The engine a command of a class enters, if one has room. (DEDUCED, log 52) -/
def State.pickEngine (s : State) (t : Team) : CClass → Option Nat
  | .copy => s.pickCopy t.cluster
  | .coll => if 64 ≤ s.queued (collEngine (dieOf t.quarter)) then none else some (collEngine (dieOf t.quarter))
  | _ => some noEngine

/-- The barriers a command credits, or the trap 0x81: each must be initialised by a live block of the tenant (R261). -/
def State.creditsOf (s : State) (tenant : Nat) (cores : List Nat) (bar : Option (Fin 64)) : Except Trap (List Credit) :=
  match bar with
  | none => .ok []
  | some n =>
    let cs := cores.filterMap (fun c => (s.bar (.named c n)).owner.map (fun o => (⟨c, n, o⟩ : Credit)))
    if cs.length = cores.length ∧ cs.all (fun c => s.tenantOfBlock c.owner == tenant) then .ok cs
    else .error { code := 0x81 }

/-- A barrier has room for one more crediting command (R267). -/
def State.creditRoom (s : State) (cs : List Credit) : Bool := cs.all (fun c => decide ((s.bar (.named c.core c.bar)).cred < 4095))

/-- Changes a credited barrier while its owner at issue still owns it. -/
def State.modCredit (s : State) (c : Credit) (f : Barrier → Barrier) : State :=
  let b := s.bar (.named c.core c.bar)
  if b.owner = some c.owner then s.setBar (.named c.core c.bar) (f b) else s

def State.modCredits (s : State) (f : Barrier → Barrier) : List Credit → State
  | [] => s
  | c :: r => State.modCredits (s.modCredit c f) f r

/-- Issues a command that has passed its checks: it waits for its counter, its engine and its barriers' counts; then its
future is empty, its counter has risen and it stands in its engine. -/
def State.issueCmd (s : State) (k : Nat) (t : Team) (cls : CClass) (kind : CmdKind) (d : Opnd) (credit : List Credit)
    (poison : Option Nat := none) : Effect :=
  if 255 ≤ t.count.get cls || !s.creditRoom credit then .wait
  else match s.pickEngine t cls with
    | none => .wait
    | some e =>
      let tenant := s.tenantIdOf t
      let used := s.usedTokens tenant
      let tok := tokenFrom used (Config.token s.draws).toNat used.length
      let (id, s1) := s.fresh
      let c : Cmd := { team := k, block := t.block, core := t.core, tenant := tenant, cls := cls, kind := kind
                       future := futureOf d, credit := credit, pc := t.ctl.pc, token := tok, engine := e
                       poisonAt := poison }
      let s2 := { s1 with cmds := s1.cmds.put id c, draws := s1.draws + 1 }
      let s3 := s2.modTenant tenant (fun x => { x with tokens := (tok, id) :: x.tokens })
      let s4 := s3.modCredits (fun b => { b with cred := b.cred + 1 }) credit
      let issued (u : Team) : Team :=
        { u with count := u.count.up cls, issued := (cls, id) :: u.issued
                 regs := match futureOf d with
                   | some n => u.regs.setSflg n .empty
                   | none => u.regs }
      .done (s4.modTeam k issued)

/-! ### Checks of the copy commands -/

/-- The near address of the n-th byte of a near extent. -/
def nearAt (a : DWord) (j : Nat) : Word := a.setWidth 32 + BitVec.ofNat 32 j

/-- Checks a near extent, byte by byte, under R102: trap 0x84 with the element code. -/
def State.nearExtent (s : State) (f : Frame) (a : DWord) (n : Nat) : Except Trap Unit :=
  match s.firstBad f (byteRun (a.setWidth 32) n) with
  | some c => .error { code := 0x84, detail := c }
  | none => .ok ()

/-- Checks several near extents in order. -/
def State.nearExtents (s : State) (f : Frame) : List (DWord × Nat) → Except Trap Unit
  | [] => .ok ()
  | (a, n) :: r =>
    match s.nearExtent f a n with
    | .error t => .error t
    | .ok _ => State.nearExtents s f r

/-- Bits [63:52] of a global address are zero. -/
def globOk (a : DWord) : Bool := field a 52 12 == 0

/-- Check 6 of R253 on a base and on a last byte. -/
def globEnds : List DWord → Except Trap Unit
  | [] => .ok ()
  | a :: r => if globOk a then globEnds r else .error { code := 0x85 }

/-- The bytes of a near extent, and whether a word of it is poisoned. -/
def State.nearRun (s : State) (f : Frame) (a : DWord) (n : Nat) : List Byte × Bool := s.nearBytes f (a.setWidth 32) n

/-- A little-endian number of bytes. -/
def leNat : List Byte → Nat
  | [] => 0
  | b :: r => b.toNat + 256 * leNat r

/-- The sides of a DIR (R252): destination, then source. -/
def dirSides : Dir → Side × Side
  | .g2n => (.near, .glob)
  | .n2g => (.glob, .near)
  | .n2n => (.near, .near)
  | .g2g => (.glob, .glob)

/-- The checks of a copy of planes of rows, after its shape (R253). -/
def State.copyChecks (s : State) (t : Team) (bar : Option (Fin 64)) (ds ss : Side) (dst src : DWord) (w h p : Nat)
    (dr dp sr sp : DWord) : Except Trap (List Credit) :=
  let f := s.frame t
  let rows := (List.range (p * h)).map (fun i => (i / h, i % h))
  let at0 (base r pl : DWord) (i : Nat × Nat) : DWord := base + pl * BitVec.ofNat 64 i.1 + r * BitVec.ofNat 64 i.2
  let ext (side : Side) (base r pl : DWord) : List (DWord × Nat) :=
    match side with
    | .near => rows.map (fun i => (at0 base r pl i, w))
    | .glob => []
  let ends (side : Side) (base r pl : DWord) : List DWord :=
    match side with
    | .near => []
    | .glob => [base, at0 base r pl (p - 1, h - 1) + BitVec.ofNat 64 (w - 1)]
  match s.creditsOf (s.tenantIdOf t) [t.core] bar with
  | .error e => .error e
  | .ok cs =>
    match s.nearExtents f (ext ds dst dr dp ++ ext ss src sr sp) with
    | .error e => .error e
    | .ok _ =>
      match globEnds (ends ds dst dr dp ++ ends ss src sr sp) with
      | .error e => .error e
      | .ok _ => .ok cs

/-- A length of 1 to 1,048,575. -/
def lenOk (x : BitVec 21) : Bool := decide (1 ≤ x.toNat ∧ x.toNat < 2 ^ 20)

/-- cpy. -/
def execCpy (dir : Dir) (bar : Option (Fin 64)) (d : Opnd) (a b : Src) (len : BitVec 21) (s : State) : Out :=
  s.issue (.cpy dir bar d a b len) (fun k t s =>
    if !lenOk len then .trap { code := 0x80 }
    else
      let (ds, ss) := dirSides dir
      let dst := s.uni t a.op
      let src := s.uni t b.op
      match s.copyChecks t bar ds ss dst src len.toNat 1 1 0 0 0 0 with
      | .error e => .trap e
      | .ok cs => s.issueCmd k t .copy (.copy ds ss dst src len.toNat 1 1 0 0 0 0) d cs)

/-- cpy2: the descriptor is read at issue (R258). (DEDUCED, log 26) -/
def execCpy2 (dir : Dir) (bar : Option (Fin 64)) (d : Opnd) (a b c : Src) (s : State) : Out :=
  s.issue (.cpy2 dir bar d a b c) (fun k t s =>
    let desc := s.uni t c.op
    match s.nearExtent (s.frame t) desc 48 with
    | .error e => .trap e
    | .ok _ =>
      if s.behindRun k (s.frame t) (byteRun (desc.setWidth 32) 48) then .wait else
      let x := leNat (s.nearRun (s.frame t) desc 48).1
      let dw (j : Nat) : DWord := BitVec.ofNat 64 (nfield x (64 * j) 64)
      let w := nfield x 0 20
      let h := nfield x 32 16
      let p := nfield x 48 16
      if field desc 0 4 ≠ 0 ∨ w = 0 ∨ h = 0 ∨ p = 0 ∨ 2 ^ 31 ≤ w * h * p ∨ dw 5 ≠ 0 then
        .trap { code := 0x80 }
      else
        let (ds, ss) := dirSides dir
        let dst := s.uni t a.op
        let src := s.uni t b.op
        match s.copyChecks t bar ds ss dst src w h p (dw 3) (dw 4) (dw 1) (dw 2) with
        | .error e => .trap e
        | .ok cs => s.issueCmd k t .copy (.copy ds ss dst src w h p (dw 3) (dw 4) (dw 1) (dw 2)) d cs)

/-- The row length of cpyx (R259). -/
def rowLen (r : BitVec 10) : Nat := 4 * (r.toNat + 1)

/-- The near checks of cpyx: the rows' extent and the list. -/
def State.rowChecks (s : State) (t : Team) (bar : Option (Fin 64)) (near list : DWord) (n r : Nat) (bases : List DWord) :
    Except Trap (List Credit) :=
  match s.creditsOf (s.tenantIdOf t) [t.core] bar with
  | .error e => .error e
  | .ok cs =>
    match s.nearExtents (s.frame t) [(near, n * r), (list, 4 * n)] with
    | .error e => .error e
    | .ok _ =>
      match globEnds bases with
      | .error e => .error e
      | .ok _ => .ok cs

/-- cpyx. -/
def execCpyx (scat : Bool) (rlen : BitVec 10) (bar : Option (Fin 64)) (d : Opnd) (a b c : Src) (n : BitVec 21) (s : State) :
    Out :=
  s.issue (.cpyx scat rlen bar d a b c n) (fun k t s =>
    if !lenOk n then .trap { code := 0x80 }
    else
      let near := s.uni t (if scat then b.op else a.op)
      let base := s.uni t (if scat then a.op else b.op)
      let list := s.uni t c.op
      match s.rowChecks t bar near list n.toNat (rowLen rlen) [base] with
      | .error e => .trap e
      | .ok cs =>
        s.issueCmd k t .copy (.rows scat (near.setWidth 32) base (list.setWidth 32) n.toNat (rowLen rlen)) d cs)

/-! ### Handle images (R287, R288) -/

/-- Dword j of a handle image. -/
def imgDword (x : BitVec 512) (j : Nat) : DWord := BitVec.ofNat 64 (field x (64 * j) 64)

def imgType (x : BitVec 512) : Nat := field x 0 4
def imgWidePos (x : BitVec 512) : Bool := x.getLsbD 4
def imgWideIdx (x : BitVec 512) : Bool := x.getLsbD 5
def imgStrict (x : BitVec 512) : Bool := x.getLsbD 6
def imgValues (x : BitVec 512) : Bool := x.getLsbD 8
/-- Rows and columns. -/
def imgNr (x : BitVec 512) : Nat := field x 64 32
def imgNc (x : BitVec 512) : Nat := field x 96 32
/-- The number of rows the positions describe, and the bound of the indices. -/
def imgOuter (x : BitVec 512) : Nat := if imgType x = 2 then imgNc x else imgNr x
def imgInner (x : BitVec 512) : Nat := if imgType x = 2 then imgNr x else imgNc x
def imgPos (x : BitVec 512) : DWord := imgDword x 2
def imgIdx (x : BitVec 512) : DWord := imgDword x 3
def imgVal (x : BitVec 512) : DWord := imgDword x 4
def imgLd (x : BitVec 512) : DWord := imgDword x 5

/-- The flags MAL and TRN. -/
def flagMal : BitVec 64 := 0x80
def flagTrn : BitVec 64 := 0x200

/-- ORs flags into a team's handle register. -/
def Team.orFlags (t : Team) (n : Nat) (fl : BitVec 64) : Team :=
  let h := t.regs.handle n
  { t with regs := t.regs.setHandle n { h with image := h.image ||| fl.setWidth 512 } }

/-- A handle that a command needs to be a matrix: the failed trap, the null trap, or its image (R293, R294). -/
def needMatrix (h : Handle) (dense : Bool) : Except Trap (BitVec 512) :=
  match h.state with
  | .failed c => .error { code := 0x92, detail := c }
  | .valid =>
    if imgType h.image = 1 ∨ imgType h.image = 2 ∨ (dense ∧ imgType h.image = 3) then .ok h.image
    else .error { code := 0x93 }
  | _ => .error { code := 0x93 }

/-- cpyx.h: it works on the image as read at issue (R282, R295). (DEDUCED, log 55) -/
def execCpyxH (rlen : BitVec 10) (bar : Option (Fin 64)) (d : Opnd) (a b : Src) (h : Fin 16) (s : State) : Out :=
  s.issue (.cpyxH rlen bar d a b h) (fun k t s =>
    match needMatrix (t.regs.handle h) true with
    | .error e => .trap e
    | .ok x =>
      if (imgValues x || imgType x == 3) && imgVal x == 0 then .trap { code := 0x94 }
      else
        let l := s.uni t b.op
        let n := field l 32 20
        let near := s.uni t a.op
        let list : DWord := BitVec.ofNat 64 (field l 0 32)
        if field l 52 12 ≠ 0 ∨ n = 0 then .trap { code := 0x80 }
        else match s.rowChecks t bar near list n (rowLen rlen) [] with
          | .error e => .trap e
          | .ok cs =>
            s.issueCmd k t .copy (.handle h x (near.setWidth 32) (list.setWidth 32) n (rowLen rlen)) d cs)

/-- The cores of a cpym mask (R260). -/
def maskCores (t : Team) (m : DWord) : List Nat :=
  ((List.range 16).filter (fun j => m.getLsbD j)).map (fun j => 16 * t.cluster + j)

/-- A quarter of the core belongs to a partition of the tenant. -/
def State.tenantCore (s : State) (tenant core : Nat) : Bool :=
  s.partitions.any (fun p => p.2.tenants.any (fun e => e.1 == tenant) && p.2.quarters.any (fun q => coreOf q == core))

/-- cpym. -/
def execCpym (near : Bool) (bar : Option (Fin 64)) (d : Opnd) (a b c : Src) (len : BitVec 21) (s : State) : Out :=
  s.issue (.cpym near bar d a b c len) (fun k t s =>
    let cores := maskCores t (s.uni t c.op)
    let tenant := s.tenantIdOf t
    let dst := s.uni t a.op
    let src := s.uni t b.op
    let side : Side := if near then .near else .glob
    if !lenOk len || cores.isEmpty || !cores.all (s.tenantCore tenant) then .trap { code := 0x80 }
    else match s.creditsOf tenant cores bar with
      | .error e => .trap e
      | .ok cs =>
        let target (core : Nat) : DWord := BitVec.ofNat 64 (2 ^ 28 + core % 16 * 2 ^ 24 + field dst 0 20)
        let f := s.frame t
        match s.nearExtents f (cores.map (fun x => (target x, len.toNat)) ++ (if near then [(src, len.toNat)] else [])) with
        | .error e => .trap e
        | .ok _ =>
          match globEnds (if near then [] else [src, src + BitVec.ofNat 64 (len.toNat - 1)]) with
          | .error e => .trap e
          | .ok _ => s.issueCmd k t .copy (.multi (field dst 0 20) cores side src len.toNat) d cs)

/-! ### Addressing the bytes of a piece (R254, R255) -/

/-- The block's frame on the core that issued a command. -/
def State.cmdFrame (s : State) (c : Cmd) : Frame :=
  match s.block? c.block with
  | some b => b.frame c.block c.core 0
  | none => { block := c.block, p := 0, scratch := 0, cores := [], core := c.core }

/-- The party of a command is a handler team, which may write page tables (R362). -/
def State.cmdHandler (s : State) (c : Cmd) : Bool := ((s.team? c.team).map (fun t => t.handler.isSome)).getD false

/-- The cluster whose translations a command uses. -/
def Cmd.cluster (c : Cmd) : Nat := clusterOfCore c.core

/-- The place of one near byte; a window 1 byte whose grant has ended refuses the piece (R254). -/
def State.nearPlaceOf (s : State) (f : Frame) (a : Word) : Except Byte PLoc :=
  match nearPlace f none a 1 with
  | .ok (.spm core off win1) => if !win1 || s.granted f core off then .ok (.spm core off) else .error 0x06
  | _ => .error 0x06

/-- The places of n bytes of a side of a command. -/
def State.places (s : State) (c : Cmd) (side : Side) (a : DWord) (write : Bool) : Nat → Except Byte (List PLoc)
  | 0 => .ok []
  | n + 1 =>
    let one : Except Byte PLoc :=
      match side with
      | .near => s.nearPlaceOf (s.cmdFrame c) (a.setWidth 32)
      | .glob =>
        match s.engineAddr c.cluster c.tenant a.toNat (if write then .write (s.cmdHandler c) else .read) with
        | .ok pa => .ok (.phys pa)
        | .error e => .error e
    match one with
    | .error e => .error e
    | .ok l =>
      match State.places s c side (a + 1) write n with
      | .error e => .error e
      | .ok r => .ok (l :: r)

/-- The bytes a piece may hold from an address on: to the end of its 64 source bytes, or of its row. -/
def pieceLen (src : DWord) (left : Nat) : Nat := min left (64 - src.toNat % 64)

/-- A piece as it is addressed: nothing of it has been read or written. -/
def newPiece (o : Nat) (src dst : List PLoc) (flags : BitVec 64 := 0) : Piece :=
  { pos := o, src := src, data := List.replicate src.length none, dst := dst.zipIdx, flags := flags }

/-- A piece of n bytes from one side to another. -/
def State.mkPiece (s : State) (c : Cmd) (o : Nat) (ds ss : Side) (dst src : DWord) (n : Nat) : Except Byte Piece :=
  match s.places c ss src false n with
  | .error e => .error e
  | .ok sl =>
    match s.places c ds dst true n with
    | .error e => .error e
    | .ok dl => .ok (newPiece o sl dl)

/-- What addressing a command's stream comes to next: a piece of it, with its length; a word read for its row; or a wait, for
scratchpad that is saved or for the team's earlier accesses. -/
inductive NextUp where
  | piece (p : Piece) (len : Nat)
  | word (x : Nat)
  | pause
  deriving DecidableEq, Repr

/-- The next piece or word, or the status and value at which the command ends early. -/
abbrev NextOr := Except (Byte × Nat) NextUp

/-- A piece of n bytes, or its refusal at an offset. -/
def pieceAt (o n : Nat) : Except Byte Piece → NextOr
  | .error e => .error (e, o)
  | .ok p => .ok (.piece p n)

/-- The first and last bytes of a global row have bits [63:52] zero (R259). -/
def rowOk (a : DWord) (r : Nat) : Bool := globOk a && globOk (a + BitVec.ofNat 64 (r - 1))

/-! ### Saved scratchpad (R265) -/

/-- A block is saved, or being saved. -/
def State.isSaved (s : State) (b : Nat) : Bool := ((s.block? b).map (fun x => x.st == .saved || x.st == .saving)).getD false

/-- A byte of a core lies in a block's allocation. -/
def Block.holds (b : Block) (core off : Nat) : Bool :=
  (b.quarters.map coreOf).contains core && decide (b.p ≤ off) && decide (off < b.p + b.scratch)

/-- The scratchpad byte belongs to a block that is saved: the command's own; a block of its tenant that stands there, or, where
none stands, one that is saved (R265). -/
def State.savedByte (s : State) (c : Cmd) (core off : Nat) : Bool :=
  if ((s.block? c.block).map (fun x => x.holds core off)).getD false then s.isSaved c.block
  else
    let there (st : BlockSt → Bool) : Bool :=
      s.blocks.any (fun e => st e.2.st && e.2.holds core off && s.tenantOfGrid e.2.grid == c.tenant)
    there (fun st => st == .saving) || (!there (fun st => st == .placed) && there (fun st => st == .saved))

/-- A place of the command lies in saved scratchpad. -/
def State.savedPlace (s : State) (c : Cmd) : PLoc → Bool
  | .spm core off => s.savedByte c core off
  | _ => false

/-- A piece pauses: a near side of it lies in saved scratchpad, or the command credits a barrier of its own saved block
(R265, R266). (DEDUCED, log 54) -/
def State.piecePaused (s : State) (c : Cmd) (p : Piece) : Bool :=
  c.credit.any (fun x => x.owner == c.block && s.isSaved x.owner) || p.src.any (s.savedPlace c) ||
    p.dst.any (fun e => s.savedPlace c e.1)

/-! ### Rows (R259, R283, R295) -/

/-- The core of a place. -/
def PLoc.core? : PLoc → Option Nat
  | .spm core _ => some core
  | _ => none

/-- An earlier access of the issuing team is still on its way to a core that some places lie on (R337, item 5). -/
def State.placesWait (s : State) (id : Nat) (c : Cmd) (ls : List PLoc) : Bool :=
  ls.any (fun l => match l.core? with
    | some core => s.inTransit c.team core id
    | none => false)

/-- Reads a word of the list of cpyx, behind the team's earlier accesses to its core. (DEDUCED, log 49) -/
def State.listWord (s : State) (id : Nat) (c : Cmd) (list : Word) (k : Nat) : Except Byte NextUp :=
  match s.places c .near ((list + BitVec.ofNat 32 (4 * k)).setWidth 64) false 4 with
  | .error e => .error e
  | .ok ls =>
    .ok (if ls.any (s.savedPlace c) || s.placesWait id c ls then .pause
      else .word (leNat (s.nearBytes (s.cmdFrame c) (list + BitVec.ofNat 32 (4 * k)) 4).1))

/-- The words of a row's two positions. -/
def posWords (x : BitVec 512) : Nat := if imgWidePos x then 4 else 2

/-- Word i of the two positions of a row, and whether it is poisoned, or the status that refuses it; each word is read on its
own (R335). -/
def State.posWord (s : State) (c : Cmd) (x : BitVec 512) (row i : Nat) : Except Byte (Nat × Bool) :=
  match s.engineRead c.cluster c.tenant ((imgPos x).toNat + (if imgWidePos x then 8 else 4) * row + 4 * i) 4 with
  | .error e => .error e
  | .ok (bs, p) => .ok (leNat bs, p)

/-- The two positions of a row, from their words. -/
def rowPositions (x : BitVec 512) (ws : List Nat) : Nat × Nat :=
  let w (i : Nat) : Nat := ws.getD i 0
  if imgWidePos x then (w 0 + 2 ^ 32 * w 1, w 2 + 2 ^ 32 * w 3) else (w 0, w 1)

/-- A destination run of constant words. -/
def fillBytes (x : BitVec 512) (n : Nat) : List PLoc := List.replicate n (.const (if imgValues x then 0 else 0xFF))

/-- A piece of constant words of a row. -/
def State.fillPiece (s : State) (c : Cmd) (x : BitVec 512) (o : Nat) (dst : Word) (n : Nat) (fl : BitVec 64) : NextOr :=
  match s.places c .near (dst.setWidth 64) true n with
  | .error e => .error (e, o)
  | .ok dl => .ok (.piece (newPiece o (fillBytes x n) dl fl) n)

/-- Each element's bytes, zero-extended to a word. -/
def widen (w : Nat) (ls : List PLoc) : List PLoc :=
  if w = 4 then ls
  else match ls with
    | a :: b :: r => a :: b :: .const 0 :: .const 0 :: widen w r
    | r => r

/-- The next piece of a row of a sparse matrix (R295): elements, then FILL. -/
def State.sparsePiece (s : State) (c : Cmd) (x : BitVec 512) (near : Word) (o j r p0 p1 : Nat) : NextOr :=
  let cap := r / 4
  let cnt := min (p1 - p0) cap
  let fl := if cap < p1 - p0 then flagTrn else 0
  let w := j / 4
  let dst := near + BitVec.ofNat 32 o
  if cnt ≤ w then s.fillPiece c x o dst (min (r - j) 64) fl
  else
    let ew := if imgValues x || imgWideIdx x then 4 else 2
    let a := (if imgValues x then imgVal x else imgIdx x).toNat + (p0 + w) * ew
    let m := min (cnt - w) ((64 - a % 64) / ew)
    if 2 ^ 52 < a + m * ew then .error (0x02, o)
    else match s.places c .glob (BitVec.ofNat 64 a) false (m * ew) with
      | .error e => .error (e, o)
      | .ok sl =>
        match s.places c .near (dst.setWidth 64) true (4 * m) with
        | .error e => .error (e, o)
        | .ok dl => .ok (.piece (newPiece o (widen ew sl) dl fl) (4 * m))

/-- A malformed row ends the command under STRICT; otherwise it lands as FILL words and sets MAL (R295). -/
def State.malformed (s : State) (c : Cmd) (x : BitVec 512) (near : Word) (o j r : Nat) : NextOr :=
  if imgStrict x then .error (0x0A, o - j)
  else s.fillPiece c x o (near + BitVec.ofNat 32 o) (min (r - j) 64) flagMal

/-- A word read for a row, or its refusal at the row's offset. -/
def wordAt (o : Nat) : Except Byte NextUp → NextOr
  | .error e => .error (e, o)
  | .ok u => .ok u

/-- The next word or piece of a row of cpyx.h: its list word, then the words of its two positions, each read once, then its
pieces. -/
def State.handleNext (s : State) (id : Nat) (c : Cmd) (x : BitVec 512) (near list : Word) (o r : Nat) : NextOr :=
  let k := o / r
  let j := o % r
  match c.row with
  | [] => wordAt o (s.listWord id c list k)
  | row :: ps =>
    if imgOuter x ≤ row then s.malformed c x near o j r
    else if imgType x = 3 then
      let g := imgVal x + BitVec.ofNat 64 row * imgLd x
      if !rowOk g r then .error (0x02, o)
      else
        let src := g + BitVec.ofNat 64 j
        let n := pieceLen src (r - j)
        pieceAt o n (s.mkPiece c o .near .glob ((near + BitVec.ofNat 32 o).setWidth 64) src n)
    else if ps.length < posWords x then wordAt o ((s.posWord c x row ps.length).map (fun e => .word e.1))
    else
      let (p0, p1) := rowPositions x ps
      if p1 < p0 then s.malformed c x near o j r else s.sparsePiece c x near o j r p0 p1

/-- The bytes of a command's stream. -/
def CmdKind.total : CmdKind → Nat
  | .copy _ _ _ _ w h p _ _ _ _ => w * h * p
  | .rows _ _ _ _ n r => n * r
  | .handle _ _ _ _ n r => n * r
  | .multi _ _ _ _ len => len
  | .results _ _ bytes _ scales _ => bytes.length + scales.length
  | _ => 0

/-- The bytes of a command's rows, where a row has words of its own. -/
def CmdKind.rowBytes : CmdKind → Option Nat
  | .rows _ _ _ _ _ r => some r
  | .handle _ _ _ _ _ r => some r
  | _ => none

/-- The next piece of the byte stream, from offset `next` on, or the next word read for its row. (DEDUCED, log 51) -/
def State.nextUp (s : State) (id : Nat) (c : Cmd) : NextOr :=
  let o := c.next
  match c.kind with
  | .copy ds ss dst src w h _ dr dp sr sp =>
    let i := o / w
    let j := o % w
    let off (base r pl : DWord) : DWord :=
      base + pl * BitVec.ofNat 64 (i / h) + r * BitVec.ofNat 64 (i % h) + BitVec.ofNat 64 j
    let a := off src sr sp
    let n := pieceLen a (w - j)
    pieceAt o n (s.mkPiece c o ds ss (off dst dr dp) a n)
  | .rows scat near base list _ r =>
    let j := o % r
    match c.row with
    | [] => wordAt o (s.listWord id c list (o / r))
    | x :: _ =>
      let g := base + BitVec.ofNat 64 (x * r)
      let m : DWord := (near + BitVec.ofNat 32 o).setWidth 64
      let gj := g + BitVec.ofNat 64 j
      if !rowOk g r then .error (0x02, o)
      else if scat then pieceAt o (pieceLen m (r - j)) (s.mkPiece c o .glob .near gj m (pieceLen m (r - j)))
      else pieceAt o (pieceLen gj (r - j)) (s.mkPiece c o .near .glob m gj (pieceLen gj (r - j)))
  | .handle _ x near list _ r => s.handleNext id c x near list o r
  | .multi off cores side src len =>
    let a := src + BitVec.ofNat 64 o
    let n := pieceLen a (len - o)
    match s.places c side a false n with
    | .error e => .error (e, o)
    | .ok sl =>
      let f := s.cmdFrame c
      let target : List Nat := (List.range n).map (fun i => f.p + off + o + i)
      if cores.all (fun core => target.all (fun x => decide (x < Config.scratchBytes) && s.granted f core x)) then
        .ok (.piece { newPiece o sl [] with dst := cores.flatMap (fun core => (target.map (PLoc.spm core)).zipIdx) } n)
      else .error (0x06, o)
  | .results _ dst bytes dsc scales poison =>
    let fromList (a : DWord) (bs : List Byte) (j : Nat) : NextOr :=
      let d := a + BitVec.ofNat 64 j
      let n := pieceLen d (bs.length - j)
      match s.places c .glob d true n with
      | .error e => .error (e, o)
      | .ok dl => .ok (.piece (newPiece o (((bs.drop j).take n).map (if poison then PLoc.bad else PLoc.const)) dl) n)
    if o < bytes.length then fromList dst bytes o else fromList dsc scales (o - bytes.length)
  | _ => .ok .pause

/-- The command's stream has pieces not yet addressed, and none of them is cut off. -/
def Cmd.more (c : Cmd) : Bool := c.stop.isNone && decide (c.next < c.kind.total)

/-- The row words once n more bytes are addressed: none where a new row begins. -/
def Cmd.rowAfter (c : Cmd) (n : Nat) : List Nat :=
  match c.kind.rowBytes with
  | some r => if (c.next + n) % r = 0 then [] else c.row
  | none => []

/-- Addresses up to n more pieces or row words, in stream order; the first that is refused is where the command will stop, and
nothing in saved scratchpad is addressed. -/
def State.address (s : State) (id : Nat) (c : Cmd) : Nat → Cmd
  | 0 => c
  | n + 1 =>
    if !c.more then c
    else match s.nextUp id c with
      | .error e => { c with stop := some e }
      | .ok .pause => c
      | .ok (.word x) => State.address s id { c with row := c.row ++ [x] } n
      | .ok (.piece p len) =>
        if len = 0 then { c with stop := some (0x00, c.next) }
        else if s.piecePaused c p then c
        else State.address s id { c with next := c.next + len, pending := c.pending ++ [p], row := c.rowAfter len } n

/-! ### Reading and landing (R255, R261) -/

def State.plocByte (s : State) : PLoc → Byte
  | .spm core off => Memory.byte s.spm (spmKey core off)
  | .phys pa => s.physByte pa
  | .const b => b
  | .bad b => b

def State.plocPoison (s : State) : PLoc → Bool
  | .spm core off => Sparse.get false s.spmPoison (spmKey core off / 4)
  | .phys pa => s.physPoison pa
  | .const _ => false
  | .bad _ => true

def State.setPloc (s : State) (l : PLoc) (b : Byte) : State :=
  match l with
  | .spm core off => { s with spm := Memory.setByte s.spm (spmKey core off) b }
  | .phys pa => s.setPhysByte pa b
  | _ => s

/-- Poisons a place: its scratchpad word, or its level-two line (R255). -/
def State.poisonPloc (s : State) (l : PLoc) : State :=
  match l with
  | .spm core off => { s with spmPoison := Sparse.set false s.spmPoison (spmKey core off / 4) true }
  | .phys pa => s.poisonLine pa
  | _ => s

/-- Clears the poison of a place's word. -/
def State.mendPloc (s : State) (l : PLoc) : State :=
  match l with
  | .spm core off => { s with spmPoison := Sparse.set false s.spmPoison (spmKey core off / 4) false }
  | .phys pa => s.setPhysPoison pa false
  | _ => s

/-- The byte n after a place. -/
def PLoc.plus : PLoc → Nat → PLoc
  | .spm core off, n => .spm core (off + n)
  | .phys pa, n => .phys (pa + n)
  | l, _ => l

/-- The place begins a word. -/
def PLoc.aligned : PLoc → Bool
  | .spm _ off => off % 4 == 0
  | .phys pa => pa % 4 == 0
  | _ => false

/-- A number for the aligned word of a place; none of a byte the command supplies. -/
def PLoc.word : PLoc → Option Nat
  | .spm core off => some (2 * (spmKey core off / 4))
  | .phys pa => some (2 * (pa / 4) + 1)
  | _ => none

def State.storePlocs (s : State) : List (PLoc × Byte) → State
  | [] => s
  | (l, b) :: r => State.storePlocs (s.setPloc l b) r

def State.poisonPlocs (s : State) : List PLoc → State
  | [] => s
  | l :: r => State.poisonPlocs (s.poisonPloc l) r

def State.mendPlocs (s : State) : List PLoc → State
  | [] => s
  | l :: r => State.mendPlocs (s.mendPloc l) r

/-- The words all of whose bytes are listed. -/
def wholePlocs (ls : List PLoc) : List PLoc :=
  ls.filter (fun l => l.aligned && ls.contains (l.plus 1) && ls.contains (l.plus 2) && ls.contains (l.plus 3))

/-- The aligned words reached together: the first one's, and those the draw adds. -/
def picked (draw : Nat) (first : Option Nat) (w : Option Nat) : Bool :=
  w == first || w.isNone || (w.map (Config.pickWord draw)).getD false

/-- The source bytes of a piece that have not been read. -/
def Piece.unread (p : Piece) : List PLoc := ((p.src.zip p.data).filter (fun e => e.2.isNone)).map Prod.fst

/-- Reads some of a piece's source words, at least one of those left. -/
def State.readPiece (s : State) (draw : Nat) (p : Piece) : Piece :=
  let first := p.unread.findSome? PLoc.word
  let now (l : PLoc) (d : Option Byte) : Bool := d.isNone && picked draw first l.word
  { p with
    data := (p.src.zip p.data).map (fun e => if now e.1 e.2 then some (s.plocByte e.1) else e.2)
    bad := p.bad || (p.src.zip p.data).any (fun e => now e.1 e.2 && s.plocPoison e.1) }

/-- The destination bytes of a piece that are written next: some of its words, at least one of those left. -/
def Piece.now (p : Piece) (draw : Nat) : List (PLoc × Nat) :=
  p.dst.filter (fun e => picked draw ((p.dst.head?).bind (fun x => x.1.word)) e.1.word)

/-- A piece without what it has written. -/
def Piece.left (p : Piece) (draw : Nat) : List (PLoc × Nat) :=
  p.dst.filter (fun e => !picked draw ((p.dst.head?).bind (fun x => x.1.word)) e.1.word)

/-- Writes bytes of a piece. Those that a later piece of the command has already written keep what it wrote (R258, R259). A
poisoned piece poisons what it writes; another clears the words it writes whole. -/
def State.writePiece (s : State) (p : Piece) (now : List (PLoc × Nat)) (skip : List PLoc) : State :=
  let ws := now.filter (fun e => !skip.contains e.1)
  let s1 := s.storePlocs (ws.map (fun e => (e.1, (p.data.getD e.2 none).getD 0)))
  let ls := ws.map Prod.fst
  if p.bad then s1.poisonPlocs ls else s1.mendPlocs (wholePlocs ls)

/-- An earlier access of the issuing team is still on its way to a core the piece touches (R337, item 5). -/
def State.pieceWaits (s : State) (id : Nat) (c : Cmd) (p : Piece) : Bool :=
  s.placesWait id c (p.src ++ p.dst.map Prod.fst)

/-- A piece that has begun touches the scratchpad of a block, or the block's own command has one: it lands before the block is
saved (R265). -/
def State.pieceHolds (s : State) (b : Nat) : Bool :=
  s.cmds.any (fun c => c.2.pending.any (fun p => p.begun && (c.2.block == b ||
    (p.src ++ p.dst.map Prod.fst).any (fun l => match l with
      | .spm core off => ((s.block? b).map (fun x => x.holds core off)).getD false
      | _ => false))))

/-- A checkpoint holds engine commands at a piece boundary (R394). -/
def State.held (s : State) : Bool := s.checkpointing

/-- The bytes of a write that a credited barrier counts: all of a command's, but for a cpym's those on the barrier's core
(R260, R261). -/
def Cmd.creditBytes (c : Cmd) (x : Credit) (now : List (PLoc × Nat)) : Nat :=
  match c.kind with
  | .multi .. => (now.filter (fun e => e.1.core? == some x.core)).length
  | _ => now.length

/-- Credits landed bytes to a command's barriers. -/
def State.creditNow (s : State) (c : Cmd) (now : List (PLoc × Nat)) : List Credit → State
  | [] => s
  | x :: r => State.creditNow (s.modCredit x (fun b => b.credit (c.creditBytes x now))) c now r

/-- The pieces of a command with one replaced by its new self. -/
def Cmd.setPiece (c : Cmd) (p : Piece) : List Piece := c.pending.map (fun q => if q.pos = p.pos then p else q)

/-- Writes some of a piece's words and credits them; with the last of them it has landed. -/
def State.land (s : State) (id : Nat) (c : Cmd) (p : Piece) (draw : Nat) : State :=
  let now := p.now draw
  let skip := (c.ahead.filter (fun e => decide (p.pos < e.1))).flatMap Prod.snd
  let left := p.left draw
  let rest := if left.isEmpty then c.pending.filter (fun q => q.pos != p.pos) else c.setPiece { p with dst := left }
  let low := rest.foldl (fun m q => min m q.pos) c.next
  let c1 : Cmd := { c with
    pending := rest
    ahead := ((p.pos, now.map Prod.fst) :: c.ahead).filter (fun e => decide (low < e.1))
    landed := c.landed + now.length
    poisonAt := if p.bad then some (match c.poisonAt with
      | some o => min o p.pos
      | none => p.pos) else c.poisonAt }
  let s1 := s.writePiece p now skip
  let s2 := State.creditNow { s1 with cmds := s1.cmds.put id c1 } c now c.credit
  match c.kind with
  | .handle reg _ _ _ _ _ => if p.flags = 0 || !left.isEmpty then s2 else s2.modTeam c.team (fun t => t.orFlags reg p.flags)
  | _ => s2

/-- One step of a piece: source words are read, and once all are, destination words are written. -/
def State.movePiece (s : State) (id : Nat) (c : Cmd) (p : Piece) (draw : Nat) : State :=
  if p.unread.isEmpty then s.land id c p draw
  else { s with cmds := s.cmds.put id { c with pending := c.setPiece (s.readPiece draw p) } }

/-! ### The walk of hchk (R293) -/

/-- The row a walk is reading: the next row, or the row that holds the next entry. -/
def checkRow (x : BitVec 512) (poss : List Nat) (done : Nat) : Nat :=
  if poss.length - 1 < imgOuter x then poss.length - 1
  else ((poss.drop 1).takeWhile (fun p => decide (p ≤ poss.headD 0 + done))).length

/-- One step of the walk: a word of a row's positions, and with the last of them the row; then the entries one by one. -/
def State.checkStep (s : State) (id : Nat) (c : Cmd) (reg : Nat) (x : BitVec 512) (poss : List Nat) (done : Nat) : State :=
  let put (c1 : Cmd) : State := { s with cmds := s.cmds.put id c1 }
  let row := checkRow x poss done
  let poison (c1 : Cmd) (bad : Bool) (r : Nat) : Cmd :=
    if bad && c1.poisonAt.isNone then { c1 with poisonAt := some r } else c1
  if poss.length - 1 < imgOuter x then
    match s.posWord c x row c.row.length with
    | .error e => put { c with stop := some (e, row) }
    | .ok (v, bad) =>
      let c1 := poison { c with row := c.row ++ [v] } bad row
      if c1.row.length < posWords x then put c1
      else
        let (p0, p1) := rowPositions x c1.row
        let kept := (if poss.isEmpty then [p0] else poss) ++ [p1]
        if p1 < p0 && imgStrict x then put { c with row := [], stop := some (0x0A, row) }
        else
          let s1 := put { c1 with row := [], kind := .check reg x kept 0 }
          if p1 < p0 then s1.modTeam c.team (fun t => t.orFlags reg flagMal) else s1
  else
    let e := poss.headD 0 + done
    let at0 := checkRow x poss done
    let w := if imgWideIdx x then 4 else 2
    match s.engineRead c.cluster c.tenant ((imgIdx x).toNat + e * w) w with
    | .error st => put { c with stop := some (st, at0) }
    | .ok (bs, bad) =>
      if imgInner x ≤ leNat bs then put { c with stop := some (0x0F, e) }
      else put (poison { c with kind := .check reg x poss (done + 1) } bad at0)

/-- The walk has more to read. -/
def checkMore (x : BitVec 512) (poss : List Nat) (done : Nat) : Bool :=
  decide (poss.length ≤ imgOuter x) || decide (poss.headD 0 + done < poss.getLast?.getD 0)

/-! ### The source of a collective (R273) -/

/-- The bits of an element. -/
def collBits : CollFmt → Nat
  | .f32 | .s32 => 32
  | .bf16 | .f16 => 16
  | .e4m3 | .e5m2 => 8
  | .e2m3 | .e3m2 => 6
  | .e2m1 => 4

/-- The MX formats. -/
def collMx : CollFmt → Option FloatFmt
  | .e4m3 => some fE4M3 | .e5m2 => some fE5M2 | .e2m3 => some fE2M3 | .e3m2 => some fE3M2 | .e2m1 => some fE2M1
  | _ => none

/-- The bytes of n elements, and their scale bytes. -/
def collBytes (m : CollFmt) (n : Nat) : Nat := n * collBits m / 8
def collScales (m : CollFmt) (n : Nat) : Nat := if (collMx m).isSome then n / 32 else 0

/-- The bytes left to the end of an aligned word, at most n. -/
def toWordEnd (a n : Nat) : Nat := min n (4 - a % 4)

/-- Reads a run of at most n + 1 aligned words of a collective's source. -/
def State.collRead (s : State) (c : Cmd) (m : CollFmt) (src ssc : DWord) (count : Nat) : Nat → Cmd
  | 0 => c
  | n + 1 =>
    let o := c.data.length
    let size := collBytes m count
    let (a, left) := if o < size then (src.toNat + o, size - o) else (ssc.toNat + (o - size), size + collScales m count - o)
    if c.fail.isSome || left = 0 then c
    else match s.engineRead c.cluster c.tenant a (toWordEnd a left) with
      | .error e => { c with fail := some e }
      | .ok (bs, bad) => State.collRead s { c with data := c.data ++ bs, srcBad := c.srcBad || bad } m src ssc count n

/-- The collective has read the whole of its source, or been refused it. -/
def Cmd.sourceRead (c : Cmd) : Bool :=
  match c.kind with
  | .coll _ m _ _ _ _ count _ _ _ => c.fail.isSome || decide (collBytes m count + collScales m count ≤ c.data.length)
  | _ => true

/-- The level-two line that a piece's packet goes to, if the piece reaches physical memory. -/
def Piece.line (p : Piece) : Option Nat :=
  (p.src ++ p.dst.map Prod.fst).findSome? (fun l => match l with
    | .phys pa => some (lineOf pa)
    | _ => none)

/-- A piece begins: its packet, if it reaches physical memory, enters the fabric with its block's class, once its cluster's
allowance lets it (R354, R367). -/
def State.beginPiece (s : State) (id : Nat) (c : Cmd) (p : Piece) : State :=
  let begun (s1 : State) : State := { s1 with cmds := s1.cmds.put id { c with pending := c.setPiece { p with begun := true } } }
  match p.line with
  | none => begun s
  | some line =>
    let s1 := s.inject (.piece id p.pos) (((s.block? c.block).map Block.cls).getD 0) c.tenant c.cluster
      (((s.lines.get? line).getD {}).owner line) line
    if (s1.packetOf (.piece id p.pos)).isSome then begun s1 else s

/-- A piece that has begun moves on, once its packet has reached its slice and been taken. -/
def State.stepPiece (s : State) (id : Nat) (c : Cmd) (p : Piece) (draw : Nat) : State :=
  if (s.packetOf (.piece id p.pos)).isNone then s.movePiece id c p draw
  else if s.arrives (.piece id p.pos) then (s.leaveFabric (.piece id p.pos)).movePiece id c p draw
  else s

/-- Moves a free one of a command's pieces on: one that has begun, or one that may begin. -/
def State.moveOne (s : State) (id : Nat) (c : Cmd) (ps : List Piece) : State :=
  let i := Config.freeChoice s.draws ps.length % ps.length
  let s1 := { s with draws := s.draws + 2, cmds := s.cmds.put id c }
  match ps[i]? with
  | none => s1
  | some p =>
    if p.begun then s1.stepPiece id c p (s.draws + 1)
    else if s.pieceWaits id c p || s.piecePaused c p then s1 else s1.beginPiece id c p

/-- ENGINE_PIECE_LAND. Up to a free number of further pieces is addressed, in order, and one of those addressed moves on; for
a walk, one row or entry is read; for a collective, words of its source. Under a checkpoint only pieces that have begun move. -/
def execEnginePieceLand (cmd : Nat) (s : State) : Out :=
  match s.cmds.get? cmd with
  | none => .next s
  | some c =>
    if s.held then .next (s.moveOne cmd c (c.pending.filter Piece.begun)).sweepGrants
    else match c.kind with
      | .check reg x poss done => if c.stop.isSome || !checkMore x poss done then .next s else .next (s.checkStep cmd c reg x poss done)
      | .coll _ m _ _ src _ count _ ssc _ =>
        if c.stop.isSome || c.sourceRead then .next s
        else .next { s with
          cmds := s.cmds.put cmd (s.collRead c m src ssc count (Config.freeChoice s.draws 16 % 16 + 1))
          draws := s.draws + 1 }
      | _ =>
        let c1 := s.address cmd c (Config.freeChoice s.draws 64 % 64 + (if c.pending.isEmpty then 4 else 0))
        .next (State.moveOne { s with draws := s.draws + 1 } cmd c1 c1.pending).sweepGrants

/-! ### Completion (R254, R256) -/

/-- Completes a command: its future is full, its counter has fallen, its barriers have one command fewer, and a discarded
status other than done is recorded. -/
def State.complete (s : State) (id : Nat) (c : Cmd) (st : Byte) (val : Nat) : State :=
  let s1 := ({ s with cmds := s.cmds.del id }).modCredits (fun b => { b with cred := b.cred - 1 }) c.credit
  let finish (t : Team) : Team :=
    let t1 := { t with count := t.count.down c.cls, ctl := t.ctl.wake }
    match c.future with
    | some n => t1.fill n (statusWord st val)
    | none =>
      if st = 0 then t1
      else { t1 with engErr := some (match t1.engErr with
        | none => { addr := c.pc, val := 1, status := st }
        | some f => { f with val := f.val + 1 }) }
  s1.modTeam c.team finish

/-- The status and value a command whose pieces have all landed completes with: a stop's before a poisoned source's, and for a
cpym the bytes that have landed on all its cores. (DEDUCED, log 126) -/
def Cmd.outcome (c : Cmd) : Byte × Nat :=
  match c.stop, c.poisonAt with
  | some e, _ => e
  | none, some o => (0x05, o)
  | none, none => (0x00, c.landed)

/-- A message can go: its target holds a quarter of the tenant's partition, its handler exists, and the payload fits
(R277). -/
def State.msgRefused (s : State) (c : Cmd) (g : Grid) (cluster h : Nat) (payload : List Byte) : Bool :=
  !s.partitions.any (fun p => p.2.tenants.any (fun e => e.1 == c.tenant) && p.2.quarters.any (fun q => clusterOf q == cluster))
    || (match g.launch.amsg[h]? with
      | none => true
      | some k => decide (8 * k.sregs < payload.length))

/-- The dwords of a payload. -/
def dwordsOf (bs : List Byte) : List DWord :=
  (List.range (bs.length / 8)).map (fun j => BitVec.ofNat 64 (leNat ((bs.drop (8 * j)).take 8)))

/-- A message command: it completes when its cluster takes it, or refuses it (R277). -/
def State.msgComplete (s : State) (id : Nat) (c : Cmd) (cluster h : Nat) (payload : List Byte) : State :=
  match s.block? c.block with
  | none => s
  | some b =>
    match s.grid? b.grid with
    | none => s
    | some g =>
      if c.stop.isSome then s.complete id c c.outcome.1 0
      else if s.msgRefused c g cluster h payload then s.complete id c 0x08 0
      else if 256 ≤ (s.msgs.filter (fun m => m.cluster == cluster)).length then s
      else
        let m : Msg := { cluster := cluster, grid := b.grid, h := h, payload := dwordsOf payload }
        let s1 := { s with msgs := s.msgs ++ [m] }
        s1.complete id c c.outcome.1 c.outcome.2

end Sys2Proof.Machine
end

