-- ==== Sys2Proof/Machine/Commands.lean ====
section
/-! DEFINITION. Collectives (R273 to R276), messages (R277), ftest and fcan (R263, R264). -/

namespace Sys2Proof.Machine

/-! ### The shape of a collective (R273) -/

/-- How many elements a rank receives. -/
def collOut (op : CollOp) (count ranks : Nat) : Nat :=
  match op with
  | .allred | .bcast => count
  | .redsc => count / ranks
  | .allgat => count * ranks

/-- The count divides as the operation and the format need. -/
def collShape (op : CollOp) (m : CollFmt) (count root ranks : Nat) : Bool :=
  decide (1 ≤ count ∧ count ≤ 2 ^ 28) &&
    ((collMx m).isNone || count % 32 == 0) &&
    (match op with
      | .redsc => count % (if (collMx m).isSome then 32 * ranks else ranks) == 0
      | .bcast => decide (root < ranks)
      | _ => true)

/-- The rank of a die of this device in a group. -/
def Group.rankOf (g : Group) (die : Nat) : Option Nat :=
  let i := g.ranks.findIdx (fun r => r.1 == Config.device && r.2 == die)
  if i < g.ranks.length then some i else none

/-- A live group of a tenant. -/
def State.group? (s : State) (tenant n : Nat) : Option Group :=
  (s.tenant? tenant).bind (fun t => t.groups.find? (fun g => g.number == n))

/-- The group may be used by a command that issues now (R389). -/
def State.groupOpen (s : State) (tenant n : Nat) : Option Group :=
  match s.tenant? tenant with
  | none => none
  | some t => if t.endingGroups.contains n then none else s.group? tenant n

/-- The first and last byte of a global run. -/
def runEnds (a : DWord) (n : Nat) : List DWord := if n = 0 then [] else [a, a + BitVec.ofNat 64 (n - 1)]

/-- coll. (DEDUCED, log 56) -/
def execColl (op : CollOp) (m : CollFmt) (rop : CollRop) (bar : Option (Fin 64)) (d : Opnd) (a b : Src) (s : State) : Out :=
  s.issue (.coll op m rop bar d a b) (fun k t s =>
    let desc := s.uni t a.op
    match s.nearExtent (s.frame t) desc 48 with
    | .error e => .trap e
    | .ok _ =>
      if s.behindRun k (s.frame t) (byteRun (desc.setWidth 32) 48) then .wait else
      let x := leNat (s.nearRun (s.frame t) desc 48).1
      let dw (j : Nat) : DWord := BitVec.ofNat 64 (nfield x (64 * j) 64)
      let tenant := s.tenantIdOf t
      let n := (s.uni t b.op).toNat
      let count := nfield x 128 32
      let root := nfield x 160 16
      match (if n < 256 then s.groupOpen tenant n else none) with
      | none => .trap { code := 0x80 }
      | some g =>
        let ranks := g.ranks.length
        if field desc 0 4 ≠ 0 ∨ !collShape op m count root ranks ∨
            (g.rankOf (dieOf t.quarter)).isNone then .trap { code := 0x80 }
        else match s.creditsOf tenant [t.core] bar with
          | .error e => .trap e
          | .ok cs =>
            let out := collOut op count ranks
            match globEnds (runEnds (dw 0) (collBytes m count) ++ runEnds (dw 1) (collBytes m out) ++
                runEnds (dw 3) (collScales m count) ++ runEnds (dw 4) (collScales m out)) with
            | .error e => .trap e
            | .ok _ => s.issueCmd k t .coll (.coll op m rop n (dw 0) (dw 1) count root (dw 3) (dw 4)) d cs)

/-! ### The results of a matched collective -/

/-- What a rank contributes: its packed elements and its scale codes. -/
structure RankData where
  rank : Nat
  data : Array Byte
  scales : Array Byte
  deriving DecidableEq, Repr

/-- Element j of a rank. -/
def RankData.elem (r : RankData) (m : CollFmt) (j : Nat) : Nat :=
  let w := collBits m
  let bit := j * w
  let at0 := bit / 8
  let byte (i : Nat) : Nat := ((r.data[at0 + i]?).getD 0).toNat
  nfield (byte 0 + 2 ^ 8 * byte 1 + 2 ^ 16 * byte 2 + 2 ^ 24 * byte 3) (bit % 8) w

/-- An element of a plain format, as FP32 or as its 32 bits. -/
def plainWord (m : CollFmt) (x : Nat) : Word :=
  match m with
  | .bf16 => BitVec.ofNat 32 ((fBF16.decode x).toF32 .rn).1
  | .f16 => BitVec.ofNat 32 ((fF16.decode x).toF32 .rn).1
  | _ => BitVec.ofNat 32 x

/-- One reduction of a plain format (R274). -/
def plainReduce (m : CollFmt) (rop : CollRop) (acc x : Word) : Word :=
  match m, rop with
  | .s32, .add => acc + x
  | .s32, .max => maxS acc x
  | .s32, .min => minS acc x
  | _, .add => BitVec.ofNat 32 (fF32.add acc.toNat x.toNat .rn).1
  | _, .max => (fminmax true acc x).1
  | _, .min => (fminmax false acc x).1

/-- The result element in its format. -/
def plainResult (m : CollFmt) (x : Word) : Nat :=
  match m with
  | .bf16 => (toFloat fBF16 (fF32.decode x.toNat) .rn .nosat 0).1
  | .f16 => (toFloat fF16 (fF32.decode x.toNat) .rn .nosat 0).1
  | _ => x.toNat

/-- The bytes of a number, lowest first. -/
def bytesOfNat (x : Nat) (n : Nat) : List Byte := (List.range n).map (fun j => BitVec.ofNat 8 (x / 256 ^ j))

/-- The reduced elements j of a plain format, in ascending rank order. -/
def plainElems (m : CollFmt) (rop : CollRop) (rs : List RankData) (lo n : Nat) : List Byte :=
  (List.range n).flatMap (fun i =>
    bytesOfNat (plainResult m (foldFirst (plainReduce m rop) (rs.map (fun r => plainWord m (r.elem m (lo + i))))))
      (collBits m / 8))

/-- F of each MX format, and its emax (R275). -/
def mxF : CollFmt → Int
  | .e4m3 => 9 | .e5m2 => 16 | .e2m3 => 3 | .e3m2 => 4 | _ => 1
def mxEmax : CollFmt → Int
  | .e4m3 => 8 | .e5m2 => 15 | .e3m2 => 4 | _ => 2

/-- x · 2^e rounded to the nearest integer, ties to even. -/
def scaleInt (neg : Bool) (mag : Nat) (e : Int) : Int :=
  let r : Nat :=
    if 0 ≤ e then mag * 2 ^ e.toNat
    else
      let d := 2 ^ (-e).toNat
      let q := mag / d
      let rem := mag % d
      if 2 * rem < d then q else if d < 2 * rem then q + 1 else q + q % 2
  if neg then -(r : Int) else r

/-- An element quantised against the agreed scale; none for a NaN or an infinity. -/
def mxQuant (m : CollFmt) (f : FloatFmt) (top : Nat) (r : RankData) (j : Nat) : Option Int :=
  match f.decode (r.elem m j) with
  | .fin neg mag e => some (scaleInt neg mag (e + ((r.scales[j / 32]?).getD 0).toNat - top + mxF m))
  | _ => none

/-- Combines the quantised elements of the ranks. -/
def mxCombine (rop : CollRop) : List Int → Int
  | [] => 0
  | x :: r => match rop with
    | .add => r.foldl (· + ·) x
    | .max => r.foldl max x
    | .min => r.foldl min x

/-- A block of 32 elements reduced: its element codes and its scale code (R275). -/
def mxBlock (m : CollFmt) (f : FloatFmt) (rop : CollRop) (rs : List RankData) (b : Nat) : List Nat × Byte :=
  let codes := rs.map (fun r => ((r.scales[b]?).getD 0).toNat)
  let top := codes.foldl max 0
  if codes.contains 0xFF then (List.replicate 32 0, 0xFF)
  else
    let vals : List (Option Int) := (List.range 32).map (fun i =>
      let qs := rs.map (fun r => mxQuant m f top r (32 * b + i))
      if qs.any Option.isNone then none else some (mxCombine rop (qs.filterMap id)))
    let most := vals.foldl (fun a v => max a (v.getD 0).natAbs) 0
    let e : Int := if most = 0 then top
      else max 0 (min 254 (((Nat.log2 most : Nat) : Int) + (top - 127 - mxF m) - mxEmax m + 127))
    let code (v : Option Int) : Nat :=
      match v with
      | none => f.nanCode
      | some x => (toFloat f (.fin (decide (x < 0)) x.natAbs (top - mxF m - e)) .rn .sat 0).1
    (vals.map code, BitVec.ofInt 8 e)

/-- Packs element codes bit by bit, lowest first. -/
def packCodes (w : Nat) (cs : List Nat) : List Byte :=
  bytesOfNat (cs.foldr (fun c acc => c + 2 ^ w * acc) 0) (cs.length * w / 8)

/-- The reduced blocks of an MX format: element bytes and scale bytes. -/
def mxElems (m : CollFmt) (f : FloatFmt) (rop : CollRop) (rs : List RankData) (lo n : Nat) : List Byte × List Byte :=
  let bs := (List.range (n / 32)).map (fun i => mxBlock m f rop rs (lo / 32 + i))
  (bs.flatMap (fun b => packCodes (collBits m) b.1), bs.map Prod.snd)

/-- What rank q receives: element bytes and scale bytes (R273 to R275). -/
def collResult (op : CollOp) (m : CollFmt) (rop : CollRop) (count root : Nat) (rs : List RankData) (q : Nat) :
    List Byte × List Byte :=
  let reduce (lo n : Nat) : List Byte × List Byte :=
    match collMx m with
    | some f => mxElems m f rop rs lo n
    | none => (plainElems m rop rs lo n, [])
  match op with
  | .allred => reduce 0 count
  | .redsc => reduce (q * (count / rs.length)) (count / rs.length)
  | .allgat => (rs.flatMap (fun r => r.data.toList), rs.flatMap (fun r => r.scales.toList))
  | .bcast => match rs.find? (fun r => r.rank == root) with
    | some r => (r.data.toList, r.scales.toList)
    | none => ([], [])

/-! ### COLL_MATCH -/

/-- The next coll of a die on a group that has not been matched. -/
def State.nextColl (s : State) (tenant group die : Nat) : Option (Nat × Cmd) :=
  s.cmds.find? (fun e => e.2.tenant == tenant && e.2.engine == collEngine die && e.2.stop.isNone &&
    match e.2.kind with
    | .coll _ _ _ g _ _ _ _ _ _ => g == group
    | _ => false)

/-- What must agree between ranks. -/
structure CollKey where
  op : CollOp
  fmt : CollFmt
  rop : CollRop
  count : Nat
  root : Nat
  deriving DecidableEq, Repr

def Cmd.collKey (c : Cmd) : Option CollKey :=
  match c.kind with
  | .coll op m rop _ _ _ count root _ _ => some ⟨op, m, rop, count, root⟩
  | _ => none

def RemoteRank.key (r : RemoteRank) : CollKey := ⟨r.op, r.fmt, r.rop, r.count, r.root⟩

/-- The local ranks of a group: rank and die. -/
def Group.localRanks (g : Group) : List (Nat × Nat) :=
  ((List.range g.ranks.length).zip g.ranks).filterMap (fun e => if e.2.1 = Config.device then some (e.1, e.2.2) else none)

/-- The collective uses a rank's source: a broadcast uses only its root's. -/
def CollKey.uses (key : CollKey) (rank : Nat) : Bool := key.op != .bcast || rank == key.root

/-- A local rank's source: its data and whether an error was met, or the status that refuses it. -/
def rankSource (key : CollKey) (rank : Nat) (c : Cmd) : Except Byte (RankData × Bool) :=
  let n := collBytes key.fmt key.count
  if !key.uses rank then .ok (⟨rank, #[], #[]⟩, false)
  else match c.fail with
    | some e => .error e
    | none => .ok (⟨rank, (c.data.take n).toArray, (c.data.drop n).toArray⟩, c.srcBad)

/-- Stops commands with a status. (DEDUCED, log 57) -/
def State.stopAll (s : State) (st : Byte × Nat) : List (Nat × Cmd) → State
  | [] => s
  | (id, c) :: r => State.stopAll { s with cmds := s.cmds.put id { c with stop := some st } } st r

/-- Gives each local rank its results to write. (DEDUCED, log 58) -/
def State.giveResults (s : State) (key : CollKey) (rs : List RankData) (poison : Bool) : List (Nat × Nat × Cmd) → State
  | [] => s
  | (rank, id, c) :: r =>
    let c1 := match c.kind with
      | .coll _ _ _ g _ dst _ _ _ dsc =>
        let out := collResult key.op key.fmt key.rop key.count key.root rs rank
        { c with kind := .results g dst out.1 dsc out.2 poison, poisonAt := if poison then some 0 else none, data := [] }
      | _ => c
    State.giveResults { s with cmds := s.cmds.put id c1 } key rs poison r

/-- Inserts ranks in ascending order. -/
def insertRank (x : RankData) : List RankData → List RankData
  | [] => [x]
  | y :: r => if x.rank < y.rank then x :: y :: r else y :: insertRank x r

/-- COLL_MATCH. The kth coll of every rank of a group meets: a mismatch ends them all with status 0x09; otherwise, once the
sources it uses have been read, each rank of this device has its results to write. The ranks of other devices are what the
event brings.
(DESIGN CHOICE, log 59) -/
def execCollMatch (tenant group : Nat) (remote : List RemoteRank) (s : State) : Out :=
  match s.group? tenant group with
  | none => .next s
  | some g =>
    let locals := g.localRanks.map (fun r => (r.1, s.nextColl tenant group r.2))
    let here := locals.filterMap (fun e => e.2.map (fun c => (e.1, c.1, c.2)))
    let far := (List.range g.ranks.length).filter (fun q => !g.localRanks.any (fun r => r.1 == q))
    if s.held || here.length ≠ locals.length || here.isEmpty || remote.map RemoteRank.rank != far then .next s
    else
      let keys := here.filterMap (fun e => e.2.2.collKey) ++ remote.map RemoteRank.key
      let cmds := here.map Prod.snd
      match keys with
      | [] => .next s
      | key :: rest =>
        if rest.any (fun x => x != key) then .next (s.stopAll (0x09, 0) cmds)
        else if here.any (fun e => key.uses e.1 && !e.2.2.sourceRead) then .next s
        else
          let srcs := here.map (fun e => rankSource key e.1 e.2.2)
          match (srcs.zip cmds).find? (fun e => match e.1 with
            | .error _ => true
            | .ok _ => false) with
          | some (.error st, c) => .next (((s.stopAll (0x07, 0) cmds)).stopAll (st, 0) [c])
          | _ =>
            let good := srcs.filterMap (fun e => match e with
              | .ok v => some v
              | .error _ => none)
            let rs := (good.map Prod.fst ++ remote.map (fun r => (⟨r.rank, r.data.toArray, r.scales.toArray⟩ : RankData)))
            .next (s.giveResults key (rs.foldr insertRank []) (good.any Prod.snd) here)

/-- Ends every coll of a group as a peer reset: status 0x07 and the bytes landed (R276). -/
def State.peerReset (s : State) (p : Cmd → Bool) : State :=
  { s with cmds := s.cmds.map (fun e =>
      if p e.2 && e.2.stop.isNone && e.2.cls == .coll then (e.1, { e.2 with stop := some (0x07, e.2.landed), pending := [] })
      else e) }

/-! ### Messages (R277) -/

/-- amsg: it acts as a device-scope fence before it reads its payload. -/
def execAmsg (d : Opnd) (a b c : Src) (len : BitVec 21) (s : State) : Out :=
  s.issue (.amsg d a b c len) (fun k t s =>
    let cluster := (s.uni t a.op).toNat
    let n := len.toNat
    if 31 < cluster ∨ n < 8 ∨ 256 < n ∨ n % 8 ≠ 0 then .trap { code := 0x80 }
    else
      let p := s.uni t b.op
      match s.nearExtent (s.frame t) p n with
      | .error e => .trap e
      | .ok _ =>
        let run := s.nearRun (s.frame t) p n
        s.fenced k t .device
          (s.issueCmd k t .copy (.amsg cluster (s.uni t c.op).toNat run.1) d [] (if run.2 then some 0 else none)))

/-! ### Futures (R263, R264) -/

/-- The token of the command pending on an s register of a team, or 0. (DEDUCED, log 64) -/
def State.pendingToken (s : State) (k n : Nat) : DWord :=
  match s.cmds.find? (fun e => e.2.team == k && e.2.future == some n) with
  | some (_, c) => c.token
  | none => 0

/-- What ftest.tok says of a token: outstanding, completed, or not of the tenant's last 2^32 commands. -/
def State.tokenState (s : State) (tenant : Nat) (tok : DWord) : DWord :=
  match s.tenant? tenant with
  | none => 3
  | some t =>
    match (t.tokens.take (2 ^ 32)).find? (fun e => e.1 == tok) with
    | none => 3
    | some (_, id) => if (s.cmds.get? id).isSome then 0 else 1

/-- The state of an s register as ftest reports it. -/
def flagCode : Flag → DWord
  | .empty => 0
  | .full => 1
  | .poisoned => 2

/-- ftest. -/
def execFtest (form : TestForm) (ext : Bool) (d a : Opnd) (s : State) : Out :=
  s.issue (.ftest form ext d a) (fun k t s =>
    let n := (futureOf a).getD 0
    let x : DWord := match form with
      | .plain => flagCode (t.regs.sflg n)
      | .id => if t.regs.sflg n == .empty then s.pendingToken k n else 0
      | .tok => s.tokenState (s.tenantIdOf t) (s.uni t a)
    uniBody d x k t s)

/-- Where a cancelled stream may stop: at a piece that has not begun, or where addressing has come to, with nothing at or
beyond it begun or landed. -/
def Cmd.stopsAt (c : Cmd) : List Nat :=
  let begun := (c.pending.filter Piece.begun).map Piece.pos ++ c.ahead.map Prod.fst
  ((c.pending.filter (fun p => !p.begun)).map Piece.pos ++ [c.next]).filter (fun o => begun.all (fun b => decide (b < o)))

/-- Cuts a stream at an offset: pieces at or beyond it never land. A cause that lies lower stands (R255). -/
def Cmd.cutAt (c : Cmd) (o : Nat) : Cmd :=
  { c with
    next := min o c.next
    pending := c.pending.filter (fun p => decide (p.pos < o))
    stop := match c.stop with
      | some e => if e.2 ≤ o then some e else some (0x01, o)
      | none => some (0x01, o) }

/-- Cancels a command: the pieces below a stopping point land, and no others; what has begun without pieces runs on (R264), and so
does a push. (DEDUCED, log 127) -/
def State.cancelCmd (s : State) (id : Nat) (c : Cmd) : State :=
  let put (c1 : Cmd) : State := { s with cmds := s.cmds.put id c1 }
  let stop (v : Nat) : State := if c.stop.isSome then s else put { c with stop := some (0x01, v) }
  match c.kind with
  | .coll .. | .results .. | .push .. => s
  | .promote _ _ | .demote _ => if c.move.isSome then s else stop 0
  | .amsg _ _ _ => stop 0
  | .check _ x poss done => if checkMore x poss done then stop (checkRow x poss done) else s
  | _ =>
    if c.pending.isEmpty && !c.more then s
    else
      let os := c.stopsAt
      let i := Config.freeChoice s.draws os.length % os.length
      { put (c.cutAt (os.getD i c.next)) with draws := s.draws + 1 }

/-- fcan. -/
def execFcan (tok : Bool) (ext : Bool) (a : Opnd) (s : State) : Out :=
  s.issue (.fcan tok ext a) (fun k t s =>
    let target := if tok then
        s.cmds.find? (fun e => e.2.tenant == s.tenantIdOf t && e.2.token == s.uni t a)
      else
        s.cmds.find? (fun e => e.2.team == k && e.2.future.isSome && e.2.future == futureOf a)
    match target with
    | none => .done s
    | some (id, c) => .done (s.cancelCmd id c))

end Sys2Proof.Machine
end

