-- ==== Sys2Proof/Machine/Placement.lean ====
section
/-! DEFINITION. Placing blocks: what a block needs and takes (R19 to R23, R48, R99, R103, R232, R404), the starting state of
its teams and stream (R35, R149, R152, R172, R219, R390), and whether a grid can ever fit (R351). -/

namespace Sys2Proof.Machine

/-- A block to be placed, and what its teams start with. -/
structure Spawn where
  grid : Nat
  index : Nat
  kernel : Kernel
  teams : Nat := 1
  span : Nat := 1
  roles : List RoleDecl := []
  stream : Option DWord := Option.none
  tiles : Nat := 0
  grants : List (Word × Nat) := []
  core : Option Nat := Option.none
  cls : Nat := 0
  srseed : Word := 0
  /-- the first s registers -/
  args : List DWord := []
  hrec : Option HandlerRec := Option.none
  deriving DecidableEq, Repr

/-- Block `index` of a grid. -/
def Launch.spawn (l : Launch) (g index : Nat) : Spawn :=
  { grid := g, index := index, kernel := l.kernel, teams := l.teams, span := l.span, roles := l.roles
    stream := if l.tiles = 0 then Option.none else some l.stream, tiles := l.tiles, grants := l.grants
    core := if index = 0 then l.core else Option.none, cls := l.cls, srseed := l.srseed
    args := l.arg.toList }

/-! ### What is taken (R23) -/

/-- Resources of a quarter. -/
structure Usage where
  slots : Nat := 0
  lanes : Nat := 0
  words : Nat := 0
  sregs : Nat := 0
  deriving DecidableEq, Repr

/-- What is left of one load without another. -/
def Usage.less (a b : Usage) : Usage :=
  { slots := a.slots - b.slots, lanes := a.lanes - b.lanes, words := a.words - b.words, sregs := a.sregs - b.sregs }

def Usage.plus (a b : Usage) : Usage :=
  { slots := a.slots + b.slots, lanes := a.lanes + b.lanes, words := a.words + b.words, sregs := a.sregs + b.sregs }

/-- The limits of R23; the operand and last-result files hold 16 and 4 words for each of 2,048 lanes. -/
def Usage.ok (u : Usage) : Bool := decide (u.slots ≤ 16 ∧ u.lanes ≤ 2048 ∧ u.words ≤ 65536 ∧ u.sregs ≤ 3072)

def Team.usage (t : Team) : Usage := { slots := 1, lanes := t.lanes, words := t.lanes * t.vregs, sregs := t.sregs }
def Kernel.usage (k : Kernel) : Usage := { slots := 1, lanes := k.lanes, words := k.lanes * k.vregs, sregs := k.sregs }

/-- What resident teams take of a quarter, and the spill slots it lends (R48). -/
def State.load (s : State) (q : Nat) : Usage :=
  s.teams.foldl (fun u e =>
    let t := e.2
    if t.st == .retired || !s.residentBlock t.block then u
    else
      let u1 := if t.quarter = q then u.plus t.usage else u
      if t.lease = some q then u1.plus { words := t.spill * t.lanes } else u1) {}

/-- n teams of a kernel. -/
def Kernel.usages (k : Kernel) : Nat → Usage
  | 0 => {}
  | n + 1 => k.usage.plus (Kernel.usages k n)

/-- The teams that stand on the fullest quarter of one of the launch's blocks keep to a quarter's limits (R23). -/
def Launch.quarterOk (l : Launch) : Bool := (l.kernel.usages ((l.teams + l.span - 1) / l.span)).ok

/-! ### Where a block may stand (R22, R348) -/

/-- The partition of a tenant that holds all the quarters; a shared one serves the tenant whose turn it is (R352). -/
def State.partitionOf (s : State) (tenant : Nat) (qs : List Nat) : Option Partition :=
  (s.partitions.find? (fun p => p.2.tenants.any (fun e => e.1 == tenant) && qs.all (fun q => p.2.quarters.contains q) &&
    (!p.2.shared || p.2.turn == some tenant))).map Prod.snd

/-- A list rises strictly. -/
def rising : List Nat → Bool
  | a :: b :: r => decide (a < b) && rising (b :: r)
  | _ => true

/-- The core offset lies in a partition's offsets on the core (R348). -/
def Partition.holds (p : Partition) (core off : Nat) : Bool :=
  decide (off < Config.scratchBytes) && p.quarters.contains (4 * core + off / (Config.scratchBytes / 4))

/-- A piece of a command of an ended block, or a tile write of one, has still to land in a granule (R103, R367). -/
def State.landsIn (s : State) (core g : Nat) : Bool :=
  s.cmds.any (fun c => (s.block? c.2.block).any (fun b => b.st == .ended) && c.2.pending.any (fun p => p.dst.any (fun d =>
    d.1.inRun core g 1))) ||
    s.mreads.any (fun m => (s.block? m.2.block).any (fun b => b.st == .ended) && m.2.bytes.any (inRun core g 1 m.2.core))

/-- The granule of a core is free of allocations, of grants, and of what ended blocks' commands have still to land. -/
def State.granuleFree (s : State) (core g : Nat) : Bool :=
  !s.blocks.any (fun b => b.2.resident && (b.2.quarters.map coreOf).contains core &&
      decide (b.2.p / 64 ≤ g ∧ 64 * g < b.2.p + b.2.scratch)) &&
    !s.grants.any (fun e => e.core == core && decide (e.first ≤ g ∧ g < e.first + e.run)) && !s.landsIn core g

/-- The granules of an allocation. -/
def allocGranules (p scratch : Nat) : List Nat := (List.range ((scratch + 63) / 64)).map (fun j => p / 64 + j)

/-- The granule runs a launch grants to a block at offset P of a cluster: core, first granule and count (R404). -/
def grantRuns (cluster p : Nat) (gs : List (Word × Nat)) : List (Nat × Nat × Nat) :=
  gs.map (fun g =>
    let o := p + field g.1 0 20
    (16 * cluster + field g.1 24 4, o / 64, if g.2 = 0 then 0 else (o + g.2 - 1) / 64 + 1 - o / 64))

/-- The table entries of the runs. -/
def grantEntries (cluster block : Nat) (rs : List (Nat × Nat × Nat)) : List Grant :=
  rs.flatMap (fun r => splitRun cluster block r.1 r.2.1 (r.2.2 + 1) r.2.2)

/-- How many of the block's teams stand on the i-th of its quarters. -/
def Spawn.on (w : Spawn) (i : Nat) : Nat := (w.teams + w.span - 1 - i) / w.span

/-- The partition's lowest quarter in a cluster. -/
def Partition.lowest (p : Partition) (cluster : Nat) : Nat :=
  (p.quarters.filter (fun q => clusterOf q == cluster)).foldl min 2048

/-- The most a handler team takes of a quarter (R370). -/
def handlerRoom : Usage := { slots := 1, lanes := 32, words := 512, sregs := 16 }

/-- The handler teams that stand on a quarter. -/
def State.handlersOn (s : State) (q : Nat) : List Team :=
  (s.teams.filter (fun e => e.2.handler.isSome && e.2.st != .retired && e.2.quarter == q && s.residentBlock e.2.block)).map
    Prod.snd

/-- The room a quarter keeps for a handler team, within its limits: on the lowest quarter of each cluster of a partition, less
what handler teams already take there (R23, R370). (DEDUCED, log 78) -/
def State.kept (s : State) (q : Nat) : Usage :=
  if s.partitions.any (fun p => p.2.quarters.contains q && q == p.2.lowest (clusterOf q)) then
    handlerRoom.less ((s.handlersOn q).foldl (fun u t => u.plus t.usage) {})
  else {}

/-- A quarter has room for a load besides what it holds and keeps (R23, R370). -/
def State.roomFor (s : State) (q : Nat) (u : Usage) : Bool := (((s.load q).plus u).plus (s.kept q)).ok

/-- A quarter has room for the teams of the block's i-th quarter; a handler team may have the kept room (R23, R370). -/
def State.quarterOk (s : State) (w : Spawn) (i q : Nat) : Bool :=
  let u := w.kernel.usages (w.on i)
  if w.hrec.isSome then ((s.load q).plus u).ok else s.roomFor q u

/-- Two runs of offsets meet. -/
def runsMeet (a n b m : Nat) : Bool := decide (a < b + m ∧ b < a + n)

/-- The 4 KiB from an offset of a core are clear of every allocation and grant. -/
def State.pageFree (s : State) (core off : Nat) : Bool :=
  !s.blocks.any (fun b => b.2.resident && (b.2.quarters.map coreOf).contains core && runsMeet off 4096 b.2.p b.2.scratch) &&
    !s.grants.any (fun e => e.core == core && runsMeet off 4096 (64 * e.first) (64 * e.run))

/-- Runs of offsets taken on a core leave 4 KiB for a handler team of the partition's lowest quarter there, unless a handler
team with scratchpad stands on it (R370). -/
def State.pageKept (s : State) (p : Partition) (core : Nat) (taken : List (Nat × Nat)) : Bool :=
  let q := p.lowest (core / 16)
  coreOf q != core || taken.all (fun r => r.2 == 0) ||
    (s.handlersOn q).any (fun t => decide (0 < ((s.block? t.block).map Block.scratch).getD 0)) ||
    (List.range 256).any (fun k => p.holds core (4096 * k) && s.pageFree core (4096 * k) &&
      taken.all (fun r => !runsMeet (4096 * k) 4096 r.1 r.2))

/-- What a block at offset P takes of a core: its allocation, and its grants there. -/
def Spawn.taken (w : Spawn) (cluster off core : Nat) (cores : List Nat) : List (Nat × Nat) :=
  (if cores.contains core then [(off, w.kernel.scratch)] else []) ++
    ((grantRuns cluster off w.grants).filter (fun r => r.1 == core)).map (fun r => (64 * r.2.1, 64 * r.2.2))

/-- The kept scratchpad stays free, on the core of the lowest quarter in the block's cluster (R370). -/
def State.scratchKept (s : State) (w : Spawn) (p : Partition) (cluster off : Nat) (cores : List Nat) : Bool :=
  let core := coreOf (p.lowest cluster)
  w.hrec.isSome || s.pageKept p core (w.taken cluster off core cores)

/-- The core has a free sequencer for the block's stream: the partition has one there for each of its quarters (R232, R348). -/
def State.sequencerFree (s : State) (w : Spawn) (p : Partition) (core : Nat) : Bool :=
  w.stream.isNone ||
    decide ((s.blocks.filter (fun b => b.2.resident && b.2.stream.isSome && coreOf (b.2.quarters.headD 0) == core &&
        p.quarters.contains (b.2.quarters.headD 0))).length <
      (p.quarters.filter (fun q => coreOf q == core)).length)

/-- A quadrant of the block's stream core has its tiles free (R232). -/
def State.tilesFree (s : State) (w : Spawn) (core q : Nat) : Bool :=
  w.stream.isNone || coreOf q != core ||
    decide ((s.blocks.filter (fun b => b.2.resident && b.2.stream.isSome && b.2.quarters.contains q &&
      coreOf (b.2.quarters.headD 0) == core)).foldl
        (fun n b => n + ((s.grid? b.2.grid).map (fun g => g.launch.tiles)).getD 0) w.tiles ≤ 16)

/-- The block's allocation at offset P lies in the partition on a core, clear of every allocation and grant (R22). -/
def State.allocFree (s : State) (w : Spawn) (p : Partition) (off core : Nat) : Bool :=
  (allocGranules off w.kernel.scratch).all (fun g => p.holds core (64 * g) && s.granuleFree core g)

/-- The launch's grants can be made in a cluster: each granule is free and lies in the tenant's partition, and the table has
room (R21, R103, R404). -/
def State.grantsOk (s : State) (tenant : Nat) (w : Spawn) (p : Partition) (cluster off : Nat) : Bool :=
  let runs := grantRuns cluster off w.grants
  runs.all (fun r => (List.range r.2.2).all (fun j => p.holds r.1 (64 * (r.2.1 + j)) && s.granuleOwned tenant r.1 (r.2.1 + j) &&
      s.granuleFree r.1 (r.2.1 + j))) &&
    decide (s.grantCount cluster + (grantEntries cluster 0 runs).length ≤ 512)

/-- A choice the distributor may make for a block (R21, R22). -/
def State.placeOk (s : State) (tenant : Nat) (w : Spawn) (c : PlaceChoice) : Bool :=
  let qs := c.quarters
  let first := qs.headD 0
  let core := coreOf first
  match s.partitionOf tenant qs with
  | none => false
  | some p =>
    qs.length == w.span && rising qs && qs.all (fun q => decide (q < Config.quarters) && clusterOf q == clusterOf first) &&
      ((List.range qs.length).zip qs).all (fun e => s.quarterOk w e.1 e.2 && s.tilesFree w core e.2 &&
        s.allocFree w p c.p (coreOf e.2)) &&
      s.sequencerFree w p core && c.p % 4096 == 0 && decide (c.p < Config.scratchBytes) &&
      (w.kernel.scratch != 0 || c.p == 0) &&
      (match w.core with
        | none => true
        | some x => core % 16 == x) &&
      s.grantsOk tenant w p (clusterOf first) c.p && s.scratchKept w p (clusterOf first) c.p (qs.map coreOf)

/-- The lowest quarters of a list that serve as the block's places from the i-th on. -/
def takeQuarters (ok : Nat → Nat → Bool) (i : Nat) : Nat → List Nat → Option (List Nat)
  | 0, _ => some []
  | _, [] => none
  | n + 1, q :: r =>
    if ok i q then (takeQuarters ok (i + 1) n r).map (q :: ·) else takeQuarters ok i (n + 1) r

/-- A choice for a block in a cluster, if there is one: for some partition, offset and first quarter, the lowest others that
serve. -/
def State.findPlace (s : State) (tenant : Nat) (w : Spawn) (cluster : Nat) : Option PlaceChoice :=
  let own := (List.range 64).map (fun j => 64 * cluster + j)
  let offs := if w.kernel.scratch = 0 then [0] else (List.range 256).map (4096 * ·)
  s.partitions.findSome? (fun p =>
    if !p.2.tenants.any (fun e => e.1 == tenant) then none
    else
      let qs := own.filter (fun q => p.2.quarters.contains q)
      offs.findSome? (fun off => qs.findSome? (fun q0 =>
        let ok (i q : Nat) : Bool :=
          (i != 0 || q == q0) && s.quarterOk w i q && s.tilesFree w (coreOf q0) q && s.allocFree w p.2 off (coreOf q)
        match takeQuarters ok 0 w.span (qs.filter (fun q => decide (q0 ≤ q))) with
        | none => none
        | some l =>
          let c : PlaceChoice := { quarters := l, p := off }
          if s.placeOk tenant w c then some c else none)))

/-- A block fits now. -/
def State.fits (s : State) (tenant : Nat) (w : Spawn) : Bool :=
  (List.range Config.clusters).any (fun c => (s.findPlace tenant w c).isSome)

/-! ### Starting a block -/

/-- The role and entry of a team (R219, R390). -/
def teamRole (k : Kernel) (roles : List RoleDecl) (t : Nat) : Role × DWord :=
  let rec go : List RoleDecl → Nat → Role × DWord
    | [], _ => (.free, k.entry)
    | r :: rest, n => if n < r.count then (if r.copy then .copy else .vector, r.entry) else go rest (n - r.count)
  go roles t

/-- Float trap enables as FTRAP gives them (R152). -/
def fpStart (k : Kernel) (srseed : Word) (team block : Nat) : Fp :=
  let rec seeds : List Nat → Sparse Word
    | [] => []
    | i :: r => (i, rngSeed srseed (team * k.lanes + i) block) :: seeds r
  { enables := k.ftrap, rng := seeds (List.range k.lanes) }

/-- A lane's term context at team start (R172). -/
def ctxStart (k : Kernel) (i : Nat) : TermCtx :=
  { ht := BitVec.ofNat 32 (k.heap + i * k.tstride), tt := BitVec.ofNat 32 (k.trail + i * k.tstride)
    cs := BitVec.ofNat 32 (k.chpt + i * k.tstride) }

/-- s registers from s0 on. -/
def argRegs (args : List DWord) : Sparse DWord :=
  (((List.range args.length).zip args).filter (fun e => e.2 != 0))

/-- The other quarter of the cluster that lends its free main-file space for a team's spill area: the quarters of the same
core first, then ascending (R48). -/
def State.leaseFor (s : State) (t : Team) : Option Nat :=
  if t.spill = 0 then none
  else
    let others := ((List.range 64).map (fun j => 64 * t.cluster + j)).filter (fun x => x != t.quarter)
    let ordered := others.filter (fun x => coreOf x == t.core) ++ others.filter (fun x => coreOf x != t.core)
    ordered.find? (fun x => s.roomFor x { words := t.spill * t.lanes })

/-- Leases space for the teams of a list, in order, once all of them stand in their quarters. -/
def State.leaseTeams (s : State) : List Nat → State
  | [] => s
  | k :: r => State.leaseTeams (s.modTeam k (fun t => { t with lease := s.leaseFor t })) r

/-- A team of a block at its start (R35). (DESIGN CHOICE, log 7) -/
def Spawn.team (w : Spawn) (block q t : Nat) : Team :=
  let k := w.kernel
  let (role, entry) := teamRole k w.roles t
  { block := block, index := t, quarter := q, lanes := k.lanes, vregs := k.vregs, sregs := k.sregs, spill := k.spill
    priv := k.priv, cstack := k.cstack, heap := k.heap, trail := k.trail, chpt := k.chpt, tstride := k.tstride
    role := role, regs := { sreg := argRegs w.args }
    ctl := { pc := entry, mask := Mask.below k.lanes }
    fp := fpStart k w.srseed t w.index
    term := ((List.range k.lanes).map (fun i => (i, ctxStart k i))).filter (fun e => e.2 != ({} : TermCtx))
    handler := w.hrec }

/-- Puts the teams of a block in place, from team t on. -/
def State.startTeams (s : State) (w : Spawn) (block : Nat) (qs : List Nat) (t : Nat) : Nat → State
  | 0 => s
  | n + 1 =>
    let q := (qs[t % w.span]?).getD 0
    let (id, s1) := s.fresh
    State.startTeams { s1 with teams := s1.teams.put id (w.team block q t) } w block qs (t + 1) n

/-- Clears n words' poison and bytes of a core from an offset on. -/
def State.clearSpm (s : State) (core off n : Nat) : State :=
  let lo := spmKey core off
  { s with
    spm := s.spm.filter (fun e => decide (e.1 < lo ∨ lo + n ≤ e.1))
    spmPoison := s.spmPoison.filter (fun e => decide (e.1 < lo / 4 ∨ (lo + n) / 4 ≤ e.1)) }

/-- The bytes of the scratchpad image, as engine reads find them; a byte that is refused is 0.
(DEDUCED, log 85) -/
def State.sdata (s : State) (cluster tenant : Nat) (k : Kernel) : List Byte :=
  (List.range k.sdlen).map (fun j =>
    match s.engineAddr cluster tenant (k.sdata.toNat + j) .read with
    | .ok pa => s.physByte pa
    | .error _ => 0)

/-- Fills the block's part of each core: the image from offset 0, the rest zero (R390). -/
def State.fillParts (s : State) (p scratch : Nat) (img : List Byte) : List Nat → State
  | [] => s
  | core :: r =>
    let s1 := s.clearSpm core p scratch
    State.fillParts { s1 with spm := Memory.writeBytes s1.spm (spmKey core p) img } p scratch img r

/-- PLACES A BLOCK: it takes its quarters, scratchpad and grants, its teams and its stream start, and spill areas are leased. -/
def State.spawn (s : State) (tenant : Nat) (w : Spawn) (c : PlaceChoice) : State :=
  let (b, s1) := s.fresh
  let cluster := clusterOf (c.quarters.headD 0)
  let blk : Block :=
    { grid := w.grid, index := w.index, quarters := c.quarters, p := c.p, scratch := w.kernel.scratch, nteams := w.teams
      lanes := w.kernel.lanes, cls := w.cls, isHandler := w.hrec.isSome, age := b
      stream := w.stream.map (fun pc => { pc := pc, cls := w.cls }) }
  let img := s1.sdata cluster tenant w.kernel
  let s2 := s1.fillParts c.p w.kernel.scratch img ((c.quarters.map coreOf).eraseDups)
  let s3 := { s2 with
    blocks := s2.blocks.put b blk
    grants := s2.grants ++ grantEntries cluster b (grantRuns cluster c.p w.grants) }
  let s4 := s3.startTeams w b c.quarters 0 w.teams
  s4.leaseTeams (s4.liveTeams b)

/-! ### Free placement choices -/

/-- Takes n freely chosen items of a list. -/
def pickSome (draw : Nat) : Nat → List Nat → List Nat
  | 0, _ => []
  | n + 1, l =>
    match l[Config.placeChoice draw n % l.length]? with
    | none => []
    | some x => x :: pickSome draw n (l.erase x)

/-- Inserts into a rising list. -/
def insertNat (x : Nat) : List Nat → List Nat
  | [] => [x]
  | y :: r => if x < y then x :: y :: r else y :: insertNat x r

/-- A free choice of quarters in one cluster and of P. (DESIGN CHOICE, log 74) -/
def State.drawPlace (s : State) (w : Spawn) (draw : Nat) : PlaceChoice :=
  let cluster := Config.placeChoice draw 100 % Config.clusters
  let own := (List.range 64).map (fun j => 64 * cluster + j)
  let free := own.filter (fun q => s.partitions.any (fun p => p.2.quarters.contains q))
  { quarters := (pickSome draw w.span free).foldr insertNat []
    p := if w.kernel.scratch = 0 then 0 else 4096 * (Config.placeChoice draw 101 % 256) }

/-! ### What can never fit (R270, R305, R351) -/

/-- An empty part: the partitions alone, with nothing resident. -/
def State.emptied (s : State) : State :=
  { s with blocks := [], teams := [], grants := [], partitions := s.partitions.map (fun p => (p.1, { p.2 with shared := false })) }

/-- Some sublist of n items of a list, put after the items taken, meets a test. -/
def anySublist (test : List Nat → Bool) (taken : List Nat) : Nat → List Nat → Bool
  | 0, _ => test taken.reverse
  | _, [] => false
  | n + 1, q :: r => anySublist test (q :: taken) n r || anySublist test taken (n + 1) r

/-- Some choice for a block meets a test: any cluster, offset and quarters of the tenant's. -/
def State.anyPlace (s : State) (tenant : Nat) (w : Spawn) (test : PlaceChoice → Bool) : Bool :=
  let offs := if w.kernel.scratch = 0 then [0] else (List.range 256).map (4096 * ·)
  s.partitions.any (fun p => p.2.tenants.any (fun e => e.1 == tenant) &&
    (List.range Config.clusters).any (fun c => offs.any (fun off =>
      anySublist (fun qs => s.placeOk tenant w { quarters := qs, p := off } && test { quarters := qs, p := off }) []
        w.span (p.2.quarters.filter (fun q => clusterOf q == c)))))

/-- A block with nothing that placing more blocks would look at. -/
def Spawn.bare (w : Spawn) : Spawn := { w with kernel := { w.kernel with sdlen := 0, spill := 0 } }

/-- The blocks of a gang grid from an index on can all stand at once, each put where the first choice for it lies. -/
def State.gangFirst (s : State) (tenant g : Nat) (l : Launch) (index : Nat) : Nat → Bool
  | 0 => true
  | n + 1 =>
    let w := l.spawn g index
    match (List.range Config.clusters).findSome? (fun c => s.findPlace tenant w c) with
    | none => false
    | some c => State.gangFirst (s.spawn tenant w.bare c) tenant g l (index + 1) n

/-- The same for every choice there is. -/
def State.gangSome (s : State) (tenant g : Nat) (l : Launch) (index : Nat) : Nat → Bool
  | 0 => true
  | n + 1 =>
    let w := l.spawn g index
    s.anyPlace tenant w (fun c => State.gangSome (s.spawn tenant w.bare c) tenant g l (index + 1) n)

/-- What n blocks of a grid need in all is no more than the tenant's quarters have. -/
def State.gangBound (s : State) (tenant : Nat) (l : Launch) (n : Nat) : Bool :=
  let qs := (s.partitions.filter (fun p => p.2.tenants.any (fun e => e.1 == tenant))).flatMap (fun p => p.2.quarters)
  let k := l.kernel
  let u : Usage := k.usage
  let all := n * l.teams
  decide (all * u.slots ≤ 16 * qs.length ∧ all * u.lanes ≤ 2048 * qs.length ∧ all * u.words ≤ 65536 * qs.length ∧
    all * u.sregs ≤ 3072 * qs.length ∧ n * ((l.span + 3) / 4) * k.scratch ≤ 2 ^ 18 * qs.length ∧
    (l.tiles = 0 ∨ n ≤ qs.length))

/-- The blocks of a gang grid from an index on can all stand at once (R270). (DEDUCED, log 77) -/
def State.gangFits (s : State) (tenant g : Nat) (l : Launch) (index n : Nat) : Bool :=
  s.gangFirst tenant g l index n || (s.gangBound tenant l n && s.gangSome tenant g l index n)

/-- The empty part with a grid of the launch, as the next to enter. -/
def State.tried (s : State) (tenant : Nat) (l : Launch) : State :=
  s.emptied.setGrid s.nextId { tenant := tenant, queue := 0, number := 0, launch := l, owner := .host 0 0 }

/-- The grid can fit its tenant's partition (R351, status 5). -/
def State.canFit (s : State) (tenant : Nat) (l : Launch) : Bool :=
  if l.gang then (s.tried tenant l).gangFits tenant s.nextId l 0 l.nblk else s.emptied.fits tenant (l.spawn 0 0)

end Sys2Proof.Machine
end

