-- ==== Sys2Proof/Machine/Lists.lean ====
section
/-! DEFINITION. Work lists (R297 to R303) and child launch (R304 to R306). -/

namespace Sys2Proof.Machine

/-! ### Segments (R297) -/

/-- The items of a segment, oldest first. -/
def State.items (s : State) (grid list cluster : Nat) : List DWord :=
  ((s.segments.find? (fun m => m.grid == grid && m.list == list && m.cluster == cluster)).map Segment.items).getD []

/-- A segment with other items; an empty segment is not listed. -/
def State.setItems (s : State) (grid list cluster : Nat) (xs : List DWord) : State :=
  let rest := s.segments.filter (fun m => !(m.grid == grid && m.list == list && m.cluster == cluster))
  { s with segments := if xs.isEmpty then rest else rest ++ [{ grid := grid, list := list, cluster := cluster, items := xs }] }

/-- The grid of a team. -/
def State.gridOf (s : State) (t : Team) : Option Grid := s.grid? (s.gridIdOf t)

/-- Lists of the team's grid. -/
def State.listCount (s : State) (t : Team) : Nat := ((s.gridOf t).map (fun g => g.launch.wln)).getD 0

/-- The grid's end of work has been declared (R303). -/
def State.workOver (s : State) (t : Team) : Bool := ((s.gridOf t).map Grid.endOfWork).getD false

/-! ### wlpush (R299) -/

/-- wlpush: it acts as a device-scope fence, then its items are on their way. -/
def execWlpush (l : BitVec 6) (f : DAB) (s : State) : Out :=
  s.issue (.wlpush l f) (fun k t s =>
    if s.listCount t ≤ l.toNat then .trap { code := 0x95 }
    else
      let items := t.active.map (fun n => (field (s.word t n f.b.op) 0 5, s.dword t n f.a.op))
      s.fenced k t .device (s.issueCmd k t .wl (.push l.toNat items) f.d []))

/-- The items for one cluster, in lane order. -/
def itemsFor (items : List (Nat × DWord)) (c : Nat) : List DWord := (items.filter (fun e => e.1 == c)).map Prod.snd

/-- Appends every group to its segment. -/
def State.appendAll (s : State) (grid list : Nat) (items : List (Nat × DWord)) : List Nat → State
  | [] => s
  | c :: r =>
    State.appendAll (s.setItems grid list c (s.items grid list c ++ itemsFor items c)) grid list items r

/-- WLPUSH_APPEND. Every group of a push is appended, or none. (DEDUCED, log 15) -/
def execWlpushAppend (push : Nat) (s : State) : Out :=
  match s.cmds.get? push with
  | none => .next s
  | some c =>
    match c.kind, s.block? c.block with
    | .push list items, some b =>
      match s.grid? b.grid with
      | none => .next s
      | some g =>
        let cs := (items.map Prod.fst).eraseDups
        if s.held then .next s
        else if g.endOfWork then .next (s.complete push c 0x0C 0)
        else if cs.any (fun x => decide (g.launch.wlcap < (s.items b.grid list x).length + (itemsFor items x).length)) then
          .next (s.complete push c 0x0B 0)
        else .next ((s.appendAll b.grid list items cs).complete push c 0x00 items.length)
    | _, _ => .next s

/-! ### wlpull and wlsteal (R300, R301) -/

/-- The parts of a request (R298). -/
def pullAddr (x : DWord) : Word := x.setWidth 32
def pullCount (x : DWord) : Nat := field x 32 16
def pullList (x : DWord) : Nat := field x 48 8

/-- The checks of a request: the list, then the count and the extent. -/
def State.pullCheck (s : State) (t : Team) (x : DWord) : Option Trap :=
  let a := pullAddr x
  if s.listCount t ≤ pullList x then some { code := 0x95 }
  else if pullCount x = 0 then some { code := 0x96 }
  else
    let bad := ((List.range (pullCount x)).map (fun j => a + BitVec.ofNat 32 (8 * j))).findSome? (fun e =>
      match s.nearCheck (s.frame t) none e 8 with
      | .error c => some c
      | .ok _ => none)
    bad.map (fun c => { code := 0x96, detail := c })

/-- Writes items to near memory, a dword each. (DEDUCED, log 65) -/
def State.putItems (s : State) (k : Nat) (f : Frame) (a : Word) : List DWord → State
  | [] => s
  | x :: r =>
    let s1 := match s.nearCheck f none a 8 with
      | .ok l => s.nearWrite k l 8 x.toNat
      | .error _ => s
    State.putItems s1 k f (a + 8) r

/-- wlpull: its team waits for items or the end of work. -/
def execWlpull (f : DA) (s : State) : Out :=
  s.issue (.wlpull f) (fun k t s =>
    let x := s.uni t f.a.op
    match s.pullCheck t x, futureOf f.d with
    | some e, _ => .trap e
    | none, none => .trap { code := 0x02 }
    | none, some n =>
      if s.workOver t then .done (s.setTeam k (t.fill n (statusWord 0x0C 0)))
      else .done (s.setTeam k { t with hold := .pull x n }))

/-- WLPULL_SERVE. A waiting pull takes the oldest items of its cluster's segment. -/
def execWlpullServe (team : Nat) (s : State) : Out :=
  match s.team? team with
  | none => .next s
  | some t =>
    match t.hold with
    | .pull x n =>
      let g := s.gridIdOf t
      let xs := s.items g (pullList x) t.cluster
      if xs.isEmpty || !s.placedBlock t.block || s.behindRun team (s.frame t) (byteRun (pullAddr x) (8 * pullCount x)) then .next s
      else
        let m := min (pullCount x) xs.length
        let s1 := s.setItems g (pullList x) t.cluster (xs.drop m)
        let s2 := s1.putItems team (s.frame t) (pullAddr x) (xs.take m)
        .next (s2.modTeam team (fun u => { u.fill n (statusWord 0x00 m) with hold := .none }))
    | _ => .next s

/-- wlsteal. -/
def execWlsteal (f : DAB) (s : State) : Out :=
  s.issue (.wlsteal f) (fun k t s =>
    let x := s.uni t f.a.op
    let victim := (s.uni t f.b.op).toNat
    match (if 31 < victim then some { code := 0x95 } else s.pullCheck t x), futureOf f.d with
    | some e, _ => .trap e
    | none, none => .trap { code := 0x02 }
    | none, some n =>
      let g := s.gridIdOf t
      let xs := s.items g (pullList x) victim
      if s.workOver t then .done (s.setTeam k (t.fill n (statusWord 0x0C 0)))
      else if xs.isEmpty then .done (s.setTeam k (t.fill n (statusWord 0x0D 0)))
      else if s.behindRun k (s.frame t) (byteRun (pullAddr x) (8 * pullCount x)) then .wait
      else
        let m := min (pullCount x) ((xs.length + 1) / 2)
        let s1 := s.setItems g (pullList x) victim (xs.take (xs.length - m))
        let s2 := s1.putItems k (s.frame t) (pullAddr x) (xs.drop (xs.length - m))
        .done (s2.modTeam k (fun u => u.fill n (statusWord 0x00 m))))

/-! ### The end of work (R303) -/

/-- A team waits in a wlpull. -/
def Team.pulling (t : Team) : Bool :=
  match t.hold with
  | .pull _ _ => true
  | _ => false

/-- The live teams of a grid. -/
def State.gridTeams (s : State) (g : Nat) : List Nat := s.teams.keys (fun t => t.st != .retired && s.gridIdOf t == g)

/-- The conditions of the end of work hold together. -/
def State.workEnds (s : State) (g : Nat) (x : Grid) : Bool :=
  x.live && x.launch.wln != 0 && !x.endOfWork && decide (x.launch.nblk ≤ x.placed) &&
    !s.segments.any (fun m => m.grid == g) &&
    !s.cmds.any (fun c => c.2.cls == .wl && ((s.block? c.2.block).map Block.grid) == some g) &&
    (s.gridTeams g).all (fun k => ((s.team? k).map Team.pulling).getD true)

/-- Completes a waiting pull with the end of work. -/
def Team.endPull (t : Team) : Team :=
  match t.hold with
  | .pull _ n => { t.fill n (statusWord 0x0C 0) with hold := .none }
  | _ => t

/-- END_OF_WORK. The end is declared, and every waiting pull of the grid completes. -/
def execEndOfWork (grid : Nat) (s : State) : Out :=
  match s.grid? grid with
  | none => .next s
  | some x =>
    if !s.workEnds grid x then .next s
    else
      let ks := s.gridTeams grid
      let s1 := s.setGrid grid { x with endOfWork := true }
      .next { s1 with teams := s1.teams.map (fun e => if ks.contains e.1 then (e.1, e.2.endPull) else e) }

/-! ### Child launch (R304, R305) -/

/-- A child's descriptor as a launch: it inherits its parent's handler, code range and class bound (R305).
(DEDUCED, log 84) -/
def childLaunchOf (p : Launch) (x : Nat) : Launch :=
  { kernel := { entry := BitVec.ofNat 64 (nfield x 0 64), lanes := nfield x 96 16, vregs := nfield x 128 16
                sregs := nfield x 144 16, scratch := nfield x 160 32 }
    code := p.code, codeLen := p.codeLen, nblk := nfield x 64 32, teams := nfield x 112 16, span := nfield x 192 8
    cls := min (nfield x 200 2) p.cls, handler := p.handler, arg := some (BitVec.ofNat 64 (nfield x 256 64)) }

/-- The limits of a descriptor's fields (R304). -/
def childOk (l : Launch) : Bool :=
  let k := l.kernel
  field k.entry 0 2 == 0 && globOk k.entry && decide (1 ≤ l.nblk) &&
    decide (32 ≤ k.lanes ∧ k.lanes ≤ 1024) && k.lanes % 32 == 0 &&
    decide (1 ≤ l.teams ∧ l.teams ≤ 64 ∧ k.lanes * l.teams ≤ 16384) &&
    decide (8 ≤ k.vregs ∧ k.vregs ≤ 256) && k.vregs % 8 == 0 &&
    decide (8 ≤ k.sregs ∧ k.sregs ≤ 192) && k.sregs % 8 == 0 &&
    decide (k.scratch ≤ 0x100000) && decide (1 ≤ l.span ∧ l.span ≤ 16)

/-- The live children of a grid. -/
def State.children (s : State) (g : Nat) : List Nat :=
  s.grids.keys (fun x => !x.ended && (match x.owner with
    | .child p _ _ => p == g
    | .host _ _ => false))

/-- Puts a grid into its queue, with the next number of its tenant. -/
def State.enterGrid (s : State) (g : Grid) : State :=
  let (id, s1) := s.fresh
  let n := ((s1.tenant? g.tenant).map Tenant.nextGrid).getD 0
  let s2 := s1.modTenant g.tenant (fun t => { t with nextGrid := (n + 1) % 2 ^ 24 })
  s2.setGrid id { g with number := n }

/-- The launches a queue holds: grids with blocks still to be placed (R349). -/
def State.queueLength (s : State) (tenant queue : Nat) : Nat :=
  (s.grids.filter (fun g => g.2.tenant == tenant && g.2.queue == queue && g.2.live && decide (g.2.placed < g.2.launch.nblk))).length

/-- A refused child's future (R296, R351). -/
def Team.refuseChild (t : Team) (d : Opnd) (status : Nat) : Team :=
  match futureOf d with
  | some n => t.fill n (statusWord 0x0E status)
  | none => t

/-- A store or an atomic has an element on its way. -/
def Req.writeOut (r : Req) : Bool :=
  match r.kind with
  | .gatom _ _ _ | .store _ | .satom _ | .sts _ _ _ => r.elems.any Elem.flying
  | _ => false

/-- A team's stores and atomics that are in flight. -/
def State.writesOut (s : State) (k : Nat) : List Nat := s.reqs.keys (fun r => r.team == k && r.writeOut)

/-- The child's launcher's stores and atomics that were in flight at the launch have taken effect (R306). -/
def State.launchSeen (s : State) (g : Grid) : Bool := g.after.all (fun n => !((s.reqs.get? n).map Req.writeOut).getD false)

/-- launch. A child that breaks a limit of R23, can never fit, or whose queue is full, completes at once, refused with the lowest
status (R296, R351). (DEDUCED, log 63) -/
def execChildLaunch (d : Opnd) (a : Src) (s : State) : Out :=
  s.issue (.childLaunch d a) (fun k t s =>
    let desc := s.uni t a.op
    let gid := s.gridIdOf t
    match s.grid? gid with
    | none => .wait
    | some g =>
      if 10 ≤ g.depth then .trap { code := 0x97 }
      else match s.firstBad (s.frame t) (byteRun (desc.setWidth 32) 64) with
        | some c => .trap { code := 0x98, detail := c }
        | none =>
          if field desc 0 4 ≠ 0 then .trap { code := 0x98, detail := 0x24 }
          else if s.behindRun k (s.frame t) (byteRun (desc.setWidth 32) 64) then .wait
          else
            let l := childLaunchOf g.launch (leNat (s.nearRun (s.frame t) desc 64).1)
            if !childOk l then .trap { code := 0x98 }
            else if 65535 ≤ (s.children gid).length then .wait
            else if !l.quarterOk then .done (s.setTeam k (t.refuseChild d 0x01))
            else if !s.canFit g.tenant l then
              .done (s.setTeam k (t.refuseChild d 0x05))
            else if 64 ≤ s.queueLength g.tenant g.queue then .done (s.setTeam k (t.refuseChild d 0x08))
            else
              let child : Grid := { tenant := g.tenant, queue := g.queue, number := 0, launch := l
                                    owner := .child gid k (futureOf d), depth := g.depth + 1, suspended := g.suspended
                                    qgen := g.qgen, after := s.writesOut k }
              let empty (u : Team) : Team :=
                match futureOf d with
                | some n => { u with regs := u.regs.setSflg n .empty }
                | none => u
              .done ((s.enterGrid child).modTeam k empty))

end Sys2Proof.Machine
end

