-- ==== Sys2Proof/Machine/NearRows.lean ====
section
/-! DEFINITION. Near rows: the address map (R324), promotion slots (R326, R327), prom, dem and lclass (R328 to R333), and the
completion of every engine command (R254). -/

namespace Sys2Proof.Machine

/-! ### Stripes (R324) -/

/-- The stripe of a physical address, its bank set, and its number in the set. -/
def stripeOf (pa : Nat) : Nat := pa / 2 ^ 16
def bankSet (stripe : Nat) : Nat := stripe % 384
def stripeRow (stripe : Nat) : Nat := stripe / 384
/-- A class N stripe. -/
def stripeNear (stripe : Nat) : Bool := decide (stripeRow stripe < 512)

/-- The offset in a stripe of its first line with a poisoned word. -/
def State.stripePoison (s : State) (stripe : Nat) : Option Nat :=
  (s.dramPoison.find? (fun e => e.1 / 2 ^ 14 == stripe)).map (fun e => e.1 % 2 ^ 14 / 16 * 64)

/-- A page of the stripe belongs to another tenant. -/
def State.foreignStripe (s : State) (tenant stripe : Nat) : Bool :=
  (List.range 16).any (fun j =>
    let e := Sparse.get 0 s.rot (16 * stripe + j)
    e.getLsbD 15 && field e 0 10 != tenant)

/-- A tenant's pins in a bank set (R326). -/
def State.pins (s : State) (tenant set : Nat) : Nat :=
  (s.stripes.filter (fun e => bankSet e.1 == set && e.2.pinned && e.2.owner == tenant)).length

/-- The slots of a bank set in use. -/
def State.slotsUsed (s : State) (set : Nat) : List Nat := (s.stripes.filter (fun e => bankSet e.1 == set)).map (fun e => e.2.slot)

/-- The stripe put out for a promotion: the unpinned one of the lowest sequence number (R327). -/
def State.victim (s : State) (set : Nat) : Option (Nat × Stripe) :=
  let c := s.stripes.filter (fun e => bankSet e.1 == set && !e.2.pinned && !e.2.moving)
  c.find? (fun e => c.all (fun f => decide (e.2.seq ≤ f.2.seq)))

/-- The slot a promotion takes, and the stripe it puts out (R327). -/
def State.chooseSlot (s : State) (set : Nat) : Option (Nat × Option Nat) :=
  let used := s.slotsUsed set
  match (List.range 512).find? (fun n => !used.contains n) with
  | some n => some (n, none)
  | none => (s.victim set).map (fun v => (v.2.slot, some v.1))

/-- The next sequence number of a bank set. (DESIGN CHOICE, log 4) -/
def State.nextSeq (s : State) (set : Nat) : Nat × State :=
  let n := Sparse.get 0 s.setSeq set
  (n, { s with setSeq := Sparse.set 0 s.setSeq set (n + 1) })

/-- The pin quota of a tenant. -/
def State.pinQuota (s : State) (tenant : Nat) : Nat := ((s.tenant? tenant).map Tenant.q).getD 0

/-! ### The commands (R328) -/

/-- prom, prom.pin and dem check bits [63:52] alone at issue (trap 0x85). -/
def promoteBody (d : Opnd) (a : Opnd) (kind : DWord → CmdKind) (k : Nat) (t : Team) (s : State) : Effect :=
  let va := s.uni t a
  if !globOk va then .trap { code := 0x85 } else s.issueCmd k t .promote (kind va) d []

/-- prom. -/
def execProm (f : DA) (s : State) : Out := s.issue (.prom f) (promoteBody f.d f.a.op (.promote false))
/-- prom.pin. -/
def execPromPin (f : DA) (s : State) : Out := s.issue (.promPin f) (promoteBody f.d f.a.op (.promote true))
/-- dem. -/
def execDem (f : DA) (s : State) : Out := s.issue (.dem f) (promoteBody f.d f.a.op .demote)

/-- What the unit finds when it takes up a command: it completes at once, it waits, or a move starts. -/
inductive Serve where
  | status (w : DWord)
  | wait
  | renew (stripe : Nat)
  | move (stripe slot : Nat) (victim : Option Nat)
  | back (stripe : Nat)
  deriving DecidableEq, Repr

/-- The stripe an engine access of a command finds, or its refusal's status (R328). -/
def State.cmdStripe (s : State) (c : Cmd) (va : DWord) : Except Byte Nat :=
  match s.engineAddr c.cluster c.tenant va.toNat .read with
  | .error e => .error e
  | .ok pa => if s.foreignStripe c.tenant (stripeOf pa) then .error 0x04 else .ok (stripeOf pa)

/-- The address of a promote or a demote. -/
def CmdKind.stripeVa : CmdKind → Option DWord
  | .promote _ va => some va
  | .demote va => some va
  | _ => none

/-- A command that came to the bank set's unit earlier has not completed (R328). -/
def State.unitBusy (s : State) (id set : Nat) : Bool :=
  s.cmds.any (fun e => decide (e.1 < id) && e.2.stop.isNone && (match e.2.kind.stripeVa with
    | none => false
    | some va =>
      match e.2.move, s.cmdStripe e.2 va with
      | some m, _ => bankSet m == set
      | none, .ok n => bankSet n == set
      | none, .error _ => false))

/-- The service of a promote or a demote. (DEDUCED, log 67) -/
def State.serve (s : State) (id : Nat) (c : Cmd) : Serve :=
  match c.kind.stripeVa with
  | none => .wait
  | some va =>
    match s.cmdStripe c va with
    | .error e => .status (statusWord e 0)
    | .ok n =>
      let set := bankSet n
      if Config.hostBase ≤ n * 2 ^ 16 then .status (Config.hostStripe s.draws)
      else if s.unitBusy id set then .wait
      else match c.kind, s.stripes.get? n with
        | .promote pin _, st =>
          let full := pin && decide (s.pinQuota c.tenant ≤ s.pins c.tenant set)
          match st with
          | some x =>
            if x.moving then .wait
            else if full && !x.pinned then .status (statusWord 0x12 0)
            else .renew n
          | none =>
            if stripeNear n then .status (statusWord 0x00 2)
            else if full then .status (statusWord 0x12 0)
            else match s.chooseSlot set with
              | none => .status (statusWord 0x10 0)
              | some (slot, v) => .move n slot v
        | _, some x => if x.moving then .wait else .back n
        | _, none => .status (statusWord 0x13 0)

/-- Completes a command with a status word. -/
def State.completeWord (s : State) (id : Nat) (c : Cmd) (w : DWord) : State :=
  s.complete id c (BitVec.ofNat 8 (field w 56 8)) (field w 0 52)

/-- The pin bit of a promote. -/
def CmdKind.pins : CmdKind → Bool
  | .promote pin _ => pin
  | _ => false

/-- Takes up a promote or a demote: it completes, or its move starts. -/
def State.takeUp (s : State) (id : Nat) (c : Cmd) : State :=
  match s.serve id c with
  | .wait => s
  | .status w => State.completeWord { s with draws := s.draws + 1 } id c w
  | .renew n =>
    let (q, s1) := s.nextSeq (bankSet n)
    let s2 := { s1 with stripes := s1.stripes.mod n (fun x => { x with seq := q, pinned := x.pinned || c.kind.pins }) }
    s2.complete id c 0x00 1
  | .move n slot v =>
    let st1 := match v with
      | some m => s.stripes.mod m (fun x => { x with moving := true })
      | none => s.stripes
    { s with
      stripes := st1.put n { slot := slot, moving := true, owner := c.tenant }
      cmds := s.cmds.put id { c with move := some n, victim := v } }
  | .back n =>
    { s with
      stripes := s.stripes.mod n (fun x => { x with moving := true })
      cmds := s.cmds.put id { c with move := some n } }

/-- The status a finished move reports for a stripe (R331). -/
def State.moveStatus (s : State) (stripe : Nat) : Byte × Nat :=
  match s.stripePoison stripe with
  | some o => (0x11, o)
  | none => (0x00, 0)

/-- A system event is raised for a tenant (R370). -/
def State.raiseSystem (s : State) (tenant : Nat) (code : Byte) (addr : DWord) : State :=
  { s with sysEvents := s.sysEvents ++ [(tenant, code, addr)] }

/-- A stripe that is written back leaves its slot; its poison is its own tenant's system event when another's promotion put
it out (R331). -/
def State.putOut (s : State) (by_ : Nat) (v : Option Nat) : State :=
  match v with
  | none => s
  | some m =>
    let owner := ((s.stripes.get? m).map Stripe.owner).getD by_
    let s1 := { s with stripes := s.stripes.del m }
    match s.stripePoison m with
    | some o => if owner = by_ then s1 else s1.raiseSystem owner 0xB8 (BitVec.ofNat 64 (m * 2 ^ 16 + o))
    | none => s1

/-- PROMOTE_MOVE_COMPLETE. The copy into the slot has ended: the stripe is promoted, its victim is far, and the command
completes. No value changes (R330). -/
def execPromoteMoveComplete (cmd : Nat) (s : State) : Out :=
  match s.cmds.get? cmd with
  | none => .next s
  | some c =>
    match c.kind, c.move with
    | .promote pin _, some n =>
      let s1 := s.putOut c.tenant c.victim
      let (q, s2) := s1.nextSeq (bankSet n)
      let (st, v) := s2.moveStatus n
      let s3 := { s2 with
        stripes := s2.stripes.mod n (fun x => { x with moving := false, pinned := pin, seq := q })
        usage := bumpUsage s2.usage c.tenant 4 1 }
      .next (s3.complete cmd c st v)
    | _, _ => .next s

/-- DEMOTE_COMPLETE. The slot has been written back and is free: the stripe is far. -/
def execDemoteComplete (cmd : Nat) (s : State) : Out :=
  match s.cmds.get? cmd with
  | none => .next s
  | some c =>
    match c.kind, c.move with
    | .demote _, some n =>
      let (st, v) := s.moveStatus n
      .next ({ s with stripes := s.stripes.del n }.complete cmd c st v)
    | _, _ => .next s

/-! ### lclass (R329) -/

/-- The class of a stripe. (DEDUCED, log 105) -/
def State.stripeClass (s : State) (n : Nat) : Nat :=
  match s.stripes.get? n with
  | some x => if x.moving then 4 else if x.pinned then 3 else 2
  | none => if stripeNear n then 1 else 0

/-- lclass. (DESIGN CHOICE, log 66) -/
def execLclass (f : DA) (s : State) : Out :=
  s.issue (.lclass f) (fun k t s =>
    let va := s.uni t f.a.op
    let put (x : DWord) : Effect := uniBody f.d x k t s
    if 2 ^ 52 ≤ va.toNat then put 0x31FF
    else match s.translate t.cluster (s.tenantIdOf t) va.toNat .read with
      | .error e => put (BitVec.ofNat 64 (e.code.toNat * 256 + 0xFF))
      | .ok pa =>
        if Config.hostBase ≤ pa then
          uniBody f.d (Config.hostStripe s.draws) k t { s with draws := s.draws + 1 }
        else put (BitVec.ofNat 64 (s.stripeClass (stripeOf pa))))

/-! ### ENGINE_COMMAND_COMPLETE (R254) -/

/-- ENGINE_COMMAND_COMPLETE. A command whose every piece has landed, or that has stopped, completes; a message is queued or
refused; the bank set's unit takes up a promote or a demote. -/
def execEngineCommandComplete (cmd : Nat) (s : State) : Out :=
  match s.cmds.get? cmd with
  | none => .next s
  | some c =>
    if s.held then .next s
    else match c.kind with
      | .push _ _ => .next s
      | .coll .. => if c.stop.isSome then .next (s.complete cmd c c.outcome.1 c.outcome.2) else .next s
      | .amsg cluster h payload => .next (s.msgComplete cmd c cluster h payload)
      | .promote _ _ | .demote _ =>
        if c.stop.isSome then .next (s.complete cmd c c.outcome.1 c.outcome.2)
        else if c.move.isSome then .next s
        else .next (s.takeUp cmd c)
      | .check _ x poss done =>
        if c.stop.isNone && checkMore x poss done then .next s
        else
          let v := if c.stop.isNone && c.poisonAt.isNone then (0, poss.getLast?.getD 0 + 2 ^ 64 - poss.headD 0) else
            (c.outcome.1.toNat, c.outcome.2)
          .next (s.complete cmd c (BitVec.ofNat 8 v.1) v.2)
      | _ => if c.pending.isEmpty && !c.more then .next (s.complete cmd c c.outcome.1 c.outcome.2) else .next s

end Sys2Proof.Machine
end

