-- ==== Sys2Proof/Machine/Shake.lean ====
section
/-! DEFINITION. SHAKE256 (FIPS 202), the digest of keys and images (R378, R393). -/

namespace Sys2Proof.Machine

/-! ### Keccak-f[1600] -/

/-- The lane at column x and row y of a state of 25 lanes. -/
def kLane (a : List DWord) (x y : Nat) : DWord := a.getD (x % 5 + 5 * (y % 5)) 0

/-- A state from a function of column and row. -/
def kState (f : Nat → Nat → DWord) : List DWord := (List.range 25).map (fun i => f (i % 5) (i / 5))

/-- The rotation of each lane. -/
def kRot : List Nat :=
  [0, 1, 62, 28, 27, 36, 44, 6, 55, 20, 3, 10, 43, 25, 39, 41, 45, 15, 21, 8, 18, 2, 61, 56, 14]

/-- The round constants. -/
def kRounds : List DWord :=
  [0x0000000000000001, 0x0000000000008082, 0x800000000000808A, 0x8000000080008000, 0x000000000000808B, 0x0000000080000001,
   0x8000000080008081, 0x8000000000008009, 0x000000000000008A, 0x0000000000000088, 0x0000000080008009, 0x000000008000000A] ++
  [0x000000008000808B, 0x800000000000008B, 0x8000000000008089, 0x8000000000008003, 0x8000000000008002, 0x8000000000000080,
   0x000000000000800A, 0x800000008000000A, 0x8000000080008081, 0x8000000000008080, 0x0000000080000001, 0x8000000080008008]

/-- The parity of a column. -/
def kParity (a : List DWord) (x : Nat) : DWord :=
  kLane a x 0 ^^^ kLane a x 1 ^^^ kLane a x 2 ^^^ kLane a x 3 ^^^ kLane a x 4

/-- One round: the parities mixed in, the lanes turned and moved, the rows combined, the round's constant added. -/
def kRound (a : List DWord) (rc : DWord) : List DWord :=
  let c := (List.range 5).map (kParity a)
  let d (x : Nat) : DWord := c.getD ((x + 4) % 5) 0 ^^^ (c.getD ((x + 1) % 5) 0).rotateLeft 1
  let t := kState (fun x y => kLane a x y ^^^ d x)
  let b := kState (fun x y => (kLane t (x + 3 * y) x).rotateLeft (kRot.getD ((x + 3 * y) % 5 + 5 * x) 0))
  let e := kState (fun x y => kLane b x y ^^^ (~~~kLane b (x + 1) y &&& kLane b (x + 2) y))
  e.set 0 (kLane e 0 0 ^^^ rc)

/-- The permutation. -/
def keccak (a : List DWord) : List DWord := kRounds.foldl kRound a

/-! ### The sponge, of rate 136 bytes -/

/-- A little-endian dword of bytes. -/
def dwordOf (bs : List Byte) : DWord := bs.foldr (fun b x => (x <<< 8) ||| b.setWidth 64) 0

/-- A block of 136 bytes absorbed. -/
def kAbsorb (a : List DWord) (block : List Byte) : List DWord :=
  keccak (kState (fun x y =>
    let i := x + 5 * y
    kLane a x y ^^^ (if i < 17 then dwordOf ((block.drop (8 * i)).take 8) else 0)))

/-- The last block: what is left of the message, then 1111, then 10…01. -/
def kPad (rest : List Byte) : List Byte :=
  let z := 135 - rest.length
  if z = 0 then rest ++ [0x9F] else rest ++ [0x1F] ++ List.replicate (z - 1) 0 ++ [0x80]

/-- The state after a message, in blocks. -/
def kMessage (a : List DWord) (msg : List Byte) : Nat → List DWord
  | 0 => kAbsorb a (kPad msg)
  | n + 1 => kMessage (kAbsorb a (msg.take 136)) (msg.drop 136) n

/-- The SHAKE256 digest of a run of bytes, 32 bytes of it, lowest byte first. -/
def digest (msg : List Byte) : BitVec 256 :=
  let a := kMessage (List.replicate 25 0) msg (msg.length / 136)
  (kLane a 3 0 ++ kLane a 2 0) ++ (kLane a 1 0 ++ kLane a 0 0)

/-- The root's identity: the digest of its public key (R378). -/
def rootIdentity : BitVec 256 := digest Config.rootKey

end Sys2Proof.Machine
end

