-- ==== Sys2Proof/Machine/System.lean ====
section
/-! DEFINITION. System instructions (R373 to R378), the end of a handler (R376), and words that are no instruction (R75). -/

namespace Sys2Proof.Machine

/-! ### rett (R376) -/

/-- What rett does with an entry. -/
inductive Settle where
  | plain | release | drop
  deriving DecidableEq, Repr

/-- The request that holds an entry of a team, parked and not released. -/
def State.entryReq (s : State) (k n : Nat) : Option (Nat × Req) :=
  s.reqs.find? (fun r => r.2.team == k && r.2.entry == some n && !r.2.released)

/-- Drops the parked elements of a request: none takes effect, and a load lane keeps its value (R114). -/
def Req.dropAll (r : Req) : Req :=
  { r with entry := none, renew := false
           elems := r.elems.map (fun e => if e.parkedCode.isSome then { e with st := .dropped } else e) }

/-- Releases or drops an entry, or leaves it parked, to raise its trap anew (R376). A drop fills the mask words whose elements
are all settled (R123). -/
def State.settleEntry (s : State) (k n : Nat) (op : Settle) : State :=
  match s.entryReq k n with
  | none => s
  | some (id, r) =>
    match op with
    | .plain => { s with reqs := s.reqs.put id { r with renew := true } }
    | .release => { s with reqs := s.reqs.put id { r with released := true, renew := false } }
    | .drop => State.returnReady { s with reqs := s.reqs.put id r.dropAll } id

/-- The team is saved, or being saved (R116). -/
def State.teamSaved (s : State) (k : Nat) : Bool :=
  ((s.team? k).map (fun t => ((s.block? t.block).map (fun b => b.st == .saved || b.st == .saving)).getD false)).getD false

/-- A release or drop of a saved team's entry is recorded, and takes effect at its restore (R116). -/
def State.settleOrRecord (s : State) (k n : Nat) (op : Settle) : State :=
  if op != .plain && s.teamSaved k then s.modTeam k (fun t => { t with recorded := t.recorded ++ [(n, op == .release)] })
  else s.settleEntry k n op

/-- An entry has a release or drop recorded already. -/
def State.entryRecorded (s : State) (k n : Nat) : Bool :=
  ((s.team? k).map (fun t => t.recorded.any (fun e => e.1 == n))).getD false

/-- The bytes of the instruction at an address, as a party of a cluster and a tenant fetches it; one word where it cannot be
fetched. -/
def State.sizeAt (s : State) (cluster tenant : Nat) (pc : DWord) : Nat :=
  match s.fetchWord cluster tenant pc with
  | .ok w => 4 * wordCount w
  | .error _ => 4

/-- The length of the instruction that a party stands at. -/
def State.partySize (s : State) (p : Party) : Nat :=
  match p with
  | .team k => ((s.team? k).map (fun t => s.sizeAt t.cluster (s.tenantIdOf t) t.ctl.pc)).getD 4
  | _ => 4

/-- Every lane of a team exits. -/
def Team.exitAll (t : Team) : Team :=
  { t with ctl := { t.ctl with mask := 0, exited := t.ctl.exited ||| Mask.below t.lanes, ds := {}, rs := {}, cover := none
                               resume := none } }

/-- rett: the entry, if one is named, is settled; the party resumes, and the handler's lanes exit. (DEDUCED, log 71) -/
def rettBody (op : Settle) (e : DWord) (k : Nat) (t : Team) (s : State) : Effect :=
  match t.handler with
  | none => .trap { code := 0xB2 }
  | some h =>
    let leave (s1 : State) : Effect := .jump ((s1.resumeParty h (s1.partySize h.trap.party)).modTeam k Team.exitAll)
    if e = 0 then (if op = .plain then leave s else .trap { code := 0xB2 })
    else
      let n := field e 0 3
      match h.trap.party with
      | .team p =>
        if field e 4 60 ≠ 0 ∨ e.getLsbD 3 = false ∨ (s.entryReq p n).isNone ∨ s.entryRecorded p n then .trap { code := 0xB2 }
        else leave (s.settleOrRecord p n op)
      | _ => .trap { code := 0xB2 }

/-- rett. -/
def execRett (f : A1) (s : State) : Out := s.issue (.rett f) (fun k t s => rettBody .plain (s.uni t f.a.op) k t s)
/-- rett.rel. -/
def execRettRel (f : A1) (s : State) : Out := s.issue (.rettRel f) (fun k t s => rettBody .release (s.uni t f.a.op) k t s)
/-- rett.drop. -/
def execRettDrop (f : A1) (s : State) : Out := s.issue (.rettDrop f) (fun k t s => rettBody .drop (s.uni t f.a.op) k t s)

/-! ### System registers (R374) -/

/-- RCOV of a record. (DEDUCED, log 73) -/
def coverWord (c : Option Cover) : DWord :=
  match c with
  | none => 0
  | some v => BitVec.ofNat 64 (2 ^ 14 + v.next % 8 * 2 ^ 11 + v.n % 8 * 2 ^ 8 + v.pat.toNat)

/-- FSTAT. -/
def fstatWord (f : Fp) : DWord := BitVec.ofNat 64 (f.enables.toNat * 256 + f.flags.toNat)

/-- A system register's value, and the state after the reading; none where the number is refused. -/
def State.sysRead (s : State) (t : Team) (n : DWord) : Option (DWord × State) :=
  let handler (f : HandlerRec → DWord) : Option (DWord × State) := t.handler.map (fun h => (f h, s))
  if n = 0x000 then some (fstatWord t.fp, s)
  else if n = 0x001 then some s.readCycle
  else if n = 0x002 then
    some (BitVec.ofNat 64 (((s.block? t.block).map Block.cls).getD 0 % 4 * 2 ^ 16 + s.tenantIdOf t % 1024), s)
  else if n = 0x003 then some (s.teamIdent t, s)
  else if n = 0x004 then some (t.precnt, s)
  else if n = 0x010 then handler HandlerRec.rpc
  else if n = 0x011 then handler (fun h => coverWord h.trap.cover)
  else if n = 0x120 then handler (fun h => (Mask.summary h.rmask).setWidth 64)
  else if 0x100 ≤ n.toNat ∧ n.toNat < 0x120 then handler (fun h => (Mask.word h.rmask (n.toNat - 0x100)).setWidth 64)
  else none

/-- sysr. -/
def execSysr (ext : Bool) (d : Opnd) (b : Src) (s : State) : Out :=
  s.issue (.sysr ext d b) (fun k t s =>
    let n := s.uni t b.op
    match s.sysRead t n, futureOf d with
    | none, _ => .trap { code := 0xB0 }
    | _, none => .trap { code := 0x02 }
    | some (x, s1), some v =>
      let s2 := s1.modTeam k (fun u => u.markEmpty (.s v))
      .done (s2.addReq { team := k, gen := t.gen, kind := .sysr n.toNat, dst := .s v, words := [0], pc := t.ctl.pc
                         elems := [{ lane := 0, addr := 0, got := x.setWidth 128, st := .done }] }))

/-- The kind of record whose RPC can be written (R374). -/
def rpcWrites (h : HandlerRec) : Bool := h.trap.kind == 0 || h.trap.kind == 2

/-- A team after a write of a system register; none where the write is refused. -/
def Team.sysWrite (t : Team) (n x : DWord) : Option Team :=
  if n = 0x000 then some { t with fp := { t.fp with flags := x.setWidth 5, enables := (x >>> 8).setWidth 4 } }
  else if n = 0x010 then
    t.handler.map (fun h => { t with handler := some (if rpcWrites h then { h with rpc := x } else h) })
  else if 0x100 ≤ n.toNat ∧ n.toNat < 0x120 then
    match t.handler with
    | none => none
    | some h =>
      if !h.trap.term then none
      else
        let w := n.toNat - 0x100
        let keep : Mask := ((x.setWidth 32).setWidth 1024 <<< (32 * w)) ||| ~~~((0xFFFFFFFF : Mask) <<< (32 * w))
        some { t with handler := some { h with rmask := h.rmask &&& keep } }
  else none

/-- A write of a system register. -/
def sysWriteBody (f : AB) (k : Nat) (t : Team) (s : State) : Effect :=
  match t.sysWrite (s.uni t f.a.op) (s.uni t f.b.op) with
  | none => .trap { code := 0xB0 }
  | some u => .done (s.setTeam k u)

/-- sysw. -/
def execSysw (f : AB) (s : State) : Out := s.issue (.sysw f) (sysWriteBody f)
/-- sysw of RPC by its number. -/
def execRpcWrite (f : AB) (s : State) : Out := s.issue (.rpcWrite f) (sysWriteBody f)
/-- sysw of a word of RMASK by its number. -/
def execRmaskWrite (f : AB) (s : State) : Out := s.issue (.rmaskWrite f) (sysWriteBody f)

/-! ### trap (R375), ptlb (R377) -/

/-- trap. -/
def execTrap (f : A1) (s : State) : Out :=
  s.issue (.trap f) (fun _ t s =>
    let n := s.uni t f.a.op
    if 15 < n.toNat then .trap { code := 0xB1 }
    else .trap { code := 0xC0 + n.setWidth 8, after := Instr.size (.trap f) })

/-- The page size B names. -/
def ptlbSize (b : Nat) : Option Nat :=
  if b = 0 then some (2 ^ 12) else if b = 1 then some (2 ^ 16) else if b = 2 then some (2 ^ 21)
  else if b = 3 then some (2 ^ 30) else none

/-- ptlb: its team waits until it has completed. -/
def execPtlb (f : AB) (s : State) : Out :=
  s.issue (.ptlb f) (fun k t s =>
    let a := s.uni t f.a.op
    let b := s.uni t f.b.op
    if field b 3 61 ≠ 0 ∨ !globOk a ∨ (b ≠ 7 ∧ (ptlbSize b.toNat).isNone) then .trap { code := 0xB3 }
    else .done (s.setTeam k { t with hold := .ptlb a b }))

/-- The cached translation goes: it covers the address, or lies in the page of the named size that does; or every one of the
tenant's goes. (DEDUCED, log 70) -/
def Tlb.covered (e : Tlb) (tenant : Nat) (a b : DWord) : Bool :=
  let sz := (ptlbSize b.toNat).getD (2 ^ 52)
  let lo := a.toNat / sz * sz
  e.tenant == tenant && (b == 7 || decide (e.va < lo + sz ∧ lo < e.va + e.size))

/-- PTLB_COMPLETE. The tenant's translations and walks that the ptlb covers are dropped, and its team goes on. -/
def execPtlbComplete (team : Nat) (s : State) : Out :=
  match s.team? team with
  | none => .next s
  | some t =>
    match t.hold with
    | .ptlb a b =>
      let tenant := s.tenantIdOf t
      let sz := (ptlbSize b.toNat).getD (2 ^ 52)
      let s1 := { s with
        tlb := s.tlb.filter (fun e => !e.covered tenant a b)
        walks := s.walks.filter (fun e => !(e.2.tenant == tenant && e.2.va / sz == a.toNat / sz)) }
      .next (s1.modTeam team (fun u => { u with hold := .none }))
    | _ => .next s

/-! ### usg (R378) -/

/-- A tenant's counters and its next report number. (DESIGN CHOICE, log 5) -/
def State.usageOf (s : State) (tenant : Nat) : List DWord × DWord := (s.usage.get? tenant).getD (List.replicate 5 0, 0)

/-- Samples the counters: those that count cycles and bytes have risen by free amounts. (DESIGN CHOICE, log 68) -/
def State.sample (s : State) (tenant : Nat) : List DWord × State :=
  let (c, n) := s.usageOf tenant
  let up (j d : Nat) (l : List DWord) : List DWord := l.modify j (fun x => x + Config.elapsed (s.draws + d))
  let c1 := up 0 0 (up 2 1 (up 3 2 c))
  (c1, { s with usage := s.usage.put tenant (c1, n), draws := s.draws + 3 })

/-- The element code of a report area that R102 refuses: it lies in window 0, aligned to 64, and window 2 has no lane here
(R108). -/
def State.areaBad (s : State) (f : Frame) (a : Word) : Option Byte :=
  if field a 28 4 ≠ 0 then some (if field a 28 4 = 2 ∧ field a 20 8 = 0 then 0x25 else 0x23)
  else if field a 20 8 ≠ 0 then some 0x23
  else if a.toNat % 64 ≠ 0 then some 0x24
  else s.firstBad f (byteRun a 2048)

/-- usg. -/
def execUsg (ext : Bool) (d : Opnd) (b : Src) (s : State) : Out :=
  s.issue (.usg ext d b) (fun k t s =>
    let x := s.uni t b.op
    match futureOf d with
    | none => .trap { code := 0x02 }
    | some v =>
      let req (kind : ReqKind) (s1 : State) : Effect :=
        .done ((s1.modTeam k (fun u => u.markEmpty (.s v))).addReq
          { team := k, gen := t.gen, kind := kind, dst := .s v, words := [0], pc := t.ctl.pc })
      if 5 ≤ field x 0 3 ∨ field x 3 4 ≠ 0 ∨ field x 8 24 ≠ 0 then .trap { code := 0xB4 }
      else if x.getLsbD 7 then
        let a : Word := BitVec.ofNat 32 (field x 32 32)
        match s.areaBad (s.frame t) a with
        | some c => .trap { code := 0xB5, detail := c }
        | none => req (.usg t.core ((s.frame t).p + field a 0 20)) s
      else
        let (c, s1) := s.sample (s.tenantIdOf t)
        req (.uni (c.getD (field x 0 3) 0)) s1)

/-- Little-endian bytes of a dword. -/
def dwordBytes (x : DWord) : List Byte := bytesOfNat x.toNat 8

/-- A list of bytes cut or padded with zeros to a length. -/
def padTo (n : Nat) (l : List Byte) : List Byte := l.take n ++ List.replicate (n - l.length) 0

/-- A signed report's 2,048 bytes: 128 bytes, their signature, and zeros. -/
def signed (draw : Nat) (head : List Byte) : List Byte :=
  let h := padTo 128 head
  padTo 2048 (h ++ padTo 1280 (Config.reportSignature draw h))

/-- USG_REPORT_COMPLETE. Once its packet of class 3 has crossed (R354), the nonce is read, the counters are sampled, the signed report is written, and the register receives
0 (R378). (DESIGN CHOICE, log 69) -/
def execUsgReportComplete (cmd : Nat) (s : State) : Out :=
  match s.reqs.get? cmd with
  | none => .next s
  | some r =>
    match r.kind, r.dst, s.team? r.team with
    | .usg core off, .s v, some t =>
      if !((s.block? t.block).map (fun b => b.st == .placed)).getD false then .next s
      else if (s.packetOf (.report cmd)).isNone then .next (s.injectTop (.report cmd) (s.tenantIdOf t) t.cluster)
      else if !s.arrives (.report cmd) then .next s
      else
        let s := s.leaveFabric (.report cmd)
        let tenant := s.tenantIdOf t
        let nonce := Memory.bytes s.spm (spmKey core off) 32
        let (c, s1) := s.sample tenant
        let (cyc, s2) := s1.readCycle
        let seq := (s2.usageOf tenant).2
        let head := nonce ++ dwordBytes (BitVec.ofNat 64 tenant) ++ dwordBytes seq ++ (c.take 5).flatMap dwordBytes ++
          dwordBytes cyc ++ bytesOfNat rootIdentity.toNat 32
        let s3 := { s2 with
          spm := Memory.writeBytes s2.spm (spmKey core off) (signed s2.draws head)
          spmPoison := clearPoison s2.spmPoison (spmKey core off / 4) 512
          usage := s2.usage.put tenant (c, seq + 1)
          draws := s2.draws + 1
          reqs := s2.reqs.del cmd }
        .next (s3.modTeam r.team (fun u => u.fill v 0))
    | _, _, _ => .next s

/-! ### Words that are no instruction (R75 to R78) -/

/-- The bytes from a stream word to the next. (DEDUCED, log 25) -/
def State.streamWords (s : State) (x : Block) (pc : DWord) : Nat :=
  s.sizeAt (clusterOf (x.quarters.headD 0)) (s.tenantOfGrid x.grid) pc

/-- ILLEGAL_INSTRUCTION. The encoding's own trap, after the traps of a place where it may not stand (R78). -/
def execIllegalInstruction (code : Byte) (place : Standing) (s : State) : Out :=
  match s.cur with
  | .none => s.notReady
  | .team k =>
    match s.team? k with
    | none => s.notReady
    | some t =>
      if !s.mayIssue k t then s.notReady
      else match placeTrap t place with
        | some c => .next (s.takeTrap k 0 { code := c })
        | none => .next (s.takeTrap k 0 { code := code })
  | .stream b =>
    match s.block? b with
    | none => s.notReady
    | some x =>
      match x.stream with
      | none => s.notReady
      | some m =>
        if !streamMayIssue x m || s.stepWaits b then s.notReady
        else if !place.stream then .next (s.takeStreamTrap b (s.streamWords x m.pc) { code := 0x07 })
        else .next (s.takeStreamTrap b (s.streamWords x m.pc) { code := code })

end Sys2Proof.Machine
end

