-- ==== Sys2Proof/Machine/Ending.lean ====
section
/-! DEFINITION. The ends of teams and grids (R31 to R33, R344), walks and fetches that come back (R210, R363), and records and system events on their way (R370, R407). -/

namespace Sys2Proof.Machine

/-! ### Walks and fetches -/

/-- A cached translation of a walk's result. -/
def Leaf.tlb (l : Leaf) (cluster tenant va : Nat) : Tlb :=
  { cluster := cluster, tenant := tenant, va := va / l.size * l.size, size := l.size, pa := l.pa, x := l.x, w := l.w
    pages := l.pages }

/-- TRANSLATION_WALK. A walk ends: it re-reads the ownership of every page it used, and its result is cached if all of them
still name the tenant (R363). -/
def execTranslationWalk (cluster tenant va : Nat) (s : State) : Out :=
  match s.walks.find? (fun e => e.2.cluster == cluster && e.2.tenant == tenant && e.2.va == va) with
  | none => .next s
  | some (id, w) =>
    let s1 := { s with walks := s.walks.del id }
    match s.walk tenant va with
    | none => .next s1
    | some l =>
      if (w.pages ++ l.pages ++ [(l.pa + va % l.size) / 4096]).all (s.owns tenant) then
        .next { s1 with tlb := s1.tlb ++ [l.tlb cluster tenant va] }
      else .next s1

/-- FETCH_FILL. The next instruction's words arrive in a team's buffer (R210). (DEDUCED, log 115) -/
def execFetchFill (team : Nat) (s : State) : Out :=
  match s.team? team with
  | none => .next s
  | some t =>
    if t.st == .retired || decide (16 ≤ t.ctl.buf) then .next s
    else
      let n := Config.freeChoice s.draws (16 - t.ctl.buf) % (16 - t.ctl.buf) + 1
      .next ({ s with draws := s.draws + 1 }.setTeam team { t with ctl := { t.ctl with buf := t.ctl.buf + n } })

/-! ### Retirement (R31, R135, R141, R256, R271) -/

/-- A child of the team has not ended, and its future names a register of the team (R305). -/
def State.childPending (s : State) (k : Nat) : Bool :=
  s.grids.any (fun g => !g.2.ended && (match g.2.owner with
    | .child _ j (some _) => j == k
    | _ => false))

/-- Every lane of a team has exited. -/
def Team.exitedAll (t : Team) : Bool := t.st == .running && t.ctl.mask == 0 && (Mask.below t.lanes &&& ~~~t.ctl.exited) == 0

/-- Nothing of the team remains outstanding: no counter, no element, no producer of a register, no record that waits. -/
def State.quiet (s : State) (k : Nat) (t : Team) : Bool :=
  t.count.none && t.hold == .none && !s.reqs.any (fun r => r.2.team == k) && !s.childPending k && !s.heldByRecord k

/-- TEAM_RETIRE. A team retires, and with the last of its block the block ends. Entries that a plain rett left parked raise
their traps anew, and the traps owed by its error flags are raised in its name before it retires. (DEDUCED, log 82) -/
def execTeamRetire (team : Nat) (s : State) : Out :=
  match s.team? team with
  | none => .next s
  | some t =>
    if !t.exitedAll || !s.residentBlock t.block then .next s
    else if s.owesTraps team then .next (s.renewTraps team (s.reqs.map Prod.fst))
    else if !s.quiet team t then .next s
    else match s.owedTrap team t 3 with
      | some s1 => .next s1
      | none => .next ((s.setTeam team { t with st := .retired }).endBlock t.block)

/-! ### The end of a grid (R33, R305, R389) -/

/-- A completion of a launch: its launch status, and the grid's number. -/
def launchCompletion (tag : Word) (status : Byte) (number : Nat) : Completion :=
  { tag := tag, status := 0, launch := status, value := BitVec.ofNat 64 (number % 2 ^ 24) }

/-- Leaves a completion with a function, to be written to its ring. -/
def State.owe (s : State) (fn : Nat) (c : Completion) : State :=
  { s with fns := s.fns.put fn { (s.fns.get? fn).getD {} with owed := ((s.fns.get? fn).getD {}).owed ++ [c] } }

/-- Reports a grid's end to whoever launched it. -/
def State.reportGrid (s : State) (g : Grid) : State :=
  match g.owner with
  | .host fn tag => s.owe fn (launchCompletion tag (g.status.getD 0) g.number)
  | .child _ k (some n) =>
    s.modTeam k (fun t => if t.st == .retired then t else
      t.fill n (match g.status with
        | none => statusWord 0x00 0
        | some st => statusWord 0x0E st.toNat))
  | .child _ _ none => s

/-- A record of the grid waits for its handler. -/
def State.recordsWait (s : State) (g : Nat) : Bool :=
  s.arising.any (fun r => r.ofGrid g) || s.tenants.any (fun t => t.2.records.any (fun r => r.ofGrid g))

/-- An engine command of the grid, or a global atomic that it has sent, has not completed (R33, R265, R367). -/
def State.gridCmds (s : State) (id : Nat) : Bool :=
  s.cmds.any (fun c => ((s.block? c.2.block).map Block.grid) == some id) ||
    s.reqs.any (fun r => ((s.team? r.2.team).bind (fun t => (s.block? t.block).map Block.grid)) == some id)

/-- The grid has nothing left: all its blocks have been placed and have retired, or it has been ended; its children have
ended; its engine commands and atomics have completed; no message or record of it waits. (DEDUCED, log 83) -/
def State.gridDone (s : State) (id : Nat) (g : Grid) : Bool :=
  !g.ended && (g.status.isSome || decide (g.launch.nblk ≤ g.placed)) && (s.liveBlocks id).isEmpty &&
    (s.children id).isEmpty && !s.gridCmds id && !s.msgs.any (fun m => m.grid == id) && !s.recordsWait id

/-- GRID_END. -/
def execGridEnd (grid : Nat) (s : State) : Out :=
  match s.grid? grid with
  | none => .next s
  | some g =>
    if !s.gridDone grid g then .next s
    else
      let s1 := s.setGrid grid { g with ended := true }
      .next (State.reportGrid { s1 with segments := s1.segments.filter (fun m => m.grid != grid) } g)

/-! ### Records and system events (R370, R407) -/

/-- TRAP_RECORD_ENQUEUE. The oldest record of a tenant that waits enters its handler queue once that has room. -/
def execTrapRecordEnqueue (tenant : Nat) (s : State) : Out :=
  match s.arising.find? (fun r => r.tenant == tenant), s.tenant? tenant with
  | some r, some t =>
    if 256 ≤ t.records.length then .next s
    else .next { s.setTenant tenant { t with records := t.records ++ [r] } with arising := s.arising.erase r }
  | _, _ => .next s

/-- The tenant's oldest live grid that names a handler. -/
def State.eventGrid (s : State) (tenant : Nat) : Option (Nat × Grid) :=
  s.grids.find? (fun g => g.2.tenant == tenant && g.2.live && g.2.launch.handler.isSome)

/-- The completion entry of a system event, with the number dropped before it. -/
def eventCompletion (code : Byte) (addr : DWord) (dropped : Nat) : Completion :=
  { tag := 0xFFFFFFFF, status := 5, launch := code
    value := BitVec.ofNat 64 (addr.toNat % 2 ^ 52 + min dropped 4095 * 2 ^ 52) }

/-- Reports events that were held, the oldest first. -/
def State.reportEvents (s : State) (tenant : Nat) : List SysEvent → State
  | [] => s
  | e :: r =>
    let d := ((s.tenant? tenant).map Tenant.dropped).getD 0
    let s1 := s.modTenant tenant (fun t => { t with dropped := 0 })
    State.reportEvents (s1.owe (tenant + 1) (eventCompletion e.code e.addr d)) tenant r

/-- Delivers a system event: to a handler, to the tenant's function, or into the root's keeping. -/
def State.deliverEvent (s : State) (tenant : Nat) (code : Byte) (addr : DWord) : State :=
  match s.tenant? tenant with
  | none => s
  | some t =>
    match s.eventGrid tenant with
    | some (g, _) =>
      let (cyc, s1) := s.readCycle
      s1.enqueue { tenant := tenant, grid := g, party := .device, kind := 4, code := code, addr := addr, cycle := cyc }
    | none =>
      if (((s.fns.get? (tenant + 1)).bind Fn.rings)).isSome then s.reportEvents tenant [{ code := code, addr := addr }]
      else if t.held.length < 256 then s.setTenant tenant { t with held := t.held ++ [{ code := code, addr := addr }] }
      else s.setTenant tenant { t with dropped := t.dropped + 1 }

/-- SYSTEM_EVENT. -/
def execSystemEvent (tenant : Nat) (code : Byte) (addr : DWord) (s : State) : Out :=
  if s.sysEvents.head? == some (tenant, code, addr) then
    .next (State.deliverEvent { s with sysEvents := s.sysEvents.tail } tenant code addr)
  else .next s

end Sys2Proof.Machine
end

