-- ==== Sys2Proof/Machine/Distribute.lean ====
section
/-! DEFINITION. The distributor (R21, R270, R349, R350), handler teams (R370, R371) and the blocks of messages (R277). -/

namespace Sys2Proof.Machine

/-! ### The waiting grids (R349, R350) -/

/-- Blocks of a grid are still to be placed. -/
def Grid.waiting (g : Grid) : Bool := g.live && !g.suspended && decide (g.placed < g.launch.nblk)

/-- Every earlier live grid of its queue has started placement (R349). -/
def State.mayStart (s : State) (id : Nat) (g : Grid) : Bool :=
  s.grids.all (fun e => e.2.tenant != g.tenant || e.2.queue != g.queue || decide (id ≤ e.1) || !e.2.live ||
    decide (0 < e.2.placed))

/-- The grids of a tenant that wait to place a block. (DEDUCED, log 76) -/
def State.heads (s : State) (tenant : Nat) : List (Nat × Grid) :=
  s.grids.filter (fun e => e.2.tenant == tenant && e.2.waiting && s.mayStart e.1 e.2 && s.launchSeen e.2)

/-- How far a queue's turn is from the last one served, round robin. -/
def queueTurn (last : Option Nat) (q : Nat) : Nat :=
  match last with
  | none => q
  | some l => (q + 4095 - l % 4096) % 4096

/-- One waiting grid goes before another: the higher class first, then round robin by queue, then queue order. -/
def State.gridBefore (s : State) (a b : Nat × Grid) : Bool :=
  let last := (s.tenant? a.2.tenant).bind Tenant.lastQueue
  if a.2.launch.cls ≠ b.2.launch.cls then decide (b.2.launch.cls < a.2.launch.cls)
  else if a.2.queue ≠ b.2.queue then decide (queueTurn last a.2.queue < queueTurn last b.2.queue)
  else decide (a.1 ≤ b.1)

/-- The grid has waited while 64 blocks of higher classes were placed. -/
def Grid.starved (g : Grid) : Bool := decide (64 ≤ g.passed)

/-- A grid of the tenant waits that must be placed before any other block (R350). -/
def State.starvedGrid (s : State) (tenant : Nat) : Bool := (s.heads tenant).any (fun e => e.2.starved)

/-- A grid of a lower class that waits has seen n more blocks of higher classes placed (R350). -/
def Grid.pass (g : Grid) (tenant cls n : Nat) : Grid :=
  if g.tenant = tenant ∧ g.waiting ∧ g.launch.cls < cls then { g with passed := g.passed + n } else g

/-- Counts n placed blocks of a class against the tenant's grids that wait. -/
def State.passGrids (s : State) (tenant cls n : Nat) : State :=
  { s with grids := s.grids.map (fun e => (e.1, e.2.pass tenant cls n)) }

/-- The grid's next block, or every block of a gang grid, fits now. -/
def State.gridFits (s : State) (id : Nat) (g : Grid) : Bool :=
  if g.launch.gang then s.gangFits g.tenant id g.launch g.placed (g.launch.nblk - g.placed)
  else s.fits g.tenant (g.launch.spawn id g.placed)

/-! ### Handlers (R370, R371) -/

/-- A tenant's handler teams. -/
def State.handlers (s : State) (tenant : Nat) : Nat :=
  (s.teams.filter (fun t => t.2.handler.isSome && t.2.st != .retired && s.tenantIdOf t.2 == tenant)).length

/-- s0 to s7 of a handler team (R371). -/
def TrapRec.words (r : TrapRec) : List DWord :=
  [BitVec.ofNat 64 (r.kind * 2 ^ 16 + r.detail.toNat * 2 ^ 8 + r.code.toNat), r.ident, r.addr, r.aux, r.pc,
   (Mask.word r.mask 0).setWidth 64, (Mask.summary r.mask).setWidth 64, r.cycle]

/-- The cluster a handler starts in, where its record fixes one. -/
def State.partyCluster (s : State) : Party → Option Nat
  | .team k => (s.team? k).map Team.cluster
  | .stream b => (s.block? b).map (fun x => clusterOf (x.quarters.headD 0))
  | .device => none

/-- The grid whose handler a record starts. -/
def State.recordGrid (s : State) (r : TrapRec) : Option (Nat × Grid) :=
  if r.kind = 4 then s.eventGrid r.tenant else (s.grid? r.grid).map (fun g => (r.grid, g))

/-- A record as its handler team finds it: what the spec leaves open of it is free (R371, R372). -/
def TrapRec.filled (r : TrapRec) (number draw : Nat) : TrapRec :=
  { r with
    ident := if r.kind = 4 then identWord number false false 0 0 ||| (Config.eventParty draw).setWidth 64 else r.ident
    pc := if r.kind = 3 then Config.noPc draw else r.pc
    rpc := if r.kind = 0 ∨ r.kind = 2 then r.rpc else Config.noResume draw }

/-- The one-team block a record starts. (DESIGN CHOICE, log 72) -/
def State.handlerSpawn (s : State) (r : TrapRec) : Option Spawn :=
  match s.recordGrid r with
  | none => none
  | some (id, g) =>
    if !g.live || g.suspended then none
    else g.launch.handler.map (fun k =>
      let f := r.filled g.number s.draws
      { grid := id, index := 2 ^ 32 - 1, kernel := k, cls := g.launch.cls, srseed := g.launch.srseed, args := f.words
        hrec := some { trap := f, rpc := f.rpc, rmask := f.mask } })

/-- The choice places the record's handler, in its cluster. -/
def State.handlerPlaceOk (s : State) (r : TrapRec) (p : PlaceChoice) : Bool :=
  match s.handlerSpawn r with
  | none => false
  | some w =>
    s.placeOk r.tenant w p && (match s.partyCluster r.party with
      | none => true
      | some c => clusterOf (p.quarters.headD 0) == c)

/-- A record of a tenant could start its handler now. (DEDUCED, log 79) -/
def State.handlerDue (s : State) (tenant : Nat) : Bool :=
  match s.tenant? tenant with
  | none => false
  | some t =>
    decide (s.handlers tenant < 64) && t.records.any (fun r =>
      match s.handlerSpawn r with
      | none => false
      | some w => (List.range Config.clusters).any (fun c =>
          (match s.partyCluster r.party with
            | none => true
            | some x => c == x) && (s.findPlace tenant w c).isSome))

/-- HANDLER_TEAM_START. The oldest record that can be served by the choice starts its handler team. -/
def execHandlerTeamStart (tenant : Nat) (p : PlaceChoice) (s : State) : Out :=
  match s.tenant? tenant with
  | none => .next s
  | some t =>
    if s.checkpointing || decide (64 ≤ s.handlers tenant) then .next s
    else match t.records.find? (fun r => s.handlerPlaceOk r p) with
      | none => .next s
      | some r =>
        match s.handlerSpawn r with
        | none => .next s
        | some w =>
          let s1 := s.setTenant tenant { t with records := t.records.erase r }
          .next (State.spawn { s1 with draws := s1.draws + 1 } tenant w p)

/-! ### Messages (R277) -/

/-- The one-team block a message starts. (DESIGN CHOICE, log 60) -/
def State.msgSpawn (s : State) (m : Msg) : Option Spawn :=
  match s.grid? m.grid with
  | none => none
  | some g =>
    if !g.live || g.suspended then none
    else (g.launch.amsg[m.h]?).map (fun k =>
      { grid := m.grid, index := (Config.msgBlock s.draws).toNat, kernel := k, cls := g.launch.cls, srseed := g.launch.srseed
        args := m.payload })

/-- The choice places the message's block in a cluster. -/
def State.msgPlaceOk (s : State) (cluster : Nat) (p : PlaceChoice) (m : Msg) : Bool :=
  m.cluster == cluster && clusterOf (p.quarters.headD 0) == cluster && (match s.msgSpawn m with
    | none => false
    | some w => s.placeOk (s.tenantOfGrid m.grid) w p && !s.starvedGrid (s.tenantOfGrid m.grid))

/-- AMSG_DELIVER. The oldest queued message of a cluster that the choice can serve starts its handler team there;
no grid of its tenant that must go before every other block waits (R350). -/
def execAmsgDeliver (cluster : Nat) (p : PlaceChoice) (s : State) : Out :=
  if s.checkpointing then .next s
  else match s.msgs.find? (s.msgPlaceOk cluster p) with
    | none => .next s
    | some m =>
      match s.msgSpawn m with
      | none => .next s
      | some w =>
        let tenant := s.tenantOfGrid m.grid
        let s1 := State.spawn { s with msgs := s.msgs.erase m, draws := s.draws + 1 } tenant w p
        .next (s1.passGrids tenant w.cls 1)

/-! ### Placing a grid's next block (R21, R350) -/

/-- Places the next n blocks of a grid, the first by the choice given, the others by choices drawn; all of them or none. -/
def State.placeNext (s : State) (tenant id : Nat) (l : Launch) (index : Nat) (p : PlaceChoice) : Nat → Option State
  | 0 => some s
  | n + 1 =>
    let w := l.spawn id index
    if !s.placeOk tenant w p then none
    else
      let s1 := s.spawn tenant w p
      State.placeNext { s1 with draws := s1.draws + 1 } tenant id l (index + 1)
        (s1.drawPlace (l.spawn id (index + 1)) s1.draws) n

/-- How many blocks a placement places: one, or all of a gang grid's (R270). -/
def Grid.batch (g : Grid) : Nat := if g.launch.gang then g.launch.nblk - g.placed else 1

/-- A grid's next placement is made, by the choice given. -/
def State.placeGrid (s : State) (id : Nat) (g : Grid) (p : PlaceChoice) : Option State :=
  match s.placeNext g.tenant id g.launch g.placed p g.batch with
  | none => none
  | some s1 =>
    let s2 := (s1.passGrids g.tenant g.launch.cls g.batch).setGrid id { g with placed := g.placed + g.batch, passed := 0 }
    some (s2.modTenant g.tenant (fun t => { t with lastQueue := some g.queue }))

/-- The grid is the tenant's next: no grid that goes before it fits. (DEDUCED, log 75) -/
def State.nextGrid (s : State) (id : Nat) (g : Grid) : Bool :=
  (s.heads g.tenant).all (fun e => e.1 == id || !s.gridBefore e (id, g) || !s.gridFits e.1 e.2)

/-- The grid waits to place a block, and nothing goes ahead of every grid. -/
def State.placeable (s : State) (id : Nat) (g : Grid) : Bool :=
  !s.checkpointing && (s.heads g.tenant).any (fun e => e.1 == id) && !s.handlerDue g.tenant

/-- BLOCK_PLACE. The distributor places the next block of the grid whose turn it is, or every block of a gang grid. -/
def execBlockPlace (grid : Nat) (p : PlaceChoice) (s : State) : Out :=
  match s.grid? grid with
  | none => .next s
  | some g =>
    if !s.placeable grid g || s.starvedGrid g.tenant || !s.nextGrid grid g then .next s
    else .next ((s.placeGrid grid g p).getD s)

/-- DISTRIBUTOR_STARVATION. A grid that 64 blocks of higher classes have passed takes the next placement; until then no other
block is placed. -/
def execDistributorStarvation (grid : Nat) (p : PlaceChoice) (s : State) : Out :=
  match s.grid? grid with
  | none => .next s
  | some g =>
    let first := ((s.heads g.tenant).filter (fun e => e.2.starved)).all (fun e => e.1 == grid || s.gridBefore (grid, g) e)
    if !s.placeable grid g || !g.starved || !first then .next s else .next ((s.placeGrid grid g p).getD s)

end Sys2Proof.Machine
end

