-- ==== Sys2Proof/Machine/FloatOps.lean ====
section
/-! DEFINITION. The float instructions (R152 to R166): each lane's result and causes, the float trap, the sticky flags. -/

namespace Sys2Proof.Machine

/-- A result as a lane's word. -/
def asWord (r : Nat × FFlags) : Word × FFlags := (BitVec.ofNat 32 r.1, r.2)

/-- A float instruction: with an enabled cause it traps and has no effect; else it writes its results, and the flags of its
causes stick (R152, R153). -/
def floatBody (d : Opnd) (g : Nat → Word × FFlags) (k : Nat) (t : Team) (s : State) : Effect :=
  let rs := t.active.map (fun n => (n, g n))
  let fl := rs.map (fun r => (r.1, r.2.2))
  match floatTrap t.fp.enables fl with
  | some tr => .trap tr
  | none =>
    let t1 := t.laneResults d (rs.map (fun r => (r.1, r.2.1, none)))
    .done (s.setTeam k { t1 with fp := t1.fp.raise fl })

/-- The lane's generator state. -/
def Fp.state (f : Fp) (lane : Nat) : Word := Sparse.get 0 f.rng lane
def Fp.setState (f : Fp) (lane : Nat) (x : Word) : Fp := { f with rng := Sparse.set 0 f.rng lane x }
def Fp.setStates (f : Fp) : List (Nat × Word) → Fp
  | [] => f
  | (n, x) :: r => Fp.setStates (f.setState n x) r

/-- The same, for an instruction that may step the lanes' generators: `g` gives the result from the lane's draws. -/
def floatDrawBody (d : Opnd) (steps : Nat) (g : Nat → Word → Word × FFlags) (k : Nat) (t : Team) (s : State) : Effect :=
  match floatBody d (fun n => g n (t.fp.state n)) k t s with
  | .done s' =>
    if steps = 0 then .done s'
    else .done (s'.modTeam k (fun u =>
      { u with fp := u.fp.setStates (t.active.map (fun n => (n, Nat.repeat rngStep steps (t.fp.state n)))) }))
  | e => e

def float1 (i : Instr) (f : DA) (g : Word → Word × FFlags) (s : State) : Out :=
  s.issue i (fun k t s => floatBody f.d (fun n => g (s.word t n f.a.op)) k t s)

def float2 (i : Instr) (f : DAB) (g : Word → Word → Word × FFlags) (s : State) : Out :=
  s.issue i (fun k t s => floatBody f.d (fun n => g (s.word t n f.a.op) (s.word t n f.b.op)) k t s)

def float3 (i : Instr) (f : DABC) (g : Word → Word → Word → Word × FFlags) (s : State) : Out :=
  s.issue i (fun k t s =>
    floatBody f.d (fun n => g (s.word t n f.a.op) (s.word t n f.b.op) (s.word t n f.c.op)) k t s)

/-- fadd. -/
def execFadd (r : Rm) (f : DAB) (s : State) : Out :=
  float2 (.fadd r f) f (fun a b => asWord (fF32.add a.toNat b.toNat r)) s
/-- fsub. -/
def execFsub (r : Rm) (f : DAB) (s : State) : Out :=
  float2 (.fsub r f) f (fun a b => asWord (fF32.sub a.toNat b.toNat r)) s
/-- fmul. -/
def execFmul (r : Rm) (f : DAB) (s : State) : Out :=
  float2 (.fmul r f) f (fun a b => asWord (fF32.mul a.toNat b.toNat r)) s
/-- ffma. -/
def execFfma (r : Rm) (f : DABC) (s : State) : Out :=
  float3 (.ffma r f) f (fun a b c => asWord (fF32.fma a.toNat b.toNat c.toNat r)) s
/-- fmin. -/
def execFmin (f : DAB) (s : State) : Out := float2 (.fmin f) f (fminmax false) s
/-- fmax. -/
def execFmax (f : DAB) (s : State) : Out := float2 (.fmax f) f (fminmax true) s
/-- fcmp. -/
def execFcmp (c : FCond) (f : DAB) (s : State) : Out :=
  float2 (.fcmp c f) f (fun a b => let (p, fl) := fcompare c a b; (predWord p, fl)) s
/-- frcp. -/
def execFrcp (r : Rm) (f : DA) (s : State) : Out := float1 (.frcp r f) f (fun a => asWord (func1 .rcp a r)) s
/-- frsq. -/
def execFrsq (r : Rm) (f : DA) (s : State) : Out := float1 (.frsq r f) f (fun a => asWord (func1 .rsq a r)) s
/-- fsqrt. -/
def execFsqrt (r : Rm) (f : DA) (s : State) : Out := float1 (.fsqrt r f) f (fun a => asWord (func1 .sqrt a r)) s
/-- fexp2. -/
def execFexp2 (r : Rm) (f : DA) (s : State) : Out := float1 (.fexp2 r f) f (fun a => asWord (func1 .exp2 a r)) s
/-- flog2. -/
def execFlog2 (r : Rm) (f : DA) (s : State) : Out := float1 (.flog2 r f) f (fun a => asWord (func1 .log2 a r)) s
/-- frnd. -/
def execFrnd (r : Rm) (f : DA) (s : State) : Out := float1 (.frnd r f) f (fun a => asWord (fround a r)) s
/-- fclass: no flag and no float trap. -/
def execFclass (f : DA) (s : State) : Out := lane1 (.fclass f) f (fun a => BitVec.ofNat 32 (2 ^ fclassBit a)) s

/-- h2add. -/
def execH2add (m : HalfFmt) (r : Rm) (f : DAB) (s : State) : Out :=
  float2 (.h2add m r f) f (fun a b => halves (fun k => (halfFmt m).add (half a k) (half b k) r)) s
/-- h2mul. -/
def execH2mul (m : HalfFmt) (r : Rm) (f : DAB) (s : State) : Out :=
  float2 (.h2mul m r f) f (fun a b => halves (fun k => (halfFmt m).mul (half a k) (half b k) r)) s
/-- h2fma. -/
def execH2fma (m : HalfFmt) (r : Rm) (f : DABC) (s : State) : Out :=
  float3 (.h2fma m r f) f (fun a b c => halves (fun k => (halfFmt m).fma (half a k) (half b k) (half c k) r)) s
/-- dot4. -/
def execDot4 (m : Dot4Fmt) (r : Rm) (f : DABC) (s : State) : Out :=
  float3 (.dot4 m r f) f (fun a b c => asWord (dotProduct (dot4Fmt m) 4 8 a b c r)) s
/-- dot8. -/
def execDot8 (m : Dot8Fmt) (r : Rm) (f : DABC) (s : State) : Out :=
  float3 (.dot8 m r f) f (fun a b c => asWord (dotProduct (dot8Fmt m) 8 4 a b c r)) s
/-- fscl. -/
def execFscl (r : Rm) (f : DAB) (s : State) : Out := float2 (.fscl r f) f (fun a b => asWord (fscale a b r)) s

/-- fcvt from FP32: under .rs each lane's generator steps once (R149). -/
def execFcvtFromF32 (m : Fmt) (r : Rm) (u : Sat) (f : DA) (s : State) : Out :=
  s.issue (.fcvtFromF32 m r u f) (fun k t s =>
    floatDrawBody f.d (if r = .rs then 1 else 0)
      (fun n x => fromF32 m (s.word t n f.a.op) r u (rngDraw (rngStep x))) k t s)
/-- fcvt to FP32. -/
def execFcvtToF32 (m : Fmt) (r : Rm) (f : DA) (s : State) : Out :=
  float1 (.fcvtToF32 m r f) f (fun a => asWord (toF32 m a r)) s

/-- The packed word of fpack: the old D with elements 2P and 2P + 1 replaced (R162). -/
def packWord (m : Fmt) (r : Rm) (u : Sat) (p : Nat) (old a b x : Word) : Word × FFlags :=
  let (e0, f0) := fromF32 m a r u (rngDraw (rngStep x))
  let (e1, f1) := fromF32 m b r u (rngDraw (rngStep (rngStep x)))
  (putElement m (putElement m old (2 * p) e0) (2 * p + 1) e1, f0.or f1)

/-- fpack. -/
def execFpack (m : Fmt) (r : Rm) (u : Sat) (p : Fin 4) (f : DAB) (s : State) : Out :=
  s.issue (.fpack m r u p f) (fun k t s =>
    floatDrawBody f.d (if r = .rs then 2 else 0)
      (fun n x => packWord m r u p (s.word t n f.d) (s.word t n f.a.op) (s.word t n f.b.op) x) k t s)

/-- funpack. -/
def execFunpack (m : Fmt) (f : DAB) (s : State) : Out :=
  float2 (.funpack m f) f (fun a b => asWord (unpackElement m a (b.toNat % (32 / packWidth m)))) s

end Sys2Proof.Machine
end

