-- ==== Sys2Proof/Machine/Handles.lean ====
section
/-! DEFINITION. Sparse handles: hld, hset, hget and hchk (R287 to R294). -/

namespace Sys2Proof.Machine

/-- The bits of a handle image that are not reserved; dword 5 belongs to a dense matrix alone (R287, R10).
(DEDUCED, log 61) -/
def imgKeep (x : BitVec 512) : BitVec 512 :=
  let m : Nat := 0x3FF + (2 ^ 320 - 2 ^ 64) + (if imgType x = 3 then 2 ^ 384 - 2 ^ 320 else 0)
  x &&& BitVec.ofNat 512 m

/-- An address of an image: a multiple of n, with bits [63:52] zero. -/
def imgAddr (a : DWord) (n : Nat) : Bool := decide (a.toNat % n = 0) && globOk a

/-- The header is well formed (R288). -/
def imgOk (x : BitVec 512) : Bool :=
  imgNr x != 0 && imgNc x != 0 &&
    (if imgType x = 3 then imgAddr (imgVal x) 4
     else (imgType x == 1 || imgType x == 2) && imgAddr (imgPos x) (if imgWidePos x then 8 else 4) &&
       imgAddr (imgIdx x) (if imgWideIdx x then 4 else 2) && imgAddr (imgVal x) 4)

/-- hld. -/
def execHld (h : Fin 16) (a : Src) (s : State) : Out :=
  s.issue (.hld h a) (fun k t s =>
    let g := s.uni t a.op
    if g.toNat % 64 ≠ 0 ∨ !globOk g then .trap { code := 0x90 }
    else
      let s1 := s.modTeam k (fun u => u.markEmpty (.h h))
      .done (s1.addReq { team := k, gen := t.gen, kind := .hld h g, dst := .h h, words := [0], pc := t.ctl.pc }))

/-- What a handle load finds. -/
def State.header (s : State) (t : Team) (g : DWord) : Handle :=
  match s.gcheck t.cluster (s.tenantIdOf t) g 64 .read with
  | .error c => { image := 0, state := .failed c }
  | .ok pa =>
    if s.physPoisoned pa 64 then { image := 0, state := .failed 0x35 }
    else
      let x := imgKeep (BitVec.ofNat 512 (s.physRead pa 64))
      if imgOk x then { image := x, state := .valid } else { image := 0, state := .failed 0x91 }

/-- HLD_COMPLETE. The header is read as one access, and its register is valid or failed. -/
def execHldComplete (req : Nat) (s : State) : Out :=
  match s.reqs.get? req with
  | none => .next s
  | some r =>
    match r.kind, s.team? r.team with
    | .hld n g, some t =>
      if !s.returns r then .next s
      else
        let s1 := s.modTeam r.team (fun u => { u with regs := u.regs.setHandle n (s.header t g) })
        .next { s1 with reqs := s1.reqs.del req }
    | _, _ => .next s

/-- A dword of an image replaced. -/
def imgSet (x : BitVec 512) (j : Nat) (v : DWord) : BitVec 512 :=
  (x &&& ~~~(BitVec.ofNat 512 ((2 ^ 64 - 1) * 2 ^ (64 * j)))) ||| BitVec.ofNat 512 (v.toNat * 2 ^ (64 * j))

/-- hset. -/
def execHset (h : Fin 16) (j : Fin 6) (a : Src) (s : State) : Out :=
  s.issue (.hset h j a) (fun k t s =>
    let old := t.regs.handle h
    let put (v : Handle) : Effect := .done (s.setTeam k { t with regs := t.regs.setHandle h v })
    match old.state with
    | .failed c => .trap { code := 0x92, detail := c }
    | _ =>
      if old.state = .null ∧ j.val ≠ 0 then .trap { code := 0x93 }
      else
        let new := imgSet old.image j (s.uni t a.op)
        if j.val = 0 ∧ imgType new = 0 then put {}
        else if !imgOk new then .trap { code := 0x91 }
        else put { image := new, state := .valid })

/-- hget. -/
def execHget (d : Opnd) (h : Fin 16) (j : Fin 8) (s : State) : Out :=
  s.issue (.hget d h j) (fun k t s => uniBody d (imgDword (t.regs.handle h).image j) k t s)

/-- The word of hchk mode 0. -/
def handleReport (h : Handle) : DWord :=
  let st : Nat × Nat := match h.state with
    | .failed c => (2, c.toNat)
    | .valid => (0, 0)
    | .null | .pending => (1, 0)
  BitVec.ofNat 64 (st.1 * 2 ^ 56 + (if h.image.getLsbD 9 then 2 ^ 9 else 0) + (if h.image.getLsbD 7 then 2 ^ 8 else 0) + st.2)

/-- hchk mode 0. -/
def execHchkReport (d : Opnd) (h : Fin 16) (s : State) : Out :=
  s.issue (.hchkReport d h) (fun k t s => uniBody d (handleReport (t.regs.handle h)) k t s)

/-- hchk mode 1. (DEDUCED, log 62) -/
def execHchkWalk (d : Opnd) (h : Fin 16) (s : State) : Out :=
  s.issue (.hchkWalk d h) (fun k t s =>
    match needMatrix (t.regs.handle h) false, futureOf d with
    | .error e, _ => .trap e
    | _, none => .trap { code := 0x93 }
    | .ok x, _ => s.issueCmd k t .copy (.check h x [] 0) d [])

end Sys2Proof.Machine
end

