-- ==== Sys2Proof/Machine/TermMem.lean ====
section
/-! DEFINITION. Terms in memory (R170 to R173, R176 to R195): a lane's walk with its reads, bindings and stack, and what a
stopped lane undoes. -/

namespace Sys2Proof.Machine

/-! ### Term words (R170) -/

/-- A term word's tag and 32-bit payload. -/
def tagOf (w : DWord) : Nat := field w 60 4
def payload (w : DWord) : Word := w.setWidth 32
def arityOf (w : DWord) : Nat := field w 32 16

/-- The word of a tag and a 32-bit payload. -/
def mkTerm (tag : Nat) (p : Word) : DWord := BitVec.ofNat 64 (tag * 2 ^ 60) ||| p.setWidth 64

/-- A REF word; the word of an unbound cell is its own address. -/
def refWord (p : Word) : DWord := p.setWidth 64
def cvarWord (k : Nat) : DWord := mkTerm 1 (BitVec.ofNat 32 k)
/-- The word of an empty column entry. -/
def unbWord : DWord := 0xF000000000000000

/-- The payload bits a tag leaves unnamed are zero. -/
def unnamedClear (w : DWord) : Bool :=
  match tagOf w with
  | 3 => true
  | 6 => field w 48 12 == 0
  | 8 => field w 0 60 == 0
  | _ => field w 32 28 == 0

/-- The check of a word that is dispatched on (R180). -/
def termCheck (w : DWord) : Option Byte :=
  let t := tagOf w
  if 0xA ≤ t ∧ t ≤ 0xE then some 0x50
  else if t = 0xF then some 0x51
  else if unnamedClear w then none
  else some 0x52

/-! ### A lane's walk -/

/-- Why a lane stops (R195): the code, and the address of the element or the poisoned word. -/
structure Stop where
  code : Byte
  addr : DWord := 0
  deriving DecidableEq, Repr

/-- Why a lane's walk does not go on: it stops, or its next access has not been made yet. -/
inductive Halt where
  | stop (e : Stop) | pause
  deriving DecidableEq, Repr

/-- A lane at work on a term instruction: the machine, its context, the reads it has made, the bindings it has pushed, newest
first, each as the trail's dword, and its walk stack (R186): hardware entries from the top down, and how many are spilled.
`bounded` says that the limits HL, TL and CL are checked, as they are where tstride is not 0 (R176).
`past` holds the answers of the accesses it has made before, and `news` those it makes now, the latest first, of which `budget`
more may come. -/
structure Walker where
  s : State
  k : Nat
  f : Frame
  lane : Nat
  ctx : TermCtx
  hl : Nat
  tl : Nat
  cl : Nat
  bounded : Bool := true
  /-- reads made, and the limit if the instruction has one -/
  reads : Nat := 0
  limited : Bool := false
  bound : List DWord := []
  hw : List (Word × Word × Nat) := []
  spilled : Nat := 0
  past : List DWord := []
  news : List DWord := []
  budget : Nat := 0

/-- A walk's step: a value, or a halt, and the lane after it. -/
abbrev TM (α : Type) := EStateM Halt Walker α

/-- Stops the lane with a code. -/
def stop {α : Type} (c : Byte) : TM α := fun w => .error (.stop ⟨c, 0⟩) w

/-- The most reads of one instruction (R186). -/
def walkLimit : Nat := 2 ^ 20

/-- One access of a lane (R177): what it answered when it was made, or, made now, what memory answers, once the team's earlier
accesses to the same core or private memory have landed (R111). -/
def accessCell (a : Word) (act : NearLoc → TM DWord) : TM DWord := fun w =>
  match w.past with
  | x :: r => .ok x { w with past := r }
  | [] =>
    if w.budget = 0 then .error .pause w
    else match w.s.nearCheck w.f (some w.lane) a 8 with
      | .error c => .error (.stop ⟨c, a.setWidth 64⟩) w
      | .ok l =>
        if w.s.homeBusy w.k l w.s.nextId then .error .pause w
        else match act l { w with budget := w.budget - 1 } with
          | .ok x w1 => .ok x { w1 with news := x :: w1.news }
          | .error e w1 => .error e w1

/-- One dword of memory, read for a term instruction (R177, R186, R195). -/
def readCell (a : Word) : TM DWord := do
  let w ← get
  let x ← accessCell a (fun l v =>
    if v.limited && decide (walkLimit ≤ v.reads) then .error (.stop ⟨0x5B, 0⟩) v
    else if v.s.nearPoisoned l 4 then .error (.stop ⟨0x5C, a.setWidth 64⟩) v
    else if v.s.nearPoisoned l 8 then .error (.stop ⟨0x5C, (a + 4).setWidth 64⟩) v
    else .ok (BitVec.ofNat 64 (v.s.nearRead v.k l 8)) v)
  modify (fun v => { v with reads := w.reads + 1 })
  return x

/-- One dword of memory, written. -/
def writeCell (a : Word) (x : DWord) : TM Unit := do
  let _ ← accessCell a (fun l v => .ok 0 { v with s := v.s.nearWrite v.k l 8 x.toNat })

/-- Dispatches on a word: it is checked (R180). -/
def checkTerm (x : DWord) : TM Unit := fun w =>
  match termCheck x with
  | some c => .error (.stop ⟨c, 0⟩) w
  | none => .ok () w

/-- The address of a column entry. (DEDUCED, log 114) -/
def entryAddr (c : TermCtx) (k : Word) : Word := c.cb + 8 * k

/-- A dereferenced word: a variable, by its cell or its column index, with the word another variable binds to; or a value. -/
inductive Deref where
  | ref (cell : Word)
  | cvar (k : Word) (word : DWord)
  | value (w : DWord)
  deriving DecidableEq, Repr

/-- The word deref returns (R182). -/
def Deref.word : Deref → DWord
  | .ref c => refWord c
  | .cvar _ w => w
  | .value w => w

/-- deref, with fuel for more reads than the limit allows (R182). -/
def derefFrom (x : DWord) (cell : Option Word) : Nat → TM Deref
  | 0 => stop 0x5B
  | n + 1 => do
    checkTerm x
    if tagOf x = 0 then
      let c ← readCell (payload x)
      if c = x then return .ref (payload x)
      derefFrom c (some (payload x)) n
    else if tagOf x = 1 then
      let w ← get
      if w.ctx.ct.toNat ≤ (payload x).toNat then stop 0x53
      let e ← readCell (entryAddr w.ctx (payload x))
      if e = unbWord then
        return .cvar (payload x) (match cell with
          | some p => refWord p
          | none => x)
      if tagOf e = 0xF then stop 0x52
      derefFrom e none n
    else return .value x

def derefTerm (x : DWord) : TM Deref := derefFrom x none (walkLimit + 1)

/-! ### Binding (R173, R183) -/

/-- Writes a trail dword: TT rises by 8, within TL. -/
def pushTrail (e : DWord) : TM Unit := do
  let w ← get
  if w.bounded && decide (w.tl < w.ctx.tt.toNat + 8) then stop 0x55
  writeCell w.ctx.tt e
  modify (fun w => { w with ctx := { w.ctx with tt := w.ctx.tt + 8 } })

/-- Binds a variable to a word, and logs it. -/
def bindVar (v : Deref) (x : DWord) : TM Unit :=
  match v with
  | .ref c => do
    writeCell c x
    modify (fun w => { w with bound := refWord c :: w.bound })
    pushTrail (refWord c)
  | .cvar k _ => do
    let w ← get
    writeCell (entryAddr w.ctx k) x
    modify (fun w => { w with bound := cvarWord k.toNat :: w.bound })
    pushTrail (cvarWord k.toNat)
  | .value _ => pure ()

/-- Undoes one trail entry (R173, R191). (DEDUCED, log 30) -/
def undoEntry (e : DWord) : TM Unit := do
  let w ← get
  if tagOf e = 0 then writeCell (payload e) e
  else if tagOf e = 1 then writeCell (entryAddr w.ctx (payload e)) unbWord
  else stop 0x52

/-! ### The walk stack (R186) -/

/-- The address of a spilled entry. -/
def spillAddr (w : Walker) (j : Nat) : Word := w.ctx.ht + BitVec.ofNat 32 (16 * j)

/-- Writes a spilled entry as four words. -/
def writeSpill (j : Nat) (p q : Word) (n : Nat) : TM Unit := do
  let w ← get
  writeCell (spillAddr w j) (q ++ p)
  writeCell (spillAddr w j + 8) (BitVec.ofNat 64 n)

/-- Pushes an entry: beyond 64 in hardware it goes above HT, within HL. -/
def pushWalk (p q : Word) (n : Nat) : TM Unit := do
  let w ← get
  if w.hw.length < 64 then set { w with hw := (p, q, n) :: w.hw }
  else
    if w.bounded && decide (w.hl ≤ w.ctx.ht.toNat + 16 * w.spilled + 15) then stop 0x54
    writeSpill w.spilled p q n
    modify (fun w => { w with spilled := w.spilled + 1 })

/-- How many entries the stack holds. -/
def Walker.depth (w : Walker) : Nat := w.hw.length + w.spilled

/-- Takes the next pair off the top entry: the entry is popped with its last one, and moves on by one cell otherwise.
(DEDUCED, log 31) -/
def nextPair (occurs : Bool) : TM (Word × Word) := do
  let w ← get
  if 0 < w.spilled then
    let a := spillAddr w (w.spilled - 1)
    let pq ← readCell a
    let m ← readCell (a + 8)
    let p := payload pq
    let q := payload (pq >>> 32)
    let n := (payload m).toNat
    if n ≤ 1 then modify (fun w => { w with spilled := w.spilled - 1 })
    else writeSpill (w.spilled - 1) (p + 8) (if occurs then q else q + 8) (n - 1)
    return (p, q)
  else match w.hw with
    | [] => return (0, 0)
    | (p, q, n) :: r =>
      if n ≤ 1 then set { w with hw := r } else set { w with hw := (p + 8, if occurs then q else q + 8, n - 1) :: r }
      return (p, q)

/-- Drops the stack to a depth. -/
def dropTo (d : Nat) : TM Unit :=
  modify (fun w =>
    if d ≤ 64 then { w with spilled := 0, hw := w.hw.drop (w.hw.length - d) } else { w with spilled := d - 64 })

/-! ### Unification (R183 to R185) -/

/-- A FUN cell, read. -/
def readFun (a : Word) : TM DWord := do
  let f ← readCell a
  checkTerm f
  if tagOf f = 6 then return f else stop 0x52

/-- A word for the second cell of an entry the occurs check pushes: no rule names it. -/
def occursCell : TM Word := fun w =>
  match w.past with
  | x :: r => .ok (x.setWidth 32) { w with past := r }
  | [] =>
    let x : Word := BitVec.ofNat 32 (Config.occursWord w.s.draws)
    .ok x { w with s := { w.s with draws := w.s.draws + 1 }, news := x.setWidth 64 :: w.news }

/-- Pushes the argument cells of a value for the occurs check. -/
def pushArgs (x : DWord) : TM Unit := do
  if tagOf x = 5 then
    let f ← readFun (payload x)
    if 0 < arityOf f then
      let q ← occursCell
      pushWalk (payload x + 8) q (arityOf f)
  else if tagOf x = 7 then
    let q ← occursCell
    pushWalk (payload x) q 2

/-- A dereferenced word is a variable. -/
def Deref.same : Deref → Deref → Bool
  | .ref p, .ref q => p == q
  | .cvar j _, .cvar k _ => j == k
  | _, _ => false

/-- Walks the argument cells above a depth of the stack: whether the variable is among them (R185).
(DESIGN CHOICE, log 32) -/
def occursFrom (v : Deref) (base : Nat) : Nat → TM Bool
  | 0 => stop 0x5B
  | n + 1 => do
    let w ← get
    if w.depth ≤ base then return false
    let (p, _) ← nextPair true
    let x ← readCell p
    let d ← derefTerm x
    if d.same v then
      dropTo base
      return true
    match d with
    | .value y => pushArgs y
    | _ => pure ()
    occursFrom v base n

/-- Binds a variable to a value, with the occurs check where it applies; false when the check refuses it. -/
def bindValue (oc : Bool) (v : Deref) (y : DWord) : TM Bool := do
  if oc && (tagOf y == 5 || tagOf y == 7) then
    let w ← get
    pushArgs y
    let found ← occursFrom v w.depth (walkLimit + 1)
    if found then return false
  bindVar v y
  return true

/-- The first variable binds to the second (R184). -/
def younger : Deref → Deref → Bool
  | .ref p, .ref q => q.ult p
  | .ref _, .cvar _ _ => true
  | .cvar j _, .cvar k _ => k.ult j
  | _, _ => false

/-- One pair of words (R183): false at a clash. -/
def unifyPair (oc : Bool) (x y : DWord) : TM Bool := do
  let dx ← derefTerm x
  let dy ← derefTerm y
  match dx, dy with
  | .value a, .value b =>
    if tagOf a ≠ tagOf b then return false
    else if tagOf a = 8 then return true
    else if tagOf a = 5 then
      if a = b then return true
      let f ← readCell (payload a)
      checkTerm f
      let g ← readCell (payload b)
      checkTerm g
      if tagOf f ≠ 6 ∨ tagOf g ≠ 6 then stop 0x52
      if f ≠ g then return false
      if 0 < arityOf f then pushWalk (payload a + 8) (payload b + 8) (arityOf f)
      return true
    else if tagOf a = 7 then
      if a = b then return true
      pushWalk (payload a) (payload b) 2
      return true
    else return a == b
  | v, .value b => bindValue oc v b
  | .value a, v => bindValue oc v a
  | v, u =>
    if v.same u then return true
    if younger v u then bindVar v u.word else bindVar u v.word
    return true

/-- The pairs that remain on the stack. -/
def unifyFrom (oc : Bool) : Nat → TM Bool
  | 0 => stop 0x5B
  | n + 1 => do
    let w ← get
    if w.depth = 0 then return true
    let (p, q) ← nextPair false
    let x ← readCell p
    let y ← readCell q
    let ok ← unifyPair oc x y
    if ok then unifyFrom oc n else return false

/-- unify and unify.oc in one lane. -/
def unifyTerms (oc : Bool) (a b : DWord) : TM Bool := do
  let ok ← unifyPair oc a b
  if ok then unifyFrom oc (walkLimit + 1) else return false

/-! ### The other term instructions in one lane -/

/-- bind (R189). -/
def bindTerms (a b : DWord) : TM Unit := do
  let x ← derefTerm a
  let y ← derefTerm b
  match x with
  | .value _ => stop 0x59
  | v => if v.same y then pure () else bindVar v y.word

/-- mkvar, at a cell (R187). -/
def makeVar (p : Word) : TM DWord := do
  writeCell p (refWord p)
  return refWord p

/-- mkvar.h. -/
def makeHeapVar : TM DWord := do
  let w ← get
  let p := w.ctx.ht
  if w.bounded && decide (w.hl < p.toNat + 8) then stop 0x54
  modify (fun w => { w with ctx := { w.ctx with ht := p + 8 } })
  makeVar p

/-- mkcvar. -/
def makeCvar (a k : Word) : TM DWord := do
  if 0x1FFFF < k.toNat then stop 0x53
  let w ← get
  writeCell a (cvarWord k.toNat)
  writeCell (entryAddr w.ctx k) unbWord
  modify (fun w => { w with ctx := { w.ctx with ct := if w.ctx.ct.toNat < k.toNat + 1 then k + 1 else w.ctx.ct } })
  return refWord a

/-- Fresh variables in the cells from p on. -/
def freshCells (p : Word) : Nat → TM Unit
  | 0 => pure ()
  | n + 1 => do
    writeCell p (refWord p)
    freshCells (p + 8) n

/-- mkstr. -/
def makeStr (n atom : Word) : TM DWord := do
  if 65535 < n.toNat then stop 0x58
  let w ← get
  let p := w.ctx.ht
  if w.bounded && decide (w.hl < p.toNat + 8 * (n.toNat + 1)) then stop 0x54
  writeCell p (mkTerm 6 atom ||| BitVec.ofNat 64 (n.toNat * 2 ^ 32))
  freshCells (p + 8) n.toNat
  modify (fun w => { w with ctx := { w.ctx with ht := p + 8 * (n + 1) } })
  return mkTerm 5 p

/-- getarg (R188). -/
def getArg (a : DWord) (k : Word) : TM DWord := do
  checkTerm a
  if tagOf a = 5 then
    let f ← readFun (payload a)
    if k = 0 ∨ arityOf f < k.toNat then stop 0x58
    return refWord (payload a + 8 * k)
  else if tagOf a = 7 then
    if k = 0 ∨ 2 < k.toNat then stop 0x58
    return refWord (payload a + 8 * (k - 1))
  else stop 0x58

/-- Undoes trail entries, newest first, down to a mark; `chk` is the check of words dispatched on (R180, R191). -/
def untrailFrom (chk : Bool) (mark : Nat) : Nat → TM Unit
  | 0 => pure ()
  | n + 1 => do
    let w ← get
    if w.ctx.tt.toNat ≤ mark then pure ()
    else
      let tt := w.ctx.tt - 8
      set { w with ctx := { w.ctx with tt := tt } }
      let e ← readCell tt
      if chk then checkTerm e
      undoEntry e
      untrailFrom chk mark n

/-- untrail to a mark (R191). -/
def untrailTo (chk : Bool) (base mark : Nat) : TM Unit := do
  let w ← get
  if mark % 8 ≠ 0 ∨ mark < base ∨ w.ctx.tt.toNat < mark then stop 0x5A
  untrailFrom chk mark ((w.ctx.tt.toNat - mark + 7) / 8)

/-- Writes the dwords of a record. -/
def writeRecord (r : Word) : List DWord → TM Unit
  | [] => pure ()
  | x :: rest => do
    writeCell r x
    writeRecord (r + 8) rest

/-- Where cpush puts its record, exactly (R193). -/
def TermCtx.recordAt (c : TermCtx) : Nat := if c.bp = 0 then c.cs.toNat else c.bp.toNat + 48

/-- cpush (R193). -/
def choicePush (alt cont : DWord) : TM Unit := do
  let w ← get
  if w.bounded && decide (w.cl < w.ctx.recordAt + 48) then stop 0x56
  let r : Word := BitVec.ofNat 32 w.ctx.recordAt
  writeRecord r [alt, refWord w.ctx.tt, refWord w.ctx.ht, refWord w.ctx.ct, cont, refWord w.ctx.bp]
  modify (fun w => { w with ctx := { w.ctx with bp := r } })

/-- cnext and clast: back to the newest choice point, which takes another alternative, or is popped (R193). -/
def choiceBack (base : Nat) (alt : Option DWord) : TM Unit := do
  let w ← get
  let r := w.ctx.bp
  if r = 0 then stop 0x57
  let m ← readCell (r + 8)
  untrailTo true base m.toNat
  let ht ← readCell (r + 16)
  let ct ← readCell (r + 24)
  modify (fun w => { w with ctx := { w.ctx with ht := payload ht, ct := payload ct } })
  match alt with
  | some a => writeCell r a
  | none =>
    let p ← readCell (r + 40)
    modify (fun w => { w with ctx := { w.ctx with bp := payload p } })

/-- cut (R194). -/
def cutTo (a : Word) : TM Unit := do
  let w ← get
  if a = 0 ∨ (w.ctx.cs.toNat ≤ a.toNat ∧ a.toNat ≤ w.ctx.bp.toNat ∧ (a.toNat - w.ctx.cs.toNat) % 48 = 0) then
    set { w with ctx := { w.ctx with bp := a } }
  else stop 0x57

/-- bcol (R192). -/
def setColumn (a : Word) : TM Unit := do
  if a.toNat % 8 ≠ 0 then stop 0x5A
  modify (fun w => { w with ctx := { w.ctx with cb := a } })

/-- tmk's word, or its trap (R181). -/
def makeTerm (a b : Word) : Except Stop DWord :=
  let t := field a 0 4
  if 0xA ≤ t ∧ t ≤ 0xE then .error ⟨0x50, 0⟩
  else if t = 0xF then .error ⟨0x51, 0⟩
  else .ok (if t = 3 then BitVec.ofNat 4 3 ++ b.signExtend 60
    else if t = 6 then mkTerm 6 b ||| BitVec.ofNat 64 (field a 4 16 * 2 ^ 32)
    else if t = 8 then mkTerm 8 0
    else mkTerm t b)

/-! ### A lane's instruction -/

/-- A lane's limits (R176). -/
def limit (base stride lane : Nat) : Nat := if stride = 0 then 2 ^ 32 else base + (lane + 1) * stride

/-- Where a lane's trail begins. -/
def trailBase (t : Team) (n : Nat) : Nat := t.trail + n * t.tstride

/-- The instructions whose reads are limited (R186). -/
def TermOp.limited : TermOp → Bool
  | .deref | .unify _ | .bind | .getarg => true
  | _ => false

/-- A value of a lane that writes none. -/
def noValue (m : TM Unit) : TM DWord := do
  m
  return 0

/-- What an instruction does in a lane, on the lane's operands. -/
def TermOp.walk (op : TermOp) (t : Team) (n : Nat) (a b : DWord) : TM DWord :=
  match op with
  | .deref => do
    let d ← derefTerm a
    return d.word
  | .unify oc => do
    let ok ← unifyTerms oc a b
    return if ok then 1 else 0
  | .bind => noValue (bindTerms a b)
  | .mkvar => makeVar (a.setWidth 32)
  | .mkvarH => makeHeapVar
  | .mkcvar => makeCvar (a.setWidth 32) (b.setWidth 32)
  | .mkstr => makeStr (a.setWidth 32) (b.setWidth 32)
  | .getarg => getArg a (b.setWidth 32)
  | .untrail => noValue (untrailTo false (trailBase t n) (field a 0 32))
  | .bcol => noValue (setColumn (a.setWidth 32))
  | .cpush alt cont => noValue (choicePush alt cont)
  | .cnext alt => noValue (choiceBack (trailBase t n) (some alt))
  | .clast => noValue (choiceBack (trailBase t n) none)
  | .cut => noValue (cutTo (a.setWidth 32))

/-- A lane of a team at the start of a term instruction, with the accesses it has made, and how many more it may make. -/
def State.walker (s : State) (k : Nat) (t : Team) (op : TermOp) (l : TermLane) (budget : Nat) : Walker :=
  { s := s, k := k, f := s.frame t, lane := l.lane, ctx := t.ctx l.lane, limited := op.limited
    hl := limit t.heap t.tstride l.lane, tl := limit t.trail t.tstride l.lane, cl := limit t.chpt t.tstride l.lane, bounded := t.tstride != 0
    past := l.log, budget := budget }

/-- Up to `budget` further accesses of a lane: it completes, and its context is what it has made of it; it stops, with its
bindings to undo and its context as at issue (R195); or it has more to do. -/
def State.walkLane (s : State) (k : Nat) (t : Team) (op : TermOp) (l : TermLane) (budget : Nat) : State × TermLane :=
  match op.walk t l.lane l.a l.b (s.walker k t op l budget) with
  | .ok x w => (w.s.modTeam k (fun u => u.setCtx l.lane w.ctx), { l with log := [], st := .done x })
  | .error (.stop e) w => (w.s, { l with log := [], st := .undoing w.bound (some (e.code, e.addr)) })
  | .error .pause w => (w.s, { l with log := l.log ++ w.news.reverse })

/-- A pre-emption stops a lane (R195). -/
def State.haltLane (s : State) (k : Nat) (t : Team) (op : TermOp) (l : TermLane) : TermLane :=
  match op.walk t l.lane l.a l.b (s.walker k t op l 0) with
  | .error _ w => { l with log := [], st := .undoing w.bound none }
  | .ok _ w => { l with log := [], st := .undoing w.bound none }

/-- A stopped lane undoes the newest binding that is left, or has none left; an undo that fails its own checks is dropped.
(DEDUCED, log 122) -/
def State.undoLane (s : State) (k : Nat) (t : Team) (op : TermOp) (l : TermLane) (es : List DWord) (why : Option (Byte × DWord)) :
    State × TermLane :=
  match es with
  | [] => (s, { l with st := match why with
      | some (c, a) => .stopped c a
      | none => .held })
  | e :: r =>
    let s1 := match undoEntry e (s.walker k t op { l with log := [] } 1) with
      | .ok _ w => w.s
      | .error _ w => w.s
    (s1, { l with st := .undoing r why })

/-- What a lane comes to: its value, or why it stopped. -/
abbrev Ran := Except Stop DWord

/-- The lanes that completed, with their values. -/
def ranOk : List (Nat × Ran) → List (Nat × DWord)
  | [] => []
  | (n, .ok x) :: r => (n, x) :: ranOk r
  | _ :: r => ranOk r

/-- The lanes that stopped. -/
def ranStopped : List (Nat × Ran) → List (Nat × Stop)
  | [] => []
  | (n, .error e) :: r => (n, e) :: ranStopped r
  | _ :: r => ranStopped r

/-- The one trap of the lanes that stopped (R196). -/
def stopTrap : List (Nat × Stop) → Option Trap
  | [] => none
  | (n, e) :: r =>
    some { code := e.code, addr := e.addr, mask := some (Mask.ofLanes (n :: r.map Prod.fst)), term := true }

end Sys2Proof.Machine
end

