-- ==== Sys2Proof/Machine/Terms.lean ====
section
/-! DEFINITION. Term instructions (R178 to R196). The lanes of one that reads or writes memory work on at the part's own
steps, in any order, while their team waits; the lanes that stop lead to one trap, and rett reissues the instruction on them. -/

namespace Sys2Proof.Machine

/-- What the lanes come to: complete, or a trap with the stopped lanes as its resume mask (R196). -/
def termEffect (k : Nat) (rs : List (Nat × Ran)) (s : State) : Effect :=
  match stopTrap (ranStopped rs) with
  | none => .done s
  | some tr => .jump (s.takeTrap k 0 tr)

/-- The registers a long-latency term instruction leaves empty; none of a completing one (R179). -/
def TermOp.dst (op : TermOp) (d : Opnd) : Dst :=
  match op with
  | .deref | .getarg => loadDst d 2
  | .unify _ => loadDst d 1
  | _ => .none

/-- Starts a term instruction that reads or writes memory, on the operands each lane reads; a long-latency one marks its
destination empty (R179). (DEDUCED, log 33) -/
def startTerm (i : Instr) (op : Team → TermOp) (d : Opnd) (ops : State → Team → Nat → DWord × DWord) (s : State) : Out :=
  s.issue i (fun k t s =>
    let lanes := t.active.map (fun n => ({ lane := n, a := (ops s t n).1, b := (ops s t n).2 } : TermLane))
    let run : TermRun := { op := op t, d := d, size := i.size, lanes := lanes }
    .jump (s.modTeam k (fun u =>
      { (if t.ctl.resume.isSome then u else u.markEmpty ((op t).dst d)) with run := some run })))

/-- A producer's elements: each lane's value, or the code it stopped with. -/
def ranElems : List (Nat × Ran) → List Elem
  | [] => []
  | (n, .ok x) :: r => { lane := n, addr := 0, got := x.setWidth 128, st := .done } :: ranElems r
  | (n, .error e) :: r => { lane := n, addr := e.addr, st := .parked e.code } :: ranElems r

/-- The request of a reissued producer. (DEDUCED, log 34) -/
def State.reissued (s : State) (k : Nat) (pc : DWord) : Option (Nat × Req) :=
  s.reqs.find? (fun r => r.2.team == k && r.2.pc == pc && r.2.kind.term && r.2.elems.any (fun e => e.parkedCode.isSome))

/-- The elements of a request with those of the reissued lanes replaced. -/
def Req.renewElems (r : Req) (es : List Elem) : Req :=
  { r with elems := r.elems.map (fun e => (es.find? (fun x => x.lane == e.lane)).getD e) }

/-- Leaves the results of a producer to return to its destination; a reissue fills the lanes that had stopped. -/
def State.produce (s : State) (k : Nat) (t : Team) (kind : ReqKind) (dst : Dst) (es : List Elem) : State :=
  if dst = .none then s
  else match t.ctl.resume, s.reissued k t.ctl.pc with
    | some _, some (n, r) => { s with reqs := s.reqs.put n (r.renewElems es) }
    | _, _ => s.addReq
        { team := k, gen := t.gen, kind := kind, dst := dst, words := dstWords t dst, elems := es, pc := t.ctl.pc }

/-- The elements with the operands their lanes read, for a reissue. -/
def withOperands (ls : List TermLane) (es : List Elem) : List Elem :=
  es.map (fun e => match ls.find? (fun l => l.lane == e.lane) with
    | some l => { e with val := l.a.setWidth 128, exp := l.b }
    | none => e)

/-- What a long-latency term instruction's request is. -/
def TermOp.reqKind : TermOp → ReqKind
  | .deref => .deref
  | .getarg => .getarg
  | _ => .value

/-! ### The lanes at work (R177, R195, R196) -/

/-- What a lane that is done or stopped has come to. -/
def TermLane.ran (l : TermLane) : Option (Nat × Ran) :=
  match l.st with
  | .done x => some (l.lane, .ok x)
  | .stopped c a => some (l.lane, .error ⟨c, a⟩)
  | _ => none

/-- Every lane has completed or stopped for good. -/
def TermRun.over (r : TermRun) : Bool := r.lanes.all (fun l => l.ran.isSome)

/-- What the lanes of an instruction have come to. -/
def TermRun.rans (r : TermRun) : List (Nat × Ran) := r.lanes.filterMap TermLane.ran

/-- A team past a term instruction: the next reading again begins, if a restore has left one. -/
def Team.nextRun (t : Team) : Team := { t with run := t.reruns.head?, reruns := t.reruns.tail }

/-- Ends an instruction whose lanes have all completed or stopped: the results of those that completed, and the next
instruction, or the one trap of those that stopped (R179, R196). (DEDUCED, log 121) -/
def State.endTerm (s : State) (k : Nat) (t : Team) (r : TermRun) : State :=
  let s1 := s.modTeam k Team.nextRun
  let dst := r.op.dst r.d
  let s2 := match r.op with
    | .deref | .getarg | .unify _ => s1.produce k t r.op.reqKind dst (withOperands r.lanes (ranElems r.rans))
    | _ => s1.modTeam k (fun u => u.pairResults r.d (ranOk r.rans))
  match termEffect k r.rans s2 with
  | .done s3 => s3.advance k r.size
  | .jump s3 => s3
  | _ => s2

/-- Ends a reading again for a restored team: the values are the request's; lanes that stopped lead to one trap, and wait in
the instruction for its handler (R46, R196). -/
def State.endReread (s : State) (k : Nat) (r : TermRun) (n : Nat) : State :=
  let put (q : Req) : Req := q.renewElems (withOperands r.lanes (ranElems r.rans))
  let s1 := { s with reqs := s.reqs.mod n put }
  match stopTrap (ranStopped r.rans) with
  | none => s1.modTeam k Team.nextRun
  | some tr => s1.takeTrap k 0 { tr with pc := (s.reqs.get? n).map Req.pc }

/-- Leaves the results of a producer whose path has moved on: in the request its reissue fills, or in one of its lanes' words. -/
def State.produceAt (s : State) (k : Nat) (t : Team) (r : TermRun) (pc : DWord) : State :=
  let dst := r.op.dst r.d
  let es := withOperands r.lanes (ranElems r.rans)
  if dst = .none then s
  else match s.reissued k pc with
    | some (n, q) => { s with reqs := s.reqs.put n (q.renewElems es) }
    | none => s.addReq
        { team := k, gen := t.gen, kind := r.op.reqKind, dst := dst, words := (r.lanes.map (fun l => l.lane / 32)).eraseDups
          elems := es, pc := pc }

/-- Ends an instruction whose path a save has sent to a fallback: its results are left once every lane has completed, lanes that
stopped wait in it for their handler, and the path stays where it is (R196, R322). (DEDUCED, log 121) -/
def State.endMoved (s : State) (k : Nat) (t : Team) (r : TermRun) (pc : DWord) : State :=
  match stopTrap (ranStopped r.rans) with
  | some tr => s.takeTrap k 0 { tr with pc := some pc }
  | none =>
    let s1 := s.modTeam k Team.nextRun
    match r.op with
    | .deref | .getarg | .unify _ => s1.produceAt k t r pc
    | _ => s1.modTeam k (fun u => u.pairResults r.d (ranOk r.rans))

/-- How many accesses a lane that goes on may make: a free number. -/
def State.laneBudget (s : State) : Nat := Config.freeChoice s.draws (2 ^ 22) % 2 ^ 22 + 1

/-- A lane of a team's term instruction goes on: it makes a free number of accesses, or undoes a binding; the last lane ends
the instruction. While its block is saved the lane stops. -/
def execTermLane (k lane : Nat) (s : State) : Out :=
  match s.team? k with
  | none => .next s
  | some t =>
    match t.run with
    | none => .next s
    | some r =>
      match r.lanes.find? (fun l => l.lane == lane) with
      | none => .next s
      | some l =>
        let saving := !((s.block? t.block).map (fun b => b.st == .placed)).getD false
        let s0 := { s with draws := s.draws + 1 }
        let (s1, l1) := match l.st with
          | .running =>
            if saving then (s, s.haltLane k t r.op l)
            else s0.walkLane k t r.op l s.laneBudget
          | .undoing es why => s0.undoLane k t r.op l es why
          | _ => (s, l)
        let r1 := { r with lanes := r.lanes.map (fun x => if x.lane = lane then l1 else x) }
        let s2 := s1.modTeam k (fun u => { u with run := some r1 })
        if t.st != .running || !r1.over then .next s2
        else match r1.fill, r1.moved with
          | some n, _ => .next (s2.endReread k r1 n)
          | none, some pc => .next (s2.endMoved k t r1 pc)
          | none, none => .next (s2.endTerm k t r1)

/-- A lane has work left: it runs, or undoes. -/
def TermLane.works (l : TermLane) : Bool :=
  match l.st with
  | .running | .undoing _ _ => true
  | _ => false

/-- The lanes of a team's instruction that can go on; of one that is over in a team that its handler has resumed, any. -/
def Team.runLanes (t : Team) : List Nat :=
  match t.run with
  | none => []
  | some r =>
    if t.st == .running && r.over then (r.lanes.take 1).map TermLane.lane
    else (r.lanes.filter TermLane.works).map TermLane.lane

/-- A lane of the team's term instruction is at work. -/
def Team.termWorks (t : Team) : Bool := (t.run.map (fun r => r.lanes.any TermLane.works)).getD false

/-! ### Reading again at a restore (R46, R359) -/

/-- A lane that a pre-emption has stopped goes to work again. -/
def TermRun.restart (r : TermRun) : TermRun :=
  { r with lanes := r.lanes.map (fun l => if l.st = .held then { l with log := [], st := .running } else l) }

/-- The lanes of a dereference, or of an argument's, whose data have not returned, to be read again. -/
def Req.rerun (n : Nat) (r : Req) : Option TermRun :=
  let op : Option TermOp := match r.kind with
    | .deref => some .deref
    | .getarg => some .getarg
    | _ => none
  let es := r.elems.filter (fun e => e.st == .done && r.words.contains (e.lane / 32))
  match op with
  | none => none
  | some o =>
    if es.isEmpty then none
    else some { op := o, d := .zero, size := 0, fill := some n
                lanes := es.map (fun e => { lane := e.lane, a := e.val.setWidth 64, b := e.exp }) }

/-- A restored team: the instruction that its save stopped goes on, or waits for its handler, and what it had read and not
received is read again behind it. -/
def State.rerunTerms (s : State) (k : Nat) (t : Team) : Team :=
  let own := if (t.run.bind TermRun.fill).isSome && t.st != .trapped then none else t.run
  let again := (s.reqs.filter (fun e => e.2.team == k && (own.bind TermRun.fill) != some e.1)).filterMap (fun e => e.2.rerun e.1)
  match own with
  | some r => { t with run := some r.restart, reruns := again }
  | none => Team.nextRun { t with reruns := again }

/-! ### Making and reading words (R181, R190) -/

/-- tmk: a pipeline instruction whose lanes may stop. -/
def execTmk (f : DAB) (s : State) : Out :=
  s.issue (.tmk f) (fun k t s =>
    let rs := t.active.map (fun n => (n, makeTerm (s.word t n f.a.op) (s.word t n f.b.op)))
    termEffect k rs (s.modTeam k (fun u => u.pairResults f.d (ranOk rs))))

/-- ttag. -/
def execTtag (f : DA) (s : State) : Out :=
  s.issue (.ttag f) (fun k t s => laneBody f.d (fun n => BitVec.ofNat 32 (tagOf (s.dword t n f.a.op))) k t s)

/-- The value of a term word (R181). -/
def termValue (w : DWord) : DWord := if tagOf w = 3 then (w.setWidth 60).signExtend 64 else (w.setWidth 60).setWidth 64

/-- tval. -/
def execTval (f : DA) (s : State) : Out :=
  s.issue (.tval f) (fun k t s =>
    .done (s.setTeam k (t.pairResults f.d (t.active.map (fun n => (n, termValue (s.dword t n f.a.op)))))))

/-- tis. -/
def execTis (tag : BitVec 4) (f : DA) (s : State) : Out :=
  s.issue (.tis tag f) (fun k t s => laneBody f.d (fun n => predWord (tagOf (s.dword t n f.a.op) == tag.toNat)) k t s)

/-- A selected value of a term context (R178). -/
def TermCtx.sel (c : TermCtx) : CtxSel → Word
  | .tt => c.tt
  | .ht => c.ht
  | .bp => c.bp
  | .cb => c.cb
  | .ct => c.ct
  | .cs => c.cs

/-- tmark. -/
def execTmark (c : CtxSel) (ext : Bool) (d : Opnd) (s : State) : Out :=
  s.issue (.tmark c ext d) (fun k t s => laneBody d (fun n => (t.ctx n).sel c) k t s)

/-! ### Walks (R182 to R189) -/

/-- Operands: a term and a term, a term and a lane word, two lane words, one lane word, none. -/
def termTerm (a b : Opnd) (s : State) (t : Team) (n : Nat) : DWord × DWord := (s.dword t n a, s.dword t n b)
def termWord (a b : Opnd) (s : State) (t : Team) (n : Nat) : DWord × DWord := (s.dword t n a, (s.word t n b).setWidth 64)
def wordWord (a b : Opnd) (s : State) (t : Team) (n : Nat) : DWord × DWord :=
  ((s.word t n a).setWidth 64, (s.word t n b).setWidth 64)
def oneWord (a : Opnd) (s : State) (t : Team) (n : Nat) : DWord × DWord := ((s.word t n a).setWidth 64, 0)
def noOperands (_ : State) (_ : Team) (_ : Nat) : DWord × DWord := (0, 0)

/-- deref. -/
def execDeref (f : DA) (s : State) : Out := startTerm (.deref f) (fun _ => .deref) f.d (fun s t n => (s.dword t n f.a.op, 0)) s

/-- unify. -/
def execUnify (f : DAB) (s : State) : Out := startTerm (.unify f) (fun _ => .unify false) f.d (termTerm f.a.op f.b.op) s
/-- unify.oc. -/
def execUnifyOc (f : DAB) (s : State) : Out := startTerm (.unifyOc f) (fun _ => .unify true) f.d (termTerm f.a.op f.b.op) s

/-- bind. -/
def execBind (f : AB) (s : State) : Out := startTerm (.bind f) (fun _ => .bind) .zero (termTerm f.a.op f.b.op) s

/-- mkvar. -/
def execMkvar (f : DA) (s : State) : Out := startTerm (.mkvar f) (fun _ => .mkvar) f.d (oneWord f.a.op) s

/-- mkvar.h. -/
def execMkvarH (d : Opnd) (s : State) : Out := startTerm (.mkvarH d) (fun _ => .mkvarH) d noOperands s

/-- mkcvar. -/
def execMkcvar (f : DAB) (s : State) : Out := startTerm (.mkcvar f) (fun _ => .mkcvar) f.d (wordWord f.a.op f.b.op) s

/-- mkstr. -/
def execMkstr (f : DAB) (s : State) : Out := startTerm (.mkstr f) (fun _ => .mkstr) f.d (wordWord f.a.op f.b.op) s

/-- getarg. -/
def execGetarg (f : DAB) (s : State) : Out := startTerm (.getarg f) (fun _ => .getarg) f.d (termWord f.a.op f.b.op) s

/-! ### The trail, the column and choice points (R191 to R194) -/

/-- untrail. -/
def execUntrail (f : A1) (s : State) : Out := startTerm (.untrail f) (fun _ => .untrail) .zero (oneWord f.a.op) s

/-- bcol. -/
def execBcol (f : A1) (s : State) : Out := startTerm (.bcol f) (fun _ => .bcol) .zero (oneWord f.a.op) s

/-- The continuation a choice point records: the return address on top of the return stack, or 0 (R173). -/
def Team.continuation (t : Team) : DWord :=
  match t.ctl.rs.hw.getLast? with
  | some (.ret ra _ _ _) => ra
  | _ => 0

/-- The alternative a displacement names. -/
def alternative (t : Team) (f : Jump) : DWord := t.ctl.pc + 4 * f.off.signExtend 64

/-- cpush. -/
def execCpush (f : Jump) (s : State) : Out :=
  startTerm (.cpush f) (fun t => .cpush (alternative t f) t.continuation) .zero noOperands s

/-- cnext. -/
def execCnext (f : Jump) (s : State) : Out := startTerm (.cnext f) (fun t => .cnext (alternative t f)) .zero noOperands s

/-- clast. -/
def execClast (s : State) : Out := startTerm .clast (fun _ => .clast) .zero noOperands s

/-- cut. -/
def execCut (f : A1) (s : State) : Out := startTerm (.cut f) (fun _ => .cut) .zero (oneWord f.a.op) s

end Sys2Proof.Machine
end

