-- ==== Sys2Proof/Machine/Saving.lean ====
section
/-! DEFINITION. Time slices (R352), pre-emption (R357), saving and restoring a block (R46, R116, R215, R248, R265, R319, R322,
R358 to R360). -/

namespace Sys2Proof.Machine

/-! ### The decision (R357, R358) -/

/-- A placed block stops: its teams and its stream issue nothing further. -/
def Block.preempt (b : Block) : Block := if b.st = .placed then { b with st := .saving } else b

/-- Pre-empts the blocks of a list. -/
def State.preempt (s : State) (bs : List Nat) : State :=
  { s with blocks := s.blocks.map (fun e => if bs.contains e.1 then (e.1, e.2.preempt) else e) }

/-- The placed blocks that stand on a partition's quarters. -/
def State.blocksOn (s : State) (p : Partition) (tenant : Nat) : List Nat :=
  s.blocks.keys (fun b => b.live && s.tenantOfGrid b.grid == tenant && b.quarters.all (fun q => p.quarters.contains q))

/-- The grid of a block is suspended. -/
def State.blockSuspended (s : State) (b : Nat) : Bool :=
  ((s.block? b).map (fun x => ((s.grid? x.grid).map Grid.suspended).getD false)).getD false

/-! ### Time slices (R352) -/

/-- A message of the tenant waits to start its block. -/
def State.messageWaits (s : State) (tenant : Nat) : Bool :=
  s.msgs.any (fun m => s.tenantOfGrid m.grid == tenant && (s.msgSpawn m).isSome)

/-- A tenant is backlogged on a partition: a block of it is resident, saved or waiting there; a suspended grid's blocks do not
count. -/
def State.backlogged (s : State) (p : Partition) (tenant : Nat) : Bool :=
  (s.blocksOn p tenant).any (fun b => !s.blockSuspended b) || s.grids.any (fun g => g.2.tenant == tenant && g.2.waiting) ||
    s.messageWaits tenant || ((s.tenant? tenant).map (fun t => t.records.any (fun r =>
      ((s.recordGrid r).map (fun g => g.2.live && !g.2.suspended)).getD false))).getD false

/-- A tenant has a runnable block on a partition: one that stands or stood there, or one that waits and would fit. -/
def State.runsOn (s : State) (p : Partition) (tenant : Nat) : Bool :=
  (s.blocksOn p tenant).any (fun b => !s.blockSuspended b) || (s.heads tenant).any (fun e => s.gridFits e.1 e.2) ||
    s.handlerDue tenant || s.msgs.any (fun m => s.tenantOfGrid m.grid == tenant && (match s.msgSpawn m with
      | none => false
      | some w => (s.findPlace tenant w m.cluster).isSome))

/-- The deficit of a tenant. -/
def Partition.deficit (p : Partition) (tenant : Nat) : Int := ((p.tenants.find? (fun e => e.1 == tenant)).map Prod.snd).getD 0

def Partition.setDeficit (p : Partition) (tenant : Nat) (d : Int) : Partition :=
  { p with tenants := p.tenants.map (fun e => if e.1 = tenant then (tenant, d) else e) }

/-- The backlogged tenant whose turn comes after the last one's, in ascending order, round by round. -/
def State.nextTurn (s : State) (p : Partition) : Option Nat :=
  let ts := (p.tenants.map Prod.fst).filter (s.backlogged p)
  let least := fun (l : List Nat) => l.foldl (fun m t => match m with
    | none => some t
    | some x => some (min x t)) (none : Option Nat)
  match p.last with
  | none => least ts
  | some x =>
    match least (ts.filter (fun t => decide (x < t))) with
    | some t => some t
    | none => least ts

/-- The blocks of the tenant whose slice has ended are all saved. -/
def State.sliceSaved (s : State) (p : Partition) : Bool :=
  match p.closing with
  | none => true
  | some j => (s.blocksOn p j).all (fun b => !s.residentBlock b)

/-- The deficit after a slice whose last save has ended: what it took is taken off, and no credit is kept. -/
def State.settleSlice (s : State) (p : Partition) (now : DWord) : Partition :=
  match p.closing with
  | none => p
  | some j =>
    let d := p.deficit j - ((now - p.start).toNat : Int)
    { p.setDeficit j (if !s.backlogged p j || decide (0 < d) then 0 else d) with closing := none }

/-- Settles every slice whose last save has ended. -/
def State.settleSlices (s : State) : List (Nat × Partition) → State
  | [] => s
  | (n, p) :: r =>
    if p.closing.isSome && s.sliceSaved p then
      let (now, s1) := s.readCycle
      State.settleSlices { s1 with partitions := s1.partitions.put n (s1.settleSlice p now) } r
    else State.settleSlices s r

/-- SLICE_END. A slice ends once its tenant has run for its deficit, or has no runnable block: every block of the tenant on the
partition is pre-empted. (DEDUCED, log 81) -/
def execSliceEnd (part : Nat) (s : State) : Out :=
  match s.partitions.get? part with
  | none => .next s
  | some p =>
    match p.turn with
    | none => .next s
    | some j =>
      let (cyc, s1) := s.readCycle
      if s.runsOn p j && decide (((cyc - p.start).toNat : Int) < p.deficit j) then .next s1
      else
        let s2 := s1.preempt (s1.blocksOn p j)
        let s3 := { s2 with partitions := s2.partitions.put part { p with turn := none, closing := some j } }
        .next (s3.settleSlices s3.partitions)

/-- SLICE_START. The last slice is settled, and the next backlogged tenant's turn begins with its credit; its saved blocks
restore. -/
def execSliceStart (part : Nat) (s : State) : Out :=
  match s.partitions.get? part with
  | none => .next s
  | some p =>
    if !p.shared || p.turn.isSome || s.checkpointing || !s.sliceSaved p then .next s
    else
      let (cyc, s1) := s.readCycle
      let p1 := s1.settleSlice p cyc
      let p2 := match s1.nextTurn p1 with
        | none => p1
        | some j =>
          let credit := match s1.tenant? j with
            | some t => (t.w * t.u : Nat)
            | none => 0
          { p1.setDeficit j (p1.deficit j + credit) with turn := some j, last := some j, start := cyc }
      .next { s1 with partitions := s1.partitions.put part p2 }

/-! ### Pre-emption for class 3 (R357) -/

/-- The state as it would be without a block's quarters. -/
def State.withoutBlock (s : State) (b : Nat) : State := s.modBlock b (fun x => { x with st := .saved })

/-- A block of class 0 or 1 of the tenant whose quarters would give a waiting class 3 grid its room. -/
def State.givesRoom (s : State) (id : Nat) (g : Grid) (b : Nat) (x : Block) : Bool :=
  x.st == .placed && decide (x.cls ≤ 1) && s.tenantOfGrid x.grid == g.tenant && (s.withoutBlock b).gridFits id g

/-- PREEMPT_FOR_CLASS3. A class 3 block that waits for room that only pre-emption can free has the youngest resident block of
class 0 or 1 that gives it the room pre-empted. (DEDUCED, log 80) -/
def execPreemptForClass3 (grid block : Nat) (s : State) : Out :=
  match s.grid? grid, s.block? block with
  | some g, some x =>
    let older := s.blocks.all (fun e => decide (e.2.age ≤ x.age) || !s.givesRoom grid g e.1 e.2)
    if s.checkpointing || !(s.heads g.tenant).any (fun e => e.1 == grid) || g.launch.cls ≠ 3 || s.gridFits grid g ||
        !s.givesRoom grid g block x || !older then .next s
    else .next (s.preempt [block])
  | _, _ => .next s

/-! ### Regions at a save (R322) -/

/-- The lanes of a team's arend in progress. -/
def Team.arendLanes (t : Team) : List Nat := (t.arend.getD []).map Prod.fst

/-- The lanes whose regions a save aborts: those in a region, but for an arend's. -/
def Team.openLanes (t : Team) : List Nat :=
  (List.range t.lanes).filter (fun n => (t.regionOf n).isSome && !t.arendLanes.contains n)

/-- The cause a region aborts with at a save: its first cause, or 5. -/
def Region.saveCause (r : Region) : Byte × Byte := r.doom.getD (5, 0)

/-- The lanes an arend has not taken up abort. -/
def Team.abortWaiting (t : Team) : Team :=
  { t with arend := t.arend.map (fun ls => ls.map (fun e => match e.2 with
      | .waiting =>
        let c := ((t.regionOf e.1).map Region.saveCause).getD (5, 0)
        (e.1, .aborted c.1 c.2)
      | _ => e)) }

/-- The fallback that the lanes of a path go to, if they are in regions that a save aborts. -/
def Team.pathFallback (t : Team) (open_ : List Nat) (m : Mask) : Option DWord :=
  (open_.find? (fun n => m.getLsbD n)).map t.fallback

/-- A path entry whose lanes are in a region has its pc replaced. -/
def Team.moveEntry (t : Team) (open_ : List Nat) : Entry → Entry
  | .path pc m => .path ((t.pathFallback open_ m).getD pc) m
  | e => e

/-- The fallback pcs held for spilled path entries: each slot's entry, when it is filled back, takes that of its first lane in
a region now open, or what an earlier save held for it (R322). (DEDUCED, log 37) -/
def Team.movedSlots (t : Team) (open_ : List Nat) : Sparse (List (Nat × DWord)) :=
  if open_.isEmpty then t.ctl.ds.moved
  else (List.range t.ctl.ds.spilled).map (fun n => (n, open_.map (fun i => (i, t.fallback i)) ++ t.ctl.ds.fix n))

/-- The team's paths go to their fallbacks. -/
def Team.movePaths (t : Team) (open_ : List Nat) : Ctl :=
  let ds := { t.ctl.ds with hw := t.ctl.ds.hw.map (t.moveEntry open_), moved := t.movedSlots open_ }
  match t.pathFallback open_ t.ctl.mask with
  | none => { t.ctl with ds := ds }
  | some pc => { t.ctl with ds := ds, pc := pc, cover := none, resume := none }

/-- A term instruction whose path a save sends to a fallback, with its pc. -/
def TermRun.move (pc : DWord) (r : TermRun) : TermRun :=
  if r.fill.isNone && r.moved.isNone then { r with moved := some pc } else r

/-- Every region of a team that is open at its save aborts: cause words, then no region and no tag. -/
def Team.abortRegions (t : Team) : Team :=
  let ls := t.openLanes
  let cs := ls.map (fun n => (n, ((t.regionOf n).map Region.saveCause).getD (5, 0)))
  let t1 := { t.causeWords (cs.map (fun e => (e.1, e.2.1, e.2.2))) with
    ctl := t.movePaths ls
    run := if (t.pathFallback ls t.ctl.mask).isSome then t.run.map (TermRun.move t.ctl.pc) else t.run }
  (t1.setRegions none ls).abortWaiting

/-- The resume PC of a trapped team's record, where no handler has changed it, follows its path. -/
def HandlerRec.follow (h : HandlerRec) (k : Nat) (pc : DWord) : HandlerRec :=
  if h.trap.party = .team k ∧ h.trap.kind = 0 then
    { h with trap := { h.trap with rpc := pc, moved := true }, rpc := if h.rpc = h.trap.rpc then pc else h.rpc }
  else h

def TrapRec.follow (r : TrapRec) (k : Nat) (pc : DWord) : TrapRec :=
  if r.party = .team k ∧ r.kind = 0 then { r with rpc := pc, moved := true } else r

/-- Every record of a trapped team follows its path. (DEDUCED, log 38) -/
def State.followPath (s : State) (k : Nat) (pc : DWord) : State :=
  { s with
    arising := s.arising.map (fun r => r.follow k pc)
    tenants := s.tenants.map (fun e => (e.1, { e.2 with records := e.2.records.map (fun r => r.follow k pc) }))
    teams := s.teams.map (fun e => (e.1, { e.2 with handler := e.2.handler.map (fun h => h.follow k pc) })) }

/-! ### Saving a team (R46, R358, R359) -/

/-- The destination of a withdrawn arld: full, and 0 in every lane it swept. -/
def Team.withdraw (t : Team) (r : Req) : Team :=
  match r.dst with
  | .v base _ =>
    let regs := r.elems.foldl (fun g e => ((g.setWord e.lane base 0).setTag e.lane base none).setVflag base (e.lane / 32) .full) t.regs
    { t with regs := regs }
  | _ => t

/-- The arlds of a team that have not returned. -/
def State.openArlds (s : State) (k : Nat) : List (Nat × Req) :=
  s.reqs.filter (fun r => r.2.team == k && r.2.arld && !r.2.words.isEmpty)

/-- Saves a team's state: its arlds are withdrawn, its open regions abort, and its generation and count of pre-emptions
rise. -/
def State.saveTeam (s : State) (k : Nat) : State :=
  match s.team? k with
  | none => s
  | some t =>
    if t.st = .retired then s
    else
      let rs := s.openArlds k
      let t1 := rs.foldl (fun u r => u.withdraw r.2) t
      let moved := t.pathFallback t.openLanes t.ctl.mask
      let t2 := t1.abortRegions
      let s1 := { s.setTeam k { t2 with gen := t2.gen + 1, precnt := t2.precnt + 1, waitBar := none } with
        reqs := s.reqs.filter (fun r => !rs.any (fun e => e.1 == r.1)) }
      match moved, t.st with
      | some pc, .trapped => s1.followPath k pc
      | _, _ => s1

def State.saveTeams (s : State) : List Nat → State
  | [] => s
  | k :: r => State.saveTeams (s.saveTeam k) r

/-! ### Saving a block (R248, R360) -/

/-- Work that completes before the save: stores and atomics on their way to scratchpads and private memory, term instructions
whose lanes complete or stop, pieces that have begun, running steps, weight loads and tile writes of the stream. -/
def State.saveWaits (s : State) (b : Nat) : Bool :=
  let ks := s.liveTeams b
  s.reqs.any (fun r => ks.contains r.2.team && (match r.2.kind with
    | .store _ | .satom _ | .sts _ _ _ => r.2.elems.any Elem.flying
    | _ => false) || (ks.contains r.2.team && r.2.elems.any Elem.midway)) ||
    ks.any (fun k => ((s.team? k).map Team.termWorks).getD false) || s.pieceHolds b ||
    s.msteps.any (fun m => m.2.block == b && m.2.running) || s.latches.any (fun l => l.2.block == b) ||
    s.mreads.any (fun m => m.2.block == b)

/-- A block's part of each of its cores. -/
def State.takeParts (s : State) (b : Block) : List (Nat × Memory × Sparse Bool) :=
  ((b.quarters.map coreOf).eraseDups).map (fun core =>
    let lo := spmKey core b.p
    let mine (e : Nat) : Bool := decide (lo ≤ e) && decide (e < lo + b.scratch)
    (core, (s.spm.filter (fun e => mine e.1)).map (fun e => (e.1 - lo, e.2)),
      (s.spmPoison.filter (fun e => mine (4 * e.1))).map (fun e => (e.1 - lo / 4, e.2))))

/-- The cluster of a block. -/
def Block.cluster (b : Block) : Nat := clusterOf (b.quarters.headD 0)

/-- BLOCK_SAVE. Once its packet of class 3 has crossed (R354), a pre-empted block's state is in its save area: its quarters and its
scratchpad are free.
(DEDUCED, log 86) -/
def execBlockSave (block : Nat) (s : State) : Out :=
  match s.block? block with
  | none => .next s
  | some b =>
    if b.st ≠ .saving || s.saveWaits block then .next s
    else if (s.packetOf (.save block)).isNone then .next (s.injectTop (.save block) (s.tenantOfGrid b.grid) b.cluster)
    else if !s.arrives (.save block) then .next s
    else
      let s := s.leaveFabric (.save block)
      let s1 := s.saveTeams (s.liveTeams block)
      let s2 := s1.setBlock block { b with st := .saved, saved := s1.takeParts b }
      let s3 := { s2 with msteps := s2.msteps.filter (fun m => m.2.block != block) }
      .next (s3.settleSlices s3.partitions)

/-! ### Restoring a block (R116, R359, R360) -/

/-- Puts a part of the scratchpad back. -/
def State.putPart (s : State) (b : Block) (part : Nat × Memory × Sparse Bool) : State :=
  let s1 := s.clearSpm part.1 b.p b.scratch
  let lo := spmKey part.1 b.p
  { s1 with
    spm := part.2.1.foldl (fun m e => Memory.setByte m (lo + e.1) e.2) s1.spm
    spmPoison := part.2.2.foldl (fun m e => Sparse.set false m (lo / 4 + e.1) e.2) s1.spmPoison }

def State.putParts (s : State) (b : Block) : List (Nat × Memory × Sparse Bool) → State
  | [] => s
  | p :: r => State.putParts (s.putPart b p) b r

/-- A released entry replays whole; none while an element of it has to wait (R114, R134). -/
def State.replayEntry (s : State) (k n : Nat) : Nat → Option State
  | 0 => some s
  | m + 1 =>
    match s.reqs.get? n, s.team? k with
    | some r, some t =>
      if !r.released then some s
      else
        let s1 := s.replayNext n r t
        if s1.reqs.get? n == some r then none else State.replayEntry s1 k n m
    | _, _ => some s

/-- The releases and drops recorded while a team was saved take effect, in order. -/
def State.applyRecorded (s : State) (k : Nat) : List (Nat × Bool) → Option State
  | [] => some s
  | (n, rel) :: r =>
    match s.entryReq k n with
    | none => State.applyRecorded s k r
    | some (id, _) =>
      match (s.settleEntry k n (if rel then .release else .drop)).replayEntry k id 4096 with
      | none => none
      | some s1 => State.applyRecorded s1 k r

/-- An element whose data have not returned is on its way again. -/
def Elem.again (f : Frame) (kind : ReqKind) (e : Elem) : Elem :=
  match e.st with
  | .done | .poisoned | .transit | .landing =>
    { e with
      got := 0, landed := [], bad := false
      st := match elemPlace f kind e with
        | .ok (.spm _ _ true) => .transit
        | _ => .landing }
  | _ => e

/-- The packets of a team's loads, reissued under its new generation (R46, R359). -/
def Req.again (k : Nat) (t : Team) (f : Frame) (r : Req) : Req :=
  if r.team ≠ k then r
  else match r.kind with
    | .load _ _ | .lds _ _ _ =>
      { r with gen := t.gen, elems := r.elems.map (fun e => if r.words.contains (e.lane / 32) then e.again f r.kind else e) }
    | _ => { r with gen := t.gen }

/-- Reads again a spill slot or a system register whose data have not returned. (DEDUCED, log 21) -/
def State.reread1 (s : State) (t : Team) (r : Req) (e : Elem) : State × Elem :=
  if !r.words.contains (e.lane / 32) then (s, e)
  else match r.kind with
    | .fil => (s, { e with got := (Sparse.get 0 t.slots e.addr.toNat).setWidth 128
                           st := if Sparse.get false t.slotPoison e.addr.toNat then .poisoned else .done })
    | .sysr n =>
      match s.sysRead t (BitVec.ofNat 64 n) with
      | some (x, s1) => (s1, { e with got := x.setWidth 128 })
      | none => (s, e)
    | _ => (s, e)

def State.rereadAll (s : State) (t : Team) (r : Req) : List Elem → State × List Elem
  | [] => (s, [])
  | e :: rest =>
    let (s1, e1) := s.reread1 t r e
    let (s2, es) := State.rereadAll s1 t r rest
    (s2, e1 :: es)

/-- Reads again what a team's requests read at once. -/
def State.reissueAll (s : State) (k : Nat) (t : Team) : List (Nat × Req) → State
  | [] => s
  | (n, r) :: rest =>
    if r.team ≠ k then State.reissueAll s k t rest
    else
      let (s1, es) := s.rereadAll t r r.elems
      State.reissueAll { s1 with reqs := s1.reqs.mod n (fun q => { q with elems := es }) } k t rest

/-- The lease of a restored team, if its quarter still has the room; without it the area stands in the lanes' backing.
(DEDUCED, log 108) -/
def State.keepLease (s : State) (t : Team) (lease : Option Nat) : Option Nat :=
  match lease with
  | none => none
  | some q => if s.roomFor q { words := t.spill * t.lanes } then some q else none

/-- Restores a team: its state, its recorded settlements, then its packets (R359). A load's packet is on its way only then. -/
def State.restoreTeam (s : State) (k : Nat) : Option State :=
  match s.team? k with
  | none => some s
  | some t =>
    let t1 := { t with recorded := [], ctl := { t.ctl with buf := 0 } }
    let s1 := s.setTeam k t1
    let s2 : State := { s1 with reqs := s1.reqs.map (fun e => (e.1, e.2.again k t1 (s1.frame t1))) }
    match s2.applyRecorded k t.recorded with
    | none => none
    | some s3 =>
      let s4 := s3.reissueAll k t1 s3.reqs
      some (s4.modTeam k (fun u => s4.rerunTerms k u))

def State.restoreTeams (s : State) : List Nat → Option State
  | [] => some s
  | k :: r =>
    match s.restoreTeam k with
    | none => none
    | some s1 => State.restoreTeams s1 r

/-- What an uncorrectable error in the save area has poisoned of a team: a v register in a mask word, from 256 on an s register,
or from 512 on a lane's spill slot (R380). -/
def Team.poisonSaved (t : Team) (n j : Nat) : Option Team :=
  if n < 256 then
    if n < t.vregs ∧ 32 * j < t.lanes then some { t with regs := t.regs.setVflag n j .poisoned } else none
  else if n < 512 then
    if n - 256 < t.sregs then some { t with regs := t.regs.setSflg (n - 256) .poisoned } else none
  else if n - 512 < t.spill ∧ j < t.lanes then
    some { t with slotPoison := Sparse.set false t.slotPoison (slotKey j (n - 512)) true }
  else none

/-- The registers that errors in a save area have poisoned, of the block's teams, and whether there are any. -/
def State.poisonTeams (s : State) (ks : List Nat) : List (Nat × Nat × Nat) → State × Bool
  | [] => (s, false)
  | (k, n, j) :: r =>
    match (if ks.contains k then s.team? k else none).bind (fun t => t.poisonSaved n j) with
    | none => State.poisonTeams s ks r
    | some t => ((State.poisonTeams (s.setTeam k t) ks r).1, true)

/-- The words of a block's scratchpad parts that errors in a save area have poisoned. -/
def State.poisonParts (s : State) (b : Block) : List (Nat × Nat) → State × Bool
  | [] => (s, false)
  | (core, w) :: r =>
    if (b.quarters.map coreOf).contains core && decide (4 * w + 4 ≤ b.scratch) then
      ((State.poisonParts { s with spmPoison := Sparse.set false s.spmPoison ((spmKey core b.p) / 4 + w) true } b r).1, true)
    else State.poisonParts s b r

/-- What a restore has met of uncorrectable errors in its block's save area: what they affect is poisoned, and its tenant has
system event 0xB9 (R380). (DEDUCED, log 43) -/
def State.saveErrors (s : State) (b : Block) (ks : List Nat) : State :=
  let (s1, e1) := s.poisonTeams ks (Config.saveErrors s.draws)
  let (s2, e2) := s1.poisonParts b (Config.saveErrorWords s.draws)
  let s3 := { s2 with draws := s2.draws + 1 }
  if e1 || e2 then s3.raiseSystem (s.tenantOfGrid b.grid) 0xB9 0 else s3

/-- Takes the leases of restored teams back, or lets them go. -/
def State.takeLeases (s : State) : List (Nat × Option Nat) → State
  | [] => s
  | (k, lease) :: r => State.takeLeases (s.modTeam k (fun t => { t with lease := s.keepLease t lease })) r

/-- The leases of some teams, and the state without them. -/
def State.dropLeases (s : State) (ks : List Nat) : List (Nat × Option Nat) × State :=
  (ks.map (fun k => (k, (s.team? k).bind Team.lease)),
   { s with teams := s.teams.map (fun e => if ks.contains e.1 then (e.1, { e.2 with lease := none }) else e) })

/-- The block's quarters, tiles, sequencer and scratchpad are free for it again, and its tenant may use them. -/
def State.restoreFits (s : State) (b : Block) : Bool :=
  let tenant := s.tenantOfGrid b.grid
  match s.partitionOf tenant b.quarters, s.grid? b.grid with
  | some p, some g =>
    let kernel := { g.launch.kernel with lanes := b.lanes, scratch := b.scratch }
    let w : Spawn := { grid := b.grid, index := b.index, kernel := kernel, teams := b.nteams, span := b.quarters.length
                       stream := b.stream.map (fun m => m.pc), tiles := g.launch.tiles }
    let core := coreOf (b.quarters.headD 0)
    let mine (q : Nat) : Usage := s.teams.foldl (fun u t =>
      if t.2.st != .retired && t.2.quarter == q && (s.block? t.2.block) == some b then u.plus t.2.usage else u) {}
    b.quarters.all (fun q =>
      let need := mine q
      (if b.isHandler then ((s.load q).plus need).ok else s.roomFor q need) &&
        s.tilesFree w core q && s.allocFree w p b.p (coreOf q)) && s.sequencerFree w p core &&
      (b.isHandler || s.scratchKept w p (clusterOf (b.quarters.headD 0)) b.p (b.quarters.map coreOf))
  | _, _ => false

/-- BLOCK_RESTORE. A saved block returns to the quarters it left, once they are free and its packet of class 3 has crossed
(R354). -/
def execBlockRestore (block : Nat) (s : State) : Out :=
  match s.block? block with
  | none => .next s
  | some b =>
    if b.st ≠ .saved || s.blockSuspended block || s.checkpointing || s.restoring || !s.restoreFits b then .next s
    else if (s.packetOf (.restore block)).isNone then
      .next (s.injectTop (.restore block) (s.tenantOfGrid b.grid) b.cluster)
    else if !s.arrives (.restore block) then .next s
    else
      let s := s.leaveFabric (.restore block)
      let (leases, s1) := s.dropLeases (s.liveTeams block)
      let s2 := (s1.putParts b b.saved).setBlock block { b with st := .placed, saved := [] }
      let s3 := (s2.takeLeases leases).saveErrors b (s2.liveTeams block)
      match s3.restoreTeams (s2.liveTeams block) with
      | none => .next s
      | some s4 => .next s4

/-! ### Leases taken back (R49) -/

/-- A placement that waits finds its room in one state and not in another: a grid's next block, a handler team, a message's
block, or a saved block. -/
def State.roomOnlyIn (s s' : State) : Bool :=
  s.grids.any (fun e => (s.heads e.2.tenant).any (fun h => h.1 == e.1) && !s.gridFits e.1 e.2 && s'.gridFits e.1 e.2) ||
    s.tenants.any (fun e => !s.handlerDue e.1 && s'.handlerDue e.1) ||
    s.msgs.any (fun m => match s.msgSpawn m with
      | none => false
      | some w =>
        let tenant := s.tenantOfGrid m.grid
        (s.findPlace tenant w m.cluster).isNone && (s'.findPlace tenant w m.cluster).isSome) ||
    s.blocks.any (fun e => e.2.st == .saved && !s.blockSuspended e.1 && !s.restoreFits e.2 && s'.restoreFits e.2)

/-- The state with only those leases that a test keeps. -/
def State.withLeases (s : State) (keep : Nat → Bool) : State :=
  { s with teams := s.teams.map (fun e =>
      (e.1, { e.2 with lease := match e.2.lease with
                | none => none
                | some q => if keep q then some q else none })) }

/-- A quarter needs the space it lends for a placement of its own: its lent space alone stands in the way, or does so once
every other lease is taken back. -/
def State.lenderNeeds (s : State) (q : Nat) : Bool :=
  s.roomOnlyIn (s.withLeases (fun x => x != q)) || (s.withLeases (fun x => x == q)).roomOnlyIn (s.withLeases (fun _ => false))

/-- The spill slots of a team that an uncorrectable error of the copy has poisoned. (DEDUCED, log 43) -/
def Team.copyErrors (t : Team) (draw : Nat) : Sparse Bool :=
  ((List.range t.lanes).flatMap (fun i => (List.range t.spill).map (fun n => 256 * i + n))).foldl
    (fun m k => if Config.copyError draw k then Sparse.set false m k true else m) t.slotPoison

/-- SPILL_LEASE_REVOKE. The lending quarter takes back space it needs: the slots are copied to the lanes' backing, and their
values are kept, but for those whose copy meets an uncorrectable error. -/
def execSpillLeaseRevoke (team : Nat) (s : State) : Out :=
  match s.team? team with
  | none => .next s
  | some t =>
    match t.lease with
    | none => .next s
    | some q =>
      if !s.lenderNeeds q then .next s
      else .next { s.setTeam team { t with lease := none, slotPoison := t.copyErrors s.draws } with draws := s.draws + 1 }

end Sys2Proof.Machine
end

