-- ==== Sys2Proof/Machine/HostCmds.lean ====
section
/-! DEFINITION. Host commands (R386, R387, R389, R391): their order, their checks, and the commands that set up and take down
tenants, partitions, pages and groups (R332, R347, R348, R362 to R369, R395). -/

namespace Sys2Proof

/-! ### Command entries (R386, R389) -/

/-- `n` bytes of an entry from byte `lo` on. -/
def CmdEntry.get (e : CmdEntry) (lo n : Nat) : Nat := field e.bits (8 * lo) (8 * n)

def CmdEntry.opcode (e : CmdEntry) : Nat := e.get 0 2
def CmdEntry.tag (e : CmdEntry) : Word := BitVec.ofNat 32 (e.get 4 4)
/-- The tenant of the entry's function. -/
def CmdEntry.tenant (e : CmdEntry) : Nat := e.fn - 1

/-- Every argument byte outside the given runs is zero. -/
def CmdEntry.onlyUses (e : CmdEntry) (us : List (Nat × Nat)) : Bool :=
  (List.range 56).all (fun j =>
    us.any (fun u => decide (u.1 ≤ j + 8) && decide (j + 8 < u.1 + u.2)) || e.get (j + 8) 1 == 0)

end Sys2Proof

namespace Sys2Proof.Machine

/-- A system-scope address (R361). -/
def sysAddr (a : Nat) : Bool := decide (Config.hostBase ≤ a) && decide (a < 2 ^ 52)

/-! ### The order of commands (R391) -/

/-- A function. -/
def State.fn (s : State) (f : Nat) : Fn := (s.fns.get? f).getD {}

/-- The entry is the function's command in progress, or with none its next. -/
def Fn.serves (f : Fn) (e : CmdEntry) : Bool :=
  match f.running with
  | some r => r == e
  | none => f.queue.head? == some e.bits

/-- What a command comes to. -/
inductive Answer where
  /-- it has completed, with a status and a value, or for a launch that is refused with its launch status -/
  | complete (s : State) (status : Byte) (value : DWord) (launch : Byte)
  /-- its grid has entered its queue: the completion follows at the grid's end -/
  | entered (s : State)
  /-- it has begun, and completes later -/
  | begun (s : State)
  /-- it cannot go on yet -/
  | wait

/-- A completion with nothing to say. -/
def Answer.ok (s : State) : Answer := .complete s 0 0 0
/-- A refusal. -/
def Answer.refuse (s : State) (status : Byte) : Answer := .complete s status 0 0

/-- Takes a command out of its function: with a completion, or without. -/
def State.endCmd (s : State) (e : CmdEntry) (c : Option Completion) : State :=
  let f := s.fn e.fn
  let queue := if f.running.isSome then f.queue else f.queue.tail
  { s with fns := s.fns.put e.fn { f with queue := queue, running := none, done := 0, bad := none, owed := f.owed ++ c.toList } }

/-- Marks a command as begun. -/
def State.beginCmd (s : State) (e : CmdEntry) : State :=
  let f := s.fn e.fn
  if f.running.isSome then s else { s with fns := s.fns.put e.fn { f with queue := f.queue.tail, running := some e } }

/-- Settles an answer. -/
def State.answer (s : State) (e : CmdEntry) : Answer → Out
  | .complete s1 status value launch =>
    .next (s1.endCmd e (some { tag := e.tag, status := status, launch := launch, value := value }))
  | .entered s1 => .next (s1.endCmd e none)
  | .begun s1 => .next (s1.beginCmd e)
  | .wait => .next s

/-- Which functions a command belongs to. -/
inductive Who where
  | physical | virtual | any
  deriving DecidableEq, Repr

/-- The part may take up the command: function 0 answers, or after a failed stage ATTEST and FW_WRITE alone (R392); a
checkpoint and a restore let no further command start (R394). (DEDUCED, log 101) -/
def State.mayServe (s : State) (e : CmdEntry) : Bool :=
  (s.fn e.fn).serves e &&
    (match s.powerSt with
      | .on none => true
      | .on (some _) => e.opcode == 0x0C || e.opcode == 0x0D
      | _ => false) &&
    (((s.fn e.fn).running).isSome || (!s.checkpointing && !s.restoring))

/-- The status that refuses a command before its own checks. (DEDUCED, log 91) -/
def cmdRefusal (e : CmdEntry) (who : Who) (uses : List (Nat × Nat)) : Option Byte :=
  if e.tag = 0xFFFFFFFF then some 2
  else if who = .physical ∧ e.fn ≠ 0 then some 1
  else if (who = .virtual ∧ e.fn = 0) ∨ e.get 2 2 ≠ e.fn ∨ !e.onlyUses uses then some 2
  else none

/-- A host command of an opcode: its place in the order, the checks of every command, then its own body. -/
def State.command (s : State) (op : Nat) (e : CmdEntry) (who : Who) (uses : List (Nat × Nat)) (body : State → Answer) : Out :=
  if e.opcode ≠ op || !s.mayServe e then .next s
  else match cmdRefusal e who uses with
    | some st => s.answer e (.refuse s st)
    | none => s.answer e (body s)

/-- The opcodes of R387. -/
def assignedOps : List Nat := [0x01, 0x02, 0x03, 0x04, 0x05, 0x06, 0x07, 0x08, 0x09, 0x0A, 0x0B, 0x0C, 0x0D, 0x0E, 0x0F, 0x10,
  0x20, 0x21, 0x22, 0x23]

/-- UNASSIGNED_COMMAND (R387). -/
def execUnassignedCommand (e : CmdEntry) (s : State) : Out :=
  if assignedOps.contains e.opcode || !s.mayServe e then .next s
  else s.answer e (.refuse s (if e.tag = 0xFFFFFFFF then 2 else 4))

/-! ### Tenants (R347, R364, R365, R389) -/

/-- The parameters of an entry, over those of a tenant, where SEL names them. -/
def cmdParams (e : CmdEntry) (t : Tenant) (sel : Nat) : Tenant :=
  let on (j : Nat) : Bool := sel.testBit j
  { t with
    w := if on 0 then e.get 10 1 else t.w
    u := if on 1 then e.get 12 4 else t.u
    f := if on 2 then e.get 16 2 else t.f
    q := if on 3 then e.get 18 2 else t.q
    nearQuota := if on 4 then e.get 20 4 else t.nearQuota
    ptroot := if on 5 then BitVec.ofNat 64 (e.get 24 8) else t.ptroot
    qbase := if on 6 then e.get 32 2 else t.qbase
    qn := if on 6 then e.get 34 2 else t.qn }

/-- Parameters within their ranges. -/
def Tenant.paramsOk (t : Tenant) : Bool :=
  decide (1 ≤ t.w ∧ t.w ≤ 255 ∧ 12000 ≤ t.u ∧ t.u ≤ 12000000 ∧ t.f ≤ 256 ∧ t.q ≤ 512) &&
    decide (t.ptroot.toNat % 2 ^ 16 = 0) && decide (1 ≤ t.qn ∧ t.qn ≤ 4096 ∧ t.qbase + t.qn ≤ 4096)

/-- The tenant's queues belong to no other function. -/
def State.queuesFree (s : State) (id : Nat) (t : Tenant) : Bool :=
  s.tenants.all (fun e => e.1 == id || decide (e.2.qbase + e.2.qn ≤ t.qbase) || decide (t.qbase + t.qn ≤ e.2.qbase))

/-- TENANT_MAKE: the root draws the tenant's key. -/
def execTenantMake (e : CmdEntry) (s : State) : Out :=
  s.command 0x01 e .physical [(8, 3), (12, 24)] (fun s =>
    let id := e.get 8 2
    let t := cmdParams e { key := Config.drawKey s.draws } 0x7F
    if 1023 < id ∨ (s.tenant? id).isSome ∨ !t.paramsOk ∨ !s.queuesFree id t then .refuse s 2
    else .ok { s.setTenant id t with draws := s.draws + 1 })

/-- TENANT_SET. -/
def execTenantSet (e : CmdEntry) (s : State) : Out :=
  s.command 0x02 e .physical [(8, 3), (12, 26)] (fun s =>
    let id := e.get 8 2
    match s.tenant? id with
    | none => .refuse s 2
    | some old =>
      let t := cmdParams e old (e.get 36 2)
      let given := (List.range old.qn).map (fun j => old.qbase + j) |>.filter
        (fun q => decide (q < t.qbase) || decide (t.qbase + t.qn ≤ q))
      if !t.paramsOk ∨ !s.queuesFree id t then .refuse s 2
      else if given.any (fun q => s.queueLength id q != 0) then .refuse s 3
      else .ok (s.setTenant id t))

/-! ### Resets (R276, R367, R368) -/

/-- The live grids of a tenant. -/
def State.tenantGrids (s : State) (tenant : Nat) : List Nat := s.grids.keys (fun g => g.tenant == tenant && g.live)

/-- A scratchpad byte lies in a tenant's partition, and in no allocation or grant of a resident block. -/
def State.freedByte (s : State) (tenant core off : Nat) : Bool :=
  s.partitions.any (fun p => p.2.tenants.any (fun e => e.1 == tenant) && p.2.holds core off) &&
    !s.blocks.any (fun b => b.2.resident && (b.2.quarters.map coreOf).contains core &&
      decide (b.2.p ≤ off ∧ off < b.2.p + b.2.scratch)) &&
    !s.grants.any (fun g => g.core == core && s.residentBlock g.block && decide (64 * g.first ≤ off ∧ off < 64 * (g.first + g.run)))

/-- A tenant's scratchpad partitions, with the granules granted in them and what saved blocks left there, are cleared to zero;
what another tenant's resident blocks hold in a shared partition stays (R368). (DEDUCED, log 88) -/
def State.clearPartitions (s : State) (tenant : Nat) : State :=
  let freed (a : Nat) : Bool := s.freedByte tenant (a / 2 ^ 20) (a % 2 ^ 20)
  { s with
    spm := s.spm.filter (fun e => !freed e.1)
    spmPoison := s.spmPoison.filter (fun e => !freed (4 * e.1)) }

/-- A launch that has not started placement. -/
def Grid.pending (g : Grid) : Bool := g.live && g.placed == 0

/-- A function reset: launches still pending are discarded unreported, every other grid ends with status 0x13, the queue
generation rises, and the function's collectives end as peer resets. (DESIGN CHOICE, log 6; DEDUCED, log 88) -/
def State.fnReset (s : State) (tenant : Nat) : State :=
  let s1 : State := { s with grids := s.grids.map (fun g =>
    if g.2.tenant = tenant && g.2.pending then (g.1, { g.2 with ended := true }) else g) }
  let s2 := s1.endGrids 0x13 (s1.tenantGrids tenant)
  let s3 := (s2.clearPartitions tenant).peerReset (fun c => c.tenant == tenant)
  let f := s3.fn (tenant + 1)
  { s3 with fns := s3.fns.put (tenant + 1) { f with qgen := f.qgen + 1 } }

/-- FN_RESET. A virtual function resets itself alone. -/
def execFnReset (e : CmdEntry) (s : State) : Out :=
  s.command 0x09 e .any [(8, 2)] (fun s =>
    let f := e.get 8 2
    if e.fn ≠ 0 ∧ f ≠ e.fn then .refuse s 1
    else if f < 1 ∨ 1024 < f ∨ (s.tenant? (f - 1)).isNone then .refuse s 2
    else .ok (s.fnReset (f - 1)))

/-- The live grids with a block in a cluster. -/
def State.clusterGrids (s : State) (cluster : Nat) : List Nat :=
  (s.grids.keys Grid.live).filter (fun g => (s.liveBlocks g).any (fun b =>
    ((s.block? b).map (fun x => clusterOf (x.quarters.headD 0) == cluster)).getD false))

/-- A cluster has injected the packet in part. -/
def Packet.partly (p : Packet) (cluster : Nat) : Bool := !p.whole && p.cluster == cluster

/-- The packets a cluster has injected in part are truncated, and the pieces they carry are dropped whole; those injected whole go
on. With nothing of it left to be sent, its send allowances are full (R367). -/
def State.truncate (s : State) (cluster : Nat) : State :=
  let lost (id : Nat) (q : Piece) : Bool := s.fabric.any (fun p => p.2.partly cluster && p.2.owner == .piece id q.pos)
  { s with
    fabric := s.fabric.filter (fun p => !p.2.partly cluster)
    cmds := s.cmds.map (fun e => (e.1, { e.2 with pending := e.2.pending.filter (fun q => !lost e.1 q) })) }

/-- A cluster reset: every grid with a block in the cluster ends with status 0x12. -/
def State.resetCluster (s : State) (cluster : Nat) : State := (s.endGrids 0x12 (s.clusterGrids cluster)).truncate cluster

/-- CLUSTER_RESET. -/
def execClusterReset (e : CmdEntry) (s : State) : Out :=
  s.command 0x08 e .physical [(8, 1)] (fun s =>
    if 31 < e.get 8 1 then .refuse s 2 else .ok (s.resetCluster (e.get 8 1)))

/-- CLUSTER_INTERNAL_FAULT. An uncorrectable internal fault resets a cluster; during a checkpoint the reset waits. -/
def execClusterInternalFault (cluster : Nat) (s : State) : Out :=
  if Config.clusters ≤ cluster then .next s
  else if s.checkpointing then .next { s with heldResets := s.heldResets ++ [cluster] }
  else .next (s.resetCluster cluster)

/-! ### Pages (R332, R362, R363) -/

/-- The stripes of a run of 4 KiB pages. -/
def pageStripes (first n : Nat) (stripe : Nat) : Bool :=
  decide (first / 16 ≤ stripe) && decide (stripe ≤ (first + n - 1) / 16)

/-- A stripe in the run is moving. -/
def State.stripeMoves (s : State) (inRun : Nat → Bool) : Bool := s.stripes.any (fun e => inRun e.1 && e.2.moving)

/-- Writes the stripes back and frees their slots. -/
def State.demoteAll (s : State) (inRun : Nat → Bool) : State := { s with stripes := s.stripes.filter (fun e => !inRun e.1) }

/-- Sets the ownership entries of n pages. -/
def setOwners (rot : Sparse Half) (x : Half) (first : Nat) : Nat → Sparse Half
  | 0 => rot
  | n + 1 => setOwners (Sparse.set 0 rot first x) x (first + 1) n

/-- The entry PAGE_OWN sets. -/
def ownEntry (tenant : Nat) (table : Bool) : Half :=
  BitVec.ofNat 16 (if tenant = 0xFFFF then 0 else 2 ^ 15 + (if table then 2 ^ 14 else 0) + tenant % 1024)

/-- n pages from an address are pages of device DRAM or of host memory (R361). -/
def physPages (base n : Nat) : Bool :=
  decide (base + 4096 * n ≤ Config.dramBytes) || decide (Config.hostBase ≤ base ∧ base + 4096 * n ≤ 2 ^ 52)

/-- PAGE_OWN. Promoted stripes of the pages are written back, then the entries are set; it completes when the change is
acknowledged. -/
def execPageOwn (e : CmdEntry) (s : State) : Out :=
  s.command 0x05 e .physical [(8, 15)] (fun s =>
    if (s.fn e.fn).running.isSome then .wait
    else
      let base := e.get 8 8
      let n := e.get 16 4
      let t := e.get 20 2
      let first := base / 4096
      if base % 4096 ≠ 0 ∨ n < 1 ∨ 2 ^ 20 < n ∨ !physPages base n ∨
          (t ≠ 0xFFFF ∧ (s.tenant? t).isNone) then .refuse s 2
      else if s.stripeMoves (pageStripes first n) then .wait
      else
        let x := ownEntry t ((e.get 22 1).testBit 0)
        let s1 := s.demoteAll (pageStripes first n)
        .begun { s1 with rot := setOwners s1.rot x first n, pageChange := some (first, n, x) })

/-- A page of a run. -/
def inPages (first n page : Nat) : Bool := decide (first ≤ page) && decide (page < first + n)

/-- A cached translation names a page of a run. -/
def Tlb.names (t : Tlb) (first n : Nat) : Bool :=
  t.pages.any (inPages first n) || (decide (t.pa / 4096 < first + n) && decide (first < t.pa / 4096 + t.size / 4096))

/-- An access translated to a page of a run has not taken effect: a global element, or a piece of an engine command (R363). -/
def State.pagesBusy (s : State) (first n : Nat) : Bool :=
  let inRun (pa : Nat) : Bool := inPages first n (pa / 4096)
  s.reqs.any (fun r => (match r.2.kind with
    | .gatom _ _ _ => true
    | _ => r.2.arld) && r.2.elems.any (fun e => e.st == .transit && inRun e.pa)) ||
    s.cmds.any (fun c => c.2.pending.any (fun p => (p.src ++ p.dst.map Prod.fst).any (fun l => match l with
      | .phys pa => inRun pa
      | _ => false)))

/-- PAGE_OWN_ACK. Once every walk that used the pages and every access translated to them has ended, the cached translations and the level-two lines of the pages
are dropped, and the change is acknowledged. -/
def execPageOwnAck (fn : Nat) (s : State) : Out :=
  match s.pageChange, (s.fn fn).running with
  | some (first, n, _), some e =>
    if e.opcode ≠ 5 || s.walks.any (fun w => w.2.pages.any (inPages first n)) || s.pagesBusy first n then .next s
    else
      let s1 := { s with
        pageChange := none
        tlb := s.tlb.filter (fun t => !t.names first n)
        lines := s.lines.filter (fun l => !inPages first n (l.1 / 64)) }
      s1.answer e (.ok s1)
  | _, _ => .next s

/-! ### Teardown (R369) -/

/-- A stripe holds pages of a tenant (R332). -/
def State.stripeOwned (s : State) (tenant stripe : Nat) : Bool :=
  (List.range 16).any (fun j => s.owns tenant (16 * stripe + j))

/-- A tenant leaves its partitions; a partition left with no tenant is withdrawn. (DEDUCED, log 87) -/
def State.leavePartitions (s : State) (tenant : Nat) : State :=
  let left := s.partitions.map (fun p =>
    (p.1, { p.2 with
      tenants := p.2.tenants.filter (fun e => e.1 != tenant)
      turn := if p.2.turn = some tenant then none else p.2.turn
      closing := if p.2.closing = some tenant then none else p.2.closing }))
  { s with partitions := left.filter (fun p => !p.2.tenants.isEmpty) }

/-- TEARDOWN: the function is reset, the tenant's stripes are demoted, its pages leave the ownership table, its key goes with
it, and its partition is withdrawn. -/
def execTeardown (e : CmdEntry) (s : State) : Out :=
  s.command 0x03 e .physical [(8, 2)] (fun s =>
    let id := e.get 8 2
    if (s.tenant? id).isNone then .refuse s 2
    else if s.stripeMoves (s.stripeOwned id) then .wait
    else
      let s1 := ((s.fnReset id).demoteAll (s.stripeOwned id)).leavePartitions id
      .ok { s1 with
        rot := s1.rot.filter (fun r => !(r.2.getLsbD 15 && field r.2 0 10 == id))
        tlb := s1.tlb.filter (fun t => t.tenant != id)
        walks := s1.walks.filter (fun w => w.2.tenant != id)
        arising := s1.arising.filter (fun r => r.tenant != id)
        sysEvents := s1.sysEvents.filter (fun r => r.1 != id)
        tenants := s1.tenants.del id })

/-! ### Partitions (R348) -/

/-- The tenant numbers of a list in host memory. -/
def State.tenantList (s : State) (a n : Nat) : List Nat := (List.range n).map (fun j => Memory.read s.host (a + 2 * j) 2)

/-- Quarters added to a partition, ascending. -/
def addQuarters (qs : List Nat) : List Nat → List Nat
  | [] => qs
  | q :: r => addQuarters (if qs.contains q then qs else insertNat q qs) r

/-- PARTITION, assign. A quarter of another partition, or a tenant list that is not the partition's, is refused. -/
def execPartitionAssign (e : CmdEntry) (s : State) : Out :=
  if e.get 8 1 = 1 then .next s
  else s.command 0x04 e .physical [(8, 1), (10, 8), (24, 8)] (fun s =>
    let id := e.get 10 2
    let q0 := e.get 12 2
    let n := e.get 14 2
    let k := e.get 16 2
    let a := e.get 24 8
    let qs := (List.range n).map (fun j => q0 + j)
    if e.get 8 1 ≠ 0 ∨ 2047 < id ∨ n < 1 ∨ 2048 < q0 + n ∨ k < 1 ∨ 64 < k ∨ !sysAddr a ∨ !sysAddr (a + 2 * k - 1) then .refuse s 2
    else
      let ts := s.tenantList a k
      let elsewhere := s.partitions.any (fun p => p.1 != id && qs.any (fun q => p.2.quarters.contains q))
      if ts.any (fun t => (s.tenant? t).isNone) ∨ ts.eraseDups ≠ ts ∨ elsewhere then .refuse s 2
      else match s.partitions.get? id with
        | some p =>
          if p.tenants.map Prod.fst ≠ ts then .refuse s 2
          else .ok { s with partitions := s.partitions.put id { p with quarters := addQuarters p.quarters qs } }
        | none =>
          let p : Partition :=
            { quarters := addQuarters [] qs, tenants := ts.map (fun t => (t, 0)), shared := decide (1 < k) }
          .ok { s with partitions := s.partitions.put id p })

/-- The granules of a quarter's offsets on its core. -/
def quarterGranules : Nat := Config.scratchBytes / 64 / 4

/-- Ends the granted granules that lie in a quarter's offsets (R103). -/
def State.endGrants (s : State) : List Nat → State
  | [] => s
  | q :: r =>
    State.endGrants { s with grants := s.grants.flatMap (fun g =>
      if g.core = coreOf q then g.cut (q % 4 * quarterGranules) quarterGranules else [g]) } r

/-- An access checked against a grant in a quarter's offsets has not landed (R103). -/
def State.quarterBusy (s : State) (q : Nat) : Bool :=
  s.grants.any (fun g => g.core == coreOf q &&
    s.runBusy (fun b => b == g.block) g.core (max g.first (q % 4 * quarterGranules))
      (min (g.first + g.run) ((q % 4 + 1) * quarterGranules) - max g.first (q % 4 * quarterGranules)))

/-- PARTITION, withdraw. With a block resident on the quarters, or saved from them, it is refused as busy. -/
def execPartitionWithdraw (e : CmdEntry) (s : State) : Out :=
  if e.get 8 1 ≠ 1 then .next s
  else s.command 0x04 e .physical [(8, 1), (10, 6)] (fun s =>
    let id := e.get 10 2
    let q0 := e.get 12 2
    let n := e.get 14 2
    let qs := (List.range n).map (fun j => q0 + j)
    match s.partitions.get? id with
    | none => .refuse s 2
    | some p =>
      if n < 1 ∨ 2048 < q0 + n ∨ !qs.all (fun q => p.quarters.contains q) then .refuse s 2
      else if s.blocks.any (fun b => b.2.live && b.2.quarters.any (fun q => qs.contains q)) then .refuse s 3
      else if qs.any s.quarterBusy then .wait
      else
        let left := p.quarters.filter (fun q => !qs.contains q)
        let s1 := s.endGrants qs
        .ok { s1 with partitions := if left.isEmpty then s1.partitions.del id else s1.partitions.put id { p with quarters := left } })

/-! ### Groups (R273, R389) -/

/-- The dwords of a list in host memory. -/
def State.hostDwords (s : State) (a n : Nat) : List DWord := (List.range n).map (fun j => Memory.dword s.host (a + 8 * j))

/-- GROUP_MAKE. -/
def execGroupMake (e : CmdEntry) (s : State) : Out :=
  s.command 0x06 e .physical [(8, 3), (12, 12)] (fun s =>
    let id := e.get 8 2
    let g := e.get 10 1
    let n := e.get 12 4
    let a := e.get 16 8
    match s.tenant? id with
    | none => .refuse s 2
    | some t =>
      if (s.group? id g).isSome ∨ n < 1 ∨ 4096 < n ∨ !sysAddr a ∨ !sysAddr (a + 8 * n - 1) then .refuse s 2
      else
        let ranks := (s.hostDwords a n).map (fun d => (field d 0 16, field d 16 2))
        .ok (s.setTenant id { t with groups := t.groups ++ [{ number := g, ranks := ranks }] }))

/-- A collective on a group has not completed. -/
def State.groupBusy (s : State) (tenant group : Nat) : Bool :=
  s.cmds.any (fun c => c.2.tenant == tenant && (match c.2.kind with
    | .coll _ _ _ g _ _ _ _ _ _ => g == group
    | .results g _ _ _ _ _ => g == group
    | _ => false))

/-- GROUP_END. From its acceptance the group refuses further collectives; it ends once those on it have completed. -/
def execGroupEnd (e : CmdEntry) (s : State) : Out :=
  s.command 0x07 e .physical [(8, 3)] (fun s =>
    let id := e.get 8 2
    let g := e.get 10 1
    match s.tenant? id with
    | none => .refuse s 2
    | some t =>
      if (s.group? id g).isNone then .refuse s 2
      else if s.groupBusy id g then
        .begun (s.setTenant id { t with endingGroups := if t.endingGroups.contains g then t.endingGroups else g :: t.endingGroups })
      else .ok (s.setTenant id { t with
        groups := t.groups.filter (fun x => x.number != g), endingGroups := t.endingGroups.filter (fun x => x != g) }))

end Sys2Proof.Machine
end

