-- ==== Sys2Proof/Machine/HostRuns.lean ====
section
/-! DEFINITION. Host commands that run grids and move memory (R357, R389 to R391), and those of the root: attestation,
firmware, power cap, checkpoint and restore (R378, R382, R393 to R395). -/

namespace Sys2Proof.Machine

/-! ### Launch records (R390) -/

/-- The cluster whose translations the host path uses. (DEDUCED, log 95) -/
def hostCluster : Nat := 0

/-- Reads bytes of a tenant's memory as one engine read; a status refuses it. -/
def State.tenantRead (s : State) (tenant va n : Nat) : Except Byte Nat :=
  match s.engineRead hostCluster tenant va n with
  | .error e => .error e
  | .ok (bs, bad) => if bad then .error 0x05 else .ok (leNat bs)

/-- `n` bytes of a record from byte `lo` on. -/
def recField (x lo n : Nat) : Nat := nfield x (8 * lo) (8 * n)

/-- The kernel's fields of a record. -/
def kernelOf (x : Nat) : Kernel :=
  { entry := BitVec.ofNat 64 (recField x 0 8), lanes := recField x 28 2, vregs := recField x 32 2, sregs := recField x 34 2
    scratch := recField x 36 4, priv := recField x 44 4, spill := recField x 48 2, cstack := recField x 50 2
    ftrap := BitVec.ofNat 4 (recField x 52 1), heap := recField x 56 4, trail := recField x 60 4, chpt := recField x 64 4
    tstride := recField x 68 4, sdata := BitVec.ofNat 64 (recField x 200 8), sdlen := recField x 208 4 }

/-- The launch a grid's record describes; its handler and message kernels are read from records of their own. -/
def launchOf (x : Nat) : Launch :=
  let role (j : Nat) : RoleDecl :=
    { entry := BitVec.ofNat 64 (recField x (232 + 16 * j) 8), count := recField x (240 + 16 * j) 2
      copy := recField x (242 + 16 * j) 1 == 0 }
  { kernel := kernelOf x, code := BitVec.ofNat 64 (recField x 8 8), codeLen := recField x 16 8, nblk := recField x 24 4 + 1
    teams := recField x 30 2, span := recField x 40 1, gnear := (recField x 41 1).testBit 3, gang := (recField x 41 1).testBit 2
    cls := recField x 41 1 % 4, core := if recField x 42 2 = 0xFFFF then none else some (recField x 42 2)
    tiles := recField x 53 1, srseed := BitVec.ofNat 32 (recField x 72 4), gdata := BitVec.ofNat 64 (recField x 80 8)
    csbase := BitVec.ofNat 64 (recField x 88 8), wln := recField x 96 1, wlcap := recField x 100 4, wlbase := BitVec.ofNat 64 (recField x 104 8)
    grants := (List.range (recField x 129 1)).map (fun j => (BitVec.ofNat 32 (recField x (136 + 8 * j) 4), recField x (140 + 8 * j) 4))
    roles := (List.range (recField x 130 1)).map role, stream := BitVec.ofNat 64 (recField x 216 8) }

/-- Reads the kernel records at a list of addresses. -/
def State.readKernels (s : State) (tenant : Nat) : List Nat → Except Byte (List Kernel)
  | [] => .ok []
  | a :: r =>
    match s.tenantRead tenant a 512 with
    | .error e => .error e
    | .ok x =>
      match State.readKernels s tenant r with
      | .error e => .error e
      | .ok ks => .ok (kernelOf x :: ks)

/-- The dwords of a table in a tenant's memory. -/
def State.readTable (s : State) (tenant a n : Nat) : Except Byte (List Nat) :=
  if n = 0 then .ok []
  else match s.tenantRead tenant a (8 * n) with
    | .error e => .error e
    | .ok x => .ok ((List.range n).map (fun j => recField x (8 * j) 8))

/-- Reads a launch record and every record it names. -/
def State.readLaunch (s : State) (tenant a : Nat) : Except Byte (Nat × Launch) :=
  match s.tenantRead tenant a 512 with
  | .error e => .error e
  | .ok x =>
    let l := launchOf x
    let h := recField x 112 8
    match s.readKernels tenant (if h = 0 then [] else [h]), s.readTable tenant (recField x 120 8) (min (recField x 128 1) 16) with
    | .error e, _ => .error e
    | _, .error e => .error e
    | .ok hs, .ok ts =>
      match s.readKernels tenant ts with
      | .error e => .error e
      | .ok ks => .ok (x, { l with handler := hs.head?, amsg := ks })

/-! ### The checks of a launch (R19, R23, R351, R390) -/

/-- A multiple of 8 from 0 to 0xFFFF8 (R172). -/
def termField (n : Nat) : Bool := n % 8 == 0 && decide (n ≤ 0xFFFF8)

/-- The limits of a kernel's fields. -/
def kernelOk (k : Kernel) : Bool :=
  decide (k.entry.toNat % 4 = 0) && globOk k.entry &&
    decide (32 ≤ k.lanes ∧ k.lanes ≤ 1024) && k.lanes % 32 == 0 &&
    decide (8 ≤ k.vregs ∧ k.vregs ≤ 256) && k.vregs % 8 == 0 &&
    decide (8 ≤ k.sregs ∧ k.sregs ≤ 192) && k.sregs % 8 == 0 &&
    decide (k.scratch ≤ 0x100000) && decide (k.priv ≤ 0x10000) && k.priv % 64 == 0 &&
    decide (k.spill ≤ 256) && k.spill % 8 == 0 && decide (k.cstack ≤ 4096) && k.cstack % 8 == 0 &&
    termField k.heap && termField k.trail && termField k.chpt && termField k.tstride &&
    decide (k.sdlen ≤ k.scratch) && k.usage.ok

/-- The kernel's first instruction lies in the grid's code range. -/
def Launch.inCode (l : Launch) (k : Kernel) : Bool :=
  decide (l.code.toNat ≤ k.entry.toNat) && decide (k.entry.toNat < l.code.toNat + l.codeLen)

/-- A power of two from 64 to 65,536. -/
def listCap (n : Nat) : Bool := (List.range 11).any (fun j => n == 2 ^ (6 + j))

/-- Every field of the record, and of the records it names, lies in its range. -/
def launchOk (x : Nat) (l : Launch) : Bool :=
  kernelOk l.kernel && decide (4 ≤ l.codeLen ∧ l.codeLen ≤ 2 ^ 32) && decide (l.code.toNat + l.codeLen ≤ 2 ^ 52) &&
    decide (1 ≤ l.teams ∧ l.teams ≤ 64 ∧ l.kernel.lanes * l.teams ≤ 16384) && decide (1 ≤ l.span ∧ l.span ≤ 16) &&
    (match l.core with
      | none => true
      | some c => decide (c ≤ 15)) &&
    decide (l.tiles ≤ 16) && (l.tiles == 0 || (decide (l.stream.toNat % 4 = 0) && globOk l.stream)) &&
    decide (l.gdata.toNat % 2 ^ 16 = 0) && globOk l.gdata && decide (l.csbase.toNat % 4096 = 0) && globOk l.csbase &&
    decide (l.wln ≤ 64) && (l.wln == 0 || (listCap l.wlcap && decide (l.wlbase.toNat % 2 ^ 16 = 0))) &&
    decide (recField x 128 1 ≤ 16) && decide (recField x 129 1 ≤ 8) && decide (recField x 130 1 ≤ 8) &&
    l.grants.all (fun g => field g.1 28 4 == 1 && field g.1 20 4 == 0 && g.2 != 0) &&
    (l.roles.isEmpty || l.kernel.entry == 0) &&
    (List.range l.roles.length).all (fun j => decide (recField x (242 + 16 * j) 1 ≤ 1)) &&
    l.roles.all (fun r => decide (r.entry.toNat % 4 = 0) && globOk r.entry) &&
    (l.handler.toList ++ l.amsg).all (fun k => kernelOk k && l.inCode k) && l.quarterOk

/-- The handler kernel keeps to what R370 says of one beyond a kernel's own limits. -/
def handlerOk (l : Launch) : Bool :=
  match l.handler with
  | none => true
  | some k => k.lanes == 32 && decide (k.vregs ≤ 16 ∧ k.sregs ≤ 16 ∧ k.scratch ≤ 4096)

/-- The work lists' backing is mapped and writable (R297). -/
def State.backingOk (s : State) (tenant : Nat) (l : Launch) : Bool :=
  (List.range (l.wln * 32 * l.wlcap * 8 / 4096)).all (fun j =>
    match s.engineAddr hostCluster tenant (l.wlbase.toNat + 4096 * j) (.write false) with
    | .ok _ => true
    | .error _ => false)

/-- The kernel has a global data section and the launch maps none (R217). (DEDUCED, log 92) -/
def Launch.unmapped (l : Launch) : Bool := l.gdata == 0 && Config.globalSection l.code l.kernel.entry

/-- The lowest-numbered status that refuses a launch, or 0. -/
def State.launchStatus (s : State) (tenant queue x : Nat) (l : Launch) : Byte :=
  if !launchOk x l then 0x01
  else if l.unmapped then 0x02
  else if !l.roles.isEmpty ∧ (l.roles.map RoleDecl.count).sum ≠ l.teams then 0x03
  else if (l.kernel :: (l.handler.toList ++ l.amsg)).any (fun k => decide (0 < k.cstack)) ∧ l.csbase = 0 then 0x04
  else if !s.canFit tenant l then 0x05
  else if !s.backingOk tenant l then 0x06
  else if !handlerOk l then 0x07
  else if 64 ≤ s.queueLength tenant queue then 0x08
  else 0x00

/-! ### Writes in flight to a code range (R53) -/

/-- The virtual address that a physical one has in the page of a tenant's address, if it lies there. -/
def State.virtIn (s : State) (tenant va pa : Nat) : Option Nat :=
  match s.walk tenant va with
  | none => none
  | some l =>
    let b := l.pa + va % l.size
    if b ≤ pa ∧ pa < b + 4096 then some (va + (pa - b)) else none

/-- A physical byte lies in the launch's code range, as the tenant's tables map it. -/
def State.codePhys (s : State) (tenant : Nat) (l : Launch) (pa : Nat) : Bool :=
  (List.range (l.codeLen / 4096 + 2)).any (fun j =>
    ((s.virtIn tenant ((l.code.toNat / 4096 + j) * 4096) pa).map (fun va =>
      decide (l.code.toNat ≤ va ∧ va < l.code.toNat + l.codeLen))).getD false)

/-- A write of the tenant into the launch's code range has been checked and has not landed. (DEDUCED, log 120) -/
def State.codeBusy (s : State) (tenant : Nat) (l : Launch) : Bool :=
  s.reqs.any (fun r => match r.2.kind, s.team? r.2.team with
    | .gatom _ size _, some t => s.tenantIdOf t == tenant && r.2.elems.any (fun e => e.st == .transit &&
        decide (l.code.toNat < e.addr.toNat + size) && decide (e.addr.toNat < l.code.toNat + l.codeLen))
    | _, _ => false) ||
    s.cmds.any (fun c => c.2.tenant == tenant && c.2.pending.any (fun p => p.dst.any (fun d => match d.1 with
      | .phys pa => s.codePhys tenant l pa
      | _ => false)))

/-- LAUNCH. The record is read as the grid enters its queue, once no write that has been checked is on its way into its code
range (R53); the completion follows at the grid's end. (DEDUCED, log 92) -/
def execLaunch (e : CmdEntry) (s : State) : Out :=
  s.command 0x20 e .virtual [(8, 2), (16, 8)] (fun s =>
    let q := e.get 8 2
    let a := e.get 16 8
    match s.tenant? e.tenant with
    | none => .complete s 0 0 0x09
    | some t =>
      if q < t.qbase ∨ t.qbase + t.qn ≤ q ∨ a % 64 ≠ 0 then .refuse s 2
      else match s.readLaunch e.tenant a with
        | .error st => .complete s 0 (statusWord st 0) 0x01
        | .ok (x, l) =>
          let st := s.launchStatus e.tenant q x l
          if st ≠ 0 then .complete s 0 0 st
          else if s.codeBusy e.tenant l then .wait
          else .entered (s.enterGrid { tenant := e.tenant, queue := q, number := 0, launch := l, owner := .host e.fn e.tag
                                       qgen := (s.fn e.fn).qgen }))

/-! ### CANCEL, SUSPEND, RESUME (R357, R389) -/

/-- The live grid of a function that came from a tag. -/
def State.taggedGrid (s : State) (fn : Nat) (tag : Word) : Option Nat :=
  (s.grids.find? (fun g => g.2.live && g.2.owner == .host fn tag)).map Prod.fst

/-- CANCEL: the grid ends with status 0x14. (DEDUCED, log 89) -/
def execCancel (e : CmdEntry) (s : State) : Out :=
  s.command 0x21 e .virtual [(8, 4)] (fun s =>
    match s.taggedGrid e.fn (BitVec.ofNat 32 (e.get 8 4)) with
    | none => .refuse s 2
    | some g => .ok (s.endGrid g 0x14))

/-- Grids with all their descendants, to a depth. -/
def State.family (s : State) (gs : List Nat) : Nat → List Nat
  | 0 => gs
  | n + 1 => State.family s (gs ++ (gs.flatMap s.children).filter (fun c => !gs.contains c)) n

/-- Sets or lifts the suspension of grids. -/
def State.setSuspended (s : State) (gs : List Nat) (x : Bool) : State :=
  { s with grids := s.grids.map (fun g => if gs.contains g.1 then (g.1, { g.2 with suspended := x }) else g) }

/-- SUSPEND: the grid and its descendants are suspended; it completes once every resident block of theirs has been saved. -/
def execSuspend (e : CmdEntry) (s : State) : Out :=
  s.command 0x0F e .physical [(8, 2), (12, 4)] (fun s =>
    let f := e.get 8 2
    match s.taggedGrid f (BitVec.ofNat 32 (e.get 12 4)) with
    | none => if (s.fn e.fn).running.isSome then .ok s else .refuse s 2
    | some g =>
      let gs := s.family [g] 10
      let bs := gs.flatMap s.liveBlocks
      let s1 := (s.setSuspended gs true).preempt bs
      if bs.any s.residentBlock then .begun s1 else .ok s1)

/-- RESUME. -/
def execResume (e : CmdEntry) (s : State) : Out :=
  s.command 0x10 e .physical [(8, 2), (12, 4)] (fun s =>
    match s.taggedGrid (e.get 8 2) (BitVec.ofNat 32 (e.get 12 4)) with
    | none => .refuse s 2
    | some g => .ok (s.setSuspended (s.family [g] 10) false))

/-! ### MEM_WRITE and MEM_READ (R389) -/

/-- The next piece of a copy between host memory and a tenant's memory. (DEDUCED, log 93) -/
def State.memStep (s : State) (e : CmdEntry) (toTenant : Bool) : Answer :=
  let f := s.fn e.fn
  let host := e.get 8 8
  let va := e.get 16 8
  let len := e.get 24 4
  let o := f.done
  if (s.tenant? e.tenant).isNone ∨ !sysAddr host ∨ !sysAddr (host + len - 1) ∨ len < 1 ∨ 2 ^ 31 < len then .refuse s 2
  else
    let n := pieceLen (BitVec.ofNat 64 ((if toTenant then host else va) + o)) (len - o)
    let next (s1 : State) (bad : Option Nat) : Answer :=
      if len ≤ o + n then
        .complete s1 0 (match bad with
          | some b => statusWord 0x05 b
          | none => statusWord 0x00 len) 0
      else .begun { s1 with fns := s1.fns.put e.fn { f with done := o + n, bad := bad } }
    if toTenant then
      let bad := s.physPoisoned (host + o) n
      match s.engineWrite hostCluster e.tenant (va + o) (Memory.bytes s.host (host + o) n) bad false with
      | .error st => .complete s 0 (statusWord st o) 0
      | .ok s1 => next s1 (if bad && f.bad.isNone then some o else f.bad)
    else
      match s.engineRead hostCluster e.tenant (va + o) n with
      | .error st => .complete s 0 (statusWord st o) 0
      | .ok (bs, bad) =>
        let s1 := { s with host := Memory.writeBytes s.host (host + o) bs }
        next (s1.enginePoison ((List.range n).map (fun j => host + o + j)) bad) (if bad && f.bad.isNone then some o else f.bad)

/-- MEM_WRITE. -/
def execMemWrite (e : CmdEntry) (s : State) : Out := s.command 0x22 e .virtual [(8, 20)] (fun s => s.memStep e true)
/-- MEM_READ. -/
def execMemRead (e : CmdEntry) (s : State) : Out := s.command 0x23 e .virtual [(8, 20)] (fun s => s.memStep e false)

/-! ### The root (R378, R382, R393) -/

/-- The image that booted. -/
def State.booted (s : State) : FwImage := if s.bootedB then s.imageB else s.imageA

/-- The bytes of an image, to the length its header holds (R393). -/
def FwImage.body (i : FwImage) : List Byte := i.bytes.take (Config.imageLength i.bytes)

/-- ATTEST: the signed measurements are written to the report area. -/
def execAttest (e : CmdEntry) (s : State) : Out :=
  s.command 0x0C e .any [(8, 40)] (fun s =>
    let a := e.get 40 8
    if !sysAddr a ∨ !sysAddr (a + 2047) ∨ a % 64 ≠ 0 then .refuse s 2
    else
      let img := s.booted.bytes
      let head := bytesOfNat (e.get 8 32) 32 ++ bytesOfNat (digest s.booted.body).toNat 32 ++
        dwordBytes (Config.imageVersion img) ++ dwordBytes s.rollback ++ bytesOfNat rootIdentity.toNat 32
      .ok { s with host := Memory.writeBytes s.host a (signed s.draws head), draws := s.draws + 1 })

/-- FW_WRITE: the image not in use is written. -/
def execFwWrite (e : CmdEntry) (s : State) : Out :=
  s.command 0x0D e .physical [(8, 13)] (fun s =>
    let a := e.get 8 8
    let n := e.get 16 4
    if !sysAddr a ∨ n < 1 ∨ 2 ^ 25 < n ∨ !sysAddr (a + n - 1) then .refuse s 2
    else
      let img : FwImage := { bytes := Memory.bytes s.host a n }
      let active := if (e.get 20 1).testBit 0 then !s.bootedB else s.activeB
      .ok (if s.bootedB then { s with imageA := img, activeB := active } else { s with imageB := img, activeB := active }))

/-- POWER_CAP. -/
def execPowerCap (e : CmdEntry) (s : State) : Out :=
  s.command 0x0E e .physical [(8, 2)] (fun s =>
    let w := e.get 8 2
    if w < 1200 ∨ 2800 < w then .refuse s 2 else .ok { s with cap := w })

/-! ### Checkpoint and restore (R394, R395) -/

/-- The bytes of a checkpoint image: its header and device DRAM. -/
def checkpointBytes : Nat := 4096 + Config.dramBytes

/-- The group of a collective. -/
def Cmd.group? (c : Cmd) : Option Nat :=
  match c.kind with
  | .coll _ _ _ g _ _ _ _ _ _ | .results g _ _ _ _ _ => some g
  | _ => none

/-- The collective has a rank on another device. -/
def State.remoteColl (s : State) (c : Cmd) : Bool :=
  ((c.group?.bind (s.group? c.tenant)).map (fun x => x.ranks.any (fun r => r.1 != Config.device))).getD false

/-- CHECKPOINT: the old image is no longer valid, every placed block is pre-empted, and collectives with ranks elsewhere end
as peer resets; it completes with CHECKPOINT_COMPLETE. -/
def execCheckpoint (e : CmdEntry) (s : State) : Out :=
  s.command 0x0A e .physical [] (fun s =>
    if (s.fn e.fn).running.isSome then .wait
    else
      let s1 := (s.preempt (s.blocks.keys Block.live)).peerReset s.remoteColl
      .begun { s1 with checkpointing := true, tier := none })

/-- What the image holds. (DEDUCED, log 90) -/
def State.image (s : State) : Image :=
  { identity := rootIdentity, signer := rootIdentity, signature := Config.headerSignature s.draws
    dram := s.dram, dramPoison := s.dramPoison, rot := s.rot, tenants := s.tenants, partitions := s.partitions
    stripes := s.stripes, setSeq := s.setSeq, bars := s.bars, grants := s.grants
    grids := s.grids, blocks := s.blocks, teams := s.teams, cmds := s.cmds
    reqs := s.reqs, segments := s.segments, msgs := s.msgs, arising := s.arising }

/-- Every other command that had begun has completed, and every block is saved. (DEDUCED, log 102) -/
def State.quiesced (s : State) : Bool :=
  s.fns.all (fun f => f.1 == 0 || f.2.running.isNone) && s.blocks.all (fun b => !b.2.resident) &&
    s.cmds.all (fun c => c.2.pending.all (fun p => !p.begun))

/-- Carries out the cluster resets that waited. -/
def State.resetClusters (s : State) : List Nat → State
  | [] => s
  | c :: r => State.resetClusters (s.resetCluster c) r

/-- CHECKPOINT_COMPLETE. The image and its valid header are written; held commands and resets go on. -/
def execCheckpointComplete (s : State) : Out :=
  match (s.fn 0).running with
  | some e =>
    if !s.checkpointing || e.opcode ≠ 0x0A || !s.quiesced then .next s
    else
      let s1 := { s with tier := some s.image, checkpointing := false, heldResets := [], draws := s.draws + 1 }
      (s1.resetClusters s.heldResets).answer e
        (.complete (s1.resetClusters s.heldResets) 0 (BitVec.ofNat 64 checkpointBytes) 0)
  | none => .next s

/-- RESTORE: no tenant may be live, and the image must be signed by this part's root and carry its identity; it completes with RESTORE_COMPLETE. -/
def execRestore (e : CmdEntry) (s : State) : Out :=
  s.command 0x0B e .physical [] (fun s =>
    if (s.fn e.fn).running.isSome then .wait
    else if !s.tenants.isEmpty then .refuse s 3
    else match s.tier with
      | none => .refuse s 2
      | some i => if i.signer ≠ rootIdentity ∨ i.identity ≠ rootIdentity then .refuse s 2 else .begun { s with restoring := true })

/-- Tenants with fresh keys. -/
def freshKeys (draw : Nat) : List (Nat × Tenant) → List (Nat × Tenant)
  | [] => []
  | (n, t) :: r => (n, { t with key := Config.drawKey draw }) :: freshKeys (draw + 1) r

/-- RESTORE_COMPLETE. Device memory, ownership, slots, tenants and partitions are as the image holds them, with fresh keys;
saved blocks may resume. -/
def execRestoreComplete (s : State) : Out :=
  match (s.fn 0).running, s.tier with
  | some e, some i =>
    if !s.restoring || e.opcode ≠ 0x0B then .next s
    else
      let ps : Table Partition := i.partitions.map (fun (p : Nat × Partition) => (p.1, { p.2 with turn := none, closing := none }))
      let s1 : State := { s with
        restoring := false, dram := i.dram, dramPoison := i.dramPoison, rot := i.rot, stripes := i.stripes
        setSeq := i.setSeq, bars := i.bars, grants := i.grants, fabric := []
        tenants := freshKeys s.draws i.tenants, draws := s.draws + i.tenants.length
        partitions := ps
        grids := i.grids, blocks := i.blocks, teams := i.teams, cmds := i.cmds, reqs := i.reqs, segments := i.segments
        msgs := i.msgs, arising := i.arising, tlb := [], walks := [], lines := [] }
      s1.answer e (.complete s1 0 (BitVec.ofNat 64 checkpointBytes) 0)
  | _, _ => .next s

end Sys2Proof.Machine
end

