-- ==== Sys2Proof/Machine/Link.lean ====
section
/-! DEFINITION. Rings and doorbells (R386, R388), Plovtan Link (R383 to R385), power, heat and
bring-up (R381, R382, R392, R393). -/

namespace Sys2Proof.Machine

/-! ### Rings (R388) -/

/-- A doorbell that is dropped and counted. -/
def State.dropDoorbell (s : State) : State := { s with droppedDoorbells := s.droppedDoorbells + 1 }

/-- The entries of a submission ring from an index on. -/
def State.ringEntries (s : State) (r : Rings) (at0 : Nat) : Nat → List (BitVec 512)
  | 0 => []
  | n + 1 => BitVec.ofNat 512 (Memory.read s.host (r.sq.toNat + 64 * at0) 64) :: State.ringEntries s r ((at0 + 1) % 2 ^ r.k) n

/-- A submission tail moves (R388): the part reads the entries up to the new tail, in ring order. An index outside the ring,
or a ring that was never set up, drops the doorbell. -/
def State.moveTail (s : State) (fn index : Nat) : State :=
  let f := s.fn fn
  match f.rings with
  | none => s.dropDoorbell
  | some r =>
    if 2 ^ r.k ≤ index then s.dropDoorbell
    else
      let n := (index + 2 ^ r.k - r.read) % 2 ^ r.k
      let f1 : Fn := { f with queue := f.queue ++ s.ringEntries r r.read n, rings := some { r with read := index, tail := index } }
      { s with fns := s.fns.put fn f1 }

/-- A completion head moves (R388). -/
def State.moveHead (s : State) (fn index : Nat) : State :=
  let f := s.fn fn
  match f.rings with
  | none => s.dropDoorbell
  | some r =>
    if 2 ^ r.k ≤ index then s.dropDoorbell
    else { s with fns := s.fns.put fn { f with rings := some { r with head := index } } }

/-- A ring's base: a system-scope address, a multiple of 4 KiB, of a ring that lies at system scope. -/
def ringBase (a : DWord) (bytes : Nat) : Bool := sysAddr a.toNat && a.toNat % 4096 == 0 && sysAddr (a.toNat + bytes - 1)

/-- The function holds no unread entry and owes no completion. (DEDUCED, log 94) -/
def Fn.idle (f : Fn) : Bool :=
  f.queue.isEmpty && f.running.isNone && f.owed.isEmpty && (match f.rings with
    | none => true
    | some r => r.read == r.tail)

/-- A launch of the function has entered its queue and its completion is still owed (R387). -/
def State.launchOwed (s : State) (fn : Nat) : Bool :=
  s.grids.any (fun g => !g.2.ended && (match g.2.owner with
    | .host f _ => f == fn
    | _ => false))

/-- The rings of a function are created or replaced (R386, R388), and the events held for the function are reported. -/
def State.setRings (s : State) (fn k : Nat) (sq cq : DWord) : State :=
  let f := s.fn fn
  if 1024 < fn ∨ k < 4 ∨ 12 < k ∨ !ringBase sq (64 * 2 ^ k) ∨ !ringBase cq (16 * 2 ^ k) ∨ !f.idle ∨ s.launchOwed fn then s.dropDoorbell
  else
    let s1 := { s with fns := s.fns.put fn { f with rings := some { k := k, sq := sq, cq := cq } } }
    if fn = 0 then s1
    else match s1.tenant? (fn - 1) with
      | none => s1
      | some t => (s1.setTenant (fn - 1) { t with held := [] }).reportEvents (fn - 1) t.held

/-- DOORBELL_SUBMISSION_TAIL. -/
def execDoorbellSubmissionTail (fn index : Nat) (s : State) : Out := .next (s.moveTail fn index)

/-- DOORBELL_COMPLETION_HEAD. -/
def execDoorbellCompletionHead (fn index : Nat) (s : State) : Out := .next (s.moveHead fn index)

/-- DOORBELL_RING_SETUP. -/
def execDoorbellRingSetup (fn k : Nat) (sq cq : DWord) (s : State) : Out := .next (s.setRings fn k sq cq)

/-- A completion entry's 16 bytes. -/
def Completion.bits (c : Completion) (phase : Bool) : Nat :=
  c.tag.toNat + 2 ^ 32 * c.status.toNat + 2 ^ 40 * c.launch.toNat + 2 ^ 48 * (if phase then 1 else 0) + 2 ^ 64 * c.value.toNat

/-- The completion ring is full. -/
def Rings.full (r : Rings) : Bool := (r.write + 1) % 2 ^ r.k == r.head

/-- The rings after a completion has been written. -/
def Rings.written (r : Rings) : Rings :=
  let w := (r.write + 1) % 2 ^ r.k
  { r with write := w, phase := if w = 0 then !r.phase else r.phase }

/-- The port carries host traffic. -/
def PortSt.isHost : PortSt → Bool
  | .up h => h
  | _ => false

def PortSt.isUp : PortSt → Bool
  | .up _ => true
  | _ => false

/-- The lowest port that carries host traffic. -/
def State.hostPort (s : State) : Option Nat := (s.ports.find? (fun p => p.2.st.isHost)).map Prod.fst

/-- The header of a packet of one flit from this device to the host, of class 3 as all root traffic is (R354, R385). -/
def hostHeader (kind fn : Nat) : Nat :=
  3 * 2 ^ 62 + kind * 2 ^ 56 + Config.hostDevice % 2 ^ 16 * 2 ^ 40 + Config.device % 2 ^ 16 * 2 ^ 24 + 2 ^ 16 + fn % 2 ^ 16

/-- A packet of one flit waits to be sent to the host: its header, and a payload that no rule lays down.
(DEDUCED, log 96) -/
def State.sendHost (s : State) (kind fn : Nat) : State :=
  match s.hostPort with
  | none => s
  | some n =>
    let flit : BitVec 256 := Config.payload s.draws ++ BitVec.ofNat 64 (hostHeader kind fn)
    { s with ports := s.ports.mod n (fun p => { p with sendq := p.sendq ++ [flit] }), draws := s.draws + 1 }

/-- COMPLETION_WRITE. The oldest completion owed is written once the ring has room, and its packet goes to the host. -/
def execCompletionWrite (fn : Nat) (s : State) : Out :=
  let f := s.fn fn
  match f.rings, f.owed with
  | some r, c :: rest =>
    if r.full then .next s
    else .next (State.sendHost { s with
      host := Memory.write s.host (r.cq.toNat + 16 * r.write) 16 (c.bits r.phase)
      fns := s.fns.put fn { f with owed := rest, rings := some r.written } } 3 fn)
  | _, _ => .next s

/-! ### Ports and frames (R383, R384) -/

/-- A port. -/
def State.port (s : State) (n : Nat) : Port := (s.ports.get? n).getD {}

def State.setPort (s : State) (n : Nat) (p : Port) : State := { s with ports := s.ports.put n p }

/-- The ports that carry host traffic, but for one. -/
def State.hostPorts (s : State) (but : Nat) : Nat := (s.ports.filter (fun p => p.1 != but && p.2.st.isHost)).length

/-- LINK_TRAINING. A port that trains comes up as its partner declares itself; at most four ports carry host traffic. Frames
that were not acknowledged are sent again. (DEDUCED, log 98) -/
def execLinkTraining (port : Nat) (host ok : Bool) (s : State) : Out :=
  let p := s.port port
  if 16 ≤ port || p.st.isUp then .next s
  else if !ok then .next (s.setPort port { p with st := .training })
  else .next (s.setPort port { p with
    st := .up (host && decide (s.hostPorts port < 4)), retries := 0, outbox := p.window })

/-- Frames up to an acknowledged one leave the window. -/
def ackWindow (ack : Byte) : List Sys2Proof.Frame → List Sys2Proof.Frame
  | [] => []
  | f :: r => if r.any (fun g => g.seq == ack) then ackWindow ack r else if f.seq = ack then r else f :: r

/-- The flits of a frame (R384). -/
def frameFlits : Nat := 20

/-- n flits that fill a frame. -/
def fillFlits (draw n : Nat) : List (BitVec 256) := (List.range n).map (Config.fillFlit draw)

/-- A retry request whose ACK names the last frame accepted. (DEDUCED, log 98) -/
def Port.retryFrame (p : Port) (draw : Nat) : Sys2Proof.Frame :=
  { kind := 2, seq := 0, ack := p.accept - 1, flits := fillFlits draw frameFlits }

/-- A receiver discards a frame and asks for it again. -/
def Port.refuse (p : Port) (draw : Nat) : Port := { p with outbox := p.outbox ++ [p.retryFrame draw], retries := p.retries + 1 }

/-- A sender's next data frame: up to 20 waiting flits, the rest filled, under its SEQ, with the last frame accepted
acknowledged. It holds at most 128 that have not been acknowledged. -/
def Port.nextFrame (p : Port) (draw : Nat) : Option (Sys2Proof.Frame × Port) :=
  if !p.st.isUp || p.sendq.isEmpty || decide (128 ≤ p.window.length) then none
  else
    let fs := p.sendq.take frameFlits
    let f : Sys2Proof.Frame :=
      { kind := 0, seq := p.send, ack := p.accept - 1
        flits := fs ++ fillFlits draw (frameFlits - fs.length) }
    some (f, { p with
      send := p.send + 1, window := p.window ++ [f], outbox := p.outbox ++ [f], sendq := p.sendq.drop frameFlits })

/-- A port forms its next data frame. -/
def State.sendFrame (s : State) (n : Nat) : State :=
  match (s.port n).nextFrame s.draws with
  | none => s
  | some (_, p) => { s.setPort n p with draws := s.draws + 1 }

/-- A port transmits the oldest of its frames that wait. -/
def State.transmit (s : State) (n : Nat) : State :=
  let p := s.port n
  if p.st.isUp then s.setPort n { p with outbox := p.outbox.tail } else s

/-- FRAME_RECEIVE. A data frame is accepted in SEQ order, or discarded with a retry request; a frame of a reserved kind is
discarded and counted. A codeword that holds no 20 flits is none that the code corrects. -/
def execFrameReceive (port : Nat) (frame : Sys2Proof.Frame) (correctable : Bool) (s : State) : Out :=
  let p := s.port port
  let refuse (p : Port) : State := { s.setPort port (p.refuse s.draws) with draws := s.draws + 1 }
  if !p.st.isUp then .next s
  else if !correctable || frame.flits.length ≠ frameFlits then .next (refuse p)
  else if frame.kind = 0 then
    let p1 := { p with window := ackWindow frame.ack p.window }
    if frame.seq = p.accept then
      .next (s.setPort port { p1 with accept := p.accept + 1, flits := p.flits ++ frame.flits, retries := 0 })
    else .next (refuse p1)
  else if frame.kind = 1 ∨ frame.kind = 2 then .next s
  else .next (s.setPort port { p with dropped := p.dropped + 1 })

/-- FRAME_IDLE. Its flits are ignored; its ACK is not. -/
def execFrameIdle (port : Nat) (frame : Sys2Proof.Frame) (s : State) : Out :=
  let p := s.port port
  if !p.st.isUp || frame.kind ≠ 1 then .next s
  else .next (s.setPort port { p with window := ackWindow frame.ack p.window })

/-- RETRY_REQUEST. The sender resends from the frame after the last one accepted; its own retry requests that wait stay.
(DEDUCED, log 97) -/
def execRetryRequest (port : Nat) (ack : Byte) (s : State) : Out :=
  let p := s.port port
  if !p.st.isUp then .next s
  else
    let w := ackWindow ack p.window
    .next (s.setPort port { p with
      window := w, outbox := p.outbox.filter (fun f => f.kind == 2) ++ w, retries := p.retries + 1 })

/-- PORT_RETRAIN. After 16 consecutive retry requests the port retrains. -/
def execPortRetrain (port : Nat) (s : State) : Out :=
  let p := s.port port
  if !p.st.isUp || decide (p.retries < 16) then .next s else .next (s.setPort port { p with st := .training, retries := 0 })

/-- PORT_DOWN. A port that fails to retrain is down: every collective with traffic on it ends as a peer reset, and host
commands in flight on it are lost. -/
def execPortDown (port : Nat) (s : State) : Out :=
  let p := s.port port
  if p.st ≠ .training then .next s
  else
    let hit (e : Nat × Cmd) : Nat × Cmd :=
      if s.remoteColl e.2 && (e.2.group?.map (Config.onPort port e.2.tenant)).getD false && e.2.stop.isNone then
        (e.1, { e.2 with stop := some (0x07, e.2.landed), pending := [] }) else e
    .next ({ s with cmds := s.cmds.map hit, fabric := s.fabric.filter (fun q => q.2.owner != PktOwner.link port) }.setPort port
      { p with st := .down, flits := [], sendq := [], window := [], outbox := [] })

/-! ### Packets (R385) -/

/-- The fields of a packet's header: its traffic class, its destination device, its type, its length in flits, its function; its
source has no effect here. -/
def pktClass (h : BitVec 256) : Nat := field h 62 2
def pktDevice (h : BitVec 256) : Nat := field h 40 16
def pktType (h : BitVec 256) : Nat := field h 56 6
def pktLen (h : BitVec 256) : Nat := field h 16 8
def pktFn (h : BitVec 256) : Nat := field h 0 16

/-- A packet's doorbell, whose payload begins at byte 8 of its flit, moves its rings; one of a reserved kind is dropped. -/
def State.ringBell (s : State) (h : BitVec 256) : State :=
  let b (lo n : Nat) : Nat := field h (64 + 8 * lo) (8 * n)
  if b 0 1 = 0 then s.moveTail (pktFn h) (b 4 4)
  else if b 0 1 = 1 then s.moveHead (pktFn h) (b 4 4)
  else if b 0 1 = 2 then s.setRings (pktFn h) (b 1 1) (BitVec.ofNat 64 (b 8 8)) (BitVec.ofNat 64 (b 16 8))
  else s.dropDoorbell

/-- A header whose packet is dropped and counted: no length of 1 to 128 flits, or a reserved type. -/
def pktDropped (h : BitVec 256) : Bool := decide (pktLen h < 1 ∨ 128 < pktLen h ∨ pktType h < 1 ∨ 6 < pktType h)

/-- The flits a packet takes of its port; a header without a length is taken alone. -/
def pktTaken (h : BitVec 256) : Nat := if 1 ≤ pktLen h ∧ pktLen h ≤ 128 then pktLen h else 1

/-- A packet is for this device. -/
def pktHere (h : BitVec 256) : Bool := pktDevice h == Config.device % 2 ^ 16

/-- A packet a port has received enters the package's fabric with the class of its header, for the root, or for the port it
leaves by again, a free one of those that are up. -/
def State.injectLink (s : State) (port : Nat) (h : BitVec 256) : State :=
  let ups := s.ports.keys (fun p => p.st.isUp)
  let (i, s1) := s.choose ups.length
  let out := if pktHere h then 16 else ups.getD i port
  s1.injectOn (.link port) (pktClass h) (pktFn h - 1) Config.clusters out (pktLen h)
    (s1.routeFrom (linkDie port) (linkInput port) (linkDie out) (linkOutput out))

/-- What a packet that has crossed the package does: a doorbell goes to its rings, but one from a port without host traffic is
dropped; a packet for another device goes on from the port it leaves by. -/
def State.pktEffect (s : State) (fromHost : Bool) (out : Nat) (fs : List (BitVec 256)) (h : BitVec 256) : State :=
  if !pktHere h then s.setPort out { s.port out with sendq := (s.port out).sendq ++ fs }
  else if pktType h = 2 then (if fromHost then s.ringBell h else s.dropDoorbell)
  else s

/-- PACKET_RECEIVE. The oldest whole packet of a port is dropped, if its type is reserved; else it enters the fabric, and is taken
once it has crossed (R354, R355). (DEDUCED, log 96) -/
def execPacketReceive (port : Nat) (s : State) : Out :=
  let p := s.port port
  match p.flits with
  | [] => .next s
  | h :: _ =>
    let taken : State := s.setPort port { p with flits := p.flits.drop (pktTaken h) }
    if p.flits.length < pktTaken h then .next s
    else if pktDropped h then .next { taken with droppedPackets := s.droppedPackets + 1 }
    else match s.packetOf (.link port) with
      | none => .next (s.injectLink port h)
      | some (_, q) =>
        if !s.arrives (.link port) then .next s
        else .next ((taken.leaveFabric (.link port)).pktEffect p.st.isHost q.line (p.flits.take (pktLen h)) h)

/-! ### Power and heat (R382, R394) -/

/-- THERMAL_THROTTLE: the arithmetic clock falls a step of 100 MHz, to no lower than 600. -/
def execThermalThrottle (s : State) : Out := .next { s with mhz := max 600 (s.mhz - 100) }

/-- CLOCK_RECOVER: the arithmetic clock rises a step, to 1,200. -/
def execClockRecover (s : State) : Out := .next { s with mhz := min 1200 (s.mhz + 100) }

/-- THERMAL_TRIP: the root stops every clock, asserts FAULT and records cause 0x30. -/
def execThermalTrip (s : State) : Out :=
  .next { s with powerSt := .tripped, faultPin := true, faultCause := 0x30, faultDetail := 0 }

/-- What outlives the part's power: host memory, flash and fuses, the persistent tier, the usage counters; and the model's
own counters. (DEDUCED, log 100) -/
def State.lasting (s : State) : State :=
  { draws := s.draws, inputs := s.inputs, nextId := s.nextId, clock := s.clock, host := s.host
    imageA := s.imageA, imageB := s.imageB, activeB := s.activeB, bootedB := s.bootedB, rollback := s.rollback
    tier := s.tier, usage := s.usage }

/-- POWER_LOSS: nothing is left but what outlives the power; a checkpoint that was being written leaves no valid image. -/
def execPowerLoss (s : State) : Out :=
  .next { s.lasting with powerSt := .off, ready := false, tier := if s.checkpointing then none else s.tier }

/-! ### Bring-up (R392, R393) -/

/-- The root accepts an image. -/
def FwImage.accepted (i : FwImage) (rollback : DWord) : Bool :=
  digest (Config.imageKey i.bytes) == Config.fusedKeyDigest && Config.imageVerifies i.bytes &&
    decide (rollback.toNat ≤ (Config.imageVersion i.bytes).toNat)

/-- The root boots the active image, or else the other one, which may raise the rollback counter. -/
def State.boot (s : State) : Option State :=
  let img (b : Bool) : FwImage := if b then s.imageB else s.imageA
  let v := Config.imageVersion (img (!s.activeB)).bytes
  if (img s.activeB).accepted s.rollback then some { s with bootedB := s.activeB }
  else if (img (!s.activeB)).accepted s.rollback then
    some { s with bootedB := !s.activeB, rollback := if s.rollback.toNat < v.toNat then v else s.rollback }
  else none

/-- The ports that train with a host at bring-up: the lowest four of those named. -/
def hostTrained (ports : BitVec 16) : Table Port :=
  (((List.range 16).filter (fun n => ports.getLsbD n)).take 4).map (fun n => (n, { st := .up true }))

/-- A bring-up stage fails: FAULT is asserted and its cause recorded, and READY stays deasserted. -/
def State.failStage (s : State) (cause detail : Byte) : State :=
  { s with powerSt := .on (some (cause, detail)), ready := false, faultPin := true, faultCause := cause, faultDetail := detail }

/-- A stage of the part's hardware can fail so: its ROM check, a DRAM stack, 0 to 7, in bits [7:4] of the detail, or its bundles
and stacked dies (R392, R324). -/
def stageFails (f : Byte × Byte) : Bool :=
  f.1 == 0x01 || (f.1 == 0x20 && decide (f.2.toNat / 16 < 8)) || f.1 == 0x21

/-- POWER_GOOD. The part runs its bring-up stages: `failed` is the cause and detail of a stage of its hardware that fails, and
`hostPorts` the ports that train with a host. -/
def execPowerGood (failed : Option (Byte × Byte)) (hostPorts : BitVec 16) (s : State) : Out :=
  if s.powerSt ≠ .off || failed.any (fun f => !stageFails f) then .next s
  else
    let s0 : State := { s.lasting with ports := hostTrained hostPorts }
    match failed, s0.boot with
    | some (0x01, d), _ => .next (s0.failStage 0x01 d)
    | _, none => .next (s0.failStage 0x10 0)
    | some (c, d), some s1 => .next (s1.failStage c d)
    | none, some s1 => if hostPorts = 0 then .next (s1.failStage 0x22 0) else .next s1

end Sys2Proof.Machine
end

