-- ==== Sys2Proof/Machine/Uniform.lean ====
section
/-! DEFINITION. Uniform arithmetic, and the two instructions that take lanes to one value (R93 to R97). -/

namespace Sys2Proof.Machine

/-- A uniform instruction of one source. -/
def uni1 (i : Instr) (f : DA) (g : DWord → DWord) (s : State) : Out :=
  s.issue i (fun k t s => uniBody f.d (g (s.uni t f.a.op)) k t s)

/-- A uniform instruction of two sources. -/
def uni2 (i : Instr) (f : DAB) (g : DWord → DWord → DWord) (s : State) : Out :=
  s.issue i (fun k t s => uniBody f.d (g (s.uni t f.a.op) (s.uni t f.b.op)) k t s)

/-- smov. -/
def execSmov (f : DA) (s : State) : Out := uni1 (.smov f) f (fun a => a) s
/-- smovi. -/
def execSmovi (f : Imm) (s : State) : Out := s.issue (.smovi f) (uniBody f.d (f.imm.signExtend 64))
/-- sadd. -/
def execSadd (f : DAB) (s : State) : Out := uni2 (.sadd f) f (· + ·) s
/-- ssub. -/
def execSsub (f : DAB) (s : State) : Out := uni2 (.ssub f) f (· - ·) s
/-- smul. -/
def execSmul (f : DAB) (s : State) : Out := uni2 (.smul f) f (· * ·) s
/-- sand. -/
def execSand (f : DAB) (s : State) : Out := uni2 (.sand f) f (· &&& ·) s
/-- sor. -/
def execSor (f : DAB) (s : State) : Out := uni2 (.sor f) f (· ||| ·) s
/-- sxor. -/
def execSxor (f : DAB) (s : State) : Out := uni2 (.sxor f) f (· ^^^ ·) s
/-- sshl: the count is B[5:0] (R94). -/
def execSshl (f : DAB) (s : State) : Out := uni2 (.sshl f) f (fun a b => a <<< field b 0 6) s
/-- sshr. -/
def execSshr (f : DAB) (s : State) : Out := uni2 (.sshr f) f (fun a b => a >>> field b 0 6) s
/-- scmp. -/
def execScmp (c : Cond) (g : Sign) (f : DAB) (s : State) : Out :=
  uni2 (.scmp c g f) f (fun a b => if condHolds c g a b then 1 else 0) s
/-- ssel. -/
def execSsel (f : DABC) (s : State) : Out :=
  s.issue (.ssel f) (fun k t s =>
    uniBody f.d (if (s.uni t f.a.op).getLsbD 0 then s.uni t f.b.op else s.uni t f.c.op) k t s)

/-- vtos: the value of lane j, whatever its mask bit; its input is pinned (R96, R313). -/
def execVtos (f : DAB) (s : State) : Out :=
  s.issue (.vtos f) (fun k t s =>
    let j := field (s.uni t f.b.op) 0 32
    if j < t.lanes then
      let t1 := t.pinLanes [f.a.op] [j]
      .done (s.setTeam k (t1.uniResult f.d ((s.word t j f.a.op).setWidth 64)))
    else uniBody f.d 0 k t s)

/-- A lane's value as a reduction widens it (R97). -/
def ropWiden : Rop → Word → DWord
  | .add, x | .minS, x | .maxS, x => x.signExtend 64
  | _, x => x.setWidth 64

/-- The reduction's operation (R97). -/
def ropOp : Rop → DWord → DWord → DWord
  | .add => (· + ·)
  | .minS => minS
  | .minU => minU
  | .maxS => maxS
  | .maxU => maxU
  | .and => (· &&& ·)
  | .or => (· ||| ·)
  | .xor => (· ^^^ ·)

/-- The reduction of a list of lane values. -/
def ropReduce (r : Rop) : List Word → DWord
  | [] => 0
  | x :: xs => xs.foldl (fun acc y => ropOp r acc (ropWiden r y)) (ropWiden r x)

/-- sred. -/
def execSred (r : Rop) (f : DA) (s : State) : Out :=
  s.issue (.sred r f) (fun k t s => uniBody f.d (ropReduce r (t.active.map (fun n => s.word t n f.a.op))) k t s)

end Sys2Proof.Machine
end

