-- ==== Sys2Proof/Machine/Dispatch.lean ====
section
/-! DEFINITION. The dispatch: one arm per instruction and event, each a direct call of its meaning. -/

namespace Sys2Proof.Machine

/-- What an instruction or an event does to the state. -/
def exec (i : Instr) (s : State) : Host.Outcome State Fault Refusal :=
  match i with
  | .mov f => Sys2Proof.Machine.execMov f s
  | .movi f => Sys2Proof.Machine.execMovi f s
  | .sel f => Sys2Proof.Machine.execSel f s
  | .iadd f => Sys2Proof.Machine.execIadd f s
  | .isub f => Sys2Proof.Machine.execIsub f s
  | .ineg f => Sys2Proof.Machine.execIneg f s
  | .iabs f => Sys2Proof.Machine.execIabs f s
  | .iadd64 f => Sys2Proof.Machine.execIadd64 f s
  | .imul f => Sys2Proof.Machine.execImul f s
  | .imulhS f => Sys2Proof.Machine.execImulhS f s
  | .imulhU f => Sys2Proof.Machine.execImulhU f s
  | .imad f => Sys2Proof.Machine.execImad f s
  | .iminS f => Sys2Proof.Machine.execIminS f s
  | .iminU f => Sys2Proof.Machine.execIminU f s
  | .imaxS f => Sys2Proof.Machine.execImaxS f s
  | .imaxU f => Sys2Proof.Machine.execImaxU f s
  | .shl f => Sys2Proof.Machine.execShl f s
  | .shr f => Sys2Proof.Machine.execShr f s
  | .sar f => Sys2Proof.Machine.execSar f s
  | .rotl f => Sys2Proof.Machine.execRotl f s
  | .clz f => Sys2Proof.Machine.execClz f s
  | .popc f => Sys2Proof.Machine.execPopc f s
  | .brev f => Sys2Proof.Machine.execBrev f s
  | .icmp c g f => Sys2Proof.Machine.execIcmp c g f s
  | .and f => Sys2Proof.Machine.execAnd f s
  | .or f => Sys2Proof.Machine.execOr f s
  | .xor f => Sys2Proof.Machine.execXor f s
  | .andn f => Sys2Proof.Machine.execAndn f s
  | .not f => Sys2Proof.Machine.execNot f s
  | .bfxU f => Sys2Proof.Machine.execBfxU f s
  | .bfxS f => Sys2Proof.Machine.execBfxS f s
  | .bfi f => Sys2Proof.Machine.execBfi f s
  | .shfl f => Sys2Proof.Machine.execShfl f s
  | .shflx f => Sys2Proof.Machine.execShflx f s
  | .bcast f => Sys2Proof.Machine.execBcast f s
  | .ballot f => Sys2Proof.Machine.execBallot f s
  | .vany f => Sys2Proof.Machine.execVany f s
  | .vall f => Sys2Proof.Machine.execVall f s
  | .scan k f => Sys2Proof.Machine.execScan k f s
  | .fadd r f => Sys2Proof.Machine.execFadd r f s
  | .fsub r f => Sys2Proof.Machine.execFsub r f s
  | .fmul r f => Sys2Proof.Machine.execFmul r f s
  | .ffma r f => Sys2Proof.Machine.execFfma r f s
  | .fmin f => Sys2Proof.Machine.execFmin f s
  | .fmax f => Sys2Proof.Machine.execFmax f s
  | .fcmp c f => Sys2Proof.Machine.execFcmp c f s
  | .frcp r f => Sys2Proof.Machine.execFrcp r f s
  | .frsq r f => Sys2Proof.Machine.execFrsq r f s
  | .fsqrt r f => Sys2Proof.Machine.execFsqrt r f s
  | .fexp2 r f => Sys2Proof.Machine.execFexp2 r f s
  | .flog2 r f => Sys2Proof.Machine.execFlog2 r f s
  | .frnd r f => Sys2Proof.Machine.execFrnd r f s
  | .fclass f => Sys2Proof.Machine.execFclass f s
  | .h2add m r f => Sys2Proof.Machine.execH2add m r f s
  | .h2mul m r f => Sys2Proof.Machine.execH2mul m r f s
  | .h2fma m r f => Sys2Proof.Machine.execH2fma m r f s
  | .dot4 m r f => Sys2Proof.Machine.execDot4 m r f s
  | .dot8 m r f => Sys2Proof.Machine.execDot8 m r f s
  | .fscl r f => Sys2Proof.Machine.execFscl r f s
  | .fcvtFromF32 m r t f => Sys2Proof.Machine.execFcvtFromF32 m r t f s
  | .fcvtToF32 m r f => Sys2Proof.Machine.execFcvtToF32 m r f s
  | .fpack m r t p f => Sys2Proof.Machine.execFpack m r t p f s
  | .funpack m f => Sys2Proof.Machine.execFunpack m f s
  | .ld z f => Sys2Proof.Machine.execLd z f s
  | .st z f => Sys2Proof.Machine.execSt z f s
  | .ldq f => Sys2Proof.Machine.execLdq f s
  | .stq f => Sys2Proof.Machine.execStq f s
  | .lds z f => Sys2Proof.Machine.execLds z f s
  | .sts z f => Sys2Proof.Machine.execSts z f s
  | .cmpst z f => Sys2Proof.Machine.execCmpst z f s
  | .exld z f => Sys2Proof.Machine.execExld z f s
  | .spl f => Sys2Proof.Machine.execSpl f s
  | .fil f => Sys2Proof.Machine.execFil f s
  | .lsget n f => Sys2Proof.Machine.execLsget n f s
  | .lsret n f => Sys2Proof.Machine.execLsret n f s
  | .satom p f => Sys2Proof.Machine.execSatom p f s
  | .gatom p l z f => Sys2Proof.Machine.execGatom p l z f s
  | .gred p l z f => Sys2Proof.Machine.execGred p l z f s
  | .cdet f => Sys2Proof.Machine.execCdet f s
  | .vcomb p f => Sys2Proof.Machine.execVcomb p f s
  | .tmk f => Sys2Proof.Machine.execTmk f s
  | .ttag f => Sys2Proof.Machine.execTtag f s
  | .tval f => Sys2Proof.Machine.execTval f s
  | .tis k f => Sys2Proof.Machine.execTis k f s
  | .deref f => Sys2Proof.Machine.execDeref f s
  | .unify f => Sys2Proof.Machine.execUnify f s
  | .unifyOc f => Sys2Proof.Machine.execUnifyOc f s
  | .bind f => Sys2Proof.Machine.execBind f s
  | .mkvar f => Sys2Proof.Machine.execMkvar f s
  | .mkvarH d => Sys2Proof.Machine.execMkvarH d s
  | .mkcvar f => Sys2Proof.Machine.execMkcvar f s
  | .mkstr f => Sys2Proof.Machine.execMkstr f s
  | .getarg f => Sys2Proof.Machine.execGetarg f s
  | .tmark c ext d => Sys2Proof.Machine.execTmark c ext d s
  | .untrail f => Sys2Proof.Machine.execUntrail f s
  | .bcol f => Sys2Proof.Machine.execBcol f s
  | .cpush f => Sys2Proof.Machine.execCpush f s
  | .cnext f => Sys2Proof.Machine.execCnext f s
  | .cut f => Sys2Proof.Machine.execCut f s
  | .jmp f => Sys2Proof.Machine.execJmp f s
  | .jmpInd f => Sys2Proof.Machine.execJmpInd f s
  | .brc f => Sys2Proof.Machine.execBrc f s
  | .brcF f => Sys2Proof.Machine.execBrcF f s
  | .brsNz f => Sys2Proof.Machine.execBrsNz f s
  | .brsZ f => Sys2Proof.Machine.execBrsZ f s
  | .call f => Sys2Proof.Machine.execCall f s
  | .callInd f => Sys2Proof.Machine.execCallInd f s
  | .sbar f => Sys2Proof.Machine.execSbar f s
  | .brk ext n off => Sys2Proof.Machine.execBrk ext n off s
  | .yield f => Sys2Proof.Machine.execYield f s
  | .mwld m sp qm a b => Sys2Proof.Machine.execMwld m sp qm a b s
  | .mwldT m qm a b => Sys2Proof.Machine.execMwldT m qm a b s
  | .mamap map m tr stride kc a b => Sys2Proof.Machine.execMamap map m tr stride kc a b s
  | .mclr tile => Sys2Proof.Machine.execMclr tile s
  | .mmul tile map z x => Sys2Proof.Machine.execMmul tile map z x s
  | .mmsp tile map z x => Sys2Proof.Machine.execMmsp tile map z x s
  | .mrd m r stride a tile x => Sys2Proof.Machine.execMrd m r stride a tile x s
  | .mtov d tile b => Sys2Proof.Machine.execMtov d tile b s
  | .mfuse ext e => Sys2Proof.Machine.execMfuse ext e s
  | .mbarArr f => Sys2Proof.Machine.execMbarArr f s
  | .mbarWait a b => Sys2Proof.Machine.execMbarWait a b s
  | .mprio ext c => Sys2Proof.Machine.execMprio ext c s
  | .mloop f => Sys2Proof.Machine.execMloop f s
  | .cpy dir bar d a b len => Sys2Proof.Machine.execCpy dir bar d a b len s
  | .cpy2 dir bar d a b c => Sys2Proof.Machine.execCpy2 dir bar d a b c s
  | .cpyx scat rlen bar d a b c n => Sys2Proof.Machine.execCpyx scat rlen bar d a b c n s
  | .cpyxH rlen bar d a b h => Sys2Proof.Machine.execCpyxH rlen bar d a b h s
  | .cpym near bar d a b c len => Sys2Proof.Machine.execCpym near bar d a b c len s
  | .coll op m rop bar d a b => Sys2Proof.Machine.execColl op m rop bar d a b s
  | .amsg d a b c len => Sys2Proof.Machine.execAmsg d a b c len s
  | .ftest t ext d a => Sys2Proof.Machine.execFtest t ext d a s
  | .fcan tok ext a => Sys2Proof.Machine.execFcan tok ext a s
  | .wlpush l f => Sys2Proof.Machine.execWlpush l f s
  | .wlpull f => Sys2Proof.Machine.execWlpull f s
  | .wlsteal f => Sys2Proof.Machine.execWlsteal f s
  | .childLaunch d a => Sys2Proof.Machine.execChildLaunch d a s
  | .hld h a => Sys2Proof.Machine.execHld h a s
  | .hset h k a => Sys2Proof.Machine.execHset h k a s
  | .hget d h k => Sys2Proof.Machine.execHget d h k s
  | .hchkReport d h => Sys2Proof.Machine.execHchkReport d h s
  | .hchkWalk d h => Sys2Proof.Machine.execHchkWalk d h s
  | .barInit f => Sys2Proof.Machine.execBarInit f s
  | .barExp f => Sys2Proof.Machine.execBarExp f s
  | .barArr l f => Sys2Proof.Machine.execBarArr l f s
  | .barWait f => Sys2Proof.Machine.execBarWait f s
  | .fence c ext => Sys2Proof.Machine.execFence c ext s
  | .cwait c ext n => Sys2Proof.Machine.execCwait c ext n s
  | .arbeg d x => Sys2Proof.Machine.execArbeg d x s
  | .arrng f => Sys2Proof.Machine.execArrng f s
  | .arld f => Sys2Proof.Machine.execArld f s
  | .arst f => Sys2Proof.Machine.execArst f s
  | .arstIx sc a b c x => Sys2Proof.Machine.execArstIx sc a b c x s
  | .arabt f => Sys2Proof.Machine.execArabt f s
  | .prom f => Sys2Proof.Machine.execProm f s
  | .promPin f => Sys2Proof.Machine.execPromPin f s
  | .dem f => Sys2Proof.Machine.execDem f s
  | .lclass f => Sys2Proof.Machine.execLclass f s
  | .smov f => Sys2Proof.Machine.execSmov f s
  | .smovi f => Sys2Proof.Machine.execSmovi f s
  | .sadd f => Sys2Proof.Machine.execSadd f s
  | .ssub f => Sys2Proof.Machine.execSsub f s
  | .smul f => Sys2Proof.Machine.execSmul f s
  | .sand f => Sys2Proof.Machine.execSand f s
  | .sor f => Sys2Proof.Machine.execSor f s
  | .sxor f => Sys2Proof.Machine.execSxor f s
  | .sshl f => Sys2Proof.Machine.execSshl f s
  | .sshr f => Sys2Proof.Machine.execSshr f s
  | .scmp c g f => Sys2Proof.Machine.execScmp c g f s
  | .ssel f => Sys2Proof.Machine.execSsel f s
  | .vtos f => Sys2Proof.Machine.execVtos f s
  | .sred r f => Sys2Proof.Machine.execSred r f s
  | .pblk pat n p t => Sys2Proof.Machine.execPblk pat n p t s
  | .rett f => Sys2Proof.Machine.execRett f s
  | .rettRel f => Sys2Proof.Machine.execRettRel f s
  | .rettDrop f => Sys2Proof.Machine.execRettDrop f s
  | .sysr ext d b => Sys2Proof.Machine.execSysr ext d b s
  | .sysw f => Sys2Proof.Machine.execSysw f s
  | .rpcWrite f => Sys2Proof.Machine.execRpcWrite f s
  | .rmaskWrite f => Sys2Proof.Machine.execRmaskWrite f s
  | .trap f => Sys2Proof.Machine.execTrap f s
  | .ptlb f => Sys2Proof.Machine.execPtlb f s
  | .usg ext d b => Sys2Proof.Machine.execUsg ext d b s
  | .producerReturn req word => Sys2Proof.Machine.execProducerReturn req word s
  | .window1ElementArrive req elem => Sys2Proof.Machine.execWindow1ElementArrive req elem s
  | .parkedElementReplay team entry => Sys2Proof.Machine.execParkedElementReplay team entry s
  | .globalAtomicExecute req elem => Sys2Proof.Machine.execGlobalAtomicExecute req elem s
  | .translationWalk cluster tenant va => Sys2Proof.Machine.execTranslationWalk cluster tenant va s
  | .enginePieceLand cmd => Sys2Proof.Machine.execEnginePieceLand cmd s
  | .engineCommandComplete cmd => Sys2Proof.Machine.execEngineCommandComplete cmd s
  | .collMatch tenant group remote => Sys2Proof.Machine.execCollMatch tenant group remote s
  | .amsgDeliver cluster p => Sys2Proof.Machine.execAmsgDeliver cluster p s
  | .matrixStepEnd step => Sys2Proof.Machine.execMatrixStepEnd step s
  | .matrixStarvationGrant step => Sys2Proof.Machine.execMatrixStarvationGrant step s
  | .mwldLatch latch => Sys2Proof.Machine.execMwldLatch latch s
  | .regionCommit team => Sys2Proof.Machine.execRegionCommit team s
  | .promoteMoveComplete cmd => Sys2Proof.Machine.execPromoteMoveComplete cmd s
  | .demoteComplete cmd => Sys2Proof.Machine.execDemoteComplete cmd s
  | .hldComplete req => Sys2Proof.Machine.execHldComplete req s
  | .wlpushAppend push => Sys2Proof.Machine.execWlpushAppend push s
  | .wlpullServe team => Sys2Proof.Machine.execWlpullServe team s
  | .endOfWork grid => Sys2Proof.Machine.execEndOfWork grid s
  | .teamRetire team => Sys2Proof.Machine.execTeamRetire team s
  | .gridEnd grid => Sys2Proof.Machine.execGridEnd grid s
  | .blockPlace grid p => Sys2Proof.Machine.execBlockPlace grid p s
  | .distributorStarvation grid p => Sys2Proof.Machine.execDistributorStarvation grid p s
  | .handlerTeamStart tenant p => Sys2Proof.Machine.execHandlerTeamStart tenant p s
  | .trapRecordEnqueue tenant => Sys2Proof.Machine.execTrapRecordEnqueue tenant s
  | .systemEvent tenant code addr => Sys2Proof.Machine.execSystemEvent tenant code addr s
  | .spillLeaseRevoke team => Sys2Proof.Machine.execSpillLeaseRevoke team s
  | .fetchFill team => Sys2Proof.Machine.execFetchFill team s
  | .sliceEnd part => Sys2Proof.Machine.execSliceEnd part s
  | .sliceStart part => Sys2Proof.Machine.execSliceStart part s
  | .preemptForClass3 grid block => Sys2Proof.Machine.execPreemptForClass3 grid block s
  | .blockSave block => Sys2Proof.Machine.execBlockSave block s
  | .blockRestore block => Sys2Proof.Machine.execBlockRestore block s
  | .packetReceive port => Sys2Proof.Machine.execPacketReceive port s
  | .completionWrite fn => Sys2Proof.Machine.execCompletionWrite fn s
  | .unassignedCommand e => Sys2Proof.Machine.execUnassignedCommand e s
  | .tenantMake e => Sys2Proof.Machine.execTenantMake e s
  | .tenantSet e => Sys2Proof.Machine.execTenantSet e s
  | .teardown e => Sys2Proof.Machine.execTeardown e s
  | .partitionAssign e => Sys2Proof.Machine.execPartitionAssign e s
  | .partitionWithdraw e => Sys2Proof.Machine.execPartitionWithdraw e s
  | .pageOwn e => Sys2Proof.Machine.execPageOwn e s
  | .pageOwnAck fn => Sys2Proof.Machine.execPageOwnAck fn s
  | .groupMake e => Sys2Proof.Machine.execGroupMake e s
  | .groupEnd e => Sys2Proof.Machine.execGroupEnd e s
  | .clusterReset e => Sys2Proof.Machine.execClusterReset e s
  | .fnReset e => Sys2Proof.Machine.execFnReset e s
  | .checkpoint e => Sys2Proof.Machine.execCheckpoint e s
  | .restore e => Sys2Proof.Machine.execRestore e s
  | .attest e => Sys2Proof.Machine.execAttest e s
  | .fwWrite e => Sys2Proof.Machine.execFwWrite e s
  | .powerCap e => Sys2Proof.Machine.execPowerCap e s
  | .suspend e => Sys2Proof.Machine.execSuspend e s
  | .resume e => Sys2Proof.Machine.execResume e s
  | .launch e => Sys2Proof.Machine.execLaunch e s
  | .cancel e => Sys2Proof.Machine.execCancel e s
  | .memWrite e => Sys2Proof.Machine.execMemWrite e s
  | .memRead e => Sys2Proof.Machine.execMemRead e s
  | .usgReportComplete cmd => Sys2Proof.Machine.execUsgReportComplete cmd s
  | .illegalInstruction code place => Sys2Proof.Machine.execIllegalInstruction code place s
  | .ptlbComplete team => Sys2Proof.Machine.execPtlbComplete team s
  | .mrdComplete mrd => Sys2Proof.Machine.execMrdComplete mrd s
  | .clast => Sys2Proof.Machine.execClast s
  | .ret => Sys2Proof.Machine.execRet s
  | .sarr => Sys2Proof.Machine.execSarr s
  | .exit => Sys2Proof.Machine.execExit s
  | .nop => Sys2Proof.Machine.execNop s
  | .mend => Sys2Proof.Machine.execMend s
  | .gbar => Sys2Proof.Machine.execGbar s
  | .arend => Sys2Proof.Machine.execArend s
  | .powerLoss => Sys2Proof.Machine.execPowerLoss s
  | .thermalThrottle => Sys2Proof.Machine.execThermalThrottle s
  | .clockRecover => Sys2Proof.Machine.execClockRecover s
  | .thermalTrip => Sys2Proof.Machine.execThermalTrip s
  | .checkpointComplete => Sys2Proof.Machine.execCheckpointComplete s
  | .restoreComplete => Sys2Proof.Machine.execRestoreComplete s
  | .powerGood failed hostPorts => Sys2Proof.Machine.execPowerGood failed hostPorts s
  | .linkTraining port host ok => Sys2Proof.Machine.execLinkTraining port host ok s
  | .frameReceive port frame correctable => Sys2Proof.Machine.execFrameReceive port frame correctable s
  | .frameIdle port frame => Sys2Proof.Machine.execFrameIdle port frame s
  | .retryRequest port ack => Sys2Proof.Machine.execRetryRequest port ack s
  | .portDown port => Sys2Proof.Machine.execPortDown port s
  | .portRetrain port => Sys2Proof.Machine.execPortRetrain port s
  | .crosspointForcedGrant xp => Sys2Proof.Machine.execCrosspointForcedGrant xp s
  | .channelFloorWindow ch => Sys2Proof.Machine.execChannelFloorWindow ch s
  | .clusterInternalFault cluster => Sys2Proof.Machine.execClusterInternalFault cluster s
  | .doorbellSubmissionTail fn index => Sys2Proof.Machine.execDoorbellSubmissionTail fn index s
  | .doorbellCompletionHead fn index => Sys2Proof.Machine.execDoorbellCompletionHead fn index s
  | .doorbellRingSetup fn k sq cq => Sys2Proof.Machine.execDoorbellRingSetup fn k sq cq s

end Sys2Proof.Machine
end

