-- ==== Sys2Proof/Machine/Events.lean ====
section
/-! DEFINITION. The events of the part itself that the work in flight allows, one by one (file 95's table of steps). -/

namespace Sys2Proof.Machine

/-! ### Requests, walks and commands -/

/-- A team's block is on the machine and not being saved. -/
def State.teamPlaced (s : State) (k : Nat) : Bool :=
  ((s.team? k).map (fun t => ((s.block? t.block).map (fun b => b.st == .placed)).getD false)).getD false

/-- The packet has still to enter the fabric, or has crossed it. -/
def State.crosses (s : State) (o : PktOwner) : Bool := (s.packetOf o).isNone || s.arrives o

/-- The events of a near element: it reaches its core, or a unit of it lands. -/
def State.elemEvents (s : State) (f : Frame) (n : Nat) (r : Req) (e : Elem) : List Instr :=
  match e.st with
  | .transit => if s.entryWaits r then [] else [.window1ElementArrive n e.lane]
  | .landing =>
    if s.nearFirst f n r e then
      (r.kind.units.filter (fun w => !e.landed.contains w)).map (fun w => .window1ElementArrive n (e.lane + 1024 * w))
    else []
  | _ => []

/-- A global element that is carried out at its slice next. -/
def State.sliceEvent (s : State) (n : Nat) (r : Req) (e : Elem) : List Instr :=
  if e.st == .transit && s.arrives (.elem n e.lane) && (r.arld || s.lineFirst n r e) then [.globalAtomicExecute n e.lane] else []

/-- The elements of a request go through the fabric: those of a global atomic, and an arld's. -/
def Req.global (r : Req) : Bool :=
  match r.kind with
  | .gatom _ _ _ => true
  | _ => r.arld

/-- The events of a request: its data return, its elements arrive, its released entry replays. -/
def State.reqEvents (s : State) (n : Nat) (r : Req) : List Instr :=
  let returned := r.words.filter (fun w => s.returns r && (r.inWord w).all Elem.settled && (match r.kind, r.dst with
    | .usg _ _, _ => false
    | _, .v _ _ => true
    | _, .s _ => true
    | _, _ => false))
  let arrive := match s.team? r.team with
    | none => []
    | some t =>
      if r.global then r.elems.flatMap (s.sliceEvent n r)
      else if r.kind.near then
        (r.elems.filter (fun e => s.residentBlock t.block || s.outlives t.block r e)).flatMap (s.elemEvents (s.frame t) n r)
      else []
  let replay := match r.entry with
    | some e => if s.mayReplay r then [.parkedElementReplay r.team e] else []
    | none => []
  let whole := match r.kind with
    | .hld _ _ => if s.returns r then [.hldComplete n] else []
    | .usg _ _ => if s.teamPlaced r.team && s.crosses (.report n) then [.usgReportComplete n] else []
    | _ => []
  returned.map (fun w => .producerReturn n w) ++ arrive ++ replay ++ whole

/-- The command has a further piece to land, or to read. -/
def Cmd.landsNext (c : Cmd) : Bool :=
  match c.kind with
  | .check _ x poss done => c.stop.isNone && checkMore x poss done
  | .coll .. => c.stop.isNone && !c.sourceRead
  | .amsg .. | .push .. | .promote .. | .demote .. => false
  | _ => !c.pending.isEmpty || c.more

/-- The command may complete, be queued or be taken up. -/
def Cmd.endsNext (c : Cmd) : Bool :=
  match c.kind with
  | .push .. => false
  | .coll .. => c.stop.isSome
  | .amsg .. => true
  | .promote .. | .demote .. => c.stop.isSome || c.move.isNone
  | .check _ x poss done => !(c.stop.isNone && checkMore x poss done)
  | _ => c.pending.isEmpty && !c.more

/-- The events of a command. -/
def State.cmdEvents (s : State) (n : Nat) (c : Cmd) : List Instr :=
  let moved := match c.kind with
    | .promote .. => if c.move.isSome then [.promoteMoveComplete n] else []
    | .demote .. => if c.move.isSome then [.demoteComplete n] else []
    | _ => []
  if s.held then moved ++ (if c.pending.any Piece.begun then [.enginePieceLand n] else [])
  else
    let pushed := match c.kind with
      | .push .. => [.wlpushAppend n]
      | _ => []
    (if c.landsNext then [.enginePieceLand n] else []) ++ (if c.endsNext then [.engineCommandComplete n] else []) ++
      moved ++ pushed

/-- A rank's command may be matched: it is there, and its source has been read if the collective uses it. -/
def Cmd.matches? (c : Option (Nat × Cmd)) (rank : Nat) : Bool :=
  match c with
  | none => false
  | some (_, c) => c.sourceRead || !((c.collKey).map (fun k => k.uses rank)).getD true

/-- A collective of a group whose ranks all lie on this device, once every rank has its command. -/
def State.matchEvents (s : State) (tenant : Nat) (t : Tenant) : List Instr :=
  (t.groups.filter (fun g => !s.held && !g.ranks.isEmpty && g.ranks.all (fun r => r.1 == Config.device) &&
    g.localRanks.all (fun r => Cmd.matches? (s.nextColl tenant g.number r.2) r.1))).map (fun g => .collMatch tenant g.number [])

/-! ### Matrix steps, teams, grids and blocks -/

/-- The events of a matrix step. -/
def State.stepEvents (s : State) (n : Nat) (m : MStep) : List Instr :=
  if m.running then [.matrixStepEnd n]
  else if (s.nextStep.map Prod.fst) == some n then [.matrixStarvationGrant n] else []

/-- The events of a team. -/
def State.teamEvents (s : State) (k : Nat) (t : Team) : List Instr :=
  let held := match t.hold with
    | .pull x _ =>
      if !(s.items (s.gridIdOf t) (pullList x) t.cluster).isEmpty && s.teamPlaced k then [.wlpullServe k] else []
    | .ptlb _ _ => [.ptlbComplete k]
    | _ => []
  held ++ (if t.arend.isSome then [.regionCommit k] else []) ++
    (if t.exitedAll && s.residentBlock t.block && (s.owesTraps k || s.quiet k t) then [.teamRetire k] else []) ++
    (if (t.lease.map s.lenderNeeds).getD false then [.spillLeaseRevoke k] else []) ++
    (if t.st != .retired && decide (t.ctl.buf < 16) then [.fetchFill k] else [])

/-- The drawn choice places the next block of a grid. -/
def State.drawsPlace (s : State) (id : Nat) (g : Grid) : List PlaceChoice :=
  let w := g.launch.spawn id g.placed
  let p := s.drawPlace w s.draws
  if s.placeOk g.tenant w p then [p] else []

/-- The placements of a grid. -/
def State.placeEvents (s : State) (id : Nat) (g : Grid) : List Instr :=
  if !g.waiting || !s.placeable id g then []
  else (s.drawsPlace id g).map (fun p => if g.starved then .distributorStarvation id p else .blockPlace id p)

/-- The blocks whose pre-emption makes room for a class 3 block that waits. -/
def State.preemptEvents (s : State) (id : Nat) (g : Grid) : List Instr :=
  if g.launch.cls ≠ 3 || !g.waiting || s.checkpointing || !(s.heads g.tenant).any (fun e => e.1 == id) || s.gridFits id g then []
  else (s.blocks.filter (fun b => s.givesRoom id g b.1 b.2)).map (fun b => .preemptForClass3 id b.1)

/-- The events of a grid. -/
def State.gridEvents (s : State) (id : Nat) (g : Grid) : List Instr :=
  (if s.gridDone id g then [.gridEnd id] else []) ++ (if s.workEnds id g then [.endOfWork id] else []) ++
    s.placeEvents id g ++ s.preemptEvents id g

/-- The events of a block: it is saved, or restored. -/
def State.blockEvents (s : State) (n : Nat) (b : Block) : List Instr :=
  match b.st with
  | .saving => if s.saveWaits n || !s.crosses (.save n) then [] else [.blockSave n]
  | .saved =>
    if s.blockSuspended n || s.checkpointing || s.restoring || !s.restoreFits b || !s.crosses (.restore n) then []
    else [.blockRestore n]
  | _ => []

/-- The events of a partition that its tenants share. -/
def State.partEvents (s : State) (n : Nat) (p : Partition) : List Instr :=
  if p.turn.isSome then [.sliceEnd n]
  else if p.shared && !s.checkpointing && s.sliceSaved p && (p.closing.isSome || (s.nextTurn p).isSome) then [.sliceStart n]
  else []

/-! ### Messages, handlers and system events -/

/-- A message that the drawn choice serves. -/
def State.msgEvents (s : State) (m : Msg) : List Instr :=
  match s.msgSpawn m with
  | none => []
  | some w =>
    let p := s.drawPlace w s.draws
    if !s.checkpointing && s.msgPlaceOk m.cluster p m then [.amsgDeliver m.cluster p] else []

/-- A handler that the drawn choice starts. -/
def State.handlerEvents (s : State) (tenant : Nat) (t : Tenant) : List Instr :=
  if s.checkpointing || decide (64 ≤ s.handlers tenant) then []
  else t.records.flatMap (fun r =>
    match s.handlerSpawn r with
    | none => []
    | some w =>
      let p := s.drawPlace w s.draws
      if s.handlerPlaceOk r p then [.handlerTeamStart tenant p] else [])

/-- The events of a tenant. -/
def State.tenantEvents (s : State) (n : Nat) (t : Tenant) : List Instr :=
  s.handlerEvents n t ++ s.matchEvents n t ++
    (if s.arising.any (fun r => r.tenant == n) && decide (t.records.length < 256) then [.trapRecordEnqueue n] else [])

/-! ### The host's commands and the ports -/

/-- The event of a command entry. -/
def cmdEvent (e : CmdEntry) : Instr :=
  match e.opcode with
  | 0x01 => .tenantMake e
  | 0x02 => .tenantSet e
  | 0x03 => .teardown e
  | 0x04 => if e.get 8 1 = 1 then .partitionWithdraw e else .partitionAssign e
  | 0x05 => .pageOwn e
  | 0x06 => .groupMake e
  | 0x07 => .groupEnd e
  | 0x08 => .clusterReset e
  | 0x09 => .fnReset e
  | 0x0A => .checkpoint e
  | 0x0B => .restore e
  | 0x0C => .attest e
  | 0x0D => .fwWrite e
  | 0x0E => .powerCap e
  | 0x0F => .suspend e
  | 0x10 => .resume e
  | 0x20 => .launch e
  | 0x21 => .cancel e
  | 0x22 => .memWrite e
  | 0x23 => .memRead e
  | _ => .unassignedCommand e

/-- The events of a function: its oldest completion is written, its command goes on, or its next one begins. -/
def State.fnEvents (s : State) (n : Nat) (f : Fn) : List Instr :=
  let written := match f.rings with
    | some r => if !f.owed.isEmpty && !r.full then [.completionWrite n] else []
    | none => []
  let next := match f.running with
    | some e =>
      if e.opcode = 0x05 && s.pageChange.isSome then [.pageOwnAck n]
      else if e.opcode = 0x0A then (if s.checkpointing && s.quiesced then [.checkpointComplete] else [])
      else if e.opcode = 0x0B then (if s.restoring then [.restoreComplete] else [])
      else if s.mayServe e then [cmdEvent e] else []
    | none => match f.queue with
      | bits :: _ => let e : CmdEntry := { fn := n, bits := bits }; if s.mayServe e then [cmdEvent e] else []
      | [] => []
  written ++ next

/-- The events of a port. -/
def State.portEvents (s : State) (n : Nat) (p : Port) : List Instr :=
  match p.flits with
  | h :: _ => if pktTaken h ≤ p.flits.length && s.crosses (.link n) then [.packetReceive n] else []
  | [] => []

/-- The ports that retrain (R384). -/
def State.retrains (s : State) : List Nat := s.ports.keys (fun p => p.st.isUp && decide (16 ≤ p.retries))

/-- The ports that can form a frame, and those with a frame to transmit. -/
def State.senders (s : State) : List Nat := s.ports.keys (fun p => (p.nextFrame s.draws).isSome)
def State.transmitters (s : State) : List Nat := s.ports.keys (fun p => p.st.isUp && !p.outbox.isEmpty)

/-- The crosspoints at which packets wait. -/
def State.busyXps (s : State) : List Nat := (s.packets.filterMap (fun p => p.2.route.head?.map Prod.fst)).eraseDups

/-- The global elements that have not been injected and may be, and the atomics that wait for a slot and find one. -/
def State.toInject (s : State) : List (Nat × Nat) :=
  s.reqs.flatMap (fun r => if !r.2.global then [] else
    (r.2.elems.filter (fun e => e.st == .transit && ((s.injectElem r.1 e.lane).packetOf (.elem r.1 e.lane)).isSome &&
      (s.packetOf (.elem r.1 e.lane)).isNone)).map (fun e => (r.1, e.lane)))
def State.toSlot (s : State) : List (Nat × Nat) :=
  s.packets.filterMap (fun p => match p.2.owner with
    | .elem n lane => if s.slotElem n lane = s then none else some (n, lane)
    | _ => none)

/-- The channels whose window may end. -/
def State.windows (s : State) : List Nat := (s.channels.keys (fun c => c.total != 0)).filter s.floorsMet

/-- The events of a table's rows. -/
def rowEvents {α : Type} (t : Table α) (f : Nat → α → List Instr) : List Instr := t.flatMap (fun e => f e.1 e.2)

/-- The events of the part itself that the work in flight allows. -/
def State.events (s : State) : List Instr :=
  rowEvents s.reqs s.reqEvents ++ s.walks.map (fun w => .translationWalk w.2.cluster w.2.tenant w.2.va) ++
    rowEvents s.cmds s.cmdEvents ++ rowEvents s.msteps s.stepEvents ++ s.latches.map (fun l => .mwldLatch l.1) ++
    s.mreads.map (fun m => .mrdComplete m.1) ++ rowEvents s.teams s.teamEvents ++ rowEvents s.blocks s.blockEvents ++
    rowEvents s.grids s.gridEvents ++ rowEvents s.partitions s.partEvents ++ rowEvents s.tenants s.tenantEvents ++
    s.msgs.flatMap s.msgEvents ++ (s.sysEvents.head?.toList.map (fun e => .systemEvent e.1 e.2.1 e.2.2)) ++
    rowEvents s.fns s.fnEvents ++ rowEvents s.ports s.portEvents

end Sys2Proof.Machine
end

