-- ==== Sys2Proof/Machine/Sched.lean ====
section
/-! DEFINITION. What moves next: the steps the part could take from a state, and the choice among them (R27, R337). -/

namespace Sys2Proof.Machine

/-- A step the part could take: an agent issues, an event of the part itself happens, the oldest event of the outside world
arrives, or one of the part's smaller moves: a lane of a term instruction goes on, a packet is injected, a crosspoint grants a
flit, a window of a channel ends, an atomic takes a slot, a port retrains, forms a frame or transmits one.
(DESIGN CHOICE, log 104) -/
inductive Cand where
  | agent (a : Agent)
  | event (i : Instr)
  | input (i : Instr)
  | lane (k lane : Nat)
  | inject (req lane : Nat)
  | grant (xp : Nat)
  | forced (xp : Nat)
  | window (ch : Nat)
  | slot (req lane : Nat)
  | retrain (port : Nat)
  | send (port : Nat)
  | transmit (port : Nat)
  deriving DecidableEq, Repr

/-- The instruction or event reads scratchpads: elements, pieces, operands of steps, a save or a report; or, as it issues, a
descriptor, a payload, a barrier object, a weight image or a step's first test. -/
def readsSpm : Instr → Bool
  | .window1ElementArrive _ _ | .parkedElementReplay _ _ | .enginePieceLand _ | .matrixStepEnd _ | .usgReportComplete _
  | .matrixStarvationGrant _ | .blockSave _ | .cpy2 .. | .coll .. | .amsg .. | .childLaunch .. | .barInit _ | .barExp _
  | .barArr _ _ | .barWait _ | .mbarArr _ | .mbarWait _ _ | .mwld .. | .mwldT .. | .mmul .. | .mmsp .. => true
  | _ => false

/-- The single-bit errors that scratchpad reads have met are corrected and counted (R117). (DEDUCED, log 43) -/
def State.corrects (s : State) : State := { s with corrected := s.corrected + Config.corrected s.draws }

/-- The errors that the scratchpad reads of an instruction or event have met, if it has any. -/
def State.counted (s : State) (i : Instr) : State := if readsSpm i then s.corrects else s

/-- The instruction an agent issues next; a word that is not one raises its encoding trap (R75). -/
def State.nextInstr (s : State) : Agent → Option Instr
  | .none => none
  | .team k =>
    match s.team? k with
    | none => none
    | some t =>
      match s.fetch t.cluster (s.tenantIdOf t) t.ctl.pc with
      | .ok i => some i
      | .trap c p => some (.illegalInstruction c p)
  | .stream b =>
    match s.block? b with
    | none => none
    | some x =>
      match x.stream with
      | none => none
      | some m =>
        match s.fetch (clusterOf (x.quarters.headD 0)) (s.tenantOfGrid x.grid) m.pc with
        | .ok i => some i
        | .trap c p => some (.illegalInstruction c p)

/-- Grants the issue slot to an agent (R27); the agent that had the latest grant keeps it. -/
def State.grant (s : State) (a : Agent) : State :=
  match a with
  | .team k =>
    if s.cur == .team k && ((s.team? k).map (fun t => t.stamp == s.clock)).getD false then s
    else { s.modTeam k (fun t => { t with stamp := s.clock + 1 }) with cur := a, clock := s.clock + 1 }
  | _ => { s with cur := a }

/-- Runs one step. -/
def State.run (s : State) : Cand → Out
  | .agent a =>
    match s.nextInstr a with
    | some i => exec i ((s.grant a).counted i)
    | none => .next s
  | .event i => exec i (s.counted i)
  | .input i => exec i { s with inputs := s.inputs.tail }
  | .lane k lane => execTermLane k lane s.corrects
  | .inject n lane => .next (s.injectElem n lane)
  | .grant xp => .next (s.grantTop xp)
  | .forced xp => execCrosspointForcedGrant xp s
  | .window ch => execChannelFloorWindow ch s
  | .slot n lane => .next (s.slotElem n lane)
  | .retrain port => execPortRetrain port s
  | .send port => .next (s.sendFrame port)
  | .transmit port => .next (s.transmit port)

/-- An agent is ready when issuing its next instruction is more than giving the slot back (R27). -/
def State.ready? (s : State) (a : Agent) : Bool :=
  match s.run (.agent a) with
  | .next s' => s'.cur != .none
  | _ => true

/-- The teams that could issue: running, with the words of their next instruction buffered (R210). -/
def State.runnable (s : State) : List Nat :=
  s.teams.keys (fun t => t.st == .running && t.ctl.mask != 0 &&
    decide (s.sizeAt t.cluster (s.tenantIdOf t) t.ctl.pc ≤ 4 * t.ctl.buf))

/-- The lanes of term instructions that can go on. -/
def State.termLanes (s : State) : List (Nat × Nat) :=
  s.teams.flatMap (fun e => if s.residentBlock e.2.block then e.2.runLanes.map (fun n => (e.1, n)) else [])

/-- In each quarter the ready team granted least recently (R27). -/
def State.readyTeams (s : State) : List Nat :=
  let rs := s.runnable.filter (fun k => s.ready? (.team k))
  rs.filter (fun k =>
    match s.team? k with
    | none => false
    | some t => rs.all (fun j =>
        match s.team? j with
        | none => true
        | some u => u.quarter != t.quarter || decide (t.stamp < u.stamp) || (t.stamp == u.stamp && decide (k ≤ j))))

/-- The streams that could issue (R233). -/
def State.readyStreams (s : State) : List Nat :=
  (s.blocks.keys (fun b => (b.stream.map (fun m => streamMayIssue b m)).getD false)).filter
    (fun b => s.ready? (.stream b))

/-- Every step the part could take. (DEDUCED, log 12) -/
def State.cands (s : State) : List Cand :=
  s.inputs.head?.toList.map .input ++ s.events.map .event ++ s.retrains.map .retrain ++ s.senders.map .send ++
    s.transmitters.map .transmit ++ s.termLanes.map (fun e => .lane e.1 e.2) ++ s.toInject.map (fun e => .inject e.1 e.2) ++
    (s.busyXps.filter (fun x => !s.forcedAt x)).map .grant ++ (s.busyXps.filter s.forcedAt).map .forced ++
    s.windows.map .window ++ s.toSlot.map (fun e => .slot e.1 e.2) ++
    s.readyTeams.map (fun k => .agent (.team k)) ++ s.readyStreams.map (fun b => .agent (.stream b))

/-- One step of the part: nothing, the one step there is, or a free choice among several; each draws a free value. With every
clock stopped only power moves it. -/
def State.advanceOnce (s : State) : Out :=
  match s.powerSt with
  | .on _ =>
    match s.cands with
    | [] => .next { s with draws := s.draws + 1 }
    | [c] => { s with draws := s.draws + 1 }.run c
    | c :: cs =>
      let (n, s') := s.choose (cs.length + 1)
      s'.run (((c :: cs)[n]?).getD c)
  | _ =>
    match s.inputs with
    | .powerGood f p :: r => execPowerGood f p { s with inputs := r }
    | .powerLoss :: r => execPowerLoss { s with inputs := r }
    | _ => .fault .noClock

/-! ### Placing an instruction for the next step -/

/-- The physical pages `withFetchWord` builds: the tables of tenant 0 and one page of code. -/
def probeRoot : Nat := 0x100000
def probeCode : Nat := 0x113000
/-- The virtual address of the code page. -/
def probePc : Nat := 0x1000

/-- Device memory with the tables that map the code page for fetching and the instruction's words in it. -/
def probeDram (m : Memory) (ws : List Word) : Memory :=
  let m := Memory.write m probeRoot 8 (0x110000 + 1)
  let m := Memory.write m 0x110000 8 (0x111000 + 1)
  let m := Memory.write m 0x111000 8 (0x112000 + 1)
  let m := Memory.write m (0x112000 + 8) 8 (probeCode + 8 + 4 + 1)
  Memory.writeBytes m probeCode (bytesOf ws)

/-- The ownership entries of those pages (R362). -/
def probeRot (r : Sparse Half) : Sparse Half :=
  let r := Sparse.set 0 r 0x100 0xC000
  let r := Sparse.set 0 r 0x110 0xC000
  let r := Sparse.set 0 r 0x111 0xC000
  let r := Sparse.set 0 r 0x112 0xC000
  Sparse.set 0 r 0x113 0x8000

/-- The launch of the placed grid. -/
def probeLaunch : Launch :=
  { kernel := { entry := BitVec.ofNat 64 probePc, vregs := 256, sregs := 192, scratch := 0x10000 }
    code := BitVec.ofNat 64 probePc, codeLen := 20, tiles := 16, stream := BitVec.ofNat 64 probePc }

/-- The team, or with `inStream` the stream, that the instruction is placed for. -/
def probeTeam : Team :=
  { block := 0, index := 0, quarter := 0, lanes := 32, vregs := 256, sregs := 192
    ctl := { pc := BitVec.ofNat 64 probePc, mask := Mask.below 32, buf := 16 } }

def probeBlock (inStream : Bool) : Block :=
  { grid := 0, index := 0, quarters := [0, 1, 2, 3], scratch := 0x10000
    stream := some { pc := BitVec.ofNat 64 probePc, ended := !inStream } }

/-- The instruction of the words belongs in the stream alone. -/
def streamOnly (ws : List Word) : Bool :=
  match decodeWords (ws.take (wordCount (ws.getD 0 0))) with
  | .ok i => i.standing.stream && !i.standing.team
  | .trap .. => false

/-- A machine whose very next step fetches and runs the instruction of the given words: one tenant, grid, block and team of
32 lanes on quarter 0, whose pc names the words. (DESIGN CHOICE, log 2) -/
def State.place (s : State) (ws : List Word) : State :=
  let st := streamOnly ws
  { s with
    cur := if st then .stream 0 else .team 0
    inputs := []
    clock := 0
    nextId := 1
    dram := probeDram s.dram ws
    rot := probeRot s.rot
    tenants := [(0, { ptroot := BitVec.ofNat 64 probeRoot })]
    partitions := [(0, { quarters := [0, 1, 2, 3], tenants := [(0, 0)] })]
    grids := [(0, { tenant := 0, queue := 0, number := 0, launch := probeLaunch, owner := .host 1 0, placed := 1 })]
    blocks := [(0, probeBlock st)]
    teams := if st then [(0, { probeTeam with st := .retired })] else [(0, probeTeam)] }

end Sys2Proof.Machine
end

