-- ==== Sys2Proof/Machine/Step.lean ====
section
/-! DEFINITION. One step of the machine, and the placing of an instruction where the next step fetches it. -/

namespace Sys2Proof.Machine

/-- One step: an instruction of one agent, one event of the part, or one event of the outside world. -/
def step (s : State) : Host.Outcome State Fault Refusal := s.advanceOnce

/-- The state with an instruction, numbered as the opcode table numbers its bits, where the next step fetches. -/
def State.withFetchWord (s : State) (nbits w : Nat) : State := s.place (tableWords (w % 2 ^ nbits))

end Sys2Proof.Machine
end

