-- ==== Sys2Proof/Safety.lean ====
section
/-! DEFINITION. What counts as a safe state and a safe outcome, in the terms the claims use. -/

/-- The number of a uniform destination; zero is none. -/
def Sys2Proof.Opnd.sNum : Sys2Proof.Opnd → Option Nat
  | .s n => some n.val
  | _ => none

namespace Sys2Proof.Machine

/-- Every memory has its canonical form. -/
def State.memWf (s : State) : Bool := Memory.wf s.dram && Memory.wf s.host && Memory.wf s.spm

/-- The clock and the power cap lie within the bounds of R382. -/
def State.powerWf (s : State) : Bool :=
  decide (600 ≤ s.mhz) && decide (s.mhz ≤ 1200) && s.mhz % 100 == 0 && decide (1200 ≤ s.cap) && decide (s.cap ≤ 2800)

/-! ### When an instruction executes normally -/

/-- No record waits, no earlier instruction holds the team, and its block is placed. -/
structure Free (s : State) (k : Nat) (t : Team) : Prop where
  hold : t.hold = .none
  arend : t.arend = none
  run : t.run = none
  record : s.heldByRecord k = false
  block : ∃ b, s.block? t.block = some b ∧ b.st = .placed

/-- Team `k`, which holds the issue slot, may execute `i`: it runs with an active lane, nothing holds it (R27), the instruction
may stand where it stands (R66, R73, R74), every register it names is allocated (R51), those it reads are full in the mask
words it sweeps, and those it writes are not empty (R42, R43). A term instruction that is reissued may find its own
destination empty (R196). -/
structure Ready (s : State) (k : Nat) (t : Team) (i : Instr) : Prop where
  cur : s.cur = .team k
  team : s.team? k = some t
  running : t.st = .running
  mask : t.ctl.mask ≠ 0
  active : t.amask ≠ 0
  free : Free s k t
  place : placeTrap t i.standing = none
  alloc : ∀ r ∈ (usesOf i).all, r.beyond t = false
  reads : ∀ p ∈ (usesOf i).reads, p.1.state t t.swept = .full ∨ (t.ctl.resume.isSome ∧ p.1 ∈ (usesOf i).writes)
  writes : ∀ r ∈ (usesOf i).writes, r.anyEmpty t t.swept = false ∨ t.ctl.resume.isSome
  lane : ∀ e ∈ s.vtosWord t i, e.1.state t [e.2.2] = .full

/-- A stream that may execute `i`: it runs, its block is placed, and no step of its block waits to start (R233, R239). -/
structure StreamReady (s : State) (b : Nat) (x : Block) (m : Stream) (i : Instr) : Prop where
  cur : s.cur = .stream b
  block : s.block? b = some x
  stream : x.stream = some m
  runs : m.halted = false ∧ m.ended = false
  placed : x.st = .placed
  steps : s.stepWaits b = false
  stands : i.standing.stream = true

/-! ### What an instruction leaves -/

/-- The number, in its lane's file, of the register a lane result goes to: l0, which means push only, and zero are none. -/
def destNum : Opnd → Option Nat
  | .v n => some n.val
  | .o n => some (272 + n.val)
  | _ => none

/-- Register `m` of a lane after its result `x`: the destination takes it, and the l file shifts (R36). -/
def resultWord (d : Opnd) (x : Word) (old : Nat → Word) (m : Nat) : Word :=
  if 256 ≤ m ∧ m < 260 then (if m = 256 then x else old (m - 1)) else if destNum d = some m then x else old m

/-- Register `m` of a lane after a 64-bit result: the pair takes it, and nothing is pushed (R36, R38, R85). -/
def pairWord (d : Opnd) (x : DWord) (old : Nat → Word) (m : Nat) : Word :=
  match d with
  | .v n => if m = n.val then x.setWidth 32 else if m = n.val + 1 then (x >>> 32).setWidth 32 else old m
  | _ => old m

/-- Every byte of device memory, host memory and the scratchpads reads as before. -/
def SameMemory (s t : State) : Prop :=
  (∀ a, Memory.byte t.dram a = Memory.byte s.dram a) ∧ (∀ a, Memory.byte t.host a = Memory.byte s.host a) ∧
    (∀ a, Memory.byte t.spm a = Memory.byte s.spm a)

/-- Nothing changed but team `k`. -/
def OnlyTeam (s t : State) (k : Nat) : Prop :=
  t = { s with teams := t.teams } ∧ ∀ j, j ≠ k → t.team? j = s.team? j

/-- The team's control state is past the instruction: the pc by its size, and one more covered instruction (R65). -/
def Past (i : Instr) (T T' : Team) : Prop := T'.ctl = T.ctl.advance i.size

/-- Flags of the v registers: those of the `count` registers from `d` on are full, and free of poison, in the words the
instruction swept; every other flag is as before (R45). -/
def FilledLane (T T' : Team) (d : Opnd) (count : Nat) : Prop :=
  ∀ v w, w < 32 → T'.regs.vflag v w =
    match d with
    | .v n => if n.val ≤ v ∧ v < n.val + count ∧ w ∈ T.swept then Flag.full else T.regs.vflag v w
    | _ => T.regs.vflag v w

/-- A lane instruction has completed: every active lane has its result, pushed onto its l file; other lanes, other registers and
everything else are as before. Pinned inputs and float status are the instruction's own affair. -/
structure LaneDone (s : State) (k : Nat) (T : Team) (i : Instr) (d : Opnd) (val : Nat → Word) (t : State) (T' : Team) : Prop where
  team : t.team? k = some T'
  past : Past i T T'
  results : ∀ n ∈ T.active, ∀ m < 512, T'.regs.word n m = resultWord d (val n) (T.regs.word n) m
  lanes : ∀ n, n ∉ T.active → ∀ m < 512, T'.regs.word n m = T.regs.word n m
  flags : FilledLane T T' d 1
  files : T'.regs.sreg = T.regs.sreg ∧ T'.regs.sflag = T.regs.sflag ∧ T'.regs.h = T.regs.h
  rest : T' = { T with regs := T'.regs, ctl := T'.ctl, region := T'.region, fp := T'.fp }
  only : OnlyTeam s t k
  memory : SameMemory s t

/-- An instruction with 64-bit lane results has completed. -/
structure PairDone (s : State) (k : Nat) (T : Team) (i : Instr) (d : Opnd) (val : Nat → DWord) (t : State) (T' : Team) : Prop where
  team : t.team? k = some T'
  past : Past i T T'
  results : ∀ n ∈ T.active, ∀ m < 512, T'.regs.word n m = pairWord d (val n) (T.regs.word n) m
  lanes : ∀ n, n ∉ T.active → ∀ m < 512, T'.regs.word n m = T.regs.word n m
  flags : FilledLane T T' d 2
  files : T'.regs.sreg = T.regs.sreg ∧ T'.regs.sflag = T.regs.sflag ∧ T'.regs.h = T.regs.h
  rest : T' = { T with regs := T'.regs, ctl := T'.ctl, region := T'.region }
  only : OnlyTeam s t k
  memory : SameMemory s t

/-- A uniform instruction has completed: its s register holds the result and is full; nothing is pushed (R93). -/
structure UniDone (s : State) (k : Nat) (T : Team) (i : Instr) (d : Opnd) (x : DWord) (t : State) (T' : Team) : Prop where
  team : t.team? k = some T'
  past : Past i T T'
  result : ∀ m, T'.regs.s m = if d.sNum = some m then x else T.regs.s m
  flags : ∀ m, T'.regs.sflg m = if d.sNum = some m then .full else T.regs.sflg m
  files : T'.regs.lane = T.regs.lane ∧ T'.regs.flag = T.regs.flag ∧ T'.regs.h = T.regs.h ∧ T'.regs.tag = T.regs.tag
  rest : T' = { T with regs := T'.regs, ctl := T'.ctl, region := T'.region }
  only : OnlyTeam s t k
  memory : SameMemory s t

end Sys2Proof.Machine
end

