-- ==== Sys2Proof/WellFormed.lean ====
section
/-! DEFINITION. When an instruction is well formed: its operands are of the classes its entry accepts (R58), its constants
and modifiers are assigned (R63), its T bits stand on operands with full/empty state (R59), it reads at most one literal
(R57), and, in the base form, every operand has a short code and every immediate fits (R60, R64). An event has no
encoding and is always well formed. -/

namespace Sys2Proof

/-- An operand slot of a class: the class accepts the operand, and a T bit stands only on one with full/empty state. -/
def Slot.okCls (c : Cls) : Slot → Bool
  | .op q t => c.ok q && (!t || q.stateful)
  | _ => false

/-- A slot under what its row says of the field. -/
def Slot.okFor (s : Spec) (sl : Slot) : Bool :=
  match s, sl with
  | .unused, .none => true
  | .zero05, .none => true
  | .cls c, sl => sl.okCls c
  | .clsNoT c, .op q t | .dst c, .op q t => c.ok q && !t
  | .const resv ok, .const k => (k &&& resv) == 0 && ok k
  | _, _ => false

/-- The literals a slot reads. -/
def Slot.lits : Slot → List DWord
  | .op (.lit x) _ => [x]
  | _ => []

/-- All the literals an instruction's fields read are one (R57). -/
def Fields.oneLit (f : Fields) : Bool :=
  (f.a.lits ++ f.b.lits ++ f.c.lits).all (fun x => f.lit? == some x)

/-- A slot has a code in the form: a short one in a base word. -/
def Slot.codable (ext : Bool) : Slot → Bool
  | .op q _ => ext || q.short?.isSome
  | _ => true

/-- The values of X a form can carry (R54, R60). -/
def xFits (ext : Bool) (lay : Layout) (x : BitVec 21) : Bool :=
  ext || (match lay with
    | .imm => (x.setWidth 14).signExtend 21 == x
    | .jump => (x.setWidth 20).signExtend 21 == x
    | .cbr => (x.setWidth 13).signExtend 21 == x
    | .pfx => decide (x.toNat < 2048)
    | _ => x == 0)

/-- The form: one an instruction of this shape may take, with a literal only where the layout allows one (R75). -/
def formOk (g : Sig) (f : Fields) : Bool :=
  match g.lay with
  | .pfx | .none => !f.ext && f.lit?.isNone
  | .imm | .jump => f.lit?.isNone
  | _ => f.ext || !g.extOnly

/-- The field C: in a base word of a three-source row it is the register D names, read under no T bit (R61). -/
def cOk (g : Sig) (f : Fields) : Bool :=
  if f.ext then f.c.okFor g.c
  else if g.dabc then f.c == .op f.d.opnd false
  else f.c == .none

/-- The prefix's fields: a predicate v0 to v31, and no PAT bit above position N (R65). -/
def pfxOk (f : Fields) : Bool :=
  (match f.b with
   | .op (.v n) _ => decide (n.val < 32)
   | _ => false) && decide (field f.x 0 8 < 2 ^ (field f.x 8 3 + 1)) && f.a == .none && f.c == .none && f.d == .none

/-- The fields of a well-formed instruction of a row. -/
def Fields.wf (g : Sig) (lay : Layout) (f : Fields) : Bool :=
  g.lay == lay && formOk g f && f.oneLit && xFits f.ext lay f.x && (f.ext || f.m == 0) &&
  f.d.codable f.ext && f.a.codable f.ext && f.b.codable f.ext && f.c.codable f.ext &&
  (if lay = .pfx then pfxOk f
   else f.d.okFor g.d && f.a.okFor g.a && f.b.okFor g.b && cOk g f && (g.x || f.x == 0) &&
     !g.xResv (if f.ext then f.x else f.x.setWidth 14 |>.setWidth 21) && g.modOk f.m && !g.bad05 f)

/-- What the records of an instruction hold beyond its fields: an atomic that is not .cas names no expected value, and a
write of a system register by literal number is the row R374 gives that register. -/
def Instr.canonical : Instr → Bool
  | .satom p f => p == .cas || f.c == ⟨.zero, false⟩
  | .gatom p _ _ f => p == .cas || f.c == ⟨.zero, false⟩
  | .sysw f => syswRow f == .sysw f
  | .rpcWrite f => syswRow f == .rpcWrite f
  | .rmaskWrite f => syswRow f == .rmaskWrite f
  | _ => true

/-- The D constant that selects a row. -/
def Fields.kd (f : Fields) : Nat := f.d.k.toNat

/-- A well-formed instruction. -/
def Instr.wf (i : Instr) : Bool :=
  match i.enc? with
  | none => true
  | some (maj, min, lay, f) =>
    match row maj min f.m f.kd with
    | none => false
    | some rw => f.wf rw.sig lay && i.canonical

end Sys2Proof
end

