-- ==== Sys2Proof/Certificates/Slice0/Obligations.lean ====
section
/-! DEFINITION. The statements for the provers. `Ready`, `LaneDone` and their kin stand in Sys2Proof/Safety.lean. -/

open Sys2Proof Sys2Proof.Machine

namespace Sys2Proof.Claims

/-! ### Lane and uniform results -/

/-- An instruction's destination and its result in a lane of a team. -/
abbrev LaneRule := Opnd × (State → Team → Nat → Word)

/-- The result of one source. -/
def of1 (f : DA) (g : Word → Word) : LaneRule := (f.d, fun s t n => g (s.word t n f.a.op))
/-- The result of two sources. -/
def of2 (f : DAB) (g : Word → Word → Word) : LaneRule := (f.d, fun s t n => g (s.word t n f.a.op) (s.word t n f.b.op))
/-- The result of three sources. -/
def of3 (f : DABC) (g : Word → Word → Word → Word) : LaneRule :=
  (f.d, fun s t n => g (s.word t n f.a.op) (s.word t n f.b.op) (s.word t n f.c.op))

/-- R83 and R84. -/
inductive ArithRule : Instr → LaneRule → Prop where
  | mov (f) : ArithRule (.mov f) (of1 f (fun a => a))
  | movi (f) : ArithRule (.movi f) (f.d, fun _ _ _ => BitVec.ofInt 32 f.imm.toInt)
  | sel (f) : ArithRule (.sel f) (of3 f (fun a b c => if a.toNat % 2 = 1 then b else c))
  | iadd (f) : ArithRule (.iadd f) (of2 f (fun a b => BitVec.ofNat 32 (a.toNat + b.toNat)))
  | isub (f) : ArithRule (.isub f) (of2 f (fun a b => BitVec.ofInt 32 (a.toNat - b.toNat)))
  | ineg (f) : ArithRule (.ineg f) (of1 f (fun a => BitVec.ofInt 32 (-a.toInt)))
  | iabs (f) : ArithRule (.iabs f) (of1 f (fun a => BitVec.ofInt 32 |a.toInt|))
  | imul (f) : ArithRule (.imul f) (of2 f (fun a b => BitVec.ofNat 32 (a.toNat * b.toNat)))
  | imulhS (f) : ArithRule (.imulhS f) (of2 f (fun a b => ((a.signExtend 64 * b.signExtend 64) >>> 32).setWidth 32))
  | imulhU (f) : ArithRule (.imulhU f) (of2 f (fun a b => ((a.setWidth 64 * b.setWidth 64) >>> 32).setWidth 32))
  | imad (f) : ArithRule (.imad f) (of3 f (fun a b c => BitVec.ofNat 32 (a.toNat * b.toNat + c.toNat)))
  | iminS (f) : ArithRule (.iminS f) (of2 f (fun a b => BitVec.ofInt 32 (min a.toInt b.toInt)))
  | iminU (f) : ArithRule (.iminU f) (of2 f (fun a b => BitVec.ofNat 32 (min a.toNat b.toNat)))
  | imaxS (f) : ArithRule (.imaxS f) (of2 f (fun a b => BitVec.ofInt 32 (max a.toInt b.toInt)))
  | imaxU (f) : ArithRule (.imaxU f) (of2 f (fun a b => BitVec.ofNat 32 (max a.toNat b.toNat)))

/-- Position and width of a field control: B[4:0] and min(B[13:8], 32). -/
def ctlPos (b : Word) : Nat := b.toNat % 32
def ctlWidth (b : Word) : Nat := min (b.toNat / 256 % 64) 32

/-- R86 and R87. -/
inductive LogicRule : Instr → LaneRule → Prop where
  | shl (f) : LogicRule (.shl f) (of2 f (fun a b => BitVec.ofNat 32 (a.toNat * 2 ^ (b.toNat % 32))))
  | shr (f) : LogicRule (.shr f) (of2 f (fun a b => BitVec.ofNat 32 (a.toNat / 2 ^ (b.toNat % 32))))
  | sar (f) : LogicRule (.sar f) (of2 f (fun a b => BitVec.ofInt 32 (a.toInt / 2 ^ (b.toNat % 32))))
  | rotl (f) : LogicRule (.rotl f) (of2 f (fun a b =>
      BitVec.ofNat 32 (a.toNat * 2 ^ (b.toNat % 32)) ||| BitVec.ofNat 32 (a.toNat / 2 ^ (32 - b.toNat % 32))))
  | clz (f) : LogicRule (.clz f) (of1 f BitVec.clz)
  | popc (f) : LogicRule (.popc f) (of1 f BitVec.cpop)
  | brev (f) : LogicRule (.brev f) (of1 f BitVec.reverse)
  | and (f) : LogicRule (.and f) (of2 f (fun a b => a &&& b))
  | or (f) : LogicRule (.or f) (of2 f (fun a b => a ||| b))
  | xor (f) : LogicRule (.xor f) (of2 f (fun a b => a ^^^ b))
  | andn (f) : LogicRule (.andn f) (of2 f (fun a b => a &&& ~~~b))
  | not (f) : LogicRule (.not f) (of1 f (fun a => ~~~a))
  | bfxU (f) : LogicRule (.bfxU f) (of2 f (fun a b => BitVec.ofNat 32 (a.toNat / 2 ^ ctlPos b % 2 ^ ctlWidth b)))
  | bfxS (f) : LogicRule (.bfxS f) (of2 f (fun a b =>
      let w := ctlWidth b
      let e := a.toNat / 2 ^ ctlPos b % 2 ^ w
      if w = 0 then 0 else BitVec.ofInt 32 ((e : Int) - 2 ^ w * (e / 2 ^ (w - 1) : Nat))))
  | bfi (f) : LogicRule (.bfi f) (of3 f (fun a b c =>
      let m := BitVec.ofNat 32 ((2 ^ ctlWidth b - 1) * 2 ^ ctlPos b)
      (c &&& ~~~m) ||| (BitVec.ofNat 32 (a.toNat * 2 ^ ctlPos b) &&& m)))

/-- A condition on two values taken as signed or as unsigned numbers (R67). -/
def holds {n : Nat} (c : Cond) (g : Sign) (a b : BitVec n) : Prop :=
  let x : Int := match g with | .s => a.toInt | .u => a.toNat
  let y : Int := match g with | .s => b.toInt | .u => b.toNat
  match c with
  | .gt => x > y | .ge => x ≥ y | .lt => x < y | .le => x ≤ y | .eq => x = y | .ne => x ≠ y

/-- The lane that lane `n` reads from: `j` if it is an active lane of the team, else itself (R89). -/
def from? (T : Team) (n j : Nat) : Nat := if j ∈ T.active then j else n

/-- R89. -/
inductive ExchangeRule : Instr → LaneRule → Prop where
  | shfl (f) : ExchangeRule (.shfl f) (f.d, fun s T n => s.word T (from? T n (s.word T n f.b.op).toNat) f.a.op)
  | shflx (f) : ExchangeRule (.shflx f) (f.d, fun s T n => s.word T (from? T n (n ^^^ (s.word T n f.b.op).toNat % 1024)) f.a.op)
  | bcast (f) : ExchangeRule (.bcast f) (f.d, fun s T n => s.word T (from? T n (s.word T n f.b.op).toNat) f.a.op)

/-- R94, R95 and R97: a uniform destination and its value. -/
inductive UniRule : Instr → Opnd × (State → Team → DWord) → Prop where
  | smov (f) : UniRule (.smov f) (f.d, fun s T => s.uni T f.a.op)
  | smovi (f) : UniRule (.smovi f) (f.d, fun _ _ => BitVec.ofInt 64 f.imm.toInt)
  | sadd (f) : UniRule (.sadd f) (f.d, fun s T => BitVec.ofNat 64 ((s.uni T f.a.op).toNat + (s.uni T f.b.op).toNat))
  | ssub (f) : UniRule (.ssub f) (f.d, fun s T => BitVec.ofInt 64 ((s.uni T f.a.op).toNat - (s.uni T f.b.op).toNat))
  | smul (f) : UniRule (.smul f) (f.d, fun s T => BitVec.ofNat 64 ((s.uni T f.a.op).toNat * (s.uni T f.b.op).toNat))
  | sand (f) : UniRule (.sand f) (f.d, fun s T => s.uni T f.a.op &&& s.uni T f.b.op)
  | sor (f) : UniRule (.sor f) (f.d, fun s T => s.uni T f.a.op ||| s.uni T f.b.op)
  | sxor (f) : UniRule (.sxor f) (f.d, fun s T => s.uni T f.a.op ^^^ s.uni T f.b.op)
  | sshl (f) : UniRule (.sshl f) (f.d, fun s T => BitVec.ofNat 64 ((s.uni T f.a.op).toNat * 2 ^ ((s.uni T f.b.op).toNat % 64)))
  | sshr (f) : UniRule (.sshr f) (f.d, fun s T => BitVec.ofNat 64 ((s.uni T f.a.op).toNat / 2 ^ ((s.uni T f.b.op).toNat % 64)))
  | ssel (f) : UniRule (.ssel f) (f.d, fun s T => if (s.uni T f.a.op).toNat % 2 = 1 then s.uni T f.b.op else s.uni T f.c.op)

/-- One operation of sred on values widened to 64 bits (R97). -/
def redRule (r : Rop) (x y : DWord) : DWord :=
  match r with
  | .add => x + y
  | .minS => BitVec.ofInt 64 (min x.toInt y.toInt)
  | .minU => BitVec.ofNat 64 (min x.toNat y.toNat)
  | .maxS => BitVec.ofInt 64 (max x.toInt y.toInt)
  | .maxU => BitVec.ofNat 64 (max x.toNat y.toNat)
  | .and => x &&& y
  | .or => x ||| y
  | .xor => x ^^^ y

/-- A lane's value as sred widens it (R97). -/
def redWiden (r : Rop) (x : Word) : DWord :=
  match r with
  | .add | .minS | .maxS => x.signExtend 64
  | _ => x.setWidth 64

/-- The operation of a scan and its identity (R91). -/
def scanRule (k : ScanOp) (x y : Word) : Word :=
  match k with
  | .addIncl | .addExcl => x + y
  | .maxSIncl | .maxSExcl => BitVec.ofInt 32 (max x.toInt y.toInt)
  | .maxUIncl | .maxUExcl => BitVec.ofNat 32 (max x.toNat y.toNat)
def scanStart : ScanOp → Word
  | .maxSIncl | .maxSExcl => 0x80000000
  | _ => 0
/-- Lane `m` counts towards lane `n`: it is not above it, and, in an exclusive scan, not it. -/
def scanTakes : ScanOp → Nat → Nat → Bool
  | .addExcl, n, m | .maxSExcl, n, m | .maxUExcl, n, m => decide (m < n)
  | _, n, m => decide (m ≤ n)

/-- Float status and generators are as before, and so are regions and tags where the team has none (R313). -/
def KeepsRest (T T' : Team) : Prop :=
  T'.fp = T.fp ∧ (T.region = [] → T.regs.tag = [] → T'.region = [] ∧ T'.regs.tag = [])

end Sys2Proof.Claims

open Sys2Proof.Claims

/-- R83, R84, R86, R87, R89: moves, selects, 32-bit arithmetic, shifts, counts, logic, bit fields and lane exchanges
complete in every active lane with the value the tables give, push it onto the l file, and change nothing else but, in
regions, pins, constraints and tags. -/
def Obligations.LaneResults : Prop :=
  (∀ s k T i d val, ArithRule i (d, val) → Ready s k T i →
    ∃ t T', exec i s = .next t ∧ LaneDone s k T i d (val s T) t T' ∧ KeepsRest T T') ∧
  (∀ s k T i d val, LogicRule i (d, val) → Ready s k T i →
    ∃ t T', exec i s = .next t ∧ LaneDone s k T i d (val s T) t T' ∧ KeepsRest T T') ∧
  (∀ s k T i d val, ExchangeRule i (d, val) → Ready s k T i →
    ∃ t T', exec i s = .next t ∧ LaneDone s k T i d (val s T) t T' ∧ KeepsRest T T')

/-- R85, R88, R90, R91: ballot gives each lane the votes of its own mask word; vany and vall range over the active
lanes; scan is the running reduction over them, in ascending lane order; icmp gives 1 in the lanes where the comparison
holds and 0 in the others; iadd64 adds 64-bit lane values into a pair and pushes nothing. -/
def Obligations.LaneReductions : Prop :=
  (∀ s k T f,
    (Ready s k T (.ballot f) → ∃ t T' val, exec (.ballot f) s = .next t ∧ LaneDone s k T (.ballot f) f.d val t T' ∧
      ∀ n < 1024, ∀ j < 32, (val n).getLsbD j =
        (decide (32 * (n / 32) + j ∈ T.active) && (s.word T (32 * (n / 32) + j) f.a.op).getLsbD 0)) ∧
    (Ready s k T (.vany f) → ∃ t T', exec (.vany f) s = .next t ∧ LaneDone s k T (.vany f) f.d
      (fun _ => if ∃ j ∈ T.active, (s.word T j f.a.op).getLsbD 0 = true then 1 else 0) t T') ∧
    (Ready s k T (.vall f) → ∃ t T', exec (.vall f) s = .next t ∧ LaneDone s k T (.vall f) f.d
      (fun _ => if ∀ j ∈ T.active, (s.word T j f.a.op).getLsbD 0 = true then 1 else 0) t T')) ∧
  (∀ s k T o f, Ready s k T (.scan o f) →
    ∃ t T', exec (.scan o f) s = .next t ∧ LaneDone s k T (.scan o f) f.d
      (fun n => ((T.active.filter (scanTakes o n)).map (fun m => s.word T m f.a.op)).foldl (scanRule o) (scanStart o)) t T') ∧
  (∀ s k T c g f, Ready s k T (.icmp c g f) →
    ∃ t T' val, exec (.icmp c g f) s = .next t ∧ LaneDone s k T (.icmp c g f) f.d val t T' ∧
      ∀ n, (holds c g (s.word T n f.a.op) (s.word T n f.b.op) → val n = 1) ∧
        (¬holds c g (s.word T n f.a.op) (s.word T n f.b.op) → val n = 0)) ∧
  (∀ s k T f, Ready s k T (.iadd64 f) →
    ∃ t T', exec (.iadd64 f) s = .next t ∧ PairDone s k T (.iadd64 f) f.d
      (fun n => BitVec.ofNat 64 ((s.dword T n f.a.op).toNat + (s.dword T n f.b.op).toNat)) t T')

/-- R94 to R97: uniform moves, arithmetic, logic, shifts and select; scmp; vtos, which gives 0 past the last lane; sred,
which combines the widened values of the active lanes, the lowest first. -/
def Obligations.UniformInstructions : Prop :=
  (∀ s k T i d val, UniRule i (d, val) → Ready s k T i →
    ∃ t T', exec i s = .next t ∧ UniDone s k T i d (val s T) t T') ∧
  ((∀ s k T c g f, Ready s k T (.scmp c g f) →
    ∃ t T' x, exec (.scmp c g f) s = .next t ∧ UniDone s k T (.scmp c g f) f.d x t T' ∧
      (holds c g (s.uni T f.a.op) (s.uni T f.b.op) → x = 1) ∧ (¬holds c g (s.uni T f.a.op) (s.uni T f.b.op) → x = 0)) ∧
  (∀ s k T f, Ready s k T (.vtos f) →
    ∃ t T', exec (.vtos f) s = .next t ∧ UniDone s k T (.vtos f) f.d
      (let j := (s.uni T f.b.op).toNat % 2 ^ 32; if j < T.lanes then (s.word T j f.a.op).setWidth 64 else 0) t T')) ∧
  (∀ s k T r f n ns, Ready s k T (.sred r f) → T.active = n :: ns →
    ∃ t T', exec (.sred r f) s = .next t ∧ UniDone s k T (.sred r f) f.d
      ((ns.map (fun m => redWiden r (s.word T m f.a.op))).foldl (redRule r) (redWiden r (s.word T n f.a.op))) t T')

/-! ### Float instructions -/

namespace Sys2Proof.Claims

/-- A float instruction's destination, and its result and causes in a lane. -/
abbrev FloatRule := Opnd × (State → Team → Nat → Word × FFlags)

def fl1 (f : DA) (g : Word → Word × FFlags) : FloatRule := (f.d, fun s t n => g (s.word t n f.a.op))
def fl2 (f : DAB) (g : Word → Word → Word × FFlags) : FloatRule :=
  (f.d, fun s t n => g (s.word t n f.a.op) (s.word t n f.b.op))
def fl3 (f : DABC) (g : Word → Word → Word → Word × FFlags) : FloatRule :=
  (f.d, fun s t n => g (s.word t n f.a.op) (s.word t n f.b.op) (s.word t n f.c.op))

/-- The float instructions that draw no random value: R155 to R161 and R163 to R166. -/
inductive FloatInstr : Instr → FloatRule → Prop where
  | fadd (r f) : FloatInstr (.fadd r f) (fl2 f (fun a b => asWord (fF32.add a.toNat b.toNat r)))
  | fsub (r f) : FloatInstr (.fsub r f) (fl2 f (fun a b => asWord (fF32.sub a.toNat b.toNat r)))
  | fmul (r f) : FloatInstr (.fmul r f) (fl2 f (fun a b => asWord (fF32.mul a.toNat b.toNat r)))
  | ffma (r f) : FloatInstr (.ffma r f) (fl3 f (fun a b c => asWord (fF32.fma a.toNat b.toNat c.toNat r)))
  | fmin (f) : FloatInstr (.fmin f) (fl2 f (fminmax false))
  | fmax (f) : FloatInstr (.fmax f) (fl2 f (fminmax true))
  | fcmp (c f) : FloatInstr (.fcmp c f) (fl2 f (fun a b => (predWord (fcompare c a b).1, (fcompare c a b).2)))
  | frcp (r f) : FloatInstr (.frcp r f) (fl1 f (fun a => asWord (func1 .rcp a r)))
  | frsq (r f) : FloatInstr (.frsq r f) (fl1 f (fun a => asWord (func1 .rsq a r)))
  | fsqrt (r f) : FloatInstr (.fsqrt r f) (fl1 f (fun a => asWord (func1 .sqrt a r)))
  | fexp2 (r f) : FloatInstr (.fexp2 r f) (fl1 f (fun a => asWord (func1 .exp2 a r)))
  | flog2 (r f) : FloatInstr (.flog2 r f) (fl1 f (fun a => asWord (func1 .log2 a r)))
  | frnd (r f) : FloatInstr (.frnd r f) (fl1 f (fun a => asWord (fround a r)))
  | fclass (f) : FloatInstr (.fclass f) (fl1 f (fun a => (BitVec.ofNat 32 (2 ^ fclassBit a), {})))
  | h2add (m r f) : FloatInstr (.h2add m r f)
      (fl2 f (fun a b => halves (fun j => (halfFmt m).add (half a j) (half b j) r)))
  | h2mul (m r f) : FloatInstr (.h2mul m r f)
      (fl2 f (fun a b => halves (fun j => (halfFmt m).mul (half a j) (half b j) r)))
  | h2fma (m r f) : FloatInstr (.h2fma m r f)
      (fl3 f (fun a b c => halves (fun j => (halfFmt m).fma (half a j) (half b j) (half c j) r)))
  | dot4 (m r f) : FloatInstr (.dot4 m r f) (fl3 f (fun a b c => asWord (dotProduct (dot4Fmt m) 4 8 a b c r)))
  | dot8 (m r f) : FloatInstr (.dot8 m r f) (fl3 f (fun a b c => asWord (dotProduct (dot8Fmt m) 8 4 a b c r)))
  | fscl (r f) : FloatInstr (.fscl r f) (fl2 f (fun a b => asWord (fscale a b r)))
  | fcvtToF32 (m r f) : FloatInstr (.fcvtToF32 m r f) (fl1 f (fun a => asWord (toF32 m a r)))
  | funpack (m f) : FloatInstr (.funpack m f)
      (fl2 f (fun a b => asWord (unpackElement m a (b.toNat % (32 / packWidth m)))))

/-- The lane's generator state (R149), and the state after n steps. -/
def rngOf (T : Team) (n : Nat) : Word := Sparse.get 0 T.fp.rng n
def rngAfter (T : Team) (n steps : Nat) : Word := Nat.repeat rngStep steps (rngOf T n)

/-- The conversions that may draw: fcvt to a narrow format, and fpack; and how often they step under .rs (R149, R160, R162). -/
inductive DrawInstr : Instr → FloatRule → Nat → Prop where
  | fcvt (m r u f) : DrawInstr (.fcvtFromF32 m r u f)
      (f.d, fun s t n => fromF32 m (s.word t n f.a.op) r u (rngDraw (rngAfter t n 1))) (if r = .rs then 1 else 0)
  | fpack (m r u p f) : DrawInstr (.fpack m r u p f)
      (f.d, fun s t n =>
        let e0 := fromF32 m (s.word t n f.a.op) r u (rngDraw (rngAfter t n 1))
        let e1 := fromF32 m (s.word t n f.b.op) r u (rngDraw (rngAfter t n 2))
        (putElement m (putElement m (s.word t n f.d) (2 * p.val) e0.1) (2 * p.val + 1) e1.1, e0.2.or e1.2))
      (if r = .rs then 2 else 0)

/-- The cause of an enable bit: IV, DZ, OF, UF (R152, R153). -/
def causeOf (j : Nat) (c : FFlags) : Bool :=
  match j with
  | 0 => c.iv | 1 => c.dz | 2 => c.of | 3 => c.uf | 4 => c.nx | _ => false

/-- A cause arises in an active lane. -/
def arises (T : Team) (g : Nat → Word × FFlags) (j : Nat) : Prop := ∃ n ∈ T.active, causeOf j (g n).2 = true

/-- No enabled cause arises (R153). -/
def Quiet (T : Team) (g : Nat → Word × FFlags) : Prop := ∀ j < 4, T.fp.enables.getLsbD j = true → ¬arises T g j

/-- The float status after an instruction that takes effect: each flag is set if it was, or if its cause arose (R152). -/
def FlagsRaised (T T' : Team) (g : Nat → Word × FFlags) : Prop :=
  (∀ j < 5, T'.fp.flags.getLsbD j = true ↔ (T.fp.flags.getLsbD j = true ∨ arises T g j)) ∧ T'.fp.enables = T.fp.enables

/-- An FP32 NaN, and a signalling one (R143 to R145). -/
abbrev isNan32 (a : Word) : Prop := a.toNat / 2 ^ 23 % 256 = 255 ∧ a.toNat % 2 ^ 23 ≠ 0
abbrev isSnan32 (a : Word) : Prop := isNan32 a ∧ a.toNat / 2 ^ 22 % 2 = 0

/-- An ordered key of an FP32 number: its sign and magnitude as an integer. -/
def order32 (a : Word) : Int := if a.toNat < 2 ^ 31 then a.toNat else -((a.toNat - 2 ^ 31 : Nat) : Int)

/-- A finite FP32 number, and the integer n for which it is n × 2^−149 (R143). -/
abbrev finite32 (a : Word) : Prop := a.toNat / 2 ^ 23 % 256 ≠ 255
def fixed32 (a : Word) : Int :=
  let e := a.toNat / 2 ^ 23 % 256
  let n : Nat := if e = 0 then a.toNat % 2 ^ 23 else (2 ^ 23 + a.toNat % 2 ^ 23) * 2 ^ (e - 1)
  if a.toNat < 2 ^ 31 then (n : Int) else -(n : Int)

/-- The largest finite FP32 number in the same units. -/
def most32 : Int := (2 ^ 24 - 1) * 2 ^ 253

/-- x is the exact value v × 2^(−149 − w), which lies among the finite numbers, rounded as the mode says, and its sign is that
value's (R148). -/
def Rounded (r : Rm) (v : Int) (w : Nat) (x : Word) : Prop :=
  let near (c : Word) : Int := |v - fixed32 c * 2 ^ w|
  finite32 x ∧ (v ≠ 0 → (2 ^ 31 ≤ x.toNat ↔ v < 0)) ∧ ∀ c, finite32 c →
    match r with
    | .rn => near x ≤ near c ∧ (near x = near c → fixed32 c ≠ fixed32 x → x.toNat % 2 = 0)
    | .rz => |fixed32 x| * 2 ^ w ≤ |v| ∧ (|fixed32 c| * 2 ^ w ≤ |v| → |fixed32 c| ≤ |fixed32 x|)
    | .rp => v ≤ fixed32 x * 2 ^ w ∧ (v ≤ fixed32 c * 2 ^ w → fixed32 x ≤ fixed32 c)
    | .rm => fixed32 x * 2 ^ w ≤ v ∧ (fixed32 c * 2 ^ w ≤ v → fixed32 c ≤ fixed32 x)
    | .rs => True

/-- What a mode makes of an exact value beyond the finite numbers (R150). -/
def beyond32 (r : Rm) (v : Int) (w : Nat) : Word :=
  let up := match r with
    | .rn => decide ((2 ^ 25 - 1) * 2 ^ 252 * 2 ^ w ≤ |v|)
    | .rz | .rs => false
    | .rp => decide (0 < v)
    | .rm => decide (v < 0)
  let x : Word := if up then 0x7F800000 else 0x7F7FFFFF
  if v < 0 then x ||| 0x80000000 else x

/-- The result of an operation whose exact value is v × 2^(−149 − w), with its flags (R148, R150, R152). -/
def RoundsTo (r : Rm) (v : Int) (w : Nat) (x : Word × FFlags) : Prop :=
  (|v| ≤ most32 * 2 ^ w → Rounded r v w x.1 ∧ x.2 = { uf := x.2.uf, nx := x.2.nx } ∧
      (x.2.nx = true ↔ fixed32 x.1 * 2 ^ w ≠ v) ∧ (x.2.uf = true ↔ x.2.nx = true ∧ 0 < |fixed32 x.1| ∧ |fixed32 x.1| < 2 ^ 23)) ∧
    (most32 * 2 ^ w < |v| → x.1 = beyond32 r v w ∧ x.2 = { of := !decide (finite32 x.1), nx := true })

end Sys2Proof.Claims

/-- R149, R152 to R154, R160, R162: where no enabled cause arises, a float instruction completes with each lane's
result, and its causes stick; the conversions that may draw complete alike, and under .rs the generator of each active
lane steps once for each element; an enabled cause in any active lane is a precise trap, whose code is of the first in
the order IV, DZ, OF, UF, and whose record's mask is the lanes in which it arose. Clauses that rest on the model's own
readings: log 27, 28, 29, 112 and 113. -/
def Obligations.FloatInstructions : Prop :=
  ((∀ s k T i d g, FloatInstr i (d, g) → Ready s k T i → Quiet T (g s T) →
    ∃ t T', exec i s = .next t ∧ LaneDone s k T i d (fun n => (g s T n).1) t T' ∧ FlagsRaised T T' (g s T) ∧
      T'.fp.rng = T.fp.rng) ∧
  (∀ s k T i d g steps, DrawInstr i (d, g) steps → Ready s k T i → Quiet T (g s T) →
    ∃ t T', exec i s = .next t ∧ LaneDone s k T i d (fun n => (g s T n).1) t T' ∧ FlagsRaised T T' (g s T) ∧
      ∀ n, rngOf T' n = if n ∈ T.active then rngAfter T n steps else rngOf T n)) ∧
  (∀ s k T i d g j, (FloatInstr i (d, g) ∨ ∃ n, DrawInstr i (d, g) n) → Ready s k T i →
    j < 4 → T.fp.enables.getLsbD j = true → arises T (g s T) j →
    (∀ m < j, T.fp.enables.getLsbD m = true → ¬arises T (g s T) m) →
    ∃ lanes : Mask, exec i s = .next (s.takeTrap k 0 { code := BitVec.ofNat 8 (0x40 + j), mask := some lanes }) ∧
      ∀ n < 1024, lanes.getLsbD n = true ↔ (n ∈ T.active ∧ causeOf j (g s T n).2 = true))

/-! ### Float functions -/

namespace Sys2Proof.Claims

/-- A float format (R143 to R145): its mantissa width, its bias, its sign bit's place, its largest finite magnitude, and the
magnitudes of its infinity and of its canonical NaN, where it has them. -/
structure Layout where
  mant : Nat
  bias : Nat
  sign : Nat
  top : Nat
  inf : Option Nat
  nan : Option Nat

/-- FP32, and the narrow formats of the table of R143. -/
def single : Layout := ⟨23, 127, 31, 0x7F7FFFFF, some 0x7F800000, some 0x7FC00000⟩
def narrow : Fmt → Option Layout
  | .bf16 => some ⟨7, 127, 15, 0x7F7F, some 0x7F80, some 0x7FC0⟩
  | .f16 => some ⟨10, 15, 15, 0x7BFF, some 0x7C00, some 0x7E00⟩
  | .e4m3 => some ⟨3, 7, 7, 0x7E, none, some 0x7F⟩
  | .e5m2 => some ⟨2, 15, 7, 0x7B, some 0x7C, some 0x7E⟩
  | .e2m3 => some ⟨3, 1, 5, 0x1F, none, none⟩
  | .e3m2 => some ⟨2, 3, 5, 0x1F, none, none⟩
  | .e2m1 => some ⟨1, 1, 3, 0x7, none, none⟩
  | _ => none

/-- A code's magnitude and sign; a code with a sign. -/
def Layout.mag (L : Layout) (c : Nat) : Nat := c % 2 ^ L.sign
def Layout.neg (L : Layout) (c : Nat) : Bool := decide (c / 2 ^ L.sign % 2 = 1)
def Layout.code (L : Layout) (neg : Bool) (m : Nat) : Nat := if neg then 2 ^ L.sign + m else m

/-- Finite, infinite, NaN and signalling codes. -/
abbrev Layout.Finite (L : Layout) (c : Nat) : Prop := L.mag c ≤ L.top
abbrev Layout.Infinite (L : Layout) (c : Nat) : Prop := L.inf = some (L.mag c)
abbrev Layout.Nan (L : Layout) (c : Nat) : Prop := L.top < L.mag c ∧ L.inf ≠ some (L.mag c)
abbrev Layout.Signals (L : Layout) (c : Nat) : Prop := L.Nan c ∧ 15 ≤ L.sign ∧ c / 2 ^ (L.mant - 1) % 2 = 0

/-- The value of a magnitude in units of the smallest subnormal, 2^−unit, its exponent taken as unbounded above; and of a code. -/
def Layout.size (L : Layout) (m : Nat) : Nat :=
  if m / 2 ^ L.mant = 0 then m else (2 ^ L.mant + m % 2 ^ L.mant) * 2 ^ (m / 2 ^ L.mant - 1)
def Layout.unit (L : Layout) : Nat := L.bias + L.mant - 1
def Layout.num (L : Layout) (c : Nat) : Int := if L.neg c then -(L.size (L.mag c) : Int) else L.size (L.mag c)

/-- The magnitude v, of a value of that sign, rounds to step m of a scale (R148, R149). -/
def RoundsOn (size : Nat → Nat) (r : Rm) (neg : Bool) (v : ℝ) (draw m : Nat) : Prop :=
  let below : Prop := (size m : ℝ) ≤ v ∧ v < size (m + 1)
  let above : Prop := v ≤ size m ∧ ∀ n < m, (size n : ℝ) < v
  match r with
  | .rn => ∀ n, |v - size m| ≤ |v - size n| ∧ (|v - size m| = |v - size n| → n ≠ m → m % 2 = 0)
  | .rz => below
  | .rp => if neg then below else above
  | .rm => if neg then above else below
  | .rs => ∃ k : Nat, (size k : ℝ) ≤ v ∧ v < size (k + 1) ∧
      m = if 2 ^ 16 ≤ ⌊(v - size k) / (size (k + 1) - size k) * 2 ^ 16⌋ + (draw : Int) then k + 1 else k

/-- What an overflow gives (R150). -/
def overflowOf (L : Layout) (r : Rm) (t : Sat) (neg : Bool) : Nat × FFlags :=
  if (t = .sat ∨ (t = .dflt ∧ L.inf = none)) ∨ ¬(r = .rn ∨ (r = .rp ∧ neg = false) ∨ (r = .rm ∧ neg = true)) then
    (L.code neg L.top, { nx := true })
  else (match L.inf with | some i => L.code neg i | none => L.nan.getD 0, { of := true, nx := true })

/-- The result of the magnitude v, in the format's units, of a value of that sign, rounded once (R148 to R152). -/
def Gives (L : Layout) (r : Rm) (t : Sat) (neg : Bool) (v : ℝ) (draw : Nat) (x : Nat × FFlags) : Prop :=
  ∃ m, RoundsOn L.size r neg v draw m ∧ (L.top < m → x = overflowOf L r t neg) ∧
    (m ≤ L.top → x.1 = L.code neg m ∧ x.2 = { uf := x.2.uf, nx := x.2.nx } ∧ (x.2.nx = true ↔ v ≠ L.size m) ∧
      (x.2.uf = true ↔ x.2.nx = true ∧ m ≠ 0 ∧ m < 2 ^ L.mant))

/-- The canonical NaN, with IV or without, and no other flag. -/
def Quiets (nan : Nat) (x : Nat × FFlags) (iv : Prop) : Prop := x.1 = nan ∧ x.2 = { iv := x.2.iv } ∧ (x.2.iv = true ↔ iv)

/-- An FP32 number's magnitude in units of 2^−149; and whether its sign bit is 1. -/
def abs32 (a : Word) : Nat := (fixed32 a).natAbs
def neg32 (a : Word) : Bool := decide (2 ^ 31 ≤ a.toNat)

end Sys2Proof.Claims

/-- R158, R159, R166: frcp, frsq and fsqrt of a finite number are the exact value rounded once, and each of the five
functions gives its special operands what the table says; frnd gives the integer that the mode selects, with the
operand's sign; fclass sets the bit of the class; fscl scales by the power of two, rounded once. Clauses that rest on
the model's own readings: log 27. -/
def Obligations.FloatFunctions : Prop :=
  ((∀ (a : Word) (r : Rm), r ≠ .rs → finite32 a → fixed32 a ≠ 0 →
    Gives single r .dflt (neg32 a) (2 ^ 298 / (abs32 a : ℝ)) 0 (func1 .rcp a r) ∧
    (neg32 a = false → Gives single r .dflt false (Real.sqrt (2 ^ 447 / (abs32 a : ℝ))) 0 (func1 .rsq a r) ∧
      Gives single r .dflt false (Real.sqrt (2 ^ 149 * (abs32 a : ℝ))) 0 (func1 .sqrt a r)) ∧
    (neg32 a = true → ∀ g ∈ [Fun1.rsq, .sqrt, .log2], func1 g a r = (0x7FC00000, { iv := true }))) ∧
  (∀ r : Rm,
    func1 .rcp 0 r = (0x7F800000, { dz := true }) ∧ func1 .rcp 0x80000000 r = (0xFF800000, { dz := true }) ∧
    func1 .rsq 0 r = (0x7F800000, { dz := true }) ∧ func1 .rsq 0x80000000 r = (0xFF800000, { dz := true }) ∧
    func1 .sqrt 0 r = (0, {}) ∧ func1 .sqrt 0x80000000 r = (0x80000000, {}) ∧
    func1 .exp2 0 r = (0x3F800000, {}) ∧ func1 .exp2 0x80000000 r = (0x3F800000, {}) ∧
    func1 .log2 0 r = (0xFF800000, { dz := true }) ∧ func1 .log2 0x80000000 r = (0xFF800000, { dz := true }) ∧
    func1 .rcp 0x7F800000 r = (0, {}) ∧ func1 .rcp 0xFF800000 r = (0x80000000, {}) ∧ func1 .rsq 0x7F800000 r = (0, {}) ∧
    func1 .exp2 0x7F800000 r = (0x7F800000, {}) ∧ func1 .exp2 0xFF800000 r = (0, {}) ∧
    func1 .sqrt 0x7F800000 r = (0x7F800000, {}) ∧ func1 .log2 0x7F800000 r = (0x7F800000, {}) ∧
    (∀ g ∈ [Fun1.rsq, .sqrt, .log2], func1 g 0xFF800000 r = (0x7FC00000, { iv := true })) ∧
    ∀ g a, isNan32 a → Quiets 0x7FC00000 (func1 g a r) (isSnan32 a))) ∧
  (∀ (a : Word) (r : Rm), r ≠ .rs →
    (finite32 a → ∃ m x, RoundsOn id r (neg32 a) ((abs32 a : ℝ) / 2 ^ 149) 0 m ∧ fround a r = (x, {}) ∧ x < 2 ^ 32 ∧
      finite32 (BitVec.ofNat 32 x) ∧ neg32 (BitVec.ofNat 32 x) = neg32 a ∧ abs32 (BitVec.ofNat 32 x) = m * 2 ^ 149) ∧
    (isNan32 a → Quiets 0x7FC00000 (fround a r) (isSnan32 a)) ∧ (¬finite32 a → ¬isNan32 a → fround a r = (a.toNat, {}))) ∧
  (∀ a : Word, let m := a.toNat % 2 ^ 31
    fclassBit a = if isSnan32 a then 8 else if isNan32 a then 9 else if m = 0 then (if neg32 a then 3 else 4)
      else if m < 0x00800000 then (if neg32 a then 2 else 5) else if m < 0x7F800000 then (if neg32 a then 1 else 6)
      else if neg32 a then 0 else 7) ∧
  (∀ (a b : Word) (r : Rm), r ≠ .rs →
    (b.toNat % 256 = 255 → fscale a b r = (0x7FC00000, { iv := true })) ∧
    (b.toNat % 256 ≠ 255 →
      (finite32 a → Gives single r .dflt (neg32 a) ((abs32 a : ℝ) * 2 ^ (b.toNat % 256) / 2 ^ 127) 0 (fscale a b r)) ∧
      (isNan32 a → Quiets 0x7FC00000 (fscale a b r) (isSnan32 a)) ∧
      (¬finite32 a → ¬isNan32 a → fscale a b r = (a.toNat, {}))))

/-- R143, R148, R150, R155 to R157: sums, products and multiply-adds of finite numbers are the exact value rounded once,
as the mode says, and a sum that is exactly 0 is +0 but under .rm or of two −0; a NaN operand gives the canonical NaN;
fmin and fmax prefer the number, with −0 below +0; the relations of fcmp, and when each sets IV. Clauses that rest on
the model's own readings: log 29. -/
def Obligations.FloatCorners : Prop :=
  (∀ (a b c : Word) (r : Rm), r ≠ .rs → finite32 a → finite32 b → finite32 c →
    RoundsTo r (fixed32 a + fixed32 b) 0 (asWord (fF32.add a.toNat b.toNat r)) ∧
    RoundsTo r (fixed32 a - fixed32 b) 0 (asWord (fF32.sub a.toNat b.toNat r)) ∧
    RoundsTo r (fixed32 a * fixed32 b) 149 (asWord (fF32.mul a.toNat b.toNat r)) ∧
    RoundsTo r (fixed32 a * fixed32 b + fixed32 c * 2 ^ 149) 149 (asWord (fF32.fma a.toNat b.toNat c.toNat r)) ∧
    (fixed32 a + fixed32 b = 0 → (fF32.add a.toNat b.toNat r).1 =
      if r = .rm ∨ (a = 0x80000000 ∧ b = 0x80000000) then 0x80000000 else 0)) ∧
  (∀ (a b c : Word) (r : Rm), isNan32 a ∨ isNan32 b →
    (∀ x ∈ [fF32.add a.toNat b.toNat r, fF32.sub a.toNat b.toNat r, fF32.mul a.toNat b.toNat r,
        fF32.fma a.toNat b.toNat c.toNat r, fF32.fma c.toNat a.toNat b.toNat r],
      x.1 = 0x7FC00000 ∧ (isSnan32 a ∨ isSnan32 b → x.2.iv = true))) ∧
  (∀ a b : Word,
    (isNan32 a → isNan32 b → (fminmax false a b).1 = 0x7FC00000 ∧ (fminmax true a b).1 = 0x7FC00000) ∧
    (isNan32 a → ¬isNan32 b → (fminmax false a b).1 = b ∧ (fminmax true a b).1 = b) ∧
    (¬isNan32 a → isNan32 b → (fminmax false a b).1 = a ∧ (fminmax true a b).1 = a) ∧
    (¬isNan32 a → ¬isNan32 b →
      (order32 a < order32 b → (fminmax false a b).1 = a ∧ (fminmax true a b).1 = b) ∧
      (order32 b < order32 a → (fminmax false a b).1 = b ∧ (fminmax true a b).1 = a) ∧
      (order32 a = order32 b → a ≠ b → (fminmax false a b).1 = 0x80000000 ∧ (fminmax true a b).1 = 0) ∧
      (a = b → (fminmax false a b).1 = a ∧ (fminmax true a b).1 = a)) ∧
    (∀ m, (fminmax m a b).2 = { iv := (fminmax m a b).2.iv } ∧ ((fminmax m a b).2.iv = true ↔ isSnan32 a ∨ isSnan32 b))) ∧
  (∀ a b : Word,
    ((fcompare .un a b).1 = true ↔ isNan32 a ∨ isNan32 b) ∧ ((fcompare .ord a b).1 = true ↔ ¬(isNan32 a ∨ isNan32 b)) ∧
    ((fcompare .eq a b).1 = true ↔ ¬(isNan32 a ∨ isNan32 b) ∧ order32 a = order32 b) ∧
    ((fcompare .ne a b).1 = true ↔ isNan32 a ∨ isNan32 b ∨ order32 a ≠ order32 b) ∧
    ((fcompare .lt a b).1 = true ↔ ¬(isNan32 a ∨ isNan32 b) ∧ order32 a < order32 b) ∧
    ((fcompare .le a b).1 = true ↔ ¬(isNan32 a ∨ isNan32 b) ∧ order32 a ≤ order32 b) ∧
    ((fcompare .gt a b).1 = true ↔ ¬(isNan32 a ∨ isNan32 b) ∧ order32 a > order32 b) ∧
    ((fcompare .ge a b).1 = true ↔ ¬(isNan32 a ∨ isNan32 b) ∧ order32 a ≥ order32 b) ∧
    (∀ c ∈ [FCond.lt, .le, .gt, .ge], ((fcompare c a b).2.iv = true ↔ isNan32 a ∨ isNan32 b)) ∧
    (∀ c ∈ [FCond.eq, .ne, .un, .ord], ((fcompare c a b).2.iv = true ↔ isSnan32 a ∨ isSnan32 b)))

/-! ### Near memory -/

namespace Sys2Proof.Claims

/-- A lane's near address, (A + X) mod 2^32 (R106). -/
def nearAt (a : Src) (x : BitVec 21) (s : State) (T : Team) (n : Nat) : Word := s.word T n a.op + BitVec.ofInt 32 x.toInt

/-- A dense address: element k of the base, for the lane of rank k among the active lanes (R109). -/
def denseAt (a : Src) (x : BitVec 21) (size : Nat) (s : State) (T : Team) (n : Nat) : Word :=
  (s.uni T a.op).setWidth 32 + BitVec.ofInt 32 x.toInt + BitVec.ofNat 32 (size * (T.active.filter (fun m => decide (m < n))).length)

/-- The bytes of a size. -/
def bytesLd : LdSize → Nat | .b | .sb => 1 | .h | .sh => 2 | .w => 4 | .d => 8
def bytesSt : StSize → Nat | .b => 1 | .h => 2 | .w => 4 | .d => 8
def bytesWD : WD → Nat | .w => 4 | .d => 8

/-- A load of near memory: its destination and how many registers that is, its size, whether it extends the sign, and its lanes'
addresses (R107, R109). -/
inductive NearLoad : Instr → Opnd → Nat → Nat → Bool → (State → Team → Nat → Word) → Prop where
  | ld (z f) : NearLoad (.ld z f) f.d (if z = .d then 2 else 1) (bytesLd z) (decide (z = .sb ∨ z = .sh)) (nearAt f.a f.x)
  | ldq (f) : NearLoad (.ldq f) f.d 4 16 false (nearAt f.a f.x)
  | exld (z f) : NearLoad (.exld z f) f.d (if z = .d then 2 else 1) (bytesWD z) false (denseAt f.a f.x (bytesWD z))

/-- Four registers of a lane as 16 bytes (R107). -/
def quadOf (T : Team) (n : Nat) : Opnd → Nat
  | .v q => (T.regs.word n q).toNat + 2 ^ 32 * (T.regs.word n (q + 1)).toNat + 2 ^ 64 * (T.regs.word n (q + 2)).toNat +
      2 ^ 96 * (T.regs.word n (q + 3)).toNat
  | _ => 0

/-- A store to near memory: its size, and its lanes' addresses and values (R107, R109). -/
inductive NearStore : Instr → Nat → (State → Team → Nat → Word) → (State → Team → Nat → Nat) → Prop where
  | st (z f) : NearStore (.st z f) (bytesSt z) (nearAt f.a f.x)
      (fun s T n => if z = .d then (s.dword T n f.b.op).toNat else (s.word T n f.b.op).toNat)
  | stq (f) : NearStore (.stq f) 16 (nearAt f.a f.x) (fun _ T n => quadOf T n f.b.op)
  | cmpst (z f) : NearStore (.cmpst z f) (bytesWD z) (denseAt f.a f.x (bytesWD z))
      (fun s T n => if z = .d then (s.dword T n f.b.op).toNat else (s.word T n f.b.op).toNat)

/-- An element that has been checked and may land, of a block that lives, or of one that has ended while it held the grant that a
store was checked against: the event that lands its word `w`, at place `l` (R103, R111, R335). -/
structure Landing (s : State) (id n w : Nat) (r : Req) (e : Elem) (T : Team) (l : NearLoc) : Prop where
  req : s.reqs.get? id = some r
  team : s.team? r.team = some T
  lands : s.residentBlock T.block = true ∨ s.outlives T.block r e = true
  lane : n < 1024
  elem : r.flying? n = some e
  checked : e.st = .landing
  place : elemPlace (s.frame T) r.kind e = .ok l
  turn : s.nearFirst (s.frame T) id r e = true
  unit : w ∈ r.kind.units ∧ w ∉ e.landed
  clean : ∀ x ∈ r.elems, x.parkedCode = none

/-- The event that lands it. -/
def landEvent (id n w : Nat) : Instr := .window1ElementArrive id (n + 1024 * w)

/-- A request that reads near memory, or writes it, and its size. -/
inductive NearReads : ReqKind → Nat → Prop where
  | load (size sg) : NearReads (.load size sg) size
  | lds (core off size) : NearReads (.lds core off size) size
inductive NearWrites : ReqKind → Nat → Prop where
  | store (size) : NearWrites (.store size) size
  | sts (core off size) : NearWrites (.sts core off size) size

/-- The requests are as `t` has them, and grants of ended blocks may have gone; all else is as before (R103). -/
def OnlyReqs (s t : State) : Prop :=
  t = { s with reqs := t.reqs, grants := t.grants } ∧
    ∀ g ∈ s.grants, g ∈ t.grants ∨ ∀ x, s.block? g.block = some x → x.live = false

/-- The word, or of a wider load the dword, that a load's element reads (R127). -/
def sharedWord (l m : NearLoc) (size : Nat) : Prop :=
  ∃ c o o' w w', l = .spm c o w ∧ m = .spm c o' w' ∧ o / max 4 size = o' / max 4 size

/-- Where an element stands when it has issued: on its way to its core in window 1, checked otherwise (R102). -/
def issuedSt : NearLoc → ElemSt
  | .spm _ _ true => .transit
  | _ => .landing

/-- The destination's words are empty in the swept mask words, and every other flag is as before (R40). -/
def Emptied (T T' : Team) (d : Opnd) (count : Nat) : Prop :=
  ∀ v w, w < 32 → T'.regs.vflag v w =
    match d with
    | .v n => if n.val ≤ v ∧ v < n.val + count ∧ w ∈ T.swept then Flag.empty else T.regs.vflag v w
    | _ => T.regs.vflag v w

/-- Registers' values, s registers and handles are as before. -/
def SameValues (T T' : Team) : Prop :=
  (∀ n m, T'.regs.word n m = T.regs.word n m) ∧ T'.regs.sreg = T.regs.sreg ∧ T'.regs.sflag = T.regs.sflag ∧ T'.regs.h = T.regs.h

end Sys2Proof.Claims

/-- R40, R107, R109, R111 to R113, R127, R335: a near load issues whatever its addresses, its destination empty, and
changes no register value and no byte of memory; where no address is refused, its request holds each lane's element; and
an element that lands takes what memory then reads at its place, one of 16 bytes word by word, and with it the elements
of its pass that read the same word. Clauses that rest on the model's own readings: log 83 and 106. -/
def Obligations.NearLoads : Prop :=
  (∀ s k T i d c size sg addr, NearLoad i d c size sg addr → Ready s k T i → s.queueUse k < 8 →
    ∃ t T', exec i s = .next t ∧ t.team? k = some T' ∧ Past i T T' ∧ Emptied T T' d c ∧ SameValues T T' ∧ SameMemory s t) ∧
  (∀ s k T i (v : Fin 256) c size sg addr, NearLoad i (.v v) c size sg addr → Ready s k T i → s.queueUse k < 8 →
    (∀ n ∈ T.active, ∃ l, nearPlace (s.frame T) (some n) (addr s T n) size = .ok l) →
    ∃ t r, exec i s = .next t ∧ t.reqs.get? s.nextId = some r ∧ r.team = k ∧ r.kind = .load size sg ∧ r.dst = .v v c ∧
      r.words = T.swept ∧ r.elems.map (fun e => (e.lane, e.addr)) = T.active.map (fun n => (n, (addr s T n).setWidth 64)) ∧
      ∀ e ∈ r.elems, ∀ l, nearPlace (s.frame T) (some e.lane) (addr s T e.lane) size = .ok l → e.st = issuedSt l) ∧
  (∀ s id n w r e T l size, Landing s id n w r e T l → NearReads r.kind size → r.words ≠ [] →
    ∃ t r', exec (landEvent id n w) s = .next t ∧ OnlyReqs s t ∧ t.reqs.get? id = some r' ∧
      r'.words = r.words ∧ ∃ e' ∈ r'.elems, e'.lane = n ∧
        (size ≠ 16 → e'.got = BitVec.ofNat 128 (s.nearRead r.team l size) ∧
          e'.st = if s.nearPoisoned l size then .poisoned else .done) ∧
        (size = 16 → e'.got = e.got ||| (BitVec.ofNat 128 (s.nearRead r.team (l.plus (4 * w)) 4) <<< (32 * w)) ∧
          e'.landed = w :: e.landed)) ∧
  (∀ s id n w r e T l size sg x m, Landing s id n w r e T l → r.kind = .load size sg → size ≠ 16 → r.words ≠ [] →
    (r.elems.map Elem.lane).Nodup → x ∈ r.elems → x.lane ≠ n → x.lane / 32 = n / 32 → x.st = .landing →
    x.landed = [] →
    elemPlace (s.frame T) r.kind x = .ok m → sharedWord l m size →
    ∃ t r', exec (landEvent id n w) s = .next t ∧ t.reqs.get? id = some r' ∧ ∃ x' ∈ r'.elems, x'.lane = x.lane ∧
      x'.got = BitVec.ofNat 128 (s.nearRead r.team m size) ∧ x'.st = if s.nearPoisoned m size then .poisoned else .done)

namespace Sys2Proof.Claims

/-- A request whose mask words return to v registers: a load, or an arld with its one register. -/
def Returning (r : Req) (c : Nat) : Prop :=
  (∃ size sg, r.kind = .load size sg ∧ r.arld = false) ∨ (r.kind = .value ∧ r.arld = true ∧ c = 1)

/-- The tag a lane's register takes when its data return: that of the input its arld made, if its region is not doomed (R313). -/
def returnTag (r : Req) (T : Team) (e : Elem) : Option Tag :=
  if r.arld = true ∧ e.exp ≠ 0 ∧ ∃ g, T.regionOf e.lane = some g ∧ g.doom = none then
    some (.val (Fin.ofNat 4 (e.exp.toNat - 1)) 0) else none

end Sys2Proof.Claims

/-- R41, R45, R312: data return to a load or an arld. The mask word's lanes that landed get their registers, extended as
the load says, and their tags; the word becomes full, or poisoned where an element met an error; the request awaits it
no more; and everything else is as before. -/
def Obligations.LoadReturns : Prop :=
  ∀ (s : State) id r k T w base c, s.reqs.get? id = some r → r.team = k → s.team? k = some T → Returning r c →
    r.dst = .v base c → base + c ≤ 256 → w < 32 → w ∈ r.words → (r.elems.map Elem.lane).Nodup →
    (∀ e ∈ r.elems, e.lane / 32 = w → e.settled = true) → s.returns r = true →
    ∃ t T', exec (.producerReturn id w) s = .next t ∧ t.team? k = some T' ∧ T' = { T with regs := T'.regs } ∧
      t = { s with teams := t.teams, reqs := t.reqs } ∧ (∀ j, j ≠ k → t.team? j = s.team? j) ∧
      (∀ j, j ≠ id → t.reqs.get? j = s.reqs.get? j) ∧
      (t.reqs.get? id = some { r with words := r.words.erase w } ∨
        t.reqs.get? id = none ∧ Req.idle { r with words := r.words.erase w } = true) ∧
      T'.regs.sreg = T.regs.sreg ∧ T'.regs.sflag = T.regs.sflag ∧ T'.regs.h = T.regs.h ∧
      (∀ e ∈ r.elems, e.lane / 32 = w → e.st = .done → ∀ j < c,
        T'.regs.word e.lane (base + j) = ((r.kind.extend e.got) >>> (32 * j)).setWidth 32 ∧
        T'.regs.tagOf e.lane (base + j) = returnTag r T e) ∧
      (∀ n m, m < 512 → ¬(n / 32 = w ∧ base ≤ m ∧ m < base + c ∧ ∃ e ∈ r.elems, e.lane = n ∧ e.st = .done) →
        T'.regs.word n m = T.regs.word n m) ∧
      (∀ n m, m < 512 → ¬(n / 32 = w ∧ base ≤ m ∧ m < base + c ∧ ∃ e ∈ r.elems, e.lane = n) →
        T'.regs.tagOf n m = T.regs.tagOf n m) ∧
      (∀ v x, x < 32 → T'.regs.vflag v x = if base ≤ v ∧ v < base + c ∧ x = w then
        (if ∃ e ∈ r.elems, e.lane / 32 = w ∧ e.st = .poisoned then Flag.poisoned else Flag.full) else T.regs.vflag v x)

/-- R103, R107, R109, R112, R335: a near store issues whatever its addresses, and changes no register and no byte of
memory; where no address is refused, its request holds each lane's element with its value; and an element that lands,
though its block has ended since the check, writes its bytes and no other, one of 16 bytes word by word. Clauses that
rest on the model's own readings: log 83 and 106. -/
def Obligations.NearStores : Prop :=
  (∀ s k T i size addr val, NearStore i size addr val → Ready s k T i → s.queueUse k < 8 →
    ∃ t T', exec i s = .next t ∧ t.team? k = some T' ∧ Past i T T' ∧ T'.regs = T.regs ∧ SameMemory s t) ∧
  (∀ s k T i size addr val, NearStore i size addr val → Ready s k T i → s.queueUse k < 8 → T.active ≠ [] →
    (∀ n ∈ T.active, ∃ l, nearPlace (s.frame T) (some n) (addr s T n) size = .ok l) →
    ∃ t r, exec i s = .next t ∧ t.reqs.get? s.nextId = some r ∧ r.team = k ∧ r.kind = .store size ∧ r.dst = .none ∧
      r.elems.map (fun e => (e.lane, e.addr)) = T.active.map (fun n => (n, (addr s T n).setWidth 64)) ∧
      ∀ e ∈ r.elems, e.val.toNat % 256 ^ size = val s T e.lane % 256 ^ size ∧
        ∀ l, nearPlace (s.frame T) (some e.lane) (addr s T e.lane) size = .ok l → e.st = issuedSt l) ∧
  (∀ s id n w r e T l size, Landing s id n w r e T l → NearWrites r.kind size →
    let bytes := if size = 16 then 4 else size
    let value := e.val.toNat / 2 ^ (32 * w) % 256 ^ bytes
    ∃ t, exec (landEvent id n w) s = .next t ∧ t.dram = s.dram ∧ t.host = s.host ∧
      match l with
      | .spm core off _ => t.teams = s.teams ∧ Memory.read t.spm (spmKey core off + 4 * w) bytes = value ∧
          ∀ a, a < spmKey core off + 4 * w ∨ spmKey core off + 4 * w + bytes ≤ a → Memory.byte t.spm a = Memory.byte s.spm a
      | .priv lane off => t.spm = s.spm ∧ ∃ T', t.team? r.team = some T' ∧ T' = { T with privMem := T'.privMem } ∧
          Memory.read T'.privMem (privKey lane off + 4 * w) bytes = value ∧
          ∀ a, a < privKey lane off + 4 * w ∨ privKey lane off + 4 * w + bytes ≤ a →
            Memory.byte T'.privMem a = Memory.byte T.privMem a)

/-- R47, R108, R110: lds and sts go to one word or dword of a core for the team, and change nothing else as they issue
(their elements land as those of loads and stores do); a fault of either is a precise trap with the element's code; spl
writes each active lane's slot and no other, and fil reads it; a slot index at or beyond the spill area in any active
lane is the precise trap 0x13. Clauses that rest on the model's own readings: log 20 and 22. -/
def Obligations.UniformAccessesAndSpills : Prop :=
  ((∀ s k T z f core off w1 (q : Fin 192), Ready s k T (.lds z f) → f.d = .s q →
    s.nearCheck (s.frame T) none ((s.uni T f.a.op).setWidth 32 + BitVec.ofInt 32 f.x.toInt) (bytesWD z) = .ok (.spm core off w1) →
    ∃ t T' r e, exec (.lds z f) s = .next t ∧ t.team? k = some T' ∧ Past (.lds z f) T T' ∧
      (∀ m, T'.regs.sflg m = if m = q.val then .empty else T.regs.sflg m) ∧ T'.regs.lane = T.regs.lane ∧ T'.regs.sreg = T.regs.sreg ∧
      t.reqs.get? s.nextId = some r ∧ r.team = k ∧ r.kind = .lds core off (bytesWD z) ∧ r.dst = .s q ∧ r.words ≠ [] ∧
      r.elems = [e] ∧ e.st = .landing ∧ SameMemory s t) ∧
  (∀ s k T z f l, Ready s k T (.lds z f) → f.d.sNum = none →
    s.nearCheck (s.frame T) none ((s.uni T f.a.op).setWidth 32 + BitVec.ofInt 32 f.x.toInt) (bytesWD z) = .ok l →
    ∃ t T', exec (.lds z f) s = .next t ∧ t.team? k = some T' ∧ Past (.lds z f) T T' ∧ T'.regs = T.regs ∧ SameMemory s t) ∧
  (∀ s k T z f core off w1, Ready s k T (.sts z f) →
    s.nearCheck (s.frame T) none ((s.uni T f.a.op).setWidth 32 + BitVec.ofInt 32 f.x.toInt) (bytesWD z) = .ok (.spm core off w1) →
    ∃ t T' r e, exec (.sts z f) s = .next t ∧ t.team? k = some T' ∧ Past (.sts z f) T T' ∧ T'.regs = T.regs ∧ SameMemory s t ∧
      t.reqs.get? s.nextId = some r ∧ r.team = k ∧ r.kind = .sts core off (bytesWD z) ∧ r.elems = [e] ∧ e.st = .landing ∧
      e.val = (s.uni T f.b.op).setWidth 128) ∧
  (∀ s k T z f c, Ready s k T (.lds z f) →
    s.nearCheck (s.frame T) none ((s.uni T f.a.op).setWidth 32 + BitVec.ofInt 32 f.x.toInt) (bytesWD z) = .error c →
    ∃ tr : Trap, tr.code = c ∧ tr.mask = none ∧ exec (.lds z f) s = .next (s.takeTrap k 0 tr)) ∧
  (∀ s k T z f c, Ready s k T (.sts z f) →
    s.nearCheck (s.frame T) none ((s.uni T f.a.op).setWidth 32 + BitVec.ofInt 32 f.x.toInt) (bytesWD z) = .error c →
    ∃ tr : Trap, tr.code = c ∧ tr.mask = none ∧ exec (.sts z f) s = .next (s.takeTrap k 0 tr))) ∧
  ((∀ s k T f, Ready s k T (.spl f) → T.spill ≤ 256 → (∀ n ∈ T.active, (s.word T n f.a.op).toNat < T.spill) →
    ∃ t T', exec (.spl f) s = .next t ∧ t.team? k = some T' ∧ Past (.spl f) T T' ∧ T'.regs = T.regs ∧ SameMemory s t ∧
      (∀ n ∈ T.active, Sparse.get 0 T'.slots (slotKey n (s.word T n f.a.op).toNat) = s.word T n f.b.op) ∧
      ∀ a, (∀ n ∈ T.active, a ≠ slotKey n (s.word T n f.a.op).toNat) → Sparse.get 0 T'.slots a = Sparse.get 0 T.slots a) ∧
  (∀ s k T f (v : Fin 256), Ready s k T (.fil f) → f.d = .v v → (∀ n ∈ T.active, (s.word T n f.a.op).toNat < T.spill) →
    ∃ t T' r, exec (.fil f) s = .next t ∧ t.team? k = some T' ∧ Past (.fil f) T T' ∧ Emptied T T' f.d 1 ∧ SameValues T T' ∧
      SameMemory s t ∧ t.reqs.get? s.nextId = some r ∧ r.dst = .v v 1 ∧ r.words = T.swept ∧
      r.elems.map (fun e => (e.lane, e.got)) =
        T.active.map (fun n => (n, (Sparse.get 0 T.slots (slotKey n (s.word T n f.a.op).toNat)).setWidth 128))) ∧
  (∀ s k T f, Ready s k T (.fil f) → (∀ v, f.d ≠ .v v) → (∀ n ∈ T.active, (s.word T n f.a.op).toNat < T.spill) →
    ∃ t T', exec (.fil f) s = .next t ∧ t.team? k = some T' ∧ Past (.fil f) T T' ∧ T'.regs = T.regs ∧ SameMemory s t) ∧
  (∀ s k T i a, (∃ f, i = .spl f ∧ a = f.a.op) ∨ (∃ f, i = .fil f ∧ a = f.a.op) → Ready s k T i →
    (∃ n ∈ T.active, T.spill ≤ (s.word T n a).toNat) → exec i s = .next (s.takeTrap k 0 { code := 0x13 })))

/-! ### Float conversions -/

namespace Sys2Proof.Claims

/-- The bits of an integer format, and whether it is signed (R147). -/
def wholes : Fmt → Option (Nat × Bool)
  | .s32 => some (32, true) | .u32 => some (32, false) | .s8 => some (8, true) | .s4 => some (4, true)
  | _ => none

/-- The bits an element of a packed format takes in a word (R147). -/
def slotBits : Fmt → Option Nat
  | .bf16 | .f16 => some 16
  | .e4m3 | .e5m2 | .e2m3 | .e3m2 | .s8 => some 8
  | .e2m1 | .s4 => some 4
  | _ => none

/-- Element j of a word, in w bits. -/
def elemOf (w : Nat) (a : Word) (j : Nat) : Nat := a.toNat / 2 ^ (w * j) % 2 ^ w

end Sys2Proof.Claims

/-- R146 to R151, R160 to R163: a conversion to a narrow format rounds once, stochastically with its draw under .rs, and
overflows and treats special operands as the tables say; to an integer it rounds and clamps, with IV; to e8m0 it gives a
power of two; conversions to FP32 are exact where they can be; fpack places an element and changes no other bit, and
funpack converts the element it names. Clauses that rest on the model's own readings: log 28. -/
def Obligations.FloatConversions : Prop :=
  ((∀ m L (a : Word) r t draw, narrow m = some L → (t = .nosat → L.nan.isSome = true) → draw < 2 ^ 16 →
    let x := fromF32 m a r t draw
    x.1.toNat < 2 ^ (L.sign + 1) ∧
    (finite32 a → Gives L r t (neg32 a) ((abs32 a : ℝ) * 2 ^ L.unit / 2 ^ 149) draw (x.1.toNat, x.2)) ∧
    (isNan32 a → Quiets (L.nan.getD 0) (x.1.toNat, x.2) (isSnan32 a ∨ L.nan = none)) ∧
    (¬finite32 a → ¬isNan32 a →
      (∀ i, L.inf = some i → t ≠ .sat → x.1.toNat = L.code (neg32 a) i ∧ x.2 = {}) ∧
      (∀ c, L.inf = none → L.nan = some c → t = .nosat → x.1.toNat = c ∧ x.2 = {}) ∧
      (t = .sat ∨ (L.inf = none ∧ t = .dflt) → x.1.toNat = L.code (neg32 a) L.top ∧ x.2 = { iv := true }))) ∧
  (∀ m w sg (a : Word) r t draw, wholes m = some (w, sg) → r ≠ .rs →
    let x := fromF32 m a r t draw
    let lo : Int := if sg then -2 ^ (w - 1) else 0
    let hi : Int := if sg then 2 ^ (w - 1) - 1 else 2 ^ w - 1
    (isNan32 a → x = (0, { iv := true })) ∧
    (¬finite32 a → ¬isNan32 a → x = (BitVec.ofInt 32 (if neg32 a then lo else hi), { iv := true })) ∧
    (finite32 a → ∃ k : Nat, RoundsOn id r (neg32 a) ((abs32 a : ℝ) / 2 ^ 149) 0 k ∧
      let v : Int := if neg32 a then -k else k
      (v < lo → x = (BitVec.ofInt 32 lo, { iv := true })) ∧ (hi < v → x = (BitVec.ofInt 32 hi, { iv := true })) ∧
      (lo ≤ v → v ≤ hi → x.1 = BitVec.ofInt 32 v ∧ x.2 = { nx := x.2.nx } ∧ (x.2.nx = true ↔ (abs32 a : ℝ) / 2 ^ 149 ≠ k)))) ∧
  (∀ (a : Word) r t draw, r ≠ .rs →
    let x := fromF32 .e8m0 a r t draw
    (isNan32 a → x.1 = 0xFF ∧ x.2 = { iv := x.2.iv } ∧ (x.2.iv = true ↔ isSnan32 a)) ∧
    (¬finite32 a → ¬isNan32 a → x = (0xFE, { iv := true })) ∧ (abs32 a = 0 → x = (0, {})) ∧
    (finite32 a → abs32 a ≠ 0 → ∃ n : Nat, RoundsOn (fun j => 2 ^ j) r false (abs32 a) 0 n ∧
      (x.1.toNat : Int) = max 0 (min 254 ((n : Int) - 22)) ∧ x.2 = { nx := x.2.nx } ∧
      (x.2.nx = true ↔ abs32 a ≠ 2 ^ n ∨ (n : Int) - 22 < 0 ∨ 254 < (n : Int) - 22)))) ∧
  (∀ m L (a : Word) r, narrow m = some L → r ≠ .rs →
    let c := a.toNat % 2 ^ (L.sign + 1)
    let x := toF32 m a r
    (L.Finite c → x.1 < 2 ^ 32 ∧ finite32 (BitVec.ofNat 32 x.1) ∧ neg32 (BitVec.ofNat 32 x.1) = L.neg c ∧
      abs32 (BitVec.ofNat 32 x.1) * 2 ^ L.unit = L.size (L.mag c) * 2 ^ 149 ∧ x.2 = {}) ∧
    (L.Infinite c → x = (if L.neg c then 0xFF800000 else 0x7F800000, {})) ∧ (L.Nan c → Quiets 0x7FC00000 x (L.Signals c))) ∧
  (∀ (a : Word) r, r ≠ .rs → (a.toNat % 256 = 255 → toF32 .e8m0 a r = (0x7FC00000, {})) ∧
    (a.toNat % 256 ≠ 255 → ∃ x, toF32 .e8m0 a r = (x, {}) ∧ x < 2 ^ 31 ∧ abs32 (BitVec.ofNat 32 x) = 2 ^ (a.toNat % 256 + 22))) ∧
  (∀ m w sg (a : Word) r, wholes m = some (w, sg) → r ≠ .rs →
    let v : Int := if sg then (BitVec.ofNat w a.toNat).toInt else (BitVec.ofNat w a.toNat).toNat
    Gives single r .dflt (decide (v < 0)) ((v.natAbs : ℝ) * 2 ^ 149) 0 (toF32 m a r)) ∧
  (∀ m n (w x : Word) k, slotBits m = some n → n * (k + 1) ≤ 32 →
    (∀ j < 32, (putElement m w k x).getLsbD j = if n * k ≤ j ∧ j < n * (k + 1) then x.getLsbD (j - n * k) else w.getLsbD j) ∧
    unpackElement m w k = toF32 m (BitVec.ofNat 32 (elemOf n w k)) .rn)

namespace Sys2Proof.Claims

/-- The run of granules that an lsget or an lsret names in its grantee's frame: its core and its first granule (R104). -/
def runCore (x : Block) (a : Word) : Nat := 16 * clusterOf (x.quarters.headD 0) + a.toNat / 2 ^ 24 % 16
def runFirst (x : Block) (a : Word) : Nat := (x.p + a.toNat % 2 ^ 20) / 64

/-- A is a window 1 address (R101). -/
def isWindow1 (a : Word) : Prop := a.toNat / 2 ^ 28 = 1 ∧ a.toNat / 2 ^ 20 % 16 = 0

/-- The entries a cluster has in a list of grants. -/
def entriesOf (cluster : Nat) (gs : List Grant) : Nat := (gs.filter (fun g => g.cluster == cluster)).length

/-- The status of an lsget of N + 1 granules, and the grants it leaves (R103, R104). -/
inductive GetRule (s : State) (T : Team) (a : Word) (who : Option (Nat × Block)) (n : Nat) : Nat → List Grant → Prop where
  | address : ¬isWindow1 a → GetRule s T a who n 1 s.grants
  | grantee : isWindow1 a → who = none → GetRule s T a who n 4 s.grants
  | reach (b x) : isWindow1 a → who = some (b, x) → 0x100000 < 64 * (runFirst x a + (n + 1)) → GetRule s T a who n 1 s.grants
  | outside (b x) : isWindow1 a → who = some (b, x) → 64 * (runFirst x a + (n + 1)) ≤ 0x100000 →
      (∃ j ≤ n, s.granuleOwned (s.tenantIdOf T) (runCore x a) (runFirst x a + j) = false) → GetRule s T a who n 2 s.grants
  | held (b x) : isWindow1 a → who = some (b, x) → 64 * (runFirst x a + (n + 1)) ≤ 0x100000 →
      (∀ j ≤ n, s.granuleOwned (s.tenantIdOf T) (runCore x a) (runFirst x a + j) = true) →
      (∀ j ≤ n, s.leased b (runCore x a) (runFirst x a + j) = true ∨
        (x.frame b (runCore x a) 0).always (runCore x a) (runFirst x a + j) = true) → GetRule s T a who n 0 s.grants
  | full (b x) : isWindow1 a → who = some (b, x) → 64 * (runFirst x a + (n + 1)) ≤ 0x100000 →
      (∀ j ≤ n, s.granuleOwned (s.tenantIdOf T) (runCore x a) (runFirst x a + j) = true) →
      (∃ j ≤ n, s.leased b (runCore x a) (runFirst x a + j) = false ∧
        (x.frame b (runCore x a) 0).always (runCore x a) (runFirst x a + j) = false) →
      512 ≤ entriesOf (clusterOfCore (runCore x a)) s.grants → GetRule s T a who n 3 s.grants
  | granted (b x) : isWindow1 a → who = some (b, x) → 64 * (runFirst x a + (n + 1)) ≤ 0x100000 →
      (∀ j ≤ n, s.granuleOwned (s.tenantIdOf T) (runCore x a) (runFirst x a + j) = true) →
      (∃ j ≤ n, s.leased b (runCore x a) (runFirst x a + j) = false ∧
        (x.frame b (runCore x a) 0).always (runCore x a) (runFirst x a + j) = false) →
      entriesOf (clusterOfCore (runCore x a)) s.grants < 512 →
      GetRule s T a who n 0 (s.grants ++ [⟨clusterOfCore (runCore x a), b, runCore x a, runFirst x a, n + 1⟩])

/-- The grants without a run of a block's granules: those that lie in it are gone, and every other one is left, in entries of
the same cluster, block and core. -/
def Returned (b core first n : Nat) (gs gs' : List Grant) : Prop :=
  ∀ b' c g, (gs'.any (fun e => e.block == b' && e.core == c && decide (e.first ≤ g) && decide (g < e.first + e.run)) = true ↔
    (gs.any (fun e => e.block == b' && e.core == c && decide (e.first ≤ g) && decide (g < e.first + e.run)) = true ∧
      ¬(b' = b ∧ c = core ∧ first ≤ g ∧ g ≤ first + n)))

/-- The status of an lsret of N + 1 granules, and the grants it leaves (R103, R104). -/
inductive ReturnRule (s : State) (T : Team) (a : Word) (who : Option (Nat × Block)) (n : Nat) : Nat → List Grant → Prop where
  | address : ¬isWindow1 a → ReturnRule s T a who n 1 s.grants
  | grantee : isWindow1 a → who = none → ReturnRule s T a who n 4 s.grants
  | reach (b x) : isWindow1 a → who = some (b, x) → 0x100000 < 64 * (runFirst x a + (n + 1)) → ReturnRule s T a who n 1 s.grants
  | outside (b x) : isWindow1 a → who = some (b, x) → 64 * (runFirst x a + (n + 1)) ≤ 0x100000 →
      (∃ j ≤ n, s.granuleOwned (s.tenantIdOf T) (runCore x a) (runFirst x a + j) = false) → ReturnRule s T a who n 2 s.grants
  | ungranted (b x) : isWindow1 a → who = some (b, x) → 64 * (runFirst x a + (n + 1)) ≤ 0x100000 →
      (∀ j ≤ n, s.granuleOwned (s.tenantIdOf T) (runCore x a) (runFirst x a + j) = true) →
      (∃ j ≤ n, s.leased b (runCore x a) (runFirst x a + j) = false) → ReturnRule s T a who n 5 s.grants
  | full (b x) (gs) : isWindow1 a → who = some (b, x) → 64 * (runFirst x a + (n + 1)) ≤ 0x100000 →
      (∀ j ≤ n, s.granuleOwned (s.tenantIdOf T) (runCore x a) (runFirst x a + j) = true) →
      (∀ j ≤ n, s.leased b (runCore x a) (runFirst x a + j) = true) → gs = s.cutGrants b (runCore x a) (runFirst x a) (n + 1) →
      512 < entriesOf (clusterOfCore (runCore x a)) gs → ReturnRule s T a who n 3 s.grants
  | returned (b x) (gs) : isWindow1 a → who = some (b, x) → 64 * (runFirst x a + (n + 1)) ≤ 0x100000 →
      (∀ j ≤ n, s.granuleOwned (s.tenantIdOf T) (runCore x a) (runFirst x a + j) = true) →
      (∀ j ≤ n, s.leased b (runCore x a) (runFirst x a + j) = true) → gs = s.cutGrants b (runCore x a) (runFirst x a) (n + 1) →
      entriesOf (clusterOfCore (runCore x a)) gs ≤ 512 → Returned b (runCore x a) (runFirst x a) n s.grants gs →
      ReturnRule s T a who n 0 gs

/-- An instruction of the grant table completes with a status: D takes it, and of the machine only the grants may change. -/
def Answers (i : Instr) (d : Opnd) (s : State) (k : Nat) (T : Team) (P : Nat → List Grant → Prop) : Prop :=
  ∃ t T' st, exec i s = .next t ∧ t = { s with teams := t.teams, grants := t.grants } ∧ t.team? k = some T' ∧ Past i T T' ∧
    (∀ j, j ≠ k → t.team? j = s.team? j) ∧ T' = { T with regs := T'.regs, ctl := T'.ctl, region := T'.region } ∧
    (∀ m, T'.regs.s m = if d.sNum = some m then BitVec.ofNat 64 st else T.regs.s m) ∧ T'.regs.lane = T.regs.lane ∧
    P st t.grants

end Sys2Proof.Claims

/-- R103, R104: lsget and lsret complete on all operands, with the status that the first of R104's conditions gives, in
its order: A no window 1 address, no live grantee, the run beyond the core, outside the partition, not granted, no room;
with 0 the table has the grant, or no longer has it, and with any other status it is as it was; an lsret waits while an
access checked against its run has not landed. The grantee is the issuing block, or a live block of the tenant. Clauses
that rest on the model's own readings: log 16, 17, 18, 124 and 125. -/
def Obligations.ClusterGrants : Prop :=
  (∀ s k T n f, Ready s k T (.lsget n f) →
    Answers (.lsget n f) f.d s k T (GetRule s T ((s.uni T f.a.op).setWidth 32) (s.grantee T f.b.op) n.toNat)) ∧
  (∀ s k T n f, Ready s k T (.lsret n f) → s.returnWaits T (s.uni T f.a.op) f.b.op (n.toNat + 1) = false →
    Answers (.lsret n f) f.d s k T (ReturnRule s T ((s.uni T f.a.op).setWidth 32) (s.grantee T f.b.op) n.toNat)) ∧
  (∀ s k T n f, Ready s k T (.lsret n f) → s.returnWaits T (s.uni T f.a.op) f.b.op (n.toNat + 1) = true →
    exec (.lsret n f) s = .next { s with cur := .none }) ∧
  (∀ (s : State) T x, s.block? T.block = some x → s.grantee T .zero = some (T.block, x)) ∧
  (∀ (s : State) T o b x, o ≠ .zero → s.grantee T o = some (b, x) → x.live = true ∧ x.index = (s.uni T o).toNat % 2 ^ 32 ∧
    ∃ g, s.grid? x.grid = some g ∧ g.tenant = s.tenantIdOf T ∧ g.number = (s.uni T o).toNat / 2 ^ 40 % 2 ^ 24)

/-! ### Control -/

namespace Sys2Proof.Claims

/-- A control instruction has completed: it leaves this pc, path, exited lanes and stacks, and of its team and of the machine it
changes nothing else but constraints in regions. -/
structure CtlDone (s : State) (k : Nat) (T : Team) (pc : DWord) (mask exited : Mask) (ds rs : CStack) (t : State) (T' : Team) :
    Prop where
  team : t.team? k = some T'
  pc : T'.ctl.pc = pc
  mask : T'.ctl.mask = mask
  exited : T'.ctl.exited = exited
  ds : T'.ctl.ds = ds
  rs : T'.ctl.rs = rs
  cover : T'.ctl.cover = T.ctl.cover
  rest : T' = { T with ctl := T'.ctl, region := T'.region }
  only : OnlyTeam s t k
  memory : SameMemory s t

/-- Completes with this control state. -/
def Leaves (i : Instr) (s : State) (k : Nat) (T : Team) (pc : DWord) (mask exited : Mask) (ds rs : CStack) : Prop :=
  ∃ t T', exec i s = .next t ∧ CtlDone s k T pc mask exited ds rs t T'

/-- A displacement target: the first word's address plus 4 × the displacement (R200). -/
def dest (T : Team) (off : BitVec 21) : DWord := T.ctl.pc + BitVec.ofInt 64 (4 * off.toInt)
/-- The next instruction. -/
def after (T : Team) (i : Instr) : DWord := T.ctl.pc + BitVec.ofNat 64 i.size

/-- The lanes of the path whose predicate's bit 0 is `bit`. -/
def lanesOf (s : State) (T : Team) (b : Opnd) (bit : Bool) : Mask :=
  Mask.ofLanes (T.active.filter (fun n => (s.word T n b).getLsbD 0 == bit))

/-- A pushed entry, with room among the 16 in hardware (R213). -/
def pushed (c : CStack) (e : Entry) : CStack := { c with hw := c.hw ++ [e] }

/-- The lanes of a mask. -/
def lanes (m : Mask) : Nat := Mask.count m

end Sys2Proof.Claims

/-- R200, R203, R207 to R209: jmp, brs and a yield with no counter above 0 move the whole path; nop moves past itself;
jmp.ind runs the lanes that share the lowest lane's target; brc goes on, goes to its target, or divides the path, as its
predicates say; call and call.ind push a return entry and go to their target; ret with the whole frame back at the
call's depth returns every lane that has arrived and has not exited, and with no return entry it is trap 0x60. -/
def Obligations.ControlTransfers : Prop :=
  (((∀ s k T f, Ready s k T (.jmp f) →
    Leaves (.jmp f) s k T (dest T f.off) T.ctl.mask T.ctl.exited T.ctl.ds T.ctl.rs) ∧
  (∀ s k T f, Ready s k T (.brsNz f) →
    Leaves (.brsNz f) s k T (if s.uni T f.b.op = 0 then after T (.brsNz f) else dest T f.off) T.ctl.mask T.ctl.exited
      T.ctl.ds T.ctl.rs) ∧
  (∀ s k T f, Ready s k T (.brsZ f) →
    Leaves (.brsZ f) s k T (if s.uni T f.b.op = 0 then dest T f.off else after T (.brsZ f)) T.ctl.mask T.ctl.exited
      T.ctl.ds T.ctl.rs) ∧
  (∀ s k T f, Ready s k T (.yield f) → T.inRegion = false → T.ctl.yield = .woken ∨ T.count = {} →
    Leaves (.yield f) s k T (dest T f.off) T.ctl.mask T.ctl.exited T.ctl.ds T.ctl.rs) ∧
  (∀ s k T, Ready s k T .nop → ∃ t T', exec .nop s = .next t ∧ t.team? k = some T' ∧ Past .nop T T' ∧ T'.regs = T.regs ∧
    T' = { T with ctl := T'.ctl, region := T'.region } ∧ OnlyTeam s t k ∧ SameMemory s t)) ∧
  ((∀ s k T f n ns, Ready s k T (.jmpInd f) → T.inRegion = false → T.active = n :: ns →
    (∀ m ∈ T.active, (s.dword T m f.a.op).toNat % 4 = 0) → T.active.length + T.ctl.ds.hw.length ≤ 16 →
    ∃ t T', exec (.jmpInd f) s = .next t ∧ t.team? k = some T' ∧ T'.ctl.pc = s.dword T n f.a.op ∧
      (∀ m < 1024, T'.ctl.mask.getLsbD m = true ↔ (m ∈ T.active ∧ s.dword T m f.a.op = s.dword T n f.a.op)) ∧
      T'.ctl.rs = T.ctl.rs ∧ T'.regs = T.regs ∧ OnlyTeam s t k ∧ SameMemory s t) ∧
  (∀ s k T f, Ready s k T (.jmpInd f) → T.inRegion = false → (∃ m ∈ T.active, (s.dword T m f.a.op).toNat % 4 ≠ 0) →
    exec (.jmpInd f) s = .next (s.takeTrap k 0 { code := 0x0A }))) ∧
  (∀ s k T f (inv : Bool) i, i = (if inv then Instr.brcF f else .brc f) → Ready s k T i → T.amask = T.ctl.mask →
    (∀ n, T.ctl.mask.getLsbD n = true → n < T.lanes) → T.ctl.ds.hw.length < 16 →
    let taken := lanesOf s T f.b.op (!inv)
    let stay := lanesOf s T f.b.op inv
    (taken = 0 → Leaves i s k T (after T i) T.ctl.mask T.ctl.exited T.ctl.ds T.ctl.rs) ∧
    (stay = 0 → Leaves i s k T (dest T f.off) T.ctl.mask T.ctl.exited T.ctl.ds T.ctl.rs) ∧
    (taken ≠ 0 → stay ≠ 0 →
      Leaves i s k T (after T i) stay T.ctl.exited (pushed T.ctl.ds (.path (dest T f.off) taken)) T.ctl.rs))) ∧
  ((∀ s k T f, Ready s k T (.call f) → T.inRegion = false → T.ctl.rs.hw.length < 16 →
    Leaves (.call f) s k T (dest T f.off) T.ctl.mask T.ctl.exited T.ctl.ds
      (pushed T.ctl.rs (.ret (after T (.call f)) T.ctl.ds.depth T.ctl.mask 0))) ∧
  (∀ s k T f, Ready s k T (.callInd f) → T.inRegion = false → T.ctl.rs.hw.length < 16 → (s.uni T f.a.op).toNat % 4 = 0 →
    Leaves (.callInd f) s k T (s.uni T f.a.op) T.ctl.mask T.ctl.exited T.ctl.ds
      (pushed T.ctl.rs (.ret (after T (.callInd f)) T.ctl.ds.depth T.ctl.mask 0))) ∧
  (∀ s k T ra m arr hw, Ready s k T .ret → T.inRegion = false → T.ctl.rs = { hw := hw ++ [.ret ra T.ctl.ds.depth m arr] } →
    ra.toNat % 4 = 0 → (arr ||| T.ctl.mask) &&& ~~~T.ctl.exited ≠ 0 →
    Leaves .ret s k T ra ((arr ||| T.ctl.mask) &&& ~~~T.ctl.exited) T.ctl.exited T.ctl.ds { hw := hw }) ∧
  (∀ s k T, Ready s k T .ret → T.inRegion = false → T.ctl.rs.hw = [] →
    exec .ret s = .next (s.takeTrap k 0 { code := 0x60 })))

/-! ### Float sums and products of every format -/

namespace Sys2Proof.Claims

/-- The layouts of the formats that sums and products round to (R155, R164). -/
inductive Summing : FloatFmt → Layout → Prop where
  | single : Summing fF32 single
  | half (m L) : narrow (match m with | HalfFmt.f16 => .f16 | .bf16 => .bf16) = some L → Summing (halfFmt m) L

/-- The result of an exact sum, in the format's units; `minus` says that every term of it is −0 (R148). -/
def GivesSum (L : Layout) (r : Rm) (v : ℝ) (minus : Prop) (x : Nat × FFlags) : Prop :=
  (0 < v → Gives L r .dflt false v 0 x) ∧ (v < 0 → Gives L r .dflt true (-v) 0 x) ∧
    (v = 0 → (minus ∨ r = .rm → x = (L.code true 0, {})) ∧ (¬minus → r ≠ .rm → x = (0, {})))

/-- An invalid product, and an infinite one. -/
abbrev BadProduct (L : Layout) (a b : Nat) : Prop :=
  (L.Infinite a ∧ L.Finite b ∧ L.mag b = 0) ∨ (L.Infinite b ∧ L.Finite a ∧ L.mag a = 0)
abbrev InfProduct (L : Layout) (a b : Nat) : Prop :=
  ((L.Infinite a ∧ ¬L.Nan b) ∨ (L.Infinite b ∧ ¬L.Nan a)) ∧ ¬BadProduct L a b

/-- The elements of a dot product: their format, how many there are, and their bits in a word (R165). -/
inductive DotForm : FmtKind → Fmt → Nat → Nat → Prop where
  | dot4 (m f) : f = (match m with | Dot4Fmt.e4m3 => Fmt.e4m3 | .e5m2 => .e5m2 | .s8 => .s8 | .e2m3 => .e2m3 | .e3m2 => .e3m2) →
      DotForm (dot4Fmt m) f 4 8
  | dot8 (m f) : f = (match m with | Dot8Fmt.e2m1 => Fmt.e2m1 | .s4 => .s4) → DotForm (dot8Fmt m) f 8 4

/-- The code of an element among its slot's bits (R147); and its value. -/
def codeOf (f : Fmt) (c : Nat) : Nat :=
  match narrow f with
  | some L => c % 2 ^ (L.sign + 1)
  | none => c
def elemNum (f : Fmt) (c : Nat) : ℚ :=
  match narrow f, wholes f with
  | some L, _ => (L.num c : ℚ) / 2 ^ L.unit
  | none, some (w, true) => ((BitVec.ofNat w c).toInt : ℚ)
  | none, some (_, false) => (c : ℚ)
  | none, none => 0

/-- A product that is −0; elements that are finite, and those that are a NaN. -/
def MinusProduct (f : Fmt) (a b : Nat) : Prop :=
  ∃ L, narrow f = some L ∧ (L.mag a = 0 ∨ L.mag b = 0) ∧ (L.neg a ^^ L.neg b) = true
def ElemFinite (f : Fmt) (c : Nat) : Prop := ∀ L, narrow f = some L → L.Finite c
def ElemNan (f : Fmt) (c : Nat) : Prop := ∃ L, narrow f = some L ∧ L.Nan c

end Sys2Proof.Claims

/-- R147, R148, R155, R164, R165: sums, differences, products and multiply-adds of FP32 and of the two 16-bit formats
are the exact value rounded once, and give infinities and NaNs what the rules say; the 16-bit forms work on each half of
a word, their flags the union; a dot product is exact and rounded once, with its special cases. Clauses that rest on the
model's own readings: log 29 and 112. -/
def Obligations.FloatArithmetic : Prop :=
  (∀ f L a b c r, Summing f L → r ≠ .rs → a < 2 ^ (L.sign + 1) → b < 2 ^ (L.sign + 1) → c < 2 ^ (L.sign + 1) →
    let minus (x : Nat) : Prop := L.mag x = 0 ∧ L.neg x = true
    (L.Finite a → L.Finite b →
      GivesSum L r ((L.num a : ℝ) + L.num b) (minus a ∧ minus b) (f.add a b r) ∧
      GivesSum L r ((L.num a : ℝ) - L.num b) (minus a ∧ L.mag b = 0 ∧ L.neg b = false) (f.sub a b r) ∧
      Gives L r .dflt (L.neg a ^^ L.neg b) ((L.size (L.mag a) : ℝ) * L.size (L.mag b) / 2 ^ L.unit) 0 (f.mul a b r) ∧
      (L.Finite c → GivesSum L r ((L.num a : ℝ) * L.num b / 2 ^ L.unit + L.num c)
        ((L.mag a = 0 ∨ L.mag b = 0) ∧ (L.neg a ^^ L.neg b) = true ∧ minus c) (f.fma a b c r))) ∧
    (∀ x ∈ [f.add a b r, f.sub a b r, f.mul a b r], L.Nan a ∨ L.Nan b →
      Quiets (L.nan.getD 0) x (L.Signals a ∨ L.Signals b)) ∧
    (L.Nan a ∨ L.Nan b ∨ L.Nan c →
      Quiets (L.nan.getD 0) (f.fma a b c r) (L.Signals a ∨ L.Signals b ∨ L.Signals c ∨ BadProduct L a b)) ∧
    (¬L.Nan a → ¬L.Nan b → ∀ i, L.inf = some i →
      (L.Infinite a ∨ L.Infinite b →
        f.add a b r = (if L.Infinite a ∧ L.Infinite b ∧ L.neg a ≠ L.neg b then (L.nan.getD 0, { iv := true })
          else (L.code (if L.Infinite a then L.neg a else L.neg b) i, {})) ∧
        f.sub a b r = (if L.Infinite a ∧ L.Infinite b ∧ L.neg a = L.neg b then (L.nan.getD 0, { iv := true })
          else (L.code (if L.Infinite a then L.neg a else !L.neg b) i, {})) ∧
        f.mul a b r = (if BadProduct L a b then (L.nan.getD 0, { iv := true }) else (L.code (L.neg a ^^ L.neg b) i, {}))) ∧
      (¬L.Nan c → InfProduct L a b ∨ L.Infinite c ∨ BadProduct L a b → f.fma a b c r =
        if BadProduct L a b ∨ (InfProduct L a b ∧ L.Infinite c ∧ L.neg c ≠ (L.neg a ^^ L.neg b)) then (L.nan.getD 0, { iv := true })
        else (L.code (if L.Infinite c then L.neg c else L.neg a ^^ L.neg b) i, {})))) ∧
  (∀ g : Nat → Nat × FFlags, (∀ j, (g j).1 < 2 ^ 16) →
    (halves g).1.toNat = (g 0).1 + 2 ^ 16 * (g 1).1 ∧
      ∀ j < 5, causeOf j (halves g).2 = (causeOf j (g 0).2 || causeOf j (g 1).2)) ∧
  (∀ (a : Word) j, j < 2 → half a j = elemOf 16 a j) ∧
  (∀ k f n w (a b c : Word) r, DotForm k f n w → r ≠ .rs →
    let x := dotProduct k n w a b c r
    let p (j : Nat) : Nat := codeOf f (elemOf w a j)
    let q (j : Nat) : Nat := codeOf f (elemOf w b j)
    let bad : Prop := ∃ j < n, ∃ L, narrow f = some L ∧ BadProduct L (p j) (q j)
    let inf (s : Bool) : Prop := (single.Infinite c.toNat ∧ neg32 c = s) ∨
      ∃ j < n, ∃ L, narrow f = some L ∧ InfProduct L (p j) (q j) ∧ (L.neg (p j) ^^ L.neg (q j)) = s
    let nan : Prop := isNan32 c ∨ ∃ j < n, ElemNan f (p j) ∨ ElemNan f (q j)
    (finite32 c → (∀ j < n, ElemFinite f (p j) ∧ ElemFinite f (q j)) →
      GivesSum single r ((fixed32 c : ℝ) + (((List.range n).map (fun j => elemNum f (p j) * elemNum f (q j))).sum : ℚ) * 2 ^ 149)
        (c = 0x80000000 ∧ ∀ j < n, MinusProduct f (p j) (q j)) x) ∧
    (nan ∨ bad ∨ (inf true ∧ inf false) → Quiets 0x7FC00000 x (isSnan32 c ∨ bad ∨ (inf true ∧ inf false))) ∧
    (¬nan → ¬bad → (inf true → ¬inf false → x = (0xFF800000, {})) ∧ (inf false → ¬inf true → x = (0x7F800000, {}))))

/-- R202, R204 to R206, R208: sbar enrols the path; sarr waits below the threshold and is released at it; brk leaves
barriers; exit ends lanes, and the top path runs next. -/
def Obligations.ControlReconvergence : Prop :=
  ((∀ s k T f, Ready s k T (.sbar f) → T.inRegion = false → T.ctl.ds.hw.length < 16 →
    Leaves (.sbar f) s k T (after T (.sbar f)) T.ctl.mask T.ctl.exited
      (pushed T.ctl.ds (.barrier (dest T f.off) T.ctl.mask 0
        (if s.uni T f.b.op = 0 then lanes T.ctl.mask else min (s.uni T f.b.op).toNat (lanes T.ctl.mask)))) T.ctl.rs) ∧
  (∀ s k T hw enr arr n, Ready s k T .sarr → T.inRegion = false → T.ctl.rs = {} →
    T.ctl.ds = { hw := hw ++ [.barrier (after T .sarr) enr arr n] } →
    (n ≤ lanes (arr ||| (T.ctl.mask &&& enr)) →
      (T.ctl.mask &&& ~~~enr) ||| ((arr ||| (T.ctl.mask &&& enr)) &&& ~~~T.ctl.exited) ≠ 0 →
      Leaves .sarr s k T (after T .sarr) ((T.ctl.mask &&& ~~~enr) ||| ((arr ||| (T.ctl.mask &&& enr)) &&& ~~~T.ctl.exited))
        T.ctl.exited { hw := hw } {}) ∧
    (lanes (arr ||| (T.ctl.mask &&& enr)) < n → enr &&& ~~~T.ctl.exited &&& ~~~(arr ||| (T.ctl.mask &&& enr)) ≠ 0 →
      T.ctl.mask &&& ~~~enr ≠ 0 →
      Leaves .sarr s k T (after T .sarr) (T.ctl.mask &&& ~~~enr) T.ctl.exited
        { hw := hw ++ [.barrier (after T .sarr) enr (arr ||| (T.ctl.mask &&& enr)) n] } {})) ∧
  (∀ s k T, Ready s k T .sarr → T.inRegion = false → T.ctl.rs = {} → T.ctl.ds = {} →
    Leaves .sarr s k T (after T .sarr) T.ctl.mask T.ctl.exited {} {})) ∧
  ((∀ s k T ext off hw rpc arr n, Ready s k T (.brk ext 1 off) → T.inRegion = false → T.ctl.rs = {} →
    T.ctl.ds = { hw := hw ++ [.barrier rpc T.ctl.mask arr n] } → hw.length < 15 → T.ctl.mask &&& ~~~T.ctl.exited = T.ctl.mask →
    Leaves (.brk ext 1 off) s k T (dest T off) T.ctl.mask T.ctl.exited { hw := hw } {}) ∧
  (∀ s k T ext n off, Ready s k T (.brk ext n off) → T.inRegion = false → T.ctl.ds = {} → 0 < n.toNat →
    exec (.brk ext n off) s = .next (s.takeTrap k 0 { code := 0x63 })) ∧
  (∀ s k T, Ready s k T .exit → T.inRegion = false → T.ctl.ds = {} → T.ctl.rs = {} →
    Leaves .exit s k T T.ctl.pc 0 (T.ctl.exited ||| T.ctl.mask) {} {}) ∧
  (∀ s k T hw pc m, Ready s k T .exit → T.inRegion = false → T.ctl.rs = {} → T.ctl.ds = { hw := hw ++ [.path pc m] } →
    m &&& ~~~(T.ctl.exited ||| T.ctl.mask) ≠ 0 →
    Leaves .exit s k T pc (m &&& ~~~(T.ctl.exited ||| T.ctl.mask)) (T.ctl.exited ||| T.ctl.mask) { hw := hw } {}))

/-- R65: pblk reads its predicate once; the next N + 1 instructions run on the lanes that hold it, or on the others, as
PAT says, and behind the last the mask is the path's again. -/
def Obligations.PrefixCoverage : Prop :=
  (∀ s k T pat n p tb, Ready s k T (.pblk pat n p tb) →
    ∃ t T' c, exec (.pblk pat n p tb) s = .next t ∧ t.team? k = some T' ∧ T'.ctl.pc = T.ctl.pc + 4 ∧ T'.ctl.mask = T.ctl.mask ∧
      T'.ctl.cover = some c ∧ c.next = 0 ∧ c.n = n.toNat ∧ T'.regs = T.regs ∧ OnlyTeam s t k ∧ SameMemory s t ∧
      (∀ j ≤ n.toNat, ∀ l < 1024, (c.mask j).getLsbD l =
        (T.ctl.mask.getLsbD l && (if pat.getLsbD j then decide (l ∈ T.active) && (T.regs.word l p).getLsbD 0
          else !(decide (l ∈ T.active) && (T.regs.word l p).getLsbD 0))))) ∧
  (∀ (c : Ctl) (v : Cover) size, c.cover = some v → c.resume = none → c.amask = v.mask v.next ∧
    (v.next < v.n → (c.advance size).amask = v.mask (v.next + 1)) ∧ (v.n ≤ v.next → (c.advance size).amask = c.mask))

/-! ### Regions -/

namespace Sys2Proof.Claims

/-- Instruction `i` of team `k` completes: the team is past it, and `P` holds of the state and of the team that follow. -/
def Goes (i : Instr) (s : State) (k : Nat) (T : Team) (P : State → Team → Prop) : Prop :=
  ∃ t T', exec i s = .next t ∧ t.team? k = some T' ∧ Past i T T' ∧ P t T'

/-- An event, or an instruction that sets its team's pc itself, takes effect: `P` holds of the state and the team that follow. -/
def Leads (i : Instr) (s : State) (k : Nat) (P : State → Team → Prop) : Prop :=
  ∃ t T', exec i s = .next t ∧ t.team? k = some T' ∧ P t T'

/-- Instruction `i` raises the precise trap `c` of team `k`. -/
def Traps (i : Instr) (s : State) (k : Nat) (c : Byte) : Prop := exec i s = .next (s.takeTrap k 0 { code := c })

/-- Every active lane is in a region. -/
def Inside (T : Team) : Prop := ∀ n ∈ T.active, (T.regionOf n).isSome = true

/-- A lane's global address, (A64 + X) mod 2^64. -/
def globAt (a : Src) (x : BitVec 21) (s : State) (T : Team) (n : Nat) : DWord := s.dword T n a.op + BitVec.ofInt 64 x.toInt

/-- A region takes a store record: nothing if it is doomed, doom with cause 3 and detail 3 if it holds 8 (R315). -/
def Recorded (r r' : Region) (a : RecAddr) (v : RecVal) : Prop :=
  (r.doom.isSome = true → r'.doom = r.doom ∧ r'.records = r.records) ∧
  (r.doom = none → 8 ≤ r.records.length → r'.doom = some (3, 3) ∧ r'.records = r.records) ∧
  (r.doom = none → r.records.length < 8 → r'.doom = none ∧ r'.records = r.records ++ [(a, v)])

/-- The value a store record takes from an operand: the input its value tag names, or the word (R315). -/
def valOf (s : State) (T : Team) (n : Nat) (b : Opnd) : RecVal :=
  match T.tagOf n b with
  | some (.val k c) => .input k c
  | _ => .word (s.word T n b)

/-- A store of a region: its lanes' addresses and its value operand (R315). -/
inductive RegionStore : Instr → (State → Team → Nat → RecAddr) → Opnd → Prop where
  | arst (f) : RegionStore (.arst f) (fun s T n => .direct (globAt f.a f.x s T n)) f.b.op
  | arstIx (sc a b c x) : RegionStore (.arstIx sc a b c x)
      (fun s T n => match T.tagOf n c.op with
        | some (.val k y) => .indexed (globAt a x s T n) sc k y
        | _ => .direct (globAt a x s T n + BitVec.ofNat 64 ((s.word T n c.op).toNat * 2 ^ sc.toNat))) b.op

/-- An arend of the team may proceed: it runs, its block is placed, and lane `n`, with region `r`, is the next to settle, in its
first round, or in its second with the lines it then locks. -/
structure AtCommit (s : State) (k : Nat) (T : Team) (ls : List (Nat × Outcome)) (n : Nat) (r : Region) (second : Option (List Nat)) :
    Prop where
  team : s.team? k = some T
  running : T.st = .running
  block : ∃ b, s.block? T.block = some b ∧ b.st = .placed
  arend : T.arend = some ls
  next : nextCommit ls = some (n, match second with | none => .waiting | some l => .second l)
  region : T.regionOf n = some r

/-- The word of an input, of the values f; a record's address and its word with those values (R315). -/
def inputOf (f : List Word) (k : Fin 4) : Word := f.getD k.val 0
def addrWith (f : List Word) : RecAddr → DWord
  | .direct g => g
  | .indexed base sc k c => BitVec.ofNat 64 (base.toNat + (inputOf f k + c).toNat * 2 ^ sc.toNat)
def wordWith (f : List Word) : RecVal → Word
  | .word x => x
  | .input k c => inputOf f k + c

/-- Addresses translate to these physical ones; or the first of them that is refused is refused with this element code (R136). -/
def Translated (s : State) (T : Team) (want : Want) (gs : List DWord) (pas : List Nat) : Prop :=
  List.Forall₂ (fun g pa => s.gcheck T.cluster (s.tenantIdOf T) g 4 want = .ok pa) gs pas
def CommitRefused (s : State) (T : Team) (want : Want) (gs : List DWord) (c : Byte) : Prop :=
  ∃ before g after pas, gs = before ++ g :: after ∧ Translated s T want before pas ∧
    s.gcheck T.cluster (s.tenantIdOf T) g 4 want = .error c

/-- A team's writes, as translation sees them. -/
def writing (T : Team) : Want := .write T.handler.isSome

/-- The addresses of a region's records with the values f, and those of its inputs. -/
def storesWith (r : Region) (f : List Word) : List DWord := r.records.map (fun e => addrWith f e.1)
def inputAddresses (r : Region) : List DWord := r.inputs.map Input.addr

/-- The words that inputs at these addresses now hold. -/
def wordsAt (s : State) (ins : List Nat) : List Word := ins.map (fun pa => BitVec.ofNat 32 (s.physRead pa 4))

/-- The checks on the fresh values f: a pinned input has its value, a constraint holds, a record's address is in the declared
range, if it is indexed, and aligned (R321). -/
def InputKept (i : Input) (x : Word) : Prop := i.pinned = true → i.v = x
def Constrained (j : Constraint) (f : List Word) : Prop :=
  (if j.left then holds j.cond j.sign (inputOf f j.k + j.c) j.y else holds j.cond j.sign j.y (inputOf f j.k + j.c)) ↔ j.b = true
def IsIndexed : RecAddr → Prop
  | .indexed .. => True
  | .direct _ => False
def RecordRange (r : Region) (f : List Word) (a : RecAddr) : Prop :=
  IsIndexed a → r.rb.toNat ≤ (addrWith f a).toNat ∧ (addrWith f a).toNat + 4 ≤ r.rb.toNat + r.rl.toNat
def RecordFine (r : Region) (f : List Word) (a : RecAddr) : Prop := RecordRange r f a ∧ (addrWith f a).toNat % 4 = 0

/-- The first `n` inputs, constraints or records pass. -/
def InputsTo (r : Region) (f : List Word) (n : Nat) : Prop := ∀ e ∈ (r.inputs.zip f).take n, InputKept e.1 e.2
def ConstraintsTo (r : Region) (f : List Word) (n : Nat) : Prop := ∀ j ∈ r.constraints.take n, Constrained j f
def RecordsTo (r : Region) (f : List Word) (n : Nat) : Prop := ∀ e ∈ r.records.take n, RecordFine r f e.1

/-- The first check that fails on the fresh values, and its cause and detail (R319, R321). -/
inductive CommitFault (r : Region) (f : List Word) : Byte → Byte → Prop where
  | pinned (n i x) : (r.inputs.zip f)[n]? = some (i, x) → ¬InputKept i x → InputsTo r f n → CommitFault r f 2 (BitVec.ofNat 8 n)
  | constraint (n j) : InputsTo r f r.inputs.length → r.constraints[n]? = some j → ¬Constrained j f → ConstraintsTo r f n →
      CommitFault r f 1 (BitVec.ofNat 8 n)
  | range (n e) : InputsTo r f r.inputs.length → ConstraintsTo r f r.constraints.length → r.records[n]? = some e →
      ¬RecordRange r f e.1 → RecordsTo r f n → CommitFault r f 6 (BitVec.ofNat 8 n)
  | align (n e) : InputsTo r f r.inputs.length → ConstraintsTo r f r.constraints.length → r.records[n]? = some e →
      RecordRange r f e.1 → (addrWith f e.1).toNat % 4 ≠ 0 → RecordsTo r f n → CommitFault r f 4 0x34

/-- Every check passes. -/
def CommitSound (r : Region) (f : List Word) : Prop :=
  InputsTo r f r.inputs.length ∧ ConstraintsTo r f r.constraints.length ∧ RecordsTo r f r.records.length

/-- The lines a round locks: those of the inputs, at `ins`, and those of the store addresses as read, or in the second round the
lines that the first found (R321). -/
inductive Locks (s : State) (T : Team) (r : Region) : Option (List Nat) → List Nat → List Nat → Prop where
  | first (ts ins) : Translated s T (writing T) (storesWith r (r.inputs.map Input.v)) ts →
      Translated s T .read (inputAddresses r) ins → Locks s T r none ins (ins.map (· / 64) ++ ts.map (· / 64))
  | second (ls ins) : Translated s T .read (inputAddresses r) ins → Locks s T r (some ls) ins (ins.map (· / 64) ++ ls)

/-- What a round of a commit comes to (R321). -/
inductive CommitRule (s : State) (T : Team) (r : Region) : Option (List Nat) → Commit → Prop where
  | store (c) : CommitRefused s T (writing T) (storesWith r (r.inputs.map Input.v)) c → CommitRule s T r none (.abort 4 c)
  | input (second c) : (second = none → ∃ ts, Translated s T (writing T) (storesWith r (r.inputs.map Input.v)) ts) →
      CommitRefused s T .read (inputAddresses r) c → CommitRule s T r second (.abort 4 c)
  | error (second ins locked) : Locks s T r second ins locked → (∃ pa ∈ ins, s.physPoisoned pa 4 = true) →
      CommitRule s T r second (.abort 4 0xE0)
  | fault (second ins locked c d) : Locks s T r second ins locked → (∀ pa ∈ ins, s.physPoisoned pa 4 = false) →
      CommitFault r (wordsAt s ins) c d → CommitRule s T r second (.abort c d)
  | address (second ins locked c) : Locks s T r second ins locked → (∀ pa ∈ ins, s.physPoisoned pa 4 = false) →
      CommitSound r (wordsAt s ins) → CommitRefused s T (writing T) (storesWith r (wordsAt s ins)) c →
      CommitRule s T r second (.abort 4 c)
  | again (ins locked pas) : Locks s T r none ins locked → (∀ pa ∈ ins, s.physPoisoned pa 4 = false) →
      CommitSound r (wordsAt s ins) → Translated s T (writing T) (storesWith r (wordsAt s ins)) pas →
      (∃ pa ∈ pas, pa / 64 ∉ locked) → CommitRule s T r none (.again (pas.map (· / 64)))
  | unsettled (ls ins locked pas) : Locks s T r (some ls) ins locked → (∀ pa ∈ ins, s.physPoisoned pa 4 = false) →
      CommitSound r (wordsAt s ins) → Translated s T (writing T) (storesWith r (wordsAt s ins)) pas →
      (∃ pa ∈ pas, pa / 64 ∉ locked) → CommitRule s T r (some ls) (.abort 8 0)
  | write (second ins locked pas) : Locks s T r second ins locked → (∀ pa ∈ ins, s.physPoisoned pa 4 = false) →
      CommitSound r (wordsAt s ins) → Translated s T (writing T) (storesWith r (wordsAt s ins)) pas →
      (∀ pa ∈ pas, pa / 64 ∈ locked) →
      CommitRule s T r second (.write (pas.zip (r.records.map (fun e => wordWith (wordsAt s ins) e.2))))

/-- A region's lane aborts with a cause and a detail: it was doomed with them, or its commit does (R319 to R321). -/
def AbortsWith (s : State) (T : Team) (r : Region) (second : Option (List Nat)) (c d : Byte) : Prop :=
  r.doom = some (c, d) ∨ (r.doom = none ∧ CommitRule s T r second (.abort c d))

/-- The lanes of an arend with lane `n`'s outcome set. -/
def settled (ls : List (Nat × Outcome)) (n : Nat) (o : Outcome) : List (Nat × Outcome) :=
  ls.map (fun e => if e.1 = n then (n, o) else e)

/-- The same bytes of device and host memory. -/
def SameGlobal (s t : State) : Prop :=
  (∀ a, Memory.byte t.dram a = Memory.byte s.dram a) ∧ ∀ a, Memory.byte t.host a = Memory.byte s.host a

end Sys2Proof.Claims

/-- R310 to R312, R315, R316: arbeg opens an empty region in each active lane and clears its tags; arrng sets the
declared range; a store of a region is recorded and reaches no memory; arld takes an input or dooms its lane; arabt
dooms with cause 7; each is a trap where the rules say. Clauses that rest on the model's own readings: log 39. -/
def Obligations.Regions : Prop :=
  ((∀ s k T (c : Fin 192) x, Ready s k T (.arbeg (.s c) x) → (∀ n ∈ T.active, T.regionOf n = none) →
    Goes (.arbeg (.s c) x) s k T (fun t T' =>
      (∀ n, T'.regionOf n = if n ∈ T.active then some { fb := dest T x, cr := c } else T.regionOf n) ∧
      (∀ n, ∀ m < 512, T'.regs.tagOf n m = if n ∈ T.active then none else T.regs.tagOf n m) ∧
      (∀ n m, T'.regs.word n m = T.regs.word n m) ∧ T'.regs.sreg = T.regs.sreg ∧ OnlyTeam s t k ∧ SameMemory s t)) ∧
  (∀ s k T d x, Ready s k T (.arbeg d x) → (∃ n ∈ T.active, (T.regionOf n).isSome = true) → Traps (.arbeg d x) s k 0xA1) ∧
  (∀ s k T f, Ready s k T (.arrng f) → Inside T →
    let rb := (s.uni T f.a.op).toNat
    let rl := (s.uni T f.b.op).toNat
    (rl % 4 = 0 → 4 ≤ rl → rl ≤ 1048576 → rb % 4 = 0 → rb + rl ≤ 2 ^ 52 →
      Goes (.arrng f) s k T (fun t T' =>
        (∀ n ∈ T.active, ∀ r, T.regionOf n = some r → ∃ r', T'.regionOf n = some r' ∧ r'.rb = s.uni T f.a.op ∧
          r'.rl = s.uni T f.b.op ∧ r'.doom = r.doom ∧ r'.records = r.records ∧ r'.constraints = r.constraints) ∧
        T'.regs = T.regs ∧ OnlyTeam s t k ∧ SameMemory s t)) ∧
    (rl % 4 ≠ 0 ∨ rl < 4 ∨ 1048576 < rl ∨ rb % 4 ≠ 0 ∨ 2 ^ 52 < rb + rl → Traps (.arrng f) s k 0xA2)) ∧
  (∀ s k T f, Ready s k T (.arabt f) → Inside T →
    Goes (.arabt f) s k T (fun t T' => T'.regs = T.regs ∧ OnlyTeam s t k ∧ SameMemory s t ∧
      ∀ n ∈ T.active, ∀ r, T.regionOf n = some r → ∃ r', T'.regionOf n = some r' ∧
        r'.doom = some (r.doom.getD (7, (s.word T n f.a.op).setWidth 8)))) ∧
  (∀ s k T f, (∃ n ∈ T.active, T.regionOf n = none) →
    (Ready s k T (.arrng f) → Traps (.arrng f) s k 0xA0) ∧
    (∀ g, Ready s k T (.arabt g) → Traps (.arabt g) s k 0xA0) ∧ (Ready s k T .arend → Traps .arend s k 0xA0))) ∧
  ((∀ s k T i addr b, RegionStore i addr b → Ready s k T i → Inside T →
    Goes i s k T (fun t T' => T'.regs = T.regs ∧ OnlyTeam s t k ∧ SameMemory s t ∧
      ∀ n, (n ∈ T.active → ∀ r, T.regionOf n = some r →
          ∃ r', T'.regionOf n = some r' ∧ Recorded r r' (addr s T n) (valOf s T n b)) ∧
        (n ∉ T.active → T'.regionOf n = T.regionOf n))) ∧
  (∀ s k T i addr b, RegionStore i addr b → Ready s k T i → (∃ n ∈ T.active, T.regionOf n = none) → Traps i s k 0xA0)) ∧
  ((∀ s k T f, Ready s k T (.arld f) → Inside T →
    Goes (.arld f) s k T (fun t T' => Emptied T T' f.d 1 ∧ SameValues T T' ∧ SameMemory s t ∧
      ∀ n ∈ T.active, ∀ r, T.regionOf n = some r → ∃ r', T'.regionOf n = some r' ∧ r'.records = r.records ∧
        (r.doom.isSome = true → r'.doom = r.doom ∧ r'.inputs.map Input.addr = r.inputs.map Input.addr) ∧
        (r.doom = none → 4 ≤ r.inputs.length → r'.doom = some (3, 1) ∧ r'.inputs.map Input.addr = r.inputs.map Input.addr) ∧
        (r.doom = none → r.inputs.length < 4 → ∀ c,
          s.gcheck T.cluster (s.tenantIdOf T) (globAt f.a f.x s T n) 4 .read = .error c →
          r'.doom = some (4, c) ∧ r'.inputs.map Input.addr = r.inputs.map Input.addr) ∧
        (r.doom = none → r.inputs.length < 4 → ∀ pa,
          s.gcheck T.cluster (s.tenantIdOf T) (globAt f.a f.x s T n) 4 .read = .ok pa →
          r'.doom = none ∧ r'.inputs.map Input.addr = r.inputs.map Input.addr ++ [globAt f.a f.x s T n]))) ∧
  (∀ s k T f, Ready s k T (.arld f) → (∃ n ∈ T.active, T.regionOf n = none) → Traps (.arld f) s k 0xA0))

/-- R43, R319 to R321: arend holds its team until each active lane has settled. A doomed lane aborts with its cause;
another commits: R321's checks, in their order, give the cause of its abort, a second round, or the list of its records'
final addresses and words, which is written in order. With the last lane the team goes on with the lanes that committed,
the aborted ones wait at their fallbacks, and their regions are gone; but an arend waits while the register of a cause
word is empty (R43). Clauses that rest on the model's own readings: log 40, 41 and 117. -/
def Obligations.RegionCommit : Prop :=
  (∀ s k T, Ready s k T .arend → Inside T → T.ctl.ds.hw.length + T.active.length ≤ 16 → s.arldOut k = false →
    Leads .arend s k (fun t T' => T' = { T with arend := some (T.active.map (fun n => (n, Outcome.waiting))) } ∧
      OnlyTeam s t k ∧ SameMemory s t)) ∧
  (∀ s k T ls n r w c d, AtCommit s k T ls n r w → AbortsWith s T r w c d → nextCommit (settled ls n (.aborted c d)) ≠ none →
    Leads (.regionCommit k) s k (fun t T' => T' = { T with arend := some (settled ls n (.aborted c d)) } ∧ SameMemory s t)) ∧
  (∀ s k T ls n r w lines, AtCommit s k T ls n r w → r.doom = none → CommitRule s T r w (.again lines) →
    Leads (.regionCommit k) s k (fun t T' => T' = { T with arend := some (settled ls n (.second lines)) } ∧ SameMemory s t)) ∧
  (∀ s k T ls n r w ws, AtCommit s k T ls n r w → r.doom = none → CommitRule s T r w (.write ws) →
    nextCommit (settled ls n .committed) ≠ none →
    Leads (.regionCommit k) s k (fun t T' => T' = { T with arend := some (settled ls n .committed) } ∧
      t.spm = s.spm ∧ SameGlobal (s.writeWords ws) t)) ∧
  (∀ s k T ls n r w ws, AtCommit s k T ls n r w → r.doom = none → CommitRule s T r w (.write ws) →
    (∀ e ∈ settled ls n .committed, e.2 = .committed) →
    Leads (.regionCommit k) s k (fun t T' => T'.arend = none ∧ T'.ctl.pc = T.ctl.pc + 4 ∧
      T'.ctl.mask = Mask.ofLanes (ls.map Prod.fst) ∧ T'.ctl.ds = T.ctl.ds ∧ (∀ e ∈ ls, T'.regionOf e.1 = none) ∧
      (∀ m, (∀ e ∈ ls, e.1 ≠ m) → T'.regionOf m = T.regionOf m) ∧ T'.regs.lane = T.regs.lane ∧ T'.regs.sreg = T.regs.sreg ∧
      t.spm = s.spm ∧ SameGlobal (s.writeWords ws) t)) ∧
  (∀ s k T n r w c d, AtCommit s k T [(n, match w with | none => .waiting | some l => .second l)] n r w → AbortsWith s T r w c d →
    T.regs.sflg r.cr = .empty →
    Leads (.regionCommit k) s k (fun t T' => T' = { T with arend := some [(n, .aborted c d)] } ∧ SameMemory s t)) ∧
  (∀ s k T n c d, s.team? k = some T → T.arend = some [(n, .aborted c d)] → (∃ r, T.regionOf n = some r ∧ T.regs.sflg r.cr = .empty) →
    exec (.regionCommit k) s = .next s) ∧
  (∀ s k T n r w c d, AtCommit s k T [(n, match w with | none => .waiting | some l => .second l)] n r w → AbortsWith s T r w c d →
    T.regs.sflg r.cr ≠ .empty →
    Leads (.regionCommit k) s k (fun t T' => T'.arend = none ∧ T'.ctl.pc = r.fb ∧ T'.ctl.mask = Mask.ofLanes [n] ∧
      T'.regs.s r.cr = BitVec.ofNat 64 (n % 256 * 2 ^ 16 + d.toNat * 256 + c.toNat) ∧ T'.regs.sflg r.cr = .full ∧
      T'.regionOf n = none ∧ T'.regs.lane = T.regs.lane ∧ SameMemory s t)) ∧
  (∀ s k T m n r w c d, AtCommit s k T [(m, .committed), (n, match w with | none => .waiting | some l => .second l)] n r w → m ≠ n →
    AbortsWith s T r w c d → T.regs.sflg r.cr ≠ .empty → T.ctl.ds.hw.length < 16 →
    Leads (.regionCommit k) s k (fun t T' => T'.arend = none ∧ T'.ctl.pc = T.ctl.pc + 4 ∧ T'.ctl.mask = Mask.ofLanes [m] ∧
      T'.ctl.ds = pushed T.ctl.ds (.path r.fb (Mask.ofLanes [n])) ∧
      T'.regs.s r.cr = BitVec.ofNat 64 (n % 256 * 2 ^ 16 + d.toNat * 256 + c.toNat) ∧ T'.regionOf m = none ∧
      T'.regionOf n = none ∧ SameMemory s t)) ∧
  (∀ (s : State) pa (x : Word) ws, (Memory.read (if 2 ^ 51 ≤ pa then (s.writeWords [(pa, x)]).host else (s.writeWords [(pa, x)]).dram) pa 4 =
    x.toNat) ∧ s.writeWords ((pa, x) :: ws) = (s.writeWords [(pa, x)]).writeWords ws)

/-! ### Pre-combining and atomics -/

namespace Sys2Proof.Claims

/-- An operation of vcomb (R121). -/
def combRule (p : VOp) (acc x : Word) : Word :=
  match p with
  | .add => BitVec.ofNat 32 (acc.toNat + x.toNat)
  | .fadd => BitVec.ofNat 32 (fF32.add acc.toNat x.toNat .rn).1
  | .minS => BitVec.ofInt 32 (min acc.toInt x.toInt)
  | .maxS => BitVec.ofInt 32 (max acc.toInt x.toInt)
  | .minU => BitVec.ofNat 32 (min acc.toNat x.toNat)
  | .maxU => BitVec.ofNat 32 (max acc.toNat x.toNat)
  | .or => acc ||| x
  | .fmin => (fminmax false acc x).1
  | .fmax => (fminmax true acc x).1

/-- The active lanes that share lane `n`'s word of an operand, and satisfy a test. -/
def sharing (s : State) (T : Team) (b : Opnd) (n : Nat) (p : Nat → Bool) : List Nat :=
  T.active.filter (fun m => p m && s.word T m b == s.word T n b)

/-- A fold from the first value. -/
def foldRule (g : Word → Word → Word) : List Word → Word
  | [] => 0
  | x :: r => r.foldl g x

/-- The new value of an atomic operation on w bits: old value, operand, expected value (R129). The float operations act on words. -/
def atomicRule {w : Nat} (p : AOp) (old b c : BitVec w) : BitVec w :=
  match p with
  | .add => BitVec.ofNat w (old.toNat + b.toNat)
  | .fadd => if w = 32 then BitVec.ofNat w (fF32.add old.toNat b.toNat .rn).1 else old
  | .minS => BitVec.ofInt w (min old.toInt b.toInt)
  | .minU => BitVec.ofNat w (min old.toNat b.toNat)
  | .maxS => BitVec.ofInt w (max old.toInt b.toInt)
  | .maxU => BitVec.ofNat w (max old.toNat b.toNat)
  | .and => old &&& b
  | .or => old ||| b
  | .xor => old ^^^ b
  | .xchg => b
  | .cas => if old = c then b else old
  | .fmin => if w = 32 then ((fminmax false (old.setWidth 32) (b.setWidth 32)).1).setWidth w else old
  | .fmax => if w = 32 then ((fminmax true (old.setWidth 32) (b.setWidth 32)).1).setWidth w else old

/-- What a global atomic names: its operation, place and size, the destination of its old values, its address and its operands; and
whether it is posted (R132 to R134). -/
inductive AtomicForm : Instr → AOp → Place → WD → Dst → Opnd × BitVec 21 → Opnd → Opnd → Bool → Prop where
  | gatom (p l z f d) : d = (match f.d with | .v q => Dst.v q (if z = .d then 2 else 1) | _ => .none) →
      AtomicForm (.gatom p l z f) p l z d (f.a.op, f.x) f.b.op f.c.op false
  | gred (p l z f) : AtomicForm (.gred p l z f) p l z .none (f.a.op, f.x) f.b.op .zero true

/-- A global atomic: its destination, if it has one, its size (R132 to R134). -/
inductive GlobalAtomic : Instr → Opnd → WD → Prop where
  | gatom (p l z f) : GlobalAtomic (.gatom p l z f) f.d z
  | gred (p l z f) : GlobalAtomic (.gred p l z f) .zero z

/-- Element `n` of request `id` reaches the core that its window 1 address names (R102). -/
structure Arriving (s : State) (id n : Nat) (r : Req) (e : Elem) (T : Team) (core off : Nat) : Prop where
  req : s.reqs.get? id = some r
  team : s.team? r.team = some T
  resident : s.residentBlock T.block = true
  lane : n < 1024
  near : r.kind.near = true
  elem : r.flying? n = some e
  sent : e.st = .transit
  place : elemPlace (s.frame T) r.kind e = .ok (.spm core off true)
  clean : ∀ x ∈ r.elems, x.parkedCode = none
  room : r.entry.isSome = true ∨ (s.entries r.team).length < 8

/-- A checked element may not land yet: an older access of its team to its core or private memory has not landed, or a lower
lane's element of its satom, or of its store where both touch a byte (R111, R122, R127). -/
def HeldBack (s : State) (id n : Nat) (r : Req) (T : Team) (l : NearLoc) : Prop :=
  s.homeBusy r.team l id = true ∨
  ∃ x ∈ r.elems, x.lane < n ∧ ∃ m, flyingPlace (s.frame T) r.kind x = some m ∧
    ((∃ p, r.kind = .satom p) ∨ ∃ size, r.kind = .store size ∧ l.meets m size = true)

/-- A parked element of a released entry, the first that is left, and its team; nothing of its instruction that was good is still
on its way (R114, R122, R127). -/
structure Replaying (s : State) (k entry id : Nat) (r : Req) (e : Elem) (T : Team) (size : Nat) (l : NearLoc) : Prop where
  entry : s.reqs.find? (fun e => e.2.team == k && e.2.entry == some entry && e.2.released) = some (id, r)
  team : s.team? k = some T
  placed : ∃ b, s.block? T.block = some b ∧ b.st = .placed
  landed : ∀ x ∈ r.elems, x.flying = false
  elem : r.elems.find? (fun e => e.parkedCode.isSome) = some e
  lanes : (r.elems.map Elem.lane).Nodup
  place : s.nearCheck (s.frame T) (some e.lane) (e.addr.setWidth 32) size = .ok l

end Sys2Proof.Claims

/-- R158: fexp2 and flog2 of a finite number that is not 0 are the function's value rounded once; the model computes
that value to within a part in 2^100 of the function, and exactly where it is a power of two or the logarithm of one;
elsewhere NX is set. Clauses that rest on the model's own readings: log 113. -/
def Obligations.FloatTranscendentals : Prop :=
  ∀ (a : Word) (r : Rm), r ≠ .rs → finite32 a → fixed32 a ≠ 0 →
    ((∃ v : ℝ, |v - 2 ^ 149 * (2 : ℝ) ^ ((fixed32 a : ℝ) / 2 ^ 149)| * 2 ^ 100 ≤ 2 ^ 149 * (2 : ℝ) ^ ((fixed32 a : ℝ) / 2 ^ 149) ∧
      Gives single r .dflt false v 0 (func1 .exp2 a r)) ∧
    (∀ n : Int, fixed32 a = n * 2 ^ 149 → Gives single r .dflt false (2 ^ 149 * (2 : ℝ) ^ n) 0 (func1 .exp2 a r)) ∧
    ((∀ n : Int, fixed32 a ≠ n * 2 ^ 149) → (func1 .exp2 a r).2.nx = true)) ∧
    (neg32 a = false →
      (∃ v : ℝ, |v - 2 ^ 149 * Real.logb 2 ((abs32 a : ℝ) / 2 ^ 149)| * 2 ^ 100 ≤
          2 ^ 149 * |Real.logb 2 ((abs32 a : ℝ) / 2 ^ 149)| ∧
        Gives single r .dflt (decide (a.toNat < 0x3F800000)) |v| 0 (func1 .log2 a r)) ∧
      (∀ n : Nat, abs32 a = 2 ^ n →
        Gives single r .dflt (decide (n < 149)) (2 ^ 149 * |(n : ℝ) - 149|) 0 (func1 .log2 a r)) ∧
      ((∀ n : Nat, abs32 a ≠ 2 ^ n) → (func1 .log2 a r).2.nx = true))

/-- R40, R121, R122, R129, R130, R133, R134, R136, R140: atomics issue whatever their addresses, their destinations
empty and no byte changed, and leave a request that holds each active lane's address, operand and expected value; a
global element whose check is refused is parked with its code. An element of a satom that lands gives back the old word
and writes the operation's result, and no other byte; it waits for the lower lanes; and with an uncorrectable error in
its word it writes nothing. cdet gives twice a lane's rank among the active lanes that share its key, plus 1 for the
last of them; vcomb folds A over the lanes up to it that share its B. Clauses that rest on the model's own readings: log
106. -/
def Obligations.Atomics : Prop :=
  (((∀ s k T p f, Ready s k T (.satom p f) → s.queueUse k < 8 →
    Goes (.satom p f) s k T (fun t T' => Emptied T T' f.d 1 ∧ SameValues T T' ∧ SameMemory s t)) ∧
  (∀ s k T i d z, GlobalAtomic i d z → Ready s k T i → s.queueUse k < 8 →
    Goes i s k T (fun t T' => Emptied T T' d (if z = .d then 2 else 1) ∧ SameValues T T' ∧ SameMemory s t)) ∧
  (∀ s k T p f, Ready s k T (.satom p f) → s.queueUse k < 8 → T.active ≠ [] →
    (∀ n ∈ T.active, ∃ core off w1, nearPlace (s.frame T) (some n) (nearAt f.a f.x s T n) 4 = .ok (.spm core off w1)) →
    ∃ t r, exec (.satom p f) s = .next t ∧ t.reqs.get? s.nextId = some r ∧ r.team = k ∧ r.kind = .satom p ∧
      r.elems.map (fun e => (e.lane, e.addr, e.val, e.exp)) = T.active.map (fun n =>
        (n, (nearAt f.a f.x s T n).setWidth 64, (s.word T n f.b.op).setWidth 128, (s.word T n f.c.op).setWidth 64))) ∧
  (∀ s k T i p l z d a b c posted, AtomicForm i p l z d a b c posted → Ready s k T i → s.queueUse k < 8 → T.active ≠ [] →
    let size := if z = .d then 8 else 4
    let value n o : DWord := if z = .d then s.dword T n o else (s.word T n o).setWidth 64
    ∃ t id r, exec i s = .next t ∧ s.nextId ≤ id ∧ t.reqs.get? id = some r ∧ r.team = k ∧ r.kind = .gatom p size l ∧ r.dst = d ∧
      r.posted = posted ∧ r.words = (if d = .none then [] else T.swept) ∧
      r.elems.map (fun e => (e.lane, e.addr, e.val, e.exp)) = T.active.map (fun n =>
        (n, s.dword T n a.1 + BitVec.ofInt 64 a.2.toInt, (value n b).setWidth 128, value n c)) ∧
      ∀ e ∈ r.elems, (2 ^ 52 ≤ e.addr.toNat → e.parkedCode = some 0x30) ∧
        (e.addr.toNat < 2 ^ 52 → e.addr.toNat % size ≠ 0 → e.parkedCode = some 0x34) ∧
        (e.addr.toNat < 2 ^ 52 → e.addr.toNat % size = 0 →
          match s.translate T.cluster (s.tenantIdOf T) e.addr.toNat (.write T.handler.isSome) size with
          | .ok pa => e.st = .transit ∧ e.pa = pa
          | .error g => e.parkedCode = some (match g with | .translation => 0x31 | .protection => 0x32 | .owner => 0x33)))) ∧
  (∀ s id n r e T core off w1 p, Landing s id n 0 r e T (.spm core off w1) → r.kind = .satom p →
    ∃ t, exec (landEvent id n 0) s = .next t ∧ t.dram = s.dram ∧ t.host = s.host ∧
      (s.nearPoisoned (.spm core off w1) 4 = false →
        Memory.word t.spm (spmKey core off) =
          atomicRule p (Memory.word s.spm (spmKey core off)) (e.val.setWidth 32) (e.exp.setWidth 32) ∧
        (∀ a, a < spmKey core off ∨ spmKey core off + 4 ≤ a → Memory.byte t.spm a = Memory.byte s.spm a) ∧ t.teams = s.teams) ∧
      (s.nearPoisoned (.spm core off w1) 4 = true → t.spm = s.spm) ∧
      (r.words ≠ [] → ∃ r', t.reqs.get? id = some r' ∧ ∃ e' ∈ r'.elems, e'.lane = n ∧
        (s.nearPoisoned (.spm core off w1) 4 = false → e'.st = .done ∧
          e'.got = (Memory.word s.spm (spmKey core off)).setWidth 128) ∧
        (s.nearPoisoned (.spm core off w1) 4 = true → e'.st = .poisoned)))) ∧
  ((∀ s k T f, Ready s k T (.cdet f) → ∃ t T', exec (.cdet f) s = .next t ∧ LaneDone s k T (.cdet f) f.d
    (fun n => BitVec.ofNat 32 (2 * (sharing s T f.a.op n (fun m => decide (m < n))).length +
      (if sharing s T f.a.op n (fun m => decide (n < m)) = [] then 1 else 0))) t T') ∧
  (∀ s k T p f, Ready s k T (.vcomb p f) → ∃ t T', exec (.vcomb p f) s = .next t ∧ LaneDone s k T (.vcomb p f) f.d
    (fun n => foldRule (combRule p) ((sharing s T f.b.op n (fun m => decide (m ≤ n))).map (fun m => s.word T m f.a.op))) t T'))

/-- R134, R137, R140, R312: a global atomic element that its slice takes up gives back the old value, the word or dword
at its address takes the new one, and no other byte changes; an input of an arld that is read at its slice is its
region's, and nothing is written. Clauses that rest on the model's own readings: log 99. -/
def Obligations.GlobalAtomicActs : Prop :=
  (∀ (s : State) id n r e T op size place, s.reqs.get? id = some r → r.kind = .gatom op size place → s.team? r.team = some T →
    r.transit? n = some e → s.lineFirst id r e = true → s.arrives (.elem id n) = true → size = 4 ∨ size = 8 →
    ∃ t, exec (.globalAtomicExecute id n) s = .next t ∧ t.spm = s.spm ∧
      (s.physPoisoned e.pa size = true → t.dram = s.dram ∧ t.host = s.host) ∧
      (s.physPoisoned e.pa size = false →
        (size = 4 → t.physRead e.pa 4 = (atomicRule (w := 32) op (BitVec.ofNat 32 (s.physRead e.pa 4)) (e.val.setWidth 32)
          (e.exp.setWidth 32)).toNat) ∧
        (size = 8 → t.physRead e.pa 8 = (atomicRule (w := 64) op (BitVec.ofNat 64 (s.physRead e.pa 8)) (e.val.setWidth 64)
          e.exp).toNat) ∧
        (∀ a, a < e.pa ∨ e.pa + size ≤ a → t.physByte a = s.physByte a) ∧
        (r.words ≠ [] → ∃ r', t.reqs.get? id = some r' ∧ ∃ e' ∈ r'.elems, e'.lane = n ∧ e'.st = .done ∧
          e'.got = BitVec.ofNat 128 (s.physRead e.pa size)))) ∧
  (∀ (s : State) id n r e T g, s.reqs.get? id = some r → r.kind = .value → r.arld = true → s.team? r.team = some T →
    r.transit? n = some e → s.arrives (.elem id n) = true → s.physPoisoned e.pa 4 = false → T.regionOf n = some g →
    ∃ t T' r', exec (.globalAtomicExecute id n) s = .next t ∧ SameMemory s t ∧ t.reqs.get? id = some r' ∧
      (∃ e' ∈ r'.elems, e'.lane = n ∧ e'.st = .done ∧ e'.got = BitVec.ofNat 128 (s.physRead e.pa 4 % 2 ^ 32)) ∧
      t.team? r.team = some T' ∧ ∃ g', T'.regionOf n = some g' ∧ g'.records = g.records ∧ g'.doom = g.doom ∧
        ∀ j, j < g.inputs.length → (g'.inputs[j]?).map Input.v =
          if e.exp ≠ 0 ∧ j = e.exp.toNat - 1 then some (BitVec.ofNat 32 (s.physRead e.pa 4)) else (g.inputs[j]?).map Input.v)

/-- R102, R103, R111, R112, R114, R122, R123, R127: an element that reaches another core is checked there for its grant;
it goes on, or parks with 0x20, and the last of an instruction's elements to be checked forms its entry and raises its
one trap; a checked element waits for those that go before it; and the elements of a released entry replay one at a time
on memory as it stands, once the instruction's good ones have landed, each giving its lane its data at once, the last
ending the entry, and those of 16 bytes word by word. Clauses that rest on the model's own readings: log 106 and 118. -/
def Obligations.ElementsArrive : Prop :=
  ((∀ s id n r e T core off, Arriving s id n r e T core off → s.granted (s.frame T) core off = true →
    ∃ t r', exec (.window1ElementArrive id n) s = .next t ∧ SameMemory s t ∧ t.teams = s.teams ∧ t.reqs.get? id = some r' ∧
      ∃ e' ∈ r'.elems, e' = { e with st := .landing }) ∧
  (∀ s id n r e T core off, Arriving s id n r e T core off → s.granted (s.frame T) core off = false →
    (∃ x ∈ r.elems, x.lane ≠ n ∧ x.st = .transit) →
    ∃ t r', exec (.window1ElementArrive id n) s = .next t ∧ SameMemory s t ∧ t.reqs.get? id = some r' ∧ r'.entry = r.entry ∧
      ∃ e' ∈ r'.elems, e'.lane = n ∧ e'.parkedCode = some 0x20) ∧
  (∀ s id n r e T core off g x, Arriving s id n r e T core off → r.kind.queued = true → s.granted (s.frame T) core off = false →
    r.entry = none → (r.elems.map Elem.lane).Nodup → (∀ y ∈ r.elems, y.lane ≠ n → y.st ≠ .transit) → s.grid? (s.gridIdOf T) = some g →
    g.launch.handler.isSome = true → T.handler = none → s.tenant? g.tenant = some x → x.records.length < 256 →
    (∀ y ∈ s.arising, y.tenant ≠ g.tenant) →
    ∃ t r' x' rec, exec (.window1ElementArrive id n) s = .next t ∧ SameMemory s t ∧ t.reqs.get? id = some r' ∧
      r'.entry = some (s.freeEntry r.team) ∧ t.tenant? g.tenant = some x' ∧ x'.records = x.records ++ [rec] ∧ rec.kind = 1 ∧
      rec.party = .team r.team ∧ rec.code = 0x20 ∧ rec.addr = e.addr ∧ rec.pc = r.pc ∧ rec.mask = Mask.ofLanes [n] ∧
      rec.aux = BitVec.ofNat 64 (8 + s.freeEntry r.team))) ∧
  (∀ s id n w r e T l, s.reqs.get? id = some r → s.team? r.team = some T → n < 1024 → r.flying? n = some e → e.st = .landing →
    (r.elems.map Elem.lane).Nodup → elemPlace (s.frame T) r.kind e = .ok l → (∀ x ∈ r.elems, x.parkedCode = none) →
    HeldBack s id n r T l → ∃ t, exec (landEvent id n w) s = .next t ∧ SameMemory s t ∧ t.teams = s.teams) ∧
  (∀ s id n r e T, s.reqs.get? id = some r → s.team? r.team = some T → n < 1024 → r.flying? n = some e → e.st = .transit →
    r.entry = none → 8 ≤ (s.entries r.team).length → exec (.window1ElementArrive id n) s = .next s) ∧
  (∀ s k entry id r, s.reqs.find? (fun e => e.2.team == k && e.2.entry == some entry && e.2.released) = some (id, r) → r.kind.near = true →
    (∃ x ∈ r.elems, x.flying = true) → exec (.parkedElementReplay k entry) s = .next s) ∧
  ((∀ s k entry id r e T size sg l base c, Replaying s k entry id r e T size l → r.kind = .load size sg → size ≠ 16 → r.dst = .v base c →
    base + c ≤ 256 → s.nearPoisoned l size = false →
    ∃ t T', exec (.parkedElementReplay k entry) s = .next t ∧ SameMemory s t ∧ t.team? k = some T' ∧
      (∀ j < c, T'.regs.word e.lane (base + j) =
        ((r.kind.extend (BitVec.ofNat 128 (s.nearRead k l size))) >>> (32 * j)).setWidth 32) ∧
      ((∀ x ∈ r.elems, x.lane ≠ e.lane → x.st = .done) → (∀ w ∈ r.words, w < 32) →
        t.reqs.get? id = none ∧ ∀ v w, base ≤ v → v < base + c → w ∈ r.words → T'.regs.vflag v w = .full)) ∧
  (∀ s k entry id r e T size core off w1, Replaying s k entry id r e T size (.spm core off w1) → r.kind = .store size → size ≠ 16 →
    ∃ t, exec (.parkedElementReplay k entry) s = .next t ∧ t.dram = s.dram ∧ t.host = s.host ∧
      Memory.read t.spm (spmKey core off) size = e.val.toNat % 256 ^ size ∧
      ∀ a, a < spmKey core off ∨ spmKey core off + size ≤ a → Memory.byte t.spm a = Memory.byte s.spm a) ∧
  (∀ s k entry id r e T core off w1, Replaying s k entry id r e T 16 (.spm core off w1) → e.landed.length < 3 → e.landed.Nodup →
    (∃ sg, r.kind = .load 16 sg) ∨ r.kind = .store 16 →
    ∃ t r' e' w, exec (.parkedElementReplay k entry) s = .next t ∧ t.reqs.get? id = some r' ∧ r'.released = true ∧ e' ∈ r'.elems ∧
      w < 4 ∧ w ∉ e.landed ∧ e'.lane = e.lane ∧ e'.landed = w :: e.landed ∧ e'.st = e.st ∧
      (∀ sg, r.kind = .load 16 sg → SameMemory s t ∧
        e'.got = e.got ||| (BitVec.ofNat 128 (s.nearRead k (.spm core (off + 4 * w) w1) 4) <<< (32 * w))) ∧
      (r.kind = .store 16 → t.dram = s.dram ∧ t.host = s.host ∧
        Memory.read t.spm (spmKey core off + 4 * w) 4 = e.val.toNat / 2 ^ (32 * w) % 2 ^ 32 ∧
        ∀ a, a < spmKey core off + 4 * w ∨ spmKey core off + 4 * w + 4 ≤ a → Memory.byte t.spm a = Memory.byte s.spm a)))

/-! ### Terms -/

namespace Sys2Proof.Claims

/-- The tag of a term word, its low word, and the term words of R170. -/
def tagNum (w : DWord) : Nat := w.toNat / 2 ^ 60
def low (w : DWord) : Word := w.setWidth 32
def termOf (tag : Nat) (p : Word) : DWord := BitVec.ofNat 64 (tag * 2 ^ 60 + p.toNat)
def refTo (p : Word) : DWord := termOf 0 p
def emptyEntry : DWord := 0xF000000000000000

/-- A word that may be dispatched on: no reserved tag, not UNB, and no payload bit that R170 does not name (R180). -/
def Sound (w : DWord) : Prop :=
  tagNum w ≤ 9 ∧ (tagNum w = 6 → w.toNat / 2 ^ 48 % 2 ^ 12 = 0) ∧ (tagNum w = 8 → w.toNat % 2 ^ 60 = 0) ∧
    (tagNum w ≠ 3 → tagNum w ≠ 6 → tagNum w ≠ 8 → w.toNat / 2 ^ 32 % 2 ^ 28 = 0)

/-- The dword lane `n` reads at a near address: none where a check refuses it or a word is poisoned. -/
def cellAt (s : State) (k : Nat) (T : Team) (n : Nat) (a : Word) : Option DWord :=
  match s.nearCheck (s.frame T) (some n) a 8 with
  | .ok l => if s.nearPoisoned l 8 then none else some (BitVec.ofNat 64 (s.nearRead k l 8))
  | .error _ => none

/-- The state after lane `n` has written dwords at near addresses, in the order of the list; none where a check refuses one. -/
def writeCells (k : Nat) (T : Team) (n : Nat) : State → List (Word × DWord) → Option State
  | s, [] => some s
  | s, (a, x) :: r =>
    match s.nearCheck (s.frame T) (some n) a 8 with
    | .ok l => writeCells k T n (s.nearWrite k l 8 x.toNat) r
    | .error _ => none

/-- The address of a column entry. -/
def entryOf (c : TermCtx) (k : Word) : Word := c.cb + BitVec.ofNat 32 (8 * k.toNat)

/-- Dereferencing a word, reached by way of a cell or not, with the reads it takes (R182). -/
inductive Derefs (rd : Word → Option DWord) (c : TermCtx) : DWord → Option Word → Deref → Nat → Prop where
  | self (w cell) : Sound w → tagNum w = 0 → rd (low w) = some w → Derefs rd c w cell (.ref (low w)) 1
  | link (w cell x d n) : Sound w → tagNum w = 0 → rd (low w) = some x → x ≠ w → Derefs rd c x (some (low w)) d n →
      Derefs rd c w cell d (n + 1)
  | unbound (w cell) : Sound w → tagNum w = 1 → (low w).toNat < c.ct.toNat → rd (entryOf c (low w)) = some emptyEntry →
      Derefs rd c w cell (.cvar (low w) (match cell with | some p => refTo p | none => w)) 1
  | bound (w cell x d n) : Sound w → tagNum w = 1 → (low w).toNat < c.ct.toNat → rd (entryOf c (low w)) = some x →
      tagNum x ≠ 15 → Derefs rd c x none d n → Derefs rd c w cell d (n + 1)
  | value (w cell) : Sound w → tagNum w ≠ 0 → tagNum w ≠ 1 → Derefs rd c w cell (.value w) 0

/-- The cell a variable stands in, and the dword that logs a binding of it (R173). -/
def varCell (c : TermCtx) : Deref → Option (Word × DWord)
  | .ref p => some (p, refTo p)
  | .cvar k _ => some (entryOf c k, termOf 1 k)
  | .value _ => none

/-- Two dereferenced words are the same variable. -/
def sameVar : Deref → Deref → Prop
  | .ref p, .ref q => p = q
  | .cvar j _, .cvar k _ => j = k
  | _, _ => False

/-- Of two variables, the first is the younger (R184). -/
def youngerThan : Deref → Deref → Prop
  | .ref p, .ref q => q.toNat < p.toNat
  | .ref _, .cvar _ _ => True
  | .cvar j _, .cvar k _ => k.toNat < j.toNat
  | _, _ => False

/-- A stack or a heap stays within a lane's stride of it; with a stride of 0 no limit is checked (R176). -/
def Within (base stride n top : Nat) : Prop := stride ≠ 0 → top ≤ base + (n + 1) * stride

/-- Binding a variable to a word in a context: its cell and the trail are written, and TT rises by 8 (R173, R183). -/
def Binds (k : Nat) (T : Team) (n : Nat) (s : State) (c : TermCtx) (v : Deref) (x : DWord) (s' : State) (c' : TermCtx) : Prop :=
  ∃ cell log, varCell c v = some (cell, log) ∧ Within T.trail T.tstride n (c.tt.toNat + 8) ∧
    writeCells k T n s [(cell, x), (c.tt, log)] = some s' ∧ c' = { c with tt := c.tt + 8 }

/-- Undoing the trail from TT down to a mark (R191); `chk` asks that each dword read is sound. -/
inductive Undoes (k : Nat) (T : Team) (n : Nat) (chk : Bool) (mark : Nat) : State → Word → State → Word → Prop where
  | stop (s tt) : tt.toNat ≤ mark → Undoes k T n chk mark s tt s tt
  | ref (s tt e s1 s2 tt2) : mark < tt.toNat → cellAt s k T n (tt - 8) = some e → tagNum e = 0 → (chk = true → Sound e) →
      writeCells k T n s [(low e, e)] = some s1 → Undoes k T n chk mark s1 (tt - 8) s2 tt2 → Undoes k T n chk mark s tt s2 tt2
  | cvar (s tt e s1 s2 tt2) : mark < tt.toNat → cellAt s k T n (tt - 8) = some e → tagNum e = 1 → (chk = true → Sound e) →
      writeCells k T n s [(entryOf (T.ctx n) (low e), emptyEntry)] = some s1 → Undoes k T n chk mark s1 (tt - 8) s2 tt2 →
      Undoes k T n chk mark s tt s2 tt2

/-- A mark that untrail accepts (R191), with a trail of whole dwords. -/
def MarkOk (T : Team) (n m : Nat) : Prop :=
  m % 8 = 0 ∧ T.trail + n * T.tstride ≤ m ∧ m ≤ (T.ctx n).tt.toNat ∧ (T.ctx n).tt.toNat % 8 = 0

/-- The arity of a FUN word (R170). -/
def arity (f : DWord) : Nat := f.toNat / 2 ^ 32 % 2 ^ 16

/-- The argument cells of a value, and the reads it takes to find them (R185). -/
inductive ArgCells (rd : Word → Option DWord) : DWord → List (Word × Nat) → Nat → Prop where
  | str (w f) : tagNum w = 5 → rd (low w) = some f → Sound f → tagNum f = 6 →
      ArgCells rd w (if arity f = 0 then [] else [(low w + 8, arity f)]) 1
  | list (w) : tagNum w = 7 → ArgCells rd w [(low w, 2)] 0
  | none (w) : tagNum w ≠ 5 → tagNum w ≠ 7 → ArgCells rd w [] 0

/-- The cells that remain of a run when its first has been taken. -/
def cellsLeft (p : Word) (m : Nat) : List (Word × Nat) := if m ≤ 1 then [] else [(p + 8, m - 1)]
def pairsLeft (p q : Word) (m : Nat) : List (Word × Word × Nat) := if m ≤ 1 then [] else [(p + 8, q + 8, m - 1)]

/-- The occurs check of a variable over runs of argument cells, with the reads it takes, on a stack whose 64 entries in
hardware hold `base` others (R185, R186). -/
inductive Occurs (rd : Word → Option DWord) (c : TermCtx) (v : Deref) (base : Nat) : List (Word × Nat) → Nat → Bool → Prop where
  | none : Occurs rd c v base [] 0 false
  | found (p m st x d i) : rd p = some x → Derefs rd c x none d i → sameVar d v → Occurs rd c v base ((p, m) :: st) (1 + i) true
  | value (p m st x y i args j r b) : rd p = some x → Derefs rd c x none (.value y) i → ArgCells rd y args j →
      base + (args ++ cellsLeft p m ++ st).length ≤ 64 → Occurs rd c v base (args ++ cellsLeft p m ++ st) r b →
      Occurs rd c v base ((p, m) :: st) (1 + i + j + r) b
  | other (p m st x d i r b) : rd p = some x → Derefs rd c x none d i → (∀ y, d ≠ .value y) → ¬sameVar d v →
      Occurs rd c v base (cellsLeft p m ++ st) r b → Occurs rd c v base ((p, m) :: st) (1 + i + r) b

/-- Binding a variable to a value in unify, or in unify.oc, which first looks for the variable in a list or a structure: the state
and context after, the reads, and whether it bound (R183, R185). -/
inductive BindsValue (oc : Bool) (k : Nat) (T : Team) (n : Nat) (s : State) (c : TermCtx) (base : Nat) (v : Deref) (y : DWord) :
    State → TermCtx → Nat → Bool → Prop where
  | plain (s' c') : (oc = true → tagNum y ≠ 5 ∧ tagNum y ≠ 7) → Binds k T n s c v y s' c' → BindsValue oc k T n s c base v y s' c' 0 true
  | checked (args i r s' c') : oc = true → tagNum y = 5 ∨ tagNum y = 7 → ArgCells (cellAt s k T n) y args i →
      base + args.length ≤ 64 → Occurs (cellAt s k T n) c v base args r false → Binds k T n s c v y s' c' →
      BindsValue oc k T n s c base v y s' c' (i + r) true
  | refused (args i r) : oc = true → tagNum y = 5 ∨ tagNum y = 7 → ArgCells (cellAt s k T n) y args i →
      base + args.length ≤ 64 → Occurs (cellAt s k T n) c v base args r true → BindsValue oc k T n s c base v y s c (i + r) false

/-- Unifying a pair of words, if there is one, and then the pairs of cells that wait, the last pushed first: the state and context
after, the reads, and whether all unify (R183 to R186). The stack stays within its 64 entries in hardware here. -/
inductive Unifies (oc : Bool) (k : Nat) (T : Team) (n : Nat) :
    State → TermCtx → Option (DWord × DWord) → List (Word × Word × Nat) → State → TermCtx → Nat → Bool → Prop where
  | done (s c) : Unifies oc k T n s c none [] s c 0 true
  | cells (s c p q m st x y s' c' r b) : cellAt s k T n p = some x → cellAt s k T n q = some y →
      Unifies oc k T n s c (some (x, y)) (pairsLeft p q m ++ st) s' c' r b →
      Unifies oc k T n s c none ((p, q, m) :: st) s' c' (r + 2) b
  | clash (s c x y st v w i j) : Derefs (cellAt s k T n) c x none (.value v) i → Derefs (cellAt s k T n) c y none (.value w) j →
      (tagNum v ≠ tagNum w ∨ v ≠ w ∧ tagNum v ≠ 8 ∧ tagNum v ≠ 5 ∧ tagNum v ≠ 7) →
      Unifies oc k T n s c (some (x, y)) st s c (i + j) false
  | same (s c x y st v w i j s' c' r b) : Derefs (cellAt s k T n) c x none (.value v) i →
      Derefs (cellAt s k T n) c y none (.value w) j → tagNum v = tagNum w → tagNum v = 8 ∨ v = w →
      Unifies oc k T n s c none st s' c' r b → Unifies oc k T n s c (some (x, y)) st s' c' (i + j + r) b
  | functors (s c x y st v w i j f g) : Derefs (cellAt s k T n) c x none (.value v) i →
      Derefs (cellAt s k T n) c y none (.value w) j → tagNum v = 5 → tagNum w = 5 → v ≠ w →
      cellAt s k T n (low v) = some f → cellAt s k T n (low w) = some g → Sound f → Sound g → tagNum f = 6 → tagNum g = 6 → f ≠ g →
      Unifies oc k T n s c (some (x, y)) st s c (i + j + 2) false
  | structures (s c x y st v w i j f s' c' r b) : Derefs (cellAt s k T n) c x none (.value v) i →
      Derefs (cellAt s k T n) c y none (.value w) j → tagNum v = 5 → tagNum w = 5 → v ≠ w →
      cellAt s k T n (low v) = some f → cellAt s k T n (low w) = some f → Sound f → tagNum f = 6 → (arity f ≠ 0 → st.length < 64) →
      Unifies oc k T n s c none (if arity f = 0 then st else (low v + 8, low w + 8, arity f) :: st) s' c' r b →
      Unifies oc k T n s c (some (x, y)) st s' c' (i + j + 2 + r) b
  | lists (s c x y st v w i j s' c' r b) : Derefs (cellAt s k T n) c x none (.value v) i →
      Derefs (cellAt s k T n) c y none (.value w) j → tagNum v = 7 → tagNum w = 7 → v ≠ w → st.length < 64 →
      Unifies oc k T n s c none ((low v, low w, 2) :: st) s' c' r b → Unifies oc k T n s c (some (x, y)) st s' c' (i + j + r) b
  | left (s c x y st d w i j s1 c1 q s' c' r b) : Derefs (cellAt s k T n) c x none d i → (∀ z, d ≠ .value z) →
      Derefs (cellAt s k T n) c y none (.value w) j → BindsValue oc k T n s c st.length d w s1 c1 q true →
      Unifies oc k T n s1 c1 none st s' c' r b → Unifies oc k T n s c (some (x, y)) st s' c' (i + j + q + r) b
  | right (s c x y st d w i j s1 c1 q s' c' r b) : Derefs (cellAt s k T n) c x none (.value w) i →
      Derefs (cellAt s k T n) c y none d j → (∀ z, d ≠ .value z) → BindsValue oc k T n s c st.length d w s1 c1 q true →
      Unifies oc k T n s1 c1 none st s' c' r b → Unifies oc k T n s c (some (x, y)) st s' c' (i + j + q + r) b
  | leftRefused (s c x y st d w i j q) : Derefs (cellAt s k T n) c x none d i → (∀ z, d ≠ .value z) →
      Derefs (cellAt s k T n) c y none (.value w) j → BindsValue oc k T n s c st.length d w s c q false →
      Unifies oc k T n s c (some (x, y)) st s c (i + j + q) false
  | rightRefused (s c x y st d w i j q) : Derefs (cellAt s k T n) c x none (.value w) i →
      Derefs (cellAt s k T n) c y none d j → (∀ z, d ≠ .value z) → BindsValue oc k T n s c st.length d w s c q false →
      Unifies oc k T n s c (some (x, y)) st s c (i + j + q) false
  | sameVars (s c x y st d e i j s' c' r b) : Derefs (cellAt s k T n) c x none d i → Derefs (cellAt s k T n) c y none e j →
      sameVar d e → Unifies oc k T n s c none st s' c' r b → Unifies oc k T n s c (some (x, y)) st s' c' (i + j + r) b
  | vars (s c x y st d e i j s1 c1 s' c' r b) : Derefs (cellAt s k T n) c x none d i → Derefs (cellAt s k T n) c y none e j →
      (∀ z, d ≠ .value z) → (∀ z, e ≠ .value z) → ¬sameVar d e →
      (youngerThan d e → Binds k T n s c d e.word s1 c1) → (¬youngerThan d e → Binds k T n s c e d.word s1 c1) →
      Unifies oc k T n s1 c1 none st s' c' r b → Unifies oc k T n s c (some (x, y)) st s' c' (i + j + r) b

/-- What one lane of a term instruction does with its two operands: the state after, its context, and its value. -/
abbrev TermRule := State → Team → Nat → DWord → DWord → State → TermCtx → DWord → Prop

/-- The term instructions that read or write memory, in a lane (R182 to R189, R191 to R194). -/
inductive LaneDoes (k : Nat) : Machine.TermOp → TermRule → Prop where
  | mkvar : LaneDoes k .mkvar (fun s T n a _ s' c x =>
      writeCells k T n s [(low a, refTo (low a))] = some s' ∧ c = T.ctx n ∧ x = refTo (low a))
  | mkvarH : LaneDoes k .mkvarH (fun s T n _ _ s' c x =>
      Within T.heap T.tstride n ((T.ctx n).ht.toNat + 8) ∧ writeCells k T n s [((T.ctx n).ht, refTo (T.ctx n).ht)] = some s' ∧
      c = { T.ctx n with ht := (T.ctx n).ht + 8 } ∧ x = refTo (T.ctx n).ht)
  | mkcvar : LaneDoes k .mkcvar (fun s T n a b s' c x =>
      (low b).toNat ≤ 0x1FFFF ∧ writeCells k T n s [(low a, termOf 1 (low b)), (entryOf (T.ctx n) (low b), emptyEntry)] = some s' ∧
      c = { T.ctx n with ct := BitVec.ofNat 32 (max (T.ctx n).ct.toNat ((low b).toNat + 1)) } ∧ x = refTo (low a))
  | mkstr : LaneDoes k .mkstr (fun s T n a b s' c x =>
      let m := (low a).toNat
      let p := (T.ctx n).ht
      let arg (j : Nat) : Word := p + BitVec.ofNat 32 (8 * j)
      m ≤ 65535 ∧ Within T.heap T.tstride n (p.toNat + 8 * (m + 1)) ∧
      writeCells k T n s ((p, BitVec.ofNat 64 (6 * 2 ^ 60 + m * 2 ^ 32 + (low b).toNat)) ::
        (List.range m).map (fun j => (arg (j + 1), refTo (arg (j + 1))))) = some s' ∧
      c = { T.ctx n with ht := arg (m + 1) } ∧ x = termOf 5 p)
  | bind : LaneDoes k .bind (fun s T n a b s' c x =>
      x = 0 ∧ ∃ d e i j, Derefs (cellAt s k T n) (T.ctx n) a none d i ∧ Derefs (cellAt s k T n) (T.ctx n) b none e j ∧
        i + j ≤ 2 ^ 20 ∧ (∀ w, d ≠ .value w) ∧ (sameVar d e → s' = s ∧ c = T.ctx n) ∧
        (¬sameVar d e → Binds k T n s (T.ctx n) d e.word s' c))
  | bcol : LaneDoes k .bcol (fun s T n a _ s' c x =>
      (low a).toNat % 8 = 0 ∧ s' = s ∧ c = { T.ctx n with cb := low a } ∧ x = 0)
  | cut : LaneDoes k .cut (fun s T n a _ s' c x =>
      ((low a).toNat = 0 ∨ (T.ctx n).cs.toNat ≤ (low a).toNat ∧ (low a).toNat ≤ (T.ctx n).bp.toNat ∧
        ((low a).toNat - (T.ctx n).cs.toNat) % 48 = 0) ∧ s' = s ∧ c = { T.ctx n with bp := low a } ∧ x = 0)
  | untrail : LaneDoes k .untrail (fun s T n a _ s' c x =>
      ∃ tt, MarkOk T n (low a).toNat ∧ Undoes k T n false (low a).toNat s (T.ctx n).tt s' tt ∧ c = { T.ctx n with tt := tt } ∧ x = 0)
  | cpush (alt cont) : LaneDoes k (.cpush alt cont) (fun s T n _ _ s' c x =>
      let y := T.ctx n
      let r := if y.bp = 0 then y.cs else y.bp + 48
      Within T.chpt T.tstride n ((if y.bp = 0 then y.cs.toNat else y.bp.toNat + 48) + 48) ∧
      writeCells k T n s [(r, alt), (r + 8, refTo y.tt), (r + 16, refTo y.ht), (r + 24, refTo y.ct), (r + 32, cont),
        (r + 40, refTo y.bp)] = some s' ∧ c = { y with bp := r } ∧ x = 0)
  | cnext (alt) : LaneDoes k (.cnext alt) (fun s T n _ _ s' c x =>
      let r := (T.ctx n).bp
      ∃ m s1 tt ht ct, r ≠ 0 ∧ cellAt s k T n (r + 8) = some m ∧ MarkOk T n m.toNat ∧
        Undoes k T n true m.toNat s (T.ctx n).tt s1 tt ∧ cellAt s1 k T n (r + 16) = some ht ∧ cellAt s1 k T n (r + 24) = some ct ∧
        writeCells k T n s1 [(r, alt)] = some s' ∧ c = { T.ctx n with tt := tt, ht := low ht, ct := low ct } ∧ x = 0)
  | clast : LaneDoes k .clast (fun s T n _ _ s' c x =>
      let r := (T.ctx n).bp
      ∃ m tt ht ct bp, r ≠ 0 ∧ cellAt s k T n (r + 8) = some m ∧ MarkOk T n m.toNat ∧
        Undoes k T n true m.toNat s (T.ctx n).tt s' tt ∧ cellAt s' k T n (r + 16) = some ht ∧ cellAt s' k T n (r + 24) = some ct ∧
        cellAt s' k T n (r + 40) = some bp ∧ c = { T.ctx n with tt := tt, ht := low ht, ct := low ct, bp := low bp } ∧ x = 0)
  | deref : LaneDoes k .deref (fun s T n a _ s' c x =>
      s' = s ∧ c = T.ctx n ∧ ∃ d i, Derefs (cellAt s k T n) (T.ctx n) a none d i ∧ i ≤ 2 ^ 20 ∧ x = d.word)
  | getarg : LaneDoes k .getarg (fun s T n a b s' c x =>
      let j := (low b).toNat
      s' = s ∧ c = T.ctx n ∧ Sound a ∧ 1 ≤ j ∧
        ((tagNum a = 5 ∧ (∃ w, cellAt s k T n (low a) = some w ∧ Sound w ∧ tagNum w = 6 ∧ j ≤ arity w) ∧
            x = refTo (low a + BitVec.ofNat 32 (8 * j))) ∨
          (tagNum a = 7 ∧ j ≤ 2 ∧ x = refTo (low a + BitVec.ofNat 32 (8 * (j - 1))))))
  | unify (oc) : LaneDoes k (.unify oc) (fun s T n a b s' c x =>
      ∃ r y, Unifies oc k T n s (T.ctx n) (some (a, b)) [] s' c r y ∧ r ≤ 2 ^ 20 ∧ x = if y then 1 else 0)

/-- The two operands of a lane, as a term instruction reads them: terms, words, or none. -/
abbrev TermOperands := State → Team → Nat → DWord × DWord
def opTerms (a b : Src) : TermOperands := fun s T n => (s.dword T n a.op, s.dword T n b.op)
def opWords (a b : Src) : TermOperands := fun s T n => ((s.word T n a.op).setWidth 64, (s.word T n b.op).setWidth 64)
def opWord (a : Src) : TermOperands := fun s T n => ((s.word T n a.op).setWidth 64, 0)
def opNone : TermOperands := fun _ _ _ => (0, 0)

/-- The completing term instructions, with what they do, their destinations and their operands. -/
inductive CompletingTerm : Instr → (Team → Machine.TermOp) → Opnd → TermOperands → Prop where
  | mkvar (f) : CompletingTerm (.mkvar f) (fun _ => .mkvar) f.d (opWord f.a)
  | mkvarH (d) : CompletingTerm (.mkvarH d) (fun _ => .mkvarH) d opNone
  | mkcvar (f) : CompletingTerm (.mkcvar f) (fun _ => .mkcvar) f.d (opWords f.a f.b)
  | mkstr (f) : CompletingTerm (.mkstr f) (fun _ => .mkstr) f.d (opWords f.a f.b)
  | bind (f) : CompletingTerm (.bind f) (fun _ => .bind) .zero (opTerms f.a f.b)
  | bcol (f) : CompletingTerm (.bcol f) (fun _ => .bcol) .zero (opWord f.a)
  | cut (f) : CompletingTerm (.cut f) (fun _ => .cut) .zero (opWord f.a)
  | untrail (f) : CompletingTerm (.untrail f) (fun _ => .untrail) .zero (opWord f.a)
  | cpush (f) : CompletingTerm (.cpush f) (fun T => .cpush (dest T f.off) T.continuation) .zero opNone
  | cnext (f) : CompletingTerm (.cnext f) (fun T => .cnext (dest T f.off)) .zero opNone
  | clast : CompletingTerm .clast (fun _ => .clast) .zero opNone

/-- The long-latency term instructions, with how many registers their destinations are. -/
inductive ProducingTerm : Instr → Machine.TermOp → Opnd → Nat → TermOperands → Prop where
  | deref (f) : ProducingTerm (.deref f) .deref f.d 2 (fun s T n => (s.dword T n f.a.op, 0))
  | getarg (f) : ProducingTerm (.getarg f) .getarg f.d 2 (fun s T n => (s.dword T n f.a.op, (s.word T n f.b.op).setWidth 64))
  | unify (f) : ProducingTerm (.unify f) (.unify false) f.d 1 (opTerms f.a f.b)
  | unifyOc (f) : ProducingTerm (.unifyOc f) (.unify true) f.d 1 (opTerms f.a f.b)

/-- A term instruction that has issued: what it does, on the operands its lanes have read. -/
def runOf (op : Machine.TermOp) (d : Opnd) (i : Instr) (s : State) (T : Team) (ops : TermOperands) : TermRun :=
  { op := op, d := d, size := i.size, lanes := T.active.map (fun n => { lane := n, a := (ops s T n).1, b := (ops s T n).2 }) }

/-- A lane's memory and context after it has run: other lanes' contexts, and memory that it did not write, are as before. -/
def LaneLeft (s s1 t : State) (k : Nat) (T T' : Team) (n : Nat) (c : TermCtx) : Prop :=
  T'.ctx n = c ∧ (∀ m, m ≠ n → T'.ctx m = T.ctx m) ∧ t.spm = s1.spm ∧ SameGlobal s t ∧
    ∃ T1, s1.team? k = some T1 ∧ T'.privMem = T1.privMem

/-- Lane `l` is the last at work in its team's term instruction, and has made no access yet. -/
structure LastLane (s : State) (k : Nat) (T : Team) (r : TermRun) (l : TermLane) : Prop where
  team : s.team? k = some T
  running : T.st = .running
  mask : T.amask ≠ 0
  block : ∃ b, s.block? T.block = some b ∧ b.st = .placed
  run : T.run = some r
  fresh : r.fill = none
  lane : r.lanes.find? (fun m => m.lane == l.lane) = some l
  start : l.st = .running ∧ l.log = []
  others : ∀ m ∈ r.lanes, m.lane ≠ l.lane → ∃ y, m.st = .done y
  lanes : (r.lanes.map TermLane.lane).Nodup
  settled : s.nearOut k = false

/-- The lane makes all its accesses in the step that is due: as many as the part then lets it make are enough. -/
def EndsNow (s : State) (k : Nat) (T : Team) (r : TermRun) (l : TermLane) : Prop :=
  ∃ y, (({ s with draws := s.draws + 1 } : State).walkLane k T r.op l s.laneBudget).2.st = .done y

/-- The word tmk makes of a tag and a payload (R181). -/
def madeTerm (a b : Word) : DWord :=
  let tag := a.toNat % 16
  let payload := if tag = 3 then (b.signExtend 60).toNat else if tag = 6 then a.toNat / 16 % 2 ^ 16 * 2 ^ 32 + b.toNat
    else if tag = 8 then 0 else b.toNat
  BitVec.ofNat 64 (tag * 2 ^ 60 + payload)

/-- The value a lane of an instruction has come to, the last one's being x. -/
def laneValue (l : TermLane) (x : DWord) (m : TermLane) : DWord :=
  if m.lane = l.lane then x else match m.st with
    | .done y => y
    | _ => 0

end Sys2Proof.Claims

/-- R178, R181, R190: tmk makes a term word in each lane, and lanes whose tag is reserved or UNB raise one trap, 0x50 or
0x51 as the lowest of them has it, with those lanes as its mask and the others' words made; ttag, tval and tis read one,
and tmark reads a value of the lane's context. -/
def Obligations.TermWords : Prop :=
  (∀ s k T f, Ready s k T (.tmk f) → (∀ n ∈ T.active, (s.word T n f.a.op).toNat % 16 ≤ 9) →
    Goes (.tmk f) s k T (fun t T' => OnlyTeam s t k ∧ SameMemory s t ∧ FilledLane T T' f.d 2 ∧ (∀ n, T'.ctx n = T.ctx n) ∧
      ∀ n, ∀ m < 512, T'.regs.word n m = if n ∈ T.active then
        pairWord f.d (madeTerm (s.word T n f.a.op) (s.word T n f.b.op)) (T.regs.word n) m else T.regs.word n m)) ∧
  (∀ s k T f n ns, Ready s k T (.tmk f) → T.active.filter (fun n => decide (10 ≤ (s.word T n f.a.op).toNat % 16)) = n :: ns →
    ∃ (s1 : State) (T1 : Team) (lanes : Mask), exec (.tmk f) s = .next (s1.takeTrap k 0
        { code := if (s.word T n f.a.op).toNat % 16 = 15 then 0x51 else 0x50, mask := some lanes, term := true }) ∧
      (∀ m < 1024, lanes.getLsbD m = true ↔ m ∈ T.active ∧ 10 ≤ (s.word T m f.a.op).toNat % 16) ∧
      s1.team? k = some T1 ∧ OnlyTeam s s1 k ∧ SameMemory s s1 ∧ FilledLane T T1 f.d 2 ∧ T1.ctl = T.ctl ∧
      (∀ n, T1.ctx n = T.ctx n) ∧ ∀ n, ∀ m < 512, T1.regs.word n m =
        if n ∈ T.active ∧ (s.word T n f.a.op).toNat % 16 < 10 then
          pairWord f.d (madeTerm (s.word T n f.a.op) (s.word T n f.b.op)) (T.regs.word n) m else T.regs.word n m) ∧
  (∀ s k T f, Ready s k T (.ttag f) → ∃ t T', exec (.ttag f) s = .next t ∧
    LaneDone s k T (.ttag f) f.d (fun n => BitVec.ofNat 32 (tagNum (s.dword T n f.a.op))) t T') ∧
  (∀ s k T j f, Ready s k T (.tis j f) → ∃ t T', exec (.tis j f) s = .next t ∧
    LaneDone s k T (.tis j f) f.d (fun n => if tagNum (s.dword T n f.a.op) = j.toNat then 1 else 0) t T') ∧
  (∀ s k T f, Ready s k T (.tval f) → ∃ t T', exec (.tval f) s = .next t ∧
    PairDone s k T (.tval f) f.d (fun n =>
      let w := s.dword T n f.a.op
      if tagNum w = 3 then (w.setWidth 60).signExtend 64 else BitVec.ofNat 64 (w.toNat % 2 ^ 60)) t T') ∧
  (∀ s k T c ext d, Ready s k T (.tmark c ext d) → ∃ t T', exec (.tmark c ext d) s = .next t ∧
    LaneDone s k T (.tmark c ext d) d (fun n => match c with
      | .tt => (T.ctx n).tt | .ht => (T.ctx n).ht | .bp => (T.ctx n).bp | .cb => (T.ctx n).cb | .ct => (T.ctx n).ct
      | .cs => (T.ctx n).cs) t T')

/-- R173, R177, R179, R187, R189, R191 to R194: a completing term instruction issues with its lanes at work, and holds
its team; a lane that makes all its accesses in one step leaves the memory, the context and the value of its rule; and
when the last lane is done the team goes on, its destination pairs holding each lane's value; from where a save has sent
its path, if it has (R322). Clauses that rest on the model's own choices and readings: log 30, 33, 121 and log 114, by
which the addresses of cells are sums modulo 2^32, where R11 makes sums exact. -/
def Obligations.TermsComplete : Prop :=
  (∀ s k T i op d ops, CompletingTerm i op d ops → Ready s k T i →
    ∃ t T', exec i s = .next t ∧ t.team? k = some T' ∧ T' = { T with run := T'.run, region := T'.region } ∧
      T'.run = some (runOf (op T) d i s T ops) ∧ OnlyTeam s t k ∧ SameMemory s t) ∧
  (∀ (s : State) k T op R l s1 c x, LaneDoes k op R → s.team? k = some T → s.nearOut k = false → l.log = [] →
    R s T l.lane l.a l.b s1 c x →
    ∃ N, ∀ budget, N ≤ budget → ∃ t T', s.walkLane k T op l budget = (t, { l with st := .done x }) ∧ t.team? k = some T' ∧
      LaneLeft s s1 t k T T' l.lane c ∧ T'.regs = T.regs ∧ T'.ctl = T.ctl) ∧
  (∀ s k T r l R s1 c x, LastLane s k T r l → LaneDoes k r.op R → R s T l.lane l.a l.b s1 c x → r.op.dst r.d = .none →
    EndsNow s k T r l → ∃ t T', execTermLane k l.lane s = .next t ∧ t.team? k = some T' ∧ T'.run = T.reruns.head? ∧
      T'.ctl = (if r.moved = none then T.ctl.advance r.size else T.ctl) ∧ LaneLeft s s1 t k T T' l.lane c ∧ FilledLane T T' r.d 2 ∧ T'.regs.sreg = T.regs.sreg ∧
      (∀ m ∈ r.lanes, ∀ j < 512, T'.regs.word m.lane j = pairWord r.d (laneValue l x m) (T.regs.word m.lane) j) ∧
      (∀ n, (∀ m ∈ r.lanes, m.lane ≠ n) → ∀ j < 512, T'.regs.word n j = T.regs.word n j))

/-- R40, R173, R177, R179, R182 to R186, R188, R195, R196: a long-latency term instruction issues with its destination
empty and its lanes at work; when the last is done the team goes on, and the request for the destination holds each
lane's value; a lane that stops undoes its bindings, newest first, and when no lane is at work those that stopped raise
one trap, with their mask and the lowest one's code. Clauses that rest on the model's own choices and readings: log 31,
32, 33, 34 and log 114, by which the addresses of cells are sums modulo 2^32, where R11 makes sums exact. -/
def Obligations.TermsProduce : Prop :=
  (∀ s k T i op (v : Fin 256) c ops, ProducingTerm i op (.v v) c ops → Ready s k T i → T.ctl.resume = none →
    ∃ t T', exec i s = .next t ∧ t.team? k = some T' ∧ T' = { T with run := T'.run, region := T'.region, regs := T'.regs } ∧
      T'.run = some (runOf op (.v v) i s T ops) ∧ Emptied T T' (.v v) c ∧ SameValues T T' ∧ OnlyTeam s t k ∧ SameMemory s t) ∧
  (∀ s k T r l R s1 c x v n, LastLane s k T r l → LaneDoes k r.op R → R s T l.lane l.a l.b s1 c x → r.op.dst r.d = .v v n →
    T.ctl.resume = none → r.moved = none → EndsNow s k T r l → ∃ t T' q, execTermLane k l.lane s = .next t ∧ t.team? k = some T' ∧ T'.run = T.reruns.head? ∧
      T'.ctl = T.ctl.advance r.size ∧ LaneLeft s s1 t k T T' l.lane c ∧ T'.regs = T.regs ∧
      t.reqs.get? s.nextId = some q ∧ q.team = k ∧ q.dst = .v v n ∧ q.words = T.swept ∧
      q.elems.map (fun e => (e.lane, e.got)) = r.lanes.map (fun m => (m.lane, (laneValue l x m).setWidth 128))) ∧
  (∀ (s : State) k T op l e es why s1, s.team? k = some T → s.nearOut k = false →
    ((tagNum e = 0 ∧ writeCells k T l.lane s [(low e, e)] = some s1) ∨
      (tagNum e = 1 ∧ writeCells k T l.lane s [(entryOf (T.ctx l.lane) (low e), emptyEntry)] = some s1)) →
    s.undoLane k T op l (e :: es) why = (s1, { l with st := .undoing es why })) ∧
  (∀ (s : State) k T r l code addr lanes, s.team? k = some T → T.st = .running →
    (∃ b, s.block? T.block = some b ∧ b.st = .placed) → T.run = some r → r.fill = none →
    r.lanes.find? (fun m => m.lane == l.lane) = some l → l.st = .undoing [] (some (code, addr)) →
    (∀ m ∈ r.lanes, m.lane ≠ l.lane → (∃ y, m.st = .done y) ∨ ∃ c a, m.st = .stopped c a) →
    lanes = r.lanes.filterMap (fun m => if m.lane = l.lane then some (l.lane, code) else match m.st with
      | .stopped c _ => some (m.lane, c)
      | _ => none) →
    ∃ s' tr, execTermLane k l.lane s = .next (s'.takeTrap k 0 tr) ∧ SameMemory s s' ∧ tr.term = true ∧
      some tr.code = (lanes.head?).map Prod.snd ∧ tr.mask = some (Mask.ofLanes (lanes.map Prod.fst)))

/-! ### The matrix stream -/

namespace Sys2Proof.Claims

/-- A stream instruction completes: the sequencer goes on past it, and `P` holds of the state, the block and the stream that follow. -/
def StreamGoes (i : Instr) (s : State) (b : Nat) (m : Stream) (P : State → Block → Stream → Prop) : Prop :=
  ∃ t x' m', exec i s = .next t ∧ t.block? b = some x' ∧ x'.stream = some m' ∧ m'.pc = m.pc + BitVec.ofNat 64 i.size ∧
    m'.halted = false ∧ m'.ended = false ∧ P t x' m'

/-- It raises the trap `c` of the block's stream, with an element code as detail where the rule gives one. -/
def StreamTraps (i : Instr) (s : State) (b : Nat) (c detail : Byte) : Prop :=
  exec i s = .next (s.takeStreamTrap b i.size { code := c, detail := detail })

/-- Bits of an element (R227). -/
def widthOf : MFmt → Nat
  | .bf16 | .f16 => 16 | .e4m3 | .e5m2 | .s8 => 8 | .e2m3 | .e3m2 => 6 | .e2m1 | .s4 => 4

/-- A weight load: its format, whether it is sparse and transposed, its quadrant mask, image address and scales (R234, R235). -/
inductive WeightLoad : Instr → MFmt → Bool → Bool → BitVec 16 → Src → Src → Prop where
  | mwld (m sp qm a b) : WeightLoad (.mwld m sp qm a b) m sp false qm a b
  | mwldT (m qm a b) : WeightLoad (.mwldT m qm a b) m false true qm a b

/-- A step: its tile, map, Z, K offset and form (R234, R237). -/
inductive StepRule : Instr → StepArgs → Prop where
  | mmul (tile map z x) : StepRule (.mmul tile map z x) { tile := tile, map := map, z := z, x := x, sparse := false }
  | mmsp (tile map z x) : StepRule (.mmsp tile map z x) { tile := tile, map := map, z := z, x := x, sparse := true }

/-- No word of a map's operands is poisoned. -/
def CleanOperands (s : State) (f : Machine.Frame) (m : MMap) : Prop :=
  ∀ a ∈ (List.range m.lines).flatMap m.line ++ m.scaleRun, (s.nearByte f a).2 = false

/-- What a step in flight is, of a block's stream (R237, R239). -/
def StepOf (st : MStep) (b : Nat) (x : Block) (m : Stream) (a : StepArgs) (g : List Member) (mp : MMap) : Prop :=
  st.block = b ∧ st.tile = a.tile ∧ st.map = mp ∧ st.z = a.z ∧ st.x = a.x.toNat ∧ st.sparse = a.sparse ∧ st.group = g ∧
    st.cls = m.cls ∧ st.quads = g.map (fun u => x.quarterOf u.quad) ∧ st.pc = m.pc

/-- The operands a step has yet to read: the scratchpad byte behind every address, none of them read (R249). -/
def Unread (f : Machine.Frame) (st : MStep) : Prop :=
  let run (l : List Word) := l.map (fun e => (nearKey f e, (none : Option Byte)))
  st.lines = (List.range st.map.lines).map (fun j => run (st.map.line j)) ∧ st.scales = run st.map.scaleRun ∧ st.bad = false

/-- Bytes after the words of `W` among them have been read as they stand now. -/
def readNow (s : State) (W : Nat → Bool) (l : List (Nat × Option Byte)) : List (Nat × Option Byte) :=
  l.map (fun e => if e.2 = none ∧ W (e.1 / 4) = true then (e.1, some (Memory.byte s.spm e.1)) else e)

/-- No waiting step that was passed over 64 times needs one of the quadrants (R247). -/
def NoneKept (s : State) (qs : List Nat) (own : Nat) : Prop :=
  ∀ e ∈ s.msteps, e.1 ≠ own → e.2.running = false → (∃ q ∈ e.2.quads, q ∈ qs) → e.2.passed < 64

/-- A format of the engine as one of R143 and R147; the bits of an element; and K_w (R227). -/
def fmtOf : MFmt → Fmt
  | .bf16 => .bf16 | .f16 => .f16 | .e4m3 => .e4m3 | .e5m2 => .e5m2 | .e2m3 => .e2m3 | .e3m2 => .e3m2 | .e2m1 => .e2m1
  | .s8 => .s8 | .s4 => .s4
def engineBits : MFmt → Nat
  | .bf16 | .f16 => 16 | .e4m3 | .e5m2 | .s8 => 8 | .e2m3 | .e3m2 => 6 | .e2m1 | .s4 => 4
def depthOf (f : MFmt) : Nat := match engineBits f with | 16 => 32 | 4 => 128 | _ => 64

/-- Bytes as one little-endian number; and element k, of w bits, of a line that begins at a byte among them (R229). -/
def bytesNum (bs : List Byte) : Nat := bs.foldr (fun b n => b.toNat + 256 * n) 0
def bitsAt (bs : List Byte) (start w k : Nat) : Nat := bytesNum bs / 2 ^ (8 * start + w * k) % 2 ^ w

/-- The weight at a depth of a column, where the image holds one: a dense image, a transposed one, and a sparse one with its
metadata (R230, R231, R238). -/
def weightAt (c : Context) (depth col : Nat) : Option Nat :=
  let w := engineBits c.fmt
  let kept := depthOf c.fmt / 2 * w / 8
  let code := bitsAt c.image (32 * kept + col * (depthOf c.fmt / 8)) 4 (depth / 4)
  if c.sparse then
    if depth % 4 = code % 4 then some (bitsAt c.image (col * kept) w (2 * (depth / 4)))
    else if depth % 4 = code / 4 then some (bitsAt c.image (col * kept) w (2 * (depth / 4) + 1)) else none
  else if c.transposed then some (bitsAt c.image (depth * (32 * w / 8)) w col)
  else some (bitsAt c.image (col * (depthOf c.fmt * w / 8)) w depth)

/-- The scale of a weight, and of an activation a step has read (R230, R236). -/
def weightScaleAt (c : Context) (depth col : Nat) : Nat :=
  match c.scales with
  | none => 127
  | some l => ((l[col * (depthOf c.fmt / 32) + depth / 32]?).getD 0).toNat
def lineScaleAt (st : MStep) (row k : Nat) : Nat :=
  match st.map.scales with
  | none => 127
  | some _ => (((st.scales[row * ((st.map.kc + 31) / 32) + k / 32]?).bind Prod.snd).getD 0).toNat

/-- Activation (row, k) of the lines a step has read (R236). -/
def activationAt (st : MStep) (row k : Nat) : Nat :=
  bitsAt (((st.lines[if st.map.tr then k else row]?).getD []).map (fun e => e.2.getD 0)) 0 (engineBits st.map.fmt)
    (if st.map.tr then row else k)

/-- A product of an activation and a weight with their scales: exact, its zero signed as floats' is; or invalid, a NaN, or an
infinity (R237). -/
def ProductIs (f g : Fmt) (a w sa sw : Nat) (p : Machine.Prod) : Prop :=
  let floats (q : Layout → Layout → Prop) : Prop := ∃ L M, narrow f = some L ∧ narrow g = some M ∧ q L M
  let bad := floats (fun L M => (L.Infinite a ∧ M.mag w = 0) ∨ (M.Infinite w ∧ L.mag a = 0))
  let nan := ElemNan f a ∨ ElemNan g w ∨ sa = 255 ∨ sw = 255
  let inf := floats (fun L M => L.Infinite a ∨ M.Infinite w)
  (bad → p = .invalid) ∧ (¬bad → nan → ∃ q, p = .val (.nan q)) ∧
    (¬bad → ¬nan → inf → ∃ n, p = .val (.inf n) ∧ floats (fun L M => n = (L.neg a ^^ M.neg w))) ∧
    (¬bad → ¬nan → ¬inf → ∃ n m e, p = .val (.fin n m e) ∧
      (if n then -(m : ℚ) else m) * (2 : ℚ) ^ e = elemNum f a * elemNum g w * (2 : ℚ) ^ ((sa : ℤ) + sw - 254) ∧
      (m = 0 → (floats (fun L M => n = (L.neg a ^^ M.neg w)) ∨ (wholes g).isSome = true ∧ n = false)))

/-- The bytes of the lines a step has read. -/
def readLines (st : MStep) : Array (Array Byte) := (st.lines.map (fun l => (l.map (fun e => e.2.getD 0)).toArray)).toArray

end Sys2Proof.Claims

/-- R235: mwld and mwld.t read the image once, for the contexts of every selected quadrant; a mask of none, or of a
quadrant elsewhere, is trap 0x79; and the contexts take the load once no earlier step or load of the block stands on
their quadrants. -/
def Obligations.MatrixWeights : Prop :=
  (∀ s b x m i f sp tr qm p q, WeightLoad i f sp tr qm p q → StreamReady s b x m i →
    ((∃ j, qm.getLsbD j = true) → (∀ j < 16, qm.getLsbD j = true → ∃ c, x.quarters[j]? = some c ∧ coreOf c = x.core) →
      s.readsOut b = false → s.firstBad (x.streamFrame b) (byteRun ((s.streamSrc x p.op).setWidth 32) (imageBytes f sp)) = none →
      (q.op ≠ .zero → s.firstBad (x.streamFrame b) (byteRun ((s.streamSrc x q.op).setWidth 32) (tileScales f)) = none) →
      StreamGoes i s b m (fun t _ m' => SameMemory s t ∧ m' = { m with pc := m'.pc } ∧
        ∃ l, t.latches.get? s.nextId = some l ∧ l.block = b ∧ l.ctx.fmt = f ∧ l.ctx.sparse = sp ∧ l.ctx.transposed = tr ∧
          l.ctx.image = (s.nearBytes (x.streamFrame b) ((s.streamSrc x p.op).setWidth 32) (imageBytes f sp)).1 ∧
          (l.ctx.scales.isSome = true ↔ q.op ≠ .zero) ∧
          ∀ n < 4, n ∈ l.quads ↔ ∃ j, qm.getLsbD j = true ∧ ∃ c, x.quarters[j]? = some c ∧ n = c % 4)) ∧
    (qm = 0 ∨ (∃ j, qm.getLsbD j = true ∧ ∀ c, x.quarters[j]? = some c → coreOf c ≠ x.core) → StreamTraps i s b 0x79 0)) ∧
  (∀ (s : State) id l x m, s.latches.get? id = some l → s.block? l.block = some x → x.stream = some m →
    (∀ e ∈ s.msteps, e.2.block ≠ l.block) → (∀ e ∈ s.latches, e.2.block = l.block → id ≤ e.1) →
    ∃ t x' m', exec (.mwldLatch id) s = .next t ∧ t.block? l.block = some x' ∧ x'.stream = some m' ∧ SameMemory s t ∧
      t.latches.get? id = none ∧
      ∀ q, Table.get? m'.contexts q = if q ∈ l.quads then some l.ctx else Table.get? m.contexts q)

/-- R229 to R231, R236 to R239, R247, R249, R251: a step whose checks pass, whose quadrants are free and are kept for no
step passed over 64 times, starts, and the stream goes on; with a quadrant taken it waits with the stream behind it,
until it is granted them. A running step reads its operand words one by one, each as it stands when it is read, and ends
at one instant: each tile it writes holds its results, the exact sum of the products of its activations and its weights,
dense or sparse, with their scales, rounded once; after an error in a word it read it has no effect and its stream takes
trap 0x77. Clauses that rest on the model's own readings: log 44 and 45. -/
def Obligations.MatrixSteps : Prop :=
  (∀ s b x m i a g mp, StepRule i a → StreamReady s b x m i → s.latchOut b (g.map Member.quad) = false →
    s.stepCheck b x m a = .ok (g, mp) → (∀ u ∈ g, s.quadFree (x.quarterOf u.quad) = true) → CleanOperands s (x.streamFrame b) mp →
    NoneKept s (g.map (fun u => x.quarterOf u.quad)) s.nextId →
    (a.z = true ∨ ∀ u ∈ g, u.half = 0 → Sparse.get false m.tilePoison (16 * u.quad + a.tile % 16) = false) →
    StreamGoes i s b m (fun t _ m' => SameMemory s t ∧ m' = { m with pc := m'.pc } ∧
      ∃ st, t.msteps.get? s.nextId = some st ∧ st.running = true ∧ StepOf st b x m a g mp ∧ Unread (x.streamFrame b) st)) ∧
  (∀ s b x m i a g mp, StepRule i a → StreamReady s b x m i → s.latchOut b (g.map Member.quad) = false →
    s.stepCheck b x m a = .ok (g, mp) → (∃ u ∈ g, s.quadFree (x.quarterOf u.quad) = false) →
    ∃ t st, exec i s = .next t ∧ SameMemory s t ∧ t.blocks = s.blocks ∧ t.msteps.get? s.nextId = some st ∧ st.running = false ∧
      StepOf st b x m a g mp) ∧
  (∀ s b x m i a g mp u, StepRule i a → StreamReady s b x m i → s.latchOut b (g.map Member.quad) = false →
    s.stepCheck b x m a = .ok (g, mp) → (∀ u ∈ g, s.quadFree (x.quarterOf u.quad) = true) →
    NoneKept s (g.map (fun u => x.quarterOf u.quad)) s.nextId → a.z = false → u ∈ g → u.half = 0 →
    Sparse.get false m.tilePoison (16 * u.quad + a.tile % 16) = true →
    StreamTraps i s b 0x77 0) ∧
  (∀ (s : State) id st x m, s.msteps.get? id = some st → st.running = false → 64 ≤ st.passed → s.block? st.block = some x →
    x.st = .placed → x.stream = some m → (∀ q ∈ st.quads, s.quadFree q = true) →
    (∀ e ∈ s.msteps, e ≠ (id, st) → e.2.running = false → e.2.passed < 64) →
    (∃ g mp, s.stepCheck st.block x m (st.args st.mapNo) = .ok (g, mp)) → CleanOperands s (x.streamFrame st.block) st.map →
    (st.z = true ∨ ∀ u ∈ st.group, u.half = 0 → Sparse.get false m.tilePoison (16 * u.quad + st.tile % 16) = false) →
    ∃ t x' m' st', exec (.matrixStarvationGrant id) s = .next t ∧ SameMemory s t ∧ t.msteps.get? id = some st' ∧ st'.running = true ∧
      t.block? st.block = some x' ∧ x'.stream = some m' ∧ m' = { m with pc := m.pc + 12 }) ∧
  (∀ (s : State) id st, s.msteps.get? id = some st → st.running = true → st.unread ≠ [] →
    ∃ t st' W, exec (.matrixStepEnd id) s = .next t ∧ SameMemory s t ∧ t.blocks = s.blocks ∧ t.msteps.get? id = some st' ∧
      W (st.unread.headD 0) = true ∧
      st' = { st with lines := st.lines.map (readNow s W), scales := readNow s W st.scales, bad := st'.bad } ∧
      (st'.bad = true ↔ st.bad = true ∨ ∃ w ∈ st.unread, W w = true ∧ Sparse.get false s.spmPoison w = true)) ∧
  (∀ (s : State) id st x m, s.msteps.get? id = some st → st.running = true → st.unread = [] → st.bad = false →
    s.block? st.block = some x → x.stream = some m →
    (∀ e ∈ s.msteps, e.2.running = true) → (st.group.map Member.quad).Nodup →
    ∃ t x' m', exec (.matrixStepEnd id) s = .next t ∧ SameMemory s t ∧ t.msteps.get? id = none ∧ t.block? st.block = some x' ∧
      x'.stream = some m' ∧ m' = { m with tiles := m'.tiles, tilePoison := m'.tilePoison } ∧
      (∀ u ∈ st.group, u.half = 0 → Sparse.get false m'.tilePoison (16 * u.quad + st.tile % 16) = false ∧
        ∀ r < 32, ∀ c < 32,
        Sparse.get 0 m'.tiles (tileKey (16 * u.quad + st.tile % 16) r c) =
          BitVec.ofNat 32 (fF32.sumVals
            (.val (if st.z then .fin false 0 0 else fF32.decode (Sparse.get 0 m.tiles (tileKey (16 * u.quad + st.tile % 16) r c)).toNat) ::
              st.products (readLines st)
                ((st.group.filter (fun v => v.col == u.col)).filterMap (fun v =>
                  (Table.get? m.contexts v.quad).map (fun k => (v.half, k, k.image.toArray)))) r c) false .rn).1) ∧
      ∀ j r c, r < 32 → c < 32 → (∀ u ∈ st.group, u.half = 0 → j ≠ 16 * u.quad + st.tile % 16) →
        Sparse.get 0 m'.tiles (tileKey j r c) = Sparse.get 0 m.tiles (tileKey j r c)) ∧
  (∀ (st : MStep) (cs : List (Nat × Context × Array Byte)) row col, row < 32 → col < 32 → (cs.map Prod.fst).Nodup →
    (∀ e ∈ cs, e.2.2 = e.2.1.image.toArray ∧ ∀ e' ∈ cs, e.2.1.fmt = e'.2.1.fmt) →
    (∀ e ∈ cs, (wholes (fmtOf e.2.1.fmt)).isSome = (wholes (fmtOf st.map.fmt)).isSome) →
    ∃ ps, st.products (readLines st) cs row col = (List.range st.map.kc).filterMap ps ∧ ∀ k < st.map.kc, ∀ e ∈ cs,
      let depth := (st.x + k) % depthOf e.2.1.fmt
      e.1 = (st.x + k) / depthOf e.2.1.fmt → match weightAt e.2.1 depth col with
        | none => ps k = none
        | some w => ∃ p, ps k = some p ∧ ProductIs (fmtOf st.map.fmt) (fmtOf e.2.1.fmt) (activationAt st row k) w
            (lineScaleAt st row k) (weightScaleAt e.2.1 depth col) p) ∧
  (∀ (s : State) id st, s.msteps.get? id = some st → st.running = true → st.unread = [] → st.bad = true →
    (∀ e ∈ s.msteps, e.2.running = true) →
    exec (.matrixStepEnd id) s = .next (({ s with msteps := s.msteps.del id } : State).takeStreamTrap st.block 12
      { code := 0x77, pc := some st.pc }))

/-- R221, R242, R243: mrd of a team or of the stream, where an s register in A is trap 0x02 and an earlier step on the
tile is waited for, leaves its checked tile's bytes on their way and changes no memory yet; they land when it completes,
and a team's counter falls. mtov gives lane i element i mod 32 of a row. -/
def Obligations.MatrixReads : Prop :=
  (∀ s k T x m f r stride a tile off w, Ready s k T (.mrd f r stride a tile off) → s.streamOf T = some (x, m) → T.count.matrix < 255 →
    s.tileRead f r (s.frame T) T.block x m (some k) tile (16 * stride.toNat)
      ((s.uni T a.op).setWidth 32 + BitVec.ofInt 32 off.toInt) = .ok w →
    Goes (.mrd f r stride a tile off) s k T (fun t T' => T'.regs = T.regs ∧ SameMemory s t ∧ t.mreads.get? s.nextId = some w ∧
      T'.count = { T.count with matrix := T.count.matrix + 1 } ∧ T'.issued = (.matrix, s.nextId) :: T.issued)) ∧
  (∀ s b x m f r stride n h tile off, StreamReady s b x m (.mrd f r stride ⟨.s n, h⟩ tile off) →
    StreamTraps (.mrd f r stride ⟨.s n, h⟩ tile off) s b 0x02 0) ∧
  (∀ s b x m f r stride a tile off, StreamReady s b x m (.mrd f r stride a tile off) → s.stepOn b tile MStep.tiles = true →
    streamSource a.op = true → s.tileOk x tile = true →
    s.rdCheck f (x.streamFrame b) x tile (16 * stride.toNat) ((s.streamSrc x a.op).setWidth 32 + BitVec.ofInt 32 off.toInt) = .ok () →
    exec (.mrd f r stride a tile off) s = s.notReady) ∧
  (∀ s b x m f r stride a tile off w, StreamReady s b x m (.mrd f r stride a tile off) → s.stepOn b tile MStep.tiles = false →
    streamSource a.op = true →
    s.tileRead f r (x.streamFrame b) b x m none tile (16 * stride.toNat)
      ((s.streamSrc x a.op).setWidth 32 + BitVec.ofInt 32 off.toInt) = .ok w →
    StreamGoes (.mrd f r stride a tile off) s b m (fun t _ m' => m' = { m with pc := m'.pc } ∧ SameMemory s t ∧
      t.mreads.get? s.nextId = some w)) ∧
  (∀ (s : State) r f b x m team tile stride e w, s.tileRead .f32 r f b x m team tile stride e = .ok w →
    w.rows = (List.range 32).map (fun row => (f.p + (e.toNat % 2 ^ 20 + row * stride), (List.range 32).flatMap (fun c =>
      (List.range 4).map (fun j => BitVec.ofNat 8 ((Sparse.get 0 m.tiles (tileKey tile row c)).toNat / 256 ^ j)))))) ∧
  (∀ s k T f r stride a tile off, Ready s k T (.mrd f r stride a tile off) → s.streamOf T = none →
    Traps (.mrd f r stride a tile off) s k 0x73) ∧
  (∀ (s : State) id w k T, s.mreads.get? id = some w → w.team = some k → s.team? k = some T →
    Leads (.mrdComplete id) s k (fun t T' => T'.count = { T.count with matrix := T.count.matrix - 1 } ∧ T'.regs = T.regs ∧
      t.mreads.get? id = none ∧ SameGlobal s t ∧ t.spm = (s.storeRows w.core w.rows).spm)) ∧
  (∀ (s : State) core off bs rest, s.storeRows core ((off, bs) :: rest) = (s.storeRows core [(off, bs)]).storeRows core rest ∧
    ∀ a, Memory.byte (s.storeRows core [(off, bs)]).spm a =
      if spmKey core off ≤ a ∧ a < spmKey core off + bs.length then bs.getD (a - spmKey core off) 0 else Memory.byte s.spm a) ∧
  (∀ s k T x m d (tile : Fin 64) b, Ready s k T (.mtov d tile b) → s.streamOf T = some (x, m) → s.tileOk x tile = true →
    (s.uni T b.op).toNat % 2 ^ 32 < 32 → Sparse.get false m.tilePoison tile = false →
    ∃ t T', exec (.mtov d tile b) s = .next t ∧ LaneDone s k T (.mtov d tile b) d
      (fun n => Sparse.get 0 m.tiles (tileKey tile ((s.uni T b.op).toNat % 2 ^ 32) (n % 32))) t T') ∧
  (∀ s k T d tile b, Ready s k T (.mtov d tile b) →
    s.streamOf T = none ∨ (∃ x m, s.streamOf T = some (x, m) ∧ (s.tileOk x tile = false ∨ 32 ≤ (s.uni T b.op).toNat % 2 ^ 32)) →
    Traps (.mtov d tile b) s k 0x73)

/-! ### Barriers, fences and waits -/

namespace Sys2Proof.Claims

/-- The test of R268: with both counts at their targets the phase completes. -/
def tested (b : Barrier) : Barrier :=
  if b.ar = b.xa ∧ b.land = b.xb then { b with ar := 0, land := 0, xb := 0, pn := (b.pn + 1) % 65536 } else b

/-- Phase `m` has completed: (PN − m − 1) mod 2^16 is below 2^15 (R268). -/
def phasePast (b : Barrier) (m : Nat) : Prop := ((b.pn : Int) - m - 1) % 65536 < 32768

/-- A value names barrier `r` of block `block`, as it stands, `b`: initialised by the block, or an object in its scratchpad. -/
structure Owned (s : State) (f : Machine.Frame) (v : DWord) (r : BarRef) (b : Barrier) : Prop where
  ref : s.barRef f v = .ok r
  now : s.bar r = b
  mine : barHold b r f.block = .mine

/-- The team has nothing to wait for at a fence: no error to report, no parked entry, no posted atomic (R271). -/
structure Quiescent (s : State) (k : Nat) (T : Team) : Prop where
  atom : T.atomErr = none
  eng : T.engErr = none
  queue : s.queueUse k = 0
  posted : s.postedOut k = false

/-- After a barrier operation: the barrier reads as `b`, no other named barrier changed, and no device or host memory. -/
def BarrierIs (s t : State) (r : BarRef) (b : Barrier) : Prop :=
  t.bar r = b ∧ SameGlobal s t ∧ (r.isNamed = true → t.spm = s.spm) ∧
    ∀ core n, n < 64 → r ≠ .named core n → Sparse.get {} t.bars (barKey core n) = Sparse.get {} s.bars (barKey core n)

/-- B + X of a barrier operation (R268). -/
def countOf (f : StArgs) (s : State) (T : Team) : DWord := s.uni T f.b.op + BitVec.ofInt 64 f.x.toInt

/-- No team and no stream of the machine waits on a named barrier that is not initialised (R266). -/
def NoneWait (s : State) (r : BarRef) : Prop :=
  ∀ core n, r = .named core n → (∀ e ∈ s.teams, e.2.waitBar ≠ some (64 * core + n)) ∧
    ∀ e ∈ s.blocks, ∀ m, e.2.stream = some m → m.waiting ≠ some (64 * core + n)

/-- The wide scopes. -/
def wide : Scope → Prop
  | .die | .device | .system => True
  | _ => False

end Sys2Proof.Claims

/-- R266 to R268, R340: bar.init gives an idle barrier its arrival target; bar.exp changes its expected bytes and
bar.arr counts arrivals, after the fence it makes, each with the test behind it; bar.wait goes on when its phase has
completed and waits before that; another block's barrier is trap 0x81, at the moment another block initialises it for a
team that waits on it; and a count the rule refuses is trap 0x82 or 0x83. Clauses that rest on the model's own readings:
log 47. -/
def Obligations.BarrierOperations : Prop :=
  (∀ s k T f r b, Ready s k T (.barInit f) → s.barRef (s.frame T) (s.uni T f.a.op) = .ok r → s.bar r = b →
    barHold b r T.block ≠ .foreign →
    let n := (countOf f s T).toNat
    (1 ≤ n → n ≤ 65535 → b.ar = 0 → b.land = 0 → b.xb = 0 → b.cred = 0 →
      NoneWait s r →
      Goes (.barInit f) s k T (fun t T' => T'.regs = T.regs ∧
        BarrierIs s t r { owner := if r.isNamed then some T.block else none, xa := n })) ∧
    (n < 1 ∨ 65535 < n → Traps (.barInit f) s k 0x82) ∧
    (1 ≤ n → n ≤ 65535 → b.ar ≠ 0 ∨ b.land ≠ 0 ∨ b.xb ≠ 0 ∨ b.cred ≠ 0 → Traps (.barInit f) s k 0x83)) ∧
  (∀ s k T f core n b j U y, Ready s k T (.barInit f) → s.barRef (s.frame T) (s.uni T f.a.op) = .ok (.named core n) →
    s.bar (.named core n) = b → barHold b (.named core n) T.block ≠ .foreign → 1 ≤ (countOf f s T).toNat →
    (countOf f s T).toNat ≤ 65535 → b.ar = 0 → b.land = 0 → b.xb = 0 → b.cred = 0 →
    s.teams.keys (fun u => u.waitBar == some (64 * core + n)) = [j] → s.team? j = some U → U.waitBar = some (64 * core + n) →
    U.st = .running → U.block ≠ T.block → s.block? U.block = some y → y.st = .placed →
    (∀ e ∈ s.blocks, ∀ m, e.2.stream = some m → m.waiting ≠ some (64 * core + n)) →
    ∃ s1 s2, exec (.barInit f) s = .next s2 ∧ s2 = (s1.takeTrap j 0 { code := 0x81 }).advance k (Instr.size (.barInit f)) ∧
      s1.team? j = some { U with waitBar := none } ∧
      BarrierIs s s1 (.named core n) { owner := some T.block, xa := (countOf f s T).toNat }) ∧
  (∀ s k T f r b, Ready s k T (.barExp f) → Owned s (s.frame T) (s.uni T f.a.op) r b →
    let n := ((countOf f s T).setWidth 32).toInt
    (0 ≤ b.xb + n → b.xb + n < 2 ^ 32 →
      Goes (.barExp f) s k T (fun t T' => T'.regs = T.regs ∧ BarrierIs s t r (tested { b with xb := (b.xb + n).toNat }))) ∧
    (b.xb + n < 0 ∨ 2 ^ 32 ≤ b.xb + n → Traps (.barExp f) s k 0x82)) ∧
  (∀ s k T l f r b, Ready s k T (.barArr l f) → Quiescent s k T → s.nearOut k = false → Owned s (s.frame T) (s.uni T f.a.op) r b →
    let n := if l then T.active.length else (countOf f s T).toNat
    (1 ≤ n → b.ar + n ≤ b.xa →
      Goes (.barArr l f) s k T (fun t T' => T'.regs = T.regs ∧ BarrierIs s t r (tested { b with ar := b.ar + n }))) ∧
    (n < 1 ∨ b.xa < b.ar + n → Traps (.barArr l f) s k 0x82)) ∧
  (∀ s k T f r b, Ready s k T (.barWait f) → Owned s (s.frame T) (s.uni T f.a.op) r b →
    let m := (countOf f s T).toNat % 65536
    b.pn < 65536 →
    (phasePast b m → Goes (.barWait f) s k T (fun t T' => T'.regs = T.regs ∧ T'.waitBar = none ∧ OnlyTeam s t k ∧ SameMemory s t)) ∧
    (¬phasePast b m → T.waitBar = none → exec (.barWait f) s = s.notReady)) ∧
  (∀ s k T f core n, Ready s k T (.barWait f) → s.barRef (s.frame T) (s.uni T f.a.op) = .ok (.named core n) →
    (s.bar (.named core n)).owner = none → (s.bar (.named core n)).pn < 65536 →
    let m := (countOf f s T).toNat % 65536
    (phasePast (s.bar (.named core n)) m →
      Goes (.barWait f) s k T (fun t T' => T'.regs = T.regs ∧ T'.waitBar = none ∧ OnlyTeam s t k ∧ SameMemory s t)) ∧
    (¬phasePast (s.bar (.named core n)) m → T.waitBar = none →
      Leads (.barWait f) s k (fun t T' => T'.waitBar = some (64 * core + n) ∧ T'.ctl = T.ctl ∧ T'.regs = T.regs ∧
        OnlyTeam s t k ∧ SameMemory s t)) ∧
    (¬phasePast (s.bar (.named core n)) m → T.waitBar = some (64 * core + n) → exec (.barWait f) s = s.notReady)) ∧
  (∀ s k T f r, s.barRef (s.frame T) (s.uni T f.a.op) = .ok r → barHold (s.bar r) r T.block = .foreign →
    (Ready s k T (.barInit f) → Traps (.barInit f) s k 0x81) ∧ (Ready s k T (.barExp f) → Traps (.barExp f) s k 0x81) ∧
    (∀ l, Ready s k T (.barArr l f) → Quiescent s k T → s.nearOut k = false → Traps (.barArr l f) s k 0x81) ∧
    (Ready s k T (.barWait f) → Traps (.barWait f) s k 0x81))

/-- R270, R271, R339, R262, R141: a fence goes on once the accesses its scope covers have taken effect, fence.lane with
good elements of near memory still on their way, and takes the trap an error owes first; cwait goes on once all but the
n youngest commands of its class have completed; gbar of a gang grid arrives, and goes on when every team has arrived.
Clauses that rest on the model's own readings: log 50. -/
def Obligations.FencesAndWaits : Prop :=
  (∀ s k T c ext, Ready s k T (.fence c ext) →
    (Quiescent s k T → (c ≠ .lane → s.nearOut k = false) → (wide c → s.globalOut k = false) →
      Goes (.fence c ext) s k T (fun t T' => T' = { T with ctl := T'.ctl } ∧ OnlyTeam s t k ∧ SameMemory s t)) ∧
    (∀ e, T.atomErr = some e → exec (.fence c ext) s =
      .next ((s.modTeam k (fun u => { u with atomErr := none })).takeTrap k 0 { code := 0x35, addr := e.addr, aux := e.val })) ∧
    (∀ e, T.atomErr = none → T.engErr = some e → exec (.fence c ext) s =
      .next ((s.modTeam k (fun u => { u with engErr := none })).takeTrap k 0 { code := 0x86, aux := e.val })) ∧
    (T.atomErr = none → T.engErr = none → s.owesTraps k = false →
      s.queueUse k ≠ 0 ∨ s.postedOut k = true ∨ (c ≠ .lane ∧ s.nearOut k = true) ∨ (wide c ∧ s.globalOut k = true) →
      exec (.fence c ext) s = s.notReady)) ∧
  (∀ s k T c ext n, Ready s k T (.cwait c ext n) →
    (∀ id ∈ (((T.issued.filter (fun e => e.1 == c)).map Prod.snd).drop n.toNat), s.outstanding c id = false) →
    Goes (.cwait c ext n) s k T (fun t T' => T' = { T with ctl := T'.ctl } ∧ OnlyTeam s t k ∧ SameMemory s t)) ∧
  (∀ s k T x, Ready s k T .gbar → s.grid? (s.gridIdOf T) = some x →
    (x.launch.gang = false → Traps .gbar s k 0x8A) ∧
    (x.launch.gang = true → Quiescent s k T → s.nearOut k = false → s.globalOut k = false → T.gbarIn = T.gbarOut →
      Leads .gbar s k (fun t T' => T' = { T with gbarIn := T.gbarOut + 1 } ∧ OnlyTeam s t k ∧ SameMemory s t)) ∧
    (x.launch.gang = true → T.gbarIn = T.gbarOut + 1 → s.gbarMet (s.gridIdOf T) (T.gbarOut + 1) = true →
      Goes .gbar s k T (fun t T' => T' = { T with ctl := T'.ctl, gbarOut := T.gbarOut + 1 } ∧ OnlyTeam s t k ∧ SameMemory s t)))

/-- R223, R236, R240, R241, R244 to R246: the stream's maps, fusion, tiles, class and loops; nop; its barriers; and its
end. Clauses that rest on the model's own readings: log 46. -/
def Obligations.MatrixStream : Prop :=
  ((∀ s b x m, StreamReady s b x m .nop → StreamGoes .nop s b m (fun t _ m' => m' = { m with pc := m'.pc } ∧ SameMemory s t)) ∧
  (∀ s b x m map f tr stride kc p q, StreamReady s b x m (.mamap map f tr stride kc p q) →
    (((if tr then 32 else kc.toNat) * widthOf f + 7) / 8 ≤ 16 * stride.toNat →
      StreamGoes (.mamap map f tr stride kc p q) s b m (fun t _ m' => SameMemory s t ∧ m' = { m with pc := m'.pc, maps := m'.maps } ∧
        (∀ j, Table.get? m'.maps j = if j = map.val then
          some ⟨(s.streamSrc x p.op).setWidth 32, if q.op = .zero then none else some ((s.streamSrc x q.op).setWidth 32), f, tr,
            16 * stride.toNat, kc.toNat⟩ else Table.get? m.maps j))) ∧
    (16 * stride.toNat < ((if tr then 32 else kc.toNat) * widthOf f + 7) / 8 →
      StreamTraps (.mamap map f tr stride kc p q) s b 0x72 0)) ∧
  (∀ s b x m tile, StreamReady s b x m (.mclr tile) →
    (s.tileOk x tile = true → s.stepOn b tile MStep.tiles = false →
      StreamGoes (.mclr tile) s b m (fun t _ m' => SameMemory s t ∧ m' = { m with pc := m'.pc, tiles := m'.tiles, tilePoison := m'.tilePoison } ∧
        Sparse.get false m'.tilePoison tile = false ∧
        ∀ j < 64, ∀ r < 32, ∀ c < 32, Sparse.get 0 m'.tiles (tileKey j r c) =
          if j = tile.val then 0 else Sparse.get 0 m.tiles (tileKey j r c))) ∧
    (s.tileOk x tile = false → StreamTraps (.mclr tile) s b 0x73 0)) ∧
  (∀ s b x m ext e, StreamReady s b x m (.mfuse ext e) →
    ((∀ q ∈ fusedQuads e, q ∈ x.quads) → (∀ st ∈ s.msteps, st.2.block ≠ b) →
      StreamGoes (.mfuse ext e) s b m (fun t _ m' => SameMemory s t ∧ m' = { m with pc := m'.pc, fusion := e })) ∧
    ((∃ q ∈ fusedQuads e, q ∉ x.quads) → StreamTraps (.mfuse ext e) s b 0x78 0)) ∧
  (∀ s b x m ext (c : Fin 4), StreamReady s b x m (.mprio ext c) →
    StreamGoes (.mprio ext c) s b m (fun t _ m' => SameMemory s t ∧ m' = { m with pc := m'.pc, cls := min c.val x.cls })) ∧
  (∀ s b x m f, StreamReady s b x m (.mloop f) → (∀ l ∈ m.loops.head?, l.1 ≠ m.pc) → m.loops.length < 4 →
    let n := max ((s.streamSrc x f.b.op).toNat % 2 ^ 32) 1
    ∃ t x' m', exec (.mloop f) s = .next t ∧ t.block? b = some x' ∧ x'.stream = some m' ∧ SameMemory s t ∧
      (n = 1 → m' = { m with pc := m.pc + BitVec.ofNat 64 (Instr.size (.mloop f)) }) ∧
      (1 < n → m' = { m with pc := m.pc + BitVec.ofInt 64 (4 * f.off.toInt), loops := (m.pc, n - 1) :: m.loops })) ∧
  (∀ s b x m f n rest, StreamReady s b x m (.mloop f) → m.loops = (m.pc, n) :: rest →
    ∃ t x' m', exec (.mloop f) s = .next t ∧ t.block? b = some x' ∧ x'.stream = some m' ∧ SameMemory s t ∧
      (n ≤ 1 → m' = { m with pc := m.pc + BitVec.ofNat 64 (Instr.size (.mloop f)), loops := rest }) ∧
      (1 < n → m' = { m with pc := m.pc + BitVec.ofInt 64 (4 * f.off.toInt), loops := (m.pc, n - 1) :: rest })) ∧
  (∀ s b x m f, StreamReady s b x m (.mloop f) → (∀ l ∈ m.loops.head?, l.1 ≠ m.pc) → 4 ≤ m.loops.length →
    StreamTraps (.mloop f) s b 0x75 0)) ∧
  ((∀ s b x m f r c, StreamReady s b x m (.mbarArr f) → s.streamBusy b = false → Owned s (x.streamFrame b) (s.streamSrc x f.a.op) r c →
    (c.ar < c.xa → StreamGoes (.mbarArr f) s b m (fun t _ m' => m' = { m with pc := m'.pc } ∧
      BarrierIs s t r (tested { c with ar := c.ar + 1 }))) ∧
    (c.xa ≤ c.ar → StreamTraps (.mbarArr f) s b 0x82 0)) ∧
  (∀ s b x m p q r c, StreamReady s b x m (.mbarWait p q) → Owned s (x.streamFrame b) (s.streamSrc x p.op) r c → c.pn < 65536 →
    (phasePast c ((s.streamSrc x q.op).toNat % 65536) →
      StreamGoes (.mbarWait p q) s b m (fun t _ m' => m' = { m with pc := m'.pc, waiting := none } ∧ SameMemory s t)) ∧
    (¬phasePast c ((s.streamSrc x q.op).toNat % 65536) → m.waiting = none → exec (.mbarWait p q) s = s.notReady)) ∧
  (∀ s b x m p q core n, StreamReady s b x m (.mbarWait p q) →
    s.barRef (x.streamFrame b) (s.streamSrc x p.op) = .ok (.named core n) →
    ((s.bar (.named core n)).owner = none → (s.bar (.named core n)).pn < 65536 →
      ¬phasePast (s.bar (.named core n)) ((s.streamSrc x q.op).toNat % 65536) → m.waiting = none →
      ∃ t x', exec (.mbarWait p q) s = .next t ∧ t.block? b = some x' ∧ x'.stream = some { m with waiting := some (64 * core + n) } ∧
        SameMemory s t) ∧
    (∀ o, (s.bar (.named core n)).owner = some o → o ≠ b → m.waiting = none → StreamTraps (.mbarWait p q) s b 0x81 0)) ∧
  (∀ s b x m, StreamReady s b x m .mend →
    (s.streamBusy b = false → (s.liveTeams b).isEmpty = false →
      ∃ t x' m', exec .mend s = .next t ∧ t.block? b = some x' ∧ x'.stream = some m' ∧ m' = { m with ended := true } ∧
        x'.st = .placed ∧ SameMemory s t) ∧
    (s.streamBusy b = false → (s.liveTeams b).isEmpty = true →
      ∃ t x', exec .mend s = .next t ∧ t.block? b = some x' ∧ x'.st = .ended ∧ x'.stream = none ∧ SameMemory s t) ∧
    (s.streamBusy b = true → exec .mend s = s.notReady)))

/-! ### Engine commands -/

namespace Sys2Proof.Claims

/-- A command has issued: it stands in its engine under the next number, its future is empty, its counter has risen, and registers and
memory are as before (R253). -/
def Issued (s : State) (k : Nat) (T : Team) (cls : CClass) (kind : CmdKind) (d : Opnd) (cs : List Credit) (t : State) (T' : Team) :
    Prop :=
  (∃ c, t.cmds.get? s.nextId = some c ∧ c.team = k ∧ c.block = T.block ∧ c.tenant = s.tenantIdOf T ∧ c.cls = cls ∧ c.kind = kind ∧
    c.future = d.sNum ∧ c.credit = cs ∧ c.pc = T.ctl.pc ∧ c.next = 0 ∧ c.pending = [] ∧ c.landed = 0 ∧ c.stop = none ∧ c.move = none) ∧
  T'.count = T.count.up cls ∧ T'.issued = (cls, s.nextId) :: T.issued ∧
  (∀ m, T'.regs.sflg m = if d.sNum = some m then .empty else T.regs.sflg m) ∧ T'.regs.sreg = T.regs.sreg ∧
  T'.regs.lane = T.regs.lane ∧ T'.regs.flag = T.regs.flag ∧ T'.regs.h = T.regs.h ∧ SameMemory s t

/-- The descriptor of 48 bytes at a near address: dword j of it (R258, R273). -/
def descDword (s : State) (T : Team) (a : DWord) (j : Nat) : DWord :=
  BitVec.ofNat 64 (bytesNat ((s.nearBytes (s.frame T) (a.setWidth 32) 48).1.drop (8 * j) |>.take 8))

/-- A command whose checks pass: its class, what it does, its future and its credits (R253, R257 to R260, R273, R277, R293, R295, R299,
R328). -/
inductive CommandRule (s : State) (k : Nat) (T : Team) : Instr → CClass → CmdKind → Opnd → List Credit → Prop where
  | cpy (dir bar d a b) (len : BitVec 21) (cs) : 1 ≤ len.toNat → len.toNat < 2 ^ 20 →
      s.copyChecks T bar (dirSides dir).1 (dirSides dir).2 (s.uni T a.op) (s.uni T b.op) len.toNat 1 1 0 0 0 0 = .ok cs →
      CommandRule s k T (.cpy dir bar d a b len) .copy
        (.copy (dirSides dir).1 (dirSides dir).2 (s.uni T a.op) (s.uni T b.op) len.toNat 1 1 0 0 0 0) d cs
  | cpy2 (dir bar d a b c cs w h p) : (s.uni T c.op).toNat % 16 = 0 → s.nearExtent (s.frame T) (s.uni T c.op) 48 = .ok () →
      s.behindRun k (s.frame T) (byteRun ((s.uni T c.op).setWidth 32) 48) = false →
      w = (descDword s T (s.uni T c.op) 0).toNat % 2 ^ 20 → h = (descDword s T (s.uni T c.op) 0).toNat / 2 ^ 32 % 2 ^ 16 →
      p = (descDword s T (s.uni T c.op) 0).toNat / 2 ^ 48 → 0 < w → 0 < h → 0 < p → w * h * p < 2 ^ 31 →
      descDword s T (s.uni T c.op) 5 = 0 →
      s.copyChecks T bar (dirSides dir).1 (dirSides dir).2 (s.uni T a.op) (s.uni T b.op) w h p (descDword s T (s.uni T c.op) 3)
        (descDword s T (s.uni T c.op) 4) (descDword s T (s.uni T c.op) 1) (descDword s T (s.uni T c.op) 2) = .ok cs →
      CommandRule s k T (.cpy2 dir bar d a b c) .copy
        (.copy (dirSides dir).1 (dirSides dir).2 (s.uni T a.op) (s.uni T b.op) w h p (descDword s T (s.uni T c.op) 3)
          (descDword s T (s.uni T c.op) 4) (descDword s T (s.uni T c.op) 1) (descDword s T (s.uni T c.op) 2)) d cs
  | cpyx (scat) (rlen : BitVec 10) (bar d a b c) (n : BitVec 21) (cs near base) : 1 ≤ n.toNat → n.toNat < 2 ^ 20 →
      near = s.uni T (if scat then b.op else a.op) → base = s.uni T (if scat then a.op else b.op) →
      s.rowChecks T bar near (s.uni T c.op) n.toNat (4 * (rlen.toNat + 1)) [base] = .ok cs →
      CommandRule s k T (.cpyx scat rlen bar d a b c n) .copy
        (.rows scat (near.setWidth 32) base ((s.uni T c.op).setWidth 32) n.toNat (4 * (rlen.toNat + 1))) d cs
  | cpyxH (rlen : BitVec 10) (bar d a b) (h : Fin 16) (cs x n) : needMatrix (T.regs.handle h) true = .ok x →
      ((imgValues x = true ∨ imgType x = 3) → imgVal x ≠ 0) → (s.uni T b.op).toNat < 2 ^ 52 → n = (s.uni T b.op).toNat / 2 ^ 32 → 0 < n →
      s.rowChecks T bar (s.uni T a.op) (BitVec.ofNat 64 ((s.uni T b.op).toNat % 2 ^ 32)) n (4 * (rlen.toNat + 1)) [] = .ok cs →
      CommandRule s k T (.cpyxH rlen bar d a b h) .copy
        (.handle h x ((s.uni T a.op).setWidth 32) ((s.uni T b.op).setWidth 32) n (4 * (rlen.toNat + 1))) d cs
  | cpym (near bar d a b c) (len : BitVec 21) (cs) : 1 ≤ len.toNat → len.toNat < 2 ^ 20 → maskCores T (s.uni T c.op) ≠ [] →
      (∀ x ∈ maskCores T (s.uni T c.op), s.tenantCore (s.tenantIdOf T) x = true) →
      s.creditsOf (s.tenantIdOf T) (maskCores T (s.uni T c.op)) bar = .ok cs →
      (∀ x ∈ maskCores T (s.uni T c.op), s.nearExtent (s.frame T)
        (BitVec.ofNat 64 (2 ^ 28 + x % 16 * 2 ^ 24 + (s.uni T a.op).toNat % 2 ^ 20)) len.toNat = .ok ()) →
      (near = true → s.nearExtent (s.frame T) (s.uni T b.op) len.toNat = .ok ()) →
      (near = false → globOk (s.uni T b.op) = true ∧ globOk (s.uni T b.op + BitVec.ofNat 64 (len.toNat - 1)) = true) →
      CommandRule s k T (.cpym near bar d a b c len) .copy
        (.multi ((s.uni T a.op).toNat % 2 ^ 20) (maskCores T (s.uni T c.op)) (if near then .near else .glob) (s.uni T b.op) len.toNat) d cs
  | coll (op m rop bar d a b cs g count root) : (s.uni T a.op).toNat % 16 = 0 → s.nearExtent (s.frame T) (s.uni T a.op) 48 = .ok () →
      s.behindRun k (s.frame T) (byteRun ((s.uni T a.op).setWidth 32) 48) = false →
      (s.uni T b.op).toNat < 256 → s.groupOpen (s.tenantIdOf T) (s.uni T b.op).toNat = some g →
      count = (descDword s T (s.uni T a.op) 2).toNat % 2 ^ 32 → root = (descDword s T (s.uni T a.op) 2).toNat / 2 ^ 32 % 2 ^ 16 →
      collShape op m count root g.ranks.length = true → (g.rankOf (dieOf T.quarter)).isSome = true →
      s.creditsOf (s.tenantIdOf T) [T.core] bar = .ok cs →
      globEnds (runEnds (descDword s T (s.uni T a.op) 0) (collBytes m count) ++
        runEnds (descDword s T (s.uni T a.op) 1) (collBytes m (collOut op count g.ranks.length)) ++
        runEnds (descDword s T (s.uni T a.op) 3) (collScales m count) ++
        runEnds (descDword s T (s.uni T a.op) 4) (collScales m (collOut op count g.ranks.length))) = .ok () →
      CommandRule s k T (.coll op m rop bar d a b) .coll
        (.coll op m rop (s.uni T b.op).toNat (descDword s T (s.uni T a.op) 0) (descDword s T (s.uni T a.op) 1) count root
          (descDword s T (s.uni T a.op) 3) (descDword s T (s.uni T a.op) 4)) d cs
  | amsg (d a b c) (len : BitVec 21) : (s.uni T a.op).toNat ≤ 31 → 8 ≤ len.toNat → len.toNat ≤ 256 → len.toNat % 8 = 0 →
      s.nearExtent (s.frame T) (s.uni T b.op) len.toNat = .ok () → Quiescent s k T → s.nearOut k = false → s.globalOut k = false →
      CommandRule s k T (.amsg d a b c len) .copy
        (.amsg (s.uni T a.op).toNat (s.uni T c.op).toNat (s.nearBytes (s.frame T) ((s.uni T b.op).setWidth 32) len.toNat).1) d []
  | hchkWalk (q : Fin 192) (h : Fin 16) (x) : needMatrix (T.regs.handle h) false = .ok x →
      CommandRule s k T (.hchkWalk (.s q) h) .copy (.check h x [] 0) (.s q) []
  | wlpush (l : BitVec 6) (f) : l.toNat < s.listCount T → Quiescent s k T → s.nearOut k = false → s.globalOut k = false →
      CommandRule s k T (.wlpush l f) .wl
        (.push l.toNat (T.active.map (fun n => ((s.word T n f.b.op).toNat % 32, s.dword T n f.a.op)))) f.d []
  | prom (f) : (s.uni T f.a.op).toNat < 2 ^ 52 → CommandRule s k T (.prom f) .promote (.promote false (s.uni T f.a.op)) f.d []
  | promPin (f) : (s.uni T f.a.op).toNat < 2 ^ 52 → CommandRule s k T (.promPin f) .promote (.promote true (s.uni T f.a.op)) f.d []
  | dem (f) : (s.uni T f.a.op).toNat < 2 ^ 52 → CommandRule s k T (.dem f) .promote (.demote (s.uni T f.a.op)) f.d []

/-- After a command has completed: it is gone, its counter has fallen, and its future holds the status word, or the error is recorded
where there is no future (R254, R256). -/
def Completed (id : Nat) (c : Cmd) (T : Team) (st : Byte) (val : Nat) (t : State) (T' : Team) : Prop :=
  t.cmds.get? id = none ∧ T'.count = T.count.down c.cls ∧ T'.regs.lane = T.regs.lane ∧
    (∀ n, c.future = some n → T'.regs.s n = BitVec.ofNat 64 (st.toNat * 2 ^ 56 + val % 2 ^ 52) ∧ T'.regs.sflg n = .full) ∧
    (∀ m, c.future ≠ some m → T'.regs.s m = T.regs.s m ∧ T'.regs.sflg m = T.regs.sflg m) ∧
    (c.future = none → st = 0 → T'.engErr = T.engErr) ∧ (c.future = none → st ≠ 0 → T.engErr = none →
      T'.engErr = some { addr := c.pc, val := 1, status := st }) ∧ (c.future.isSome = true → T'.engErr = T.engErr)

/-- The commands that move bytes piece by piece. -/
def Moves : CmdKind → Prop
  | .copy .. | .rows .. | .handle .. | .multi .. | .results .. => True
  | _ => False

end Sys2Proof.Claims

/-- R253, R256: a command whose checks pass, with room in its counter, in its engine and in its barriers' counts,
issues: it stands in its engine, its future is empty, and its team goes on. Clauses that rest on the model's own
readings: log 52 and 53. -/
def Obligations.CommandsIssue : Prop :=
  ∀ s k T i cls kind d cs e, Ready s k T i → CommandRule s k T i cls kind d cs → d = .zero ∨ (∃ q, d = .s q) →
    T.count.get cls < 255 → s.creditRoom cs = true → s.pickEngine T cls = some e →
    Goes i s k T (fun t T' => Issued s k T cls kind d cs t T')

/-- R253: what the checks of a command refuse: a length of 0 or past 1,048,575 is trap 0x80, an uninitialised barrier
0x81, a near extent that fails a check 0x84 with the element code, a global address past 2^52 0x85; and R293: a walk
with no destination or no sparse matrix 0x93, of a failed handle 0x92, which goes before the zero destination. Clauses
that rest on the model's own choices and readings: log 48 and log 62, by which a failed handle is refused with 0x92
before a zero destination with 0x93. -/
def Obligations.CommandChecks : Prop :=
  (∀ s k T dir bar d a b (len : BitVec 21), Ready s k T (.cpy dir bar d a b len) → len.toNat = 0 ∨ 2 ^ 20 ≤ len.toNat →
    Traps (.cpy dir bar d a b len) s k 0x80) ∧
  (∀ s k T dir (n : Fin 64) d a b (len : BitVec 21), Ready s k T (.cpy dir (some n) d a b len) → 1 ≤ len.toNat → len.toNat < 2 ^ 20 →
    (s.bar (.named T.core n)).owner = none → Traps (.cpy dir (some n) d a b len) s k 0x81) ∧
  (∀ s k T d a b (len : BitVec 21) c, Ready s k T (.cpy .g2n none d a b len) → 1 ≤ len.toNat → len.toNat < 2 ^ 20 →
    s.nearCheck (s.frame T) none ((s.uni T a.op).setWidth 32) 1 = .error c →
    exec (.cpy .g2n none d a b len) s = .next (s.takeTrap k 0 { code := 0x84, detail := c })) ∧
  (∀ s k T d a b (len : BitVec 21), Ready s k T (.cpy .g2g none d a b len) → 1 ≤ len.toNat → len.toNat < 2 ^ 20 →
    2 ^ 52 ≤ (s.uni T a.op).toNat ∨ 2 ^ 52 ≤ (s.uni T b.op).toNat → Traps (.cpy .g2g none d a b len) s k 0x85) ∧
  (∀ s k T f, (Ready s k T (.prom f) → 2 ^ 52 ≤ (s.uni T f.a.op).toNat → Traps (.prom f) s k 0x85) ∧
    (Ready s k T (.promPin f) → 2 ^ 52 ≤ (s.uni T f.a.op).toNat → Traps (.promPin f) s k 0x85) ∧
    (Ready s k T (.dem f) → 2 ^ 52 ≤ (s.uni T f.a.op).toNat → Traps (.dem f) s k 0x85)) ∧
  (∀ s k T d (h : Fin 16), Ready s k T (.hchkWalk d h) →
    (∀ c, (T.regs.handle h).state = .failed c →
      exec (.hchkWalk d h) s = .next (s.takeTrap k 0 { code := 0x92, detail := c })) ∧
    ((∀ c, (T.regs.handle h).state ≠ .failed c) →
      d = .zero ∨ (T.regs.handle h).state ≠ .valid ∨ (imgType (T.regs.handle h).image ≠ 1 ∧ imgType (T.regs.handle h).image ≠ 2) →
      Traps (.hchkWalk d h) s k 0x93))

/-- R254, R255, R258, R261: a copy's pieces cut its rows at 64-byte source lines, in order, each from its source run to
its destination run; a piece that has begun reads its source bytes and then writes them, word by word and no word in
part, each byte as it was read; a poisoned word poisons what the piece writes; other memory is as before, and the bytes
landed have risen by those written. A command all of whose bytes have landed completes with status 0 and their number.
Clauses that rest on the model's own readings: log 51, 99 and 126. -/
def Obligations.CommandsLand : Prop :=
  (∀ (s : State) id c ds ss dst src w h p dr dp sr sp q n, c.kind = .copy ds ss dst src w h p dr dp sr sp →
    s.nextUp id c = .ok (.piece q n) →
    let byte (base r pl : DWord) : DWord := base + pl * BitVec.ofNat 64 (c.next / w / h) + r * BitVec.ofNat 64 (c.next / w % h) +
      BitVec.ofNat 64 (c.next % w)
    q.pos = c.next ∧ n = min (w - c.next % w) (64 - (byte src sr sp).toNat % 64) ∧
      s.places c ss (byte src sr sp) false n = .ok q.src ∧ s.places c ds (byte dst dr dp) true n = .ok (q.dst.map Prod.fst) ∧
      q.dst = (q.dst.map Prod.fst).zipIdx ∧ q.data = List.replicate q.src.length none ∧ q.begun = false ∧ q.bad = false) ∧
  (∀ (s : State) id c (p : Piece) draw, c.pending = [p] → p.unread ≠ [] → p.data.length = p.src.length →
    ∃ p' t, s.movePiece id c p draw = t ∧ SameMemory s t ∧ t.cmds.get? id = some { c with pending := [p'] } ∧
      p' = { p with data := p'.data, bad := p'.bad } ∧ p'.data.length = p.data.length ∧ p'.unread.length < p.unread.length ∧
      (∀ (j : Nat) (l : PLoc), p.src[j]? = some l → p.data[j]? ≠ some none → p'.data[j]? = p.data[j]?) ∧
      (∀ (j : Nat) (l : PLoc), p.src[j]? = some l → p.data[j]? = some none → p'.data[j]? = some none ∨ p'.data[j]? = some (some (s.plocByte l))) ∧
      (∀ (j : Nat) (l : PLoc), p.src[j]? = some l → p.data[j]? = some none → p'.data[j]? ≠ some none → s.plocPoison l = true → p'.bad = true)) ∧
  (∀ (s : State) id c (p : Piece) draw, c.pending = [p] → c.ahead = [] → p.flags = 0 → p.dst ≠ [] → (p.dst.map Prod.fst).Nodup →
    p.unread = [] → c.credit = [] → (∀ e ∈ p.dst, (∃ core off, e.1 = .spm core off ∧ off < 2 ^ 20) ∨ ∃ pa, e.1 = .phys pa) →
    ∃ c' t, s.movePiece id c p draw = t ∧ t.cmds.get? id = some c' ∧ c'.landed = c.landed + (p.now draw).length ∧
      p.now draw ≠ [] ∧ (∀ e ∈ p.dst, e ∈ p.now draw ∨ e ∈ p.left draw) ∧
      (∀ e ∈ p.now draw, ∀ x ∈ p.left draw, e.1.word ≠ x.1.word) ∧
      c'.pending = (if p.left draw = [] then [] else [{ p with dst := p.left draw }]) ∧
      (∀ e ∈ p.now draw, t.plocByte e.1 = (p.data.getD e.2 none).getD 0 ∧ (p.bad = true → t.plocPoison e.1 = true)) ∧
      (∀ core off, off < 2 ^ 20 → PLoc.spm core off ∉ (p.now draw).map Prod.fst →
        t.plocByte (.spm core off) = s.plocByte (.spm core off)) ∧
      (∀ pa, PLoc.phys pa ∉ (p.now draw).map Prod.fst → t.plocByte (.phys pa) = s.plocByte (.phys pa))) ∧
  (∀ (s : State) id c, s.cmds.get? id = some c → s.held = false → Moves c.kind →
    ∃ t, exec (.enginePieceLand id) s = .next t ∧
      (SameMemory s t ∨ ∃ n p draw s', p ∈ (s.address id c n).pending ∧ p.begun = true ∧ p.unread = [] ∧ SameMemory s s' ∧
        t = (s'.land id (s.address id c n) p draw).sweepGrants) ∧
      (c.more = false → c.pending ≠ [] → (∀ xp, s.spent xp c.cluster = 0) →
        (∀ p ∈ c.pending, p.begun = false ∧ s.pieceWaits id c p = false ∧ s.piecePaused c p = false) →
        ∃ p ∈ c.pending, SameMemory s t ∧ t.cmds.get? id = some { c with pending := c.setPiece { p with begun := true } } ∧
          ∀ l, p.line = some l → (t.packetOf (.piece id p.pos)).isSome = true) ∧
      (c.more = false → c.pending ≠ [] → (∀ p ∈ c.pending, p.begun = true ∧ (s.packetOf (.piece id p.pos)).isNone = true) →
        ∃ p ∈ c.pending, ∃ draw s', SameMemory s s' ∧ t = (s'.movePiece id c p draw).sweepGrants)) ∧
  (∀ (s : State) id c T, s.cmds.get? id = some c → s.held = false → Moves c.kind → c.pending = [] → c.more = false → s.team? c.team = some T →
    Leads (.engineCommandComplete id) s c.team (fun t T' => SameMemory s t ∧ Completed id c T c.outcome.1 c.outcome.2 t T') ∧
    (c.stop = none → c.poisonAt = none → c.outcome = (0, c.landed)))

/-! ### Collectives, futures, handles, work lists, children and near rows -/

namespace Sys2Proof.Claims

/-- The next coll of every rank of a group has arrived: `here` lists the ranks of this device with their commands, and `remote` brings
the others (R273). -/
structure RanksMeet (s : State) (tenant group : Nat) (remote : List RemoteRank) (g : Group) (here : List (Nat × Nat × Cmd)) : Prop where
  found : s.group? tenant group = some g
  locals : g.localRanks.map (fun r => (r.1, s.nextColl tenant group r.2)) = here.map (fun e => (e.1, some e.2))
  nonempty : here ≠ []
  far : remote.map RemoteRank.rank = (List.range g.ranks.length).filter (fun q => !g.localRanks.any (fun r => r.1 == q))
  free : s.held = false
  ids : (here.map (fun e => e.2.1)).Nodup

/-- The copy commands, which fcan stops at a piece (R264). -/
def Copies (c : Cmd) : Prop := match c.kind with | .copy .. | .rows .. | .handle .. | .multi .. => True | _ => False

/-- Where a stream that is cancelled stops: where its addressing stands, or at a piece that has not begun, with all that has begun
below it (R264). -/
def StopsAt (c : Cmd) (o : Nat) : Prop :=
  o = c.next ∨ ∃ p ∈ c.pending, p.begun = false ∧ p.pos = o ∧ ∀ q ∈ c.pending, q.begun = true → q.pos < o

/-- The global address of byte `o` of a collective's source: its elements, then its scale codes (R273). -/
def sourceAt (m : CollFmt) (src ssc : DWord) (count o : Nat) : Nat :=
  if o < collBytes m count then src.toNat + o else ssc.toNat + (o - collBytes m count)

/-- Only a handle register of the team changes. -/
def HandleIs (T T' : Team) (n : Nat) (h : Handle) : Prop :=
  (∀ m, T'.regs.handle m = if m = n then h else T.regs.handle m) ∧ T'.regs.lane = T.regs.lane ∧ T'.regs.sreg = T.regs.sreg ∧
    T'.regs.sflag = T.regs.sflag ∧ T'.regs.flag = T.regs.flag

/-- An s register holds a value and is full; the other registers are as before. -/
def Filled (T T' : Team) (n : Nat) (x : DWord) : Prop :=
  (∀ m, T'.regs.s m = if m = n then x else T.regs.s m) ∧ (∀ m, T'.regs.sflg m = if m = n then .full else T.regs.sflg m) ∧
    T'.regs.lane = T.regs.lane ∧ T'.regs.h = T.regs.h

/-- The elements that a rank receives of a reduction: the first, and how many (R273). -/
inductive Segment : CollOp → Nat → Nat → Nat → Nat → Nat → Prop where
  | allred (count ranks q) : Segment .allred count ranks q 0 count
  | redsc (count ranks q) : Segment .redsc count ranks q (q * (count / ranks)) (count / ranks)

/-- The plain formats and their widths; an element in FP32, or as it is; a reduction's step; and the result in its format (R274). -/
inductive PlainFmt : CollFmt → Nat → Prop where
  | f32 : PlainFmt .f32 32
  | bf16 : PlainFmt .bf16 16
  | f16 : PlainFmt .f16 16
  | s32 : PlainFmt .s32 32
def plainIn (m : CollFmt) (x : Nat) : Word :=
  match m with
  | .bf16 => BitVec.ofNat 32 (toF32 .bf16 (BitVec.ofNat 32 x) .rn).1
  | .f16 => BitVec.ofNat 32 (toF32 .f16 (BitVec.ofNat 32 x) .rn).1
  | _ => BitVec.ofNat 32 x
def plainCombine (m : CollFmt) (rop : CollRop) (acc x : Word) : Word :=
  match m, rop with
  | .s32, .add => BitVec.ofNat 32 (acc.toNat + x.toNat)
  | .s32, .max => BitVec.ofInt 32 (max acc.toInt x.toInt)
  | .s32, .min => BitVec.ofInt 32 (min acc.toInt x.toInt)
  | _, .add => BitVec.ofNat 32 (fF32.add acc.toNat x.toNat .rn).1
  | _, .max => (fminmax true acc x).1
  | _, .min => (fminmax false acc x).1
def plainOut (m : CollFmt) (x : Word) : Word :=
  match m with
  | .bf16 => (fromF32 .bf16 x .rn .nosat 0).1
  | .f16 => (fromF32 .f16 x .rn .nosat 0).1
  | _ => x

/-- The MX formats: the bits of an element, its layout, F and emax (R275). -/
inductive MxFmt : CollFmt → Nat → Layout → ℤ → ℤ → Prop where
  | e4m3 (L) : narrow .e4m3 = some L → MxFmt .e4m3 8 L 9 8
  | e5m2 (L) : narrow .e5m2 = some L → MxFmt .e5m2 8 L 16 15
  | e2m3 (L) : narrow .e2m3 = some L → MxFmt .e2m3 6 L 3 2
  | e3m2 (L) : narrow .e3m2 = some L → MxFmt .e3m2 6 L 4 4
  | e2m1 (L) : narrow .e2m1 = some L → MxFmt .e2m1 4 L 1 2

/-- An element with its scale code s, quantised against the scale S: rn_even(v × 2^(s − S + F)) (R275). -/
def Quantised (L : Layout) (F : ℤ) (S s c : Nat) (q : ℤ) : Prop :=
  RoundsOn id .rn false ((L.size (L.mag c) : ℝ) * (2 : ℝ) ^ ((s : ℤ) - S + F - L.unit)) 0 q.natAbs ∧
    (if L.neg c then q ≤ 0 else 0 ≤ q)

/-- Integers of the ranks combined. -/
def combineInts (rop : CollRop) (l : List ℤ) : ℤ :=
  l.tail.foldl (fun x y => match rop with | .add => x + y | .max => max x y | .min => min x y) (l.headD 0)

/-- What block b of 32 elements comes to: the result's element codes and its scale code (R275). -/
def MxBlock (L : Layout) (F emax : ℤ) (w : Nat) (rop : CollRop) (rs : List RankData) (b : Nat) (code : Nat → Nat) (E : Nat) : Prop :=
  let scale (r : RankData) : Nat := ((r.scales.toList[b]?).getD 0).toNat
  let elem (r : RankData) (j : Nat) : Nat := bitsAt r.data.toList 0 w (32 * b + j)
  let S := (rs.map scale).foldl max 0
  let special (j : Nat) : Prop := ∃ r ∈ rs, ¬L.Finite (elem r j)
  ((∃ r ∈ rs, scale r = 255) → E = 255 ∧ ∀ j < 32, code j = 0) ∧
    ((∀ r ∈ rs, scale r ≠ 255) → ∃ M : Nat → ℤ,
      (∀ j < 32, special j → M j = 0 ∧ code j = L.nan.getD 0) ∧
      (∀ j < 32, ¬special j → (∃ qs, List.Forall₂ (fun r q => Quantised L F S (scale r) (elem r j) q) rs qs ∧ M j = combineInts rop qs) ∧
        ∃ fl, Gives L .rn .sat (decide (M j < 0)) ((M j).natAbs * (2 : ℝ) ^ ((S : ℤ) - F - E + L.unit)) 0 (code j, fl)) ∧
      ((∀ j < 32, M j = 0) → E = S) ∧
      ∀ p, p ≠ 0 → (∃ j < 32, (M j).natAbs = p) → (∀ j < 32, (M j).natAbs ≤ p) →
        (E : ℤ) = max 0 (min 254 ((Nat.log2 p : ℤ) + S - F - emax)))

/-- A status word (R254). -/
def statusOf (st val : Nat) : DWord := BitVec.ofNat 64 (st * 2 ^ 56 + val)

end Sys2Proof.Claims

/-- R273 to R275: a coll reads the bytes of its source word by word, each as it stands when it is read; where the kth
coll of every rank of a group disagrees, each ends with status 0x09; where they agree and every source they use has been
read, each rank of this device has its results to write: all the ranks' blocks, the root's source, or all or a segment
of the elements, reduced in ascending rank order in the plain formats, and in two phases in the MX formats. Clauses that
rest on the model's own readings: log 57, 58 and 59. -/
def Obligations.Collectives : Prop :=
  (∀ (s : State) id c op m rop gr src dst count root ssc dsc, s.cmds.get? id = some c →
    c.kind = .coll op m rop gr src dst count root ssc dsc → s.held = false → c.stop = none → c.fail = none →
    c.data.length < collBytes m count + collScales m count →
    ∃ t c', exec (.enginePieceLand id) s = .next t ∧ SameMemory s t ∧ t.cmds.get? id = some c' ∧
      c' = { c with data := c'.data, srcBad := c'.srcBad, fail := c'.fail } ∧
      (∀ e, s.engineAddr c.cluster c.tenant (sourceAt m src ssc count c.data.length) .read = .error e → c'.fail = some e ∧ c'.data = c.data) ∧
      ∃ bs, c'.data = c.data ++ bs ∧ (c'.fail = none → bs ≠ []) ∧ ∀ j b, bs[j]? = some b →
        ∃ pa, s.engineAddr c.cluster c.tenant (sourceAt m src ssc count (c.data.length + j)) .read = .ok pa ∧ b = s.physByte pa ∧
          (s.physPoison pa = true → c'.srcBad = true)) ∧
  (∀ s tenant group remote g here key rest, RanksMeet s tenant group remote g here →
    here.filterMap (fun e => e.2.2.collKey) ++ remote.map RemoteRank.key = key :: rest → (∃ x ∈ rest, x ≠ key) →
    ∃ t, exec (.collMatch tenant group remote) s = .next t ∧ SameMemory s t ∧
      ∀ e ∈ here, t.cmds.get? e.2.1 = some { e.2.2 with stop := some (0x09, 0) }) ∧
  (∀ s tenant group remote g here key rest, RanksMeet s tenant group remote g here →
    here.filterMap (fun e => e.2.2.collKey) ++ remote.map RemoteRank.key = key :: rest → (∀ x ∈ rest, x = key) →
    (∀ e ∈ here, key.op ≠ .bcast ∨ e.1 = key.root → e.2.2.sourceRead = true ∧ e.2.2.fail = none ∧ e.2.2.srcBad = false) →
    ∃ t, exec (.collMatch tenant group remote) s = .next t ∧ SameMemory s t ∧
      ∀ e ∈ here, ∀ op m rop gr src dst count root ssc dsc, e.2.2.kind = .coll op m rop gr src dst count root ssc dsc →
        let given (x : Nat × Nat × Cmd) : RankData :=
          if op ≠ .bcast ∨ x.1 = root then
            ⟨x.1, (x.2.2.data.take (collBytes m count)).toArray, (x.2.2.data.drop (collBytes m count)).toArray⟩ else ⟨x.1, #[], #[]⟩
        let out := collResult op m rop count root
          ((here.map given ++ remote.map (fun r => (⟨r.rank, r.data.toArray, r.scales.toArray⟩ : RankData))).foldr insertRank []) e.1
        t.cmds.get? e.2.1 = some { e.2.2 with kind := .results gr dst out.1 dsc out.2 false, poisonAt := none, data := [] }) ∧
  (∀ (l : List RankData), (l.foldr insertRank []).Perm l ∧ (l.foldr insertRank []).Pairwise (fun a b => a.rank ≤ b.rank)) ∧
  (∀ m rop count root rs r q, (∀ i < rs.length, (rs[i]?).map RankData.rank = some i) → r ∈ rs → r.rank = root →
    collResult .allgat m rop count root rs q = (rs.flatMap (fun r => r.data.toList), rs.flatMap (fun r => r.scales.toList)) ∧
    collResult .bcast m rop count root rs q = (r.data.toList, r.scales.toList)) ∧
  (∀ op m w rop count root rs q lo n, PlainFmt m w → Segment op count rs.length q lo n →
    let out := collResult op m rop count root rs q
    out.2 = [] ∧ out.1.length = n * (w / 8) ∧ ∀ i < n, bitsAt out.1 0 w i =
      (plainOut m (foldRule (plainCombine m rop) (rs.map (fun r => plainIn m (bitsAt r.data.toList 0 w (lo + i)))))).toNat % 2 ^ w) ∧
  (∀ op m w L F emax rop count root rs q lo n, MxFmt m w L F emax → Segment op count rs.length q lo n → lo % 32 = 0 → n % 32 = 0 →
    let out := collResult op m rop count root rs q
    out.1.length = n * w / 8 ∧ out.2.length = n / 32 ∧ ∀ i < n / 32,
      MxBlock L F emax w rop rs (lo / 32 + i) (fun j => bitsAt out.1 0 w (32 * i + j)) ((out.2[i]?).getD 0).toNat)

/-- R263, R264, R287 to R294: ftest reports a future's state or its command's token; fcan stops a copy where its
addressing stands or at a piece that has not begun, with what lies below still to land, and what has not started at
once; hset replaces a dword of a handle that stays well formed, hget reads one, and hchk 0 reports its state; hld leaves
its register pending, and the header that comes back makes it valid or failed. Clauses that rest on the model's own
readings: log 61, 64 and 127. -/
def Obligations.FuturesAndHandles : Prop :=
  (∀ s k T form ext d (n : Fin 192), Ready s k T (.ftest form ext d (.s n)) → ∃ t T', exec (.ftest form ext d (.s n)) s = .next t ∧
    UniDone s k T (.ftest form ext d (.s n)) d (match form with
      | .plain => (match T.regs.sflg n with | .empty => 0 | .full => 1 | .poisoned => 2)
      | .id => (match T.regs.sflg n with | .empty => s.pendingToken k n | _ => 0)
      | .tok => s.tokenState (s.tenantIdOf T) (T.regs.s n)) t T') ∧
  (∀ s k T tok ext a, Ready s k T (.fcan tok ext a) →
    let found := s.cmds.find? (fun e => if tok then e.2.tenant == s.tenantIdOf T && e.2.token == s.uni T a
      else e.2.team == k && e.2.future.isSome && e.2.future == a.sNum)
    (found = none → Goes (.fcan tok ext a) s k T (fun t T' => T' = { T with ctl := T'.ctl, region := T'.region } ∧ OnlyTeam s t k ∧ SameMemory s t)) ∧
    (∀ id c, found = some (id, c) →
      (Copies c → c.stop = none → c.pending ≠ [] ∨ c.more = true →
        Goes (.fcan tok ext a) s k T (fun t T' => T' = { T with ctl := T'.ctl, region := T'.region } ∧ SameMemory s t ∧
          ∃ o, StopsAt c o ∧ t.cmds.get? id = some { c with
            next := min o c.next, pending := c.pending.filter (fun p => decide (p.pos < o)), stop := some (0x01, o) })) ∧
      ((Copies c ∧ c.pending = [] ∧ c.more = false) ∨ c.cls = .coll ∧ (∃ o m r g x y n q u v, c.kind = .coll o m r g x y n q u v) ∨
          (∃ l xs, c.kind = .push l xs) →
        Goes (.fcan tok ext a) s k T (fun t T' => T' = { T with ctl := T'.ctl, region := T'.region } ∧ OnlyTeam s t k ∧ SameMemory s t)) ∧
      ((∃ x y z, c.kind = .amsg x y z) ∨ ((∃ p va, c.kind = .promote p va) ∨ (∃ va, c.kind = .demote va)) ∧ c.move = none → c.stop = none →
        Goes (.fcan tok ext a) s k T (fun t T' => T' = { T with ctl := T'.ctl, region := T'.region } ∧ SameMemory s t ∧
          t.cmds.get? id = some { c with stop := some (0x01, 0) })))) ∧
  (∀ s k T (h : Fin 16) (j : Fin 6) a, Ready s k T (.hset h j a) →
    let old := T.regs.handle h
    let new := imgSet old.image j (s.uni T a.op)
    (∀ c, old.state = .failed c → exec (.hset h j a) s = .next (s.takeTrap k 0 { code := 0x92, detail := c })) ∧
    (old.state = .null → j ≠ 0 → Traps (.hset h j a) s k 0x93) ∧
    ((∀ c, old.state ≠ .failed c) → old.state ≠ .null ∨ j = 0 →
      (j = 0 → imgType new = 0 → Goes (.hset h j a) s k T (fun t T' => HandleIs T T' h {} ∧ OnlyTeam s t k ∧ SameMemory s t)) ∧
      (¬(j = 0 ∧ imgType new = 0) → imgOk new = false → Traps (.hset h j a) s k 0x91) ∧
      (¬(j = 0 ∧ imgType new = 0) → imgOk new = true →
        Goes (.hset h j a) s k T (fun t T' => HandleIs T T' h { image := new, state := .valid } ∧ OnlyTeam s t k ∧ SameMemory s t)))) ∧
  (∀ s k T d (h : Fin 16) (j : Fin 8), Ready s k T (.hget d h j) → ∃ t T', exec (.hget d h j) s = .next t ∧
    UniDone s k T (.hget d h j) d (BitVec.ofNat 64 ((T.regs.handle h).image.toNat / 2 ^ (64 * j.val))) t T') ∧
  (∀ s k T d (h : Fin 16), Ready s k T (.hchkReport d h) → ∃ t T', exec (.hchkReport d h) s = .next t ∧
    UniDone s k T (.hchkReport d h) d
      (let x := (T.regs.handle h).image
       let flags := (if x.getLsbD 9 then 2 ^ 9 else 0) + (if x.getLsbD 7 then 2 ^ 8 else 0)
       match (T.regs.handle h).state with
       | .failed c => statusOf 2 (flags + c.toNat) | .valid => statusOf 0 flags | _ => statusOf 1 flags) t T') ∧
  (∀ s k T (h : Fin 16) a, Ready s k T (.hld h a) →
    ((s.uni T a.op).toNat % 64 = 0 → (s.uni T a.op).toNat < 2 ^ 52 →
      Goes (.hld h a) s k T (fun t T' => HandleIs T T' h { T.regs.handle h with state := .pending } ∧ SameMemory s t ∧
        ∃ r, t.reqs.get? s.nextId = some r ∧ r.team = k ∧ r.kind = .hld h (s.uni T a.op))) ∧
    ((s.uni T a.op).toNat % 64 ≠ 0 ∨ 2 ^ 52 ≤ (s.uni T a.op).toNat → Traps (.hld h a) s k 0x90)) ∧
  (∀ (s : State) id r n g T, s.reqs.get? id = some r → r.kind = .hld n g → s.team? r.team = some T → s.returns r = true →
    Leads (.hldComplete id) s r.team (fun t T' => HandleIs T T' n (s.header T g) ∧ SameMemory s t ∧ t.reqs.get? id = none)) ∧
  (∀ (s : State) T g,
    (∀ c, s.gcheck T.cluster (s.tenantIdOf T) g 64 .read = .error c → s.header T g = { image := 0, state := .failed c }) ∧
    (∀ pa, s.gcheck T.cluster (s.tenantIdOf T) g 64 .read = .ok pa → s.physPoisoned pa 64 = false →
      s.header T g = if imgOk (imgKeep (BitVec.ofNat 512 (s.physRead pa 64))) then
        { image := imgKeep (BitVec.ofNat 512 (s.physRead pa 64)), state := .valid } else { image := 0, state := .failed 0x91 }))

/-- R23, R296, R299 to R306, R351: a push appends every group or none; a pull waits, and takes the oldest items when
served; a steal takes the youngest half at most, or nothing; the end of work completes every waiting pull; and a child
enters its parent's queue, is refused where it breaks a limit of R23, can never fit or finds the queue full, and is not
placed before the stores and atomics its launching team had in flight have taken effect. Clauses that rest on the
model's own readings: log 63, 65, 76 and 84. -/
def Obligations.WorkListsAndChildren : Prop :=
  (∀ (s : State) id c list items b g T, s.cmds.get? id = some c → c.kind = .push list items → s.block? c.block = some b →
    s.grid? b.grid = some g → s.held = false → s.team? c.team = some T →
    (g.endOfWork = true → Leads (.wlpushAppend id) s c.team (fun t T' => Completed id c T 0x0C 0 t T' ∧ t.segments = s.segments ∧ SameMemory s t)) ∧
    (g.endOfWork = false → (∃ x ∈ items.map Prod.fst, g.launch.wlcap < (s.items b.grid list x).length + (itemsFor items x).length) →
      Leads (.wlpushAppend id) s c.team (fun t T' => Completed id c T 0x0B 0 t T' ∧ t.segments = s.segments ∧ SameMemory s t)) ∧
    (g.endOfWork = false → (∀ x ∈ items.map Prod.fst, (s.items b.grid list x).length + (itemsFor items x).length ≤ g.launch.wlcap) →
      Leads (.wlpushAppend id) s c.team (fun t T' => Completed id c T 0x00 items.length t T' ∧ SameMemory s t ∧
        ∀ x, t.items b.grid list x = s.items b.grid list x ++ itemsFor items x))) ∧
  (∀ s k T f (n : Fin 192), Ready s k T (.wlpull f) → f.d = .s n →
    (∀ e, s.pullCheck T (s.uni T f.a.op) = some e → exec (.wlpull f) s = .next (s.takeTrap k 0 e)) ∧
    (s.pullCheck T (s.uni T f.a.op) = none → s.workOver T = false →
      Goes (.wlpull f) s k T (fun t T' => T' = { T with ctl := T'.ctl, region := T'.region, hold := .pull (s.uni T f.a.op) n } ∧ OnlyTeam s t k ∧ SameMemory s t)) ∧
    (s.pullCheck T (s.uni T f.a.op) = none → s.workOver T = true →
      Goes (.wlpull f) s k T (fun t T' => Filled T T' n (statusOf 0x0C 0) ∧ OnlyTeam s t k ∧ SameMemory s t))) ∧
  (∀ (s : State) k T x n, s.team? k = some T → T.hold = .pull x n → s.items (s.gridIdOf T) (pullList x) T.cluster ≠ [] →
    s.placedBlock T.block = true → s.behindRun k (s.frame T) (byteRun (pullAddr x) (8 * pullCount x)) = false →
    Leads (.wlpullServe k) s k (fun t T' =>
      let xs := s.items (s.gridIdOf T) (pullList x) T.cluster
      let m := min (pullCount x) xs.length
      T'.hold = .none ∧ Filled T T' n (statusOf 0 m) ∧ SameGlobal s t ∧
        t.items (s.gridIdOf T) (pullList x) T.cluster = xs.drop m ∧ t.spm = (s.putItems k (s.frame T) (pullAddr x) (xs.take m)).spm)) ∧
  (∀ s k T f (n : Fin 192), Ready s k T (.wlsteal f) → f.d = .s n →
    let x := s.uni T f.a.op
    let v := (s.uni T f.b.op).toNat
    let xs := s.items (s.gridIdOf T) (pullList x) v
    let m := min (pullCount x) ((xs.length + 1) / 2)
    (31 < v → Traps (.wlsteal f) s k 0x95) ∧
    (v ≤ 31 → ∀ e, s.pullCheck T x = some e → exec (.wlsteal f) s = .next (s.takeTrap k 0 e)) ∧
    (v ≤ 31 → s.pullCheck T x = none → s.workOver T = true →
      Goes (.wlsteal f) s k T (fun t T' => Filled T T' n (statusOf 0x0C 0) ∧ OnlyTeam s t k ∧ SameMemory s t)) ∧
    (v ≤ 31 → s.pullCheck T x = none → s.workOver T = false → xs = [] →
      Goes (.wlsteal f) s k T (fun t T' => Filled T T' n (statusOf 0x0D 0) ∧ OnlyTeam s t k ∧ SameMemory s t)) ∧
    (v ≤ 31 → s.pullCheck T x = none → s.workOver T = false → xs ≠ [] →
      s.behindRun k (s.frame T) (byteRun (pullAddr x) (8 * pullCount x)) = false →
      Goes (.wlsteal f) s k T (fun t T' => Filled T T' n (statusOf 0 m) ∧ SameGlobal s t ∧
        t.items (s.gridIdOf T) (pullList x) v = xs.take (xs.length - m) ∧
        t.spm = (s.putItems k (s.frame T) (pullAddr x) (xs.drop (xs.length - m))).spm))) ∧
  (∀ (s : State) g x, s.grid? g = some x → s.workEnds g x = true →
    ∃ t, exec (.endOfWork g) s = .next t ∧ t.grid? g = some { x with endOfWork := true } ∧ SameMemory s t ∧
      ∀ k T r n, s.team? k = some T → T.st ≠ .retired → s.gridIdOf T = g → T.hold = .pull r n →
        ∃ T', t.team? k = some T' ∧ T'.hold = .none ∧ Filled T T' n (statusOf 0x0C 0)) ∧
  (∀ s k T d a g, Ready s k T (.childLaunch d a) → d = .zero ∨ (∃ n, d = .s n) → s.grid? (s.gridIdOf T) = some g →
    let desc := s.uni T a.op
    let l := childLaunchOf g.launch (leNat (s.nearBytes (s.frame T) (desc.setWidth 32) 64).1)
    (10 ≤ g.depth → Traps (.childLaunch d a) s k 0x97) ∧
    (g.depth < 10 → desc.toNat % 16 = 0 → s.firstBad (s.frame T) (byteRun (desc.setWidth 32) 64) = none →
      s.behindRun k (s.frame T) (byteRun (desc.setWidth 32) 64) = false →
      (childOk l = false → Traps (.childLaunch d a) s k 0x98) ∧
      (childOk l = true → (s.children (s.gridIdOf T)).length < 65535 → l.quarterOk = false →
        Goes (.childLaunch d a) s k T (fun t T' => OnlyTeam s t k ∧ SameMemory s t ∧
          (∀ n, d.sNum = some n → Filled T T' n (statusOf 0x0E 0x01)) ∧ (d = .zero → T'.regs = T.regs))) ∧
      (childOk l = true → (s.children (s.gridIdOf T)).length < 65535 → l.quarterOk = true →
        (s.canFit g.tenant l = false → Goes (.childLaunch d a) s k T (fun t T' => OnlyTeam s t k ∧ SameMemory s t ∧
          (∀ n, d.sNum = some n → Filled T T' n (statusOf 0x0E 0x05)) ∧ (d = .zero → T'.regs = T.regs))) ∧
        (s.canFit g.tenant l = true → 64 ≤ s.queueLength g.tenant g.queue →
          Goes (.childLaunch d a) s k T (fun t T' => OnlyTeam s t k ∧ SameMemory s t ∧
            (∀ n, d.sNum = some n → Filled T T' n (statusOf 0x0E 0x08)) ∧ (d = .zero → T'.regs = T.regs))) ∧
        (s.canFit g.tenant l = true → s.queueLength g.tenant g.queue < 64 →
          Goes (.childLaunch d a) s k T (fun t T' => SameMemory s t ∧ T'.regs.sreg = T.regs.sreg ∧ T'.regs.lane = T.regs.lane ∧
            (∀ m, T'.regs.sflg m = if d.sNum = some m then .empty else T.regs.sflg m) ∧
            ∃ child, t.grids.get? s.nextId = some child ∧ child.launch = l ∧ child.tenant = g.tenant ∧ child.queue = g.queue ∧
              child.depth = g.depth + 1 ∧ child.owner = .child (s.gridIdOf T) k d.sNum ∧ child.placed = 0 ∧ child.ended = false ∧
              child.after = s.writesOut k))))) ∧
  (∀ (s : State) k n r e, s.reqs.get? n = some r → r.team = k → e ∈ r.elems → e.flying = true →
    ((∃ op z pl, r.kind = .gatom op z pl) ∨ (∃ z, r.kind = .store z) ∨ (∃ op, r.kind = .satom op) ∨ (∃ c o z, r.kind = .sts c o z)) →
    n ∈ s.writesOut k ∧ ∀ x, n ∈ x.after → s.launchSeen x = false) ∧
  (∀ (s : State) x, (∀ n ∈ x.after, ∀ r, s.reqs.get? n = some r → ∀ e ∈ r.elems, e.flying = false) → s.launchSeen x = true) ∧
  (∀ (s : State) g x c, s.grid? g = some x → (s.grids.map Prod.fst).Nodup → s.launchSeen x = false →
    s.placeable g x = false ∧ exec (.blockPlace g c) s = .next s ∧ exec (.distributorStarvation g c) s = .next s)

/-- R324, R328 to R331: a promote of a near stripe is done at once with value 2, one of a far stripe takes a slot and
starts a move, and one refused completes with its status; the end of a move changes no byte; a demote frees the slot;
lclass tells the class. Clauses that rest on the model's own readings: log 66 and 67. -/
def Obligations.NearRows : Prop :=
  (∀ (s : State) id c pin va T, s.cmds.get? id = some c → c.kind = .promote pin va → c.stop = none → c.move = none → s.held = false →
    s.team? c.team = some T →
    (∀ e, s.cmdStripe c va = .error e → Leads (.engineCommandComplete id) s c.team (fun t T' => Completed id c T e 0 t T' ∧ SameMemory s t)) ∧
    (∀ n, s.cmdStripe c va = .ok n → n * 2 ^ 16 < 2 ^ 51 → s.unitBusy id (n % 384) = false → s.stripes.get? n = none →
      (n / 384 < 512 → Leads (.engineCommandComplete id) s c.team (fun t T' => Completed id c T 0 2 t T' ∧ SameMemory s t)) ∧
      (512 ≤ n / 384 → pin = false → ∀ slot, s.chooseSlot (n % 384) = some (slot, none) →
        ∃ t, exec (.engineCommandComplete id) s = .next t ∧ SameMemory s t ∧ t.cmds.get? id = some { c with move := some n, victim := none } ∧
          t.stripes.get? n = some { slot := slot, moving := true, owner := c.tenant }))) ∧
  (∀ (s : State) id c pin va n x T, s.cmds.get? id = some c → c.kind = .promote pin va → c.move = some n → c.victim = none →
    s.stripes.get? n = some x → s.stripePoison n = none → s.team? c.team = some T →
    Leads (.promoteMoveComplete id) s c.team (fun t T' => Completed id c T 0 0 t T' ∧ SameMemory s t ∧
      ∃ y, t.stripes.get? n = some y ∧ y.moving = false ∧ y.pinned = pin ∧ y.slot = x.slot)) ∧
  (∀ (s : State) id c va n T, s.cmds.get? id = some c → c.kind = .demote va → c.move = some n → s.stripePoison n = none →
    s.team? c.team = some T →
    Leads (.demoteComplete id) s c.team (fun t T' => Completed id c T 0 0 t T' ∧ SameMemory s t ∧ t.stripes.get? n = none)) ∧
  (∀ s k T f, Ready s k T (.lclass f) →
    let va := (s.uni T f.a.op).toNat
    (2 ^ 52 ≤ va → ∃ t T', exec (.lclass f) s = .next t ∧ UniDone s k T (.lclass f) f.d 0x31FF t T') ∧
    (∀ e, va < 2 ^ 52 → s.translate T.cluster (s.tenantIdOf T) va .read = .error e →
      ∃ t T', exec (.lclass f) s = .next t ∧ UniDone s k T (.lclass f) f.d (BitVec.ofNat 64 (e.code.toNat * 256 + 0xFF)) t T') ∧
    (∀ pa, va < 2 ^ 52 → s.translate T.cluster (s.tenantIdOf T) va .read = .ok pa → pa < 2 ^ 51 →
      ∃ t T', exec (.lclass f) s = .next t ∧ UniDone s k T (.lclass f) f.d
        (match s.stripes.get? (pa / 2 ^ 16) with
         | some x => if x.moving then 4 else if x.pinned then 3 else 2
         | none => if pa / 2 ^ 16 / 384 < 512 then 1 else 0) t T'))

/-! ### Traps and the system instructions -/

namespace Sys2Proof.Claims

/-- A trap of team `k` finds a handler with room for its record: the team is no handler, its grid names one, and no record of its
tenant waits (R370). -/
structure HandlerTakes (s : State) (k : Nat) (T : Team) (g : Nat) (x : Grid) (tn : Tenant) : Prop where
  team : s.team? k = some T
  plain : T.handler = none
  gridId : s.gridIdOf T = g
  grid : s.grid? g = some x
  names : x.launch.handler.isSome = true
  tenant : s.tenant? x.tenant = some tn
  room : tn.records.length < 256
  first : ∀ r ∈ s.arising, r.tenant ≠ x.tenant

/-- A handler team that may leave: it holds the record of another team's precise trap. -/
structure Handles (s : State) (k : Nat) (T : Team) (h : HandlerRec) (p : Nat) (P : Team) : Prop where
  record : T.handler = some h
  party : h.trap.party = .team p
  other : p ≠ k
  team : s.team? p = some P

/-- Every lane of a team has exited, and its stacks are empty. -/
def AllExited (T T' : Team) : Prop :=
  T'.ctl.mask = 0 ∧ T'.ctl.exited = T.ctl.exited ||| Mask.below T.lanes ∧ T'.ctl.ds = {} ∧ T'.ctl.rs = {}

/-- The system register write of an instruction (R373, R374). -/
inductive SysWrite : Instr → AB → Prop where
  | sysw (f) : SysWrite (.sysw f) f
  | rpcWrite (f) : SysWrite (.rpcWrite f) f
  | rmaskWrite (f) : SysWrite (.rmaskWrite f) f

/-- Instructions that stand for all that name lane, uniform, long-latency and future registers. -/
inductive Gated : Instr → Prop where
  | iadd (f) : Gated (.iadd f)
  | sadd (f) : Gated (.sadd f)
  | ld (z f) : Gated (.ld z f)
  | brc (f) : Gated (.brc f)
  | cpy (dir bar d a b len) : Gated (.cpy dir bar d a b len)

/-- Team `k` holds the issue slot and may issue `i` as far as its place goes; nothing is said of its registers. -/
structure MayTry (s : State) (k : Nat) (T : Team) (i : Instr) : Prop where
  cur : s.cur = .team k
  team : s.team? k = some T
  running : T.st = .running
  mask : T.ctl.mask ≠ 0
  active : T.amask ≠ 0
  fresh : T.ctl.resume = none
  free : Free s k T

end Sys2Proof.Claims

/-- R370 to R372: taking a trap. The record holds the cause, the pc, the mask and the cycle count, and enters the
tenant's handler queue; a team that raised a precise trap waits for its handler, and keeps its registers and its pc.
With no handler the grid ends with status 0x10, and in a handler team with 0x11. -/
def Obligations.TrapsTaken : Prop :=
  (∀ s k T g x tn kind tr, HandlerTakes s k T g x tn →
    ∃ T' tn' r, (s.takeTrap k kind tr).team? k = some T' ∧ (s.takeTrap k kind tr).tenant? x.tenant = some tn' ∧
      tn'.records = tn.records ++ [r] ∧ SameMemory s (s.takeTrap k kind tr) ∧
      r.party = .team k ∧ r.grid = g ∧ r.tenant = x.tenant ∧ r.kind = kind ∧ r.code = tr.code ∧ r.detail = tr.detail ∧ r.addr = tr.addr ∧
      r.aux = tr.aux ∧ (kind = 0 → r.pc = tr.pc.getD T.ctl.pc ∧ r.cover = T.ctl.cover) ∧ r.mask = tr.mask.getD T.amask ∧ r.ident = s.teamIdent T ∧
      r.cycle = s.cycle + Config.elapsed s.draws ∧ (kind = 0 → r.rpc = T.ctl.pc + BitVec.ofNat 64 tr.after) ∧
      T'.regs = T.regs ∧ T'.ctl = T.ctl ∧ (kind = 0 → T'.st = .trapped) ∧ (kind ≠ 0 → T' = T) ∧
      (kind = 0 → ∀ n ∈ T.active, ∀ q, T.regionOf n = some q → ∃ q', T'.regionOf n = some q' ∧ q'.doom = some (q.doom.getD (4, tr.code)))) ∧
  (∀ (s : State) k T g x kind tr, s.team? k = some T → s.gridIdOf T = g → s.grid? g = some x → x.status = none → x.ended = false →
    T.handler.isSome = true ∨ x.launch.handler = none →
    (s.takeTrap k kind tr).grid? g = some { x with status := some (if T.handler.isSome then 0x11 else 0x10) } ∧
    SameMemory s (s.takeTrap k kind tr) ∧ (s.takeTrap k kind tr).liveBlocks g = []) ∧
  (∀ s k T f, Ready s k T (.trap f) →
    ((s.uni T f.a.op).toNat ≤ 15 → exec (.trap f) s = .next (s.takeTrap k 0
      { code := 0xC0 + (s.uni T f.a.op).setWidth 8, after := Instr.size (.trap f) })) ∧
    (15 < (s.uni T f.a.op).toNat → Traps (.trap f) s k 0xB1)) ∧
  (∀ s k T code place, MayTry s k T (.illegalInstruction code place) → T.role = .free ∨ T.role = .vector → T.ctl.cover = none →
    Traps (.illegalInstruction code place) s k (if place.team then code else 0x07))

/-- R376, R114, R196, R233: a handler's rett resumes the trapped team at RPC and ends the handler's own lanes, and a
trapped stream, once no other handler of it is owed; it releases the entry it names, or drops it, which fills the mask
words that then await nothing and leaves the dropped lanes' values; outside a handler it is trap 0xB2. Clauses that rest
on the model's own readings: log 71, 119 and 121. -/
def Obligations.TrapReturns : Prop :=
  (∀ s k T f h p P, Ready s k T (.rett f) → Handles s k T h p P → s.uni T f.a.op = 0 → h.trap.kind = 0 → P.st = .trapped →
    Leads (.rett f) s k (fun t T' => AllExited T T' ∧ T'.regs = T.regs ∧ SameMemory s t ∧
      ∃ P', t.team? p = some P' ∧ P'.st = .running ∧ P'.ctl.pc = h.rpc ∧ P'.ctl.mask = P.ctl.mask ∧ P'.regs = P.regs ∧
        (h.rpc = h.trap.rpc → ¬(h.trap.term = true ∧ h.trap.moved = true) → P'.ctl.cover = P.ctl.cover ∧
          P'.ctl.resume = (if h.trap.term ∧ P.run = none then some h.rmask else P.ctl.resume) ∧
          P'.run = P.run.map (TermRun.resume h.rmask)) ∧
        (h.rpc ≠ h.trap.rpc ∨ (h.trap.term = true ∧ h.trap.moved = true) → P'.ctl.cover = none ∧ P'.ctl.resume = none ∧ P'.run = P.run.map (TermRun.resume 0)))) ∧
  (∀ s k T f h b x m, Ready s k T (.rett f) → T.handler = some h → h.trap.party = .stream b → s.uni T f.a.op = 0 → s.block? b = some x →
    x.stream = some m →
    Leads (.rett f) s k (fun t T' => AllExited T T' ∧ SameMemory s t ∧ ∃ x' m', t.block? b = some x' ∧ x'.stream = some m' ∧
      m' = { m with pc := m'.pc, halted := m'.halted, owed := m'.owed } ∧ (h.rpc = h.trap.rpc → m'.pc = m.pc) ∧
      (h.rpc ≠ h.trap.rpc → m'.pc = h.rpc) ∧ (m.owed = 0 → m'.halted = false) ∧ (m.owed ≠ 0 → m'.halted = true ∧ m'.owed + 1 = m.owed))) ∧
  (∀ keep (r : TermRun) l, l ∈ r.lanes →
    (∀ c a, l.st = .stopped c a → keep.getLsbD l.lane = true → { l with log := [], st := .running } ∈ (r.resume keep).lanes) ∧
    (∀ c a, l.st = .stopped c a → keep.getLsbD l.lane = false → { l with st := .done 0 } ∈ (r.resume keep).lanes) ∧
    ((∀ c a, l.st ≠ .stopped c a) → l ∈ (r.resume keep).lanes)) ∧
  (∀ s k T f h p P n id r, Ready s k T (.rettRel f) → Handles s k T h p P → h.trap.kind = 1 → n < 8 →
    s.uni T f.a.op = BitVec.ofNat 64 (8 + n) → s.entryReq p n = some (id, r) → s.entryRecorded p n = false → s.teamSaved p = false →
    Leads (.rettRel f) s k (fun t T' => AllExited T T' ∧ SameMemory s t ∧
      t.reqs.get? id = some { r with released := true, renew := false })) ∧
  (∀ s k T f h p P n id r, Ready s k T (.rettDrop f) → Handles s k T h p P → h.trap.kind = 1 → n < 8 →
    s.uni T f.a.op = BitVec.ofNat 64 (8 + n) → s.entryReq p n = some (id, r) → s.entryRecorded p n = false → s.teamSaved p = false →
    (r.elems.map Elem.lane).Nodup →
    let left := r.words.filter (fun w => !(r.dropAll.inWord w).all Elem.settled)
    Leads (.rettDrop f) s k (fun t T' => AllExited T T' ∧ SameMemory s t ∧
      (t.reqs.get? id = some { r.dropAll with words := left } ∨
        t.reqs.get? id = none ∧ Req.idle { r.dropAll with words := left } = true) ∧
      ∃ P', t.team? p = some P' ∧ P' = { P with regs := P'.regs } ∧
        (∀ base c, r.dst = .v base c → base + c ≤ 256 → ∀ w ∈ r.words, w < 32 → w ∉ left → ∀ j < c,
          P'.regs.vflag (base + j) w = if ∃ e ∈ r.elems, e.lane / 32 = w ∧ e.st = .poisoned then Flag.poisoned else Flag.full) ∧
        (∀ e ∈ r.elems, e.parkedCode.isSome = true → ∀ m < 512, P'.regs.word e.lane m = P.regs.word e.lane m))) ∧
  (∀ s k T f, T.handler = none → (Ready s k T (.rett f) → Traps (.rett f) s k 0xB2) ∧
    (Ready s k T (.rettRel f) → Traps (.rettRel f) s k 0xB2) ∧ (Ready s k T (.rettDrop f) → Traps (.rettDrop f) s k 0xB2)) ∧
  (∀ s k T f h, T.handler = some h → s.uni T f.a.op = 0 →
    (Ready s k T (.rettRel f) → Traps (.rettRel f) s k 0xB2) ∧ (Ready s k T (.rettDrop f) → Traps (.rettDrop f) s k 0xB2))

/-- R373, R374, R377, R378: sysr reads and sysw writes the system registers, and a refused number is trap 0xB0; ptlb
holds its team until the translations it names are gone; usg gives a usage counter, or leaves a signed report. Clauses
that rest on the model's own readings: log 68, 69, 70 and 99. -/
def Obligations.SystemInstructions : Prop :=
  (∀ s k T ext (v : Fin 192) b, Ready s k T (.sysr ext (.s v) b) →
    (∀ x s1, s.sysRead T (s.uni T b.op) = some (x, s1) →
      Goes (.sysr ext (.s v) b) s k T (fun t T' => SameMemory s t ∧ T'.regs.lane = T.regs.lane ∧ T'.regs.sreg = T.regs.sreg ∧
        (∀ m, T'.regs.sflg m = if m = v.val then .empty else T.regs.sflg m) ∧
        ∃ r e, t.reqs.get? s.nextId = some r ∧ r.team = k ∧ r.dst = .s v ∧ r.elems = [e] ∧ e.got = x.setWidth 128)) ∧
    (s.sysRead T (s.uni T b.op) = none → Traps (.sysr ext (.s v) b) s k 0xB0)) ∧
  (∀ (s : State) T, s.sysRead T 0 = some (BitVec.ofNat 64 (T.fp.enables.toNat * 256 + T.fp.flags.toNat), s) ∧
    (s.sysRead T 1).map Prod.fst = some (s.cycle + Config.elapsed s.draws) ∧ s.sysRead T 3 = some (s.teamIdent T, s) ∧
    s.sysRead T 4 = some (T.precnt, s) ∧ s.sysRead T 0x10 = T.handler.map (fun h => (h.rpc, s)) ∧
    ∀ w < 32, s.sysRead T (BitVec.ofNat 64 (0x100 + w)) = T.handler.map (fun h => (BitVec.ofNat 64 (h.rmask.toNat / 2 ^ (32 * w) % 2 ^ 32), s))) ∧
  (∀ s k T i f, SysWrite i f → Ready s k T i →
    let n := (s.uni T f.a.op).toNat
    let x := s.uni T f.b.op
    (n = 0 → Goes i s k T (fun t T' => T'.fp = { T.fp with flags := x.setWidth 5, enables := (x >>> 8).setWidth 4 } ∧ T'.regs = T.regs ∧
      T'.handler = T.handler ∧ OnlyTeam s t k ∧ SameMemory s t)) ∧
    (∀ h, n = 0x10 → T.handler = some h → Goes i s k T (fun t T' => T'.fp = T.fp ∧ T'.regs = T.regs ∧ OnlyTeam s t k ∧ SameMemory s t ∧
      T'.handler = some (if h.trap.kind = 0 ∨ h.trap.kind = 2 then { h with rpc := x } else h))) ∧
    (∀ h, 0x100 ≤ n → n < 0x120 → T.handler = some h → h.trap.term = true →
      Goes i s k T (fun t T' => T'.fp = T.fp ∧ T'.regs = T.regs ∧ OnlyTeam s t k ∧ SameMemory s t ∧
        ∃ h', T'.handler = some h' ∧ h'.rpc = h.rpc ∧ h'.trap = h.trap ∧ ∀ j < 1024, h'.rmask.getLsbD j =
          (h.rmask.getLsbD j && (decide (j / 32 ≠ n - 0x100) || x.getLsbD (j % 32))))) ∧
    (n ≠ 0 → (n = 0x10 → T.handler = none) → (0x100 ≤ n → n < 0x120 → ∀ h, T.handler = some h → h.trap.term = false) →
      Traps i s k 0xB0)) ∧
  (∀ s k T f, Ready s k T (.ptlb f) →
    let a := (s.uni T f.a.op).toNat
    let b := (s.uni T f.b.op).toNat
    (a < 2 ^ 52 → b < 4 ∨ b = 7 → Goes (.ptlb f) s k T (fun t T' => T'.hold = .ptlb (s.uni T f.a.op) (s.uni T f.b.op) ∧
      T'.regs = T.regs ∧ OnlyTeam s t k ∧ SameMemory s t)) ∧
    (2 ^ 52 ≤ a ∨ (4 ≤ b ∧ b ≠ 7) → Traps (.ptlb f) s k 0xB3)) ∧
  (∀ (s : State) k T a b, s.team? k = some T → T.hold = .ptlb a b →
    Leads (.ptlbComplete k) s k (fun t T' => T' = { T with hold := .none } ∧ SameMemory s t ∧
      ∀ e, e ∈ t.tlb ↔ e ∈ s.tlb ∧ e.covered (s.tenantIdOf T) a b = false)) ∧
  (∀ s k T ext (v : Fin 192) b, Ready s k T (.usg ext (.s v) b) →
    let x := (s.uni T b.op).toNat
    (x % 8 < 5 → x / 8 % 16 = 0 → x / 2 ^ 8 % 2 ^ 24 = 0 → x / 2 ^ 7 % 2 = 0 →
      Goes (.usg ext (.s v) b) s k T (fun t T' => SameMemory s t ∧ T'.regs.lane = T.regs.lane ∧
        (∀ m, T'.regs.sflg m = if m = v.val then .empty else T.regs.sflg m) ∧
        ∃ r y, t.reqs.get? s.nextId = some r ∧ r.team = k ∧ r.dst = .s v ∧ r.kind = .uni y ∧
          (x % 8 = 1 ∨ x % 8 = 4 → y = (s.usageOf (s.tenantIdOf T)).1.getD (x % 8) 0))) ∧
    (x % 8 < 5 → x / 8 % 16 = 0 → x / 2 ^ 8 % 2 ^ 24 = 0 → x / 2 ^ 7 % 2 = 1 →
      (s.areaBad (s.frame T) (BitVec.ofNat 32 (x / 2 ^ 32)) = none →
        Goes (.usg ext (.s v) b) s k T (fun t T' => SameMemory s t ∧ T'.regs.lane = T.regs.lane ∧
          (∀ m, T'.regs.sflg m = if m = v.val then .empty else T.regs.sflg m) ∧
          ∃ r, t.reqs.get? s.nextId = some r ∧ r.team = k ∧ r.dst = .s v ∧ r.kind = .usg T.core ((s.frame T).p + x / 2 ^ 32 % 2 ^ 20))) ∧
      (∀ c, s.areaBad (s.frame T) (BitVec.ofNat 32 (x / 2 ^ 32)) = some c →
        exec (.usg ext (.s v) b) s = .next (s.takeTrap k 0 { code := 0xB5, detail := c }))) ∧
    (5 ≤ x % 8 ∨ x / 8 % 16 ≠ 0 ∨ x / 2 ^ 8 % 2 ^ 24 ≠ 0 → Traps (.usg ext (.s v) b) s k 0xB4)) ∧
  (∀ (s : State) id r core off v T, s.reqs.get? id = some r → r.kind = .usg core off → r.dst = .s v → s.team? r.team = some T →
    (∃ b, s.block? T.block = some b ∧ b.st = .placed) → s.arrives (.report id) = true →
    Leads (.usgReportComplete id) s r.team (fun t T' => Filled T T' v 0 ∧ SameGlobal s t ∧ t.reqs.get? id = none ∧
      Memory.bytes t.spm (spmKey core off) 32 = Memory.bytes s.spm (spmKey core off) 32 ∧
      Memory.read t.spm (spmKey core off + 32) 8 = s.tenantIdOf T % 2 ^ 64 ∧
      ∀ a, a < spmKey core off ∨ spmKey core off + 2048 ≤ a → Memory.byte t.spm a = Memory.byte s.spm a))

/-- R42, R43, R51, R66, R73, R74, R78: the checks before an instruction's own effect, in their order: its place, an
unallocated register, poison, a T bit on an empty source; then it waits for an empty register it reads or writes, where
an entry that a plain rett left parked on that register raises its trap anew (R376). Clauses that rest on the model's
own readings: log 71. -/
def Obligations.ChecksBeforeIssue : Prop :=
  (∀ s k T i, Gated i → MayTry s k T i → placeTrap T i.standing = none → s.vtosWord T i = [] →
    ((∃ r ∈ (usesOf i).all, r.beyond T = true) → Traps i s k 0x11) ∧
    ((∀ r ∈ (usesOf i).all, r.beyond T = false) →
      ((∃ p ∈ (usesOf i).reads, p.1.state T T.swept = .poisoned) → Traps i s k 0x12) ∧
      ((∀ p ∈ (usesOf i).reads, p.1.state T T.swept ≠ .poisoned) →
        ((∃ p ∈ (usesOf i).reads, p.2 = true ∧ p.1.state T T.swept = .empty) → Traps i s k 0x10) ∧
        ((∀ p ∈ (usesOf i).reads, p.2 = true → p.1.state T T.swept ≠ .empty) →
          (∃ p ∈ (usesOf i).reads, p.1.state T T.swept = .empty) ∨ (∃ r ∈ (usesOf i).writes, r.anyEmpty T T.swept = true) →
          (s.owesTraps k = false → exec i s = s.notReady) ∧
          (∀ es, s.waitedEntries k T i = es → es ≠ [] → exec i s = .next (s.renewTraps k es)))))) ∧
  (∀ s k T tile, MayTry s k T (.mclr tile) → Traps (.mclr tile) s k 0x07) ∧
  (∀ s k T f, MayTry s k T (.iadd f) → T.role = .copy → Traps (.iadd f) s k 0x08) ∧
  (∀ s k T f, MayTry s k T (.jmp f) → T.role ≠ .copy → T.ctl.cover.isSome = true → Traps (.jmp f) s k 0x06) ∧
  (∀ s b x m f, s.cur = .stream b → s.block? b = some x → x.stream = some m → m.halted = false → m.ended = false → x.st = .placed →
    s.stepWaits b = false → StreamTraps (.iadd f) s b 0x07 0)

/-! ### Ends, records and placement -/

namespace Sys2Proof.Claims

/-- Answers a next state of which `P` holds. -/
def Next (i : Instr) (s : State) (P : State → Prop) : Prop := ∃ t, exec i s = .next t ∧ P t

/-- Team `k` alone becomes `T'`. -/
def TeamIs (s : State) (k : Nat) (T' : Team) (t : State) : Prop := t.team? k = some T' ∧ OnlyTeam s t k ∧ SameMemory s t

/-- Nothing of a team remains outstanding (R31). -/
structure NothingLeft (s : State) (k : Nat) (T : Team) : Prop where
  count : T.count = {}
  hold : T.hold = .none
  reqs : ∀ r ∈ s.reqs, r.2.team ≠ k
  children : s.childPending k = false
  records : s.heldByRecord k = false

/-- Every lane of a running team has exited. -/
def AllOut (T : Team) : Prop := T.st = .running ∧ T.ctl.mask = 0 ∧ Mask.below T.lanes &&& ~~~T.ctl.exited = 0

/-- No team of the block but `k` is left. -/
def LastOf (s : State) (k b : Nat) : Prop := ∀ e ∈ s.teams, e.1 ≠ k → e.2.block = b → e.2.st = .retired

end Sys2Proof.Claims

/-- R31 to R33, R49, R141, R210, R256, R305, R363, R389: a team whose lanes have all exited waits for what it has
outstanding, then raises the traps it owes, then retires, and with the last team and the stream its block ends, a grant
staying until every access checked against it has landed (R103); a grid with no block left and no engine command
outstanding ends, and says so to who launched it; a fetch brings words to a team's buffer; a lease is taken back where
its lender needs it, with the slots' values; a walk whose pages are still the tenant's is cached. Clauses that rest on
the model's own readings: log 82, 83 and 115. -/
def Obligations.TeamsAndGridsEnd : Prop :=
  (∀ (s : State) k T b x, s.team? k = some T → T.block = b → s.block? b = some x → x.st = .placed ∨ x.st = .saving → AllOut T →
    ((∃ r ∈ s.reqs, r.2.team = k) → s.owesTraps k = false → exec (.teamRetire k) s = .next s) ∧
    (NothingLeft s k T → T.atomErr = none → T.engErr = none →
      Next (.teamRetire k) s (fun t => t.team? k = some { T with st := .retired } ∧ SameMemory s t ∧
        ((∃ e ∈ s.teams, e.1 ≠ k ∧ e.2.block = b ∧ e.2.st ≠ .retired) → t.blocks = s.blocks ∧ t.grants = s.grants ∧ t.bars = s.bars) ∧
        (LastOf s k b → (x.stream.map Stream.ended).getD true = true →
          t.block? b = some { x with st := .ended, stream := none, saved := [] } ∧
            (∀ g ∈ t.grants, g.block = b → g ∈ s.grants ∧ s.runBusy (fun n => n == b) g.core g.first g.run = true) ∧
            ∀ n, (Sparse.get {} t.bars n).owner ≠ some b))) ∧
    (NothingLeft s k T → ∀ e, T.atomErr = some e → exec (.teamRetire k) s = .next
      ((s.modTeam k (fun u => { u with atomErr := none })).takeTrap k 3 { code := 0x35, addr := e.addr, aux := e.val })) ∧
    (NothingLeft s k T → ∀ e, T.atomErr = none → T.engErr = some e → exec (.teamRetire k) s = .next
      ((s.modTeam k (fun u => { u with engErr := none })).takeTrap k 3 { code := 0x86, aux := e.val }))) ∧
  (∀ (s : State) g x, s.grid? g = some x → x.ended = false → x.status.isSome = true ∨ x.launch.nblk ≤ x.placed → s.children g = [] →
    (∀ m ∈ s.msgs, m.grid ≠ g) → s.recordsWait g = false →
    (s.liveBlocks g ≠ [] ∨ (∃ e ∈ s.cmds, ∃ b, s.block? e.2.block = some b ∧ b.grid = g) → exec (.gridEnd g) s = .next s) ∧
    (s.liveBlocks g = [] → s.gridCmds g = false → Next (.gridEnd g) s (fun t => t.grid? g = some { x with ended := true } ∧ SameMemory s t ∧
      (∀ fn tag, x.owner = .host fn tag → (t.fn fn).owed = (s.fn fn).owed ++
        [⟨tag, 0, x.status.getD 0, BitVec.ofNat 64 (x.number % 2 ^ 24)⟩]) ∧
      (∀ p k n T, x.owner = .child p k (some n) → s.team? k = some T → T.st ≠ .retired →
        ∃ T', t.team? k = some T' ∧ Filled T T' n (match x.status with | none => 0 | some st => statusOf 0x0E st.toNat))))) ∧
  ((∀ (s : State) k T, s.team? k = some T → T.st ≠ .retired → T.ctl.buf < 16 →
    Next (.fetchFill k) s (fun t => SameMemory s t ∧ (∀ j, j ≠ k → t.team? j = s.team? j) ∧
      ∃ n, 1 ≤ n ∧ T.ctl.buf + n ≤ 16 ∧ t.team? k = some { T with ctl := { T.ctl with buf := T.ctl.buf + n } })) ∧
  (∀ (s : State) k T q, s.team? k = some T → T.lease = some q →
    (s.lenderNeeds q = false → exec (.spillLeaseRevoke k) s = .next s) ∧
    (s.lenderNeeds q = true → Next (.spillLeaseRevoke k) s (fun t => SameMemory s t ∧ (∀ j, j ≠ k → t.team? j = s.team? j) ∧
      ∃ p, t.team? k = some { T with lease := none, slotPoison := p } ∧
        ∀ n, Sparse.get false p n = true → Sparse.get false T.slotPoison n = true ∨ Config.copyError s.draws n = true)))) ∧
  (∀ (s : State) c tn va id w l, s.walks.find? (fun e => e.2.cluster == c && e.2.tenant == tn && e.2.va == va) = some (id, w) →
    s.walk tn va = some l →
    ((∀ p ∈ w.pages ++ l.pages ++ [(l.pa + va % l.size) / 4096], s.owns tn p = true) → Next (.translationWalk c tn va) s (fun t =>
      SameMemory s t ∧ t.walks.get? id = none ∧
      t.tlb = s.tlb ++ [⟨c, tn, va / l.size * l.size, l.size, l.pa, l.x, l.w, l.pages⟩])) ∧
    ((∃ p ∈ w.pages ++ l.pages, s.owns tn p = false) → Next (.translationWalk c tn va) s (fun t =>
      SameMemory s t ∧ t.walks.get? id = none ∧ t.tlb = s.tlb)))

/-- R277, R370, R371, R407: the oldest record that waits enters its tenant's queue once that has fewer than 256; a
system event becomes a record of kind 4 where a live grid names a handler, else a completion of the tenant's function
with what was dropped before it, else one of the 256 held, else it is counted as dropped; a record, or a message, starts
its team, with what s0 on hold. Clauses that rest on the model's own readings: log 60, 72, 75 and 79. -/
def Obligations.RecordsAndEvents : Prop :=
  (∀ (s : State) tenant r tn, s.arising.find? (fun r => r.tenant == tenant) = some r → s.tenant? tenant = some tn →
    (256 ≤ tn.records.length → exec (.trapRecordEnqueue tenant) s = .next s) ∧
    (tn.records.length < 256 → Next (.trapRecordEnqueue tenant) s (fun t => SameMemory s t ∧ t.arising = s.arising.erase r ∧
      t.tenant? tenant = some { tn with records := tn.records ++ [r] }))) ∧
  (∀ (s : State) tenant code addr rest tn, s.sysEvents = (tenant, code, addr) :: rest → s.tenant? tenant = some tn →
    (∀ g x, s.eventGrid tenant = some (g, x) → tn.records.length < 256 → (∀ r ∈ s.arising, r.tenant ≠ tenant) →
      Next (.systemEvent tenant code addr) s (fun t => SameMemory s t ∧ t.sysEvents = rest ∧
        ∃ r, t.tenant? tenant = some { tn with records := tn.records ++ [r] } ∧ r.kind = 4 ∧ r.code = code ∧ r.addr = addr ∧ r.grid = g)) ∧
    (s.eventGrid tenant = none → (s.fn (tenant + 1)).rings.isSome = true →
      Next (.systemEvent tenant code addr) s (fun t => SameMemory s t ∧ t.sysEvents = rest ∧ t.tenant? tenant = some { tn with dropped := 0 } ∧
        (t.fn (tenant + 1)).owed = (s.fn (tenant + 1)).owed ++
          [⟨0xFFFFFFFF, 5, code, BitVec.ofNat 64 (addr.toNat % 2 ^ 52 + min tn.dropped 4095 * 2 ^ 52)⟩])) ∧
    (s.eventGrid tenant = none → (s.fn (tenant + 1)).rings = none →
      Next (.systemEvent tenant code addr) s (fun t => SameMemory s t ∧ t.sysEvents = rest ∧
        t.tenant? tenant = some (if tn.held.length < 256 then { tn with held := tn.held ++ [⟨code, addr⟩] }
          else { tn with dropped := tn.dropped + 1 })))) ∧
  (∀ (s : State) tenant p tn r rest w, s.tenant? tenant = some tn → s.checkpointing = false → s.handlers tenant < 64 →
    tn.records = r :: rest → r.kind = 0 → s.handlerSpawn r = some w → s.handlerPlaceOk r p = true →
    Next (.handlerTeamStart tenant p) s (fun t => t.tenant? tenant = some { tn with records := rest } ∧
      ∃ T h, t.team? (s.nextId + 1) = some T ∧ T.block = s.nextId ∧ T.quarter = p.quarters.headD 0 ∧ T.ctl.pc = w.kernel.entry ∧
        T.ctl.mask = Mask.below w.kernel.lanes ∧ T.handler = some h ∧ h.trap = r ∧ h.rpc = r.rpc ∧ h.rmask = r.mask ∧
        T.regs.s 0 = BitVec.ofNat 64 (r.detail.toNat * 256 + r.code.toNat) ∧ T.regs.s 1 = r.ident ∧ T.regs.s 2 = r.addr ∧ T.regs.s 3 = r.aux ∧
        T.regs.s 4 = r.pc ∧ T.regs.s 5 = BitVec.ofNat 64 (r.mask.toNat % 2 ^ 32) ∧ T.regs.s 7 = r.cycle)) ∧
  (∀ (s : State) c p m rest g k, s.checkpointing = false → s.msgs = m :: rest → s.msgPlaceOk c p m = true → s.grid? m.grid = some g →
    g.launch.amsg[m.h]? = some k → Next (.amsgDeliver c p) s (fun t => t.msgs = rest ∧
      ∃ T, t.team? (s.nextId + 1) = some T ∧ T.block = s.nextId ∧ T.cluster = c ∧ T.ctl.pc = k.entry ∧ T.lanes = k.lanes ∧
        T.ctl.mask = Mask.below k.lanes ∧ ∀ j x, m.payload[j]? = some x → T.regs.s j = x))

namespace Sys2Proof.Claims

/-- A block's placement, by choice `c`: the block, and its teams as they start (R22, R23, R35). -/
def PlacedAt (s : State) (g : Nat) (x : Grid) (c : PlaceChoice) (t : State) : Prop :=
  let l := x.launch
  t.grid? g = some { x with placed := x.placed + 1, passed := 0 } ∧
  (∃ b, t.block? s.nextId = some b ∧ b.grid = g ∧ b.index = x.placed ∧ b.quarters = c.quarters ∧ b.p = c.p ∧ b.st = .placed ∧
    b.scratch = l.kernel.scratch) ∧
  ∀ j < l.teams, ∃ T, t.team? (s.nextId + 1 + j) = some T ∧ T.block = s.nextId ∧ T.index = j ∧
    T.quarter = c.quarters.getD (j % l.span) 0 ∧ T.lanes = l.kernel.lanes ∧ T.vregs = l.kernel.vregs ∧ T.st = .running ∧
    T.ctl.mask = Mask.below l.kernel.lanes ∧ T.ctl.exited = 0 ∧ (∀ n m, T.regs.word n m = 0) ∧ (l.arg = none → ∀ m, T.regs.s m = 0) ∧
    T.fp.flags = 0 ∧ T.fp.enables = l.kernel.ftrap ∧ (l.roles = [] → T.ctl.pc = l.kernel.entry ∧ T.role = .free)

/-- A grid that waits to place a block, and that no handler goes before (R350, R370). -/
structure Waits (s : State) (g : Nat) (x : Grid) : Prop where
  grid : s.grid? g = some x
  next : s.placeable g x = true
  single : x.launch.gang = false

end Sys2Proof.Claims

/-- R21 to R23, R35, R350: the distributor places the next block of the grid whose turn it is, where the choice serves;
a starved grid holds every other back, and goes first itself; a grid that another goes before places nothing; a gang
grid places all its blocks at once or none. Clauses that rest on the model's own readings: log 74, 75, 76, 77 and 78. -/
def Obligations.BlocksPlaced : Prop :=
  (∀ (s : State) g x c, Waits s g x → (∀ e ∈ s.heads x.tenant, e.2.passed < 64) → s.nextGrid g x = true →
    s.placeOk x.tenant (x.launch.spawn g x.placed) c = true → Next (.blockPlace g c) s (PlacedAt s g x c)) ∧
  (∀ (s : State) g x c, Waits s g x → 64 ≤ x.passed → (∀ e ∈ s.heads x.tenant, 64 ≤ e.2.passed → e.1 = g) →
    s.placeOk x.tenant (x.launch.spawn g x.placed) c = true → Next (.distributorStarvation g c) s (PlacedAt s g x c)) ∧
  (∀ (s : State) g x c, s.grid? g = some x → (∃ e ∈ s.heads x.tenant, 64 ≤ e.2.passed) ∨ s.nextGrid g x = false ∨ s.checkpointing = true →
    exec (.blockPlace g c) s = .next s) ∧
  (∀ (s : State) g x c, s.grid? g = some x → x.launch.gang = false → s.placeOk x.tenant (x.launch.spawn g x.placed) c = false →
    exec (.blockPlace g c) s = .next s ∧ exec (.distributorStarvation g c) s = .next s) ∧
  (∀ (s : State) g x c, s.grid? g = some x → x.launch.gang = true → x.placed < x.launch.nblk →
    exec (.blockPlace g c) s = .next s ∨ Next (.blockPlace g c) s (fun t =>
      t.grid? g = some { x with placed := x.launch.nblk, passed := 0 }))

/-! ### Slices, pre-emption and saving -/

namespace Sys2Proof.Claims

/-- The cycle count of the reading a step makes (R374). -/
def nowOf (s : State) : DWord := s.cycle + Config.elapsed s.draws

/-- A placed block that stops. -/
def stopped (x : Block) : Block := if x.st = .placed then { x with st := .saving } else x

/-- A saved block as BLOCK_RESTORE needs it: its parts lie within its allocation, its teams have nothing outstanding and nothing
recorded. -/
structure Restorable (s : State) (b : Nat) (x : Block) : Prop where
  block : s.block? b = some x
  saved : x.st = .saved
  runs : s.blockSuspended b = false ∧ s.checkpointing = false ∧ s.restoring = false
  fits : s.restoreFits x = true
  crossed : s.arrives (.restore b) = true
  alloc : x.p + x.scratch ≤ 2 ^ 20
  cores : (x.saved.map Prod.fst).Nodup
  parts : ∀ part ∈ x.saved, Memory.wf part.2.1 = true ∧ ∀ e ∈ part.2.1, e.1 < x.scratch
  reqs : ∀ r ∈ s.reqs, r.2.team ∉ s.liveTeams b
  recorded : ∀ k ∈ s.liveTeams b, ∀ T, s.team? k = some T → T.recorded = []

end Sys2Proof.Claims

/-- R352, R357: a slice runs until its deficit is used or its tenant has nothing to run, and then the tenant's blocks
there stop, and once they are saved its deficit is settled; the next tenant's slice adds its credit, after the last
one's blocks are saved and its deficit is settled; a class 3 grid that nothing but pre-emption can place stops the
youngest block that makes its room. Clauses that rest on the model's own readings: log 80 and 81. -/
def Obligations.SlicesAndPreemption : Prop :=
  (∀ (s : State) n p j, s.partitions.get? n = some p → p.turn = some j →
    (s.runsOn p j = true → ((nowOf s - p.start).toNat : Int) < p.deficit j →
      Next (.sliceEnd n) s (fun t => t.partitions = s.partitions ∧ t.blocks = s.blocks ∧ SameMemory s t)) ∧
    (s.runsOn p j = false ∨ p.deficit j ≤ ((nowOf s - p.start).toNat : Int) → (s.partitions.map Prod.fst).Nodup →
      Next (.sliceEnd n) s (fun t => SameMemory s t ∧
        (∀ b x, s.block? b = some x → t.block? b = some (if b ∈ s.blocksOn p j then stopped x else x)) ∧
        ((∃ b ∈ s.blocksOn p j, s.residentBlock b = true) →
          t.partitions.get? n = some { p with turn := none, closing := some j }) ∧
        ((∀ b ∈ s.blocksOn p j, s.residentBlock b = false) → ∃ p', t.partitions.get? n = some p' ∧ p'.turn = none ∧
          p'.closing = none ∧ p'.deficit j ≤ 0 ∧ p'.quarters = p.quarters)))) ∧
  (∀ (s : State) n p j tn, s.partitions.get? n = some p → p.shared = true → p.turn = none → p.closing = none → s.checkpointing = false →
    s.nextTurn p = some j → s.tenant? j = some tn →
    Next (.sliceStart n) s (fun t => SameMemory s t ∧ t.blocks = s.blocks ∧ ∃ p', t.partitions.get? n = some p' ∧ p'.turn = some j ∧
      p'.start = nowOf s ∧ p'.quarters = p.quarters ∧ p'.deficit j = p.deficit j + (tn.w * tn.u : Nat))) ∧
  (∀ (s : State) n p, s.partitions.get? n = some p → s.sliceSaved p = false → exec (.sliceStart n) s = .next s) ∧
  (∀ (s : State) p j now, p.closing = some j → (∃ e ∈ p.tenants, e.1 = j) →
    (s.settleSlice p now).closing = none ∧ (s.settleSlice p now).deficit j =
      if s.backlogged p j then min 0 (p.deficit j - ((now - p.start).toNat : Int)) else 0) ∧
  (∀ (s : State) g x b y, s.grid? g = some x → s.block? b = some y → s.checkpointing = false → (∃ e ∈ s.heads x.tenant, e.1 = g) →
    x.launch.cls = 3 → s.gridFits g x = false → s.givesRoom g x b y = true → (∀ e ∈ s.blocks, s.givesRoom g x e.1 e.2 = true → e.2.age ≤ y.age) →
    Next (.preemptForClass3 g b) s (fun t => t = { s with blocks := t.blocks } ∧ t.block? b = some { y with st := .saving } ∧
      ∀ c, c ≠ b → t.block? c = s.block? c)) ∧
  (∀ (s : State) g x b, s.grid? g = some x → s.gridFits g x = true ∨ x.launch.cls ≠ 3 → exec (.preemptForClass3 g b) s = .next s)

/-- R322, R354, R358 to R360: a block is saved once its stores and its stream's work are done and its packet of class 3
has crossed the fabric, with its part of every core's scratchpad; each of its teams counts one more pre-emption and
generation, keeps its registers and its path where no region was open, and has no region left. It returns to its
quarters with those bytes, placed, its registers poisoned only where an error stood in the save area. Clauses that rest
on the model's own readings: log 37, 38, 43, 86 and 99. -/
def Obligations.SavesAndRestores : Prop :=
  (∀ (s : State) b x, s.block? b = some x → x.st = .saving →
    (s.saveWaits b = true → exec (.blockSave b) s = .next s) ∧
    (s.saveWaits b = false → (s.packetOf (.save b)).isSome = true → s.arrives (.save b) = false → exec (.blockSave b) s = .next s) ∧
    (s.saveWaits b = false → s.packetOf (.save b) = none → Next (.blockSave b) s (fun t => SameMemory s t ∧ t.blocks = s.blocks ∧
      t.teams = s.teams ∧ (∀ q, q ∈ t.packets → q ∉ s.packets → q.2.owner = .save b ∧ q.2.cls = 3) ∧
      ((∀ xp, s.spent xp x.cluster = 0) → (t.packetOf (.save b)).isSome = true))) ∧
    (s.saveWaits b = false → s.arrives (.save b) = true → (s.liveTeams b).Nodup → Next (.blockSave b) s (fun t => SameMemory s t ∧
      (∃ parts, t.block? b = some { x with st := .saved, saved := parts } ∧ ∀ core ∈ x.quarters.map coreOf, ∃ m bad, (core, m, bad) ∈ parts ∧
        ∀ a < x.scratch, Memory.byte m a = Memory.byte s.spm (spmKey core x.p + a)) ∧
      ∀ k T, s.team? k = some T → T.block = b → T.st ≠ .retired → T.arend = none →
        ∃ T', t.team? k = some T' ∧ T'.gen = T.gen + 1 ∧ T'.precnt = T.precnt + 1 ∧ T'.st = T.st ∧ (∀ n < T.lanes, T'.regionOf n = none) ∧
          (T.openLanes = [] → (∀ r ∈ s.reqs, r.2.team = k → r.2.arld = false) →
            T'.regs = T.regs ∧ T'.ctl.pc = T.ctl.pc ∧ T'.ctl.mask = T.ctl.mask)))) ∧
  (∀ (s : State) b x, Restorable s b x → Next (.blockRestore b) s (fun t =>
    t.block? b = some { x with st := .placed, saved := [] } ∧ t.dram = s.dram ∧ t.host = s.host ∧
    (∀ part ∈ x.saved, ∀ a < x.scratch, Memory.byte t.spm (spmKey part.1 x.p + a) = Memory.byte part.2.1 a) ∧
    ∀ k T, s.team? k = some T → T.block = b → T.st ≠ .retired →
      ∃ T', t.team? k = some T' ∧ T' = { T with
          recorded := [], lease := T'.lease, ctl := { T.ctl with buf := 0 }, regs := T'.regs, slotPoison := T'.slotPoison
          run := T'.run, reruns := [] } ∧ (T.run = none → T'.run = none) ∧
        (∀ n m, T'.regs.word n m = T.regs.word n m) ∧ T'.regs.sreg = T.regs.sreg ∧ T'.regs.h = T.regs.h ∧ T'.regs.tag = T.regs.tag ∧
        (∀ v w, T'.regs.vflag v w = T.regs.vflag v w ∨ T'.regs.vflag v w = .poisoned) ∧
        (∀ m, T'.regs.sflg m = T.regs.sflg m ∨ T'.regs.sflg m = .poisoned))) ∧
  (∀ (s : State) b x, s.block? b = some x → x.st ≠ .saved ∨ s.blockSuspended b = true ∨ s.restoreFits x = false →
    exec (.blockRestore b) s = .next s)

/-! ### Host commands -/

namespace Sys2Proof.Claims

/-- A host command, its opcode, whose it is, and the argument bytes it uses, as runs (R387, R389). -/
inductive HostCmd : Instr → CmdEntry → Nat → Who → List (Nat × Nat) → Prop where
  | tenantMake (e) : HostCmd (.tenantMake e) e 0x01 .physical [(8, 3), (12, 24)]
  | tenantSet (e) : HostCmd (.tenantSet e) e 0x02 .physical [(8, 3), (12, 26)]
  | teardown (e) : HostCmd (.teardown e) e 0x03 .physical [(8, 2)]
  | assign (e) : e.get 8 1 ≠ 1 → HostCmd (.partitionAssign e) e 0x04 .physical [(8, 1), (10, 8), (24, 8)]
  | withdraw (e) : e.get 8 1 = 1 → HostCmd (.partitionWithdraw e) e 0x04 .physical [(8, 1), (10, 6)]
  | pageOwn (e) : HostCmd (.pageOwn e) e 0x05 .physical [(8, 15)]
  | groupMake (e) : HostCmd (.groupMake e) e 0x06 .physical [(8, 3), (12, 12)]
  | groupEnd (e) : HostCmd (.groupEnd e) e 0x07 .physical [(8, 3)]
  | clusterReset (e) : HostCmd (.clusterReset e) e 0x08 .physical [(8, 1)]
  | fnReset (e) : HostCmd (.fnReset e) e 0x09 .any [(8, 2)]
  | checkpoint (e) : HostCmd (.checkpoint e) e 0x0A .physical []
  | restore (e) : HostCmd (.restore e) e 0x0B .physical []
  | attest (e) : HostCmd (.attest e) e 0x0C .any [(8, 40)]
  | fwWrite (e) : HostCmd (.fwWrite e) e 0x0D .physical [(8, 13)]
  | powerCap (e) : HostCmd (.powerCap e) e 0x0E .physical [(8, 2)]
  | suspend (e) : HostCmd (.suspend e) e 0x0F .physical [(8, 2), (12, 4)]
  | resume (e) : HostCmd (.resume e) e 0x10 .physical [(8, 2), (12, 4)]
  | launch (e) : HostCmd (.launch e) e 0x20 .virtual [(8, 2), (16, 8)]
  | cancel (e) : HostCmd (.cancel e) e 0x21 .virtual [(8, 4)]
  | memWrite (e) : HostCmd (.memWrite e) e 0x22 .virtual [(8, 20)]
  | memRead (e) : HostCmd (.memRead e) e 0x23 .virtual [(8, 20)]

/-- Every argument byte outside the runs is zero. -/
def Unused (e : CmdEntry) (uses : List (Nat × Nat)) : Prop :=
  ∀ j < 56, e.get (j + 8) 1 ≠ 0 → ∃ u ∈ uses, u.1 ≤ j + 8 ∧ j + 8 < u.1 + u.2

/-- A command that is taken up and passes the checks every command makes (R386, R387). -/
structure Accepted (s : State) (i : Instr) (e : CmdEntry) : Prop where
  row : ∃ op who uses, HostCmd i e op who uses ∧ e.opcode = op ∧ (who = .physical → e.fn = 0) ∧ (who = .virtual → e.fn ≠ 0) ∧ Unused e uses
  serves : s.mayServe e = true
  tag : e.tag ≠ 0xFFFFFFFF
  field : e.get 2 2 = e.fn

/-- The command is over: its completion, if it leaves one, is owed, and its function goes on to its next entry. -/
def Over (s t : State) (e : CmdEntry) (c : Option Completion) : Prop :=
  (t.fn e.fn).owed = (s.fn e.fn).owed ++ c.toList ∧ (t.fn e.fn).running = none ∧
    (t.fn e.fn).queue = if (s.fn e.fn).running.isSome then (s.fn e.fn).queue else (s.fn e.fn).queue.tail

/-- A command completes with a status, a value and a launch status. -/
def Answered (i : Instr) (s : State) (e : CmdEntry) (status : Byte) (value : DWord) (launch : Byte) (P : State → Prop) : Prop :=
  Next i s (fun t => P t ∧ Over s t e (some ⟨e.tag, status, launch, value⟩))

/-- A command is refused: nothing has changed but its function's queues. -/
def Refused (i : Instr) (s : State) (e : CmdEntry) (status : Byte) : Prop :=
  Answered i s e status 0 0 (fun t => t = { s with fns := t.fns })

/-- A command begins, or goes on, and completes later. -/
def Begins (i : Instr) (s : State) (e : CmdEntry) (P : State → Prop) : Prop :=
  Next i s (fun t => P t ∧ (t.fn e.fn).running = some e ∧ (t.fn e.fn).owed = (s.fn e.fn).owed)

/-- Nothing changed but the tenants and the functions. -/
def OnlyTenants (s t : State) : Prop := t = { s with tenants := t.tenants, fns := t.fns, draws := t.draws }

/-- An address of the host's (R361). -/
def hostAddr (a : Nat) : Prop := 2 ^ 51 ≤ a ∧ a < 2 ^ 52

/-- The parameters of a tenant within their ranges (R347). -/
def Ranged (T : Tenant) : Prop :=
  1 ≤ T.w ∧ T.w ≤ 255 ∧ 12000 ≤ T.u ∧ T.u ≤ 12000000 ∧ T.f ≤ 256 ∧ T.q ≤ 512 ∧ T.ptroot.toNat % 2 ^ 16 = 0 ∧
    1 ≤ T.qn ∧ T.qn ≤ 4096 ∧ T.qbase + T.qn ≤ 4096

/-- A grid is a descendant of another, by so many launches; and with no more than the ten that R305 allows, or itself. -/
inductive Descends (s : State) (g : Nat) : Nat → Nat → Prop where
  | self : Descends s g g 0
  | child (p c n) : Descends s g p n → c ∈ s.children p → Descends s g c (n + 1)
def OfFamily (s : State) (g c : Nat) : Prop := ∃ n ≤ 10, Descends s g c n

/-- The queues of a tenant belong to no other tenant (R349). -/
def OwnQueues (s : State) (id : Nat) (T : Tenant) : Prop :=
  ∀ e ∈ s.tenants, e.1 ≠ id → e.2.qbase + e.2.qn ≤ T.qbase ∨ T.qbase + T.qn ≤ e.2.qbase

end Sys2Proof.Claims

/-- R386, R387, R391, R392: a command that is not its function's turn waits; the reserved tag, a function that may not
give the command, a wrong function field and a nonzero unused byte refuse it, in that order; an unassigned opcode is
status 4; after a failed bring-up only ATTEST and FW_WRITE are taken up. Clauses that rest on the model's own readings:
log 91 and 101. -/
def Obligations.HostCommandChecks : Prop :=
  (∀ (s : State) i e op who uses, HostCmd i e op who uses → e.opcode = op →
    (s.mayServe e = false → exec i s = .next s) ∧
    (s.mayServe e = true →
      (e.tag = 0xFFFFFFFF → Refused i s e 2) ∧
      (e.tag ≠ 0xFFFFFFFF → who = .physical → e.fn ≠ 0 → Refused i s e 1) ∧
      (e.tag ≠ 0xFFFFFFFF → who = .virtual → e.fn = 0 → Refused i s e 2) ∧
      (e.tag ≠ 0xFFFFFFFF → ¬(who = .physical ∧ e.fn ≠ 0) → e.get 2 2 ≠ e.fn ∨ ¬Unused e uses → Refused i s e 2))) ∧
  (∀ (s : State) e, s.mayServe e = true → (∀ i op who uses, HostCmd i e op who uses → e.opcode ≠ op) →
    Refused (.unassignedCommand e) s e (if e.tag = 0xFFFFFFFF then 2 else 4)) ∧
  (∀ (s : State) e c, s.powerSt = .on (some c) → e.opcode ≠ 0x0C → e.opcode ≠ 0x0D → s.mayServe e = false) ∧
  (∀ (s : State) e r, (s.fn e.fn).running = some r → r ≠ e → s.mayServe e = false)

/-- R347, R348, R364, R365, R369, R389: TENANT_MAKE and TENANT_SET give a tenant its parameters or refuse; GROUP_MAKE
and GROUP_END make and end a group, or refuse; PARTITION makes a partition, gives it quarters and takes them, once what
was checked against a grant there has landed; TEARDOWN leaves nothing of a tenant. Clauses that rest on the model's own
readings: log 69 and 87. -/
def Obligations.TenantCommands : Prop :=
  (∀ (s : State) e T, Accepted s (.tenantMake e) e →
    T = { w := e.get 10 1, u := e.get 12 4, f := e.get 16 2, q := e.get 18 2, nearQuota := e.get 20 4,
          ptroot := BitVec.ofNat 64 (e.get 24 8), qbase := e.get 32 2, qn := e.get 34 2, key := Config.drawKey s.draws } →
    (e.get 8 2 ≤ 1023 → s.tenant? (e.get 8 2) = none → Ranged T → OwnQueues s (e.get 8 2) T →
      Answered (.tenantMake e) s e 0 0 0 (fun t => OnlyTenants s t ∧ t.tenant? (e.get 8 2) = some T)) ∧
    (1023 < e.get 8 2 ∨ (s.tenant? (e.get 8 2)).isSome = true ∨ ¬Ranged T ∨ ¬OwnQueues s (e.get 8 2) T → Refused (.tenantMake e) s e 2)) ∧
  (∀ (s : State) e old, Accepted s (.tenantSet e) e → s.tenant? (e.get 8 2) = some old →
    let sel (j : Nat) : Prop := e.get 36 2 / 2 ^ j % 2 = 1
    ∀ T : Tenant, T = { old with w := T.w, u := T.u, f := T.f, q := T.q, nearQuota := T.nearQuota, ptroot := T.ptroot, qbase := T.qbase, qn := T.qn } →
    ((sel 0 → T.w = e.get 10 1) ∧ (¬sel 0 → T.w = old.w)) → ((sel 1 → T.u = e.get 12 4) ∧ (¬sel 1 → T.u = old.u)) →
    ((sel 2 → T.f = e.get 16 2) ∧ (¬sel 2 → T.f = old.f)) → ((sel 3 → T.q = e.get 18 2) ∧ (¬sel 3 → T.q = old.q)) →
    ((sel 4 → T.nearQuota = e.get 20 4) ∧ (¬sel 4 → T.nearQuota = old.nearQuota)) →
    ((sel 5 → T.ptroot = BitVec.ofNat 64 (e.get 24 8)) ∧ (¬sel 5 → T.ptroot = old.ptroot)) →
    ((sel 6 → T.qbase = e.get 32 2 ∧ T.qn = e.get 34 2) ∧ (¬sel 6 → T.qbase = old.qbase ∧ T.qn = old.qn)) →
    (Ranged T → OwnQueues s (e.get 8 2) T → (∀ q, old.qbase ≤ q → q < old.qbase + old.qn → s.queueLength (e.get 8 2) q ≠ 0 →
        T.qbase ≤ q ∧ q < T.qbase + T.qn) →
      Answered (.tenantSet e) s e 0 0 0 (fun t => OnlyTenants s t ∧ t.tenant? (e.get 8 2) = some T)) ∧
    (Ranged T → OwnQueues s (e.get 8 2) T → (∃ q, old.qbase ≤ q ∧ q < old.qbase + old.qn ∧ s.queueLength (e.get 8 2) q ≠ 0 ∧
        ¬(T.qbase ≤ q ∧ q < T.qbase + T.qn)) → Refused (.tenantSet e) s e 3) ∧
    (¬Ranged T ∨ ¬OwnQueues s (e.get 8 2) T → Refused (.tenantSet e) s e 2)) ∧
  (∀ (s : State) e, Accepted s (.groupMake e) e → s.tenant? (e.get 8 2) = none ∨ (s.group? (e.get 8 2) (e.get 10 1)).isSome = true ∨
      e.get 12 4 < 1 ∨ 4096 < e.get 12 4 ∨ ¬hostAddr (e.get 16 8) ∨ ¬hostAddr (e.get 16 8 + 8 * e.get 12 4 - 1) →
    Refused (.groupMake e) s e 2) ∧
  (∀ (s : State) e, (Accepted s (.tenantSet e) e → s.tenant? (e.get 8 2) = none → Refused (.tenantSet e) s e 2) ∧
    (Accepted s (.groupEnd e) e → s.tenant? (e.get 8 2) = none ∨ s.group? (e.get 8 2) (e.get 10 1) = none → Refused (.groupEnd e) s e 2) ∧
    (Accepted s (.teardown e) e → s.tenant? (e.get 8 2) = none → Refused (.teardown e) s e 2)) ∧
  (∀ (s : State) e T, Accepted s (.groupMake e) e → s.tenant? (e.get 8 2) = some T → s.group? (e.get 8 2) (e.get 10 1) = none →
    1 ≤ e.get 12 4 → e.get 12 4 ≤ 4096 → hostAddr (e.get 16 8) → hostAddr (e.get 16 8 + 8 * e.get 12 4 - 1) →
    Answered (.groupMake e) s e 0 0 0 (fun t => OnlyTenants s t ∧ ∃ g, t.tenant? (e.get 8 2) = some { T with groups := T.groups ++ [g] } ∧
      g.number = e.get 10 1 ∧ g.ranks.length = e.get 12 4 ∧ ∀ j < e.get 12 4, g.ranks.getD j (0, 0) =
        ((Memory.dword s.host (e.get 16 8 + 8 * j)).toNat % 2 ^ 16, (Memory.dword s.host (e.get 16 8 + 8 * j)).toNat / 2 ^ 16 % 4))) ∧
  (∀ (s : State) e T, Accepted s (.groupEnd e) e → s.tenant? (e.get 8 2) = some T → (s.group? (e.get 8 2) (e.get 10 1)).isSome = true →
    (s.groupBusy (e.get 8 2) (e.get 10 1) = true → Begins (.groupEnd e) s e (fun t => OnlyTenants s t ∧
      ∃ T', t.tenant? (e.get 8 2) = some T' ∧ e.get 10 1 ∈ T'.endingGroups ∧ T'.groups = T.groups)) ∧
    (s.groupBusy (e.get 8 2) (e.get 10 1) = false → Answered (.groupEnd e) s e 0 0 0 (fun t => OnlyTenants s t ∧
      ∃ T', t.tenant? (e.get 8 2) = some T' ∧ ∀ g, g ∈ T'.groups ↔ g ∈ T.groups ∧ g.number ≠ e.get 10 1))) ∧
  ((∀ (s : State) e, Accepted s (.partitionAssign e) e → e.get 8 1 ≠ 1 →
    let id := e.get 10 2
    let q0 := e.get 12 2
    let n := e.get 14 2
    let sane := e.get 8 1 = 0 ∧ id ≤ 2047 ∧ 1 ≤ n ∧ q0 + n ≤ 2048 ∧ 1 ≤ e.get 16 2 ∧ e.get 16 2 ≤ 64 ∧
      hostAddr (e.get 24 8) ∧ hostAddr (e.get 24 8 + 2 * e.get 16 2 - 1)
    let ts := (List.range (e.get 16 2)).map (fun j => Memory.read s.host (e.get 24 8 + 2 * j) 2)
    let listed := ts.Nodup ∧ (∀ x ∈ ts, (s.tenant? x).isSome = true) ∧
      ∀ y ∈ s.partitions, y.1 ≠ id → ∀ q ∈ y.2.quarters, ¬(q0 ≤ q ∧ q < q0 + n)
    let leaves (p p' : Partition) : Prop :=
      p' = { p with quarters := p'.quarters } ∧ ∀ q, q ∈ p'.quarters ↔ q ∈ p.quarters ∨ (q0 ≤ q ∧ q < q0 + n)
    let only (t : State) : Prop := t = { s with partitions := t.partitions, fns := t.fns } ∧
      ∀ m, m ≠ id → t.partitions.get? m = s.partitions.get? m
    (¬sane ∨ ¬listed → Refused (.partitionAssign e) s e 2) ∧
    (∀ p, sane → listed → s.partitions.get? id = some p →
      (p.tenants.map Prod.fst ≠ ts → Refused (.partitionAssign e) s e 2) ∧
      (p.tenants.map Prod.fst = ts → Answered (.partitionAssign e) s e 0 0 0 (fun t => only t ∧
        ∃ p', t.partitions.get? id = some p' ∧ leaves p p'))) ∧
    (sane → listed → s.partitions.get? id = none → Answered (.partitionAssign e) s e 0 0 0 (fun t => only t ∧
      ∃ p', t.partitions.get? id = some p' ∧ leaves { quarters := [], tenants := ts.map (fun x => (x, 0)), shared := decide (1 < e.get 16 2) } p'))) ∧
  (∀ (s : State) e p, Accepted s (.partitionWithdraw e) e →
    let id := e.get 10 2
    let q0 := e.get 12 2
    let n := e.get 14 2
    s.partitions.get? id = some p → 1 ≤ n → q0 + n ≤ 2048 → (∀ q, q0 ≤ q → q < q0 + n → q ∈ p.quarters) →
    ((∃ b ∈ s.blocks, b.2.live = true ∧ ∃ q ∈ b.2.quarters, q0 ≤ q ∧ q < q0 + n) → Refused (.partitionWithdraw e) s e 3) ∧
    ((∀ b ∈ s.blocks, b.2.live = true → ∀ q ∈ b.2.quarters, ¬(q0 ≤ q ∧ q < q0 + n)) →
      (∃ q, q0 ≤ q ∧ q < q0 + n ∧ s.quarterBusy q = true) → exec (.partitionWithdraw e) s = .next s) ∧
    ((∀ b ∈ s.blocks, b.2.live = true → ∀ q ∈ b.2.quarters, ¬(q0 ≤ q ∧ q < q0 + n)) →
      (∀ q, q0 ≤ q → q < q0 + n → s.quarterBusy q = false) →
      Answered (.partitionWithdraw e) s e 0 0 0 (fun t => t = { s with partitions := t.partitions, fns := t.fns, grants := t.grants } ∧
        ((∀ q ∈ p.quarters, q0 ≤ q ∧ q < q0 + n) → t.partitions.get? id = none) ∧
        ((∃ q ∈ p.quarters, ¬(q0 ≤ q ∧ q < q0 + n)) → ∃ p', t.partitions.get? id = some p' ∧ p'.tenants = p.tenants ∧
          ∀ q, q ∈ p'.quarters ↔ q ∈ p.quarters ∧ ¬(q0 ≤ q ∧ q < q0 + n)))))) ∧
  (∀ (s : State) e T, Accepted s (.teardown e) e → s.tenant? (e.get 8 2) = some T → (∀ x ∈ s.stripes, x.2.moving = false) →
    let id := e.get 8 2
    Answered (.teardown e) s e 0 0 0 (fun t => t.tenant? id = none ∧ (∀ page, t.owns id page = false) ∧ (∀ x ∈ t.tlb, x.tenant ≠ id) ∧
      (∀ p ∈ t.partitions, ∀ x ∈ p.2.tenants, x.1 ≠ id) ∧ (∀ x ∈ t.stripes, s.stripeOwned id x.1 = false) ∧
      ∀ g x, s.grid? g = some x → x.tenant = id → ∃ y, t.grid? g = some y ∧ y.live = false))

/-- R332, R362, R363, R367, R368, R389: PAGE_OWN sets its pages' entries and writes back their promoted stripes, and
completes once no walk uses them, no access translated to them is on its way and nothing cached names them; a cluster
reset ends the grids with a block there with status 0x12 and truncates what it had injected in part, held back by a
checkpoint; a function reset clears its tenant's scratchpad partitions and ends every grid of its tenant, the pending
ones unreported and the others with 0x13. Clauses that rest on the model's own readings: log 83 and 88. -/
def Obligations.PagesAndResets : Prop :=
  (∀ (s : State) e, Accepted s (.pageOwn e) e → (s.fn e.fn).running = none →
    let base := e.get 8 8
    let n := e.get 16 4
    let ten := e.get 20 2
    let mine (page : Nat) : Prop := base / 4096 ≤ page ∧ page < base / 4096 + n
    let physical := base + 4096 * n ≤ 372 * 2 ^ 30 ∨ (2 ^ 51 ≤ base ∧ base + 4096 * n ≤ 2 ^ 52)
    (base % 4096 = 0 → 1 ≤ n → n ≤ 2 ^ 20 → physical → ten = 0xFFFF ∨ (s.tenant? ten).isSome = true →
      (∀ x ∈ s.stripes, x.2.moving = false) →
      Begins (.pageOwn e) s e (fun t => SameMemory s t ∧ t.pageChange.isSome = true ∧
        (∀ page, Sparse.get 0 t.rot page = if mine page then (if ten = 0xFFFF then 0 else
          BitVec.ofNat 16 (2 ^ 15 + e.get 22 1 % 2 * 2 ^ 14 + ten % 1024)) else Sparse.get 0 s.rot page) ∧
        ∀ x ∈ t.stripes, x ∈ s.stripes ∧ ∀ page, mine page → page / 16 ≠ x.1)) ∧
    (base % 4096 ≠ 0 ∨ n < 1 ∨ 2 ^ 20 < n ∨ ¬physical ∨ (ten ≠ 0xFFFF ∧ s.tenant? ten = none) →
      Refused (.pageOwn e) s e 2)) ∧
  (∀ (s : State) e first n x, s.pageChange = some (first, n, x) → (s.fn e.fn).running = some e → e.opcode = 5 →
    let mine (page : Nat) : Prop := first ≤ page ∧ page < first + n
    ((∃ w ∈ s.walks, ∃ p ∈ w.2.pages, mine p) ∨
      (∃ r ∈ s.reqs, (∃ op w pl, r.2.kind = .gatom op w pl) ∧ ∃ x ∈ r.2.elems, x.st = .transit ∧ mine (x.pa / 4096)) ∨
      (∃ c ∈ s.cmds, ∃ p ∈ c.2.pending, ∃ pa, (.phys pa ∈ p.src ∨ ∃ j, (.phys pa, j) ∈ p.dst) ∧ mine (pa / 4096)) →
      exec (.pageOwnAck e.fn) s = .next s) ∧
    ((∀ w ∈ s.walks, ∀ p ∈ w.2.pages, ¬mine p) → s.pagesBusy first n = false → Answered (.pageOwnAck e.fn) s e 0 0 0 (fun t => t.pageChange = none ∧ SameMemory s t ∧
      t.rot = s.rot ∧ (∀ y ∈ t.tlb, y ∈ s.tlb ∧ ∀ p ∈ y.pages, ¬mine p) ∧ ∀ l ∈ t.lines, ¬mine (l.1 / 64)))) ∧
  (let ends (s : State) (c : Nat) (t : State) : Prop := SameMemory s t ∧
      (∀ p, p ∈ t.fabric ↔ p ∈ s.fabric ∧ (p.2.whole = true ∨ p.2.cluster ≠ c)) ∧
      (∀ id m, s.cmds.get? id = some m → ∀ m', t.cmds.get? id = some m' → ∀ q ∈ m'.pending, ∀ p ∈ s.fabric, p.2.owner = .piece id q.pos →
        p.2.whole = true ∨ p.2.cluster ≠ c) ∧ ∀ g x, s.grid? g = some x → t.grid? g =
      some (if x.live = true ∧ g ∈ s.clusterGrids c then { x with status := some 0x12 } else x)
   (∀ (s : State) e, Accepted s (.clusterReset e) e →
      (e.get 8 1 ≤ 31 → Answered (.clusterReset e) s e 0 0 0 (ends s (e.get 8 1))) ∧ (31 < e.get 8 1 → Refused (.clusterReset e) s e 2)) ∧
   (∀ (s : State) c, c ≤ 31 →
      (s.checkpointing = false → Next (.clusterInternalFault c) s (ends s c)) ∧
      (s.checkpointing = true → exec (.clusterInternalFault c) s = .next { s with heldResets := s.heldResets ++ [c] }))) ∧
  (∀ (s : State) e, Accepted s (.fnReset e) e →
    let f := e.get 8 2
    (e.fn ≠ 0 → f ≠ e.fn → Refused (.fnReset e) s e 1) ∧
    (e.fn = 0 ∨ f = e.fn → f < 1 ∨ 1024 < f ∨ s.tenant? (f - 1) = none → Refused (.fnReset e) s e 2) ∧
    (e.fn = 0 ∨ f = e.fn → 1 ≤ f → f ≤ 1024 → (s.tenant? (f - 1)).isSome = true →
      Answered (.fnReset e) s e 0 0 0 (fun t => (t.fn f).qgen = (s.fn f).qgen + 1 ∧
        ((s.blocks.map Prod.fst).Nodup → (∀ b ∈ s.blocks, b.2.resident = true →
            ∃ x, s.grid? b.2.grid = some x ∧ x.tenant = f - 1 ∧ x.live = true ∧ x.placed ≠ 0) →
          ∀ core off p, off < 2 ^ 20 → p ∈ s.partitions → (∃ y ∈ p.2.tenants, y.1 = f - 1) → p.2.holds core off = true →
            Memory.byte t.spm (spmKey core off) = 0) ∧ ∀ g x, s.grid? g = some x → (∀ y ∈ s.grids, y.1 = g → y.2 = x) →
        t.grid? g = some (if x.tenant = f - 1 ∧ x.live = true then
          (if x.placed = 0 then { x with ended := true } else { x with status := some 0x13 }) else x))))

/-- R53, R349, R351, R357, R389, R390: LAUNCH puts a grid into its queue, with the fields its record gives it, or
completes with the launch status that refuses it; CANCEL ends a grid with status 0x14; SUSPEND stops a grid, its
descendants and their blocks, and RESUME lets them run; MEM_WRITE and MEM_READ copy between host memory and the
tenant's, a run at a time, poison with it. Clauses that rest on the model's own readings: log 89, 92, 93, 95 and 120. -/
def Obligations.GridCommands : Prop :=
  (∀ (s : State) e, Accepted s (.launch e) e →
    let q := e.get 8 2
    let a := e.get 16 8
    let same (t : State) : Prop := t = { s with fns := t.fns }
    (s.tenant? e.tenant = none → Answered (.launch e) s e 0 0 0x09 same) ∧
    (∀ T, s.tenant? e.tenant = some T →
      (q < T.qbase ∨ T.qbase + T.qn ≤ q ∨ a % 64 ≠ 0 → Refused (.launch e) s e 2) ∧
      (T.qbase ≤ q → q < T.qbase + T.qn → a % 64 = 0 →
        (∀ st, s.readLaunch e.tenant a = .error st → Answered (.launch e) s e 0 (statusOf st.toNat 0) 0x01 same) ∧
        (∀ x l, s.readLaunch e.tenant a = .ok (x, l) →
          (s.launchStatus e.tenant q x l ≠ 0 → Answered (.launch e) s e 0 0 (s.launchStatus e.tenant q x l) same) ∧
          (s.launchStatus e.tenant q x l = 0 → s.codeBusy e.tenant l = true → exec (.launch e) s = .next s) ∧
          (s.launchStatus e.tenant q x l = 0 → s.codeBusy e.tenant l = false → Next (.launch e) s (fun t => Over s t e none ∧ SameMemory s t ∧
            ∃ g, t.grid? s.nextId = some g ∧ g.tenant = e.tenant ∧ g.queue = q ∧ g.launch = l ∧ g.owner = .host e.fn e.tag ∧
              g.number = T.nextGrid ∧ g.placed = 0 ∧ g.depth = 0 ∧ g.live = true)))))) ∧
  (∀ (s : State) tenant a x l, s.readLaunch tenant a = .ok (x, l) →
    let at_ (lo n : Nat) : Nat := x / 2 ^ (8 * lo) % 2 ^ (8 * n)
    l.kernel.entry = BitVec.ofNat 64 (at_ 0 8) ∧ l.code = BitVec.ofNat 64 (at_ 8 8) ∧ l.codeLen = at_ 16 8 ∧ l.nblk = at_ 24 4 + 1 ∧
      l.kernel.lanes = at_ 28 2 ∧ l.teams = at_ 30 2 ∧ l.kernel.vregs = at_ 32 2 ∧ l.kernel.sregs = at_ 34 2 ∧
      l.kernel.scratch = at_ 36 4 ∧ l.span = at_ 40 1 ∧ l.kernel.priv = at_ 44 4 ∧ l.kernel.spill = at_ 48 2 ∧
      (at_ 112 8 = 0 ↔ l.handler = none)) ∧
  ((∀ (s : State) e, Accepted s (.cancel e) e →
    (∀ g x, s.taggedGrid e.fn (BitVec.ofNat 32 (e.get 8 4)) = some g → s.grid? g = some x → x.live = true →
      Answered (.cancel e) s e 0 0 0 (fun t => SameMemory s t ∧ t.grid? g = some { x with status := some 0x14 } ∧ t.liveBlocks g = [])) ∧
    (s.taggedGrid e.fn (BitVec.ofNat 32 (e.get 8 4)) = none → Refused (.cancel e) s e 2)) ∧
  (∀ (s : State) e g, Accepted s (.suspend e) e → s.taggedGrid (e.get 8 2) (BitVec.ofNat 32 (e.get 12 4)) = some g →
    (s.blocks.map Prod.fst).Nodup →
    let stops (t : State) : Prop := SameMemory s t ∧
      (∀ c x, s.grid? c = some x → (OfFamily s g c → t.grid? c = some { x with suspended := true }) ∧
        (¬OfFamily s g c → t.grid? c = some x)) ∧
      ∀ b x, s.block? b = some x → (OfFamily s g x.grid → t.block? b = some (stopped x)) ∧ (¬OfFamily s g x.grid → t.block? b = some x)
    let resident := ∃ b x, s.block? b = some x ∧ OfFamily s g x.grid ∧ (x.st = .placed ∨ x.st = .saving)
    (resident → Begins (.suspend e) s e stops) ∧ (¬resident → Answered (.suspend e) s e 0 0 0 stops)) ∧
  (∀ (s : State) e, Accepted s (.suspend e) e → s.taggedGrid (e.get 8 2) (BitVec.ofNat 32 (e.get 12 4)) = none →
    (s.fn e.fn).running = none → Refused (.suspend e) s e 2) ∧
  (∀ (s : State) e, Accepted s (.resume e) e →
    (∀ g, s.taggedGrid (e.get 8 2) (BitVec.ofNat 32 (e.get 12 4)) = some g → Answered (.resume e) s e 0 0 0 (fun t => SameMemory s t ∧
      t.blocks = s.blocks ∧ ∀ c x, s.grid? c = some x → (OfFamily s g c → t.grid? c = some { x with suspended := false }) ∧
        (¬OfFamily s g c → t.grid? c = some x))) ∧
    (s.taggedGrid (e.get 8 2) (BitVec.ofNat 32 (e.get 12 4)) = none → Refused (.resume e) s e 2)) ∧
  (∀ (s : State) b x y, s.block? b = some x → s.grid? x.grid = some y → y.suspended = true → exec (.blockRestore b) s = .next s)) ∧
  (∀ (s : State) i e, i = Instr.memWrite e ∨ i = .memRead e → Accepted s i e →
    let host := e.get 8 8
    let va := e.get 16 8
    let len := e.get 24 4
    let o := (s.fn e.fn).done
    let n (a : Nat) : Nat := min (len - o) (64 - (a + o) % 64)
    let bad (now : Bool) : Option Nat := if now = true ∧ (s.fn e.fn).bad = none then some o else (s.fn e.fn).bad
    let final (now : Bool) : DWord := match bad now with
      | some b => statusOf 0x05 b
      | none => statusOf 0 len
    (s.tenant? e.tenant = none ∨ ¬hostAddr host ∨ ¬hostAddr (host + len - 1) ∨ len < 1 ∨ 2 ^ 31 < len → Refused i s e 2) ∧
    ((s.tenant? e.tenant).isSome = true → hostAddr host → hostAddr (host + len - 1) → 1 ≤ len → len ≤ 2 ^ 31 →
      o < len →
      (i = .memWrite e →
        let poison := s.physPoisoned (host + o) (n host)
        (∀ st, s.engineWrite hostCluster e.tenant (va + o) (Memory.bytes s.host (host + o) (n host)) poison false = .error st →
          Answered i s e 0 (statusOf st.toNat o) 0 (SameMemory s)) ∧
        (∀ s1, s.engineWrite hostCluster e.tenant (va + o) (Memory.bytes s.host (host + o) (n host)) poison false = .ok s1 →
          (o + n host = len → Answered i s e 0 (final poison) 0 (SameMemory s1)) ∧
          (o + n host < len → Begins i s e (fun t => SameMemory s1 t ∧ (t.fn e.fn).done = o + n host ∧ (t.fn e.fn).bad = bad poison)))) ∧
      (i = .memRead e →
        (∀ st, s.engineRead hostCluster e.tenant (va + o) (n va) = .error st →
          Answered i s e 0 (statusOf st.toNat o) 0 (SameMemory s)) ∧
        (∀ bs poison, s.engineRead hostCluster e.tenant (va + o) (n va) = .ok (bs, poison) →
          let copied (t : State) : Prop := t.dram = s.dram ∧ t.spm = s.spm ∧
            (∀ a, Memory.byte t.host a = if host + o ≤ a ∧ a < host + o + n va then bs.getD (a - (host + o)) 0 else Memory.byte s.host a) ∧
            (poison = true → ∀ j < n va, t.plocPoison (.phys (host + o + j)) = true)
          (o + n va = len → Answered i s e 0 (final poison) 0 copied) ∧
          (o + n va < len → Begins i s e (fun t => copied t ∧ (t.fn e.fn).done = o + n va ∧ (t.fn e.fn).bad = bad poison))))))

/-- R378, R382, R389, R393 to R395: ATTEST leaves the measurements in host memory; FW_WRITE writes the image not in use;
POWER_CAP sets the cap; CHECKPOINT stops every block and, once all is still, leaves the image; RESTORE takes the part's
own image when no tenant is live. Clauses that rest on the model's own readings: log 69, 90 and 102. -/
def Obligations.RootCommands : Prop :=
  (∀ (s : State) e, Accepted s (.attest e) e →
    let a := e.get 40 8
    (¬hostAddr a ∨ ¬hostAddr (a + 2047) ∨ a % 64 ≠ 0 → Refused (.attest e) s e 2) ∧
    (hostAddr a → hostAddr (a + 2047) → a % 64 = 0 → Answered (.attest e) s e 0 0 0 (fun t => t.dram = s.dram ∧ t.spm = s.spm ∧
      Memory.read t.host a 32 = e.get 8 32 ∧ Memory.read t.host (a + 32) 32 = (digest s.booted.body).toNat ∧
      Memory.read t.host (a + 64) 8 = (Config.imageVersion s.booted.bytes).toNat ∧ Memory.read t.host (a + 72) 8 = s.rollback.toNat ∧
      Memory.read t.host (a + 80) 32 = rootIdentity.toNat ∧
      ∀ c, c < a ∨ a + 2048 ≤ c → Memory.byte t.host c = Memory.byte s.host c))) ∧
  (∀ (s : State) e, Accepted s (.fwWrite e) e →
    let a := e.get 8 8
    let n := e.get 16 4
    (¬hostAddr a ∨ n < 1 ∨ 2 ^ 25 < n ∨ ¬hostAddr (a + n - 1) → Refused (.fwWrite e) s e 2) ∧
    (hostAddr a → 1 ≤ n → n ≤ 2 ^ 25 → hostAddr (a + n - 1) → Answered (.fwWrite e) s e 0 0 0 (fun t => SameMemory s t ∧ t.booted = s.booted ∧
      (if s.bootedB then t.imageA else t.imageB) = ⟨Memory.bytes s.host a n⟩ ∧ t.bootedB = s.bootedB ∧ t.rollback = s.rollback ∧
      t.activeB = if e.get 20 1 % 2 = 1 then !s.bootedB else s.activeB))) ∧
  (∀ (s : State) e, Accepted s (.powerCap e) e →
    (e.get 8 2 < 1200 ∨ 2800 < e.get 8 2 → Refused (.powerCap e) s e 2) ∧
    (1200 ≤ e.get 8 2 → e.get 8 2 ≤ 2800 →
      Answered (.powerCap e) s e 0 0 0 (fun t => t = { s with cap := e.get 8 2, fns := t.fns }))) ∧
  (∀ (s : State) e, Accepted s (.checkpoint e) e → (s.fn e.fn).running = none →
    Begins (.checkpoint e) s e (fun t => t.checkpointing = true ∧ t.tier = none ∧ SameMemory s t ∧
      ∀ b x, s.block? b = some x → t.block? b = some (stopped x))) ∧
  (∀ (s : State) e, (s.fn 0).running = some e → e.fn = 0 → e.opcode = 0x0A → s.checkpointing = true →
    ((∃ b ∈ s.blocks, b.2.st = .placed ∨ b.2.st = .saving) → exec .checkpointComplete s = .next s) ∧
    (s.quiesced = true → Answered .checkpointComplete s e 0 (BitVec.ofNat 64 (4096 + 372 * 2 ^ 30)) 0 (fun t =>
      t.checkpointing = false ∧ t.tier = some s.image ∧ SameMemory s t ∧ t.heldResets = []))) ∧
  (∀ (s : State) e, Accepted s (.restore e) e → (s.fn e.fn).running = none →
    (s.tenants ≠ [] → Refused (.restore e) s e 3) ∧
    (s.tenants = [] → s.tier = none → Refused (.restore e) s e 2) ∧
    (∀ i, s.tenants = [] → s.tier = some i → i.signer ≠ rootIdentity ∨ i.identity ≠ rootIdentity → Refused (.restore e) s e 2) ∧
    (∀ i, s.tenants = [] → s.tier = some i → i.signer = rootIdentity → i.identity = rootIdentity →
      Begins (.restore e) s e (fun t => t = { s with restoring := true, fns := t.fns }))) ∧
  (∀ (s : State) e i, (s.fn 0).running = some e → e.fn = 0 → e.opcode = 0x0B → s.restoring = true → s.tier = some i →
    Answered .restoreComplete s e 0 (BitVec.ofNat 64 (4096 + 372 * 2 ^ 30)) 0 (fun t => t.restoring = false ∧ t.dram = i.dram ∧
      t.host = s.host ∧ t.rot = i.rot ∧ t.stripes = i.stripes ∧ t.setSeq = i.setSeq ∧ t.grants = i.grants ∧ t.bars = i.bars ∧ t.grids = i.grids ∧ t.blocks = i.blocks ∧ t.teams = i.teams ∧ t.tlb = [] ∧
      ∀ id T, Table.get? i.tenants id = some T → ∃ key, t.tenant? id = some { T with key := key }))

/-! ### Rings, links, arbitration, power -/

/-- R354, R385, R386, R388: a submission tail brings the ring's new entries into the queue, in ring order, and a
completion head moves; a bad index, or a ring that was never set up, drops the doorbell; a ring is set up while its
function is idle and no launch of it is owed its completion, and the held events are reported; a completion is written
at the ring's tail with the phase, unless the ring is full, and its packet waits for the host's port; a port's packet is
dropped, or enters the fabric with its class, and once it has crossed its doorbell acts as the doorbell does, or it
waits to leave for another device. Clauses that rest on the model's own readings: log 94, 96 and 99. -/
def Obligations.RingsAndPackets : Prop :=
  (∀ (s : State) fn index i, i = Instr.doorbellSubmissionTail fn index ∨ i = .doorbellCompletionHead fn index →
    (∀ r, (s.fn fn).rings = some r → 2 ^ r.k ≤ index) → exec i s = .next { s with droppedDoorbells := s.droppedDoorbells + 1 }) ∧
  (∀ (s : State) fn index r, (s.fn fn).rings = some r → index < 2 ^ r.k →
    (r.read < 2 ^ r.k → Next (.doorbellSubmissionTail fn index) s (fun t => t = { s with fns := t.fns } ∧
      t.fn fn = { s.fn fn with
        rings := some { r with read := index, tail := index }
        queue := (s.fn fn).queue ++ (List.range ((index + 2 ^ r.k - r.read) % 2 ^ r.k)).map (fun j =>
          BitVec.ofNat 512 (Memory.read s.host (r.sq.toNat + 64 * ((r.read + j) % 2 ^ r.k)) 64)) })) ∧
    Next (.doorbellCompletionHead fn index) s (fun t => t = { s with fns := t.fns } ∧
      t.fn fn = { s.fn fn with rings := some { r with head := index } })) ∧
  (∀ (s : State) fn k sq cq,
    let good := fn ≤ 1024 ∧ 4 ≤ k ∧ k ≤ 12 ∧ sq.toNat % 4096 = 0 ∧ cq.toNat % 4096 = 0 ∧ hostAddr sq.toNat ∧ hostAddr cq.toNat ∧
      hostAddr (sq.toNat + 64 * 2 ^ k - 1) ∧ hostAddr (cq.toNat + 16 * 2 ^ k - 1)
    (¬good → exec (.doorbellRingSetup fn k sq cq) s = .next { s with droppedDoorbells := s.droppedDoorbells + 1 }) ∧
    (good → (s.fn fn).idle = false ∨ (∃ g ∈ s.grids, g.2.ended = false ∧ ∃ tag, g.2.owner = .host fn tag) →
      exec (.doorbellRingSetup fn k sq cq) s = .next { s with droppedDoorbells := s.droppedDoorbells + 1 }) ∧
    (good → (s.fn fn).idle = true → s.launchOwed fn = false → Next (.doorbellRingSetup fn k sq cq) s (fun t => SameMemory s t ∧
      (t.fn fn).rings = some { k := k, sq := sq, cq := cq } ∧
      (fn = 0 → (t.fn fn).owed = []) ∧
      ∀ T, 1 ≤ fn → s.tenant? (fn - 1) = some T → (∃ T', t.tenant? (fn - 1) = some T' ∧ T'.held = []) ∧
        (t.fn fn).owed.map (fun c => (c.tag, c.status, c.launch)) = T.held.map (fun e => (0xFFFFFFFF, 5, e.code))))) ∧
  (∀ (s : State) fn r c rest, (s.fn fn).rings = some r → (s.fn fn).owed = c :: rest →
    ((r.write + 1) % 2 ^ r.k = r.head → exec (.completionWrite fn) s = .next s) ∧
    ((r.write + 1) % 2 ^ r.k ≠ r.head → Next (.completionWrite fn) s (fun t =>
      let a := r.cq.toNat + 16 * r.write
      let w := (r.write + 1) % 2 ^ r.k
      t = { s with host := t.host, fns := t.fns, ports := t.ports, draws := t.draws } ∧
      (∀ n, s.hostPort = some n → ∃ f, (t.port n).sendq = (s.port n).sendq ++ [f] ∧ f.toNat % 2 ^ 16 = fn % 2 ^ 16 ∧
        f.toNat / 2 ^ 16 % 2 ^ 8 = 1 ∧ f.toNat / 2 ^ 24 % 2 ^ 16 = Config.device % 2 ^ 16 ∧ f.toNat / 2 ^ 56 % 2 ^ 6 = 3) ∧
      Memory.read t.host a 4 = c.tag.toNat ∧ Memory.read t.host (a + 4) 1 = c.status.toNat ∧
      Memory.read t.host (a + 5) 1 = c.launch.toNat ∧ Memory.read t.host (a + 6) 2 = (if r.phase then 1 else 0) ∧
      Memory.read t.host (a + 8) 8 = c.value.toNat ∧ (∀ x, x < a ∨ a + 16 ≤ x → Memory.byte t.host x = Memory.byte s.host x) ∧
      t.fn fn = { s.fn fn with owed := rest, rings := some { r with write := w, phase := if w = 0 then !r.phase else r.phase } }))) ∧
  (∀ (s : State) port h rest, (s.port port).flits = h :: rest →
    let n := h.toNat / 2 ^ 16 % 2 ^ 8
    let type := h.toNat / 2 ^ 56 % 2 ^ 6
    let kind := h.toNat / 2 ^ 64 % 2 ^ 8
    let fn := h.toNat % 2 ^ 16
    let index := h.toNat / 2 ^ 96 % 2 ^ 32
    let here := h.toNat / 2 ^ 40 % 2 ^ 16 = Config.device % 2 ^ 16
    let taken := s.setPort port { s.port port with flits := (h :: rest).drop n }
    (n < 1 ∨ 128 < n → exec (.packetReceive port) s =
      .next { s.setPort port { s.port port with flits := rest } with droppedPackets := s.droppedPackets + 1 }) ∧
    (1 ≤ n → n ≤ 128 → rest.length + 1 < n → exec (.packetReceive port) s = .next s) ∧
    (1 ≤ n → n ≤ 128 → n ≤ rest.length + 1 → type = 0 ∨ 6 < type →
      exec (.packetReceive port) s = .next { taken with droppedPackets := s.droppedPackets + 1 }) ∧
    (1 ≤ n → n ≤ 128 → n ≤ rest.length + 1 → 1 ≤ type → type ≤ 6 →
      (s.packetOf (.link port) = none → Next (.packetReceive port) s (fun t => SameMemory s t ∧ t.ports = s.ports ∧
        ∃ q, t.packetOf (.link port) = some (s.nextId, q) ∧ q.cls = h.toNat / 2 ^ 62 % 4 ∧ q.flits = n ∧ q.left = n ∧
          (here → q.line = 16) ∧ (¬here → (s.ports.map Prod.fst).Nodup →
            (∃ m p up, s.ports.get? m = some p ∧ p.st = .up up) → ∃ up, (s.port q.line).st = .up up))) ∧
      (∀ e, s.packetOf (.link port) = some e → s.arrives (.link port) = false → exec (.packetReceive port) s = .next s) ∧
      (∀ id q, s.packetOf (.link port) = some (id, q) → s.arrives (.link port) = true →
        let left : State := { taken with fabric := s.fabric.del id }
        (¬here → exec (.packetReceive port) s = .next (left.setPort q.line
          { left.port q.line with sendq := (left.port q.line).sendq ++ (h :: rest).take n })) ∧
        (here → type ≠ 2 → exec (.packetReceive port) s = .next left) ∧
        (here → type = 2 → (s.port port).st ≠ .up true →
          exec (.packetReceive port) s = .next { left with droppedDoorbells := s.droppedDoorbells + 1 }) ∧
        (here → type = 2 → (s.port port).st = .up true →
          (kind = 0 → exec (.packetReceive port) s = exec (.doorbellSubmissionTail fn index) left) ∧
          (kind = 1 → exec (.packetReceive port) s = exec (.doorbellCompletionHead fn index) left) ∧
          (kind = 2 → exec (.packetReceive port) s = exec (.doorbellRingSetup fn (h.toNat / 2 ^ 72 % 2 ^ 8)
            (BitVec.ofNat 64 (h.toNat / 2 ^ 128)) (BitVec.ofNat 64 (h.toNat / 2 ^ 192))) left) ∧
          (2 < kind → exec (.packetReceive port) s = .next { left with droppedDoorbells := s.droppedDoorbells + 1 })))))

namespace Sys2Proof.Claims

/-- A port alone becomes `p`. -/
def PortIs (s : State) (n : Nat) (p : Port) (t : State) : Prop :=
  t = { s with ports := t.ports } ∧ t.port n = p ∧ ∀ m, m ≠ n → t.port m = s.port m

/-- A port that is up. -/
def Up (p : Port) : Prop := ∃ h, p.st = .up h

/-- Port `n` has discarded a frame, and asks for what follows the last frame accepted in a frame of 20 flits (R384). -/
def AsksAgain (s : State) (n : Nat) (p : Port) (t : State) : Prop :=
  ∃ flits, flits.length = 20 ∧ PortIs { s with draws := t.draws } n
    { p with outbox := p.outbox ++ [{ kind := 2, seq := 0, ack := p.accept - 1, flits := flits }], retries := p.retries + 1 } t

end Sys2Proof.Claims

/-- R383, R384: a sender puts 20 flits into a frame under its next SEQ while fewer than 128 are not acknowledged; frames
are accepted in SEQ order, and every other one is discarded with a retry request; an ACK frees the window up to its
frame; a retry request sends the rest again, behind the port's own retry requests; sixteen in a row retrain the port; a
port comes up with at most four of them the host's; one that fails to retrain is down, and ends its collectives, each on
all its local ranks. Clauses that rest on the model's own readings: log 59, 97 and 98. -/
def Obligations.LinkFrames : Prop :=
  (∀ (s : State) n f, Up (s.port n) →
    let p := s.port n
    let acked := { p with window := ackWindow f.ack p.window }
    Next (.frameReceive n f false) s (AsksAgain s n p) ∧
    (f.flits.length ≠ 20 → Next (.frameReceive n f true) s (AsksAgain s n p)) ∧
    (f.flits.length = 20 → f.kind = 0 → f.seq = p.accept → Next (.frameReceive n f true) s (PortIs s n
      { acked with accept := p.accept + 1, flits := p.flits ++ f.flits, retries := 0 })) ∧
    (f.flits.length = 20 → f.kind = 0 → f.seq ≠ p.accept → Next (.frameReceive n f true) s (AsksAgain s n acked)) ∧
    (f.flits.length = 20 → 2 < f.kind → Next (.frameReceive n f true) s (PortIs s n { p with dropped := p.dropped + 1 })) ∧
    (f.kind = 1 → Next (.frameIdle n f) s (PortIs s n acked))) ∧
  (∀ (s : State) n, Up (s.port n) → (s.port n).sendq ≠ [] →
    let p := s.port n
    (128 ≤ p.window.length → s.sendFrame n = s) ∧
    (p.window.length < 128 → ∃ f : Sys2Proof.Frame, f.kind = 0 ∧ f.seq = p.send ∧ f.ack = p.accept - 1 ∧ f.flits.length = 20 ∧
      f.flits.take (min 20 p.sendq.length) = p.sendq.take 20 ∧
      (s.sendFrame n).port n = { p with send := p.send + 1, window := p.window ++ [f], outbox := p.outbox ++ [f], sendq := p.sendq.drop 20 })) ∧
  (∀ (ack : Byte) (a b : List Sys2Proof.Frame) f, f.seq = ack → (∀ g ∈ b, g.seq ≠ ack) → ackWindow ack (a ++ f :: b) = b) ∧
  (∀ (ack : Byte) (w : List Sys2Proof.Frame), (∀ g ∈ w, g.seq ≠ ack) → ackWindow ack w = w) ∧
  (∀ (s : State) n ack, Up (s.port n) →
    let p := s.port n
    Next (.retryRequest n ack) s (PortIs s n { p with window := ackWindow ack p.window, retries := p.retries + 1
                                                      outbox := p.outbox.filter (fun f => f.kind == 2) ++ ackWindow ack p.window }) ∧
    (p.retries < 16 → exec (.portRetrain n) s = .next s) ∧
    (16 ≤ p.retries → Next (.portRetrain n) s (PortIs s n { p with st := .training, retries := 0 }))) ∧
  (∀ (s : State) n host, n < 16 → ¬Up (s.port n) →
    let p := s.port n
    Next (.linkTraining n host false) s (PortIs s n { p with st := .training }) ∧
    (s.hostPorts n < 4 → Next (.linkTraining n host true) s (PortIs s n { p with st := .up host, retries := 0, outbox := p.window })) ∧
    (4 ≤ s.hostPorts n → Next (.linkTraining n host true) s (PortIs s n { p with st := .up false, retries := 0, outbox := p.window }))) ∧
  (∀ (s : State) n, (s.port n).st = .training → Next (.portDown n) s (fun t => SameMemory s t ∧
    t.port n = { s.port n with st := .down, flits := [], sendq := [], window := [], outbox := [] } ∧ (∀ m, m ≠ n → t.port m = s.port m) ∧
    ∀ id c g, s.cmds.get? id = some c → (∃ op m rop src dst count root ssc dsc, c.kind = .coll op m rop g src dst count root ssc dsc) →
      t.cmds.get? id = some (if s.remoteColl c = true ∧ Config.onPort n c.tenant g = true ∧ c.stop = none then
        { c with stop := some (0x07, c.landed), pending := [] } else c)))

namespace Sys2Proof.Claims

/-- What is left when the part loses power (R394): everything the power held is as it is at bring-up. -/
def Bare (s t : State) : Prop :=
  t.dram = [] ∧ t.spm = [] ∧ t.host = s.host ∧ t.rot = [] ∧ t.tenants = [] ∧ t.partitions = [] ∧ t.grids = [] ∧ t.blocks = [] ∧ t.teams = [] ∧
    t.cmds = [] ∧ t.reqs = [] ∧ t.fns = [] ∧ t.tlb = [] ∧ t.mhz = 1200 ∧ t.cap = 2800 ∧ t.imageA = s.imageA ∧ t.imageB = s.imageB

/-- The root accepts an image: its key is the fused one, its signature verifies, and its version is not rolled back (R393). -/
def Accepts (s : State) (i : FwImage) : Prop :=
  digest (Config.imageKey i.bytes) = Config.fusedKeyDigest ∧ Config.imageVerifies i.bytes = true ∧
    s.rollback.toNat ≤ (Config.imageVersion i.bytes).toNat

/-- What a stage of the part's hardware can fail with beside its ROM check: a DRAM stack, in bits [7:4] of the detail, or its
bundles and stacked dies (R392). -/
def StageFault (c d : Byte) : Prop := (c = 0x20 ∧ d.toNat / 16 < 8) ∨ c = 0x21

/-- A grant of a crosspoint: a flit of packet `id` crosses, its input is the latest granted, and `since` grants have gone to the
highest class since the last of a lower one (R354). -/
def Granted (s : State) (n id : Nat) (p : Packet) (since : Nat) (t : State) : Prop :=
  t = { s with crosspoints := t.crosspoints, fabric := t.fabric } ∧ (t.xp n).since = since ∧
    (t.xp n).granted = p.input :: (s.xp n).granted.filter (fun i => i != p.input) ∧
    (1 < p.left → t.fabric.get? id = some { p with left := p.left - 1 }) ∧
    (p.left ≤ 1 → t.fabric.get? id = some { p with route := p.route.tail, left := p.flits, whole := true })

/-- A bring-up that has failed. -/
def Failed (s : State) (cause detail : Byte) (t : State) : Prop :=
  Bare s t ∧ t.powerSt = .on (some (cause, detail)) ∧ t.ready = false ∧ t.faultPin = true ∧ t.faultCause = cause ∧ t.faultDetail = detail

end Sys2Proof.Claims

/-- R139, R354, R366, R382, R392 to R394: a crosspoint grants the highest class, at its least recently granted input,
and after 63 such grants the oldest request of a lower one; an atomic takes one of its tenant's slots of a channel; a
channel's window ends with its tenants' floors met, and the channel serves a lower class only where it is forced or
below its floor; the clock falls and rises by steps of 100 MHz within 600 and 1,200; a trip stops the clocks with FAULT
cause 0x30; power lost leaves host memory, flash and the persistent tier; bring-up boots the active image, or else the
other, or fails with its cause. Clauses that rest on the model's own readings: log 69, 99 and 100. -/
def Obligations.ArbitrationAndPower : Prop :=
  (∀ (s : State) n id p a b, s.waitingAt n = a ++ (id, p) :: b → (∃ v ∈ s.waitingAt n, p.cls < v.2.cls) →
    (∀ u ∈ a, ∀ v ∈ s.waitingAt n, v.2.cls ≤ u.2.cls) →
    ((s.xp n).since < 63 → exec (.crosspointForcedGrant n) s = .next s) ∧
    (63 ≤ (s.xp n).since → Next (.crosspointForcedGrant n) s (Granted s n id p 0) ∧ s.grantTop n = s)) ∧
  (∀ (s : State) n id p a b, s.waitingAt n = a ++ (id, p) :: b → s.forcedAt n = false →
    (∀ u ∈ a, u.2.cls < p.cls ∨ (u.2.cls = p.cls ∧ (s.xp n).idle u.2.input < (s.xp n).idle p.input)) →
    (∀ u ∈ b, u.2.cls < p.cls ∨ (u.2.cls = p.cls ∧ ((s.xp n).idle u.2.input < (s.xp n).idle p.input ∨ u.2.input = p.input))) →
    Granted s n id p ((s.xp n).since + 1) (s.grantTop n)) ∧
  (∀ (s : State) id p tn, s.fabric.get? id = some p → p.route = [] → p.slot = false → s.needsSlot p = true → s.tenant? p.tenant = some tn →
    let held := s.packets.filter (fun q => q.2.slot && channelOf q.2.line == channelOf p.line)
    let own := (held.filter (fun q => q.2.tenant == p.tenant)).length
    (own < max 1 (32 * tn.f / 256) → held.length < 32 → (s.takeSlot id p).fabric.get? id = some { p with slot := true }) ∧
    (max 1 (32 * tn.f / 256) ≤ own ∨ 32 ≤ held.length → s.takeSlot id p = s)) ∧
  (∀ (s : State) n x, s.channels.get? n = some x →
    ((∀ p ∈ s.waitingChan n, ∀ tn, s.tenant? p.2.tenant = some tn → tn.f * x.total ≤ 256 * x.servedOf p.2.tenant) →
      Next (.channelFloorWindow n) s (fun t => t = { s with channels := t.channels } ∧ t.channels.get? n = some { x with served := [] })) ∧
    ((∃ p ∈ s.waitingChan n, ∃ tn, s.tenant? p.2.tenant = some tn ∧ 256 * x.servedOf p.2.tenant < tn.f * x.total) →
      exec (.channelFloorWindow n) s = .next s)) ∧
  (∀ (s : State) id p, s.channelTakes id p = true →
    let ch := channelOf p.line
    (∀ u ∈ s.waitingChan ch, u.2.cls ≤ p.cls) ∨ 63 ≤ (s.chan ch).since ∨
      ((∃ tn, s.tenant? p.tenant = some tn ∧ 256 * (s.chan ch).servedOf p.tenant < tn.f * (s.chan ch).total) ∧
        ((∃ u ∈ s.waitingChan ch, u.2.cls = 3) → (∀ u ∈ s.waitingChan ch, u.2.cls ≤ 3) → (s.chan ch).ahead = false))) ∧
  (∀ s : State, exec .thermalThrottle s = .next { s with mhz := max 600 (s.mhz - 100) } ∧
    exec .clockRecover s = .next { s with mhz := min 1200 (s.mhz + 100) } ∧
    Next .thermalTrip s (fun t => t = { s with powerSt := .tripped, faultPin := true, faultCause := 0x30, faultDetail := t.faultDetail })) ∧
  (∀ s : State, Next .powerLoss s (fun t => Bare s t ∧ t.powerSt = .off ∧ t.ready = false ∧
    (s.checkpointing = true → t.tier = none) ∧ (s.checkpointing = false → t.tier = s.tier))) ∧
  (∀ (s : State) failed ports, s.powerSt = .off →
    let img (b : Bool) : FwImage := if b then s.imageB else s.imageA
    (∀ d, failed = some (0x01, d) → Next (.powerGood failed ports) s (Failed s 0x01 d)) ∧
    ((∀ c d, failed = some (c, d) → StageFault c d) → ¬Accepts s (img s.activeB) → ¬Accepts s (img (!s.activeB)) →
      Next (.powerGood failed ports) s (Failed s 0x10 0)) ∧
    (∀ c d, failed = some (c, d) → c ≠ 0x01 → ¬StageFault c d → exec (.powerGood failed ports) s = .next s) ∧
    (∀ c d, failed = some (c, d) → StageFault c d → Accepts s (img s.activeB) → Next (.powerGood failed ports) s (Failed s c d)) ∧
    (failed = none → Accepts s (img s.activeB) → ports = 0 → Next (.powerGood failed ports) s (Failed s 0x22 0)) ∧
    (failed = none → ports ≠ 0 → Accepts s (img s.activeB) → Next (.powerGood failed ports) s (fun t => Bare s t ∧ t.powerSt = .on none ∧
      t.ready = true ∧ t.bootedB = s.activeB ∧ t.rollback = s.rollback)) ∧
    (failed = none → ports ≠ 0 → ¬Accepts s (img s.activeB) → Accepts s (img (!s.activeB)) →
      Next (.powerGood failed ports) s (fun t => Bare s t ∧ t.powerSt = .on none ∧ t.ready = true ∧ t.bootedB = (!s.activeB) ∧
        t.rollback = Config.imageVersion (img (!s.activeB)).bytes))) ∧
  (∀ (s : State) failed ports, s.powerSt ≠ .off → exec (.powerGood failed ports) s = .next s)

/-! ### The whole machine -/

namespace Sys2Proof.Claims

/-- Every memory, that of the persistent tier's image too, has its canonical form, and the clock and the cap lie within their bounds. -/
def Inv (s : State) : Prop := s.memWf = true ∧ (∀ i, s.tier = some i → Memory.wf i.dram = true) ∧ s.powerWf = true

end Sys2Proof.Claims

/-- Every step keeps each memory in its canonical form, so that equal memories are equal data, and keeps the clock and
the power cap within the bounds of R382. -/
def Obligations.StepKeepsInv : Prop := ∀ s s' : State, Inv s → step s = .next s' → Inv s'

/-- R52 to R64, R75: decoding and encoding agree, both ways: every well-formed instruction is read back from its words,
whatever bytes follow them, and every instruction that is decoded is well formed and encodes as the words it was read
from. -/
def Obligations.DecodeEncode : Prop :=
  (∀ i : Instr, i.enc?.isSome = true → i.wf = true → ∀ rest, decodeBytes (bytesOf (encode i) ++ rest) = (.ok i, rest)) ∧
  (∀ ws i, ws.length = wordCount (ws.getD 0 0) → decodeWords ws = .ok i → i.wf = true ∧ i.enc?.isSome = true ∧ encode i = ws)

/-- R392, stage 6, and R382: after bring-up every byte of every memory is zero, nothing runs and no tenant exists, READY
is asserted and FAULT is not, the clock is 1,200 MHz and the cap 2,800 W; and the invariant of the steps holds. Clauses
that rest on the model's own readings: log 1, 3, 8 and 9. -/
def Obligations.ResetState : Prop :=
  Inv State.reset ∧ (∀ a, Memory.byte State.reset.dram a = 0 ∧ Memory.byte State.reset.spm a = 0) ∧ State.reset.ready = true ∧
    State.reset.faultPin = false ∧ State.reset.powerSt = .on none ∧ State.reset.mhz = 1200 ∧ State.reset.cap = 2800 ∧
    State.reset.tenants = [] ∧ State.reset.partitions = [] ∧ State.reset.teams = [] ∧ State.reset.grids = [] ∧
    (∀ page, Sparse.get 0 State.reset.rot page = 0) ∧ ∀ fn, (State.reset.fn fn).rings = none

/-- R27, R52, R78: a step is a step of one of those that could happen. Where it is the turn of a team, or of a stream,
whose words at its pc decode, the step runs exactly that instruction, counting the errors that its scratchpad reads have
met (R117); where no clock runs it is the fault of that name. Clauses that rest on the model's own readings: log 10, 12
and 43. -/
def Obligations.StepRunsDecoded : Prop :=
  (∀ (s : State) f, s.powerSt = .on f → s.cands ≠ [] → ∃ c ∈ s.cands, step s = ({ s with draws := s.draws + 1 } : State).run c) ∧
  (∀ (s : State) f, s.powerSt = .on f → s.cands = [] → step s = .next { s with draws := s.draws + 1 }) ∧
  (∀ (s : State) f k T i, s.powerSt = .on f → s.cands = [.agent (.team k)] → s.team? k = some T →
    ({ s with draws := s.draws + 1 } : State).fetch T.cluster (s.tenantIdOf T) T.ctl.pc = .ok i →
    ∃ s1 : State, s1.cur = .team k ∧ s1 = { s with draws := s.draws + 1, cur := s1.cur, clock := s1.clock, teams := s1.teams } ∧
      (∃ stamp, s1.team? k = some { T with stamp := stamp }) ∧ (∀ j, j ≠ k → s1.team? j = s.team? j) ∧
      ∃ n, step s = exec i { s1 with corrected := s.corrected + n } ∧ (readsSpm i = false → n = 0)) ∧
  (∀ (s : State) f b x m i, s.powerSt = .on f → s.cands = [.agent (.stream b)] → s.block? b = some x → x.stream = some m →
    ({ s with draws := s.draws + 1 } : State).fetch (clusterOf (x.quarters.headD 0)) (s.tenantOfGrid x.grid) m.pc = .ok i →
    ∃ n, step s = exec i { s with draws := s.draws + 1, cur := .stream b, corrected := s.corrected + n } ∧ (readsSpm i = false → n = 0)) ∧
  (∀ (s : State) c tn pc w0 ws, s.fetchWord c tn pc = .ok w0 → ws.length + 1 = wordCount w0 →
    (∀ j w, ws[j]? = some w → s.fetchWord c tn (pc + 4 + 4 * BitVec.ofNat 64 j) = .ok w) → s.fetch c tn pc = decodeWords (w0 :: ws)) ∧
  (∀ (s : State), (∀ f, s.powerSt ≠ .on f) → (∀ f p r, s.inputs ≠ .powerGood f p :: r) → (∀ r, s.inputs ≠ .powerLoss :: r) →
    step s = .fault .noClock)

/-- R52 to R64, in the examples of the spec: `sel v5, v2, v6, v5`, `movi v3, -5`, `bfx.u v2, v1, 0x0804`, `scmp.lt.s
s10, s11, s12`, `ffma` in the extended form, `lsget.g4 s5, s2, s1`, `satom.cas v5, [v1], v2, v5`, `gred.add [v20], v6`,
`tis v3, v10, 2`, `vtos s4, v9, s1`, `pblk v2, tt`, `rett.rel s3`, and the trap R78 gives the word of zeros. -/
def Obligations.DecodeWords : Prop :=
  decodeWords [0x00364B1A] = .ok (.sel { ext := false, d := .v 5, a := ⟨.v 2, false⟩, b := ⟨.v 6, false⟩, c := ⟨.v 5, false⟩ }) ∧
  decodeWords [0x0025FFFB] = .ok (.movi { ext := false, d := .v 3, imm := BitVec.ofInt 21 (-5) }) ∧
  decodeWords [0x88058ABE, 0x00000804, 0] = .ok (.bfxU { ext := false, d := .v 2, a := ⟨.v 1, false⟩, b := ⟨.lit 0x0804, false⟩ }) ∧
  decodeWords [0x7FA00002, 0x82905A0C, 0] =
    .ok (.scmp .lt .s { ext := true, d := .s 10, a := ⟨.s 11, false⟩, b := ⟨.s 12, false⟩ }) ∧
  decodeWords [0x50300001, 0x4A094A64, 0x4A800000] =
    .ok (.ffma .rz { ext := true, d := .v 40, a := ⟨.v 41, false⟩, b := ⟨.s 100, false⟩, c := ⟨.v 42, false⟩ }) ∧
  decodeWords [0x67000003, 0x81501201, 0] = .ok (.lsget 3 { ext := true, d := .s 5, a := ⟨.s 2, false⟩, b := ⟨.s 1, false⟩ }) ∧
  decodeWords [0x28A64A96] =
    .ok (.satom .cas { ext := false, d := .v 5, a := ⟨.v 1, false⟩, b := ⟨.v 2, false⟩, c := ⟨.v 5, false⟩, x := 0 }) ∧
  decodeWords [0x2A00141A] = .ok (.gred .add .predictor .w { ext := false, a := ⟨.v 20, false⟩, b := ⟨.v 6, false⟩, x := 0 }) ∧
  decodeWords [0x2C35CF02] = .ok (.tis 2 { ext := false, d := .v 3, a := ⟨.v 10, false⟩ }) ∧
  decodeWords [0x3FCE0EB5] = .ok (.vtos { ext := false, d := .s 4, a := ⟨.v 9, false⟩, b := ⟨.s 1, false⟩ }) ∧
  decodeWords [0x3FE03216] = .ok (.pblk 3 1 2 false) ∧
  decodeWords [0x3FF04037] = .ok (.rettRel { ext := false, a := ⟨.s 3, false⟩ }) ∧
  decodeWords [0] = .trap 0x00 Standing.anywhere
end

