-- ==== Sys2Proof/Laws/Sparse.lean ====
section
/-! SUPPORT. Laws of sparse tables, memories and tables of objects: reading after writing, and the canonical form. -/

namespace Sys2Proof

namespace Sparse

variable {α : Type}

theorem get_erase_same (d : α) (m : Sparse α) (k : Nat) : get d (erase m k) k = d := by
  induction m with
  | nil => rfl
  | cons e r ih =>
    obtain ⟨j, x⟩ := e
    by_cases h : j = k
    · simpa [erase, h] using ih
    · simpa [erase, get, h] using ih

theorem get_erase_ne (d : α) (m : Sparse α) {k j : Nat} (h : j ≠ k) : get d (erase m k) j = get d m j := by
  induction m with
  | nil => rfl
  | cons e r ih =>
    obtain ⟨i, x⟩ := e
    by_cases hi : i = k
    · have : i ≠ j := by omega
      simpa [erase, get, hi, this, Ne.symm h] using ih
    · by_cases hj : i = j
      · simp [erase, get, hj, h]
      · simpa [erase, get, hi, hj] using ih

theorem get_insert_ne (d : α) (m : Sparse α) {k j : Nat} (x : α) (h : j ≠ k) : get d (insert m k x) j = get d m j := by
  induction m with
  | nil => simp [insert, get, Ne.symm h]
  | cons e r ih =>
    obtain ⟨i, y⟩ := e
    by_cases hk : k < i
    · simp [insert, get, hk, Ne.symm h]
    · by_cases hj : i = j
      · subst hj
        simp [insert, get, hk]
      · simpa [insert, get, hk, hj] using ih

theorem get_insert_erase (d : α) (m : Sparse α) (k : Nat) (x : α) : get d (insert (erase m k) k x) k = x := by
  induction m with
  | nil => simp [erase, insert, get]
  | cons e r ih =>
    obtain ⟨i, y⟩ := e
    by_cases hi : i = k
    · simpa [erase, hi] using ih
    · by_cases hk : k < i
      · simp [erase, insert, get, hi, hk]
      · simpa [erase, insert, get, hi, hk] using ih

theorem get_set_same [DecidableEq α] (d : α) (m : Sparse α) (k : Nat) (x : α) : get d (set d m k x) k = x := by
  unfold set
  split
  · rename_i h
    rw [get_erase_same, h]
  · exact get_insert_erase d m k x

theorem get_set_ne [DecidableEq α] (d : α) (m : Sparse α) {k j : Nat} (x : α) (h : j ≠ k) :
    get d (set d m k x) j = get d m j := by
  unfold set
  split
  · exact get_erase_ne d m h
  · rw [get_insert_ne d _ x h, get_erase_ne d m h]

theorem get_set [DecidableEq α] (d : α) (m : Sparse α) (k j : Nat) (x : α) :
    get d (set d m k x) j = if j = k then x else get d m j := by
  split
  · rename_i h
    rw [h, get_set_same]
  · rename_i h
    exact get_set_ne d m x h

theorem wfFrom_mono [DecidableEq α] (d : α) {lo hi : Nat} (m : Sparse α) (h : lo ≤ hi) (w : wfFrom d hi m = true) :
    wfFrom d lo m = true := by
  cases m with
  | nil => rfl
  | cons e r =>
    simp only [wfFrom, Bool.and_eq_true, decide_eq_true_eq] at *
    exact ⟨⟨by omega, w.1.2⟩, w.2⟩

theorem wfFrom_erase [DecidableEq α] (d : α) (m : Sparse α) (k : Nat) :
    ∀ lo, wfFrom d lo m = true → wfFrom d lo (erase m k) = true := by
  induction m with
  | nil => intro lo h; exact h
  | cons e r ih =>
    obtain ⟨j, x⟩ := e
    intro lo h
    simp only [wfFrom, Bool.and_eq_true, decide_eq_true_eq] at h
    by_cases hj : j = k
    · simpa [erase, hj] using ih lo (wfFrom_mono d r (by omega) h.2)
    · simp only [erase, hj, if_false, wfFrom, Bool.and_eq_true, decide_eq_true_eq]
      exact ⟨h.1, ih _ h.2⟩

theorem wfFrom_insert_erase [DecidableEq α] (d : α) (m : Sparse α) (k : Nat) (x : α) (hx : x ≠ d) :
    ∀ lo, lo ≤ k → wfFrom d lo m = true → wfFrom d lo (insert (erase m k) k x) = true := by
  induction m with
  | nil => intro lo hl _; simp [erase, insert, wfFrom, hl, hx]
  | cons e r ih =>
    obtain ⟨j, y⟩ := e
    intro lo hl h
    simp only [wfFrom, Bool.and_eq_true, decide_eq_true_eq] at h
    by_cases hj : j = k
    · simpa [erase, hj] using ih lo hl (wfFrom_mono d r (by omega) h.2)
    · by_cases hk : k < j
      · have he : wfFrom d (j + 1) (erase r k) = true := wfFrom_erase d r k _ h.2
        simp only [erase, hj, if_false, insert, hk, if_true, wfFrom, Bool.and_eq_true, decide_eq_true_eq]
        exact ⟨⟨hl, hx⟩, ⟨by omega, h.1.2⟩, he⟩
      · simp only [erase, hj, if_false, insert, hk, wfFrom, Bool.and_eq_true, decide_eq_true_eq]
        exact ⟨h.1, ih _ (by omega) h.2⟩

/-- Writing a key keeps the canonical form. -/
theorem wf_set [DecidableEq α] (d : α) (m : Sparse α) (k : Nat) (x : α) (h : wf d m = true) : wf d (set d m k x) = true := by
  unfold set
  split
  · exact wfFrom_erase d m k 0 h
  · rename_i hx
    exact wfFrom_insert_erase d m k x hx 0 (by omega) h

end Sparse

namespace Memory

@[simp] theorem byte_setByte_same (m : Memory) (a : Nat) (b : Byte) : byte (setByte m a b) a = b :=
  Sparse.get_set_same 0 m a b

theorem byte_setByte_ne (m : Memory) {a c : Nat} (b : Byte) (h : c ≠ a) : byte (setByte m a b) c = byte m c :=
  Sparse.get_set_ne 0 m b h

theorem wf_setByte (m : Memory) (a : Nat) (b : Byte) (h : wf m = true) : wf (setByte m a b) = true :=
  Sparse.wf_set 0 m a b h

/-- A store of n bytes keeps the canonical form. -/
theorem wf_write (n : Nat) : ∀ (m : Memory) (a v : Nat), wf m = true → wf (write m a n v) = true := by
  induction n with
  | zero => intro m a v h; exact h
  | succ n ih => intro m a v h; exact ih _ _ _ (wf_setByte m a _ h)

theorem wf_writeBytes (l : List Byte) : ∀ (m : Memory) (a : Nat), wf m = true → wf (writeBytes m a l) = true := by
  induction l with
  | nil => intro m a h; exact h
  | cons b r ih => intro m a h; exact ih _ _ (wf_setByte m a b h)

/-- A store of n bytes leaves every other byte alone. -/
theorem byte_write_outside (n : Nat) : ∀ (m : Memory) (a v c : Nat), c < a ∨ a + n ≤ c → byte (write m a n v) c = byte m c := by
  induction n with
  | zero => intro m a v c _; rfl
  | succ n ih =>
    intro m a v c h
    rw [write, ih _ _ _ _ (by omega), byte_setByte_ne _ _ (by omega)]

/-- Byte i of a store of n bytes is byte i of the number. -/
theorem byte_write_inside (n : Nat) : ∀ (m : Memory) (a v i : Nat), i < n →
    byte (write m a n v) (a + i) = BitVec.ofNat 8 (v / 256 ^ i) := by
  induction n with
  | zero => intro m a v i h; omega
  | succ n ih =>
    intro m a v i h
    rw [write]
    cases i with
    | zero => rw [byte_write_outside _ _ _ _ _ (by omega)]; simp
    | succ i =>
      have := ih (setByte m a (BitVec.ofNat 8 v)) (a + 1) (v / 256) i (by omega)
      rw [show a + 1 + i = a + (i + 1) by omega] at this
      rw [this, Nat.div_div_eq_div_mul, ← pow_succ']

/-- A read after a store of the same bytes gives the number's low bytes. -/
theorem read_write_same (n : Nat) : ∀ (m : Memory) (a v : Nat), read (write m a n v) a n = v % 256 ^ n := by
  induction n with
  | zero => intro m a v; simp [read, Nat.mod_one]
  | succ n ih =>
    intro m a v
    rw [read, write, ih, byte_write_outside _ _ _ _ _ (by omega), byte_setByte_same, BitVec.toNat_ofNat, pow_succ' 256 n]
    exact (Nat.mod_mul (x := v) (a := 256) (b := 256 ^ n)).symm

/-- A read of bytes that a store leaves alone. -/
theorem read_write_outside (k : Nat) : ∀ (n : Nat) (m : Memory) (a v c : Nat), c + k ≤ a ∨ a + n ≤ c →
    read (write m a n v) c k = read m c k := by
  induction k with
  | zero => intro n m a v c _; rfl
  | succ k ih =>
    intro n m a v c h
    rw [read, read, ih n m a v (c + 1) (by omega), byte_write_outside _ _ _ _ _ (by omega)]

theorem byte_writeBytes_outside (l : List Byte) : ∀ (m : Memory) (a c : Nat), c < a ∨ a + l.length ≤ c →
    byte (writeBytes m a l) c = byte m c := by
  induction l with
  | nil => intro m a c _; rfl
  | cons b r ih =>
    intro m a c h
    simp only [List.length_cons] at h
    rw [writeBytes, ih _ _ _ (by omega), byte_setByte_ne _ _ (by omega)]

end Memory

namespace Machine.Table

variable {α : Type}

theorem get?_erase_same (t : Table α) (k : Nat) : get? (Sparse.erase t k) k = none := by
  induction t with
  | nil => rfl
  | cons e r ih =>
    obtain ⟨j, x⟩ := e
    by_cases h : j = k
    · simpa [Sparse.erase, h] using ih
    · simpa [Sparse.erase, get?, h] using ih

theorem get?_erase_ne (t : Table α) {k j : Nat} (h : j ≠ k) : get? (Sparse.erase t k) j = get? t j := by
  induction t with
  | nil => rfl
  | cons e r ih =>
    obtain ⟨i, x⟩ := e
    by_cases hi : i = k
    · have : i ≠ j := by omega
      simpa [Sparse.erase, get?, hi, this, Ne.symm h] using ih
    · by_cases hj : i = j
      · simp [Sparse.erase, get?, hj, h]
      · simpa [Sparse.erase, get?, hi, hj] using ih

theorem get?_insert_ne (t : Table α) {k j : Nat} (x : α) (h : j ≠ k) : get? (Sparse.insert t k x) j = get? t j := by
  induction t with
  | nil => simp [Sparse.insert, get?, Ne.symm h]
  | cons e r ih =>
    obtain ⟨i, y⟩ := e
    by_cases hk : k < i
    · simp [Sparse.insert, get?, hk, Ne.symm h]
    · by_cases hj : i = j
      · subst hj
        simp [Sparse.insert, get?, hk]
      · simpa [Sparse.insert, get?, hk, hj] using ih

@[simp] theorem get?_put_same (t : Table α) (k : Nat) (x : α) : get? (put t k x) k = some x := by
  unfold put
  induction t with
  | nil => simp [Sparse.erase, Sparse.insert, get?]
  | cons e r ih =>
    obtain ⟨i, y⟩ := e
    by_cases hi : i = k
    · simpa [Sparse.erase, hi] using ih
    · by_cases hk : k < i
      · simp [Sparse.erase, Sparse.insert, get?, hi, hk]
      · simpa [Sparse.erase, Sparse.insert, get?, hi, hk] using ih

theorem get?_put_ne (t : Table α) {k j : Nat} (x : α) (h : j ≠ k) : get? (put t k x) j = get? t j := by
  unfold put
  rw [get?_insert_ne _ x h, get?_erase_ne t h]

theorem get?_put (t : Table α) (k j : Nat) (x : α) : get? (put t k x) j = if j = k then some x else get? t j := by
  split
  · rename_i h
    rw [h, get?_put_same]
  · rename_i h
    exact get?_put_ne t x h

@[simp] theorem get?_del_same (t : Table α) (k : Nat) : get? (del t k) k = none := get?_erase_same t k

theorem get?_del_ne (t : Table α) {k j : Nat} (h : j ≠ k) : get? (del t k) j = get? t j := get?_erase_ne t h

theorem get?_mod_same (t : Table α) (k : Nat) (f : α → α) : get? (mod t k f) k = (get? t k).map f := by
  unfold mod
  cases h : get? t k with
  | none => simpa using h
  | some x => simp

theorem get?_mod_ne (t : Table α) {k j : Nat} (f : α → α) (h : j ≠ k) : get? (mod t k f) j = get? t j := by
  unfold mod
  cases get? t k with
  | none => rfl
  | some x => exact get?_put_ne t _ h

theorem get?_mod (t : Table α) (k j : Nat) (f : α → α) :
    get? (mod t k f) j = if j = k then (get? t k).map f else get? t j := by
  split
  · rename_i h
    rw [h, get?_mod_same]
  · rename_i h
    exact get?_mod_ne t f h

end Machine.Table

end Sys2Proof
end

