-- ==== Sys2Proof/Laws/State.lean ====
section
/-! SUPPORT. The fields of the state, of a team and of its registers after each named update. -/

namespace Sys2Proof.Machine

/-! ### setTeam -/

@[simp] theorem State.setTeam_cur (s : State) (k : Nat) (t : Team) : (s.setTeam k t).cur = s.cur := rfl
@[simp] theorem State.setTeam_draws (s : State) (k : Nat) (t : Team) : (s.setTeam k t).draws = s.draws := rfl
@[simp] theorem State.setTeam_inputs (s : State) (k : Nat) (t : Team) : (s.setTeam k t).inputs = s.inputs := rfl
@[simp] theorem State.setTeam_nextId (s : State) (k : Nat) (t : Team) : (s.setTeam k t).nextId = s.nextId := rfl
@[simp] theorem State.setTeam_clock (s : State) (k : Nat) (t : Team) : (s.setTeam k t).clock = s.clock := rfl
@[simp] theorem State.setTeam_cycle (s : State) (k : Nat) (t : Team) : (s.setTeam k t).cycle = s.cycle := rfl
@[simp] theorem State.setTeam_dram (s : State) (k : Nat) (t : Team) : (s.setTeam k t).dram = s.dram := rfl
@[simp] theorem State.setTeam_dramPoison (s : State) (k : Nat) (t : Team) : (s.setTeam k t).dramPoison = s.dramPoison := rfl
@[simp] theorem State.setTeam_host (s : State) (k : Nat) (t : Team) : (s.setTeam k t).host = s.host := rfl
@[simp] theorem State.setTeam_hostPoison (s : State) (k : Nat) (t : Team) : (s.setTeam k t).hostPoison = s.hostPoison := rfl
@[simp] theorem State.setTeam_spm (s : State) (k : Nat) (t : Team) : (s.setTeam k t).spm = s.spm := rfl
@[simp] theorem State.setTeam_spmPoison (s : State) (k : Nat) (t : Team) : (s.setTeam k t).spmPoison = s.spmPoison := rfl
@[simp] theorem State.setTeam_corrected (s : State) (k : Nat) (t : Team) : (s.setTeam k t).corrected = s.corrected := rfl
@[simp] theorem State.setTeam_rot (s : State) (k : Nat) (t : Team) : (s.setTeam k t).rot = s.rot := rfl
@[simp] theorem State.setTeam_tlb (s : State) (k : Nat) (t : Team) : (s.setTeam k t).tlb = s.tlb := rfl
@[simp] theorem State.setTeam_walks (s : State) (k : Nat) (t : Team) : (s.setTeam k t).walks = s.walks := rfl
@[simp] theorem State.setTeam_lines (s : State) (k : Nat) (t : Team) : (s.setTeam k t).lines = s.lines := rfl
@[simp] theorem State.setTeam_bars (s : State) (k : Nat) (t : Team) : (s.setTeam k t).bars = s.bars := rfl
@[simp] theorem State.setTeam_grants (s : State) (k : Nat) (t : Team) : (s.setTeam k t).grants = s.grants := rfl
@[simp] theorem State.setTeam_stripes (s : State) (k : Nat) (t : Team) : (s.setTeam k t).stripes = s.stripes := rfl
@[simp] theorem State.setTeam_setSeq (s : State) (k : Nat) (t : Team) : (s.setTeam k t).setSeq = s.setSeq := rfl
@[simp] theorem State.setTeam_teams (s : State) (k : Nat) (t : Team) : (s.setTeam k t).teams = s.teams.put k t := rfl
@[simp] theorem State.setTeam_blocks (s : State) (k : Nat) (t : Team) : (s.setTeam k t).blocks = s.blocks := rfl
@[simp] theorem State.setTeam_grids (s : State) (k : Nat) (t : Team) : (s.setTeam k t).grids = s.grids := rfl
@[simp] theorem State.setTeam_tenants (s : State) (k : Nat) (t : Team) : (s.setTeam k t).tenants = s.tenants := rfl
@[simp] theorem State.setTeam_partitions (s : State) (k : Nat) (t : Team) : (s.setTeam k t).partitions = s.partitions := rfl
@[simp] theorem State.setTeam_fns (s : State) (k : Nat) (t : Team) : (s.setTeam k t).fns = s.fns := rfl
@[simp] theorem State.setTeam_reqs (s : State) (k : Nat) (t : Team) : (s.setTeam k t).reqs = s.reqs := rfl
@[simp] theorem State.setTeam_cmds (s : State) (k : Nat) (t : Team) : (s.setTeam k t).cmds = s.cmds := rfl
@[simp] theorem State.setTeam_msteps (s : State) (k : Nat) (t : Team) : (s.setTeam k t).msteps = s.msteps := rfl
@[simp] theorem State.setTeam_latches (s : State) (k : Nat) (t : Team) : (s.setTeam k t).latches = s.latches := rfl
@[simp] theorem State.setTeam_mreads (s : State) (k : Nat) (t : Team) : (s.setTeam k t).mreads = s.mreads := rfl
@[simp] theorem State.setTeam_segments (s : State) (k : Nat) (t : Team) : (s.setTeam k t).segments = s.segments := rfl
@[simp] theorem State.setTeam_msgs (s : State) (k : Nat) (t : Team) : (s.setTeam k t).msgs = s.msgs := rfl
@[simp] theorem State.setTeam_arising (s : State) (k : Nat) (t : Team) : (s.setTeam k t).arising = s.arising := rfl
@[simp] theorem State.setTeam_sysEvents (s : State) (k : Nat) (t : Team) : (s.setTeam k t).sysEvents = s.sysEvents := rfl
@[simp] theorem State.setTeam_pageChange (s : State) (k : Nat) (t : Team) : (s.setTeam k t).pageChange = s.pageChange := rfl
@[simp] theorem State.setTeam_fabric (s : State) (k : Nat) (t : Team) : (s.setTeam k t).fabric = s.fabric := rfl
@[simp] theorem State.setTeam_crosspoints (s : State) (k : Nat) (t : Team) : (s.setTeam k t).crosspoints = s.crosspoints := rfl
@[simp] theorem State.setTeam_channels (s : State) (k : Nat) (t : Team) : (s.setTeam k t).channels = s.channels := rfl
@[simp] theorem State.setTeam_quadLast (s : State) (k : Nat) (t : Team) : (s.setTeam k t).quadLast = s.quadLast := rfl
@[simp] theorem State.setTeam_ports (s : State) (k : Nat) (t : Team) : (s.setTeam k t).ports = s.ports := rfl
@[simp] theorem State.setTeam_droppedPackets (s : State) (k : Nat) (t : Team) : (s.setTeam k t).droppedPackets = s.droppedPackets := rfl
@[simp] theorem State.setTeam_droppedDoorbells (s : State) (k : Nat) (t : Team) : (s.setTeam k t).droppedDoorbells = s.droppedDoorbells := rfl
@[simp] theorem State.setTeam_powerSt (s : State) (k : Nat) (t : Team) : (s.setTeam k t).powerSt = s.powerSt := rfl
@[simp] theorem State.setTeam_ready (s : State) (k : Nat) (t : Team) : (s.setTeam k t).ready = s.ready := rfl
@[simp] theorem State.setTeam_faultPin (s : State) (k : Nat) (t : Team) : (s.setTeam k t).faultPin = s.faultPin := rfl
@[simp] theorem State.setTeam_faultCause (s : State) (k : Nat) (t : Team) : (s.setTeam k t).faultCause = s.faultCause := rfl
@[simp] theorem State.setTeam_faultDetail (s : State) (k : Nat) (t : Team) : (s.setTeam k t).faultDetail = s.faultDetail := rfl
@[simp] theorem State.setTeam_mhz (s : State) (k : Nat) (t : Team) : (s.setTeam k t).mhz = s.mhz := rfl
@[simp] theorem State.setTeam_cap (s : State) (k : Nat) (t : Team) : (s.setTeam k t).cap = s.cap := rfl
@[simp] theorem State.setTeam_imageA (s : State) (k : Nat) (t : Team) : (s.setTeam k t).imageA = s.imageA := rfl
@[simp] theorem State.setTeam_imageB (s : State) (k : Nat) (t : Team) : (s.setTeam k t).imageB = s.imageB := rfl
@[simp] theorem State.setTeam_activeB (s : State) (k : Nat) (t : Team) : (s.setTeam k t).activeB = s.activeB := rfl
@[simp] theorem State.setTeam_bootedB (s : State) (k : Nat) (t : Team) : (s.setTeam k t).bootedB = s.bootedB := rfl
@[simp] theorem State.setTeam_rollback (s : State) (k : Nat) (t : Team) : (s.setTeam k t).rollback = s.rollback := rfl
@[simp] theorem State.setTeam_tier (s : State) (k : Nat) (t : Team) : (s.setTeam k t).tier = s.tier := rfl
@[simp] theorem State.setTeam_checkpointing (s : State) (k : Nat) (t : Team) : (s.setTeam k t).checkpointing = s.checkpointing := rfl
@[simp] theorem State.setTeam_restoring (s : State) (k : Nat) (t : Team) : (s.setTeam k t).restoring = s.restoring := rfl
@[simp] theorem State.setTeam_heldResets (s : State) (k : Nat) (t : Team) : (s.setTeam k t).heldResets = s.heldResets := rfl
@[simp] theorem State.setTeam_usage (s : State) (k : Nat) (t : Team) : (s.setTeam k t).usage = s.usage := rfl

/-! ### setBlock -/

@[simp] theorem State.setBlock_cur (s : State) (k : Nat) (x : Block) : (s.setBlock k x).cur = s.cur := rfl
@[simp] theorem State.setBlock_draws (s : State) (k : Nat) (x : Block) : (s.setBlock k x).draws = s.draws := rfl
@[simp] theorem State.setBlock_inputs (s : State) (k : Nat) (x : Block) : (s.setBlock k x).inputs = s.inputs := rfl
@[simp] theorem State.setBlock_nextId (s : State) (k : Nat) (x : Block) : (s.setBlock k x).nextId = s.nextId := rfl
@[simp] theorem State.setBlock_clock (s : State) (k : Nat) (x : Block) : (s.setBlock k x).clock = s.clock := rfl
@[simp] theorem State.setBlock_cycle (s : State) (k : Nat) (x : Block) : (s.setBlock k x).cycle = s.cycle := rfl
@[simp] theorem State.setBlock_dram (s : State) (k : Nat) (x : Block) : (s.setBlock k x).dram = s.dram := rfl
@[simp] theorem State.setBlock_dramPoison (s : State) (k : Nat) (x : Block) : (s.setBlock k x).dramPoison = s.dramPoison := rfl
@[simp] theorem State.setBlock_host (s : State) (k : Nat) (x : Block) : (s.setBlock k x).host = s.host := rfl
@[simp] theorem State.setBlock_hostPoison (s : State) (k : Nat) (x : Block) : (s.setBlock k x).hostPoison = s.hostPoison := rfl
@[simp] theorem State.setBlock_spm (s : State) (k : Nat) (x : Block) : (s.setBlock k x).spm = s.spm := rfl
@[simp] theorem State.setBlock_spmPoison (s : State) (k : Nat) (x : Block) : (s.setBlock k x).spmPoison = s.spmPoison := rfl
@[simp] theorem State.setBlock_corrected (s : State) (k : Nat) (x : Block) : (s.setBlock k x).corrected = s.corrected := rfl
@[simp] theorem State.setBlock_rot (s : State) (k : Nat) (x : Block) : (s.setBlock k x).rot = s.rot := rfl
@[simp] theorem State.setBlock_tlb (s : State) (k : Nat) (x : Block) : (s.setBlock k x).tlb = s.tlb := rfl
@[simp] theorem State.setBlock_walks (s : State) (k : Nat) (x : Block) : (s.setBlock k x).walks = s.walks := rfl
@[simp] theorem State.setBlock_lines (s : State) (k : Nat) (x : Block) : (s.setBlock k x).lines = s.lines := rfl
@[simp] theorem State.setBlock_bars (s : State) (k : Nat) (x : Block) : (s.setBlock k x).bars = s.bars := rfl
@[simp] theorem State.setBlock_grants (s : State) (k : Nat) (x : Block) : (s.setBlock k x).grants = s.grants := rfl
@[simp] theorem State.setBlock_stripes (s : State) (k : Nat) (x : Block) : (s.setBlock k x).stripes = s.stripes := rfl
@[simp] theorem State.setBlock_setSeq (s : State) (k : Nat) (x : Block) : (s.setBlock k x).setSeq = s.setSeq := rfl
@[simp] theorem State.setBlock_teams (s : State) (k : Nat) (x : Block) : (s.setBlock k x).teams = s.teams := rfl
@[simp] theorem State.setBlock_blocks (s : State) (k : Nat) (x : Block) : (s.setBlock k x).blocks = s.blocks.put k x := rfl
@[simp] theorem State.setBlock_grids (s : State) (k : Nat) (x : Block) : (s.setBlock k x).grids = s.grids := rfl
@[simp] theorem State.setBlock_tenants (s : State) (k : Nat) (x : Block) : (s.setBlock k x).tenants = s.tenants := rfl
@[simp] theorem State.setBlock_partitions (s : State) (k : Nat) (x : Block) : (s.setBlock k x).partitions = s.partitions := rfl
@[simp] theorem State.setBlock_fns (s : State) (k : Nat) (x : Block) : (s.setBlock k x).fns = s.fns := rfl
@[simp] theorem State.setBlock_reqs (s : State) (k : Nat) (x : Block) : (s.setBlock k x).reqs = s.reqs := rfl
@[simp] theorem State.setBlock_cmds (s : State) (k : Nat) (x : Block) : (s.setBlock k x).cmds = s.cmds := rfl
@[simp] theorem State.setBlock_msteps (s : State) (k : Nat) (x : Block) : (s.setBlock k x).msteps = s.msteps := rfl
@[simp] theorem State.setBlock_latches (s : State) (k : Nat) (x : Block) : (s.setBlock k x).latches = s.latches := rfl
@[simp] theorem State.setBlock_mreads (s : State) (k : Nat) (x : Block) : (s.setBlock k x).mreads = s.mreads := rfl
@[simp] theorem State.setBlock_segments (s : State) (k : Nat) (x : Block) : (s.setBlock k x).segments = s.segments := rfl
@[simp] theorem State.setBlock_msgs (s : State) (k : Nat) (x : Block) : (s.setBlock k x).msgs = s.msgs := rfl
@[simp] theorem State.setBlock_arising (s : State) (k : Nat) (x : Block) : (s.setBlock k x).arising = s.arising := rfl
@[simp] theorem State.setBlock_sysEvents (s : State) (k : Nat) (x : Block) : (s.setBlock k x).sysEvents = s.sysEvents := rfl
@[simp] theorem State.setBlock_pageChange (s : State) (k : Nat) (x : Block) : (s.setBlock k x).pageChange = s.pageChange := rfl
@[simp] theorem State.setBlock_fabric (s : State) (k : Nat) (x : Block) : (s.setBlock k x).fabric = s.fabric := rfl
@[simp] theorem State.setBlock_crosspoints (s : State) (k : Nat) (x : Block) : (s.setBlock k x).crosspoints = s.crosspoints := rfl
@[simp] theorem State.setBlock_channels (s : State) (k : Nat) (x : Block) : (s.setBlock k x).channels = s.channels := rfl
@[simp] theorem State.setBlock_quadLast (s : State) (k : Nat) (x : Block) : (s.setBlock k x).quadLast = s.quadLast := rfl
@[simp] theorem State.setBlock_ports (s : State) (k : Nat) (x : Block) : (s.setBlock k x).ports = s.ports := rfl
@[simp] theorem State.setBlock_droppedPackets (s : State) (k : Nat) (x : Block) : (s.setBlock k x).droppedPackets = s.droppedPackets := rfl
@[simp] theorem State.setBlock_droppedDoorbells (s : State) (k : Nat) (x : Block) : (s.setBlock k x).droppedDoorbells = s.droppedDoorbells := rfl
@[simp] theorem State.setBlock_powerSt (s : State) (k : Nat) (x : Block) : (s.setBlock k x).powerSt = s.powerSt := rfl
@[simp] theorem State.setBlock_ready (s : State) (k : Nat) (x : Block) : (s.setBlock k x).ready = s.ready := rfl
@[simp] theorem State.setBlock_faultPin (s : State) (k : Nat) (x : Block) : (s.setBlock k x).faultPin = s.faultPin := rfl
@[simp] theorem State.setBlock_faultCause (s : State) (k : Nat) (x : Block) : (s.setBlock k x).faultCause = s.faultCause := rfl
@[simp] theorem State.setBlock_faultDetail (s : State) (k : Nat) (x : Block) : (s.setBlock k x).faultDetail = s.faultDetail := rfl
@[simp] theorem State.setBlock_mhz (s : State) (k : Nat) (x : Block) : (s.setBlock k x).mhz = s.mhz := rfl
@[simp] theorem State.setBlock_cap (s : State) (k : Nat) (x : Block) : (s.setBlock k x).cap = s.cap := rfl
@[simp] theorem State.setBlock_imageA (s : State) (k : Nat) (x : Block) : (s.setBlock k x).imageA = s.imageA := rfl
@[simp] theorem State.setBlock_imageB (s : State) (k : Nat) (x : Block) : (s.setBlock k x).imageB = s.imageB := rfl
@[simp] theorem State.setBlock_activeB (s : State) (k : Nat) (x : Block) : (s.setBlock k x).activeB = s.activeB := rfl
@[simp] theorem State.setBlock_bootedB (s : State) (k : Nat) (x : Block) : (s.setBlock k x).bootedB = s.bootedB := rfl
@[simp] theorem State.setBlock_rollback (s : State) (k : Nat) (x : Block) : (s.setBlock k x).rollback = s.rollback := rfl
@[simp] theorem State.setBlock_tier (s : State) (k : Nat) (x : Block) : (s.setBlock k x).tier = s.tier := rfl
@[simp] theorem State.setBlock_checkpointing (s : State) (k : Nat) (x : Block) : (s.setBlock k x).checkpointing = s.checkpointing := rfl
@[simp] theorem State.setBlock_restoring (s : State) (k : Nat) (x : Block) : (s.setBlock k x).restoring = s.restoring := rfl
@[simp] theorem State.setBlock_heldResets (s : State) (k : Nat) (x : Block) : (s.setBlock k x).heldResets = s.heldResets := rfl
@[simp] theorem State.setBlock_usage (s : State) (k : Nat) (x : Block) : (s.setBlock k x).usage = s.usage := rfl

/-! ### setGrid -/

@[simp] theorem State.setGrid_cur (s : State) (k : Nat) (x : Grid) : (s.setGrid k x).cur = s.cur := rfl
@[simp] theorem State.setGrid_draws (s : State) (k : Nat) (x : Grid) : (s.setGrid k x).draws = s.draws := rfl
@[simp] theorem State.setGrid_inputs (s : State) (k : Nat) (x : Grid) : (s.setGrid k x).inputs = s.inputs := rfl
@[simp] theorem State.setGrid_nextId (s : State) (k : Nat) (x : Grid) : (s.setGrid k x).nextId = s.nextId := rfl
@[simp] theorem State.setGrid_clock (s : State) (k : Nat) (x : Grid) : (s.setGrid k x).clock = s.clock := rfl
@[simp] theorem State.setGrid_cycle (s : State) (k : Nat) (x : Grid) : (s.setGrid k x).cycle = s.cycle := rfl
@[simp] theorem State.setGrid_dram (s : State) (k : Nat) (x : Grid) : (s.setGrid k x).dram = s.dram := rfl
@[simp] theorem State.setGrid_dramPoison (s : State) (k : Nat) (x : Grid) : (s.setGrid k x).dramPoison = s.dramPoison := rfl
@[simp] theorem State.setGrid_host (s : State) (k : Nat) (x : Grid) : (s.setGrid k x).host = s.host := rfl
@[simp] theorem State.setGrid_hostPoison (s : State) (k : Nat) (x : Grid) : (s.setGrid k x).hostPoison = s.hostPoison := rfl
@[simp] theorem State.setGrid_spm (s : State) (k : Nat) (x : Grid) : (s.setGrid k x).spm = s.spm := rfl
@[simp] theorem State.setGrid_spmPoison (s : State) (k : Nat) (x : Grid) : (s.setGrid k x).spmPoison = s.spmPoison := rfl
@[simp] theorem State.setGrid_corrected (s : State) (k : Nat) (x : Grid) : (s.setGrid k x).corrected = s.corrected := rfl
@[simp] theorem State.setGrid_rot (s : State) (k : Nat) (x : Grid) : (s.setGrid k x).rot = s.rot := rfl
@[simp] theorem State.setGrid_tlb (s : State) (k : Nat) (x : Grid) : (s.setGrid k x).tlb = s.tlb := rfl
@[simp] theorem State.setGrid_walks (s : State) (k : Nat) (x : Grid) : (s.setGrid k x).walks = s.walks := rfl
@[simp] theorem State.setGrid_lines (s : State) (k : Nat) (x : Grid) : (s.setGrid k x).lines = s.lines := rfl
@[simp] theorem State.setGrid_bars (s : State) (k : Nat) (x : Grid) : (s.setGrid k x).bars = s.bars := rfl
@[simp] theorem State.setGrid_grants (s : State) (k : Nat) (x : Grid) : (s.setGrid k x).grants = s.grants := rfl
@[simp] theorem State.setGrid_stripes (s : State) (k : Nat) (x : Grid) : (s.setGrid k x).stripes = s.stripes := rfl
@[simp] theorem State.setGrid_setSeq (s : State) (k : Nat) (x : Grid) : (s.setGrid k x).setSeq = s.setSeq := rfl
@[simp] theorem State.setGrid_teams (s : State) (k : Nat) (x : Grid) : (s.setGrid k x).teams = s.teams := rfl
@[simp] theorem State.setGrid_blocks (s : State) (k : Nat) (x : Grid) : (s.setGrid k x).blocks = s.blocks := rfl
@[simp] theorem State.setGrid_grids (s : State) (k : Nat) (x : Grid) : (s.setGrid k x).grids = s.grids.put k x := rfl
@[simp] theorem State.setGrid_tenants (s : State) (k : Nat) (x : Grid) : (s.setGrid k x).tenants = s.tenants := rfl
@[simp] theorem State.setGrid_partitions (s : State) (k : Nat) (x : Grid) : (s.setGrid k x).partitions = s.partitions := rfl
@[simp] theorem State.setGrid_fns (s : State) (k : Nat) (x : Grid) : (s.setGrid k x).fns = s.fns := rfl
@[simp] theorem State.setGrid_reqs (s : State) (k : Nat) (x : Grid) : (s.setGrid k x).reqs = s.reqs := rfl
@[simp] theorem State.setGrid_cmds (s : State) (k : Nat) (x : Grid) : (s.setGrid k x).cmds = s.cmds := rfl
@[simp] theorem State.setGrid_msteps (s : State) (k : Nat) (x : Grid) : (s.setGrid k x).msteps = s.msteps := rfl
@[simp] theorem State.setGrid_latches (s : State) (k : Nat) (x : Grid) : (s.setGrid k x).latches = s.latches := rfl
@[simp] theorem State.setGrid_mreads (s : State) (k : Nat) (x : Grid) : (s.setGrid k x).mreads = s.mreads := rfl
@[simp] theorem State.setGrid_segments (s : State) (k : Nat) (x : Grid) : (s.setGrid k x).segments = s.segments := rfl
@[simp] theorem State.setGrid_msgs (s : State) (k : Nat) (x : Grid) : (s.setGrid k x).msgs = s.msgs := rfl
@[simp] theorem State.setGrid_arising (s : State) (k : Nat) (x : Grid) : (s.setGrid k x).arising = s.arising := rfl
@[simp] theorem State.setGrid_sysEvents (s : State) (k : Nat) (x : Grid) : (s.setGrid k x).sysEvents = s.sysEvents := rfl
@[simp] theorem State.setGrid_pageChange (s : State) (k : Nat) (x : Grid) : (s.setGrid k x).pageChange = s.pageChange := rfl
@[simp] theorem State.setGrid_fabric (s : State) (k : Nat) (x : Grid) : (s.setGrid k x).fabric = s.fabric := rfl
@[simp] theorem State.setGrid_crosspoints (s : State) (k : Nat) (x : Grid) : (s.setGrid k x).crosspoints = s.crosspoints := rfl
@[simp] theorem State.setGrid_channels (s : State) (k : Nat) (x : Grid) : (s.setGrid k x).channels = s.channels := rfl
@[simp] theorem State.setGrid_quadLast (s : State) (k : Nat) (x : Grid) : (s.setGrid k x).quadLast = s.quadLast := rfl
@[simp] theorem State.setGrid_ports (s : State) (k : Nat) (x : Grid) : (s.setGrid k x).ports = s.ports := rfl
@[simp] theorem State.setGrid_droppedPackets (s : State) (k : Nat) (x : Grid) : (s.setGrid k x).droppedPackets = s.droppedPackets := rfl
@[simp] theorem State.setGrid_droppedDoorbells (s : State) (k : Nat) (x : Grid) : (s.setGrid k x).droppedDoorbells = s.droppedDoorbells := rfl
@[simp] theorem State.setGrid_powerSt (s : State) (k : Nat) (x : Grid) : (s.setGrid k x).powerSt = s.powerSt := rfl
@[simp] theorem State.setGrid_ready (s : State) (k : Nat) (x : Grid) : (s.setGrid k x).ready = s.ready := rfl
@[simp] theorem State.setGrid_faultPin (s : State) (k : Nat) (x : Grid) : (s.setGrid k x).faultPin = s.faultPin := rfl
@[simp] theorem State.setGrid_faultCause (s : State) (k : Nat) (x : Grid) : (s.setGrid k x).faultCause = s.faultCause := rfl
@[simp] theorem State.setGrid_faultDetail (s : State) (k : Nat) (x : Grid) : (s.setGrid k x).faultDetail = s.faultDetail := rfl
@[simp] theorem State.setGrid_mhz (s : State) (k : Nat) (x : Grid) : (s.setGrid k x).mhz = s.mhz := rfl
@[simp] theorem State.setGrid_cap (s : State) (k : Nat) (x : Grid) : (s.setGrid k x).cap = s.cap := rfl
@[simp] theorem State.setGrid_imageA (s : State) (k : Nat) (x : Grid) : (s.setGrid k x).imageA = s.imageA := rfl
@[simp] theorem State.setGrid_imageB (s : State) (k : Nat) (x : Grid) : (s.setGrid k x).imageB = s.imageB := rfl
@[simp] theorem State.setGrid_activeB (s : State) (k : Nat) (x : Grid) : (s.setGrid k x).activeB = s.activeB := rfl
@[simp] theorem State.setGrid_bootedB (s : State) (k : Nat) (x : Grid) : (s.setGrid k x).bootedB = s.bootedB := rfl
@[simp] theorem State.setGrid_rollback (s : State) (k : Nat) (x : Grid) : (s.setGrid k x).rollback = s.rollback := rfl
@[simp] theorem State.setGrid_tier (s : State) (k : Nat) (x : Grid) : (s.setGrid k x).tier = s.tier := rfl
@[simp] theorem State.setGrid_checkpointing (s : State) (k : Nat) (x : Grid) : (s.setGrid k x).checkpointing = s.checkpointing := rfl
@[simp] theorem State.setGrid_restoring (s : State) (k : Nat) (x : Grid) : (s.setGrid k x).restoring = s.restoring := rfl
@[simp] theorem State.setGrid_heldResets (s : State) (k : Nat) (x : Grid) : (s.setGrid k x).heldResets = s.heldResets := rfl
@[simp] theorem State.setGrid_usage (s : State) (k : Nat) (x : Grid) : (s.setGrid k x).usage = s.usage := rfl

/-! ### setTenant -/

@[simp] theorem State.setTenant_cur (s : State) (k : Nat) (x : Tenant) : (s.setTenant k x).cur = s.cur := rfl
@[simp] theorem State.setTenant_draws (s : State) (k : Nat) (x : Tenant) : (s.setTenant k x).draws = s.draws := rfl
@[simp] theorem State.setTenant_inputs (s : State) (k : Nat) (x : Tenant) : (s.setTenant k x).inputs = s.inputs := rfl
@[simp] theorem State.setTenant_nextId (s : State) (k : Nat) (x : Tenant) : (s.setTenant k x).nextId = s.nextId := rfl
@[simp] theorem State.setTenant_clock (s : State) (k : Nat) (x : Tenant) : (s.setTenant k x).clock = s.clock := rfl
@[simp] theorem State.setTenant_cycle (s : State) (k : Nat) (x : Tenant) : (s.setTenant k x).cycle = s.cycle := rfl
@[simp] theorem State.setTenant_dram (s : State) (k : Nat) (x : Tenant) : (s.setTenant k x).dram = s.dram := rfl
@[simp] theorem State.setTenant_dramPoison (s : State) (k : Nat) (x : Tenant) : (s.setTenant k x).dramPoison = s.dramPoison := rfl
@[simp] theorem State.setTenant_host (s : State) (k : Nat) (x : Tenant) : (s.setTenant k x).host = s.host := rfl
@[simp] theorem State.setTenant_hostPoison (s : State) (k : Nat) (x : Tenant) : (s.setTenant k x).hostPoison = s.hostPoison := rfl
@[simp] theorem State.setTenant_spm (s : State) (k : Nat) (x : Tenant) : (s.setTenant k x).spm = s.spm := rfl
@[simp] theorem State.setTenant_spmPoison (s : State) (k : Nat) (x : Tenant) : (s.setTenant k x).spmPoison = s.spmPoison := rfl
@[simp] theorem State.setTenant_corrected (s : State) (k : Nat) (x : Tenant) : (s.setTenant k x).corrected = s.corrected := rfl
@[simp] theorem State.setTenant_rot (s : State) (k : Nat) (x : Tenant) : (s.setTenant k x).rot = s.rot := rfl
@[simp] theorem State.setTenant_tlb (s : State) (k : Nat) (x : Tenant) : (s.setTenant k x).tlb = s.tlb := rfl
@[simp] theorem State.setTenant_walks (s : State) (k : Nat) (x : Tenant) : (s.setTenant k x).walks = s.walks := rfl
@[simp] theorem State.setTenant_lines (s : State) (k : Nat) (x : Tenant) : (s.setTenant k x).lines = s.lines := rfl
@[simp] theorem State.setTenant_bars (s : State) (k : Nat) (x : Tenant) : (s.setTenant k x).bars = s.bars := rfl
@[simp] theorem State.setTenant_grants (s : State) (k : Nat) (x : Tenant) : (s.setTenant k x).grants = s.grants := rfl
@[simp] theorem State.setTenant_stripes (s : State) (k : Nat) (x : Tenant) : (s.setTenant k x).stripes = s.stripes := rfl
@[simp] theorem State.setTenant_setSeq (s : State) (k : Nat) (x : Tenant) : (s.setTenant k x).setSeq = s.setSeq := rfl
@[simp] theorem State.setTenant_teams (s : State) (k : Nat) (x : Tenant) : (s.setTenant k x).teams = s.teams := rfl
@[simp] theorem State.setTenant_blocks (s : State) (k : Nat) (x : Tenant) : (s.setTenant k x).blocks = s.blocks := rfl
@[simp] theorem State.setTenant_grids (s : State) (k : Nat) (x : Tenant) : (s.setTenant k x).grids = s.grids := rfl
@[simp] theorem State.setTenant_tenants (s : State) (k : Nat) (x : Tenant) : (s.setTenant k x).tenants = s.tenants.put k x := rfl
@[simp] theorem State.setTenant_partitions (s : State) (k : Nat) (x : Tenant) : (s.setTenant k x).partitions = s.partitions := rfl
@[simp] theorem State.setTenant_fns (s : State) (k : Nat) (x : Tenant) : (s.setTenant k x).fns = s.fns := rfl
@[simp] theorem State.setTenant_reqs (s : State) (k : Nat) (x : Tenant) : (s.setTenant k x).reqs = s.reqs := rfl
@[simp] theorem State.setTenant_cmds (s : State) (k : Nat) (x : Tenant) : (s.setTenant k x).cmds = s.cmds := rfl
@[simp] theorem State.setTenant_msteps (s : State) (k : Nat) (x : Tenant) : (s.setTenant k x).msteps = s.msteps := rfl
@[simp] theorem State.setTenant_latches (s : State) (k : Nat) (x : Tenant) : (s.setTenant k x).latches = s.latches := rfl
@[simp] theorem State.setTenant_mreads (s : State) (k : Nat) (x : Tenant) : (s.setTenant k x).mreads = s.mreads := rfl
@[simp] theorem State.setTenant_segments (s : State) (k : Nat) (x : Tenant) : (s.setTenant k x).segments = s.segments := rfl
@[simp] theorem State.setTenant_msgs (s : State) (k : Nat) (x : Tenant) : (s.setTenant k x).msgs = s.msgs := rfl
@[simp] theorem State.setTenant_arising (s : State) (k : Nat) (x : Tenant) : (s.setTenant k x).arising = s.arising := rfl
@[simp] theorem State.setTenant_sysEvents (s : State) (k : Nat) (x : Tenant) : (s.setTenant k x).sysEvents = s.sysEvents := rfl
@[simp] theorem State.setTenant_pageChange (s : State) (k : Nat) (x : Tenant) : (s.setTenant k x).pageChange = s.pageChange := rfl
@[simp] theorem State.setTenant_fabric (s : State) (k : Nat) (x : Tenant) : (s.setTenant k x).fabric = s.fabric := rfl
@[simp] theorem State.setTenant_crosspoints (s : State) (k : Nat) (x : Tenant) : (s.setTenant k x).crosspoints = s.crosspoints := rfl
@[simp] theorem State.setTenant_channels (s : State) (k : Nat) (x : Tenant) : (s.setTenant k x).channels = s.channels := rfl
@[simp] theorem State.setTenant_quadLast (s : State) (k : Nat) (x : Tenant) : (s.setTenant k x).quadLast = s.quadLast := rfl
@[simp] theorem State.setTenant_ports (s : State) (k : Nat) (x : Tenant) : (s.setTenant k x).ports = s.ports := rfl
@[simp] theorem State.setTenant_droppedPackets (s : State) (k : Nat) (x : Tenant) : (s.setTenant k x).droppedPackets = s.droppedPackets := rfl
@[simp] theorem State.setTenant_droppedDoorbells (s : State) (k : Nat) (x : Tenant) : (s.setTenant k x).droppedDoorbells = s.droppedDoorbells := rfl
@[simp] theorem State.setTenant_powerSt (s : State) (k : Nat) (x : Tenant) : (s.setTenant k x).powerSt = s.powerSt := rfl
@[simp] theorem State.setTenant_ready (s : State) (k : Nat) (x : Tenant) : (s.setTenant k x).ready = s.ready := rfl
@[simp] theorem State.setTenant_faultPin (s : State) (k : Nat) (x : Tenant) : (s.setTenant k x).faultPin = s.faultPin := rfl
@[simp] theorem State.setTenant_faultCause (s : State) (k : Nat) (x : Tenant) : (s.setTenant k x).faultCause = s.faultCause := rfl
@[simp] theorem State.setTenant_faultDetail (s : State) (k : Nat) (x : Tenant) : (s.setTenant k x).faultDetail = s.faultDetail := rfl
@[simp] theorem State.setTenant_mhz (s : State) (k : Nat) (x : Tenant) : (s.setTenant k x).mhz = s.mhz := rfl
@[simp] theorem State.setTenant_cap (s : State) (k : Nat) (x : Tenant) : (s.setTenant k x).cap = s.cap := rfl
@[simp] theorem State.setTenant_imageA (s : State) (k : Nat) (x : Tenant) : (s.setTenant k x).imageA = s.imageA := rfl
@[simp] theorem State.setTenant_imageB (s : State) (k : Nat) (x : Tenant) : (s.setTenant k x).imageB = s.imageB := rfl
@[simp] theorem State.setTenant_activeB (s : State) (k : Nat) (x : Tenant) : (s.setTenant k x).activeB = s.activeB := rfl
@[simp] theorem State.setTenant_bootedB (s : State) (k : Nat) (x : Tenant) : (s.setTenant k x).bootedB = s.bootedB := rfl
@[simp] theorem State.setTenant_rollback (s : State) (k : Nat) (x : Tenant) : (s.setTenant k x).rollback = s.rollback := rfl
@[simp] theorem State.setTenant_tier (s : State) (k : Nat) (x : Tenant) : (s.setTenant k x).tier = s.tier := rfl
@[simp] theorem State.setTenant_checkpointing (s : State) (k : Nat) (x : Tenant) : (s.setTenant k x).checkpointing = s.checkpointing := rfl
@[simp] theorem State.setTenant_restoring (s : State) (k : Nat) (x : Tenant) : (s.setTenant k x).restoring = s.restoring := rfl
@[simp] theorem State.setTenant_heldResets (s : State) (k : Nat) (x : Tenant) : (s.setTenant k x).heldResets = s.heldResets := rfl
@[simp] theorem State.setTenant_usage (s : State) (k : Nat) (x : Tenant) : (s.setTenant k x).usage = s.usage := rfl

/-! ### modTeam -/

@[simp] theorem State.modTeam_cur (s : State) (k : Nat) (f : Team → Team) : (s.modTeam k f).cur = s.cur := rfl
@[simp] theorem State.modTeam_draws (s : State) (k : Nat) (f : Team → Team) : (s.modTeam k f).draws = s.draws := rfl
@[simp] theorem State.modTeam_inputs (s : State) (k : Nat) (f : Team → Team) : (s.modTeam k f).inputs = s.inputs := rfl
@[simp] theorem State.modTeam_nextId (s : State) (k : Nat) (f : Team → Team) : (s.modTeam k f).nextId = s.nextId := rfl
@[simp] theorem State.modTeam_clock (s : State) (k : Nat) (f : Team → Team) : (s.modTeam k f).clock = s.clock := rfl
@[simp] theorem State.modTeam_cycle (s : State) (k : Nat) (f : Team → Team) : (s.modTeam k f).cycle = s.cycle := rfl
@[simp] theorem State.modTeam_dram (s : State) (k : Nat) (f : Team → Team) : (s.modTeam k f).dram = s.dram := rfl
@[simp] theorem State.modTeam_dramPoison (s : State) (k : Nat) (f : Team → Team) : (s.modTeam k f).dramPoison = s.dramPoison := rfl
@[simp] theorem State.modTeam_host (s : State) (k : Nat) (f : Team → Team) : (s.modTeam k f).host = s.host := rfl
@[simp] theorem State.modTeam_hostPoison (s : State) (k : Nat) (f : Team → Team) : (s.modTeam k f).hostPoison = s.hostPoison := rfl
@[simp] theorem State.modTeam_spm (s : State) (k : Nat) (f : Team → Team) : (s.modTeam k f).spm = s.spm := rfl
@[simp] theorem State.modTeam_spmPoison (s : State) (k : Nat) (f : Team → Team) : (s.modTeam k f).spmPoison = s.spmPoison := rfl
@[simp] theorem State.modTeam_corrected (s : State) (k : Nat) (f : Team → Team) : (s.modTeam k f).corrected = s.corrected := rfl
@[simp] theorem State.modTeam_rot (s : State) (k : Nat) (f : Team → Team) : (s.modTeam k f).rot = s.rot := rfl
@[simp] theorem State.modTeam_tlb (s : State) (k : Nat) (f : Team → Team) : (s.modTeam k f).tlb = s.tlb := rfl
@[simp] theorem State.modTeam_walks (s : State) (k : Nat) (f : Team → Team) : (s.modTeam k f).walks = s.walks := rfl
@[simp] theorem State.modTeam_lines (s : State) (k : Nat) (f : Team → Team) : (s.modTeam k f).lines = s.lines := rfl
@[simp] theorem State.modTeam_bars (s : State) (k : Nat) (f : Team → Team) : (s.modTeam k f).bars = s.bars := rfl
@[simp] theorem State.modTeam_grants (s : State) (k : Nat) (f : Team → Team) : (s.modTeam k f).grants = s.grants := rfl
@[simp] theorem State.modTeam_stripes (s : State) (k : Nat) (f : Team → Team) : (s.modTeam k f).stripes = s.stripes := rfl
@[simp] theorem State.modTeam_setSeq (s : State) (k : Nat) (f : Team → Team) : (s.modTeam k f).setSeq = s.setSeq := rfl
@[simp] theorem State.modTeam_teams (s : State) (k : Nat) (f : Team → Team) : (s.modTeam k f).teams = s.teams.mod k f := rfl
@[simp] theorem State.modTeam_blocks (s : State) (k : Nat) (f : Team → Team) : (s.modTeam k f).blocks = s.blocks := rfl
@[simp] theorem State.modTeam_grids (s : State) (k : Nat) (f : Team → Team) : (s.modTeam k f).grids = s.grids := rfl
@[simp] theorem State.modTeam_tenants (s : State) (k : Nat) (f : Team → Team) : (s.modTeam k f).tenants = s.tenants := rfl
@[simp] theorem State.modTeam_partitions (s : State) (k : Nat) (f : Team → Team) : (s.modTeam k f).partitions = s.partitions := rfl
@[simp] theorem State.modTeam_fns (s : State) (k : Nat) (f : Team → Team) : (s.modTeam k f).fns = s.fns := rfl
@[simp] theorem State.modTeam_reqs (s : State) (k : Nat) (f : Team → Team) : (s.modTeam k f).reqs = s.reqs := rfl
@[simp] theorem State.modTeam_cmds (s : State) (k : Nat) (f : Team → Team) : (s.modTeam k f).cmds = s.cmds := rfl
@[simp] theorem State.modTeam_msteps (s : State) (k : Nat) (f : Team → Team) : (s.modTeam k f).msteps = s.msteps := rfl
@[simp] theorem State.modTeam_latches (s : State) (k : Nat) (f : Team → Team) : (s.modTeam k f).latches = s.latches := rfl
@[simp] theorem State.modTeam_mreads (s : State) (k : Nat) (f : Team → Team) : (s.modTeam k f).mreads = s.mreads := rfl
@[simp] theorem State.modTeam_segments (s : State) (k : Nat) (f : Team → Team) : (s.modTeam k f).segments = s.segments := rfl
@[simp] theorem State.modTeam_msgs (s : State) (k : Nat) (f : Team → Team) : (s.modTeam k f).msgs = s.msgs := rfl
@[simp] theorem State.modTeam_arising (s : State) (k : Nat) (f : Team → Team) : (s.modTeam k f).arising = s.arising := rfl
@[simp] theorem State.modTeam_sysEvents (s : State) (k : Nat) (f : Team → Team) : (s.modTeam k f).sysEvents = s.sysEvents := rfl
@[simp] theorem State.modTeam_pageChange (s : State) (k : Nat) (f : Team → Team) : (s.modTeam k f).pageChange = s.pageChange := rfl
@[simp] theorem State.modTeam_fabric (s : State) (k : Nat) (f : Team → Team) : (s.modTeam k f).fabric = s.fabric := rfl
@[simp] theorem State.modTeam_crosspoints (s : State) (k : Nat) (f : Team → Team) : (s.modTeam k f).crosspoints = s.crosspoints := rfl
@[simp] theorem State.modTeam_channels (s : State) (k : Nat) (f : Team → Team) : (s.modTeam k f).channels = s.channels := rfl
@[simp] theorem State.modTeam_quadLast (s : State) (k : Nat) (f : Team → Team) : (s.modTeam k f).quadLast = s.quadLast := rfl
@[simp] theorem State.modTeam_ports (s : State) (k : Nat) (f : Team → Team) : (s.modTeam k f).ports = s.ports := rfl
@[simp] theorem State.modTeam_droppedPackets (s : State) (k : Nat) (f : Team → Team) : (s.modTeam k f).droppedPackets = s.droppedPackets := rfl
@[simp] theorem State.modTeam_droppedDoorbells (s : State) (k : Nat) (f : Team → Team) : (s.modTeam k f).droppedDoorbells = s.droppedDoorbells := rfl
@[simp] theorem State.modTeam_powerSt (s : State) (k : Nat) (f : Team → Team) : (s.modTeam k f).powerSt = s.powerSt := rfl
@[simp] theorem State.modTeam_ready (s : State) (k : Nat) (f : Team → Team) : (s.modTeam k f).ready = s.ready := rfl
@[simp] theorem State.modTeam_faultPin (s : State) (k : Nat) (f : Team → Team) : (s.modTeam k f).faultPin = s.faultPin := rfl
@[simp] theorem State.modTeam_faultCause (s : State) (k : Nat) (f : Team → Team) : (s.modTeam k f).faultCause = s.faultCause := rfl
@[simp] theorem State.modTeam_faultDetail (s : State) (k : Nat) (f : Team → Team) : (s.modTeam k f).faultDetail = s.faultDetail := rfl
@[simp] theorem State.modTeam_mhz (s : State) (k : Nat) (f : Team → Team) : (s.modTeam k f).mhz = s.mhz := rfl
@[simp] theorem State.modTeam_cap (s : State) (k : Nat) (f : Team → Team) : (s.modTeam k f).cap = s.cap := rfl
@[simp] theorem State.modTeam_imageA (s : State) (k : Nat) (f : Team → Team) : (s.modTeam k f).imageA = s.imageA := rfl
@[simp] theorem State.modTeam_imageB (s : State) (k : Nat) (f : Team → Team) : (s.modTeam k f).imageB = s.imageB := rfl
@[simp] theorem State.modTeam_activeB (s : State) (k : Nat) (f : Team → Team) : (s.modTeam k f).activeB = s.activeB := rfl
@[simp] theorem State.modTeam_bootedB (s : State) (k : Nat) (f : Team → Team) : (s.modTeam k f).bootedB = s.bootedB := rfl
@[simp] theorem State.modTeam_rollback (s : State) (k : Nat) (f : Team → Team) : (s.modTeam k f).rollback = s.rollback := rfl
@[simp] theorem State.modTeam_tier (s : State) (k : Nat) (f : Team → Team) : (s.modTeam k f).tier = s.tier := rfl
@[simp] theorem State.modTeam_checkpointing (s : State) (k : Nat) (f : Team → Team) : (s.modTeam k f).checkpointing = s.checkpointing := rfl
@[simp] theorem State.modTeam_restoring (s : State) (k : Nat) (f : Team → Team) : (s.modTeam k f).restoring = s.restoring := rfl
@[simp] theorem State.modTeam_heldResets (s : State) (k : Nat) (f : Team → Team) : (s.modTeam k f).heldResets = s.heldResets := rfl
@[simp] theorem State.modTeam_usage (s : State) (k : Nat) (f : Team → Team) : (s.modTeam k f).usage = s.usage := rfl

/-! ### modBlock -/

@[simp] theorem State.modBlock_cur (s : State) (k : Nat) (f : Block → Block) : (s.modBlock k f).cur = s.cur := rfl
@[simp] theorem State.modBlock_draws (s : State) (k : Nat) (f : Block → Block) : (s.modBlock k f).draws = s.draws := rfl
@[simp] theorem State.modBlock_inputs (s : State) (k : Nat) (f : Block → Block) : (s.modBlock k f).inputs = s.inputs := rfl
@[simp] theorem State.modBlock_nextId (s : State) (k : Nat) (f : Block → Block) : (s.modBlock k f).nextId = s.nextId := rfl
@[simp] theorem State.modBlock_clock (s : State) (k : Nat) (f : Block → Block) : (s.modBlock k f).clock = s.clock := rfl
@[simp] theorem State.modBlock_cycle (s : State) (k : Nat) (f : Block → Block) : (s.modBlock k f).cycle = s.cycle := rfl
@[simp] theorem State.modBlock_dram (s : State) (k : Nat) (f : Block → Block) : (s.modBlock k f).dram = s.dram := rfl
@[simp] theorem State.modBlock_dramPoison (s : State) (k : Nat) (f : Block → Block) : (s.modBlock k f).dramPoison = s.dramPoison := rfl
@[simp] theorem State.modBlock_host (s : State) (k : Nat) (f : Block → Block) : (s.modBlock k f).host = s.host := rfl
@[simp] theorem State.modBlock_hostPoison (s : State) (k : Nat) (f : Block → Block) : (s.modBlock k f).hostPoison = s.hostPoison := rfl
@[simp] theorem State.modBlock_spm (s : State) (k : Nat) (f : Block → Block) : (s.modBlock k f).spm = s.spm := rfl
@[simp] theorem State.modBlock_spmPoison (s : State) (k : Nat) (f : Block → Block) : (s.modBlock k f).spmPoison = s.spmPoison := rfl
@[simp] theorem State.modBlock_corrected (s : State) (k : Nat) (f : Block → Block) : (s.modBlock k f).corrected = s.corrected := rfl
@[simp] theorem State.modBlock_rot (s : State) (k : Nat) (f : Block → Block) : (s.modBlock k f).rot = s.rot := rfl
@[simp] theorem State.modBlock_tlb (s : State) (k : Nat) (f : Block → Block) : (s.modBlock k f).tlb = s.tlb := rfl
@[simp] theorem State.modBlock_walks (s : State) (k : Nat) (f : Block → Block) : (s.modBlock k f).walks = s.walks := rfl
@[simp] theorem State.modBlock_lines (s : State) (k : Nat) (f : Block → Block) : (s.modBlock k f).lines = s.lines := rfl
@[simp] theorem State.modBlock_bars (s : State) (k : Nat) (f : Block → Block) : (s.modBlock k f).bars = s.bars := rfl
@[simp] theorem State.modBlock_grants (s : State) (k : Nat) (f : Block → Block) : (s.modBlock k f).grants = s.grants := rfl
@[simp] theorem State.modBlock_stripes (s : State) (k : Nat) (f : Block → Block) : (s.modBlock k f).stripes = s.stripes := rfl
@[simp] theorem State.modBlock_setSeq (s : State) (k : Nat) (f : Block → Block) : (s.modBlock k f).setSeq = s.setSeq := rfl
@[simp] theorem State.modBlock_teams (s : State) (k : Nat) (f : Block → Block) : (s.modBlock k f).teams = s.teams := rfl
@[simp] theorem State.modBlock_blocks (s : State) (k : Nat) (f : Block → Block) : (s.modBlock k f).blocks = s.blocks.mod k f := rfl
@[simp] theorem State.modBlock_grids (s : State) (k : Nat) (f : Block → Block) : (s.modBlock k f).grids = s.grids := rfl
@[simp] theorem State.modBlock_tenants (s : State) (k : Nat) (f : Block → Block) : (s.modBlock k f).tenants = s.tenants := rfl
@[simp] theorem State.modBlock_partitions (s : State) (k : Nat) (f : Block → Block) : (s.modBlock k f).partitions = s.partitions := rfl
@[simp] theorem State.modBlock_fns (s : State) (k : Nat) (f : Block → Block) : (s.modBlock k f).fns = s.fns := rfl
@[simp] theorem State.modBlock_reqs (s : State) (k : Nat) (f : Block → Block) : (s.modBlock k f).reqs = s.reqs := rfl
@[simp] theorem State.modBlock_cmds (s : State) (k : Nat) (f : Block → Block) : (s.modBlock k f).cmds = s.cmds := rfl
@[simp] theorem State.modBlock_msteps (s : State) (k : Nat) (f : Block → Block) : (s.modBlock k f).msteps = s.msteps := rfl
@[simp] theorem State.modBlock_latches (s : State) (k : Nat) (f : Block → Block) : (s.modBlock k f).latches = s.latches := rfl
@[simp] theorem State.modBlock_mreads (s : State) (k : Nat) (f : Block → Block) : (s.modBlock k f).mreads = s.mreads := rfl
@[simp] theorem State.modBlock_segments (s : State) (k : Nat) (f : Block → Block) : (s.modBlock k f).segments = s.segments := rfl
@[simp] theorem State.modBlock_msgs (s : State) (k : Nat) (f : Block → Block) : (s.modBlock k f).msgs = s.msgs := rfl
@[simp] theorem State.modBlock_arising (s : State) (k : Nat) (f : Block → Block) : (s.modBlock k f).arising = s.arising := rfl
@[simp] theorem State.modBlock_sysEvents (s : State) (k : Nat) (f : Block → Block) : (s.modBlock k f).sysEvents = s.sysEvents := rfl
@[simp] theorem State.modBlock_pageChange (s : State) (k : Nat) (f : Block → Block) : (s.modBlock k f).pageChange = s.pageChange := rfl
@[simp] theorem State.modBlock_fabric (s : State) (k : Nat) (f : Block → Block) : (s.modBlock k f).fabric = s.fabric := rfl
@[simp] theorem State.modBlock_crosspoints (s : State) (k : Nat) (f : Block → Block) : (s.modBlock k f).crosspoints = s.crosspoints := rfl
@[simp] theorem State.modBlock_channels (s : State) (k : Nat) (f : Block → Block) : (s.modBlock k f).channels = s.channels := rfl
@[simp] theorem State.modBlock_quadLast (s : State) (k : Nat) (f : Block → Block) : (s.modBlock k f).quadLast = s.quadLast := rfl
@[simp] theorem State.modBlock_ports (s : State) (k : Nat) (f : Block → Block) : (s.modBlock k f).ports = s.ports := rfl
@[simp] theorem State.modBlock_droppedPackets (s : State) (k : Nat) (f : Block → Block) : (s.modBlock k f).droppedPackets = s.droppedPackets := rfl
@[simp] theorem State.modBlock_droppedDoorbells (s : State) (k : Nat) (f : Block → Block) : (s.modBlock k f).droppedDoorbells = s.droppedDoorbells := rfl
@[simp] theorem State.modBlock_powerSt (s : State) (k : Nat) (f : Block → Block) : (s.modBlock k f).powerSt = s.powerSt := rfl
@[simp] theorem State.modBlock_ready (s : State) (k : Nat) (f : Block → Block) : (s.modBlock k f).ready = s.ready := rfl
@[simp] theorem State.modBlock_faultPin (s : State) (k : Nat) (f : Block → Block) : (s.modBlock k f).faultPin = s.faultPin := rfl
@[simp] theorem State.modBlock_faultCause (s : State) (k : Nat) (f : Block → Block) : (s.modBlock k f).faultCause = s.faultCause := rfl
@[simp] theorem State.modBlock_faultDetail (s : State) (k : Nat) (f : Block → Block) : (s.modBlock k f).faultDetail = s.faultDetail := rfl
@[simp] theorem State.modBlock_mhz (s : State) (k : Nat) (f : Block → Block) : (s.modBlock k f).mhz = s.mhz := rfl
@[simp] theorem State.modBlock_cap (s : State) (k : Nat) (f : Block → Block) : (s.modBlock k f).cap = s.cap := rfl
@[simp] theorem State.modBlock_imageA (s : State) (k : Nat) (f : Block → Block) : (s.modBlock k f).imageA = s.imageA := rfl
@[simp] theorem State.modBlock_imageB (s : State) (k : Nat) (f : Block → Block) : (s.modBlock k f).imageB = s.imageB := rfl
@[simp] theorem State.modBlock_activeB (s : State) (k : Nat) (f : Block → Block) : (s.modBlock k f).activeB = s.activeB := rfl
@[simp] theorem State.modBlock_bootedB (s : State) (k : Nat) (f : Block → Block) : (s.modBlock k f).bootedB = s.bootedB := rfl
@[simp] theorem State.modBlock_rollback (s : State) (k : Nat) (f : Block → Block) : (s.modBlock k f).rollback = s.rollback := rfl
@[simp] theorem State.modBlock_tier (s : State) (k : Nat) (f : Block → Block) : (s.modBlock k f).tier = s.tier := rfl
@[simp] theorem State.modBlock_checkpointing (s : State) (k : Nat) (f : Block → Block) : (s.modBlock k f).checkpointing = s.checkpointing := rfl
@[simp] theorem State.modBlock_restoring (s : State) (k : Nat) (f : Block → Block) : (s.modBlock k f).restoring = s.restoring := rfl
@[simp] theorem State.modBlock_heldResets (s : State) (k : Nat) (f : Block → Block) : (s.modBlock k f).heldResets = s.heldResets := rfl
@[simp] theorem State.modBlock_usage (s : State) (k : Nat) (f : Block → Block) : (s.modBlock k f).usage = s.usage := rfl

/-! ### modGrid -/

@[simp] theorem State.modGrid_cur (s : State) (k : Nat) (f : Grid → Grid) : (s.modGrid k f).cur = s.cur := rfl
@[simp] theorem State.modGrid_draws (s : State) (k : Nat) (f : Grid → Grid) : (s.modGrid k f).draws = s.draws := rfl
@[simp] theorem State.modGrid_inputs (s : State) (k : Nat) (f : Grid → Grid) : (s.modGrid k f).inputs = s.inputs := rfl
@[simp] theorem State.modGrid_nextId (s : State) (k : Nat) (f : Grid → Grid) : (s.modGrid k f).nextId = s.nextId := rfl
@[simp] theorem State.modGrid_clock (s : State) (k : Nat) (f : Grid → Grid) : (s.modGrid k f).clock = s.clock := rfl
@[simp] theorem State.modGrid_cycle (s : State) (k : Nat) (f : Grid → Grid) : (s.modGrid k f).cycle = s.cycle := rfl
@[simp] theorem State.modGrid_dram (s : State) (k : Nat) (f : Grid → Grid) : (s.modGrid k f).dram = s.dram := rfl
@[simp] theorem State.modGrid_dramPoison (s : State) (k : Nat) (f : Grid → Grid) : (s.modGrid k f).dramPoison = s.dramPoison := rfl
@[simp] theorem State.modGrid_host (s : State) (k : Nat) (f : Grid → Grid) : (s.modGrid k f).host = s.host := rfl
@[simp] theorem State.modGrid_hostPoison (s : State) (k : Nat) (f : Grid → Grid) : (s.modGrid k f).hostPoison = s.hostPoison := rfl
@[simp] theorem State.modGrid_spm (s : State) (k : Nat) (f : Grid → Grid) : (s.modGrid k f).spm = s.spm := rfl
@[simp] theorem State.modGrid_spmPoison (s : State) (k : Nat) (f : Grid → Grid) : (s.modGrid k f).spmPoison = s.spmPoison := rfl
@[simp] theorem State.modGrid_corrected (s : State) (k : Nat) (f : Grid → Grid) : (s.modGrid k f).corrected = s.corrected := rfl
@[simp] theorem State.modGrid_rot (s : State) (k : Nat) (f : Grid → Grid) : (s.modGrid k f).rot = s.rot := rfl
@[simp] theorem State.modGrid_tlb (s : State) (k : Nat) (f : Grid → Grid) : (s.modGrid k f).tlb = s.tlb := rfl
@[simp] theorem State.modGrid_walks (s : State) (k : Nat) (f : Grid → Grid) : (s.modGrid k f).walks = s.walks := rfl
@[simp] theorem State.modGrid_lines (s : State) (k : Nat) (f : Grid → Grid) : (s.modGrid k f).lines = s.lines := rfl
@[simp] theorem State.modGrid_bars (s : State) (k : Nat) (f : Grid → Grid) : (s.modGrid k f).bars = s.bars := rfl
@[simp] theorem State.modGrid_grants (s : State) (k : Nat) (f : Grid → Grid) : (s.modGrid k f).grants = s.grants := rfl
@[simp] theorem State.modGrid_stripes (s : State) (k : Nat) (f : Grid → Grid) : (s.modGrid k f).stripes = s.stripes := rfl
@[simp] theorem State.modGrid_setSeq (s : State) (k : Nat) (f : Grid → Grid) : (s.modGrid k f).setSeq = s.setSeq := rfl
@[simp] theorem State.modGrid_teams (s : State) (k : Nat) (f : Grid → Grid) : (s.modGrid k f).teams = s.teams := rfl
@[simp] theorem State.modGrid_blocks (s : State) (k : Nat) (f : Grid → Grid) : (s.modGrid k f).blocks = s.blocks := rfl
@[simp] theorem State.modGrid_grids (s : State) (k : Nat) (f : Grid → Grid) : (s.modGrid k f).grids = s.grids.mod k f := rfl
@[simp] theorem State.modGrid_tenants (s : State) (k : Nat) (f : Grid → Grid) : (s.modGrid k f).tenants = s.tenants := rfl
@[simp] theorem State.modGrid_partitions (s : State) (k : Nat) (f : Grid → Grid) : (s.modGrid k f).partitions = s.partitions := rfl
@[simp] theorem State.modGrid_fns (s : State) (k : Nat) (f : Grid → Grid) : (s.modGrid k f).fns = s.fns := rfl
@[simp] theorem State.modGrid_reqs (s : State) (k : Nat) (f : Grid → Grid) : (s.modGrid k f).reqs = s.reqs := rfl
@[simp] theorem State.modGrid_cmds (s : State) (k : Nat) (f : Grid → Grid) : (s.modGrid k f).cmds = s.cmds := rfl
@[simp] theorem State.modGrid_msteps (s : State) (k : Nat) (f : Grid → Grid) : (s.modGrid k f).msteps = s.msteps := rfl
@[simp] theorem State.modGrid_latches (s : State) (k : Nat) (f : Grid → Grid) : (s.modGrid k f).latches = s.latches := rfl
@[simp] theorem State.modGrid_mreads (s : State) (k : Nat) (f : Grid → Grid) : (s.modGrid k f).mreads = s.mreads := rfl
@[simp] theorem State.modGrid_segments (s : State) (k : Nat) (f : Grid → Grid) : (s.modGrid k f).segments = s.segments := rfl
@[simp] theorem State.modGrid_msgs (s : State) (k : Nat) (f : Grid → Grid) : (s.modGrid k f).msgs = s.msgs := rfl
@[simp] theorem State.modGrid_arising (s : State) (k : Nat) (f : Grid → Grid) : (s.modGrid k f).arising = s.arising := rfl
@[simp] theorem State.modGrid_sysEvents (s : State) (k : Nat) (f : Grid → Grid) : (s.modGrid k f).sysEvents = s.sysEvents := rfl
@[simp] theorem State.modGrid_pageChange (s : State) (k : Nat) (f : Grid → Grid) : (s.modGrid k f).pageChange = s.pageChange := rfl
@[simp] theorem State.modGrid_fabric (s : State) (k : Nat) (f : Grid → Grid) : (s.modGrid k f).fabric = s.fabric := rfl
@[simp] theorem State.modGrid_crosspoints (s : State) (k : Nat) (f : Grid → Grid) : (s.modGrid k f).crosspoints = s.crosspoints := rfl
@[simp] theorem State.modGrid_channels (s : State) (k : Nat) (f : Grid → Grid) : (s.modGrid k f).channels = s.channels := rfl
@[simp] theorem State.modGrid_quadLast (s : State) (k : Nat) (f : Grid → Grid) : (s.modGrid k f).quadLast = s.quadLast := rfl
@[simp] theorem State.modGrid_ports (s : State) (k : Nat) (f : Grid → Grid) : (s.modGrid k f).ports = s.ports := rfl
@[simp] theorem State.modGrid_droppedPackets (s : State) (k : Nat) (f : Grid → Grid) : (s.modGrid k f).droppedPackets = s.droppedPackets := rfl
@[simp] theorem State.modGrid_droppedDoorbells (s : State) (k : Nat) (f : Grid → Grid) : (s.modGrid k f).droppedDoorbells = s.droppedDoorbells := rfl
@[simp] theorem State.modGrid_powerSt (s : State) (k : Nat) (f : Grid → Grid) : (s.modGrid k f).powerSt = s.powerSt := rfl
@[simp] theorem State.modGrid_ready (s : State) (k : Nat) (f : Grid → Grid) : (s.modGrid k f).ready = s.ready := rfl
@[simp] theorem State.modGrid_faultPin (s : State) (k : Nat) (f : Grid → Grid) : (s.modGrid k f).faultPin = s.faultPin := rfl
@[simp] theorem State.modGrid_faultCause (s : State) (k : Nat) (f : Grid → Grid) : (s.modGrid k f).faultCause = s.faultCause := rfl
@[simp] theorem State.modGrid_faultDetail (s : State) (k : Nat) (f : Grid → Grid) : (s.modGrid k f).faultDetail = s.faultDetail := rfl
@[simp] theorem State.modGrid_mhz (s : State) (k : Nat) (f : Grid → Grid) : (s.modGrid k f).mhz = s.mhz := rfl
@[simp] theorem State.modGrid_cap (s : State) (k : Nat) (f : Grid → Grid) : (s.modGrid k f).cap = s.cap := rfl
@[simp] theorem State.modGrid_imageA (s : State) (k : Nat) (f : Grid → Grid) : (s.modGrid k f).imageA = s.imageA := rfl
@[simp] theorem State.modGrid_imageB (s : State) (k : Nat) (f : Grid → Grid) : (s.modGrid k f).imageB = s.imageB := rfl
@[simp] theorem State.modGrid_activeB (s : State) (k : Nat) (f : Grid → Grid) : (s.modGrid k f).activeB = s.activeB := rfl
@[simp] theorem State.modGrid_bootedB (s : State) (k : Nat) (f : Grid → Grid) : (s.modGrid k f).bootedB = s.bootedB := rfl
@[simp] theorem State.modGrid_rollback (s : State) (k : Nat) (f : Grid → Grid) : (s.modGrid k f).rollback = s.rollback := rfl
@[simp] theorem State.modGrid_tier (s : State) (k : Nat) (f : Grid → Grid) : (s.modGrid k f).tier = s.tier := rfl
@[simp] theorem State.modGrid_checkpointing (s : State) (k : Nat) (f : Grid → Grid) : (s.modGrid k f).checkpointing = s.checkpointing := rfl
@[simp] theorem State.modGrid_restoring (s : State) (k : Nat) (f : Grid → Grid) : (s.modGrid k f).restoring = s.restoring := rfl
@[simp] theorem State.modGrid_heldResets (s : State) (k : Nat) (f : Grid → Grid) : (s.modGrid k f).heldResets = s.heldResets := rfl
@[simp] theorem State.modGrid_usage (s : State) (k : Nat) (f : Grid → Grid) : (s.modGrid k f).usage = s.usage := rfl

/-! ### modTenant -/

@[simp] theorem State.modTenant_cur (s : State) (k : Nat) (f : Tenant → Tenant) : (s.modTenant k f).cur = s.cur := rfl
@[simp] theorem State.modTenant_draws (s : State) (k : Nat) (f : Tenant → Tenant) : (s.modTenant k f).draws = s.draws := rfl
@[simp] theorem State.modTenant_inputs (s : State) (k : Nat) (f : Tenant → Tenant) : (s.modTenant k f).inputs = s.inputs := rfl
@[simp] theorem State.modTenant_nextId (s : State) (k : Nat) (f : Tenant → Tenant) : (s.modTenant k f).nextId = s.nextId := rfl
@[simp] theorem State.modTenant_clock (s : State) (k : Nat) (f : Tenant → Tenant) : (s.modTenant k f).clock = s.clock := rfl
@[simp] theorem State.modTenant_cycle (s : State) (k : Nat) (f : Tenant → Tenant) : (s.modTenant k f).cycle = s.cycle := rfl
@[simp] theorem State.modTenant_dram (s : State) (k : Nat) (f : Tenant → Tenant) : (s.modTenant k f).dram = s.dram := rfl
@[simp] theorem State.modTenant_dramPoison (s : State) (k : Nat) (f : Tenant → Tenant) : (s.modTenant k f).dramPoison = s.dramPoison := rfl
@[simp] theorem State.modTenant_host (s : State) (k : Nat) (f : Tenant → Tenant) : (s.modTenant k f).host = s.host := rfl
@[simp] theorem State.modTenant_hostPoison (s : State) (k : Nat) (f : Tenant → Tenant) : (s.modTenant k f).hostPoison = s.hostPoison := rfl
@[simp] theorem State.modTenant_spm (s : State) (k : Nat) (f : Tenant → Tenant) : (s.modTenant k f).spm = s.spm := rfl
@[simp] theorem State.modTenant_spmPoison (s : State) (k : Nat) (f : Tenant → Tenant) : (s.modTenant k f).spmPoison = s.spmPoison := rfl
@[simp] theorem State.modTenant_corrected (s : State) (k : Nat) (f : Tenant → Tenant) : (s.modTenant k f).corrected = s.corrected := rfl
@[simp] theorem State.modTenant_rot (s : State) (k : Nat) (f : Tenant → Tenant) : (s.modTenant k f).rot = s.rot := rfl
@[simp] theorem State.modTenant_tlb (s : State) (k : Nat) (f : Tenant → Tenant) : (s.modTenant k f).tlb = s.tlb := rfl
@[simp] theorem State.modTenant_walks (s : State) (k : Nat) (f : Tenant → Tenant) : (s.modTenant k f).walks = s.walks := rfl
@[simp] theorem State.modTenant_lines (s : State) (k : Nat) (f : Tenant → Tenant) : (s.modTenant k f).lines = s.lines := rfl
@[simp] theorem State.modTenant_bars (s : State) (k : Nat) (f : Tenant → Tenant) : (s.modTenant k f).bars = s.bars := rfl
@[simp] theorem State.modTenant_grants (s : State) (k : Nat) (f : Tenant → Tenant) : (s.modTenant k f).grants = s.grants := rfl
@[simp] theorem State.modTenant_stripes (s : State) (k : Nat) (f : Tenant → Tenant) : (s.modTenant k f).stripes = s.stripes := rfl
@[simp] theorem State.modTenant_setSeq (s : State) (k : Nat) (f : Tenant → Tenant) : (s.modTenant k f).setSeq = s.setSeq := rfl
@[simp] theorem State.modTenant_teams (s : State) (k : Nat) (f : Tenant → Tenant) : (s.modTenant k f).teams = s.teams := rfl
@[simp] theorem State.modTenant_blocks (s : State) (k : Nat) (f : Tenant → Tenant) : (s.modTenant k f).blocks = s.blocks := rfl
@[simp] theorem State.modTenant_grids (s : State) (k : Nat) (f : Tenant → Tenant) : (s.modTenant k f).grids = s.grids := rfl
@[simp] theorem State.modTenant_tenants (s : State) (k : Nat) (f : Tenant → Tenant) : (s.modTenant k f).tenants = s.tenants.mod k f := rfl
@[simp] theorem State.modTenant_partitions (s : State) (k : Nat) (f : Tenant → Tenant) : (s.modTenant k f).partitions = s.partitions := rfl
@[simp] theorem State.modTenant_fns (s : State) (k : Nat) (f : Tenant → Tenant) : (s.modTenant k f).fns = s.fns := rfl
@[simp] theorem State.modTenant_reqs (s : State) (k : Nat) (f : Tenant → Tenant) : (s.modTenant k f).reqs = s.reqs := rfl
@[simp] theorem State.modTenant_cmds (s : State) (k : Nat) (f : Tenant → Tenant) : (s.modTenant k f).cmds = s.cmds := rfl
@[simp] theorem State.modTenant_msteps (s : State) (k : Nat) (f : Tenant → Tenant) : (s.modTenant k f).msteps = s.msteps := rfl
@[simp] theorem State.modTenant_latches (s : State) (k : Nat) (f : Tenant → Tenant) : (s.modTenant k f).latches = s.latches := rfl
@[simp] theorem State.modTenant_mreads (s : State) (k : Nat) (f : Tenant → Tenant) : (s.modTenant k f).mreads = s.mreads := rfl
@[simp] theorem State.modTenant_segments (s : State) (k : Nat) (f : Tenant → Tenant) : (s.modTenant k f).segments = s.segments := rfl
@[simp] theorem State.modTenant_msgs (s : State) (k : Nat) (f : Tenant → Tenant) : (s.modTenant k f).msgs = s.msgs := rfl
@[simp] theorem State.modTenant_arising (s : State) (k : Nat) (f : Tenant → Tenant) : (s.modTenant k f).arising = s.arising := rfl
@[simp] theorem State.modTenant_sysEvents (s : State) (k : Nat) (f : Tenant → Tenant) : (s.modTenant k f).sysEvents = s.sysEvents := rfl
@[simp] theorem State.modTenant_pageChange (s : State) (k : Nat) (f : Tenant → Tenant) : (s.modTenant k f).pageChange = s.pageChange := rfl
@[simp] theorem State.modTenant_fabric (s : State) (k : Nat) (f : Tenant → Tenant) : (s.modTenant k f).fabric = s.fabric := rfl
@[simp] theorem State.modTenant_crosspoints (s : State) (k : Nat) (f : Tenant → Tenant) : (s.modTenant k f).crosspoints = s.crosspoints := rfl
@[simp] theorem State.modTenant_channels (s : State) (k : Nat) (f : Tenant → Tenant) : (s.modTenant k f).channels = s.channels := rfl
@[simp] theorem State.modTenant_quadLast (s : State) (k : Nat) (f : Tenant → Tenant) : (s.modTenant k f).quadLast = s.quadLast := rfl
@[simp] theorem State.modTenant_ports (s : State) (k : Nat) (f : Tenant → Tenant) : (s.modTenant k f).ports = s.ports := rfl
@[simp] theorem State.modTenant_droppedPackets (s : State) (k : Nat) (f : Tenant → Tenant) : (s.modTenant k f).droppedPackets = s.droppedPackets := rfl
@[simp] theorem State.modTenant_droppedDoorbells (s : State) (k : Nat) (f : Tenant → Tenant) : (s.modTenant k f).droppedDoorbells = s.droppedDoorbells := rfl
@[simp] theorem State.modTenant_powerSt (s : State) (k : Nat) (f : Tenant → Tenant) : (s.modTenant k f).powerSt = s.powerSt := rfl
@[simp] theorem State.modTenant_ready (s : State) (k : Nat) (f : Tenant → Tenant) : (s.modTenant k f).ready = s.ready := rfl
@[simp] theorem State.modTenant_faultPin (s : State) (k : Nat) (f : Tenant → Tenant) : (s.modTenant k f).faultPin = s.faultPin := rfl
@[simp] theorem State.modTenant_faultCause (s : State) (k : Nat) (f : Tenant → Tenant) : (s.modTenant k f).faultCause = s.faultCause := rfl
@[simp] theorem State.modTenant_faultDetail (s : State) (k : Nat) (f : Tenant → Tenant) : (s.modTenant k f).faultDetail = s.faultDetail := rfl
@[simp] theorem State.modTenant_mhz (s : State) (k : Nat) (f : Tenant → Tenant) : (s.modTenant k f).mhz = s.mhz := rfl
@[simp] theorem State.modTenant_cap (s : State) (k : Nat) (f : Tenant → Tenant) : (s.modTenant k f).cap = s.cap := rfl
@[simp] theorem State.modTenant_imageA (s : State) (k : Nat) (f : Tenant → Tenant) : (s.modTenant k f).imageA = s.imageA := rfl
@[simp] theorem State.modTenant_imageB (s : State) (k : Nat) (f : Tenant → Tenant) : (s.modTenant k f).imageB = s.imageB := rfl
@[simp] theorem State.modTenant_activeB (s : State) (k : Nat) (f : Tenant → Tenant) : (s.modTenant k f).activeB = s.activeB := rfl
@[simp] theorem State.modTenant_bootedB (s : State) (k : Nat) (f : Tenant → Tenant) : (s.modTenant k f).bootedB = s.bootedB := rfl
@[simp] theorem State.modTenant_rollback (s : State) (k : Nat) (f : Tenant → Tenant) : (s.modTenant k f).rollback = s.rollback := rfl
@[simp] theorem State.modTenant_tier (s : State) (k : Nat) (f : Tenant → Tenant) : (s.modTenant k f).tier = s.tier := rfl
@[simp] theorem State.modTenant_checkpointing (s : State) (k : Nat) (f : Tenant → Tenant) : (s.modTenant k f).checkpointing = s.checkpointing := rfl
@[simp] theorem State.modTenant_restoring (s : State) (k : Nat) (f : Tenant → Tenant) : (s.modTenant k f).restoring = s.restoring := rfl
@[simp] theorem State.modTenant_heldResets (s : State) (k : Nat) (f : Tenant → Tenant) : (s.modTenant k f).heldResets = s.heldResets := rfl
@[simp] theorem State.modTenant_usage (s : State) (k : Nat) (f : Tenant → Tenant) : (s.modTenant k f).usage = s.usage := rfl

/-! ### advance -/

@[simp] theorem State.advance_cur (s : State) (k n : Nat) : (s.advance k n).cur = s.cur := rfl
@[simp] theorem State.advance_draws (s : State) (k n : Nat) : (s.advance k n).draws = s.draws := rfl
@[simp] theorem State.advance_inputs (s : State) (k n : Nat) : (s.advance k n).inputs = s.inputs := rfl
@[simp] theorem State.advance_nextId (s : State) (k n : Nat) : (s.advance k n).nextId = s.nextId := rfl
@[simp] theorem State.advance_clock (s : State) (k n : Nat) : (s.advance k n).clock = s.clock := rfl
@[simp] theorem State.advance_cycle (s : State) (k n : Nat) : (s.advance k n).cycle = s.cycle := rfl
@[simp] theorem State.advance_dram (s : State) (k n : Nat) : (s.advance k n).dram = s.dram := rfl
@[simp] theorem State.advance_dramPoison (s : State) (k n : Nat) : (s.advance k n).dramPoison = s.dramPoison := rfl
@[simp] theorem State.advance_host (s : State) (k n : Nat) : (s.advance k n).host = s.host := rfl
@[simp] theorem State.advance_hostPoison (s : State) (k n : Nat) : (s.advance k n).hostPoison = s.hostPoison := rfl
@[simp] theorem State.advance_spm (s : State) (k n : Nat) : (s.advance k n).spm = s.spm := rfl
@[simp] theorem State.advance_spmPoison (s : State) (k n : Nat) : (s.advance k n).spmPoison = s.spmPoison := rfl
@[simp] theorem State.advance_corrected (s : State) (k n : Nat) : (s.advance k n).corrected = s.corrected := rfl
@[simp] theorem State.advance_rot (s : State) (k n : Nat) : (s.advance k n).rot = s.rot := rfl
@[simp] theorem State.advance_tlb (s : State) (k n : Nat) : (s.advance k n).tlb = s.tlb := rfl
@[simp] theorem State.advance_walks (s : State) (k n : Nat) : (s.advance k n).walks = s.walks := rfl
@[simp] theorem State.advance_lines (s : State) (k n : Nat) : (s.advance k n).lines = s.lines := rfl
@[simp] theorem State.advance_bars (s : State) (k n : Nat) : (s.advance k n).bars = s.bars := rfl
@[simp] theorem State.advance_grants (s : State) (k n : Nat) : (s.advance k n).grants = s.grants := rfl
@[simp] theorem State.advance_stripes (s : State) (k n : Nat) : (s.advance k n).stripes = s.stripes := rfl
@[simp] theorem State.advance_setSeq (s : State) (k n : Nat) : (s.advance k n).setSeq = s.setSeq := rfl
@[simp] theorem State.advance_teams (s : State) (k n : Nat) : (s.advance k n).teams = s.teams.mod k (fun t => t.advance n) := rfl
@[simp] theorem State.advance_blocks (s : State) (k n : Nat) : (s.advance k n).blocks = s.blocks := rfl
@[simp] theorem State.advance_grids (s : State) (k n : Nat) : (s.advance k n).grids = s.grids := rfl
@[simp] theorem State.advance_tenants (s : State) (k n : Nat) : (s.advance k n).tenants = s.tenants := rfl
@[simp] theorem State.advance_partitions (s : State) (k n : Nat) : (s.advance k n).partitions = s.partitions := rfl
@[simp] theorem State.advance_fns (s : State) (k n : Nat) : (s.advance k n).fns = s.fns := rfl
@[simp] theorem State.advance_reqs (s : State) (k n : Nat) : (s.advance k n).reqs = s.reqs := rfl
@[simp] theorem State.advance_cmds (s : State) (k n : Nat) : (s.advance k n).cmds = s.cmds := rfl
@[simp] theorem State.advance_msteps (s : State) (k n : Nat) : (s.advance k n).msteps = s.msteps := rfl
@[simp] theorem State.advance_latches (s : State) (k n : Nat) : (s.advance k n).latches = s.latches := rfl
@[simp] theorem State.advance_mreads (s : State) (k n : Nat) : (s.advance k n).mreads = s.mreads := rfl
@[simp] theorem State.advance_segments (s : State) (k n : Nat) : (s.advance k n).segments = s.segments := rfl
@[simp] theorem State.advance_msgs (s : State) (k n : Nat) : (s.advance k n).msgs = s.msgs := rfl
@[simp] theorem State.advance_arising (s : State) (k n : Nat) : (s.advance k n).arising = s.arising := rfl
@[simp] theorem State.advance_sysEvents (s : State) (k n : Nat) : (s.advance k n).sysEvents = s.sysEvents := rfl
@[simp] theorem State.advance_pageChange (s : State) (k n : Nat) : (s.advance k n).pageChange = s.pageChange := rfl
@[simp] theorem State.advance_fabric (s : State) (k n : Nat) : (s.advance k n).fabric = s.fabric := rfl
@[simp] theorem State.advance_crosspoints (s : State) (k n : Nat) : (s.advance k n).crosspoints = s.crosspoints := rfl
@[simp] theorem State.advance_channels (s : State) (k n : Nat) : (s.advance k n).channels = s.channels := rfl
@[simp] theorem State.advance_quadLast (s : State) (k n : Nat) : (s.advance k n).quadLast = s.quadLast := rfl
@[simp] theorem State.advance_ports (s : State) (k n : Nat) : (s.advance k n).ports = s.ports := rfl
@[simp] theorem State.advance_droppedPackets (s : State) (k n : Nat) : (s.advance k n).droppedPackets = s.droppedPackets := rfl
@[simp] theorem State.advance_droppedDoorbells (s : State) (k n : Nat) : (s.advance k n).droppedDoorbells = s.droppedDoorbells := rfl
@[simp] theorem State.advance_powerSt (s : State) (k n : Nat) : (s.advance k n).powerSt = s.powerSt := rfl
@[simp] theorem State.advance_ready (s : State) (k n : Nat) : (s.advance k n).ready = s.ready := rfl
@[simp] theorem State.advance_faultPin (s : State) (k n : Nat) : (s.advance k n).faultPin = s.faultPin := rfl
@[simp] theorem State.advance_faultCause (s : State) (k n : Nat) : (s.advance k n).faultCause = s.faultCause := rfl
@[simp] theorem State.advance_faultDetail (s : State) (k n : Nat) : (s.advance k n).faultDetail = s.faultDetail := rfl
@[simp] theorem State.advance_mhz (s : State) (k n : Nat) : (s.advance k n).mhz = s.mhz := rfl
@[simp] theorem State.advance_cap (s : State) (k n : Nat) : (s.advance k n).cap = s.cap := rfl
@[simp] theorem State.advance_imageA (s : State) (k n : Nat) : (s.advance k n).imageA = s.imageA := rfl
@[simp] theorem State.advance_imageB (s : State) (k n : Nat) : (s.advance k n).imageB = s.imageB := rfl
@[simp] theorem State.advance_activeB (s : State) (k n : Nat) : (s.advance k n).activeB = s.activeB := rfl
@[simp] theorem State.advance_bootedB (s : State) (k n : Nat) : (s.advance k n).bootedB = s.bootedB := rfl
@[simp] theorem State.advance_rollback (s : State) (k n : Nat) : (s.advance k n).rollback = s.rollback := rfl
@[simp] theorem State.advance_tier (s : State) (k n : Nat) : (s.advance k n).tier = s.tier := rfl
@[simp] theorem State.advance_checkpointing (s : State) (k n : Nat) : (s.advance k n).checkpointing = s.checkpointing := rfl
@[simp] theorem State.advance_restoring (s : State) (k n : Nat) : (s.advance k n).restoring = s.restoring := rfl
@[simp] theorem State.advance_heldResets (s : State) (k n : Nat) : (s.advance k n).heldResets = s.heldResets := rfl
@[simp] theorem State.advance_usage (s : State) (k n : Nat) : (s.advance k n).usage = s.usage := rfl

/-! ### Registers -/

@[simp] theorem Regs.setWord_lane (r : Regs) (i n : Nat) (x : Word) : (r.setWord i n x).lane = Sparse.set 0 r.lane (laneKey i n) x := rfl
@[simp] theorem Regs.setWord_flag (r : Regs) (i n : Nat) (x : Word) : (r.setWord i n x).flag = r.flag := rfl
@[simp] theorem Regs.setWord_sreg (r : Regs) (i n : Nat) (x : Word) : (r.setWord i n x).sreg = r.sreg := rfl
@[simp] theorem Regs.setWord_sflag (r : Regs) (i n : Nat) (x : Word) : (r.setWord i n x).sflag = r.sflag := rfl
@[simp] theorem Regs.setWord_h (r : Regs) (i n : Nat) (x : Word) : (r.setWord i n x).h = r.h := rfl
@[simp] theorem Regs.setWord_tag (r : Regs) (i n : Nat) (x : Word) : (r.setWord i n x).tag = r.tag := rfl
@[simp] theorem Regs.setVflag_lane (r : Regs) (v w : Nat) (f : Flag) : (r.setVflag v w f).lane = r.lane := rfl
@[simp] theorem Regs.setVflag_flag (r : Regs) (v w : Nat) (f : Flag) : (r.setVflag v w f).flag = Sparse.set .full r.flag (flagKey v w) f := rfl
@[simp] theorem Regs.setVflag_sreg (r : Regs) (v w : Nat) (f : Flag) : (r.setVflag v w f).sreg = r.sreg := rfl
@[simp] theorem Regs.setVflag_sflag (r : Regs) (v w : Nat) (f : Flag) : (r.setVflag v w f).sflag = r.sflag := rfl
@[simp] theorem Regs.setVflag_h (r : Regs) (v w : Nat) (f : Flag) : (r.setVflag v w f).h = r.h := rfl
@[simp] theorem Regs.setVflag_tag (r : Regs) (v w : Nat) (f : Flag) : (r.setVflag v w f).tag = r.tag := rfl
@[simp] theorem Regs.setS_lane (r : Regs) (n : Nat) (x : DWord) : (r.setS n x).lane = r.lane := rfl
@[simp] theorem Regs.setS_flag (r : Regs) (n : Nat) (x : DWord) : (r.setS n x).flag = r.flag := rfl
@[simp] theorem Regs.setS_sreg (r : Regs) (n : Nat) (x : DWord) : (r.setS n x).sreg = Sparse.set 0 r.sreg n x := rfl
@[simp] theorem Regs.setS_sflag (r : Regs) (n : Nat) (x : DWord) : (r.setS n x).sflag = r.sflag := rfl
@[simp] theorem Regs.setS_h (r : Regs) (n : Nat) (x : DWord) : (r.setS n x).h = r.h := rfl
@[simp] theorem Regs.setS_tag (r : Regs) (n : Nat) (x : DWord) : (r.setS n x).tag = r.tag := rfl
@[simp] theorem Regs.setSflg_lane (r : Regs) (n : Nat) (f : Flag) : (r.setSflg n f).lane = r.lane := rfl
@[simp] theorem Regs.setSflg_flag (r : Regs) (n : Nat) (f : Flag) : (r.setSflg n f).flag = r.flag := rfl
@[simp] theorem Regs.setSflg_sreg (r : Regs) (n : Nat) (f : Flag) : (r.setSflg n f).sreg = r.sreg := rfl
@[simp] theorem Regs.setSflg_sflag (r : Regs) (n : Nat) (f : Flag) : (r.setSflg n f).sflag = Sparse.set .full r.sflag n f := rfl
@[simp] theorem Regs.setSflg_h (r : Regs) (n : Nat) (f : Flag) : (r.setSflg n f).h = r.h := rfl
@[simp] theorem Regs.setSflg_tag (r : Regs) (n : Nat) (f : Flag) : (r.setSflg n f).tag = r.tag := rfl
@[simp] theorem Regs.setHandle_lane (r : Regs) (n : Nat) (x : Handle) : (r.setHandle n x).lane = r.lane := rfl
@[simp] theorem Regs.setHandle_flag (r : Regs) (n : Nat) (x : Handle) : (r.setHandle n x).flag = r.flag := rfl
@[simp] theorem Regs.setHandle_sreg (r : Regs) (n : Nat) (x : Handle) : (r.setHandle n x).sreg = r.sreg := rfl
@[simp] theorem Regs.setHandle_sflag (r : Regs) (n : Nat) (x : Handle) : (r.setHandle n x).sflag = r.sflag := rfl
@[simp] theorem Regs.setHandle_h (r : Regs) (n : Nat) (x : Handle) : (r.setHandle n x).h = Sparse.set {} r.h n x := rfl
@[simp] theorem Regs.setHandle_tag (r : Regs) (n : Nat) (x : Handle) : (r.setHandle n x).tag = r.tag := rfl
@[simp] theorem Regs.setTag_lane (r : Regs) (i n : Nat) (g : Option Tag) : (r.setTag i n g).lane = r.lane := rfl
@[simp] theorem Regs.setTag_flag (r : Regs) (i n : Nat) (g : Option Tag) : (r.setTag i n g).flag = r.flag := rfl
@[simp] theorem Regs.setTag_sreg (r : Regs) (i n : Nat) (g : Option Tag) : (r.setTag i n g).sreg = r.sreg := rfl
@[simp] theorem Regs.setTag_sflag (r : Regs) (i n : Nat) (g : Option Tag) : (r.setTag i n g).sflag = r.sflag := rfl
@[simp] theorem Regs.setTag_h (r : Regs) (i n : Nat) (g : Option Tag) : (r.setTag i n g).h = r.h := rfl
@[simp] theorem Regs.setTag_tag (r : Regs) (i n : Nat) (g : Option Tag) : (r.setTag i n g).tag = Sparse.set none r.tag (laneKey i n) g := rfl

/-! ### Teams -/

@[simp] theorem Team.setCtx_block (t : Team) (n : Nat) (c : TermCtx) : (t.setCtx n c).block = t.block := rfl
@[simp] theorem Team.setCtx_index (t : Team) (n : Nat) (c : TermCtx) : (t.setCtx n c).index = t.index := rfl
@[simp] theorem Team.setCtx_quarter (t : Team) (n : Nat) (c : TermCtx) : (t.setCtx n c).quarter = t.quarter := rfl
@[simp] theorem Team.setCtx_lanes (t : Team) (n : Nat) (c : TermCtx) : (t.setCtx n c).lanes = t.lanes := rfl
@[simp] theorem Team.setCtx_vregs (t : Team) (n : Nat) (c : TermCtx) : (t.setCtx n c).vregs = t.vregs := rfl
@[simp] theorem Team.setCtx_sregs (t : Team) (n : Nat) (c : TermCtx) : (t.setCtx n c).sregs = t.sregs := rfl
@[simp] theorem Team.setCtx_spill (t : Team) (n : Nat) (c : TermCtx) : (t.setCtx n c).spill = t.spill := rfl
@[simp] theorem Team.setCtx_priv (t : Team) (n : Nat) (c : TermCtx) : (t.setCtx n c).priv = t.priv := rfl
@[simp] theorem Team.setCtx_cstack (t : Team) (n : Nat) (c : TermCtx) : (t.setCtx n c).cstack = t.cstack := rfl
@[simp] theorem Team.setCtx_heap (t : Team) (n : Nat) (c : TermCtx) : (t.setCtx n c).heap = t.heap := rfl
@[simp] theorem Team.setCtx_trail (t : Team) (n : Nat) (c : TermCtx) : (t.setCtx n c).trail = t.trail := rfl
@[simp] theorem Team.setCtx_chpt (t : Team) (n : Nat) (c : TermCtx) : (t.setCtx n c).chpt = t.chpt := rfl
@[simp] theorem Team.setCtx_tstride (t : Team) (n : Nat) (c : TermCtx) : (t.setCtx n c).tstride = t.tstride := rfl
@[simp] theorem Team.setCtx_role (t : Team) (n : Nat) (c : TermCtx) : (t.setCtx n c).role = t.role := rfl
@[simp] theorem Team.setCtx_st (t : Team) (n : Nat) (c : TermCtx) : (t.setCtx n c).st = t.st := rfl
@[simp] theorem Team.setCtx_regs (t : Team) (n : Nat) (c : TermCtx) : (t.setCtx n c).regs = t.regs := rfl
@[simp] theorem Team.setCtx_ctl (t : Team) (n : Nat) (c : TermCtx) : (t.setCtx n c).ctl = t.ctl := rfl
@[simp] theorem Team.setCtx_fp (t : Team) (n : Nat) (c : TermCtx) : (t.setCtx n c).fp = t.fp := rfl
@[simp] theorem Team.setCtx_term (t : Team) (n : Nat) (c : TermCtx) : (t.setCtx n c).term = Sparse.set {} t.term n c := rfl
@[simp] theorem Team.setCtx_run (t : Team) (n : Nat) (c : TermCtx) : (t.setCtx n c).run = t.run := rfl
@[simp] theorem Team.setCtx_reruns (t : Team) (n : Nat) (c : TermCtx) : (t.setCtx n c).reruns = t.reruns := rfl
@[simp] theorem Team.setCtx_privMem (t : Team) (n : Nat) (c : TermCtx) : (t.setCtx n c).privMem = t.privMem := rfl
@[simp] theorem Team.setCtx_slots (t : Team) (n : Nat) (c : TermCtx) : (t.setCtx n c).slots = t.slots := rfl
@[simp] theorem Team.setCtx_slotPoison (t : Team) (n : Nat) (c : TermCtx) : (t.setCtx n c).slotPoison = t.slotPoison := rfl
@[simp] theorem Team.setCtx_lease (t : Team) (n : Nat) (c : TermCtx) : (t.setCtx n c).lease = t.lease := rfl
@[simp] theorem Team.setCtx_region (t : Team) (n : Nat) (c : TermCtx) : (t.setCtx n c).region = t.region := rfl
@[simp] theorem Team.setCtx_causes (t : Team) (n : Nat) (c : TermCtx) : (t.setCtx n c).causes = t.causes := rfl
@[simp] theorem Team.setCtx_arend (t : Team) (n : Nat) (c : TermCtx) : (t.setCtx n c).arend = t.arend := rfl
@[simp] theorem Team.setCtx_count (t : Team) (n : Nat) (c : TermCtx) : (t.setCtx n c).count = t.count := rfl
@[simp] theorem Team.setCtx_issued (t : Team) (n : Nat) (c : TermCtx) : (t.setCtx n c).issued = t.issued := rfl
@[simp] theorem Team.setCtx_hold (t : Team) (n : Nat) (c : TermCtx) : (t.setCtx n c).hold = t.hold := rfl
@[simp] theorem Team.setCtx_waitBar (t : Team) (n : Nat) (c : TermCtx) : (t.setCtx n c).waitBar = t.waitBar := rfl
@[simp] theorem Team.setCtx_atomErr (t : Team) (n : Nat) (c : TermCtx) : (t.setCtx n c).atomErr = t.atomErr := rfl
@[simp] theorem Team.setCtx_engErr (t : Team) (n : Nat) (c : TermCtx) : (t.setCtx n c).engErr = t.engErr := rfl
@[simp] theorem Team.setCtx_gen (t : Team) (n : Nat) (c : TermCtx) : (t.setCtx n c).gen = t.gen := rfl
@[simp] theorem Team.setCtx_precnt (t : Team) (n : Nat) (c : TermCtx) : (t.setCtx n c).precnt = t.precnt := rfl
@[simp] theorem Team.setCtx_gbarIn (t : Team) (n : Nat) (c : TermCtx) : (t.setCtx n c).gbarIn = t.gbarIn := rfl
@[simp] theorem Team.setCtx_gbarOut (t : Team) (n : Nat) (c : TermCtx) : (t.setCtx n c).gbarOut = t.gbarOut := rfl
@[simp] theorem Team.setCtx_recorded (t : Team) (n : Nat) (c : TermCtx) : (t.setCtx n c).recorded = t.recorded := rfl
@[simp] theorem Team.setCtx_handler (t : Team) (n : Nat) (c : TermCtx) : (t.setCtx n c).handler = t.handler := rfl
@[simp] theorem Team.setCtx_stamp (t : Team) (n : Nat) (c : TermCtx) : (t.setCtx n c).stamp = t.stamp := rfl
@[simp] theorem Team.setRegion_block (t : Team) (n : Nat) (g : Option Region) : (t.setRegion n g).block = t.block := rfl
@[simp] theorem Team.setRegion_index (t : Team) (n : Nat) (g : Option Region) : (t.setRegion n g).index = t.index := rfl
@[simp] theorem Team.setRegion_quarter (t : Team) (n : Nat) (g : Option Region) : (t.setRegion n g).quarter = t.quarter := rfl
@[simp] theorem Team.setRegion_lanes (t : Team) (n : Nat) (g : Option Region) : (t.setRegion n g).lanes = t.lanes := rfl
@[simp] theorem Team.setRegion_vregs (t : Team) (n : Nat) (g : Option Region) : (t.setRegion n g).vregs = t.vregs := rfl
@[simp] theorem Team.setRegion_sregs (t : Team) (n : Nat) (g : Option Region) : (t.setRegion n g).sregs = t.sregs := rfl
@[simp] theorem Team.setRegion_spill (t : Team) (n : Nat) (g : Option Region) : (t.setRegion n g).spill = t.spill := rfl
@[simp] theorem Team.setRegion_priv (t : Team) (n : Nat) (g : Option Region) : (t.setRegion n g).priv = t.priv := rfl
@[simp] theorem Team.setRegion_cstack (t : Team) (n : Nat) (g : Option Region) : (t.setRegion n g).cstack = t.cstack := rfl
@[simp] theorem Team.setRegion_heap (t : Team) (n : Nat) (g : Option Region) : (t.setRegion n g).heap = t.heap := rfl
@[simp] theorem Team.setRegion_trail (t : Team) (n : Nat) (g : Option Region) : (t.setRegion n g).trail = t.trail := rfl
@[simp] theorem Team.setRegion_chpt (t : Team) (n : Nat) (g : Option Region) : (t.setRegion n g).chpt = t.chpt := rfl
@[simp] theorem Team.setRegion_tstride (t : Team) (n : Nat) (g : Option Region) : (t.setRegion n g).tstride = t.tstride := rfl
@[simp] theorem Team.setRegion_role (t : Team) (n : Nat) (g : Option Region) : (t.setRegion n g).role = t.role := rfl
@[simp] theorem Team.setRegion_st (t : Team) (n : Nat) (g : Option Region) : (t.setRegion n g).st = t.st := rfl
@[simp] theorem Team.setRegion_regs (t : Team) (n : Nat) (g : Option Region) : (t.setRegion n g).regs = t.regs := rfl
@[simp] theorem Team.setRegion_ctl (t : Team) (n : Nat) (g : Option Region) : (t.setRegion n g).ctl = t.ctl := rfl
@[simp] theorem Team.setRegion_fp (t : Team) (n : Nat) (g : Option Region) : (t.setRegion n g).fp = t.fp := rfl
@[simp] theorem Team.setRegion_term (t : Team) (n : Nat) (g : Option Region) : (t.setRegion n g).term = t.term := rfl
@[simp] theorem Team.setRegion_run (t : Team) (n : Nat) (g : Option Region) : (t.setRegion n g).run = t.run := rfl
@[simp] theorem Team.setRegion_reruns (t : Team) (n : Nat) (g : Option Region) : (t.setRegion n g).reruns = t.reruns := rfl
@[simp] theorem Team.setRegion_privMem (t : Team) (n : Nat) (g : Option Region) : (t.setRegion n g).privMem = t.privMem := rfl
@[simp] theorem Team.setRegion_slots (t : Team) (n : Nat) (g : Option Region) : (t.setRegion n g).slots = t.slots := rfl
@[simp] theorem Team.setRegion_slotPoison (t : Team) (n : Nat) (g : Option Region) : (t.setRegion n g).slotPoison = t.slotPoison := rfl
@[simp] theorem Team.setRegion_lease (t : Team) (n : Nat) (g : Option Region) : (t.setRegion n g).lease = t.lease := rfl
@[simp] theorem Team.setRegion_region (t : Team) (n : Nat) (g : Option Region) : (t.setRegion n g).region = Sparse.set none t.region n g := rfl
@[simp] theorem Team.setRegion_causes (t : Team) (n : Nat) (g : Option Region) : (t.setRegion n g).causes = t.causes := rfl
@[simp] theorem Team.setRegion_arend (t : Team) (n : Nat) (g : Option Region) : (t.setRegion n g).arend = t.arend := rfl
@[simp] theorem Team.setRegion_count (t : Team) (n : Nat) (g : Option Region) : (t.setRegion n g).count = t.count := rfl
@[simp] theorem Team.setRegion_issued (t : Team) (n : Nat) (g : Option Region) : (t.setRegion n g).issued = t.issued := rfl
@[simp] theorem Team.setRegion_hold (t : Team) (n : Nat) (g : Option Region) : (t.setRegion n g).hold = t.hold := rfl
@[simp] theorem Team.setRegion_waitBar (t : Team) (n : Nat) (g : Option Region) : (t.setRegion n g).waitBar = t.waitBar := rfl
@[simp] theorem Team.setRegion_atomErr (t : Team) (n : Nat) (g : Option Region) : (t.setRegion n g).atomErr = t.atomErr := rfl
@[simp] theorem Team.setRegion_engErr (t : Team) (n : Nat) (g : Option Region) : (t.setRegion n g).engErr = t.engErr := rfl
@[simp] theorem Team.setRegion_gen (t : Team) (n : Nat) (g : Option Region) : (t.setRegion n g).gen = t.gen := rfl
@[simp] theorem Team.setRegion_precnt (t : Team) (n : Nat) (g : Option Region) : (t.setRegion n g).precnt = t.precnt := rfl
@[simp] theorem Team.setRegion_gbarIn (t : Team) (n : Nat) (g : Option Region) : (t.setRegion n g).gbarIn = t.gbarIn := rfl
@[simp] theorem Team.setRegion_gbarOut (t : Team) (n : Nat) (g : Option Region) : (t.setRegion n g).gbarOut = t.gbarOut := rfl
@[simp] theorem Team.setRegion_recorded (t : Team) (n : Nat) (g : Option Region) : (t.setRegion n g).recorded = t.recorded := rfl
@[simp] theorem Team.setRegion_handler (t : Team) (n : Nat) (g : Option Region) : (t.setRegion n g).handler = t.handler := rfl
@[simp] theorem Team.setRegion_stamp (t : Team) (n : Nat) (g : Option Region) : (t.setRegion n g).stamp = t.stamp := rfl
@[simp] theorem Team.advance_block (t : Team) (n : Nat) : (t.advance n).block = t.block := rfl
@[simp] theorem Team.advance_index (t : Team) (n : Nat) : (t.advance n).index = t.index := rfl
@[simp] theorem Team.advance_quarter (t : Team) (n : Nat) : (t.advance n).quarter = t.quarter := rfl
@[simp] theorem Team.advance_lanes (t : Team) (n : Nat) : (t.advance n).lanes = t.lanes := rfl
@[simp] theorem Team.advance_vregs (t : Team) (n : Nat) : (t.advance n).vregs = t.vregs := rfl
@[simp] theorem Team.advance_sregs (t : Team) (n : Nat) : (t.advance n).sregs = t.sregs := rfl
@[simp] theorem Team.advance_spill (t : Team) (n : Nat) : (t.advance n).spill = t.spill := rfl
@[simp] theorem Team.advance_priv (t : Team) (n : Nat) : (t.advance n).priv = t.priv := rfl
@[simp] theorem Team.advance_cstack (t : Team) (n : Nat) : (t.advance n).cstack = t.cstack := rfl
@[simp] theorem Team.advance_heap (t : Team) (n : Nat) : (t.advance n).heap = t.heap := rfl
@[simp] theorem Team.advance_trail (t : Team) (n : Nat) : (t.advance n).trail = t.trail := rfl
@[simp] theorem Team.advance_chpt (t : Team) (n : Nat) : (t.advance n).chpt = t.chpt := rfl
@[simp] theorem Team.advance_tstride (t : Team) (n : Nat) : (t.advance n).tstride = t.tstride := rfl
@[simp] theorem Team.advance_role (t : Team) (n : Nat) : (t.advance n).role = t.role := rfl
@[simp] theorem Team.advance_st (t : Team) (n : Nat) : (t.advance n).st = t.st := rfl
@[simp] theorem Team.advance_regs (t : Team) (n : Nat) : (t.advance n).regs = t.regs := rfl
@[simp] theorem Team.advance_ctl (t : Team) (n : Nat) : (t.advance n).ctl = t.ctl.advance n := rfl
@[simp] theorem Team.advance_fp (t : Team) (n : Nat) : (t.advance n).fp = t.fp := rfl
@[simp] theorem Team.advance_term (t : Team) (n : Nat) : (t.advance n).term = t.term := rfl
@[simp] theorem Team.advance_run (t : Team) (n : Nat) : (t.advance n).run = t.run := rfl
@[simp] theorem Team.advance_reruns (t : Team) (n : Nat) : (t.advance n).reruns = t.reruns := rfl
@[simp] theorem Team.advance_privMem (t : Team) (n : Nat) : (t.advance n).privMem = t.privMem := rfl
@[simp] theorem Team.advance_slots (t : Team) (n : Nat) : (t.advance n).slots = t.slots := rfl
@[simp] theorem Team.advance_slotPoison (t : Team) (n : Nat) : (t.advance n).slotPoison = t.slotPoison := rfl
@[simp] theorem Team.advance_lease (t : Team) (n : Nat) : (t.advance n).lease = t.lease := rfl
@[simp] theorem Team.advance_region (t : Team) (n : Nat) : (t.advance n).region = t.region := rfl
@[simp] theorem Team.advance_causes (t : Team) (n : Nat) : (t.advance n).causes = t.causes := rfl
@[simp] theorem Team.advance_arend (t : Team) (n : Nat) : (t.advance n).arend = t.arend := rfl
@[simp] theorem Team.advance_count (t : Team) (n : Nat) : (t.advance n).count = t.count := rfl
@[simp] theorem Team.advance_issued (t : Team) (n : Nat) : (t.advance n).issued = t.issued := rfl
@[simp] theorem Team.advance_hold (t : Team) (n : Nat) : (t.advance n).hold = t.hold := rfl
@[simp] theorem Team.advance_waitBar (t : Team) (n : Nat) : (t.advance n).waitBar = t.waitBar := rfl
@[simp] theorem Team.advance_atomErr (t : Team) (n : Nat) : (t.advance n).atomErr = t.atomErr := rfl
@[simp] theorem Team.advance_engErr (t : Team) (n : Nat) : (t.advance n).engErr = t.engErr := rfl
@[simp] theorem Team.advance_gen (t : Team) (n : Nat) : (t.advance n).gen = t.gen := rfl
@[simp] theorem Team.advance_precnt (t : Team) (n : Nat) : (t.advance n).precnt = t.precnt := rfl
@[simp] theorem Team.advance_gbarIn (t : Team) (n : Nat) : (t.advance n).gbarIn = t.gbarIn := rfl
@[simp] theorem Team.advance_gbarOut (t : Team) (n : Nat) : (t.advance n).gbarOut = t.gbarOut := rfl
@[simp] theorem Team.advance_recorded (t : Team) (n : Nat) : (t.advance n).recorded = t.recorded := rfl
@[simp] theorem Team.advance_handler (t : Team) (n : Nat) : (t.advance n).handler = t.handler := rfl
@[simp] theorem Team.advance_stamp (t : Team) (n : Nat) : (t.advance n).stamp = t.stamp := rfl
@[simp] theorem Team.laneResults_block (t : Team) (d : Opnd) (rs : List (Nat × Word × Option Tag)) : (t.laneResults d rs).block = t.block := rfl
@[simp] theorem Team.laneResults_index (t : Team) (d : Opnd) (rs : List (Nat × Word × Option Tag)) : (t.laneResults d rs).index = t.index := rfl
@[simp] theorem Team.laneResults_quarter (t : Team) (d : Opnd) (rs : List (Nat × Word × Option Tag)) : (t.laneResults d rs).quarter = t.quarter := rfl
@[simp] theorem Team.laneResults_lanes (t : Team) (d : Opnd) (rs : List (Nat × Word × Option Tag)) : (t.laneResults d rs).lanes = t.lanes := rfl
@[simp] theorem Team.laneResults_vregs (t : Team) (d : Opnd) (rs : List (Nat × Word × Option Tag)) : (t.laneResults d rs).vregs = t.vregs := rfl
@[simp] theorem Team.laneResults_sregs (t : Team) (d : Opnd) (rs : List (Nat × Word × Option Tag)) : (t.laneResults d rs).sregs = t.sregs := rfl
@[simp] theorem Team.laneResults_spill (t : Team) (d : Opnd) (rs : List (Nat × Word × Option Tag)) : (t.laneResults d rs).spill = t.spill := rfl
@[simp] theorem Team.laneResults_priv (t : Team) (d : Opnd) (rs : List (Nat × Word × Option Tag)) : (t.laneResults d rs).priv = t.priv := rfl
@[simp] theorem Team.laneResults_cstack (t : Team) (d : Opnd) (rs : List (Nat × Word × Option Tag)) : (t.laneResults d rs).cstack = t.cstack := rfl
@[simp] theorem Team.laneResults_heap (t : Team) (d : Opnd) (rs : List (Nat × Word × Option Tag)) : (t.laneResults d rs).heap = t.heap := rfl
@[simp] theorem Team.laneResults_trail (t : Team) (d : Opnd) (rs : List (Nat × Word × Option Tag)) : (t.laneResults d rs).trail = t.trail := rfl
@[simp] theorem Team.laneResults_chpt (t : Team) (d : Opnd) (rs : List (Nat × Word × Option Tag)) : (t.laneResults d rs).chpt = t.chpt := rfl
@[simp] theorem Team.laneResults_tstride (t : Team) (d : Opnd) (rs : List (Nat × Word × Option Tag)) : (t.laneResults d rs).tstride = t.tstride := rfl
@[simp] theorem Team.laneResults_role (t : Team) (d : Opnd) (rs : List (Nat × Word × Option Tag)) : (t.laneResults d rs).role = t.role := rfl
@[simp] theorem Team.laneResults_st (t : Team) (d : Opnd) (rs : List (Nat × Word × Option Tag)) : (t.laneResults d rs).st = t.st := rfl
@[simp] theorem Team.laneResults_regs (t : Team) (d : Opnd) (rs : List (Nat × Word × Option Tag)) : (t.laneResults d rs).regs = (t.regs.putResults d rs).fillLane d 1 t.swept := rfl
@[simp] theorem Team.laneResults_ctl (t : Team) (d : Opnd) (rs : List (Nat × Word × Option Tag)) : (t.laneResults d rs).ctl = t.ctl := rfl
@[simp] theorem Team.laneResults_fp (t : Team) (d : Opnd) (rs : List (Nat × Word × Option Tag)) : (t.laneResults d rs).fp = t.fp := rfl
@[simp] theorem Team.laneResults_term (t : Team) (d : Opnd) (rs : List (Nat × Word × Option Tag)) : (t.laneResults d rs).term = t.term := rfl
@[simp] theorem Team.laneResults_run (t : Team) (d : Opnd) (rs : List (Nat × Word × Option Tag)) : (t.laneResults d rs).run = t.run := rfl
@[simp] theorem Team.laneResults_reruns (t : Team) (d : Opnd) (rs : List (Nat × Word × Option Tag)) : (t.laneResults d rs).reruns = t.reruns := rfl
@[simp] theorem Team.laneResults_privMem (t : Team) (d : Opnd) (rs : List (Nat × Word × Option Tag)) : (t.laneResults d rs).privMem = t.privMem := rfl
@[simp] theorem Team.laneResults_slots (t : Team) (d : Opnd) (rs : List (Nat × Word × Option Tag)) : (t.laneResults d rs).slots = t.slots := rfl
@[simp] theorem Team.laneResults_slotPoison (t : Team) (d : Opnd) (rs : List (Nat × Word × Option Tag)) : (t.laneResults d rs).slotPoison = t.slotPoison := rfl
@[simp] theorem Team.laneResults_lease (t : Team) (d : Opnd) (rs : List (Nat × Word × Option Tag)) : (t.laneResults d rs).lease = t.lease := rfl
@[simp] theorem Team.laneResults_region (t : Team) (d : Opnd) (rs : List (Nat × Word × Option Tag)) : (t.laneResults d rs).region = t.region := rfl
@[simp] theorem Team.laneResults_causes (t : Team) (d : Opnd) (rs : List (Nat × Word × Option Tag)) : (t.laneResults d rs).causes = t.causes := rfl
@[simp] theorem Team.laneResults_arend (t : Team) (d : Opnd) (rs : List (Nat × Word × Option Tag)) : (t.laneResults d rs).arend = t.arend := rfl
@[simp] theorem Team.laneResults_count (t : Team) (d : Opnd) (rs : List (Nat × Word × Option Tag)) : (t.laneResults d rs).count = t.count := rfl
@[simp] theorem Team.laneResults_issued (t : Team) (d : Opnd) (rs : List (Nat × Word × Option Tag)) : (t.laneResults d rs).issued = t.issued := rfl
@[simp] theorem Team.laneResults_hold (t : Team) (d : Opnd) (rs : List (Nat × Word × Option Tag)) : (t.laneResults d rs).hold = t.hold := rfl
@[simp] theorem Team.laneResults_waitBar (t : Team) (d : Opnd) (rs : List (Nat × Word × Option Tag)) : (t.laneResults d rs).waitBar = t.waitBar := rfl
@[simp] theorem Team.laneResults_atomErr (t : Team) (d : Opnd) (rs : List (Nat × Word × Option Tag)) : (t.laneResults d rs).atomErr = t.atomErr := rfl
@[simp] theorem Team.laneResults_engErr (t : Team) (d : Opnd) (rs : List (Nat × Word × Option Tag)) : (t.laneResults d rs).engErr = t.engErr := rfl
@[simp] theorem Team.laneResults_gen (t : Team) (d : Opnd) (rs : List (Nat × Word × Option Tag)) : (t.laneResults d rs).gen = t.gen := rfl
@[simp] theorem Team.laneResults_precnt (t : Team) (d : Opnd) (rs : List (Nat × Word × Option Tag)) : (t.laneResults d rs).precnt = t.precnt := rfl
@[simp] theorem Team.laneResults_gbarIn (t : Team) (d : Opnd) (rs : List (Nat × Word × Option Tag)) : (t.laneResults d rs).gbarIn = t.gbarIn := rfl
@[simp] theorem Team.laneResults_gbarOut (t : Team) (d : Opnd) (rs : List (Nat × Word × Option Tag)) : (t.laneResults d rs).gbarOut = t.gbarOut := rfl
@[simp] theorem Team.laneResults_recorded (t : Team) (d : Opnd) (rs : List (Nat × Word × Option Tag)) : (t.laneResults d rs).recorded = t.recorded := rfl
@[simp] theorem Team.laneResults_handler (t : Team) (d : Opnd) (rs : List (Nat × Word × Option Tag)) : (t.laneResults d rs).handler = t.handler := rfl
@[simp] theorem Team.laneResults_stamp (t : Team) (d : Opnd) (rs : List (Nat × Word × Option Tag)) : (t.laneResults d rs).stamp = t.stamp := rfl
@[simp] theorem Team.pairResults_block (t : Team) (d : Opnd) (rs : List (Nat × DWord)) : (t.pairResults d rs).block = t.block := rfl
@[simp] theorem Team.pairResults_index (t : Team) (d : Opnd) (rs : List (Nat × DWord)) : (t.pairResults d rs).index = t.index := rfl
@[simp] theorem Team.pairResults_quarter (t : Team) (d : Opnd) (rs : List (Nat × DWord)) : (t.pairResults d rs).quarter = t.quarter := rfl
@[simp] theorem Team.pairResults_lanes (t : Team) (d : Opnd) (rs : List (Nat × DWord)) : (t.pairResults d rs).lanes = t.lanes := rfl
@[simp] theorem Team.pairResults_vregs (t : Team) (d : Opnd) (rs : List (Nat × DWord)) : (t.pairResults d rs).vregs = t.vregs := rfl
@[simp] theorem Team.pairResults_sregs (t : Team) (d : Opnd) (rs : List (Nat × DWord)) : (t.pairResults d rs).sregs = t.sregs := rfl
@[simp] theorem Team.pairResults_spill (t : Team) (d : Opnd) (rs : List (Nat × DWord)) : (t.pairResults d rs).spill = t.spill := rfl
@[simp] theorem Team.pairResults_priv (t : Team) (d : Opnd) (rs : List (Nat × DWord)) : (t.pairResults d rs).priv = t.priv := rfl
@[simp] theorem Team.pairResults_cstack (t : Team) (d : Opnd) (rs : List (Nat × DWord)) : (t.pairResults d rs).cstack = t.cstack := rfl
@[simp] theorem Team.pairResults_heap (t : Team) (d : Opnd) (rs : List (Nat × DWord)) : (t.pairResults d rs).heap = t.heap := rfl
@[simp] theorem Team.pairResults_trail (t : Team) (d : Opnd) (rs : List (Nat × DWord)) : (t.pairResults d rs).trail = t.trail := rfl
@[simp] theorem Team.pairResults_chpt (t : Team) (d : Opnd) (rs : List (Nat × DWord)) : (t.pairResults d rs).chpt = t.chpt := rfl
@[simp] theorem Team.pairResults_tstride (t : Team) (d : Opnd) (rs : List (Nat × DWord)) : (t.pairResults d rs).tstride = t.tstride := rfl
@[simp] theorem Team.pairResults_role (t : Team) (d : Opnd) (rs : List (Nat × DWord)) : (t.pairResults d rs).role = t.role := rfl
@[simp] theorem Team.pairResults_st (t : Team) (d : Opnd) (rs : List (Nat × DWord)) : (t.pairResults d rs).st = t.st := rfl
@[simp] theorem Team.pairResults_regs (t : Team) (d : Opnd) (rs : List (Nat × DWord)) : (t.pairResults d rs).regs = (t.regs.putPairs d rs).fillLane d 2 t.swept := rfl
@[simp] theorem Team.pairResults_ctl (t : Team) (d : Opnd) (rs : List (Nat × DWord)) : (t.pairResults d rs).ctl = t.ctl := rfl
@[simp] theorem Team.pairResults_fp (t : Team) (d : Opnd) (rs : List (Nat × DWord)) : (t.pairResults d rs).fp = t.fp := rfl
@[simp] theorem Team.pairResults_term (t : Team) (d : Opnd) (rs : List (Nat × DWord)) : (t.pairResults d rs).term = t.term := rfl
@[simp] theorem Team.pairResults_run (t : Team) (d : Opnd) (rs : List (Nat × DWord)) : (t.pairResults d rs).run = t.run := rfl
@[simp] theorem Team.pairResults_reruns (t : Team) (d : Opnd) (rs : List (Nat × DWord)) : (t.pairResults d rs).reruns = t.reruns := rfl
@[simp] theorem Team.pairResults_privMem (t : Team) (d : Opnd) (rs : List (Nat × DWord)) : (t.pairResults d rs).privMem = t.privMem := rfl
@[simp] theorem Team.pairResults_slots (t : Team) (d : Opnd) (rs : List (Nat × DWord)) : (t.pairResults d rs).slots = t.slots := rfl
@[simp] theorem Team.pairResults_slotPoison (t : Team) (d : Opnd) (rs : List (Nat × DWord)) : (t.pairResults d rs).slotPoison = t.slotPoison := rfl
@[simp] theorem Team.pairResults_lease (t : Team) (d : Opnd) (rs : List (Nat × DWord)) : (t.pairResults d rs).lease = t.lease := rfl
@[simp] theorem Team.pairResults_region (t : Team) (d : Opnd) (rs : List (Nat × DWord)) : (t.pairResults d rs).region = t.region := rfl
@[simp] theorem Team.pairResults_causes (t : Team) (d : Opnd) (rs : List (Nat × DWord)) : (t.pairResults d rs).causes = t.causes := rfl
@[simp] theorem Team.pairResults_arend (t : Team) (d : Opnd) (rs : List (Nat × DWord)) : (t.pairResults d rs).arend = t.arend := rfl
@[simp] theorem Team.pairResults_count (t : Team) (d : Opnd) (rs : List (Nat × DWord)) : (t.pairResults d rs).count = t.count := rfl
@[simp] theorem Team.pairResults_issued (t : Team) (d : Opnd) (rs : List (Nat × DWord)) : (t.pairResults d rs).issued = t.issued := rfl
@[simp] theorem Team.pairResults_hold (t : Team) (d : Opnd) (rs : List (Nat × DWord)) : (t.pairResults d rs).hold = t.hold := rfl
@[simp] theorem Team.pairResults_waitBar (t : Team) (d : Opnd) (rs : List (Nat × DWord)) : (t.pairResults d rs).waitBar = t.waitBar := rfl
@[simp] theorem Team.pairResults_atomErr (t : Team) (d : Opnd) (rs : List (Nat × DWord)) : (t.pairResults d rs).atomErr = t.atomErr := rfl
@[simp] theorem Team.pairResults_engErr (t : Team) (d : Opnd) (rs : List (Nat × DWord)) : (t.pairResults d rs).engErr = t.engErr := rfl
@[simp] theorem Team.pairResults_gen (t : Team) (d : Opnd) (rs : List (Nat × DWord)) : (t.pairResults d rs).gen = t.gen := rfl
@[simp] theorem Team.pairResults_precnt (t : Team) (d : Opnd) (rs : List (Nat × DWord)) : (t.pairResults d rs).precnt = t.precnt := rfl
@[simp] theorem Team.pairResults_gbarIn (t : Team) (d : Opnd) (rs : List (Nat × DWord)) : (t.pairResults d rs).gbarIn = t.gbarIn := rfl
@[simp] theorem Team.pairResults_gbarOut (t : Team) (d : Opnd) (rs : List (Nat × DWord)) : (t.pairResults d rs).gbarOut = t.gbarOut := rfl
@[simp] theorem Team.pairResults_recorded (t : Team) (d : Opnd) (rs : List (Nat × DWord)) : (t.pairResults d rs).recorded = t.recorded := rfl
@[simp] theorem Team.pairResults_handler (t : Team) (d : Opnd) (rs : List (Nat × DWord)) : (t.pairResults d rs).handler = t.handler := rfl
@[simp] theorem Team.pairResults_stamp (t : Team) (d : Opnd) (rs : List (Nat × DWord)) : (t.pairResults d rs).stamp = t.stamp := rfl
@[simp] theorem Team.uniResult_block (t : Team) (d : Opnd) (x : DWord) : (t.uniResult d x).block = t.block := rfl
@[simp] theorem Team.uniResult_index (t : Team) (d : Opnd) (x : DWord) : (t.uniResult d x).index = t.index := rfl
@[simp] theorem Team.uniResult_quarter (t : Team) (d : Opnd) (x : DWord) : (t.uniResult d x).quarter = t.quarter := rfl
@[simp] theorem Team.uniResult_lanes (t : Team) (d : Opnd) (x : DWord) : (t.uniResult d x).lanes = t.lanes := rfl
@[simp] theorem Team.uniResult_vregs (t : Team) (d : Opnd) (x : DWord) : (t.uniResult d x).vregs = t.vregs := rfl
@[simp] theorem Team.uniResult_sregs (t : Team) (d : Opnd) (x : DWord) : (t.uniResult d x).sregs = t.sregs := rfl
@[simp] theorem Team.uniResult_spill (t : Team) (d : Opnd) (x : DWord) : (t.uniResult d x).spill = t.spill := rfl
@[simp] theorem Team.uniResult_priv (t : Team) (d : Opnd) (x : DWord) : (t.uniResult d x).priv = t.priv := rfl
@[simp] theorem Team.uniResult_cstack (t : Team) (d : Opnd) (x : DWord) : (t.uniResult d x).cstack = t.cstack := rfl
@[simp] theorem Team.uniResult_heap (t : Team) (d : Opnd) (x : DWord) : (t.uniResult d x).heap = t.heap := rfl
@[simp] theorem Team.uniResult_trail (t : Team) (d : Opnd) (x : DWord) : (t.uniResult d x).trail = t.trail := rfl
@[simp] theorem Team.uniResult_chpt (t : Team) (d : Opnd) (x : DWord) : (t.uniResult d x).chpt = t.chpt := rfl
@[simp] theorem Team.uniResult_tstride (t : Team) (d : Opnd) (x : DWord) : (t.uniResult d x).tstride = t.tstride := rfl
@[simp] theorem Team.uniResult_role (t : Team) (d : Opnd) (x : DWord) : (t.uniResult d x).role = t.role := rfl
@[simp] theorem Team.uniResult_st (t : Team) (d : Opnd) (x : DWord) : (t.uniResult d x).st = t.st := rfl
@[simp] theorem Team.uniResult_regs (t : Team) (d : Opnd) (x : DWord) : (t.uniResult d x).regs = t.regs.putUni d x := rfl
@[simp] theorem Team.uniResult_ctl (t : Team) (d : Opnd) (x : DWord) : (t.uniResult d x).ctl = t.ctl := rfl
@[simp] theorem Team.uniResult_fp (t : Team) (d : Opnd) (x : DWord) : (t.uniResult d x).fp = t.fp := rfl
@[simp] theorem Team.uniResult_term (t : Team) (d : Opnd) (x : DWord) : (t.uniResult d x).term = t.term := rfl
@[simp] theorem Team.uniResult_run (t : Team) (d : Opnd) (x : DWord) : (t.uniResult d x).run = t.run := rfl
@[simp] theorem Team.uniResult_reruns (t : Team) (d : Opnd) (x : DWord) : (t.uniResult d x).reruns = t.reruns := rfl
@[simp] theorem Team.uniResult_privMem (t : Team) (d : Opnd) (x : DWord) : (t.uniResult d x).privMem = t.privMem := rfl
@[simp] theorem Team.uniResult_slots (t : Team) (d : Opnd) (x : DWord) : (t.uniResult d x).slots = t.slots := rfl
@[simp] theorem Team.uniResult_slotPoison (t : Team) (d : Opnd) (x : DWord) : (t.uniResult d x).slotPoison = t.slotPoison := rfl
@[simp] theorem Team.uniResult_lease (t : Team) (d : Opnd) (x : DWord) : (t.uniResult d x).lease = t.lease := rfl
@[simp] theorem Team.uniResult_region (t : Team) (d : Opnd) (x : DWord) : (t.uniResult d x).region = t.region := rfl
@[simp] theorem Team.uniResult_causes (t : Team) (d : Opnd) (x : DWord) : (t.uniResult d x).causes = t.causes := rfl
@[simp] theorem Team.uniResult_arend (t : Team) (d : Opnd) (x : DWord) : (t.uniResult d x).arend = t.arend := rfl
@[simp] theorem Team.uniResult_count (t : Team) (d : Opnd) (x : DWord) : (t.uniResult d x).count = t.count := rfl
@[simp] theorem Team.uniResult_issued (t : Team) (d : Opnd) (x : DWord) : (t.uniResult d x).issued = t.issued := rfl
@[simp] theorem Team.uniResult_hold (t : Team) (d : Opnd) (x : DWord) : (t.uniResult d x).hold = t.hold := rfl
@[simp] theorem Team.uniResult_waitBar (t : Team) (d : Opnd) (x : DWord) : (t.uniResult d x).waitBar = t.waitBar := rfl
@[simp] theorem Team.uniResult_atomErr (t : Team) (d : Opnd) (x : DWord) : (t.uniResult d x).atomErr = t.atomErr := rfl
@[simp] theorem Team.uniResult_engErr (t : Team) (d : Opnd) (x : DWord) : (t.uniResult d x).engErr = t.engErr := rfl
@[simp] theorem Team.uniResult_gen (t : Team) (d : Opnd) (x : DWord) : (t.uniResult d x).gen = t.gen := rfl
@[simp] theorem Team.uniResult_precnt (t : Team) (d : Opnd) (x : DWord) : (t.uniResult d x).precnt = t.precnt := rfl
@[simp] theorem Team.uniResult_gbarIn (t : Team) (d : Opnd) (x : DWord) : (t.uniResult d x).gbarIn = t.gbarIn := rfl
@[simp] theorem Team.uniResult_gbarOut (t : Team) (d : Opnd) (x : DWord) : (t.uniResult d x).gbarOut = t.gbarOut := rfl
@[simp] theorem Team.uniResult_recorded (t : Team) (d : Opnd) (x : DWord) : (t.uniResult d x).recorded = t.recorded := rfl
@[simp] theorem Team.uniResult_handler (t : Team) (d : Opnd) (x : DWord) : (t.uniResult d x).handler = t.handler := rfl
@[simp] theorem Team.uniResult_stamp (t : Team) (d : Opnd) (x : DWord) : (t.uniResult d x).stamp = t.stamp := rfl

end Sys2Proof.Machine
end

