-- ==== Sys2Proof/Laws/Issue.lean ====
section
/-! SUPPORT. What issuing an instruction comes to: the gate of a ready team, the body that then runs, and how its effect
settles. -/

namespace Sys2Proof.Machine

/-! ### Pinning changes nothing but regions -/

theorem pinLane_eq (t : Team) (n : Nat) (os : List Opnd) : ∃ g, t.pinLane n os = { t with region := g } := by
  unfold Team.pinLane
  induction os generalizing t with
  | nil => exact ⟨_, rfl⟩
  | cons o r ih =>
    rw [List.foldl_cons]
    split
    · obtain ⟨g, h⟩ := ih (t.setRegion n _)
      exact ⟨g, h⟩
    · exact ih t

theorem pinLanes_eq (os : List Opnd) (ns : List Nat) : ∀ t : Team, ∃ g, t.pinLanes os ns = { t with region := g } := by
  induction ns with
  | nil => intro t; exact ⟨_, rfl⟩
  | cons n r ih =>
    intro t
    obtain ⟨g, h⟩ := pinLane_eq t n os
    obtain ⟨g', h'⟩ := ih (t.pinLane n os)
    exact ⟨g', by rw [Team.pinLanes, h', h]⟩

theorem pinned_eq (t : Team) (i : Instr) : ∃ g, t.pinned i = { t with region := g } := by
  unfold Team.pinned
  split
  · exact ⟨_, rfl⟩
  · exact pinLanes_eq _ _ _

/-! ### The gate -/

theorem mayIssue_of_free {s : State} {k : Nat} {t : Team} (h : Free s k t) (hr : t.st = .running) (hm : t.ctl.mask ≠ 0) :
    s.mayIssue k t = true := by
  obtain ⟨b, hb, hp⟩ := h.block
  have hm' : ¬t.ctl.mask = 0#1024 := hm
  simp [State.mayIssue, hr, hm', h.hold, h.arend, h.run, h.record, hb, hp]

/-- A ready team passes every check. -/
theorem gate_of_ready {s : State} {k : Nat} {t : Team} {i : Instr} (h : Ready s k t i) : s.gate k t i = .go := by
  have hc : regCheck t (usesOf i) (s.vtosWord t i) = .go := by
    have hf : ∀ e ∈ (((usesOf i).reads.filter (fun r => !(if t.ctl.resume.isSome then (usesOf i).writes else []).contains r.1)).map
        (fun r => (r.1.state t t.swept, r.2)) ++ (s.vtosWord t i).map (fun r => (r.1.state t [r.2.2], r.2.1))), e.1 = Flag.full := by
      intro e he
      rcases List.mem_append.mp he with he | he
      · obtain ⟨p, hp, rfl⟩ := List.mem_map.mp he
        obtain ⟨hp, hn⟩ := List.mem_filter.mp hp
        rcases h.reads p hp with hh | ⟨hr, hw⟩
        · exact hh
        · simp [hr, hw] at hn
      · obtain ⟨p, hp, rfl⟩ := List.mem_map.mp he
        exact h.lane p hp
    unfold regCheck
    have ha : (usesOf i).all.any (RegRef.beyond t) = false := by
      simpa [List.any_eq_false] using h.alloc
    simp only [ha, Bool.false_eq_true, if_false]
    generalize (((usesOf i).reads.filter (fun r => !(if t.ctl.resume.isSome then (usesOf i).writes else []).contains r.1)).map
        (fun r => (r.1.state t t.swept, r.2)) ++ (s.vtosWord t i).map (fun r => (r.1.state t [r.2.2], r.2.1))) = rd at hf
    have h1 : rd.any (fun r => r.1 == .poisoned) = false := by
      rw [List.any_eq_false]; intro e he; simp [hf e he]
    have h2 : rd.any (fun r => r.2 && r.1 == .empty) = false := by
      rw [List.any_eq_false]; intro e he; simp [hf e he]
    have h3 : rd.any (fun r => r.1 == .empty) = false := by
      rw [List.any_eq_false]; intro e he; simp [hf e he]
    have h4 : (usesOf i).writes.any (fun r => !(if t.ctl.resume.isSome then (usesOf i).writes else []).contains r &&
        r.anyEmpty t t.swept) = false := by
      rw [List.any_eq_false]
      intro r hr
      rcases h.writes r hr with hw | hw
      · simp [hw]
      · simp [hw, hr]
    simp only [h1, h2, h3, h4, Bool.false_eq_true, if_false, Bool.or_self]
    split <;> rfl
  simp [State.gate, mayIssue_of_free h.free h.running h.mask, h.place, hc]

/-- A ready team runs the instruction's own effect. -/
theorem issueTeam_of_ready {s : State} {k : Nat} {t : Team} {i : Instr} (h : Ready s k t i)
    (body : Nat → Team → State → Effect) :
    s.issueTeam k i body = s.settle k i (body k (t.pinned i) (s.setTeam k (t.pinned i))) := by
  have ha : ¬t.amask = 0#1024 := h.active
  simp [State.issueTeam, h.team, gate_of_ready h, ha]

theorem issue_of_ready {s : State} {k : Nat} {t : Team} {i : Instr} (h : Ready s k t i)
    (body : Nat → Team → State → Effect) :
    s.issue i body = s.settle k i (body k (t.pinned i) (s.setTeam k (t.pinned i))) := by
  rw [State.issue, h.cur]
  exact issueTeam_of_ready h body

theorem issueBoth_of_ready {s : State} {k : Nat} {t : Team} {i : Instr} (h : Ready s k t i)
    (body : Nat → Team → State → Effect) (str : Nat → Block → Stream → State → Effect) :
    s.issueBoth i body str = s.settle k i (body k (t.pinned i) (s.setTeam k (t.pinned i))) := by
  rw [State.issueBoth, h.cur]
  exact issueTeam_of_ready h body

/-- A ready stream runs the instruction's own effect. -/
theorem issueStream_of_ready {s : State} {b : Nat} {x : Block} {m : Stream} {i : Instr} (h : StreamReady s b x m i)
    (body : Nat → Block → Stream → State → Effect) :
    s.issueStream b i body = match body b x m s with
      | .done s' => .next (s'.advanceStream b i.size)
      | .jump s' => .next s'
      | .trap tr => .next (s.takeStreamTrap b i.size tr)
      | .wait => s.notReady := by
  simp [State.issueStream, h.block, h.stream, streamMayIssue, h.runs.1, h.runs.2, h.placed, h.steps, h.stands]
  all_goals rfl

theorem issueS_of_ready {s : State} {b : Nat} {x : Block} {m : Stream} {i : Instr} (h : StreamReady s b x m i)
    (body : Nat → Block → Stream → State → Effect) :
    s.issueS i body = match body b x m s with
      | .done s' => .next (s'.advanceStream b i.size)
      | .jump s' => .next s'
      | .trap tr => .next (s.takeStreamTrap b i.size tr)
      | .wait => s.notReady := by
  rw [State.issueS, h.cur]
  exact issueStream_of_ready h body

/-! ### Mask lanes -/

theorem active_nodup (t : Team) : t.active.Nodup := List.Nodup.filter _ List.nodup_range

theorem active_lt (t : Team) {n : Nat} (h : n ∈ t.active) : n < t.lanes := by
  simpa using (List.mem_filter.mp h).1

theorem active_bit (t : Team) {n : Nat} (h : n ∈ t.active) : t.amask.getLsbD n = true := by
  simpa using (List.mem_filter.mp h).2

/-! ### The team after its instruction -/

@[simp] theorem team?_setTeam (s : State) (k : Nat) (t : Team) : (s.setTeam k t).team? k = some t := by
  simp [State.team?, State.setTeam]

theorem team?_setTeam_ne (s : State) {k j : Nat} (t : Team) (h : j ≠ k) : (s.setTeam k t).team? j = s.team? j := by
  simp only [State.team?, State.setTeam]
  exact Table.get?_put_ne _ _ h

theorem team?_modTeam (s : State) (k : Nat) (f : Team → Team) : (s.modTeam k f).team? k = (s.team? k).map f := by
  simp only [State.team?, State.modTeam]
  exact Table.get?_mod_same _ _ _

theorem team?_modTeam_ne (s : State) {k j : Nat} (f : Team → Team) (h : j ≠ k) : (s.modTeam k f).team? j = s.team? j := by
  simp only [State.team?, State.modTeam]
  exact Table.get?_mod_ne _ _ h

theorem team?_advance (s : State) (k n : Nat) : (s.advance k n).team? k = (s.team? k).map (fun t => t.advance n) :=
  team?_modTeam s k _

theorem team?_advance_ne (s : State) {k j n : Nat} (h : j ≠ k) : (s.advance k n).team? j = s.team? j :=
  team?_modTeam_ne s _ h

end Sys2Proof.Machine
end

