-- ==== Sys2Proof/Laws/Regs.lean ====
section
/-! SUPPORT. What the registers read as after an instruction's results: lane results with their push, pairs, uniform results,
and the flags. -/

namespace Sys2Proof.Machine

/-! ### Keys -/

theorem laneKey_inj {i j n m : Nat} (hn : n < 512) (hm : m < 512) : laneKey i n = laneKey j m ↔ i = j ∧ n = m := by
  unfold laneKey
  omega

theorem flagKey_inj {v u w x : Nat} (hw : w < 32) (hx : x < 32) : flagKey v w = flagKey u x ↔ v = u ∧ w = x := by
  unfold flagKey
  omega

/-! ### One write -/

theorem word_setWord (r : Regs) (i n j m : Nat) (x : Word) (hn : n < 512) (hm : m < 512) :
    (r.setWord i n x).word j m = if j = i ∧ m = n then x else r.word j m := by
  simp only [Regs.word, Regs.setWord, Sparse.get_set, laneKey_inj hm hn]

@[simp] theorem word_setTag (r : Regs) (i n : Nat) (g : Option Tag) (j m : Nat) : (r.setTag i n g).word j m = r.word j m := rfl
@[simp] theorem word_setVflag (r : Regs) (v w : Nat) (f : Flag) (j m : Nat) : (r.setVflag v w f).word j m = r.word j m := rfl
@[simp] theorem word_setS (r : Regs) (n : Nat) (x : DWord) (j m : Nat) : (r.setS n x).word j m = r.word j m := rfl
@[simp] theorem word_setSflg (r : Regs) (n : Nat) (f : Flag) (j m : Nat) : (r.setSflg n f).word j m = r.word j m := rfl

theorem vflag_setVflag (r : Regs) (v w u x : Nat) (f : Flag) (hw : w < 32) (hx : x < 32) :
    (r.setVflag v w f).vflag u x = if u = v ∧ x = w then f else r.vflag u x := by
  simp only [Regs.vflag, Regs.setVflag, Sparse.get_set, flagKey_inj hx hw]

theorem s_setS (r : Regs) (n m : Nat) (x : DWord) : (r.setS n x).s m = if m = n then x else r.s m := by
  simp only [Regs.s, Regs.setS, Sparse.get_set]

theorem sflg_setSflg (r : Regs) (n m : Nat) (f : Flag) : (r.setSflg n f).sflg m = if m = n then f else r.sflg m := by
  simp only [Regs.sflg, Regs.setSflg, Sparse.get_set]

/-! ### Lane results (R36, R58) -/

/-- The number of the register a lane result goes to. -/
theorem destNum_lt {d : Opnd} {m : Nat} (h : destNum d = some m) : m < 512 ∧ ¬(256 ≤ m ∧ m < 260) := by
  cases d <;> simp [destNum] at h <;> omega

theorem word_putLane (r : Regs) (i : Nat) (d : Opnd) (x : Word) (g : Option Tag) (j m : Nat) (hm : m < 512) :
    (r.putLane i d x g).word j m = if j = i ∧ destNum d = some m then x else r.word j m := by
  cases d <;> simp [Regs.putLane, destNum]
  all_goals
    rw [word_setWord _ _ _ _ _ _ (by omega) hm]
    simp [eq_comm]

theorem word_push (r : Regs) (i : Nat) (x : Word) (g : Option Tag) (j m : Nat) (hm : m < 512) :
    (r.push i x g).word j m = if j = i ∧ 256 ≤ m ∧ m < 260 then (if m = 256 then x else r.word i (m - 1)) else r.word j m := by
  simp only [Regs.push, word_setTag]
  rw [word_setWord _ _ _ _ _ _ (by omega) hm]
  simp only [word_setTag]
  rw [word_setWord _ _ _ _ _ _ (by omega) hm, word_setWord _ _ _ _ _ _ (by omega) hm,
    word_setWord _ _ _ _ _ _ (by omega) hm]
  by_cases hj : j = i
  · subst hj
    rcases Nat.lt_or_ge m 256 with h | h
    · rw [if_neg (by omega), if_neg (by omega), if_neg (by omega), if_neg (by omega), if_neg (by omega)]
    · rcases Nat.lt_or_ge m 260 with h' | h'
      · rw [if_pos (c := j = j ∧ 256 ≤ m ∧ m < 260) ⟨rfl, h, h'⟩]
        have : m = 256 ∨ m = 257 ∨ m = 258 ∨ m = 259 := by omega
        rcases this with rfl | rfl | rfl | rfl <;> simp
      · rw [if_neg (by omega), if_neg (by omega), if_neg (by omega), if_neg (by omega), if_neg (by omega)]
  · simp [hj]

/-- The registers of a lane after its result. -/
theorem word_result (r : Regs) (i : Nat) (d : Opnd) (x : Word) (g : Option Tag) (j m : Nat) (hm : m < 512) :
    ((r.putLane i d x g).push i x g).word j m =
      if j = i then resultWord d x (r.word i) m else r.word j m := by
  rw [word_push _ _ _ _ _ _ hm]
  by_cases hj : j = i
  · subst hj
    simp only [true_and, if_true, resultWord]
    split
    · rename_i h
      split
      · rfl
      · rw [word_putLane _ _ _ _ _ _ _ (by omega)]
        have : destNum d ≠ some (m - 1) := fun e => absurd (destNum_lt e).2 (by omega)
        simp [this]
    · rw [word_putLane _ _ _ _ _ _ _ hm]
      simp
  · simp [hj, word_putLane _ _ _ _ _ _ _ hm]

theorem word_putResults_other (d : Opnd) (rs : List (Nat × Word × Option Tag)) : ∀ (r : Regs) (j m : Nat), m < 512 →
    j ∉ rs.map Prod.fst → (r.putResults d rs).word j m = r.word j m := by
  induction rs with
  | nil => intro r j m _ _; rfl
  | cons e rest ih =>
    intro r j m hm hj
    obtain ⟨i, x, g⟩ := e
    simp only [List.map_cons, List.mem_cons, not_or] at hj
    rw [Regs.putResults, ih _ _ _ hm hj.2, word_result _ _ _ _ _ _ _ hm, if_neg hj.1]

theorem word_putResults (d : Opnd) (rs : List (Nat × Word × Option Tag)) : ∀ (r : Regs) (j m : Nat) (x : Word) (g : Option Tag),
    m < 512 → (rs.map Prod.fst).Nodup → (j, x, g) ∈ rs →
    (r.putResults d rs).word j m = resultWord d x (r.word j) m := by
  induction rs with
  | nil => intro r j m x g _ _ h; cases h
  | cons e rest ih =>
    intro r j m x g hm hn hmem
    obtain ⟨i, y, k⟩ := e
    simp only [List.map_cons, List.nodup_cons] at hn
    rw [Regs.putResults]
    rcases List.mem_cons.mp hmem with h | h
    · obtain ⟨rfl, rfl, rfl⟩ := by simpa using h
      rw [word_putResults_other _ _ _ _ _ hm hn.1, word_result _ _ _ _ _ _ _ hm, if_pos rfl]
    · have hne : j ≠ i := fun e => hn.1 (e ▸ List.mem_map_of_mem (f := Prod.fst) h)
      rw [ih _ _ _ _ _ hm hn.2 h]
      unfold resultWord
      rw [word_result _ _ _ _ _ _ _ hm, if_neg hne]
      have : ∀ q, q < 512 → ((r.putLane i d y k).push i y k).word j q = r.word j q := by
        intro q hq
        rw [word_result _ _ _ _ _ _ _ hq, if_neg hne]
      split <;> [skip; rfl]
      split <;> [rfl; skip]
      exact this _ (by omega)

/-! ### Flags -/

theorem vflag_setVflags (v : Nat) (f : Flag) (ws : List Nat) : ∀ (r : Regs) (u x : Nat), (∀ w ∈ ws, w < 32) → x < 32 →
    (r.setVflags v f ws).vflag u x = if u = v ∧ x ∈ ws then f else r.vflag u x := by
  induction ws with
  | nil => intro r u x _ _; simp [Regs.setVflags]
  | cons w rest ih =>
    intro r u x h hx
    rw [Regs.setVflags, ih _ _ _ (fun y hy => h y (List.mem_cons_of_mem _ hy)) hx,
      vflag_setVflag _ _ _ _ _ _ (h w (List.mem_cons_self ..)) hx]
    by_cases h1 : u = v <;> by_cases h2 : x ∈ rest <;> by_cases h3 : x = w <;> simp [h1, h2, h3]

@[simp] theorem lane_setVflags (v : Nat) (f : Flag) (ws : List Nat) : ∀ r : Regs, (r.setVflags v f ws).lane = r.lane := by
  induction ws with
  | nil => intro r; rfl
  | cons w rest ih => intro r; rw [Regs.setVflags, ih]; rfl

@[simp] theorem word_setVflags (r : Regs) (v : Nat) (f : Flag) (ws : List Nat) (j m : Nat) :
    (r.setVflags v f ws).word j m = r.word j m := by
  simp only [Regs.word, lane_setVflags]

@[simp] theorem setVflags_rest (v : Nat) (f : Flag) (ws : List Nat) : ∀ r : Regs,
    (r.setVflags v f ws).sreg = r.sreg ∧ (r.setVflags v f ws).sflag = r.sflag ∧ (r.setVflags v f ws).h = r.h := by
  induction ws with
  | nil => intro r; exact ⟨rfl, rfl, rfl⟩
  | cons w rest ih => intro r; rw [Regs.setVflags]; exact ih _

theorem putLane_rest (r : Regs) (i : Nat) (d : Opnd) (x : Word) (g : Option Tag) :
    (r.putLane i d x g).flag = r.flag ∧ (r.putLane i d x g).sreg = r.sreg ∧ (r.putLane i d x g).sflag = r.sflag ∧
      (r.putLane i d x g).h = r.h := by
  cases d <;> exact ⟨rfl, rfl, rfl, rfl⟩

theorem putResults_rest (d : Opnd) (rs : List (Nat × Word × Option Tag)) : ∀ r : Regs,
    (r.putResults d rs).flag = r.flag ∧ (r.putResults d rs).sreg = r.sreg ∧ (r.putResults d rs).sflag = r.sflag ∧
      (r.putResults d rs).h = r.h := by
  induction rs with
  | nil => intro r; exact ⟨rfl, rfl, rfl, rfl⟩
  | cons e rest ih =>
    intro r
    obtain ⟨i, x, g⟩ := e
    rw [Regs.putResults]
    obtain ⟨h1, h2, h3, h4⟩ := ih ((r.putLane i d x g).push i x g)
    obtain ⟨p1, p2, p3, p4⟩ := putLane_rest r i d x g
    exact ⟨h1.trans p1, h2.trans p2, h3.trans p3, h4.trans p4⟩

theorem swept_lt (t : Team) : ∀ w ∈ t.swept, w < 32 := by
  intro w h
  simpa using (List.mem_filter.mp h).1

end Sys2Proof.Machine
end

