-- ==== Sys2Proof/Laws/Lane.lean ====
section
/-! SUPPORT. What the shared bodies of lane, pair, uniform and float instructions come to when a ready team issues them. -/

namespace Sys2Proof.Machine

@[simp] theorem pinned_amask (t : Team) (i : Instr) : (t.pinned i).amask = t.amask := by
  obtain ⟨g, h⟩ := pinned_eq t i
  rw [h]; rfl

@[simp] theorem pinned_active (t : Team) (i : Instr) : (t.pinned i).active = t.active := by
  obtain ⟨g, h⟩ := pinned_eq t i
  rw [h]; rfl

@[simp] theorem pinned_regs (t : Team) (i : Instr) : (t.pinned i).regs = t.regs := by
  obtain ⟨g, h⟩ := pinned_eq t i
  rw [h]

@[simp] theorem pinned_fp (t : Team) (i : Instr) : (t.pinned i).fp = t.fp := by
  obtain ⟨g, h⟩ := pinned_eq t i
  rw [h]

@[simp] theorem pinned_ctl (t : Team) (i : Instr) : (t.pinned i).ctl = t.ctl := by
  obtain ⟨g, h⟩ := pinned_eq t i
  rw [h]

theorem fillLane_word (r : Regs) (d : Opnd) (c : Nat) (ws : List Nat) (j m : Nat) :
    (r.fillLane d c ws).word j m = r.word j m := by
  unfold Regs.fillLane
  split
  · generalize List.range c = l
    induction l generalizing r with
    | nil => rfl
    | cons x xs ih => rw [List.foldl_cons, ih, word_setVflags]
  · rfl

theorem fillLane_rest (r : Regs) (d : Opnd) (c : Nat) (ws : List Nat) :
    (r.fillLane d c ws).sreg = r.sreg ∧ (r.fillLane d c ws).sflag = r.sflag ∧ (r.fillLane d c ws).h = r.h := by
  unfold Regs.fillLane
  split
  · generalize List.range c = l
    induction l generalizing r with
    | nil => exact ⟨rfl, rfl, rfl⟩
    | cons x xs ih =>
      rename_i n
      rw [List.foldl_cons]
      obtain ⟨h1, h2, h3⟩ := ih (r.setVflags (n + x) .full ws)
      obtain ⟨p1, p2, p3⟩ := setVflags_rest (n + x) .full ws r
      exact ⟨h1.trans p1, h2.trans p2, h3.trans p3⟩
  · exact ⟨rfl, rfl, rfl⟩

theorem fillLane_vflag (n : Fin 256) (c : Nat) (ws : List Nat) (hws : ∀ w ∈ ws, w < 32) (u x : Nat) (hx : x < 32) (r : Regs) :
    (r.fillLane (.v n) c ws).vflag u x = if n.val ≤ u ∧ u < n.val + c ∧ x ∈ ws then Flag.full else r.vflag u x := by
  unfold Regs.fillLane
  simp only
  have key : ∀ (l : List Nat) (r : Regs), (l.foldl (fun r j => r.setVflags (n + j) .full ws) r).vflag u x =
      if (∃ j ∈ l, u = n.val + j) ∧ x ∈ ws then Flag.full else r.vflag u x := by
    intro l
    induction l with
    | nil => intro r; simp
    | cons y ys ih =>
      intro r
      rw [List.foldl_cons, ih, vflag_setVflags _ _ _ _ _ _ hws hx]
      by_cases h1 : x ∈ ws <;> by_cases h2 : u = n.val + y <;> by_cases h3 : ∃ j ∈ ys, u = n.val + j <;> simp [h1, h2, h3]
  rw [key]
  have : (∃ j ∈ List.range c, u = n.val + j) ↔ (n.val ≤ u ∧ u < n.val + c) := by
    constructor
    · rintro ⟨j, hj, rfl⟩
      have := List.mem_range.mp hj
      omega
    · rintro ⟨h1, h2⟩
      exact ⟨u - n.val, List.mem_range.mpr (by omega), by omega⟩
  simp only [this, and_assoc]

/-! ### One team written, and moved on -/

theorem onlyTeam_advance {s s1 : State} {k n : Nat} (h : OnlyTeam s s1 k) : OnlyTeam s (s1.advance k n) k := by
  obtain ⟨h1, h2⟩ := h
  refine ⟨?_, fun j hj => (team?_advance_ne _ hj).trans (h2 j hj)⟩
  rw [h1]
  rfl

theorem onlyTeam_setTeam (s : State) (k : Nat) (t : Team) : OnlyTeam s (s.setTeam k t) k :=
  ⟨rfl, fun _ hj => team?_setTeam_ne _ _ hj⟩

theorem onlyTeam_trans {s s1 s2 : State} {k : Nat} (h : OnlyTeam s s1 k) (h' : OnlyTeam s1 s2 k) : OnlyTeam s s2 k := by
  refine ⟨?_, fun j hj => (h'.2 j hj).trans (h.2 j hj)⟩
  rw [h'.1, h.1]

theorem sameMemory_of_only {s t : State} {k : Nat} (h : OnlyTeam s t k) : SameMemory s t := by
  rw [h.1]
  exact ⟨fun _ => rfl, fun _ => rfl, fun _ => rfl⟩

theorem advance_setTeam (s : State) (k n : Nat) (t : Team) :
    ((s.setTeam k t).advance k n).team? k = some (t.advance n) := by
  rw [team?_advance, team?_setTeam]
  rfl

theorem filledLane_of (T T' : Team) (d : Opnd) (c : Nat) (r : Regs) (hr : r.flag = T.regs.flag)
    (h : T'.regs = r.fillLane d c T.swept) : FilledLane T T' d c := by
  intro v w hw
  have hv : ∀ v w, r.vflag v w = T.regs.vflag v w := fun v w => by simp only [Regs.vflag, hr]
  rw [h]
  cases d with
  | v n => simp only [fillLane_vflag n c _ (swept_lt T) v w hw, hv]
  | _ => simp only [Regs.fillLane]; exact hv v w

/-- A lane result body leaves what `LaneDone` says. -/
theorem laneDone_of (s : State) (k : Nat) (T U0 U : Team) (i : Instr) (d : Opnd) (val : Nat → Word) (tag : Nat → Option Tag)
    (hU : ∃ g p, U = { T with region := g, fp := p }) :
    LaneDone s k T i d val
      (((s.setTeam k U0).setTeam k (U.laneResults d (T.active.map (fun n => (n, val n, tag n))))).advance k i.size)
      ((U.laneResults d (T.active.map (fun n => (n, val n, tag n)))).advance i.size) := by
  obtain ⟨g, p, rfl⟩ := hU
  have hmap : (T.active.map (fun n => (n, val n, tag n))).map Prod.fst = T.active := by
    rw [List.map_map]
    exact List.map_id _
  obtain ⟨f1, f2, f3, f4⟩ := putResults_rest d (T.active.map (fun n => (n, val n, tag n))) T.regs
  obtain ⟨g1, g2, g3⟩ := fillLane_rest (T.regs.putResults d (T.active.map (fun n => (n, val n, tag n)))) d 1 T.swept
  have ho : OnlyTeam s (((s.setTeam k U0).setTeam k (Team.laneResults { T with region := g, fp := p } d
      (T.active.map (fun n => (n, val n, tag n))))).advance k i.size) k :=
    onlyTeam_advance (onlyTeam_trans (onlyTeam_setTeam s k U0) (onlyTeam_setTeam _ k _))
  refine ⟨advance_setTeam _ _ _ _, rfl, ?_, ?_, filledLane_of _ _ d 1 _ f1 rfl, ⟨g1.trans f2, g2.trans f3, g3.trans f4⟩, rfl,
    ho, sameMemory_of_only ho⟩
  · intro n hn m hm
    simp only [Team.advance_regs, Team.laneResults_regs, fillLane_word]
    exact word_putResults d _ _ _ _ _ (tag n) hm (by rw [hmap]; exact active_nodup T) (List.mem_map_of_mem (f := fun n => (n, val n, tag n)) hn)
  · intro n hn m hm
    simp only [Team.advance_regs, Team.laneResults_regs, fillLane_word]
    exact word_putResults_other d _ _ _ _ hm (by rw [hmap]; exact hn)

/-! ### Pairs and uniform results -/

theorem word_putPair (r : Regs) (i : Nat) (d : Opnd) (x : DWord) (j m : Nat) (hm : m < 512) :
    (r.putPair i d x).word j m = if j = i then pairWord d x (r.word i) m else r.word j m := by
  cases d <;> simp [Regs.putPair, pairWord] <;> try (intro h; rw [h])
  rename_i n
  have := n.isLt
  rw [word_setWord _ _ _ _ _ _ (by omega) hm, word_setWord _ _ _ _ _ _ (by omega) hm]
  by_cases hj : j = i
  · subst hj
    by_cases h1 : m = n.val + 1
    · simp [h1]
    · simp [h1]
  · simp [hj]

theorem word_putPairs_other (d : Opnd) (rs : List (Nat × DWord)) : ∀ (r : Regs) (j m : Nat), m < 512 →
    j ∉ rs.map Prod.fst → (r.putPairs d rs).word j m = r.word j m := by
  induction rs with
  | nil => intro r j m _ _; rfl
  | cons e rest ih =>
    intro r j m hm hj
    obtain ⟨i, x⟩ := e
    simp only [List.map_cons, List.mem_cons, not_or] at hj
    rw [Regs.putPairs, ih _ _ _ hm hj.2, word_putPair _ _ _ _ _ _ hm, if_neg hj.1]

theorem pairWord_congr (d : Opnd) (x : DWord) (f g : Nat → Word) (m : Nat) (h : f m = g m) : pairWord d x f m = pairWord d x g m := by
  cases d <;> simp only [pairWord, h]

theorem word_putPairs (d : Opnd) (rs : List (Nat × DWord)) : ∀ (r : Regs) (j m : Nat) (x : DWord),
    m < 512 → (rs.map Prod.fst).Nodup → (j, x) ∈ rs → (r.putPairs d rs).word j m = pairWord d x (r.word j) m := by
  induction rs with
  | nil => intro r j m x _ _ h; cases h
  | cons e rest ih =>
    intro r j m x hm hn hmem
    obtain ⟨i, y⟩ := e
    simp only [List.map_cons, List.nodup_cons] at hn
    rw [Regs.putPairs]
    rcases List.mem_cons.mp hmem with h | h
    · obtain ⟨rfl, rfl⟩ := by simpa using h
      rw [word_putPairs_other _ _ _ _ _ hm hn.1, word_putPair _ _ _ _ _ _ hm, if_pos rfl]
    · have hne : j ≠ i := fun e => hn.1 (e ▸ List.mem_map_of_mem (f := Prod.fst) h)
      rw [ih _ _ _ _ hm hn.2 h]
      exact pairWord_congr _ _ _ _ _ (by rw [word_putPair _ _ _ _ _ _ hm, if_neg hne])

theorem putPairs_rest (d : Opnd) (rs : List (Nat × DWord)) : ∀ r : Regs,
    (r.putPairs d rs).flag = r.flag ∧ (r.putPairs d rs).sreg = r.sreg ∧ (r.putPairs d rs).sflag = r.sflag ∧
      (r.putPairs d rs).h = r.h := by
  induction rs with
  | nil => intro r; exact ⟨rfl, rfl, rfl, rfl⟩
  | cons e rest ih =>
    intro r
    obtain ⟨i, x⟩ := e
    rw [Regs.putPairs]
    obtain ⟨h1, h2, h3, h4⟩ := ih (r.putPair i d x)
    have : (r.putPair i d x).flag = r.flag ∧ (r.putPair i d x).sreg = r.sreg ∧ (r.putPair i d x).sflag = r.sflag ∧
        (r.putPair i d x).h = r.h := by cases d <;> exact ⟨rfl, rfl, rfl, rfl⟩
    exact ⟨h1.trans this.1, h2.trans this.2.1, h3.trans this.2.2.1, h4.trans this.2.2.2⟩

theorem pairDone_of (s : State) (k : Nat) (T U0 U : Team) (i : Instr) (d : Opnd) (val : Nat → DWord)
    (hU : ∃ g, U = { T with region := g }) :
    PairDone s k T i d val
      (((s.setTeam k U0).setTeam k (U.pairResults d (T.active.map (fun n => (n, val n))))).advance k i.size)
      ((U.pairResults d (T.active.map (fun n => (n, val n)))).advance i.size) := by
  obtain ⟨g, rfl⟩ := hU
  have hmap : (T.active.map (fun n => (n, val n))).map Prod.fst = T.active := by
    rw [List.map_map]
    exact List.map_id _
  obtain ⟨f1, f2, f3, f4⟩ := putPairs_rest d (T.active.map (fun n => (n, val n))) T.regs
  obtain ⟨g1, g2, g3⟩ := fillLane_rest (T.regs.putPairs d (T.active.map (fun n => (n, val n)))) d 2 T.swept
  have ho : OnlyTeam s (((s.setTeam k U0).setTeam k (Team.pairResults { T with region := g } d
      (T.active.map (fun n => (n, val n))))).advance k i.size) k :=
    onlyTeam_advance (onlyTeam_trans (onlyTeam_setTeam s k U0) (onlyTeam_setTeam _ k _))
  refine ⟨advance_setTeam _ _ _ _, rfl, ?_, ?_, filledLane_of _ _ d 2 _ f1 rfl, ⟨g1.trans f2, g2.trans f3, g3.trans f4⟩, rfl,
    ho, sameMemory_of_only ho⟩
  · intro n hn m hm
    simp only [Team.advance_regs, Team.pairResults_regs, fillLane_word]
    exact word_putPairs d _ _ _ _ _ hm (by rw [hmap]; exact active_nodup T) (List.mem_map_of_mem (f := fun n => (n, val n)) hn)
  · intro n hn m hm
    simp only [Team.advance_regs, Team.pairResults_regs, fillLane_word]
    exact word_putPairs_other d _ _ _ _ hm (by rw [hmap]; exact hn)

theorem uniDone_of (s : State) (k : Nat) (T U0 U : Team) (i : Instr) (d : Opnd) (x : DWord)
    (hU : ∃ g, U = { T with region := g }) :
    UniDone s k T i d x (((s.setTeam k U0).setTeam k (U.uniResult d x)).advance k i.size)
      ((U.uniResult d x).advance i.size) := by
  obtain ⟨g, rfl⟩ := hU
  have ho : OnlyTeam s (((s.setTeam k U0).setTeam k (Team.uniResult { T with region := g } d x)).advance k i.size) k :=
    onlyTeam_advance (onlyTeam_trans (onlyTeam_setTeam s k U0) (onlyTeam_setTeam _ k _))
  refine ⟨advance_setTeam _ _ _ _, rfl, ?_, ?_, ?_, rfl, ho, sameMemory_of_only ho⟩
  · intro m
    cases d <;> simp [Regs.putUni, Opnd.sNum]
    rename_i n
    have := s_setS T.regs n.val m x
    simp only [Regs.s, Regs.setSflg, Regs.setS] at this ⊢
    rw [this]
    simp [eq_comm]
  · intro m
    cases d <;> simp [Regs.putUni, Opnd.sNum]
    rename_i n
    rw [sflg_setSflg]
    simp only [Regs.sflg, Regs.setS]
    simp [eq_comm]
  · cases d <;> exact ⟨rfl, rfl, rfl, rfl⟩

/-! ### Operands do not see pinning, nor the table of teams -/

@[simp] theorem special_pinned (s : State) (k : Nat) (U t : Team) (i : Instr) (n : Nat) (o : Opnd) :
    (s.setTeam k U).special (t.pinned i) n o = s.special t n o := by
  obtain ⟨g, h⟩ := pinned_eq t i
  rw [h]
  cases o <;> rfl

@[simp] theorem word_pinned (s : State) (k : Nat) (U t : Team) (i : Instr) (n : Nat) (o : Opnd) :
    (s.setTeam k U).word (t.pinned i) n o = s.word t n o := by
  obtain ⟨g, h⟩ := pinned_eq t i
  rw [h]
  cases o <;> rfl

@[simp] theorem dword_pinned (s : State) (k : Nat) (U t : Team) (i : Instr) (n : Nat) (o : Opnd) :
    (s.setTeam k U).dword (t.pinned i) n o = s.dword t n o := by
  obtain ⟨g, h⟩ := pinned_eq t i
  rw [h]
  cases o <;> rfl

@[simp] theorem uni_pinned (s : State) (k : Nat) (U t : Team) (i : Instr) (o : Opnd) :
    (s.setTeam k U).uni (t.pinned i) o = s.uni t o := by
  obtain ⟨g, h⟩ := pinned_eq t i
  rw [h]
  cases o <;> rfl

/-! ### The shapes, issued by a ready team -/

/-- A lane result body. -/
theorem laneBody_done {s : State} {k : Nat} {T : Team} {i : Instr} (h : Ready s k T i) (d : Opnd)
    (body : Nat → Team → State → Effect) (val : Nat → Word)
    (hb : body k (T.pinned i) (s.setTeam k (T.pinned i)) = laneBody d val k (T.pinned i) (s.setTeam k (T.pinned i))) :
    ∃ t T', s.issue i body = .next t ∧ LaneDone s k T i d val t T' := by
  refine ⟨_, _, ?_, laneDone_of s k T (T.pinned i) (T.pinned i) i d val (fun _ => none) ?_⟩
  · rw [issue_of_ready h, hb]
    simp [laneBody, State.settle]
  · obtain ⟨g, hg⟩ := pinned_eq T i
    exact ⟨g, T.fp, hg⟩

theorem lane1_done {s : State} {k : Nat} {T : Team} {i : Instr} (h : Ready s k T i) (f : DA) (g : Word → Word) :
    ∃ t T', lane1 i f g s = .next t ∧ LaneDone s k T i f.d (fun n => g (s.word T n f.a.op)) t T' :=
  laneBody_done h f.d _ _ (by simp)

theorem lane2_done {s : State} {k : Nat} {T : Team} {i : Instr} (h : Ready s k T i) (f : DAB) (g : Word → Word → Word) :
    ∃ t T', lane2 i f g s = .next t ∧ LaneDone s k T i f.d (fun n => g (s.word T n f.a.op) (s.word T n f.b.op)) t T' :=
  laneBody_done h f.d _ _ (by simp)

theorem lane3_done {s : State} {k : Nat} {T : Team} {i : Instr} (h : Ready s k T i) (f : DABC)
    (g : Word → Word → Word → Word) :
    ∃ t T', lane3 i f g s = .next t ∧
      LaneDone s k T i f.d (fun n => g (s.word T n f.a.op) (s.word T n f.b.op) (s.word T n f.c.op)) t T' :=
  laneBody_done h f.d _ _ (by simp)

/-- A lane result body whose results may carry tags. -/
theorem tagBody_done {s : State} {k : Nat} {T : Team} {i : Instr} (h : Ready s k T i) (d : Opnd) (os : List Opnd)
    (body : Nat → Team → State → Effect) (val : Nat → Word) (tag : Nat → Option Tag)
    (hb : body k (T.pinned i) (s.setTeam k (T.pinned i)) =
      tagBody d os val tag k (T.pinned i) (s.setTeam k (T.pinned i))) :
    ∃ t T', s.issue i body = .next t ∧ LaneDone s k T i d val t T' := by
  refine ⟨_, _, ?_, laneDone_of s k T (T.pinned i) ((T.pinned i).pinLanes os (T.active.filter (fun n => (tag n).isNone)))
    i d val tag ?_⟩
  · rw [issue_of_ready h, hb]
    simp [tagBody, State.settle]
  · obtain ⟨g, hg⟩ := pinned_eq T i
    obtain ⟨g', hg'⟩ := pinLanes_eq os (T.active.filter (fun n => (tag n).isNone)) (T.pinned i)
    exact ⟨g', T.fp, by rw [hg', hg]⟩

theorem lane2Tagged_done {s : State} {k : Nat} {T : Team} {i : Instr} (h : Ready s k T i) (f : DAB) (g : Word → Word → Word)
    (q : Option Tag → Option Tag → Word → Word → Option Tag) :
    ∃ t T', lane2Tagged i f g q s = .next t ∧
      LaneDone s k T i f.d (fun n => g (s.word T n f.a.op) (s.word T n f.b.op)) t T' :=
  tagBody_done h f.d [f.a.op, f.b.op] _ _
    (fun n => q ((T.pinned i).tagOf n f.a.op) ((T.pinned i).tagOf n f.b.op) (s.word T n f.a.op) (s.word T n f.b.op))
    (by simp)

/-- Lane movement. -/
theorem moveBody_done {s : State} {k : Nat} {T : Team} {i : Instr} (h : Ready s k T i) (f : DAB)
    (body : Nat → Team → State → Effect) (src : Nat → Nat)
    (hb : body k (T.pinned i) (s.setTeam k (T.pinned i)) = moveBody f src k (T.pinned i) (s.setTeam k (T.pinned i))) :
    ∃ t T', s.issue i body = .next t ∧ LaneDone s k T i f.d (fun n => s.word T (src n) f.a.op) t T' := by
  refine ⟨_, _, ?_, laneDone_of s k T (T.pinned i)
    (((T.pinned i).pinLanes [f.b.op] T.active).pinLanes [f.a.op] (T.active.map src)) i f.d _ (fun _ => none) ?_⟩
  · rw [issue_of_ready h, hb]
    simp [moveBody, State.settle]
  · obtain ⟨g, hg⟩ := pinned_eq T i
    obtain ⟨g1, hg1⟩ := pinLanes_eq [f.b.op] T.active (T.pinned i)
    obtain ⟨g2, hg2⟩ := pinLanes_eq [f.a.op] (T.active.map src) ((T.pinned i).pinLanes [f.b.op] T.active)
    exact ⟨g2, T.fp, by rw [hg2, hg1, hg]⟩

/-- A uniform result body, of a team whose inputs may be pinned. -/
theorem uniResult_done {s : State} {k : Nat} {T : Team} {i : Instr} (h : Ready s k T i) (d : Opnd) (x : DWord)
    (body : Nat → Team → State → Effect) (U : Team) (hU : ∃ g, U = { T with region := g })
    (hb : body k (T.pinned i) (s.setTeam k (T.pinned i)) =
      .done ((s.setTeam k (T.pinned i)).setTeam k (U.uniResult d x))) :
    ∃ t T', s.issue i body = .next t ∧ UniDone s k T i d x t T' := by
  refine ⟨_, _, ?_, uniDone_of s k T (T.pinned i) U i d x hU⟩
  rw [issue_of_ready h, hb]
  rfl

theorem uni1_done {s : State} {k : Nat} {T : Team} {i : Instr} (h : Ready s k T i) (f : DA) (g : DWord → DWord) :
    ∃ t T', uni1 i f g s = .next t ∧ UniDone s k T i f.d (g (s.uni T f.a.op)) t T' :=
  uniResult_done h f.d _ _ (T.pinned i) (pinned_eq T i) (by simp [uniBody])

theorem uni2_done {s : State} {k : Nat} {T : Team} {i : Instr} (h : Ready s k T i) (f : DAB) (g : DWord → DWord → DWord) :
    ∃ t T', uni2 i f g s = .next t ∧ UniDone s k T i f.d (g (s.uni T f.a.op) (s.uni T f.b.op)) t T' :=
  uniResult_done h f.d _ _ (T.pinned i) (pinned_eq T i) (by simp [uniBody])

end Sys2Proof.Machine
end

