-- ==== Sys2Proof/Laws/Float.lean ====
section
/-! SUPPORT. What the shared body of the float instructions comes to: it traps on an enabled cause, and else writes its results
and raises the flags of its causes. -/

namespace Sys2Proof.Machine

theorem or_assoc_flags (a b c : FFlags) : (a.or b).or c = a.or (b.or c) := by
  simp [FFlags.or, Bool.or_assoc]

theorem foldl_or (l : List (Nat × FFlags)) : ∀ a : FFlags, l.foldl (fun (a : FFlags) e => a.or e.2) a =
    { iv := a.iv || l.any (fun e => e.2.iv), dz := a.dz || l.any (fun e => e.2.dz), of := a.of || l.any (fun e => e.2.of)
      uf := a.uf || l.any (fun e => e.2.uf), nx := a.nx || l.any (fun e => e.2.nx) } := by
  induction l with
  | nil => intro a; simp
  | cons e r ih => intro a; rw [List.foldl_cons, ih]; simp [FFlags.or, Bool.or_assoc]

theorem bits_getLsbD (f : FFlags) : f.bits.getLsbD 0 = f.iv ∧ f.bits.getLsbD 1 = f.dz ∧ f.bits.getLsbD 2 = f.of ∧
    f.bits.getLsbD 3 = f.uf ∧ f.bits.getLsbD 4 = f.nx := by
  rcases f with ⟨a, b, c, d, e⟩
  cases a <;> cases b <;> cases c <;> cases d <;> cases e <;> decide

/-- The float trap is absent exactly where no enabled cause arose. -/
theorem floatTrap_none (en : BitVec 4) (l : List (Nat × FFlags))
    (h0 : en.getLsbD 0 = true → l.any (fun e => e.2.iv) = false) (h1 : en.getLsbD 1 = true → l.any (fun e => e.2.dz) = false)
    (h2 : en.getLsbD 2 = true → l.any (fun e => e.2.of) = false) (h3 : en.getLsbD 3 = true → l.any (fun e => e.2.uf) = false) :
    floatTrap en l = none := by
  unfold floatTrap
  rw [if_neg, if_neg, if_neg, if_neg]
  · intro h; rw [Bool.and_eq_true] at h; exact absurd h.2 (by rw [h3 h.1]; decide)
  · intro h; rw [Bool.and_eq_true] at h; exact absurd h.2 (by rw [h2 h.1]; decide)
  · intro h; rw [Bool.and_eq_true] at h; exact absurd h.2 (by rw [h1 h.1]; decide)
  · intro h; rw [Bool.and_eq_true] at h; exact absurd h.2 (by rw [h0 h.1]; decide)

/-- A float body of a ready team with no enabled cause. -/
theorem floatBody_done {s : State} {k : Nat} {T : Team} {i : Instr} (h : Ready s k T i) (d : Opnd)
    (body : Nat → Team → State → Effect) (g : Nat → Word × FFlags)
    (hb : body k (T.pinned i) (s.setTeam k (T.pinned i)) = floatBody d g k (T.pinned i) (s.setTeam k (T.pinned i)))
    (hq : floatTrap T.fp.enables (T.active.map (fun n => (n, (g n).2))) = none) :
    ∃ t T', s.issue i body = .next t ∧ LaneDone s k T i d (fun n => (g n).1) t T' ∧
      T'.fp = T.fp.raise (T.active.map (fun n => (n, (g n).2))) := by
  obtain ⟨q, hg⟩ := pinned_eq T i
  refine ⟨_, _, ?_, laneDone_of s k T (T.pinned i)
    { T with region := q, fp := T.fp.raise (T.active.map (fun n => (n, (g n).2))) } i d _ (fun _ => none) ⟨_, _, rfl⟩, rfl⟩
  have e1 : ((T.pinned i).active.map (fun n => (n, g n))).map (fun r => (r.1, r.2.2)) = T.active.map (fun n => (n, (g n).2)) := by
    simp
  have e2 : ((T.pinned i).active.map (fun n => (n, g n))).map (fun r => (r.1, r.2.1, (none : Option Tag))) =
      T.active.map (fun n => (n, (g n).1, none)) := by simp
  have e : floatBody d g k (T.pinned i) (s.setTeam k (T.pinned i)) = .done ((s.setTeam k (T.pinned i)).setTeam k
      { (T.pinned i).laneResults d (T.active.map (fun n => (n, (g n).1, none))) with
        fp := T.fp.raise (T.active.map (fun n => (n, (g n).2))) }) := by
    unfold floatBody
    dsimp only
    rw [e1, e2, pinned_fp, hq, Team.laneResults_fp, pinned_fp]
  rw [issue_of_ready h, hb, e, hg]
  rfl

end Sys2Proof.Machine
end

