-- ==== Sys2Proof/Laws/Trap.lean ====
section
/-! SUPPORT. What raising a trap, ending a grid, parking an element and adding a request can change: no memory, and of a team
only where it stands, its regions and nothing else. -/

namespace Sys2Proof.Machine

/-- Memories and their poison are the same, and every team is the same but for where it stands and its regions. -/
structure Kept (s t : State) : Prop where
  dram : t.dram = s.dram
  host : t.host = s.host
  spm : t.spm = s.spm
  poison : t.dramPoison = s.dramPoison ∧ t.spmPoison = s.spmPoison
  team : ∀ j T, s.team? j = some T → ∃ st g, t.team? j = some { T with st := st, region := g }

theorem Kept.refl (s : State) : Kept s s := ⟨rfl, rfl, rfl, ⟨rfl, rfl⟩, fun _ T h => ⟨T.st, T.region, h⟩⟩

theorem Kept.trans {s t u : State} (h : Kept s t) (h' : Kept t u) : Kept s u := by
  refine ⟨h'.dram.trans h.dram, h'.host.trans h.host, h'.spm.trans h.spm,
    ⟨h'.poison.1.trans h.poison.1, h'.poison.2.trans h.poison.2⟩, ?_⟩
  intro j T hT
  obtain ⟨st, g, e⟩ := h.team j T hT
  obtain ⟨st', g', e'⟩ := h'.team j _ e
  exact ⟨st', g', e'⟩

theorem Kept.memory {s t : State} (h : Kept s t) : SameMemory s t := by
  refine ⟨fun a => ?_, fun a => ?_, fun a => ?_⟩
  · rw [h.dram]
  · rw [h.host]
  · rw [h.spm]

/-- A change that leaves memories and teams alone. -/
theorem Kept.of_eq {s t : State} (h1 : t.dram = s.dram) (h2 : t.host = s.host) (h3 : t.spm = s.spm)
    (h4 : t.dramPoison = s.dramPoison) (h5 : t.spmPoison = s.spmPoison) (h6 : t.teams = s.teams) : Kept s t :=
  ⟨h1, h2, h3, ⟨h4, h5⟩, fun j T h => ⟨T.st, T.region, by simpa [State.team?, h6] using h⟩⟩

/-- A team changed in where it stands and its regions. -/
theorem kept_modTeam (s : State) (k : Nat) (f : Team → Team) (hf : ∀ T, ∃ st g, f T = { T with st := st, region := g }) :
    Kept s (s.modTeam k f) := by
  refine ⟨rfl, rfl, rfl, ⟨rfl, rfl⟩, ?_⟩
  intro j T h
  by_cases hj : j = k
  · subst hj
    rw [team?_modTeam, h]
    obtain ⟨st, g, e⟩ := hf T
    exact ⟨st, g, by rw [Option.map_some, e]⟩
  · rw [team?_modTeam_ne _ _ hj]
    exact ⟨T.st, T.region, h⟩

theorem kept_setTeam (s : State) (k : Nat) (T U : Team) (hT : s.team? k = some T)
    (hU : ∃ st g, U = { T with st := st, region := g }) : Kept s (s.setTeam k U) := by
  refine ⟨rfl, rfl, rfl, ⟨rfl, rfl⟩, ?_⟩
  intro j T' h
  by_cases hj : j = k
  · subst hj
    rw [team?_setTeam]
    obtain ⟨st, g, e⟩ := hU
    rw [hT] at h
    obtain rfl := Option.some.inj h
    exact ⟨st, g, by rw [e]⟩
  · rw [team?_setTeam_ne _ _ hj]
    exact ⟨T'.st, T'.region, h⟩

theorem get?_map_val {α : Type} (t : Table α) (f : Nat × α → α) (j : Nat) :
    Table.get? (t.map (fun e => (e.1, f e))) j = (Table.get? t j).map (fun x => f (j, x)) := by
  induction t with
  | nil => rfl
  | cons e r ih =>
    obtain ⟨i, x⟩ := e
    by_cases h : i = j
    · subst h; simp [Table.get?]
    · simpa [Table.get?, h] using ih

theorem kept_killTeams (s : State) (bs : List Nat) : Kept s (s.killTeams bs) := by
  refine ⟨rfl, rfl, rfl, ⟨rfl, rfl⟩, ?_⟩
  intro j T h
  simp only [State.team?, State.killTeams] at *
  have e : (fun e : Nat × Team => if (Table.keys s.teams (fun t => bs.contains t.block)).contains e.1 = true then
      (e.1, { e.2 with st := TeamSt.retired }) else e) =
      (fun e => (e.1, if (Table.keys s.teams (fun t => bs.contains t.block)).contains e.1 = true then
        { e.2 with st := TeamSt.retired } else e.2)) := by
    funext e; split <;> rfl
  rw [e, get?_map_val s.teams (fun e => if (Table.keys s.teams (fun t => bs.contains t.block)).contains e.1 = true then
        { e.2 with st := TeamSt.retired } else e.2), h, Option.map_some]
  dsimp only
  split
  · exact ⟨_, T.region, rfl⟩
  · exact ⟨T.st, T.region, rfl⟩

theorem kept_freeBlock (s : State) (b : Nat) : Kept s (s.freeBlock b) := Kept.of_eq rfl rfl rfl rfl rfl rfl

theorem kept_freeBlocks (bs : List Nat) : ∀ s : State, Kept s (s.freeBlocks bs) := by
  induction bs with
  | nil => intro s; exact Kept.refl s
  | cons b r ih => intro s; exact (kept_freeBlock s b).trans (ih _)

theorem kept_cutCmds (s : State) (bs : List Nat) : Kept s (s.cutCmds bs) := Kept.of_eq rfl rfl rfl rfl rfl rfl

/-- Ending a grid. -/
theorem kept_endGrid (s : State) (g : Nat) (st : Byte) : Kept s (s.endGrid g st) := by
  unfold State.endGrid
  split
  · exact Kept.refl s
  · split
    · exact Kept.refl s
    · refine Kept.trans ?_ (Kept.of_eq (s := ((s.killTeams (s.liveBlocks g)).cutCmds (s.liveBlocks g)).freeBlocks (s.liveBlocks g))
        rfl rfl rfl rfl rfl rfl)
      exact ((kept_killTeams s _).trans (kept_cutCmds _ _)).trans (kept_freeBlocks _ _)

theorem kept_endGrids (st : Byte) (gs : List Nat) : ∀ s : State, Kept s (s.endGrids st gs) := by
  induction gs with
  | nil => intro s; exact Kept.refl s
  | cons g r ih => intro s; exact (kept_endGrid s g st).trans (ih _)

theorem kept_enqueue (s : State) (r : TrapRec) : Kept s (s.enqueue r) := by
  unfold State.enqueue
  split
  · exact Kept.refl s
  · split <;> exact Kept.of_eq rfl rfl rfl rfl rfl rfl

theorem kept_raise (s : State) (g : Nat) (b : Bool) (r : TrapRec) : Kept s (s.raise g b r) := by
  unfold State.raise
  split
  · exact Kept.refl s
  · split
    · exact kept_endGrid _ _ _
    · split
      · exact kept_endGrid _ _ _
      · exact kept_enqueue _ _

/-! ### Dooming regions -/

theorem doom_eq (t : Team) (c d : Byte) (n : Nat) : ∃ g, t.doom c d n = { t with region := g } := by
  unfold Team.doom
  split
  · split
    · exact ⟨_, rfl⟩
    · exact ⟨_, rfl⟩
  · exact ⟨_, rfl⟩

theorem doomAll_eq (c d : Byte) (ns : List Nat) : ∀ t : Team, ∃ g, t.doomAll c d ns = { t with region := g } := by
  induction ns with
  | nil => intro t; exact ⟨_, rfl⟩
  | cons n r ih =>
    intro t
    obtain ⟨g, h⟩ := doom_eq t c d n
    obtain ⟨g', h'⟩ := ih (t.doom c d n)
    exact ⟨g', by rw [Team.doomAll, h', h]⟩

/-- Taking a trap of a team. -/
theorem kept_takeTrap (s : State) (k kind : Nat) (tr : Trap) : Kept s (s.takeTrap k kind tr) := by
  unfold State.takeTrap
  split
  · exact Kept.refl s
  · rename_i T hT
    refine Kept.trans (Kept.trans (Kept.of_eq (t := s.readCycle.2) rfl rfl rfl rfl rfl rfl) ?_) (kept_raise _ _ _ _)
    refine kept_setTeam _ k T _ hT ?_
    split
    · obtain ⟨g, h⟩ := doomAll_eq 4 tr.code T.active T
      exact ⟨.trapped, g, by rw [h]⟩
    · exact ⟨T.st, T.region, rfl⟩

theorem kept_takeStreamTrap (s : State) (b size : Nat) (tr : Trap) (retry : Bool) :
    Kept s (s.takeStreamTrap b size tr retry) := by
  unfold State.takeStreamTrap
  split
  · exact Kept.refl s
  · split
    · exact Kept.refl s
    · dsimp only
      refine Kept.trans ?_ (kept_raise _ _ _ _)
      exact Kept.of_eq rfl rfl rfl rfl rfl rfl

/-! ### Requests -/

theorem kept_park (s : State) (k : Nat) (e : Elem) (c : Byte) : Kept s (s.park k e c).1 := by
  refine kept_modTeam s k _ (fun T => ?_)
  obtain ⟨g, h⟩ := doom_eq T 4 c e.lane
  exact ⟨T.st, g, by rw [h]⟩

theorem kept_entryTrap (s : State) (r : Req) (n : Nat) : Kept s (s.entryTrap r n) := by
  unfold State.entryTrap
  split
  · exact Kept.refl s
  · exact kept_takeTrap _ _ _ _

theorem kept_formEntry (s : State) (n : Nat) : Kept s (s.formEntry n) := by
  unfold State.formEntry
  split
  · exact Kept.refl s
  · split
    · exact Kept.refl s
    · dsimp only
      refine Kept.trans ?_ (kept_entryTrap _ _ _)
      exact Kept.of_eq rfl rfl rfl rfl rfl rfl

theorem kept_addReq (s : State) (r : Req) : Kept s (s.addReq r) := by
  unfold State.addReq
  split
  · exact Kept.refl s
  · dsimp only
    refine Kept.trans ?_ (kept_formEntry _ _)
    exact Kept.of_eq rfl rfl rfl rfl rfl rfl

theorem kept_tidy (s : State) (n : Nat) : Kept s (s.tidy n) := by
  unfold State.tidy
  split
  · split
    · exact Kept.of_eq rfl rfl rfl rfl rfl rfl
    · exact Kept.refl s
  · exact Kept.refl s

/-! ### Cause words, grants of ended blocks, streams, packets -/

/-- A cause word is written, or waits for its empty register. -/
theorem giveCause_cases (t : Team) (n : Nat) (x : DWord) :
    (t.regs.sflg n = .empty ∧ t.giveCause n x = { t with causes := (n, x) :: t.causes.filter (fun e => e.1 != n) }) ∨
    (t.regs.sflg n ≠ .empty ∧ t.giveCause n x = { t with regs := (t.regs.setS n x).setSflg n .full }) := by
  unfold Team.giveCause
  by_cases h : t.regs.sflg n = .empty <;> simp [h]

/-- Where no cause word waits for a register, nothing is taken. -/
theorem takeCause_of_none {t : Team} {n : Nat} (h : ∀ e ∈ t.causes, e.1 ≠ n) : t.takeCause n = t := by
  have e : t.causes.find? (fun e => e.1 == n) = none := List.find?_eq_none.2 fun e he => by simpa using h e he
  simp [Team.takeCause, e]

/-- A register that has returned takes the cause word that waits for it, and no other register changes. -/
theorem takeCause_eq (t : Team) (n : Nat) : ∃ r cs, t.takeCause n = { t with regs := r, causes := cs } ∧ r.lane = t.regs.lane ∧
    ∀ m, m ≠ n → r.sflg m = t.regs.sflg m := by
  unfold Team.takeCause
  split
  · exact ⟨_, _, rfl, rfl, fun m hm => by rw [sflg_setSflg, if_neg hm]; rfl⟩
  · exact ⟨t.regs, t.causes, rfl, rfl, fun _ _ => rfl⟩

/-- Sweeping changes grants alone, and keeps those of live blocks and those that an access checked against them still needs. -/
theorem sweepGrants_eq (s : State) : ∃ gs, s.sweepGrants = { s with grants := gs } ∧ ∀ g, g ∈ gs ↔ g ∈ s.grants ∧
    (((s.block? g.block).map Block.live).getD false = true ∨ s.runBusy (fun b => b == g.block) g.core g.first g.run = true) := by
  simp only [State.sweepGrants]
  by_cases h : s.grants.any (fun g => !((s.block? g.block).map Block.live).getD false &&
      !s.runBusy (fun b => b == g.block) g.core g.first g.run) = true
  · rw [if_pos h]
    exact ⟨_, rfl, fun g => by simp [List.mem_filter]⟩
  · rw [if_neg h]
    refine ⟨s.grants, rfl, fun g => ⟨fun hg => ⟨hg, ?_⟩, And.left⟩⟩
    simp only [List.any_eq_true, not_exists, not_and] at h
    have := h g hg
    simp only [Bool.and_eq_true, Bool.not_eq_true', not_and, Bool.not_eq_false] at this
    by_cases hl : ((s.block? g.block).map Block.live).getD false = true
    · exact .inl hl
    · exact .inr (this (by simpa using hl))

/-- A stream of which one trap is outstanding is as it was but for its pc once its handler has returned. -/
theorem resume_halt (m : Stream) (rpc : DWord) (h : HandlerRec) (hh : m.halted = false) (ho : m.owed = 0) :
    (m.halt rpc).resume h = { m with pc := if h.rpc = h.trap.rpc then rpc else h.rpc, waiting := none } := by
  simp [Stream.halt, Stream.resume, hh, ho]

/-- Injecting a packet changes what crosses the fabric and the model's counters alone. -/
theorem injectOn_eq (s : State) (o : PktOwner) (cls tenant cluster line n : Nat) (route : List (Nat × Nat)) :
    ∃ f i d, s.injectOn o cls tenant cluster line n route = { s with fabric := f, nextId := i, draws := d } := by
  unfold State.injectOn
  split <;> exact ⟨_, _, _, rfl⟩

end Sys2Proof.Machine
end

