-- ==== Sys2Proof/Tests/Slice0.lean ====
section
/-! SUPPORT. The model's own tests: ill-formed instructions that WellFormed refuses, words written out in the spec and what they decode to,
single steps, and, for each statement, states that meet its hypotheses. -/

open Sys2Proof Sys2Proof.Machine Sys2Proof.Claims

namespace Sys2Proof.Tests

-- one theorem is checked after another: each checked beside others takes a stack of its own
set_option Elab.async false

/-! ### Ill-formed instructions, one for each check of WellFormed -/

def src (o : Opnd) : Src := ⟨o, false⟩

/-- R58: a handle is no source of iadd. -/
theorem test_wf_class : (Instr.iadd { ext := false, d := .v 1, a := src (.h 1), b := src (.v 2) }).wf = false := by decide +kernel
/-- R59: a T bit stands only on an operand with full/empty state. -/
theorem test_wf_tbit : (Instr.mov { ext := false, d := .v 1, a := ⟨.zero, true⟩ }).wf = false := by decide +kernel
/-- R57: one literal serves every field that names it. -/
theorem test_wf_one_literal :
    (Instr.iadd { ext := false, d := .v 1, a := src (.lit 1), b := src (.lit 2) }).wf = false := by decide +kernel
/-- R60: v100 has no short code. -/
theorem test_wf_short_code : (Instr.mov { ext := false, d := .v 100, a := src (.v 1) }).wf = false := by decide +kernel
/-- R60: an immediate of 14 bits holds −8,192 to 8,191 in the base form. -/
theorem test_wf_imm : (Instr.movi { ext := false, d := .v 1, imm := 8192 }).wf = false ∧
    (Instr.movi { ext := true, d := .v 1, imm := 8192 }).wf = true ∧ (Instr.movi { ext := false, d := .v 1, imm := 8191 }).wf = true := by
  decide +kernel
/-- R61: in a base word of a three-source row, C is the register D names. -/
theorem test_wf_c_is_d : (Instr.sel { ext := false, d := .v 1, a := src (.v 2), b := src (.v 3), c := src (.v 4) }).wf = false := by
  decide +kernel
/-- R54: a modifier other than zero takes the extended form. -/
theorem test_wf_modifier : (Instr.fadd .rz { ext := false, d := .v 2, a := src (.v 1), b := src (.v 1) }).wf = false ∧
    (Instr.fadd .rz { ext := true, d := .v 2, a := src (.v 1), b := src (.v 1) }).wf = true := by decide +kernel
/-- R65: a predicate of pblk is v0 to v31, and PAT has no bit above position N. -/
theorem test_wf_prefix : (Instr.pblk 4 1 2 false).wf = false ∧ (Instr.pblk 3 1 2 false).wf = true := by decide +kernel
/-- R130: an atomic other than .cas names no expected value. -/
theorem test_wf_canonical : (Instr.satom .add { ext := true, d := .v 5, a := src (.v 1), b := src (.v 2), c := src (.v 3), x := 0 }).wf =
    false := by decide +kernel
/-- R374: a sysw to RPC by its literal number is the row of RPC. -/
theorem test_wf_sysw_row : (Instr.sysw { ext := false, a := src (.lit 0x10), b := src (.s 1) }).wf = false := by decide +kernel

/-! ### Words of the spec -/

theorem test_decode_moves : decodeWords [0x00364B1A] =
      .ok (.sel { ext := false, d := .v 5, a := src (.v 2), b := src (.v 6), c := src (.v 5) }) ∧
    decodeWords [0x0025FFFB] = .ok (.movi { ext := false, d := .v 3, imm := BitVec.ofInt 21 (-5) }) := by decide +kernel
theorem test_decode_integer : decodeWords [0x01479022] = .ok (.iadd64 { ext := false, d := .v 10, a := src (.v 12), b := src (.v 14) }) ∧
    decodeWords [0x88058ABE, 0x00000804, 0] = .ok (.bfxU { ext := false, d := .v 2, a := src (.v 1), b := src (.lit 0x0804) }) ∧
    decodeWords [0x0A064B9A] = .ok (.shfl { ext := false, d := .v 5, a := src (.v 3), b := src (.v 6) }) := by decide +kernel
theorem test_decode_uniform : decodeWords [0x3FCE0EB5] = .ok (.vtos { ext := false, d := .s 4, a := src (.v 9), b := src (.s 1) }) ∧
    decodeWords [0x7FA00002, 0x82905A0C, 0] =
      .ok (.scmp .lt .s { ext := true, d := .s 10, a := src (.s 11), b := src (.s 12) }) := by decide +kernel
theorem test_decode_float : decodeWords [0x50300001, 0x4A094A64, 0x4A800000] =
      .ok (.ffma .rz { ext := true, d := .v 40, a := src (.v 41), b := src (.s 100), c := src (.v 42) }) ∧
    decodeWords [0x13058A80] = .ok (.frcp .rn { ext := false, d := .v 2, a := src (.v 1) }) := by decide +kernel
theorem test_decode_near : decodeWords [0x67000003, 0x81501201, 0] =
      .ok (.lsget 3 { ext := true, d := .s 5, a := src (.s 2), b := src (.s 1) }) ∧
    decodeWords [0x270E5B35] = .ok (.lsget 0 { ext := false, d := .s 5, a := src (.s 2), b := src (.s 1) }) := by decide +kernel
theorem test_decode_atomics : decodeWords [0x28A64A96] =
      .ok (.satom .cas { ext := false, d := .v 5, a := src (.v 1), b := src (.v 2), c := src (.v 5), x := 0 }) ∧
    decodeWords [0x29061B1A] =
      .ok (.gatom .add .predictor .w { ext := false, d := .v 4, a := src (.s 2), b := src (.v 6), c := src .zero, x := 0 }) ∧
    decodeWords [0x2A00141A] = .ok (.gred .add .predictor .w { ext := false, a := src (.v 20), b := src (.v 6), x := 0 }) ∧
    decodeWords [0x2B26CB99] = .ok (.vcomb .fadd { ext := false, d := .v 7, a := src (.v 3), b := src (.v 5) }) := by decide +kernel
theorem test_decode_terms : decodeWords [0x2C35CF02] = .ok (.tis 2 { ext := false, d := .v 3, a := src (.v 10) }) ∧
    decodeWords [0xAD479F3C, 0x90, 0] = .ok (.mkcvar { ext := false, d := .v 10, a := src (.lit 0x90), b := src .zero }) ∧
    decodeWords [0x2D0A0C1A] = .ok (.unify { ext := false, d := .v 20, a := src (.v 4), b := src (.v 6) }) ∧
    decodeWords [0x2F200000] = .ok .clast := by decide +kernel
theorem test_decode_control : decodeWords [0x34000DBC] = .ok (.sbar { ext := false, b := src .zero, off := 27 }) ∧
    decodeWords [0x3FE03216] = .ok (.pblk 3 1 2 false) := by decide +kernel
theorem test_decode_matrix : decodeWords [0xBB2FFEBE, 3, 0] =
      .ok (.mloop { ext := false, b := src (.lit 3), off := BitVec.ofInt 21 (-3) }) ∧
    decodeWords [0x3A200080] = .ok (.mfuse false 1) := by decide +kernel
theorem test_decode_engines : decodeWords [0xFC100040, 0x811F9202, 0xFC000000, 0x40, 0] =
      .ok (.cpy2 .g2n (some 0) (.s 4) (src (.lit 0x40)) (src (.s 2)) (src .zero)) := by decide +kernel
theorem test_decode_system : decodeWords [0x3FF04037] = .ok (.rettRel { ext := false, a := src (.s 3) }) ∧
    decodeWords [0x3FF19B37] = .ok (.ptlb { ext := false, a := src (.s 2), b := src (.s 3) }) := by decide +kernel

/-- The code of the trap that a run of words raises in decoding. -/
def trapOf (ws : List Word) : Option Byte :=
  match decodeWords ws with
  | .trap c _ => some c
  | .ok _ => none

/-- R78's table of words open to several traps. -/
theorem test_trap_order : trapOf [0] = some 0x00 ∧ trapOf [0x06668C19] = some 0x00 ∧ trapOf [0x01068C3E] = some 0x04 ∧
    trapOf [0x84057EBE, 2, 0] = some 0x01 ∧ trapOf [0x05160B81] = some 0x01 ∧ trapOf [0x01068C3F] = some 0x03 ∧
    trapOf [0x010D0C19] = some 0x02 ∧ trapOf [0xFFFFFFFF, 0xFFFFFFFF, 0xFFFFFFFF, 0xFFFFFFFF, 0xFFFFFFFF] = some 0x00 := by decide +kernel

/-! ### Small states -/

/-- Decides `Ready`. -/
def readyB (s : State) (k : Nat) (i : Instr) : Bool :=
  match s.team? k with
  | none => false
  | some t =>
    s.cur == .team k && t.st == .running && t.ctl.mask != 0 && t.amask != 0 && t.hold == .none && t.arend.isNone && t.run.isNone && !s.heldByRecord k &&
      ((s.block? t.block).map (fun b => b.st == .placed)).getD false && (placeTrap t i.standing).isNone &&
      (usesOf i).all.all (fun r => !r.beyond t) &&
      (usesOf i).reads.all (fun p => p.1.state t t.swept == .full || (t.ctl.resume.isSome && (usesOf i).writes.contains p.1)) &&
      (usesOf i).writes.all (fun r => !r.anyEmpty t t.swept || t.ctl.resume.isSome) &&
      (s.vtosWord t i).all (fun e => e.1.state t [e.2.2] == .full)

theorem ready_of {s : State} {k : Nat} {t : Team} {i : Instr} (ht : s.team? k = some t) (h : readyB s k i = true) : Ready s k t i := by
  simp only [readyB, ht, Bool.and_eq_true, beq_iff_eq, bne_iff_ne, ne_eq, Option.isNone_iff_eq_none, Bool.not_eq_true', List.all_eq_true,
    Bool.or_eq_true, List.contains_iff_mem] at h
  obtain ⟨⟨⟨⟨⟨⟨⟨⟨⟨⟨⟨⟨⟨a1, a2⟩, a3⟩, a4⟩, a5⟩, a6⟩, ar⟩, a7⟩, a8⟩, a9⟩, a10⟩, a11⟩, a12⟩, a13⟩ := h
  refine ⟨a1, ht, a2, a3, a4, ⟨a5, a6, ar, a7, ?_⟩, a9, a10, a11, a12, a13⟩
  cases hb : s.block? t.block with
  | none => simp [hb] at a8
  | some b => exact ⟨b, rfl, by simpa [hb] using a8⟩

/-- A team of 32 lanes with lanes 0 and 1 on its path. -/
def team0 : Team :=
  { block := 0, index := 0, quarter := 0, lanes := 32, vregs := 64, sregs := 32, spill := 8, priv := 64, cstack := 64
    ctl := { pc := 0x1000, mask := 3 }, regs := { sreg := [(1, 4), (2, 0x40)] } }

/-- A block on one core, whose stream runs. -/
def block0 : Block :=
  { grid := 0, index := 0, quarters := [0, 1, 2, 3], scratch := 0x10000, stream := some { pc := 0x2000 } }

/-- A launch of the block's grid. -/
def launch0 : Launch :=
  { kernel := { entry := 0x1000, vregs := 64, sregs := 32, scratch := 0x10000 }, code := 0x1000, codeLen := 64, tiles := 16, stream := 0x2000 }

/-- A state of one grid, block and team, whose turn it is. -/
def start (t : Team) : State :=
  { State.reset with
    cur := .team 0, nextId := 1, teams := [(0, t)], blocks := [(0, block0)]
    grids := [(0, { tenant := 0, queue := 0, number := 0, launch := launch0, owner := .host 1 7, placed := 1 })]
    tenants := [(0, {})], partitions := [(0, { quarters := [0, 1, 2, 3], tenants := [(0, 0)] })] }

/-- The turn of the block's stream. -/
def startStream (m : Stream) : State := { start team0 with cur := .stream 0, blocks := [(0, { block0 with stream := some m })] }

def da (d a : Opnd) : DA := { ext := true, d := d, a := src a }
def dab (d a b : Opnd) : DAB := { ext := true, d := d, a := src a, b := src b }
def dabc (d a b c : Opnd) : DABC := { ext := true, d := d, a := src a, b := src b, c := src c }
def ab (a b : Opnd) : AB := { ext := true, a := src a, b := src b }
def a1 (a : Opnd) : A1 := { ext := true, a := src a }
def ldArgs (d a : Opnd) : LdArgs := { ext := true, d := d, a := src a, x := 0 }
def stArgs (a b : Opnd) : StArgs := { ext := true, a := src a, b := src b, x := 0 }
def rmw (d a b : Opnd) : RmwArgs := { ext := true, d := d, a := src a, b := src b, c := src .zero, x := 0 }

/-- Instructions that the team of `start team0` may execute, one at least of each kind a statement speaks of. -/
def plain : List Instr :=
  [.iadd (dab (.v 1) (.v 2) (.v 3)), .shl (dab (.v 1) (.v 2) (.v 3)), .shfl (dab (.v 1) (.v 2) (.v 3)), .ballot (da (.v 1) (.v 2)),
    .vany (da (.v 1) (.v 2)), .vall (da (.v 1) (.v 2)), .scan .addIncl (da (.v 1) (.v 2)), .icmp .lt .s (dab (.v 1) (.v 2) (.v 3)),
    .iadd64 (dab (.v 2) (.v 4) (.v 6)), .sadd (dab (.s 3) (.s 1) (.s 2)), .scmp .lt .s (dab (.s 3) (.s 1) (.s 2)),
    .vtos (dab (.s 3) (.v 1) (.s 2)), .sred .add (da (.s 3) (.v 1)), .fadd .rn (dab (.v 1) (.v 2) (.v 3)),
    .fpack .bf16 .rs .dflt 0 (dab (.v 1) (.v 2) (.v 3)), .ld .w (ldArgs (.v 1) (.v 2)), .st .w (stArgs (.v 2) (.v 1)),
    .lds .w (ldArgs (.s 3) (.s 2)), .lds .w (ldArgs .zero (.s 2)), .sts .w (stArgs (.s 2) (.s 1)), .spl (ab (.v 1) (.v 2)),
    .fil (da (.v 1) (.v 2)), .fil (da (.o 1) (.v 2)), .lsget 0 (dab (.s 3) (.s 1) (.s 2)), .lsret 0 (dab (.s 3) (.s 1) (.s 2)),
    .jmp { ext := false, off := 2 }, .brsNz { ext := false, b := src (.s 1), off := 2 }, .brsZ { ext := false, b := src (.s 1), off := 2 },
    .yield { ext := false, off := 2 }, .nop, .jmpInd (a1 (.v 4)), .brc { ext := false, b := src (.v 1), off := 2 },
    .brcF { ext := false, b := src (.v 1), off := 2 }, .call { ext := false, off := 2 }, .callInd (a1 (.s 1)), .ret,
    .sbar { ext := false, b := src .zero, off := 2 }, .sarr, .brk false 1 2, .exit, .pblk 3 1 2 false, .arbeg (.s 3) 2,
    .arrng (ab (.s 1) (.s 2)), .arabt (a1 (.s 1)), .arst (stArgs (.v 4) (.v 1)), .arld (ldArgs (.v 1) (.v 4)), .arend,
    .cdet (da (.v 1) (.v 2)), .vcomb .add (dab (.v 1) (.v 2) (.v 3)), .satom .add (rmw (.v 1) (.v 2) (.v 3)),
    .gatom .add .home .w (rmw (.v 1) (.v 4) (.v 3)), .tmk (dab (.v 2) (.v 4) (.v 5)), .ttag (da (.v 1) (.v 2)), .tis 2 (da (.v 1) (.v 2)),
    .tval (da (.v 2) (.v 4)), .tmark .bp false (.v 1), .bcol (a1 (.v 1)), .deref (da (.v 2) (.v 4)), .mtov (.v 1) 0 (src (.s 1)),
    .mrd .f32 .rn 8 (src (.s 2)) 0 0, .barInit (stArgs (.s 2) (.s 1)), .barExp (stArgs (.s 2) (.s 1)), .barArr false (stArgs (.s 2) (.s 1)),
    .barWait (stArgs (.s 2) (.s 1)), .fence .device false, .cwait .copy false 0, .gbar, .cpy .g2n none (.s 3) (src (.s 2)) (src (.s 1)) 4,
    .cpy .g2n none (.s 3) (src (.s 2)) (src (.s 1)) 0, .prom (da (.s 3) (.s 1)), .ftest .plain false (.s 3) (.s 1), .fcan false false (.s 1),
    .hset 0 0 (src (.s 1)), .hget (.s 3) 0 0, .hchkReport (.s 3) 0, .hld 0 (src (.s 2)), .wlpull (da (.s 3) (.s 1)),
    .wlsteal (dab (.s 3) (.s 1) (.s 2)), .childLaunch (.s 3) (src (.s 2)), .lclass (da (.s 3) (.s 1)), .trap (a1 (.s 1)), .rett (a1 .zero),
    .rettRel (a1 (.s 1)), .rettDrop (a1 (.s 1)), .sysr false (.s 3) (src .zero), .sysw (ab (.s 1) (.s 2)), .ptlb (ab (.s 1) (.s 2)),
    .usg false (.s 3) (src (.s 1))]

/-- A team with room and registers that are full may execute each of them: the hypothesis every result statement shares. -/
theorem witness_ready : ∀ i ∈ plain, Ready (start team0) 0 team0 i := by
  have h : plain.all (readyB (start team0) 0) = true := by decide +kernel
  intro i hi
  exact ready_of rfl (List.all_eq_true.1 h i hi)

/-- Stream instructions that the stream of `startStream` may execute. -/
def streamy : List Instr :=
  [.nop, .mamap 0 .e4m3 false 2 32 (src (.lit 0)) (src .zero), .mclr 0, .mfuse false 0, .mprio false 1,
    .mloop { ext := false, b := src (.lit 3), off := 2 }, .mbarArr (a1 (.lit 0)), .mbarWait (src (.lit 0)) (src (.lit 0)), .mend,
    .mwld .e4m3 false 1 (src (.lit 0)) (src .zero), .mmul 0 0 true 0, .mrd .f32 .rn 8 (src (.lit 0)) 0 0]

def stream0 : Stream := { pc := 0x2000, maps := [(0, ⟨0, none, .e4m3, false, 32, 32⟩)] }

theorem witness_streamReady : ∀ i ∈ streamy, StreamReady (startStream stream0) 0 { block0 with stream := some stream0 } stream0 i := by
  intro i hi
  have h : streamy.all (fun i => i.standing.stream) = true := by decide +kernel
  exact ⟨rfl, rfl, rfl, ⟨rfl, rfl⟩, rfl, by decide +kernel, List.all_eq_true.1 h i hi⟩

/-! ### Witnesses: for each statement, a state and operands that meet its hypotheses -/

/-- A plain instruction's readiness. -/
theorem rdy (i : Instr) (h : plain.contains i = true) : Ready (start team0) 0 team0 i :=
  witness_ready i (by simpa using h)
theorem srdy (i : Instr) (h : streamy.contains i = true) :
    StreamReady (startStream stream0) 0 { block0 with stream := some stream0 } stream0 i := witness_streamReady i (by simpa using h)

theorem witness_laneResults : ∃ f, (∃ v, ArithRule (.iadd f) v) ∧ (∃ v, LogicRule (.shl f) v) ∧ (∃ v, ExchangeRule (.shfl f) v) ∧
    Ready (start team0) 0 team0 (.iadd f) ∧ Ready (start team0) 0 team0 (.shl f) ∧ Ready (start team0) 0 team0 (.shfl f) :=
  ⟨dab (.v 1) (.v 2) (.v 3), ⟨_, .iadd _⟩, ⟨_, .shl _⟩, ⟨_, .shfl _⟩, rdy _ (by decide +kernel), rdy _ (by decide +kernel),
    rdy _ (by decide +kernel)⟩

theorem witness_laneReductions : (∃ f, Ready (start team0) 0 team0 (.ballot f)) ∧ (∃ f, Ready (start team0) 0 team0 (.vany f)) ∧
    (∃ f, Ready (start team0) 0 team0 (.vall f)) ∧ (∃ o f, Ready (start team0) 0 team0 (.scan o f)) ∧
    (∃ c g f, Ready (start team0) 0 team0 (.icmp c g f)) ∧ ∃ f, Ready (start team0) 0 team0 (.iadd64 f) :=
  ⟨⟨da (.v 1) (.v 2), rdy _ (by decide +kernel)⟩, ⟨da (.v 1) (.v 2), rdy _ (by decide +kernel)⟩,
    ⟨da (.v 1) (.v 2), rdy _ (by decide +kernel)⟩, ⟨.addIncl, da (.v 1) (.v 2), rdy _ (by decide +kernel)⟩,
    ⟨.lt, .s, dab (.v 1) (.v 2) (.v 3), rdy _ (by decide +kernel)⟩, ⟨dab (.v 2) (.v 4) (.v 6), rdy _ (by decide +kernel)⟩⟩

theorem witness_uniformInstructions : (∃ v, UniRule (.sadd (dab (.s 3) (.s 1) (.s 2))) v) ∧
    Ready (start team0) 0 team0 (.sadd (dab (.s 3) (.s 1) (.s 2))) ∧ Ready (start team0) 0 team0 (.scmp .lt .s (dab (.s 3) (.s 1) (.s 2))) ∧
    Ready (start team0) 0 team0 (.vtos (dab (.s 3) (.v 1) (.s 2))) ∧ Ready (start team0) 0 team0 (.sred .add (da (.s 3) (.v 1))) ∧
    team0.active = 0 :: [1] :=
  ⟨⟨_, .sadd _⟩, rdy _ (by decide +kernel), rdy _ (by decide +kernel), rdy _ (by decide +kernel), rdy _ (by decide +kernel),
    by decide +kernel⟩

theorem witness_floatInstructions : (∃ d g, FloatInstr (.fadd .rn (dab (.v 1) (.v 2) (.v 3))) (d, g) ∧ Quiet team0 (g (start team0) team0)) ∧
    Ready (start team0) 0 team0 (.fadd .rn (dab (.v 1) (.v 2) (.v 3))) ∧
    (∃ d g n, DrawInstr (.fpack .bf16 .rs .dflt 0 (dab (.v 1) (.v 2) (.v 3))) (d, g) n ∧ Quiet team0 (g (start team0) team0)) ∧
    Ready (start team0) 0 team0 (.fpack .bf16 .rs .dflt 0 (dab (.v 1) (.v 2) (.v 3))) :=
  have q : ∀ g, Quiet team0 g := fun _ j hj h => by
    have : team0.fp.enables.getLsbD j = false := by simp [team0]
    rw [this] at h; cases h
  ⟨⟨_, _, .fadd _ _, q _⟩, rdy _ (by decide +kernel), ⟨_, _, _, .fpack _ _ _ _ _, q _⟩, rdy _ (by decide +kernel)⟩

/-- With the enable of DZ set, a reciprocal of 0 in lanes 0 and 1. -/
def teamDz : Team := { team0 with fp := { enables := 2 } }

theorem witness_floatInstructions_traps : ∃ d g, FloatInstr (.frcp .rn (da (.v 1) (.v 2))) (d, g) ∧
    Ready (start teamDz) 0 teamDz (.frcp .rn (da (.v 1) (.v 2))) ∧ teamDz.fp.enables.getLsbD 1 = true ∧
    arises teamDz (g (start teamDz) teamDz) 1 ∧ ∀ m < 1, teamDz.fp.enables.getLsbD m = true → ¬arises teamDz (g (start teamDz) teamDz) m :=
  ⟨_, _, .frcp _ _, ready_of rfl (by decide +kernel), by decide +kernel, ⟨0, by decide +kernel, by decide +kernel⟩,
    fun m hm h => absurd h (by
      have : m = 0 := by omega
      subst this; decide +kernel)⟩

theorem witness_floatCorners : isNan32 0x7FC00001 ∧ isSnan32 0x7F800001 ∧ ¬isNan32 0x3F800000 ∧ order32 0x80000000 = order32 0 ∧
    order32 0xBF800000 < order32 0x3F800000 := by
  refine ⟨?_, ?_, ?_, ?_, ?_⟩ <;> simp [isNan32, isSnan32, order32]

theorem active0 {n : Nat} (h : n ∈ team0.active) : n = 0 ∨ n = 1 := by
  have e : team0.active = [0, 1] := by decide +kernel
  rw [e] at h
  simpa using h

/-- An element of lane 0 that has been checked and is to land at offset 0x40 of core 0, or in lane 0's private window. -/
def reqL (k : ReqKind) (a : DWord) : Req :=
  { team := 0, kind := k, dst := .v 1 1, words := [0], elems := [{ lane := 0, addr := a, val := 9, st := .landing }] }
def sLand (k : ReqKind) (a : DWord) : State := { start team0 with reqs := [(1, reqL k a)], nextId := 2 }

theorem landing (k : ReqKind) (hk : k ∈ [ReqKind.load 4 false, .load 16 false, .store 4, .store 16]) :
    Landing (sLand k 0x40) 1 0 0 (reqL k 0x40) { lane := 0, addr := 0x40, val := 9, st := .landing } team0 (.spm 0 0x40 false) := by
  revert k
  have h : ∀ k ∈ [ReqKind.load 4 false, .load 16 false, .store 4, .store 16],
      (sLand k 0x40).residentBlock 0 = true ∧ (reqL k 0x40).flying? 0 = some { lane := 0, addr := 0x40, val := 9, st := .landing } ∧
      elemPlace ((sLand k 0x40).frame team0) k { lane := 0, addr := 0x40, val := 9, st := .landing } = .ok (.spm 0 0x40 false) ∧
      (sLand k 0x40).nearFirst ((sLand k 0x40).frame team0) 1 (reqL k 0x40) { lane := 0, addr := 0x40, val := 9, st := .landing } = true ∧
      0 ∈ k.units := by decide +kernel
  intro k hk
  obtain ⟨a, b, c, d, e⟩ := h k hk
  exact ⟨rfl, rfl, .inl a, by decide, b, rfl, c, d, ⟨e, by simp⟩, by simp [reqL, Elem.parkedCode]⟩

theorem witness_nearLoads : NearLoad (.ld .w (ldArgs (.v 1) (.v 2))) (.v 1) 1 4 false (nearAt (src (.v 2)) 0) ∧
    Ready (start team0) 0 team0 (.ld .w (ldArgs (.v 1) (.v 2))) ∧ (start team0).queueUse 0 < 8 ∧
    (∀ n ∈ team0.active, ∃ l, nearPlace ((start team0).frame team0) (some n) (nearAt (src (.v 2)) 0 (start team0) team0 n) 4 = .ok l) ∧
    (∃ s id n w r e T l, Landing s id n w r e T l ∧ NearReads r.kind 4 ∧ r.words ≠ []) ∧
    ∃ s id n w r e T l, Landing s id n w r e T l ∧ NearReads r.kind 16 ∧ r.words ≠ [] :=
  ⟨.ld .w _, rdy _ (by decide +kernel), by decide +kernel,
    fun n hn => ⟨.spm 0 0 false, by rcases active0 hn with rfl | rfl <;> rfl⟩,
    ⟨_, _, _, _, _, _, _, _, landing (.load 4 false) (by decide), .load _ _, by decide⟩,
    ⟨_, _, _, _, _, _, _, _, landing (.load 16 false) (by decide), .load _ _, by decide⟩⟩

theorem witness_nearStores : NearStore (.st .w (stArgs (.v 2) (.v 1))) 4 (nearAt (src (.v 2)) 0)
      (fun s T n => if StSize.w = .d then (s.dword T n (.v 1)).toNat else (s.word T n (.v 1)).toNat) ∧
    Ready (start team0) 0 team0 (.st .w (stArgs (.v 2) (.v 1))) ∧ (start team0).queueUse 0 < 8 ∧ team0.active ≠ [] ∧
    (∀ n ∈ team0.active, ∃ l, nearPlace ((start team0).frame team0) (some n) (nearAt (src (.v 2)) 0 (start team0) team0 n) 4 = .ok l) ∧
    (∃ s id n w r e T l, Landing s id n w r e T l ∧ NearWrites r.kind 4) ∧
    (∃ s id n w r e T l, Landing s id n w r e T l ∧ NearWrites r.kind 16) ∧
    Landing (sLand (.store 4) 0x20000000) 1 0 0 (reqL (.store 4) 0x20000000) { lane := 0, addr := 0x20000000, val := 9, st := .landing } team0
      (.priv 0 0) :=
  ⟨.st .w _, rdy _ (by decide +kernel), by decide +kernel, by decide +kernel,
    fun n hn => ⟨.spm 0 0 false, by rcases active0 hn with rfl | rfl <;> rfl⟩,
    ⟨_, _, _, _, _, _, _, _, landing (.store 4) (by decide), .store _⟩,
    ⟨_, _, _, _, _, _, _, _, landing (.store 16) (by decide), .store _⟩,
    ⟨rfl, rfl, by decide +kernel, by decide, by decide +kernel, rfl, by decide +kernel, by decide +kernel, by decide +kernel,
      by simp [reqL, Elem.parkedCode]⟩⟩

/-- A load of lane 0 that has read 5, and waits to return. -/
def req0 : Req :=
  { team := 0, kind := .load 4 false, dst := .v 1 1, words := [0], elems := [{ lane := 0, addr := 0, got := 5, st := .done }] }
def teamE : Team := { team0 with regs := { team0.regs with flag := [(32, .empty)] } }
def sLoad : State := { start teamE with reqs := [(1, req0)], nextId := 2 }

theorem witness_loadReturns : sLoad.reqs.get? 1 = some req0 ∧ req0.team = 0 ∧ sLoad.team? 0 = some teamE ∧ req0.kind = .load 4 false ∧
    req0.arld = false ∧ req0.dst = .v 1 1 ∧ 1 + 1 ≤ 256 ∧ 0 < 32 ∧ 0 ∈ req0.words ∧ (req0.elems.map Elem.lane).Nodup ∧
    (∀ e ∈ req0.elems, e.lane / 32 = 0 → e.settled = true) ∧ sLoad.returns req0 = true := by decide +kernel

/-- A team whose s2 is no multiple of 4. -/
def teamOdd : Team := { team0 with regs := { sreg := [(1, 4), (2, 0x41)] } }

theorem witness_uniformAccessesAndSpills : Ready (start team0) 0 team0 (.lds .w (ldArgs (.s 3) (.s 2))) ∧
    Ready (start team0) 0 team0 (.lds .w (ldArgs .zero (.s 2))) ∧ Ready (start team0) 0 team0 (.sts .w (stArgs (.s 2) (.s 1))) ∧
    (start team0).nearCheck ((start team0).frame team0) none 0x40 4 = .ok (.spm 0 0x40 false) ∧
    ((start team0).uni team0 (.s 2)).setWidth 32 + BitVec.ofInt 32 (0 : BitVec 21).toInt = 0x40 ∧
    Ready (start teamOdd) 0 teamOdd (.lds .w (ldArgs (.s 3) (.s 2))) ∧ Ready (start teamOdd) 0 teamOdd (.sts .w (stArgs (.s 2) (.s 1))) ∧
    (start teamOdd).nearCheck ((start teamOdd).frame teamOdd) none 0x41 4 = .error 0x24 :=
  ⟨rdy _ (by decide +kernel), rdy _ (by decide +kernel), rdy _ (by decide +kernel), rfl, by decide +kernel,
    ready_of rfl (by decide +kernel), ready_of rfl (by decide +kernel), rfl⟩

/-- A team whose lane 0 holds 8 in v1: the first slot past a spill area of 8. -/
def teamPast : Team := { team0 with regs := { team0.regs with lane := [(1, 8)] } }

theorem witness_uniformAccessesAndSpills_spills : Ready (start team0) 0 team0 (.spl (ab (.v 1) (.v 2))) ∧ Ready (start team0) 0 team0 (.fil (da (.v 1) (.v 2))) ∧
    Ready (start team0) 0 team0 (.fil (da (.o 1) (.v 2))) ∧ team0.spill ≤ 256 ∧
    (∀ n ∈ team0.active, ((start team0).word team0 n (.v 1)).toNat < team0.spill) ∧
    Ready (start teamPast) 0 teamPast (.spl (ab (.v 1) (.v 2))) ∧
    ∃ n ∈ teamPast.active, teamPast.spill ≤ ((start teamPast).word teamPast n (.v 1)).toNat :=
  ⟨rdy _ (by decide +kernel), rdy _ (by decide +kernel), rdy _ (by decide +kernel), by decide, by decide +kernel,
    ready_of rfl (by decide +kernel), by decide +kernel⟩

/-- A request that has read 5 through window 1 stands before the run's core; its block has a grant there. -/
def runArgs : DAB := dab (.s 3) (.s 2) .zero
def sBusy : State := { start { team0 with regs := { sreg := [(2, 0x10000000)] } } with reqs := [(1, { reqL (.load 4 false) 0x10000000 with elems := [{ lane := 0, addr := 0x10000000, st := .landing }] })], nextId := 2 }

theorem witness_clusterGrants : Ready (start team0) 0 team0 (.lsget 0 (dab (.s 3) (.s 1) (.s 2))) ∧
    Ready (start team0) 0 team0 (.lsret 0 (dab (.s 3) (.s 1) (.s 2))) ∧
    (start team0).returnWaits team0 ((start team0).uni team0 (.s 1)) (.s 2) 1 = false ∧
    (∃ T, Ready sBusy 0 T (.lsret 0 runArgs) ∧ sBusy.returnWaits T (sBusy.uni T (.s 2)) .zero 1 = true) ∧
    (start team0).block? team0.block = some block0 ∧
    ∃ o : Opnd, o ≠ .zero ∧ ((start { team0 with regs := { sreg := [(1, 0)] } }).grantee { team0 with regs := { sreg := [(1, 0)] } } o).isSome = true :=
  ⟨rdy _ (by decide +kernel), rdy _ (by decide +kernel), by decide +kernel, ⟨_, ready_of rfl (by decide +kernel), by decide +kernel⟩, rfl,
    .s 1, by decide, by decide +kernel⟩

theorem mask3 : ∀ n, (3 : Mask).getLsbD n = true → n < 32 := by
  intro n h
  have hn : n < 1024 := BitVec.lt_of_getLsbD h
  have : ∀ n < 1024, (3 : Mask).getLsbD n = true → n < 32 := by decide +kernel
  exact this n hn h

/-- A team with a predicate in lane 0 alone, and one whose lane 0 holds an odd target. -/
def teamSome : Team := { team0 with regs := { team0.regs with lane := [(1, 1), (4, 1)] } }

theorem witness_controlTransfers : Ready (start team0) 0 team0 (.jmp { ext := false, off := 2 }) ∧
    Ready (start team0) 0 team0 (.yield { ext := false, off := 2 }) ∧ team0.inRegion = false ∧ team0.count = {} ∧
    Ready (start team0) 0 team0 .nop ∧ Ready (start team0) 0 team0 (.jmpInd (a1 (.v 4))) ∧ team0.active = 0 :: [1] ∧
    (∀ m ∈ team0.active, ((start team0).dword team0 m (.v 4)).toNat % 4 = 0) ∧ team0.active.length + team0.ctl.ds.hw.length ≤ 16 ∧
    Ready (start teamSome) 0 teamSome (.jmpInd (a1 (.v 4))) ∧
    (∃ m ∈ teamSome.active, ((start teamSome).dword teamSome m (.v 4)).toNat % 4 ≠ 0) ∧
    Ready (start teamSome) 0 teamSome (.brc { ext := false, b := src (.v 1), off := 2 }) ∧ teamSome.amask = teamSome.ctl.mask ∧
    (∀ n, teamSome.ctl.mask.getLsbD n = true → n < teamSome.lanes) ∧ teamSome.ctl.ds.hw.length < 16 ∧
    lanesOf (start teamSome) teamSome (.v 1) true ≠ 0 ∧ lanesOf (start teamSome) teamSome (.v 1) false ≠ 0 ∧
    lanesOf (start team0) team0 (.v 1) true = 0 :=
  ⟨rdy _ (by decide +kernel), rdy _ (by decide +kernel), by decide +kernel, rfl, rdy _ (by decide +kernel), rdy _ (by decide +kernel),
    by decide +kernel, by decide +kernel, by decide +kernel, ready_of rfl (by decide +kernel), by decide +kernel,
    ready_of rfl (by decide +kernel), rfl, mask3, by decide, by decide +kernel, by decide +kernel, by decide +kernel⟩

/-- A team with a control state of its own. -/
def withCtl (c : Ctl) : Team := { team0 with ctl := c }
def ctl0 : Ctl := team0.ctl
def retCtl : Ctl := { ctl0 with rs := { hw := [.ret 0x2000 0 3 0] } }

theorem witness_controlTransfers_calls : Ready (start team0) 0 team0 (.call { ext := false, off := 2 }) ∧
    Ready (start team0) 0 team0 (.callInd (a1 (.s 1))) ∧ ((start team0).uni team0 (.s 1)).toNat % 4 = 0 ∧ team0.inRegion = false ∧
    team0.ctl.rs.hw.length < 16 ∧ Ready (start (withCtl retCtl)) 0 (withCtl retCtl) .ret ∧
    retCtl.rs = { hw := [] ++ [.ret 0x2000 retCtl.ds.depth 3 0] } ∧ (0x2000 : DWord).toNat % 4 = 0 ∧
    (0 ||| retCtl.mask) &&& ~~~retCtl.exited ≠ 0 ∧ Ready (start team0) 0 team0 .ret ∧ team0.ctl.rs.hw = [] :=
  ⟨rdy _ (by decide +kernel), rdy _ (by decide +kernel), by decide +kernel, by decide +kernel, by decide, ready_of rfl (by decide +kernel),
    by decide +kernel, by decide, by decide +kernel, rdy _ (by decide +kernel), rfl⟩

def barCtl (enr arr : Mask) (n : Nat) : Ctl := { ctl0 with ds := { hw := [.barrier 0x1004 enr arr n] } }
def pathCtl : Ctl := { ctl0 with ds := { hw := [.path 0x3000 4] } }

theorem witness_controlReconvergence : Ready (start team0) 0 team0 (.sbar { ext := false, b := src .zero, off := 2 }) ∧
    Ready (start (withCtl (barCtl 3 0 2))) 0 (withCtl (barCtl 3 0 2)) .sarr ∧ after (withCtl (barCtl 3 0 2)) .sarr = 0x1004 ∧
    2 ≤ lanes (0 ||| (ctl0.mask &&& 3)) ∧ (ctl0.mask &&& ~~~3) ||| ((0 ||| (ctl0.mask &&& 3)) &&& ~~~ctl0.exited) ≠ 0 ∧
    Ready (start (withCtl (barCtl 5 0 2))) 0 (withCtl (barCtl 5 0 2)) .sarr ∧ lanes (0 ||| (ctl0.mask &&& 5)) < 2 ∧
    5 &&& ~~~ctl0.exited &&& ~~~(0 ||| (ctl0.mask &&& 5)) ≠ 0 ∧ ctl0.mask &&& ~~~5 ≠ 0 ∧ Ready (start team0) 0 team0 .sarr ∧
    Ready (start (withCtl (barCtl 3 0 2))) 0 (withCtl (barCtl 3 0 2)) (.brk false 1 2) ∧ ctl0.mask &&& ~~~ctl0.exited = ctl0.mask ∧
    Ready (start team0) 0 team0 (.brk false 1 2) ∧ Ready (start team0) 0 team0 .exit ∧ ctl0.ds = {} ∧ ctl0.rs = {} ∧
    Ready (start (withCtl pathCtl)) 0 (withCtl pathCtl) .exit ∧ 4 &&& ~~~(pathCtl.exited ||| pathCtl.mask) ≠ 0 :=
  ⟨rdy _ (by decide +kernel), ready_of rfl (by decide +kernel), by decide +kernel, by decide +kernel, by decide +kernel,
    ready_of rfl (by decide +kernel), by decide +kernel, by decide +kernel, by decide +kernel, rdy _ (by decide +kernel),
    ready_of rfl (by decide +kernel), by decide +kernel, rdy _ (by decide +kernel), rdy _ (by decide +kernel), rfl, rfl,
    ready_of rfl (by decide +kernel), by decide +kernel⟩

def cover0 : Cover := { m := 3, p := 1, pat := 3, n := 1, next := 0 }

theorem witness_prefixCoverage : Ready (start team0) 0 team0 (.pblk 3 1 2 false) ∧
    ({ ctl0 with cover := some cover0 } : Ctl).cover = some cover0 ∧ ({ ctl0 with cover := some cover0 } : Ctl).resume = none ∧
    cover0.next < cover0.n ∧ ({ cover0 with next := 1 } : Cover).n ≤ ({ cover0 with next := 1 } : Cover).next :=
  ⟨rdy _ (by decide +kernel), rfl, rfl, by decide, by decide⟩

/-- A team whose lanes 0 and 1 are in regions. -/
def withRegion (r : Region) : Team := { team0 with region := [(0, some r), (1, some r)] }
def teamR : Team := withRegion {}
def regional : List Instr :=
  [.arbeg (.s 3) 2, .arrng (ab (.s 1) (.s 2)), .arabt (a1 (.s 1)), .arst (stArgs (.v 4) (.v 1)),
    .arstIx 2 (src (.v 4)) (src (.v 1)) (src (.v 2)) 0, .arld (ldArgs (.v 1) (.v 4)), .arend]

theorem witness_regions : (∀ i ∈ regional, Ready (start teamR) 0 teamR i) ∧ Inside teamR ∧
    RegionStore (.arst (stArgs (.v 4) (.v 1))) (fun s T n => .direct (globAt (src (.v 4)) 0 s T n)) (.v 1) ∧
    (∀ i ∈ [Instr.arbeg (.s 3) 2, .arrng (ab (.s 1) (.s 2)), .arabt (a1 (.s 1)), .arst (stArgs (.v 4) (.v 1)), .arld (ldArgs (.v 1) (.v 4)),
      .arend], Ready (start team0) 0 team0 i) ∧ (∃ n ∈ team0.active, team0.regionOf n = none) ∧ (∀ n ∈ team0.active, team0.regionOf n = none) := by
  refine ⟨?_, by unfold Inside; decide +kernel, .arst _, ?_, by decide +kernel, by decide +kernel⟩
  · have h : regional.all (readyB (start teamR) 0) = true := by decide +kernel
    exact fun i hi => ready_of rfl (List.all_eq_true.1 h i hi)
  · intro i hi
    exact rdy i (by revert i; decide +kernel)

/-- A team at its arend, with the region of both lanes. -/
def atEnd (r : Region) (ls : List (Nat × Outcome)) : Team := { withRegion r with arend := some ls }

/-- A tenant's pages: bytes 0 to 2^30 − 1 of its address space are at 0, the next 2^30 at 12 GiB. -/
def mapped (s : State) : State :=
  { s with
    tenants := [(0, { ptroot := 0x100000 })]
    dram := [(0x100000, 0x01), (0x100001, 0x10), (0x100002, 0x10), (0x101000, 0x0F), (0x101008, 0x0F), (0x10100C, 0x03)]
    rot := [(0, 0x8000), (0x100, 0xC000), (0x101, 0xC000), (0x300000, 0x8000)] }

def atCom (r : Region) (ls : List (Nat × Outcome)) : State := mapped (start (atEnd r ls))

theorem atCommit (r : Region) (ls : List (Nat × Outcome)) (n : Nat) (w : Option (List Nat)) (hn : n = 0 ∨ n = 1)
    (h : nextCommit ls = some (n, match w with | none => .waiting | some l => .second l)) :
    AtCommit (atCom r ls) 0 (atEnd r ls) ls n r w := ⟨rfl, rfl, ⟨_, rfl, rfl⟩, rfl, h, by rcases hn with rfl | rfl <;> rfl⟩

/-- A region whose record's address moves with its input: it read 0x40, and memory holds 0. -/
def rMoves : Region := { rb := 0x100, rl := 0x80, inputs := [{ addr := 0x80, v := 0x40 }], records := [(.indexed 0x100 0 0 0, .word 7)] }
def rDoomed : Region := { doom := some (7, 1) }
def ls2 : List (Nat × Outcome) := [(0, .waiting), (1, .waiting)]

/-- The outcomes of the lanes at the commits below. -/
def lss : List (List (Nat × Outcome)) := [ls2, [(0, .second [4]), (1, .waiting)], [(0, .second [4])], [(0, .second [9])]]

theorem moves_gcheck : ∀ ls ∈ lss, ∀ e ∈ [((0x140 : DWord), 0x140, Want.write false), (0x100, 0x100, .write false), (0x80, 0x80, .read)],
    (atCom rMoves ls).gcheck (atEnd rMoves ls).cluster ((atCom rMoves ls).tenantIdOf (atEnd rMoves ls)) e.1 4 e.2.2 = .ok e.2.1 ∧
      (atCom rMoves ls).physPoisoned 0x80 4 = false ∧ wordsAt (atCom rMoves ls) [0x80] = [0] := by
  unfold wordsAt; decide +kernel

theorem sound_moves : CommitSound rMoves [0] := by
  refine ⟨?_, ?_, ?_⟩
  · intro e he; simp [rMoves] at he; subst he; exact nofun
  · intro j hj; simp [rMoves] at hj
  · intro e he; simp [rMoves] at he; subst he; exact ⟨fun _ => by decide +kernel, by decide +kernel⟩

theorem witness_regionCommit :
    (Ready (start teamR) 0 teamR .arend ∧ Inside teamR ∧ teamR.ctl.ds.hw.length + teamR.active.length ≤ 16 ∧
      (start teamR).arldOut 0 = false) ∧
    (AtCommit (atCom rDoomed ls2) 0 (atEnd rDoomed ls2) ls2 0 rDoomed none ∧
      AbortsWith (atCom rDoomed ls2) (atEnd rDoomed ls2) rDoomed none 7 1 ∧ nextCommit (settled ls2 0 (.aborted 7 1)) ≠ none) ∧
    (AtCommit (atCom rMoves ls2) 0 (atEnd rMoves ls2) ls2 0 rMoves none ∧ rMoves.doom = none ∧
      CommitRule (atCom rMoves ls2) (atEnd rMoves ls2) rMoves none (.again [4])) ∧
    (∃ ls, AtCommit (atCom rMoves ls) 0 (atEnd rMoves ls) ls 0 rMoves (some [4]) ∧
      CommitRule (atCom rMoves ls) (atEnd rMoves ls) rMoves (some [4]) (.write [(0x100, 7)]) ∧ nextCommit (settled ls 0 .committed) ≠ none) ∧
    (∃ ls, AtCommit (atCom rMoves ls) 0 (atEnd rMoves ls) ls 0 rMoves (some [4]) ∧
      CommitRule (atCom rMoves ls) (atEnd rMoves ls) rMoves (some [4]) (.write [(0x100, 7)]) ∧
      ∀ e ∈ settled ls 0 .committed, e.2 = .committed) ∧
    (∃ ls, ls = [(0, Outcome.second [9])] ∧ AtCommit (atCom rMoves ls) 0 (atEnd rMoves ls) ls 0 rMoves (some [9]) ∧
      AbortsWith (atCom rMoves ls) (atEnd rMoves ls) rMoves (some [9]) 8 0) ∧
    (∃ ls, ls = [(1, Outcome.committed), (0, .waiting)] ∧ AtCommit (atCom rDoomed ls) 0 (atEnd rDoomed ls) ls 0 rDoomed none ∧ 1 ≠ 0 ∧
      AbortsWith (atCom rDoomed ls) (atEnd rDoomed ls) rDoomed none 7 1 ∧ (atEnd rDoomed ls).ctl.ds.hw.length < 16) := by
  have w0 : ∀ ls ∈ lss, wordsAt (atCom rMoves ls) [0x80] = [0] := fun ls h => (moves_gcheck ls h (0x80, 0x80, .read) (by decide)).2.2
  have ps : ∀ ls ∈ lss, Translated (atCom rMoves ls) (atEnd rMoves ls) (writing (atEnd rMoves ls))
      (storesWith rMoves (wordsAt (atCom rMoves ls) [0x80])) [0x100] := fun ls h => by
    rw [w0 ls h]; exact .cons (moves_gcheck ls h (0x100, 0x100, .write false) (by decide)).1 .nil
  have ins : ∀ ls ∈ lss, Translated (atCom rMoves ls) (atEnd rMoves ls) .read (inputAddresses rMoves) [0x80] := fun ls h =>
    .cons (moves_gcheck ls h (0x80, 0x80, .read) (by decide)).1 .nil
  have clean : ∀ ls ∈ lss, ∀ pa ∈ [0x80], (atCom rMoves ls).physPoisoned pa 4 = false := fun ls h pa hp => by
    rw [List.mem_singleton.1 hp]; exact (moves_gcheck ls h (0x80, 0x80, .read) (by decide)).2.1
  have sound : ∀ ls ∈ lss, CommitSound rMoves (wordsAt (atCom rMoves ls) [0x80]) := fun ls h => by rw [w0 ls h]; exact sound_moves
  have first : ∀ ls ∈ lss, Locks (atCom rMoves ls) (atEnd rMoves ls) rMoves none [0x80] [2, 5] := fun ls h =>
    .first [0x140] [0x80] (.cons (moves_gcheck ls h (0x140, 0x140, .write false) (by decide)).1 .nil) (ins ls h)
  have second : ∀ ls ∈ lss, ∀ l, Locks (atCom rMoves ls) (atEnd rMoves ls) rMoves (some l) [0x80] ([2] ++ l) := fun ls h l =>
    .second l [0x80] (ins ls h)
  have wr : ∀ ls ∈ lss, CommitRule (atCom rMoves ls) (atEnd rMoves ls) rMoves (some [4]) (.write [(0x100, 7)]) := fun ls h => by
    have := CommitRule.write (some [4]) _ _ _ (second ls h [4]) (clean ls h) (sound ls h) (ps ls h) (by decide)
    rwa [w0 ls h] at this
  refine ⟨⟨ready_of rfl (by decide +kernel), by unfold Inside; decide +kernel, by decide +kernel, by decide +kernel⟩,
    ⟨atCommit _ _ _ _ (.inl rfl) (by decide), .inl rfl, by decide⟩,
    ⟨atCommit _ _ _ _ (.inl rfl) (by decide), rfl, .again _ _ _ (first ls2 (by decide)) (clean _ (by decide)) (sound _ (by decide)) (ps _ (by decide)) (by decide)⟩,
    ⟨[(0, .second [4]), (1, .waiting)], atCommit _ _ _ _ (.inl rfl) (by decide), wr _ (by decide), by decide⟩,
    ⟨[(0, .second [4])], atCommit _ _ _ _ (.inl rfl) (by decide), wr _ (by decide), by decide⟩,
    ⟨_, rfl, atCommit _ _ _ _ (.inl rfl) (by decide), .inr ⟨rfl, .unsettled _ _ _ _ (second _ (by decide) [9]) (clean _ (by decide)) (sound _ (by decide)) (ps _ (by decide)) (by decide)⟩⟩,
    ⟨_, rfl, atCommit _ _ _ _ (.inl rfl) (by decide), by decide, .inl rfl, by decide⟩⟩

/-- Each of R321's checks is the first to fail on some region and values. -/
theorem witness_commitFaults : CommitFault { inputs := [{ addr := 0, v := 1, pinned := true }] } [0] 2 0 ∧
    CommitFault { inputs := [{ addr := 0, v := 1 }], constraints := [⟨0, 0, .eq, .u, 1, true, true⟩] } [0] 1 0 ∧
    CommitFault { rMoves with rb := 0x200 } [0] 6 0 ∧ CommitFault { rMoves with rb := 0, rl := 0x200 } [1] 4 0x34 ∧
    (∃ ls, CommitRefused (start (atEnd rMoves ls)) (atEnd rMoves ls) .read (inputAddresses rMoves) 0x31) := by
  refine ⟨.pinned 0 _ 0 rfl (fun h => absurd (h rfl) (by decide)) (by simp [InputsTo]),
    .constraint 0 _ ?_ rfl (by simp [Constrained, holds, inputOf]) (by simp [ConstraintsTo]),
    .range 0 _ ?_ (by simp [ConstraintsTo, rMoves]) rfl (fun h => absurd (h trivial) (by decide +kernel)) (by simp [RecordsTo]),
    .align 0 _ ?_ (by simp [ConstraintsTo, rMoves]) rfl (fun _ => by decide +kernel) (by decide +kernel) (by simp [RecordsTo]),
    ls2, [], 0x80, [], [], rfl, .nil, by decide +kernel⟩
  · intro e he; simp at he; subst he; exact nofun
  · intro e he; simp [rMoves] at he; subst he; exact nofun
  · intro e he; simp [rMoves] at he; subst he; exact nofun

theorem witness_atomics_preCombining : Ready (start team0) 0 team0 (.cdet (da (.v 1) (.v 2))) ∧
    Ready (start team0) 0 team0 (.vcomb .add (dab (.v 1) (.v 2) (.v 3))) := ⟨rdy _ (by decide +kernel), rdy _ (by decide +kernel)⟩

theorem witness_atomics : Ready (start team0) 0 team0 (.satom .add (rmw (.v 1) (.v 2) (.v 3))) ∧
    GlobalAtomic (.gatom .add .home .w (rmw (.v 1) (.v 4) (.v 3))) (.v 1) .w ∧
    Ready (start team0) 0 team0 (.gatom .add .home .w (rmw (.v 1) (.v 4) (.v 3))) ∧ (start team0).queueUse 0 < 8 ∧ team0.active ≠ [] ∧
    (∀ n ∈ team0.active, ∃ core off w1, nearPlace ((start team0).frame team0) (some n) (nearAt (src (.v 2)) 0 (start team0) team0 n) 4 =
      .ok (.spm core off w1)) ∧
    Landing (sLand (.satom .add) 0x40) 1 0 0 (reqL (.satom .add) 0x40) { lane := 0, addr := 0x40, val := 9, st := .landing } team0
      (.spm 0 0x40 false) ∧ (sLand (.satom .add) 0x40).nearPoisoned (.spm 0 0x40 false) 4 = false ∧ (reqL (.satom .add) 0x40).words ≠ [] ∧
    ({ sLand (.satom .add) 0x40 with spmPoison := [(spmKey 0 0x40 / 4, true)] } : State).nearPoisoned (.spm 0 0x40 false) 4 = true :=
  ⟨rdy _ (by decide +kernel), .gatom _ _ _ _, rdy _ (by decide +kernel), by decide +kernel, by decide +kernel,
    fun n hn => ⟨0, 0, false, by rcases active0 hn with rfl | rfl <;> rfl⟩,
    ⟨rfl, rfl, by decide +kernel, by decide, by decide +kernel, rfl, by decide +kernel, by decide +kernel, by decide +kernel,
      by simp [reqL, Elem.parkedCode]⟩, by decide +kernel, by decide, by decide +kernel⟩

/-- A global atomic, and an input of an arld, each with its packet at the channel of its line. -/
def reqG (k : ReqKind) (arld : Bool) : Req :=
  { team := 0, kind := k, dst := .v 1 1, words := [0], arld := arld, elems := [{ lane := 0, addr := 0x40, val := 3, exp := 1, pa := 0x40 }] }
def pktG : Packet := { owner := .elem 1 0, cls := 1, tenant := 0, cluster := 0, line := 1, route := [], flits := 1, left := 1, slot := true }
def sAtom (k : ReqKind) (arld : Bool) : State :=
  { start teamE with reqs := [(1, reqG k arld)], fabric := [(2, pktG)], nextId := 3 }

theorem takes_alone (k : ReqKind) (h : k = .gatom .add 4 .home ∨ k = .value) (arld : Bool) : (sAtom k arld).channelTakes 2 pktG = true := by
  have hw : (sAtom k arld).waitingChan (channelOf 1) = [(2, pktG)] := by
    rcases h with rfl | rfl <;> simp [State.waitingChan, State.packets, State.pktAlive, sAtom, pktG, reqG, start, Table.get?, State.staysNear,
      State.needsSlot, State.atHome, Line.request]
  have : channelOf pktG.line = channelOf 1 := rfl
  simp only [State.channelTakes, this, hw]
  rfl

theorem arrives_alone (k : ReqKind) (h : k = .gatom .add 4 .home ∨ k = .value) (arld : Bool) : (sAtom k arld).arrives (.elem 1 0) = true := by
  have ht := takes_alone k h arld
  have hp : (sAtom k arld).packetOf (.elem 1 0) = some (2, pktG) := rfl
  have hr : pktG.route = [] := rfl
  have hs : pktG.slot = true := rfl
  simp [State.arrives, hp, ht, hr, hs]

theorem witness_globalAtomicActs :
    ((sAtom (.gatom .add 4 .home) false).reqs.get? 1 = some (reqG (.gatom .add 4 .home) false) ∧
      (sAtom (.gatom .add 4 .home) false).team? 0 = some teamE ∧
      (reqG (.gatom .add 4 .home) false).transit? 0 = some { lane := 0, addr := 0x40, val := 3, exp := 1, pa := 0x40 } ∧
      (sAtom (.gatom .add 4 .home) false).lineFirst 1 (reqG (.gatom .add 4 .home) false) { lane := 0, addr := 0x40, val := 3, exp := 1, pa := 0x40 } = true ∧
      (sAtom (.gatom .add 4 .home) false).arrives (.elem 1 0) = true ∧ (sAtom (.gatom .add 4 .home) false).physPoisoned 0x40 4 = false) ∧
    ({ sAtom (.gatom .add 4 .home) false with dramPoison := [(0x10, true)] } : State).physPoisoned 0x40 4 = true ∧
    ((sAtom .value true).reqs.get? 1 = some (reqG .value true) ∧ (sAtom .value true).team? 0 = some teamE ∧
      (reqG .value true).transit? 0 = some { lane := 0, addr := 0x40, val := 3, exp := 1, pa := 0x40 } ∧
      (sAtom .value true).arrives (.elem 1 0) = true ∧ (sAtom .value true).physPoisoned 0x40 4 = false) ∧
    ({ teamE with region := [(0, some {})] } : Team).regionOf 0 = some {} :=
  ⟨⟨rfl, rfl, by decide +kernel, by decide +kernel, arrives_alone _ (.inl rfl) _, by decide +kernel⟩, by decide +kernel,
    ⟨rfl, rfl, by decide +kernel, arrives_alone _ (.inr rfl) _, by decide +kernel⟩, rfl⟩

/-- Elements of lanes 0 and 1 on their way through window 1 to offsets 0 and 4 of core 0. -/
def elemW : Elem := { lane := 0, addr := 0x10000000, val := 9 }
def reqW (k : ReqKind) : Req := { team := 0, kind := k, dst := .v 1 1, words := [0], elems := [elemW, { elemW with lane := 1, addr := 0x10000004 }] }
/-- The second, and the first is done. -/
def reqV : Req := { reqW (.load 4 false) with elems := [elemW, { elemW with lane := 1, addr := 0x10000004, st := .done }] }
/-- A grid with a handler, whose core 0 is not of the block: its grants alone open it. -/
def sWin (r : Req) : State := { start teamE with reqs := [(1, r)], nextId := 2 }
def sShut (r : Req) : State :=
  { sWin r with
    blocks := [(0, { block0 with scratch := 0 })]
    grids := [(0, { tenant := 0, queue := 0, number := 0, launch := { launch0 with handler := some {} }, owner := .host 1 7, placed := 1 })] }

theorem arriving (r : Req) (h : r = reqW (.load 4 false) ∨ r = reqW (.store 4) ∨ r = reqV) : Arriving (sWin r) 1 0 r elemW teamE 0 0 := by
  rcases h with rfl | rfl | rfl <;>
    exact ⟨rfl, rfl, by decide +kernel, by decide, rfl, by decide +kernel, rfl, by decide +kernel, by decide +kernel, .inr (by decide +kernel)⟩
theorem arrivingShut (r : Req) (h : r = reqW (.load 4 false) ∨ r = reqW (.store 4) ∨ r = reqV) : Arriving (sShut r) 1 0 r elemW teamE 0 0 := by
  rcases h with rfl | rfl | rfl <;>
    exact ⟨rfl, rfl, by decide +kernel, by decide, rfl, by decide +kernel, rfl, by decide +kernel, by decide +kernel, .inr (by decide +kernel)⟩

/-- An instruction parked by its trap and released. -/
def elemP : Elem := { lane := 0, addr := 0, val := 9, st := .parked 0x20 }
def reqP (k : ReqKind) : Req :=
  { team := 0, kind := k, dst := .v 1 1, words := [0], entry := some 2, released := true, elems := [elemP] }
def sPark (k : ReqKind) : State := { start teamE with reqs := [(1, reqP k)], nextId := 2 }

theorem replaying (k : ReqKind) (h : k = .load 4 false ∨ k = .store 4) :
    Replaying (sPark k) 0 2 1 (reqP k) elemP teamE 4 (.spm 0 0 false) := by
  rcases h with rfl | rfl <;> exact ⟨by decide +kernel, rfl, ⟨_, rfl, rfl⟩, by decide +kernel, by decide +kernel, by decide +kernel, rfl⟩

/-- A satom's element of lane 1 waits for that of lane 0. -/
def reqHeld : Req :=
  { team := 0, kind := .satom .add, dst := .v 1 1, words := [0]
    elems := [{ lane := 0, addr := 0x10000000 }, { lane := 1, addr := 0, st := .landing }] }

theorem witness_elementsArrive : Arriving (sWin (reqW (.load 4 false))) 1 0 (reqW (.load 4 false)) elemW teamE 0 0 ∧
    Arriving (sWin (reqW (.store 4))) 1 0 (reqW (.store 4)) elemW teamE 0 0 ∧
    (sWin (reqW (.load 4 false))).granted ((sWin (reqW (.load 4 false))).frame teamE) 0 0 = true ∧
    (Arriving (sShut (reqW (.store 4))) 1 0 (reqW (.store 4)) elemW teamE 0 0 ∧
      (sShut (reqW (.store 4))).granted ((sShut (reqW (.store 4))).frame teamE) 0 0 = false ∧
      ∃ x ∈ (reqW (.store 4)).elems, x.lane ≠ 0 ∧ x.st = .transit) ∧
    (Arriving (sShut reqV) 1 0 reqV elemW teamE 0 0 ∧ (sShut reqV).granted ((sShut reqV).frame teamE) 0 0 = false ∧ reqV.kind.queued = true ∧
      reqV.entry = none ∧ (reqV.elems.map Elem.lane).Nodup ∧ (∀ y ∈ reqV.elems, y.lane ≠ 0 → y.st ≠ .transit) ∧
      (∃ g, (sShut reqV).grid? ((sShut reqV).gridIdOf teamE) = some g ∧ g.launch.handler.isSome = true ∧
        ∃ x, (sShut reqV).tenant? g.tenant = some x ∧ x.records.length < 256) ∧ teamE.handler = none ∧ (sShut reqV).arising = []) ∧
    (∃ s, s = sWin reqHeld ∧ s.reqs.get? 1 = some reqHeld ∧ s.team? 0 = some teamE ∧
      reqHeld.flying? 1 = some { lane := 1, addr := 0, st := .landing } ∧ (reqHeld.elems.map Elem.lane).Nodup ∧
      elemPlace (s.frame teamE) reqHeld.kind { lane := 1, addr := 0, st := .landing } = .ok (.spm 0 0 false) ∧
      (∀ x ∈ reqHeld.elems, x.parkedCode = none) ∧ HeldBack s 1 1 reqHeld teamE (.spm 0 0 false)) ∧
    Replaying (sPark (.load 4 false)) 0 2 1 (reqP (.load 4 false)) elemP teamE 4 (.spm 0 0 false) ∧
    Replaying (sPark (.store 4)) 0 2 1 (reqP (.store 4)) elemP teamE 4 (.spm 0 0 false) ∧
    (sPark (.load 4 false)).nearPoisoned (.spm 0 0 false) 4 = false ∧
    (∀ x ∈ (reqP (.load 4 false)).elems, x.lane ≠ elemP.lane → x.st = .done) ∧ ∀ w ∈ (reqP (.load 4 false)).words, w < 32 :=
  ⟨arriving _ (.inl rfl), arriving _ (.inr (.inl rfl)), by decide +kernel,
    ⟨arrivingShut _ (.inr (.inl rfl)), by decide +kernel, by decide +kernel⟩,
    ⟨arrivingShut _ (.inr (.inr rfl)), by decide +kernel, rfl, rfl, by decide, by decide, ⟨_, rfl, rfl, _, rfl, by decide⟩, rfl, rfl⟩,
    ⟨_, rfl, rfl, rfl, by decide +kernel, by decide, by decide +kernel, by decide +kernel,
      .inr ⟨{ lane := 0, addr := 0x10000000 }, by decide, by decide, .spm 0 0 true, by decide +kernel, .inl ⟨_, rfl⟩⟩⟩,
    replaying _ (.inl rfl), replaying _ (.inr rfl), by decide +kernel, by decide, by decide⟩

/-- A team whose lane 0 holds 12, a reserved tag, in v4. -/
def teamTag : Team := { team0 with regs := { team0.regs with lane := [(4, 12)] } }

theorem witness_termWords : Ready (start team0) 0 team0 (.tmk (dab (.v 2) (.v 4) (.v 5))) ∧
    (∀ n ∈ team0.active, ((start team0).word team0 n (.v 4)).toNat % 16 ≤ 9) ∧
    Ready (start teamTag) 0 teamTag (.tmk (dab (.v 2) (.v 4) (.v 5))) ∧ teamTag.active = 0 :: [1] ∧
    10 ≤ ((start teamTag).word teamTag 0 (.v 4)).toNat % 16 ∧ Ready (start team0) 0 team0 (.ttag (da (.v 1) (.v 2))) ∧
    Ready (start team0) 0 team0 (.tis 2 (da (.v 1) (.v 2))) ∧ Ready (start team0) 0 team0 (.tval (da (.v 2) (.v 4))) ∧
    Ready (start team0) 0 team0 (.tmark .bp false (.v 1)) :=
  ⟨rdy _ (by decide +kernel), by decide +kernel, ready_of rfl (by decide +kernel), by decide +kernel, by decide +kernel,
    rdy _ (by decide +kernel), rdy _ (by decide +kernel), rdy _ (by decide +kernel), rdy _ (by decide +kernel)⟩

/-- A team whose term instruction has lane 0 left, on the operand a, and lane 1 done. -/
def lastLane (a : DWord) : TermLane := { lane := 0, a := a }
def lastRun (op : Machine.TermOp) (d : Opnd) (a : DWord) : TermRun :=
  { op := op, d := d, size := 4, lanes := [lastLane a, { lane := 1, st := .done 7 }] }
def teamRun (r : TermRun) : Team := { team0 with run := some r }

theorem last_lane (op : Machine.TermOp) (d : Opnd) (a : DWord) :
    LastLane (start (teamRun (lastRun op d a))) 0 (teamRun (lastRun op d a)) (lastRun op d a) (lastLane a) :=
  ⟨rfl, rfl, (by decide +kernel : team0.amask ≠ 0), ⟨_, rfl, rfl⟩, rfl, rfl, rfl, ⟨rfl, rfl⟩, fun m hm h => by
    rcases List.mem_cons.1 hm with rfl | hm
    · exact (h rfl).elim
    · rw [List.mem_singleton.1 hm]; exact ⟨7, rfl⟩, (by decide : ([0, 1] : List Nat).Nodup), rfl⟩

/-- The rules hold of some operands: on operands of zero these leave the state as it is. -/
theorem deref0 : Derefs (cellAt (start team0) 0 team0 0) (team0.ctx 0) 0 none (.ref 0) 1 :=
  .self _ _ (by unfold Sound; decide +kernel) (by decide +kernel) (by decide +kernel)
theorem derefV (x : DWord) (h : x = termOf 3 5 ∨ x = termOf 3 6) : Derefs (cellAt (start team0) 0 team0 0) (team0.ctx 0) x none (.value x) 0 := by
  rcases h with rfl | rfl <;> exact .value _ _ (by unfold Sound; decide +kernel) (by decide +kernel) (by decide +kernel)
theorem witness_lane_bcol : ∃ R, LaneDoes 0 .bcol R ∧ R (start team0) team0 0 0 0 (start team0) (team0.ctx 0) 0 :=
  ⟨_, .bcol, by decide +kernel, rfl, by decide +kernel, rfl⟩
theorem witness_lane_cut : ∃ R, LaneDoes 0 .cut R ∧ R (start team0) team0 0 0 0 (start team0) (team0.ctx 0) 0 :=
  ⟨_, .cut, by decide +kernel, rfl, by decide +kernel, rfl⟩
theorem witness_lane_untrail : ∃ R, LaneDoes 0 .untrail R ∧ R (start team0) team0 0 0 0 (start team0) (team0.ctx 0) 0 :=
  ⟨_, .untrail, _, by unfold MarkOk; decide +kernel, .stop _ _ (by decide +kernel), by decide +kernel, rfl⟩
theorem witness_lane_bind : ∃ R, LaneDoes 0 .bind R ∧ R (start team0) team0 0 0 0 (start team0) (team0.ctx 0) 0 :=
  ⟨_, .bind, rfl, _, _, _, _, deref0, deref0, by decide, nofun, fun _ => ⟨rfl, rfl⟩, fun h => (h rfl).elim⟩
theorem witness_lane_mkvar : ∃ R, LaneDoes 0 .mkvar R ∧ R (start team0) team0 0 0 0 (start team0) (team0.ctx 0) 0 :=
  ⟨_, .mkvar, by decide +kernel⟩
theorem witness_lane_deref : ∃ R, LaneDoes 0 .deref R ∧ R (start team0) team0 0 0 0 (start team0) (team0.ctx 0) 0 :=
  ⟨_, .deref, rfl, rfl, _, _, deref0, by decide, by decide +kernel⟩
theorem witness_lane_unify : ∃ R, LaneDoes 0 (.unify false) R ∧ R (start team0) team0 0 0 0 (start team0) (team0.ctx 0) 1 :=
  ⟨_, .unify _, _, true, .sameVars _ _ _ _ _ _ _ _ _ _ _ _ _ deref0 deref0 rfl (.done _ _), by decide, rfl⟩
theorem witness_lane_unifyOc : ∃ R, LaneDoes 0 (.unify true) R ∧
    R (start team0) team0 0 (termOf 3 5) (termOf 3 6) (start team0) (team0.ctx 0) 0 :=
  ⟨_, .unify _, _, false, .clash _ _ _ _ _ _ _ _ _ (derefV _ (.inl rfl)) (derefV _ (.inr rfl)) (by decide +kernel), by decide, rfl⟩

theorem witness_termsComplete : CompletingTerm (.bcol (a1 (.v 1))) (fun _ => .bcol) .zero (opWord (src (.v 1))) ∧
    CompletingTerm (.mkvar (da (.v 2) (.v 1))) (fun _ => .mkvar) (.v 2) (opWord (src (.v 1))) ∧
    Ready (start team0) 0 team0 (.bcol (a1 (.v 1))) ∧ Ready (start team0) 0 team0 (.cut (a1 (.v 1))) ∧
    Ready (start team0) 0 team0 (.untrail (a1 (.v 1))) ∧ Ready (start team0) 0 team0 (.bind (ab (.v 4) (.v 6))) ∧
    Ready (start team0) 0 team0 (.mkvar (da (.v 2) (.v 1))) ∧
    (∃ s T r l R, LastLane s 0 T r l ∧ LaneDoes 0 r.op R ∧ (∃ s1 c x, R s T l.lane l.a l.b s1 c x) ∧ r.op.dst r.d = .none ∧
      EndsNow s 0 T r l) :=
  ⟨.bcol _, .mkvar _, ready_of rfl (by decide +kernel), ready_of rfl (by decide +kernel), ready_of rfl (by decide +kernel),
    ready_of rfl (by decide +kernel), ready_of rfl (by decide +kernel),
    _, _, _, _, _, last_lane .bcol .zero 8, .bcol, ⟨_, _, _, by decide, rfl, rfl, rfl⟩, rfl, 0, rfl⟩

/-- Lane 0 undoes a binding of cell 0; and it has undone them all, having stopped with 0x52. -/
def undoing (es : List DWord) : TermLane := { lane := 0, st := .undoing es (some (0x52, 0)) }
def runU : TermRun := { op := .unify false, d := .v 2, size := 4, lanes := [undoing [], { lane := 1, st := .stopped 0x50 0 }] }

theorem witness_termsProduce : ProducingTerm (.deref (da (.v 2) (.v 4))) .deref (.v 2) 2 (fun s T n => (s.dword T n (.v 4), 0)) ∧
    ProducingTerm (.unify (dab (.v 2) (.v 4) (.v 6))) (.unify false) (.v 2) 1 (opTerms (src (.v 4)) (src (.v 6))) ∧
    Ready (start team0) 0 team0 (.deref (da (.v 2) (.v 4))) ∧ Ready (start team0) 0 team0 (.unify (dab (.v 2) (.v 4) (.v 6))) ∧
    team0.ctl.resume = none ∧
    (∃ s T r l R, LastLane s 0 T r l ∧ LaneDoes 0 r.op R ∧ (∃ s1 c x, R s T l.lane l.a l.b s1 c x) ∧ r.op.dst r.d = .v 2 2 ∧
      T.ctl.resume = none ∧ EndsNow s 0 T r l) ∧
    (tagNum (refTo 0) = 0 ∧ ∃ s1, writeCells 0 team0 0 (start team0) [(low (refTo 0), refTo 0)] = some s1) ∧
    (tagNum (termOf 1 3) = 1 ∧ ∃ s1, writeCells 0 team0 0 (start team0) [(entryOf (team0.ctx 0) (low (termOf 1 3)), emptyEntry)] = some s1) ∧
    ((start (teamRun runU)).team? 0 = some (teamRun runU) ∧ (teamRun runU).st = .running ∧ (teamRun runU).run = some runU ∧ runU.fill = none ∧
      runU.lanes.find? (fun m => m.lane == (undoing []).lane) = some (undoing []) ∧
      (∃ b, (start (teamRun runU)).block? 0 = some b ∧ b.st = .placed) ∧
      ∀ m ∈ runU.lanes, m.lane ≠ (undoing []).lane → (∃ y, m.st = .done y) ∨ ∃ c a, m.st = .stopped c a) :=
  ⟨.deref _, .unify _, ready_of rfl (by decide +kernel), ready_of rfl (by decide +kernel), rfl,
    ⟨_, _, _, _, _, last_lane .deref (.v 2) (termOf 3 5), .deref, ⟨_, _, _, rfl, rfl, _, _,
      .value _ _ (by unfold Sound; decide +kernel) (by decide +kernel) (by decide +kernel), by decide, rfl⟩, rfl, rfl, termOf 3 5, by decide +kernel⟩,
    ⟨by decide +kernel, Option.isSome_iff_exists.1 (by decide +kernel)⟩, ⟨by decide +kernel, Option.isSome_iff_exists.1 (by decide +kernel)⟩,
    rfl, rfl, rfl, rfl, rfl, ⟨_, rfl, rfl⟩, fun m hm h => by
      rcases List.mem_cons.1 hm with rfl | hm
      · exact (h rfl).elim
      · rw [List.mem_singleton.1 hm]; exact .inr ⟨_, _, rfl⟩⟩

/-- A result that a check gives, of which a Boolean holds. -/
theorem ok_of {ε α : Type} {e : Except ε α} (f : α → Bool) (h : (match e with | .ok p => f p | .error _ => false) = true) :
    ∃ p, e = .ok p ∧ f p = true := by
  cases e with
  | ok p => exact ⟨p, rfl, h⟩
  | error _ => simp at h

/-- A block with a stream, and the turn of that stream. -/
def bx (m : Stream) : Block := { block0 with stream := some m }
theorem sready {m : Stream} {i : Instr} (hr : m.halted = false ∧ m.ended = false) (hw : (startStream m).stepWaits 0 = false)
    (hs : i.standing.stream = true) : StreamReady (startStream m) 0 (bx m) m i := ⟨rfl, rfl, rfl, hr, rfl, hw, hs⟩

def latch0 : Latch := { block := 0, quads := [0], ctx := ⟨.e4m3, false, [], false, none, false⟩ }
def sLatch : State := { startStream stream0 with latches := [(0, latch0)] }

theorem witness_matrixWeights : WeightLoad (.mwld .e4m3 false 1 (src (.lit 0)) (src .zero)) .e4m3 false false 1 (src (.lit 0)) (src .zero) ∧
    StreamReady (startStream stream0) 0 (bx stream0) stream0 (.mwld .e4m3 false 1 (src (.lit 0)) (src .zero)) ∧
    (∃ j, (1 : BitVec 16).getLsbD j = true) ∧
    (∀ j < 16, (1 : BitVec 16).getLsbD j = true → ∃ c, (bx stream0).quarters[j]? = some c ∧ coreOf c = (bx stream0).core) ∧
    (startStream stream0).readsOut 0 = false ∧ (startStream stream0).firstBad ((bx stream0).streamFrame 0)
      (byteRun (((startStream stream0).streamSrc (bx stream0) (.lit 0)).setWidth 32) (imageBytes .e4m3 false)) = none ∧
    StreamReady (startStream stream0) 0 (bx stream0) stream0 (.mwld .e4m3 false 0 (src (.lit 0)) (src .zero)) ∧
    (∃ j, (0x10 : BitVec 16).getLsbD j = true ∧ ∀ c, (bx stream0).quarters[j]? = some c → coreOf c ≠ (bx stream0).core) ∧
    sLatch.latches.get? 0 = some latch0 ∧ sLatch.block? 0 = some (bx stream0) ∧ (∀ e ∈ sLatch.msteps, e.2.block ≠ 0) ∧
    (∀ e ∈ sLatch.latches, e.2.block = latch0.block → 0 ≤ e.1) := by
  refine ⟨.mwld _ _ _ _ _, srdy _ (by decide +kernel), ⟨0, by decide⟩, ?_, by decide +kernel, by decide +kernel, sready (by decide)
    (by decide +kernel) rfl, ⟨4, by decide, nofun⟩, by decide +kernel, rfl, nofun, fun _ _ _ => Nat.zero_le _⟩
  intro j hj h
  have : ∀ j < 16, (1 : BitVec 16).getLsbD j = true → j = 0 := by decide
  cases this j hj h
  exact ⟨0, rfl, rfl⟩

/-- A stream with a map and the weights of quadrant 0. -/
def map1 : MMap := ⟨0, none, .e4m3, true, 32, 1⟩
def stream1 : Stream := { stream0 with maps := [(0, map1)], contexts := [(0, latch0.ctx)] }
def args0 : StepArgs := { tile := 0, map := 0, z := true, x := 0, sparse := false }
def step0 : MStep := { block := 0, quads := [0], cls := 0, passed := 64, group := [⟨0, 0, 0⟩], tile := 0, mapNo := 0,
                       map := map1, z := true, x := 0, sparse := false }
def sStep (m : MStep) : State := { startStream stream1 with msteps := [(3, m)], nextId := 4 }

def stepGood (s : State) (free : Bool) (p : List Member × MMap) : Bool :=
  !s.latchOut 0 (p.1.map Member.quad) && (if free then p.1.all (fun u => s.quadFree ((bx stream1).quarterOf u.quad))
    else p.1.any (fun u => !s.quadFree ((bx stream1).quarterOf u.quad))) &&
  ((List.range p.2.lines).flatMap p.2.line ++ p.2.scaleRun).all (fun a => !(s.nearByte ((bx stream1).streamFrame 0) a).2)

theorem clean0 : CleanOperands (sStep step0) ((bx stream1).streamFrame 0) step0.map := by
  have h : ((List.range step0.map.lines).flatMap step0.map.line ++ step0.map.scaleRun).all
      (fun a => !((sStep step0).nearByte ((bx stream1).streamFrame 0) a).2) = true := by decide +kernel
  exact fun a ha => by simpa using List.all_eq_true.1 h a ha

/-- A stream with an error in tile 0; a step that accumulates on it; and steps that have words to read, and have read them. -/
def streamZ : Stream := { stream1 with tilePoison := [(0, true)] }
def argsZ : StepArgs := { args0 with z := false }
def stepReads : MStep := { step0 with running := true, lines := [[(0, none)]] }
def stepRead : MStep := { step0 with running := true, lines := [[(0, some 1)]] }

theorem witness_matrixSteps : StepRule (.mmul 0 0 true 0) args0 ∧ StreamReady (startStream stream1) 0 (bx stream1) stream1 (.mmul 0 0 true 0) ∧
    (∃ p, (startStream stream1).stepCheck 0 (bx stream1) stream1 args0 = .ok p ∧ stepGood (startStream stream1) true p = true) ∧
    (∃ p, { startStream stream1 with msteps := [(3, { step0 with block := 1, running := true })] }.stepCheck 0 (bx stream1) stream1 args0 =
      .ok p ∧ stepGood { startStream stream1 with msteps := [(3, { step0 with block := 1, running := true })] } false p = true) ∧
    (sStep step0).msteps.get? 3 = some step0 ∧ step0.running = false ∧ 64 ≤ step0.passed ∧ (sStep step0).block? 0 = some (bx stream1) ∧
    (∀ q ∈ step0.quads, (sStep step0).quadFree q = true) ∧
    (∃ p, (sStep step0).stepCheck 0 (bx stream1) stream1 (step0.args step0.mapNo) = .ok p ∧ stepGood (sStep step0) true p = true) ∧
    CleanOperands (sStep step0) ((bx stream1).streamFrame 0) step0.map ∧
    (∀ e ∈ (sStep { step0 with running := true }).msteps, e.2.running = true) ∧ (step0.group.map Member.quad).Nodup ∧
    NoneKept (startStream stream1) [0] 0 ∧ args0.z = true ∧
    (StepRule (.mmul 0 0 false 0) argsZ ∧ StreamReady (startStream streamZ) 0 (bx streamZ) streamZ (.mmul 0 0 false 0) ∧ argsZ.z = false ∧
      (∃ p, (startStream streamZ).stepCheck 0 (bx streamZ) streamZ argsZ = .ok p ∧
        (p.1.all (fun u => u.half == 0 && Sparse.get false streamZ.tilePoison (16 * u.quad + argsZ.tile % 16)) && !p.1.isEmpty &&
          p.1.all (fun u => (startStream streamZ).quadFree ((bx streamZ).quarterOf u.quad))) = true) ∧ (startStream streamZ).msteps = []) ∧
    ((sStep stepReads).msteps.get? 3 = some stepReads ∧ stepReads.running = true ∧ stepReads.unread ≠ []) ∧
    ((sStep stepRead).msteps.get? 3 = some stepRead ∧ stepRead.running = true ∧ stepRead.unread = [] ∧ stepRead.bad = false ∧
      (sStep stepRead).block? stepRead.block = some (bx stream1) ∧ (bx stream1).stream = some stream1) ∧
    ({ stepRead with bad := true }.unread = [] ∧ { stepRead with bad := true }.bad = true) :=
  ⟨.mmul _ _ _ _, sready (by decide) (by decide +kernel) rfl, ok_of _ (by decide +kernel), ok_of _ (by decide +kernel), by decide +kernel, rfl,
    by decide, rfl, by decide +kernel, ok_of _ (by decide +kernel), clean0, by decide, by decide, nofun, rfl,
    ⟨.mmul _ _ _ _, sready (by decide) (by decide +kernel) rfl, rfl,
      ok_of (fun p : List Member × MMap => p.1.all (fun u => u.half == 0 && Sparse.get false streamZ.tilePoison (16 * u.quad + argsZ.tile % 16)) && !p.1.isEmpty &&
          p.1.all (fun u => (startStream streamZ).quadFree ((bx streamZ).quarterOf u.quad))) (by decide +kernel), rfl⟩,
    ⟨by decide +kernel, rfl, by decide +kernel⟩, ⟨by decide +kernel, rfl, rfl, rfl, rfl, rfl⟩, rfl, rfl⟩

/-- A team whose s1 holds 32, and a block whose stream has ended. -/
def team32 : Team := { team0 with regs := { sreg := [(1, 32), (2, 0x40)] } }
def noStream (t : Team) : State := { start t with blocks := [(0, { block0 with stream := none })] }
def mread0 : MRead := { block := 0, team := some 0, core := 0, rows := [(0, [1])] }

theorem witness_matrixReads : Ready (start team0) 0 team0 (.mrd .f32 .rn 8 (src (.s 2)) 0 0) ∧
    (start team0).streamOf team0 = some (block0, { pc := 0x2000 }) ∧ team0.count.matrix < 255 ∧
    (∃ w, (start team0).tileRead .f32 .rn ((start team0).frame team0) team0.block block0 { pc := 0x2000 } (some 0) (0 : Fin 64).val 128
      (((start team0).uni team0 (.s 2)).setWidth 32 + BitVec.ofInt 32 (0 : BitVec 21).toInt) = .ok w ∧ true = true) ∧
    StreamReady (startStream stream0) 0 (bx stream0) stream0 (.mrd .f32 .rn 8 ⟨.s 1, false⟩ 0 0) ∧ streamSource (.lit 0) = true ∧
    StreamReady (startStream stream0) 0 (bx stream0) stream0 (.mrd .f32 .rn 8 (src (.lit 0)) 0 0) ∧
    (startStream stream0).stepOn 0 0 MStep.tiles = false ∧
    (∃ w, (startStream stream0).tileRead .f32 .rn ((bx stream0).streamFrame 0) 0 (bx stream0) stream0 none (0 : Fin 64).val 128
      (((startStream stream0).streamSrc (bx stream0) (.lit 0)).setWidth 32 + BitVec.ofInt 32 (0 : BitVec 21).toInt) = .ok w ∧ true = true) ∧
    Ready (noStream team0) 0 team0 (.mrd .f32 .rn 8 (src (.s 2)) 0 0) ∧ (noStream team0).streamOf team0 = none ∧
    { start team0 with mreads := [(1, mread0)] }.mreads.get? 1 = some mread0 ∧ Ready (start team0) 0 team0 (.mtov (.v 1) 0 (src (.s 1))) ∧
    (start team0).tileOk block0 0 = true ∧ ((start team0).uni team0 (.s 1)).toNat % 2 ^ 32 < 32 ∧
    Sparse.get false ({ pc := 0x2000 } : Stream).tilePoison 0 = false ∧ Ready (noStream team0) 0 team0 (.mtov (.v 1) 0 (src (.s 1))) ∧
    Ready (start team32) 0 team32 (.mtov (.v 1) 0 (src (.s 1))) ∧ 32 ≤ ((start team32).uni team32 (.s 1)).toNat % 2 ^ 32 :=
  ⟨rdy _ (by decide +kernel), rfl, by decide, ok_of (fun _ => true) (by decide +kernel), sready (by decide) (by decide +kernel) rfl, rfl,
    srdy _ (by decide +kernel), by decide +kernel, ok_of (fun _ => true) (by decide +kernel), ready_of rfl (by decide +kernel), rfl, by decide +kernel, rdy _ (by decide +kernel),
    by decide +kernel, by decide +kernel, rfl, ready_of rfl (by decide +kernel), ready_of rfl (by decide +kernel), by decide +kernel⟩

/-- The team at named barrier 0 of its core, which stands as `b`. -/
def teamB : Team := { team0 with regs := { sreg := [(1, 4)] } }
def sBar (b : Barrier) : State := { start teamB with bars := [(barKey 0 0, b)] }
/-- A team of another block that waits on it, not initialised. -/
def teamU : Team := { team0 with block := 1, waitBar := some 0 }
def sTwo : State := { sBar {} with teams := [(0, teamB), (1, teamU)], blocks := [(0, block0), (1, { block0 with index := 1, quarters := [4, 5] })] }
def teamW : Team := { teamB with waitBar := some 0 }
def sW : State := { start teamW with bars := [(barKey 0 0, {})] }
def barOwn : Barrier := { owner := some 0, xa := 4, pn := 1 }
def stX (x : BitVec 21) : StArgs := { ext := true, a := src (.s 2), b := src (.s 3), x := x }
def s21 : StArgs := stArgs (.s 2) (.s 1)
def expB : StArgs := stX (-1)

theorem own (b : Barrier) (h : b.owner = some 0) : Owned (sBar b) ((sBar b).frame teamB) ((sBar b).uni teamB (.s 2)) (.named 0 0) b :=
  ⟨rfl, rfl, by simp [barHold, h]; rfl⟩
theorem quietB (b : Barrier) : Quiescent (sBar b) 0 teamB := ⟨rfl, rfl, rfl, rfl⟩
theorem bready {b : Barrier} {i : Instr} (h : readyB (sBar b) 0 i = true) : Ready (sBar b) 0 teamB i := ready_of rfl h

theorem witness_barrierOperations :
    (Ready (sBar {}) 0 teamB (.barInit s21) ∧ (sBar {}).barRef ((sBar {}).frame teamB) ((sBar {}).uni teamB (.s 2)) = .ok (.named 0 0) ∧
      (sBar {}).bar (.named 0 0) = {} ∧ barHold {} (.named 0 0) 0 ≠ .foreign ∧ 1 ≤ (countOf s21 (sBar {}) teamB).toNat ∧
      (countOf s21 (sBar {}) teamB).toNat ≤ 65535 ∧ NoneWait (sBar {}) (.named 0 0)) ∧
    (Ready sTwo 0 teamB (.barInit s21) ∧ sTwo.barRef (sTwo.frame teamB) (sTwo.uni teamB (.s 2)) = .ok (.named 0 0) ∧
      sTwo.bar (.named 0 0) = {} ∧ sTwo.teams.keys (fun u => u.waitBar == some (64 * 0 + 0)) = [1] ∧ sTwo.team? 1 = some teamU ∧
      teamU.st = .running ∧ teamU.block ≠ teamB.block ∧ (∃ y, sTwo.block? 1 = some y ∧ y.st = .placed) ∧
      ∀ e ∈ sTwo.blocks, ∀ m, e.2.stream = some m → m.waiting ≠ some (64 * 0 + 0)) ∧
    (Ready (sBar {}) 0 teamB (.barWait (stX 0)) ∧ ((sBar {}).bar (.named 0 0)).owner = none ∧ ((sBar {}).bar (.named 0 0)).pn < 65536 ∧
      ¬phasePast {} ((countOf (stX 0) (sBar {}) teamB).toNat % 65536) ∧ teamB.waitBar = none ∧
      Ready (sBar {}) 0 teamB (.barWait (stX 0x8000)) ∧ phasePast {} ((countOf (stX 0x8000) (sBar {}) teamB).toNat % 65536) ∧
      Ready sW 0 teamW (.barWait (stX 0)) ∧ teamW.waitBar = some (64 * 0 + 0)) ∧
    (sBar barOwn).nearOut 0 = false ∧
    (Ready (sBar {}) 0 teamB (.barInit (stX 0)) ∧ (countOf (stX 0) (sBar {}) teamB).toNat < 1 ∧
      Ready (sBar { barOwn with ar := 1 }) 0 teamB (.barInit s21)) ∧
    (Ready (sBar barOwn) 0 teamB (.barExp s21) ∧ Owned (sBar barOwn) ((sBar barOwn).frame teamB) ((sBar barOwn).uni teamB (.s 2)) (.named 0 0) barOwn ∧
      0 ≤ barOwn.xb + ((countOf s21 (sBar barOwn) teamB).setWidth 32).toInt ∧
      Ready (sBar barOwn) 0 teamB (.barExp expB) ∧ barOwn.xb + ((countOf expB (sBar barOwn) teamB).setWidth 32).toInt < 0) ∧
    (Ready (sBar barOwn) 0 teamB (.barArr false s21) ∧ Ready (sBar barOwn) 0 teamB (.barArr true s21) ∧ Quiescent (sBar barOwn) 0 teamB ∧
      1 ≤ (countOf s21 (sBar barOwn) teamB).toNat ∧ barOwn.ar + (countOf s21 (sBar barOwn) teamB).toNat = barOwn.xa ∧
      barOwn.xa < barOwn.ar + (countOf (stX 5) (sBar barOwn) teamB).toNat ∧ Ready (sBar barOwn) 0 teamB (.barArr false (stX 5))) ∧
    (Ready (sBar barOwn) 0 teamB (.barWait (stX 0)) ∧ barOwn.pn < 65536 ∧ phasePast barOwn ((countOf (stX 0) (sBar barOwn) teamB).toNat % 65536) ∧
      Ready (sBar barOwn) 0 teamB (.barWait (stX 1)) ∧ ¬phasePast barOwn ((countOf (stX 1) (sBar barOwn) teamB).toNat % 65536)) ∧
    (sBar { barOwn with owner := some 5 }).barRef ((sBar { barOwn with owner := some 5 }).frame teamB)
      ((sBar { barOwn with owner := some 5 }).uni teamB (.s 2)) = .ok (.named 0 0) ∧
    barHold ((sBar { barOwn with owner := some 5 }).bar (.named 0 0)) (.named 0 0) 0 = .foreign ∧
    Ready (sBar { barOwn with owner := some 5 }) 0 teamB (.barInit s21) ∧ Ready (sBar { barOwn with owner := some 5 }) 0 teamB (.barExp s21) ∧
    Ready (sBar { barOwn with owner := some 5 }) 0 teamB (.barArr false s21) ∧
    Ready (sBar { barOwn with owner := some 5 }) 0 teamB (.barWait s21) := by
  refine ⟨⟨bready (by decide +kernel), rfl, rfl, by decide, by decide +kernel, by decide +kernel, fun core n h => by
      cases h; exact ⟨by decide +kernel, by simp [sBar, start, block0]⟩⟩,
    ⟨ready_of rfl (by decide +kernel), rfl, rfl, by decide +kernel, rfl, rfl, by decide, ⟨_, rfl, rfl⟩, by simp [sTwo, block0]⟩,
    ⟨bready (by decide +kernel), rfl, by decide +kernel, by unfold phasePast; decide +kernel, rfl, bready (by decide +kernel),
      by unfold phasePast; decide +kernel, ready_of rfl (by decide +kernel), rfl⟩, rfl,
    ⟨bready (by decide +kernel), by decide +kernel, bready (by decide +kernel)⟩,
    ⟨bready (by decide +kernel), own _ rfl, by decide +kernel, bready (by decide +kernel), by decide +kernel⟩,
    ⟨bready (by decide +kernel), bready (by decide +kernel), quietB _, by decide +kernel, by decide +kernel, by decide +kernel,
      bready (by decide +kernel)⟩,
    ⟨bready (by decide +kernel), by decide, by unfold phasePast; decide +kernel, bready (by decide +kernel), by unfold phasePast; decide +kernel⟩,
    rfl, by decide +kernel, bready (by decide +kernel), bready (by decide +kernel), bready (by decide +kernel), bready (by decide +kernel)⟩

theorem quiet0 : Quiescent (start team0) 0 team0 := ⟨rfl, rfl, by decide +kernel, by decide +kernel⟩
def flag0 : ErrFlag := { addr := 0x40, val := 1, status := 0x22 }
def gang (t : Team) : State :=
  { start t with grids := [(0, { tenant := 0, queue := 0, number := 0, launch := { launch0 with gang := true }, owner := .host 1 7, placed := 1 })] }
def teamIn : Team := { team0 with gbarIn := 1 }

/-- A global atomic of the team on its way, with a destination and without. -/
def sGa : State := sAtom (.gatom .add 4 .home) false
def sPost : State := { sGa with reqs := [(1, { reqG (.gatom .add 4 .home) false with dst := .none, words := [], posted := true })] }

theorem witness_fencesAndWaits : Ready (start team0) 0 team0 (.fence .device false) ∧ Quiescent (start team0) 0 team0 ∧
    (start team0).globalOut 0 = false ∧ Ready (start { team0 with atomErr := some flag0 }) 0 { team0 with atomErr := some flag0 } (.fence .block false) ∧
    Ready (start { team0 with engErr := some flag0 }) 0 { team0 with engErr := some flag0 } (.fence .block false) ∧
    (start team0).nearOut 0 = false ∧
    (Ready sGa 0 teamE (.fence .device false) ∧ sGa.queueUse 0 = 0 ∧ sGa.globalOut 0 = true ∧ sGa.owesTraps 0 = false) ∧
    (Ready (sPark (.store 4)) 0 teamE (.fence .lane false) ∧ (sPark (.store 4)).queueUse 0 ≠ 0 ∧ (sPark (.store 4)).owesTraps 0 = false) ∧
    (Ready (sLand (.store 4) 0x40) 0 team0 (.fence .team false) ∧ (sLand (.store 4) 0x40).nearOut 0 = true ∧
      (sLand (.store 4) 0x40).owesTraps 0 = false) ∧
    (Ready sPost 0 teamE (.fence .lane false) ∧ sPost.postedOut 0 = true ∧ sPost.owesTraps 0 = false) ∧
    Ready (start team0) 0 team0 (.cwait .copy false 0) ∧
    (∀ id ∈ (((team0.issued.filter (fun e => e.1 == CClass.copy)).map Prod.snd).drop 0), (start team0).outstanding .copy id = false) ∧
    Ready (start team0) 0 team0 .gbar ∧ ((start team0).grid? 0).map (fun x => x.launch.gang) = some false ∧
    Ready (gang team0) 0 team0 .gbar ∧ ((gang team0).grid? 0).map (fun x => x.launch.gang) = some true ∧ team0.gbarIn = team0.gbarOut ∧
    Ready (gang teamIn) 0 teamIn .gbar ∧ teamIn.gbarIn = teamIn.gbarOut + 1 ∧ (gang teamIn).gbarMet ((gang teamIn).gridIdOf teamIn) (teamIn.gbarOut + 1) = true :=
  ⟨rdy _ (by decide +kernel), quiet0, by decide +kernel, ready_of rfl (by decide +kernel), ready_of rfl (by decide +kernel),
    rfl, ⟨ready_of rfl (by decide +kernel), by decide +kernel, by decide +kernel, by decide +kernel⟩,
    ⟨ready_of rfl (by decide +kernel), by decide +kernel, by decide +kernel⟩, ⟨ready_of rfl (by decide +kernel), by decide +kernel, by decide +kernel⟩,
    ⟨ready_of rfl (by decide +kernel), by decide +kernel, by decide +kernel⟩, rdy _ (by decide +kernel), by decide +kernel, rdy _ (by decide +kernel),
    by decide +kernel, ready_of rfl (by decide +kernel), by decide +kernel, rfl, ready_of rfl (by decide +kernel), rfl, by decide +kernel⟩

/-- Streams in a loop of their own, and in four others. -/
def inLoop (n : Nat) : Stream := { stream0 with loops := [(0x2000, n)] }
def fourLoops : Stream := { stream0 with loops := [(1, 2), (2, 2), (3, 2), (4, 2)] }
def loop3 : Instr := .mloop { ext := false, b := src (.lit 3), off := 2 }
def sSBar (b : Barrier) : State := { startStream stream0 with bars := [(barKey 0 0, b)] }
theorem sown (b : Barrier) (h : b.owner = some 0) :
    Owned (sSBar b) ((bx stream0).streamFrame 0) ((sSBar b).streamSrc (bx stream0) (.lit 0)) (.named 0 0) b :=
  ⟨rfl, rfl, by simp [barHold, h]; rfl⟩
theorem sbready {b : Barrier} {i : Instr} (hs : i.standing.stream = true) : StreamReady (sSBar b) 0 (bx stream0) stream0 i :=
  ⟨rfl, rfl, rfl, by decide, rfl, rfl, hs⟩

theorem witness_matrixStream : (∀ i ∈ streamy, StreamReady (startStream stream0) 0 (bx stream0) stream0 i) ∧
    Instr.mamap 0 .e4m3 false 2 32 (src (.lit 0)) (src .zero) ∈ streamy ∧
    (32 * widthOf .e4m3 + 7) / 8 ≤ 16 * (2 : BitVec 7).toNat ∧ 16 * (1 : BitVec 7).toNat < (32 * widthOf .e4m3 + 7) / 8 ∧
    (startStream stream0).tileOk (bx stream0) 0 = true ∧ (startStream stream0).stepOn 0 0 MStep.tiles = false ∧
    (∀ q ∈ fusedQuads 0, q ∈ (bx stream0).quads) ∧
    StreamReady (startStream stream0) 0 (bx stream0) stream0 (.mfuse false 0xF) ∧
    StreamReady (startStream (inLoop 1)) 0 (bx (inLoop 1)) (inLoop 1) loop3 ∧ (inLoop 1).loops = ((inLoop 1).pc, 1) :: [] ∧
    StreamReady (startStream (inLoop 2)) 0 (bx (inLoop 2)) (inLoop 2) loop3 ∧
    StreamReady (startStream fourLoops) 0 (bx fourLoops) fourLoops loop3 ∧ (∀ l ∈ fourLoops.loops.head?, l.1 ≠ fourLoops.pc) ∧
    4 ≤ fourLoops.loops.length ∧ (startStream stream0).streamBusy 0 = false ∧
    StreamReady (sSBar barOwn) 0 (bx stream0) stream0 (.mbarArr (a1 (.lit 0))) ∧
    Owned (sSBar barOwn) ((bx stream0).streamFrame 0) ((sSBar barOwn).streamSrc (bx stream0) (.lit 0)) (.named 0 0) barOwn ∧
    barOwn.ar < barOwn.xa ∧ StreamReady (sSBar barOwn) 0 (bx stream0) stream0 (.mbarWait (src (.lit 0)) (src (.lit 0))) ∧
    phasePast barOwn 0 ∧ ¬phasePast barOwn 1 ∧ ((startStream stream0).liveTeams 0).isEmpty = false ∧
    StreamReady { startStream stream0 with teams := [] } 0 (bx stream0) stream0 .mend ∧
    ({ startStream stream0 with teams := [] }.liveTeams 0).isEmpty = true ∧ (sStep step0).streamBusy 0 = true ∧
    (∀ st ∈ (startStream stream0).msteps, st.2.block ≠ 0) ∧ stream0.waiting = none ∧ barOwn.pn < 65536 ∧
    (StreamReady (sSBar {}) 0 (bx stream0) stream0 (.mbarWait (src (.lit 0)) (src (.lit 0))) ∧
      (sSBar {}).barRef ((bx stream0).streamFrame 0) ((sSBar {}).streamSrc (bx stream0) (.lit 0)) = .ok (.named 0 0) ∧
      ((sSBar {}).bar (.named 0 0)).owner = none ∧ ¬phasePast {} 0) ∧
    ((sSBar { barOwn with owner := some 5 }).bar (.named 0 0)).owner = some 5 ∧ 5 ≠ 0 := by
  refine ⟨witness_streamReady, by decide +kernel, by decide, by decide, by decide +kernel, by decide +kernel, by decide +kernel,
    sready (by decide) (by decide +kernel) rfl, sready (by decide) (by decide +kernel) rfl, rfl, sready (by decide) (by decide +kernel) rfl,
    sready (by decide) (by decide +kernel) rfl, by decide, by decide, by decide +kernel, sbready rfl, sown _ rfl, by decide, sbready rfl,
    by unfold phasePast; decide, by unfold phasePast; decide, by decide +kernel,
    ⟨rfl, rfl, rfl, by decide, rfl, by decide +kernel, rfl⟩, by decide +kernel, by decide +kernel, nofun, rfl, by decide,
    ⟨sbready rfl, rfl, rfl, by unfold phasePast; decide⟩, rfl, by decide⟩

theorem witness_commandsIssue :
    (∃ cs, (start team0).copyChecks team0 none .near .glob ((start team0).uni team0 (.s 2)) ((start team0).uni team0 (.s 1)) 4 1 1 0 0 0 0 =
      .ok cs ∧ (cs == []) = true) ∧
    CommandRule (start team0) 0 team0 (.prom (da (.s 3) (.s 1))) .promote (.promote false ((start team0).uni team0 (.s 1))) (.s 3) [] ∧
    Ready (start team0) 0 team0 (.prom (da (.s 3) (.s 1))) ∧
    Ready (start team0) 0 team0 (.cpy .g2n none (.s 3) (src (.s 2)) (src (.s 1)) 4) ∧ team0.count.get .copy < 255 ∧
    team0.count.get .promote < 255 ∧ (start team0).creditRoom [] = true ∧ (start team0).pickEngine team0 .copy = some 0 ∧
    (start team0).pickEngine team0 .promote = some noEngine :=
  ⟨ok_of (· == []) (by decide +kernel), .prom _ (by decide +kernel), rdy _ (by decide +kernel), rdy _ (by decide +kernel), by decide,
    by decide, rfl, by decide +kernel, rfl⟩

/-- A team whose s1 and s2 name no address. -/
def teamFar : Team := { team0 with regs := { sreg := [(1, 0x10000000000000), (2, 0x100000)] } }

theorem witness_commandChecks : Ready (start team0) 0 team0 (.cpy .g2n none (.s 3) (src (.s 2)) (src (.s 1)) 0) ∧
    Ready (start team0) 0 team0 (.cpy .g2n (some 0) (.s 3) (src (.s 2)) (src (.s 1)) 4) ∧ ((start team0).bar (.named team0.core 0)).owner = none ∧
    Ready (start teamFar) 0 teamFar (.cpy .g2n none (.s 3) (src (.s 2)) (src (.s 1)) 4) ∧
    (∃ c, (start teamFar).nearCheck ((start teamFar).frame teamFar) none (((start teamFar).uni teamFar (.s 2)).setWidth 32) 1 = .error c) ∧
    Ready (start teamFar) 0 teamFar (.cpy .g2g none (.s 3) (src (.s 1)) (src (.s 2)) 4) ∧ 2 ^ 52 ≤ ((start teamFar).uni teamFar (.s 1)).toNat ∧
    Ready (start teamFar) 0 teamFar (.prom (da (.s 3) (.s 1))) ∧ Ready (start teamFar) 0 teamFar (.promPin (da (.s 3) (.s 1))) ∧
    Ready (start teamFar) 0 teamFar (.dem (da (.s 3) (.s 1))) :=
  ⟨rdy _ (by decide +kernel), ready_of rfl (by decide +kernel), by decide +kernel, ready_of rfl (by decide +kernel), ⟨_, rfl⟩,
    ready_of rfl (by decide +kernel), by decide +kernel, ready_of rfl (by decide +kernel), ready_of rfl (by decide +kernel),
    ready_of rfl (by decide +kernel)⟩

/-- A command of the team, one of its pieces, which is still to be read, the piece after that, and a state that holds it. -/
def piece0 : Piece := { pos := 0, src := [.phys 0x1000], data := [none], dst := [(.spm 0 0x40, 0)] }
def pieceR : Piece := { piece0 with data := [some 7], begun := true }
def copy0 : CmdKind := .copy .near .glob 0x40 0x80 1 1 1 0 0 0 0
def cmd0 (k : CmdKind) : Cmd := { team := 0, block := 0, core := 0, tenant := 0, cls := .copy, kind := k, future := some 3, next := 1 }
def sCmd (c : Cmd) : State := { start team0 with cmds := [(5, c)], nextId := 6 }
def cmdP (p : Piece) : Cmd := { cmd0 copy0 with pending := [p] }
def isPiece : NextUp → Bool
  | .piece _ _ => true
  | _ => false

theorem witness_commandsLand :
    (∃ u, (mapped (sCmd { cmd0 copy0 with next := 0 })).nextUp 5 { cmd0 copy0 with next := 0 } = .ok u ∧ isPiece u = true) ∧
    ((cmdP piece0).pending = [piece0] ∧ piece0.unread ≠ [] ∧ piece0.data.length = piece0.src.length) ∧
    ((cmdP pieceR).pending = [pieceR] ∧ (cmdP pieceR).ahead = [] ∧ pieceR.flags = 0 ∧ pieceR.dst ≠ [] ∧ (pieceR.dst.map Prod.fst).Nodup ∧
      pieceR.unread = [] ∧ (cmdP pieceR).credit = [] ∧
      ∀ e ∈ pieceR.dst, (∃ core off, e.1 = .spm core off ∧ off < 2 ^ 20) ∨ ∃ pa, e.1 = .phys pa) ∧
    ((sCmd (cmdP piece0)).cmds.get? 5 = some (cmdP piece0) ∧ (sCmd (cmdP piece0)).held = false ∧ Moves copy0 ∧ (cmdP piece0).more = false ∧
      (cmdP piece0).pending ≠ [] ∧ ∀ p ∈ (cmdP piece0).pending, p.begun = false ∧ (sCmd (cmdP piece0)).pieceWaits 5 (cmdP piece0) p = false ∧
        (sCmd (cmdP piece0)).piecePaused (cmdP piece0) p = false) ∧
    (∀ p ∈ (cmdP pieceR).pending, p.begun = true ∧ ((sCmd (cmdP pieceR)).packetOf (.piece 5 p.pos)).isNone = true) ∧
    (cmd0 copy0).pending = [] ∧ (cmd0 copy0).more = false ∧ (sCmd (cmd0 copy0)).team? 0 = some team0 ∧ (cmd0 copy0).stop = none ∧
    (cmd0 copy0).poisonAt = none :=
  ⟨ok_of isPiece (by decide +kernel), ⟨rfl, by decide, rfl⟩,
    ⟨rfl, rfl, rfl, by decide, by decide, by decide, rfl, fun e he => .inl ⟨0, 0x40, by rw [List.mem_singleton.1 he], by decide⟩⟩,
    ⟨by decide +kernel, by decide +kernel, trivial, by decide +kernel, by decide, by decide +kernel⟩, by decide +kernel, rfl, by decide +kernel,
    rfl, rfl, rfl⟩

/-- A group of this device's die 0 and another device's, and the collective of its first rank. -/
def group0 : Group := { number := 1, ranks := [(Config.device, 0), (Config.device + 1, 0)] }
def coll0 : CmdKind := .coll .allred .f32 .add 1 0 0 0 0 0 0
def cmdC : Cmd := { cmd0 coll0 with cls := .coll, engine := 128 }
def sColl : State := { sCmd cmdC with tenants := [(0, { groups := [group0] })] }
def remote0 (n : Nat) : RemoteRank := { rank := 1, op := .allred, fmt := .f32, rop := .add, count := n, root := 0, data := [], scales := [] }

def key0 : CollKey := ⟨.allred, .f32, .add, 0, 0⟩

theorem meet (n : Nat) : RanksMeet sColl 0 1 [remote0 n] group0 [(0, 5, cmdC)] where
  found := rfl
  locals := by simp [Group.localRanks, group0, List.range_succ]; decide +kernel
  nonempty := by simp
  far := by simp [Group.localRanks, group0, List.range_succ, remote0]
  free := by decide +kernel
  ids := by simp

/-- A collective of 4 words that has read none, and one that has read none of its none. -/
def coll4 : CmdKind := .coll .allred .f32 .add 1 0 0 4 0 0 0

theorem witness_collectives : ((sCmd (cmd0 coll4)).cmds.get? 5 = some (cmd0 coll4) ∧ (sCmd (cmd0 coll4)).held = false ∧
      (cmd0 coll4).data.length < collBytes .f32 4 + collScales .f32 4) ∧
    RanksMeet sColl 0 1 [remote0 0] group0 [(0, 5, cmdC)] ∧ RanksMeet sColl 0 1 [remote0 4] group0 [(0, 5, cmdC)] ∧
    ([(0, 5, cmdC)] : List (Nat × Nat × Cmd)).filterMap (fun e => e.2.2.collKey) ++ [remote0 4].map RemoteRank.key =
      key0 ::
        [RemoteRank.key (remote0 4)] ∧ RemoteRank.key (remote0 4) ≠ key0 ∧
    ([(0, 5, cmdC)] : List (Nat × Nat × Cmd)).filterMap (fun e => e.2.2.collKey) ++ [remote0 0].map RemoteRank.key =
      key0 ::
        [RemoteRank.key (remote0 0)] ∧ RemoteRank.key (remote0 0) = key0 ∧
    cmdC.sourceRead = true ∧ cmdC.fail = none ∧ cmdC.srcBad = false :=
  ⟨⟨by decide +kernel, by decide +kernel, by decide⟩, meet 0, meet 4, rfl, by decide +kernel, rfl, rfl, by decide +kernel, rfl, rfl⟩

/-- Teams whose h0 holds a handle. -/
def withH (h : Handle) (x : DWord) : Team := { team0 with regs := { sreg := [(1, x), (2, 0x40)], h := [(0, h)] } }
def csr0 : Handle := { image := BitVec.ofNat 512 (1 + 2 ^ 64 + 2 ^ 96), state := .valid }
def hldReq : Req := { team := 0, kind := .hld 0 0x40, dst := .h 0, words := [0] }

theorem witness_commandChecks_walk : Ready (start (withH { csr0 with state := .failed 0x91 } 1)) 0 (withH { csr0 with state := .failed 0x91 } 1)
      (.hchkWalk (.s 3) 0) ∧ Ready (start (withH csr0 1)) 0 (withH csr0 1) (.hchkWalk .zero 0) ∧
    Ready (start team0) 0 team0 (.hchkWalk (.s 3) 0) ∧ (team0.regs.handle 0).state ≠ .valid :=
  ⟨ready_of rfl (by decide +kernel), ready_of rfl (by decide +kernel), ready_of rfl (by decide +kernel), by decide +kernel⟩

theorem witness_futuresAndHandles : (∀ f ∈ [TestForm.plain, .id, .tok], Ready (start team0) 0 team0 (.ftest f true (.s 3) (.s 1))) ∧
    Ready (start team0) 0 team0 (.fcan false false (.s 1)) ∧
    (sCmd { cmd0 copy0 with next := 0, future := some 1 }).cmds.find? (fun e => e.2.team == 0 && e.2.future.isSome && e.2.future == (Opnd.s 1).sNum) =
      some (5, { cmd0 copy0 with next := 0, future := some 1 }) ∧ Copies { cmd0 copy0 with next := 0, future := some 1 } ∧
    ({ cmd0 copy0 with next := 0 } : Cmd).more = true ∧ (cmd0 copy0).more = false ∧ (cmd0 copy0).pending = [] ∧ cmdC.cls = .coll ∧
    (cmd0 (.promote false 0)).move = none ∧
    (start team0).cmds.find? (fun e => e.2.team == 0 && e.2.future.isSome && e.2.future == (Opnd.s 1).sNum) = none ∧
    Ready (start (withH { csr0 with state := .failed 0x91 } 1)) 0 (withH { csr0 with state := .failed 0x91 } 1) (.hset 0 1 (src (.s 1))) ∧
    Ready (start team0) 0 team0 (.hset 0 1 (src (.s 1))) ∧ (team0.regs.handle 0).state = .null ∧
    Ready (start (withH csr0 0)) 0 (withH csr0 0) (.hset 0 0 (src (.s 1))) ∧ imgType (imgSet csr0.image 0 0) = 0 ∧
    Ready (start (withH csr0 4)) 0 (withH csr0 4) (.hset 0 0 (src (.s 1))) ∧ imgOk (imgSet csr0.image 0 4) = false ∧
    imgType (imgSet csr0.image 0 4) ≠ 0 ∧
    Ready (start (withH csr0 1)) 0 (withH csr0 1) (.hset 0 0 (src (.s 1))) ∧ imgOk (imgSet csr0.image 0 1) = true ∧
    Ready (start team0) 0 team0 (.hget (.s 3) 0 0) ∧ Ready (start team0) 0 team0 (.hchkReport (.s 3) 0) ∧
    Ready (start team0) 0 team0 (.hld 0 (src (.s 2))) ∧ ((start team0).uni team0 (.s 2)).toNat % 64 = 0 ∧
    Ready (start team0) 0 team0 (.hld 0 (src (.s 1))) ∧ ((start team0).uni team0 (.s 1)).toNat % 64 ≠ 0 ∧
    { start team0 with reqs := [(1, hldReq)] }.reqs.get? 1 = some hldReq ∧ { start team0 with reqs := [(1, hldReq)] }.returns hldReq = true ∧
    (∃ c, (start team0).gcheck team0.cluster ((start team0).tenantIdOf team0) 0x40 64 .read = .error c) ∧
    (∃ pa, (mapped (start team0)).gcheck team0.cluster 0 0x40 64 .read = .ok pa ∧ ((mapped (start team0)).physPoisoned pa 64 == false) = true) := by
  refine ⟨?_, rdy _ (by decide +kernel), by decide +kernel, trivial, by decide +kernel, by decide +kernel, rfl, rfl, rfl, rfl, ready_of rfl (by decide +kernel),
    ready_of rfl (by decide +kernel), rfl, ready_of rfl (by decide +kernel), by decide +kernel, ready_of rfl (by decide +kernel), by decide +kernel, by decide +kernel,
    ready_of rfl (by decide +kernel), by decide +kernel, rdy _ (by decide +kernel), rdy _ (by decide +kernel), rdy _ (by decide +kernel),
    by decide +kernel, ready_of rfl (by decide +kernel), by decide +kernel, by decide +kernel, by decide +kernel, ⟨_, rfl⟩,
    ok_of (fun pa => (mapped (start team0)).physPoisoned pa 64 == false) (by decide +kernel)⟩
  intro f hf
  simp only [List.mem_cons, List.not_mem_nil, or_false] at hf
  rcases hf with rfl | rfl | rfl <;> exact ready_of rfl (by decide +kernel)

/-- A grid with work lists of 4 items, and its segments. -/
def gridW (fin : Bool) : Grid :=
  { tenant := 0, queue := 0, number := 0, launch := { launch0 with wln := 1, wlcap := 4 }, owner := .host 1 7, placed := 1, endOfWork := fin }
def sWork (t : Team) (fin : Bool) (xs : List DWord) : State :=
  { start t with grids := [(0, gridW fin)], segments := if xs.isEmpty then [] else [{ grid := 0, list := 0, cluster := 0, items := xs }]
                 cmds := [(5, { cmd0 (.push 0 [(0, 7)]) with cls := .wl })] }
/-- A team whose s1 asks for one item of list 0, to scratchpad offset 0x40, and whose s2 is 0. -/
def teamPull (h : Hold) : Team := { team0 with regs := { sreg := [(1, 0x100000040)] }, hold := h }
/-- A child's descriptor of 32 lanes, one block and one team, at scratchpad offset 0x40. -/
def childSpm : Memory :=
  [(0x48, 1), (0x4C, 32), (0x4E, 1), (0x50, 8), (0x52, 8), (0x58, 1)]
def sChild (depth : Nat) : State :=
  { start team0 with spm := childSpm, grids := [(0, { gridW false with depth := depth, launch := launch0 })] }

/-- 64 launches wait in its grid's queue. -/
def sFull : State :=
  { sChild 9 with grids := (sChild 9).grids ++ (List.range 64).map (fun n => (n + 1, { gridW false with number := n + 1, placed := 0 })) }

theorem witness_workListsAndChildren :
    ((sWork team0 true []).cmds.get? 5 = some { cmd0 (.push 0 [(0, 7)]) with cls := .wl } ∧ (sWork team0 true []).held = false ∧
      (gridW true).endOfWork = true ∧ (sWork team0 false []).grid? 0 = some (gridW false) ∧
      (gridW false).launch.wlcap < ((sWork team0 false [1, 2, 3, 4]).items 0 0 0).length + (itemsFor [(0, 7)] 0).length ∧
      ((sWork team0 false [1, 2, 3]).items 0 0 0).length + (itemsFor [(0, 7)] 0).length ≤ (gridW false).launch.wlcap) ∧
    (Ready (sWork (teamPull .none) false []) 0 (teamPull .none) (.wlpull (da (.s 3) (.s 1))) ∧
      (sWork (teamPull .none) false []).pullCheck (teamPull .none) 0x100000040 = none ∧
      (sWork (teamPull .none) false []).workOver (teamPull .none) = false ∧ (sWork (teamPull .none) true []).workOver (teamPull .none) = true ∧
      Ready (sWork (teamPull .none) true []) 0 (teamPull .none) (.wlpull (da (.s 3) (.s 1))) ∧
      (∃ e, (start team0).pullCheck team0 ((start team0).uni team0 (.s 1)) = some e)) ∧
    ((sWork (teamPull (.pull 0x100000040 3)) false [9]).team? 0 = some (teamPull (.pull 0x100000040 3)) ∧
      (sWork (teamPull (.pull 0x100000040 3)) false [9]).items 0 (pullList 0x100000040) 0 ≠ [] ∧
      (sWork (teamPull (.pull 0x100000040 3)) false [9]).placedBlock 0 = true ∧
      (sWork (teamPull (.pull 0x100000040 3)) false [9]).behindRun 0 ((start team0).frame team0)
        (byteRun (pullAddr 0x100000040) (8 * pullCount 0x100000040)) = false) ∧
    (Ready (sWork (teamPull .none) false []) 0 (teamPull .none) (.wlsteal (dab (.s 3) (.s 1) (.s 2))) ∧
      Ready (sWork (teamPull .none) false [9]) 0 (teamPull .none) (.wlsteal (dab (.s 3) (.s 1) (.s 2))) ∧
      ((sWork (teamPull .none) false []).uni (teamPull .none) (.s 2)).toNat ≤ 31 ∧
      Ready (sWork (teamPull .none) true []) 0 (teamPull .none) (.wlsteal (dab (.s 3) (.s 1) (.s 2))) ∧
      Ready (start team0) 0 team0 (.wlsteal (dab (.s 3) (.s 1) (.s 2))) ∧ 31 < ((start team0).uni team0 (.s 2)).toNat) ∧
    { sWork (teamPull (.pull 0x100000040 3)) false [] with cmds := [] }.workEnds 0 (gridW false) = true ∧
    (Ready (sChild 10) 0 team0 (.childLaunch (.s 3) (src (.s 2))) ∧ Ready (sChild 9) 0 team0 (.childLaunch (.s 3) (src (.s 2))) ∧
      Ready (start team0) 0 team0 (.childLaunch (.s 3) (src (.s 2))) ∧
      (start team0).firstBad ((start team0).frame team0) (byteRun 0x40 64) = none ∧
      childOk (childLaunchOf launch0 (leNat ((start team0).nearBytes ((start team0).frame team0) 0x40 64).1)) = false ∧
      childOk (childLaunchOf launch0 (leNat ((sChild 9).nearBytes ((sChild 9).frame team0) 0x40 64).1)) = true ∧
      ((sChild 9).children 0).length < 65535 ∧
      (sChild 9).canFit 0 (childLaunchOf launch0 (leNat ((sChild 9).nearBytes ((sChild 9).frame team0) 0x40 64).1)) = true ∧
      (sChild 9).behindRun 0 ((sChild 9).frame team0) (byteRun 0x40 64) = false ∧ (sChild 9).queueLength 0 0 < 64 ∧
      ({ sChild 9 with partitions := [] } : State).canFit 0 (childLaunchOf launch0 (leNat ((sChild 9).nearBytes ((sChild 9).frame team0) 0x40 64).1)) = false ∧
      Ready sFull 0 team0 (.childLaunch (.s 3) (src (.s 2))) ∧ 64 ≤ sFull.queueLength 0 0 ∧
      sFull.canFit 0 (childLaunchOf launch0 (leNat (sFull.nearBytes (sFull.frame team0) 0x40 64).1)) = true) :=
  ⟨⟨by decide +kernel, by decide +kernel, rfl, rfl, by decide +kernel, by decide +kernel⟩,
    ⟨ready_of rfl (by decide +kernel), by decide +kernel, rfl, rfl, ready_of rfl (by decide +kernel), ⟨_, rfl⟩⟩,
    ⟨rfl, by decide +kernel, by decide +kernel, by decide +kernel⟩,
    ⟨ready_of rfl (by decide +kernel), ready_of rfl (by decide +kernel), by decide +kernel, ready_of rfl (by decide +kernel),
      rdy _ (by decide +kernel), by decide +kernel⟩,
    by decide +kernel,
    ⟨ready_of rfl (by decide +kernel), ready_of rfl (by decide +kernel), rdy _ (by decide +kernel), by decide +kernel, by decide +kernel,
      by decide +kernel, by decide +kernel, by decide +kernel, by decide +kernel, by decide +kernel, by decide +kernel,
      ready_of rfl (by decide +kernel), by decide +kernel, by decide +kernel⟩⟩

def prom0 (va : DWord) : Cmd := { cmd0 (.promote false va) with cls := .promote, next := 0 }
/-- Stripe 196608 is the first of the second range of `mapped`. -/
def sMove : State := { mapped (sCmd { prom0 0x40000000 with move := some 196608 }) with stripes := [(196608, { slot := 0, moving := true })] }
def dem0 : Cmd := { cmd0 (.demote 0x40000000) with cls := .promote, next := 0, move := some 196608 }

theorem witness_nearRows :
    (∃ e, (sCmd (prom0 0)).cmdStripe (prom0 0) 0 = .error e) ∧ (mapped (sCmd (prom0 0))).cmdStripe (prom0 0) 0 = .ok 0 ∧
    (mapped (sCmd (prom0 0))).unitBusy 5 0 = false ∧ (mapped (sCmd (prom0 0))).stripes.get? 0 = none ∧
    (mapped (sCmd (prom0 0x40000000))).cmdStripe (prom0 0x40000000) 0x40000000 = .ok 196608 ∧ 196608 * 2 ^ 16 < 2 ^ 51 ∧ 512 ≤ 196608 / 384 ∧
    (mapped (sCmd (prom0 0x40000000))).chooseSlot 0 = some (0, none) ∧ sMove.cmds.get? 5 = some { prom0 0x40000000 with move := some 196608 } ∧
    sMove.stripes.get? 196608 = some { slot := 0, moving := true } ∧ sMove.stripePoison 196608 = none ∧ sMove.team? 0 = some team0 ∧
    (sCmd dem0).cmds.get? 5 = some dem0 ∧ Ready (start team0) 0 team0 (.lclass (da (.s 3) (.s 1))) ∧
    Ready (start teamFar) 0 teamFar (.lclass (da (.s 3) (.s 1))) ∧ 2 ^ 52 ≤ ((start teamFar).uni teamFar (.s 1)).toNat ∧
    (∃ e, (start team0).translate team0.cluster 0 4 .read = .error e) ∧ Ready (mapped (start team0)) 0 team0 (.lclass (da (.s 3) (.s 1))) ∧
    (mapped (start team0)).translate team0.cluster 0 4 .read = .ok 4 :=
  ⟨⟨_, rfl⟩, by rfl, by decide +kernel, by decide +kernel, by rfl, by decide, by decide, by decide +kernel, by decide +kernel,
    by decide +kernel, by decide +kernel, rfl, by decide +kernel, rdy _ (by decide +kernel), ready_of rfl (by decide +kernel), by decide +kernel,
    ⟨_, rfl⟩, ready_of rfl (by decide +kernel), by rfl⟩

/-- A kernel of 32 lanes, as a handler's, and a grid that names it. -/
def kernel0 : Kernel := { entry := 0x1000, vregs := 8, sregs := 8 }
def gridH : Grid :=
  { tenant := 0, queue := 0, number := 0, launch := { launch0 with handler := some kernel0, amsg := [kernel0] }, owner := .host 1 7, placed := 1 }
def withHandler (s : State) : State := { s with grids := [(0, gridH)] }
def grid0 : Grid := { tenant := 0, queue := 0, number := 0, launch := launch0, owner := .host 1 7, placed := 1 }
theorem mayTry {T : Team} {i : Instr} (h : (T.st == .running && T.ctl.mask != 0 && T.amask != 0 && T.ctl.resume.isNone && T.hold == .none &&
    T.arend.isNone && T.run.isNone && T.block == 0) = true) : MayTry (start T) 0 T i := by
  simp only [Bool.and_eq_true, beq_iff_eq, bne_iff_ne, ne_eq, Option.isNone_iff_eq_none] at h
  obtain ⟨⟨⟨⟨⟨⟨⟨a1, a2⟩, a3⟩, a4⟩, a5⟩, a6⟩, ar⟩, a7⟩ := h
  exact ⟨rfl, rfl, a1, a2, a3, a4, a5, a6, ar, rfl, block0, by rw [a7]; rfl, rfl⟩

theorem witness_trapsTaken : HandlerTakes (withHandler (start team0)) 0 team0 0 gridH {} ∧
    ((start team0).team? 0 = some team0 ∧ (start team0).gridIdOf team0 = 0 ∧ (start team0).grid? 0 = some grid0 ∧ grid0.status = none ∧
      grid0.ended = false ∧ grid0.launch.handler = none) ∧
    Ready (start team0) 0 team0 (.trap (a1 (.s 1))) ∧ ((start team0).uni team0 (.s 1)).toNat ≤ 15 ∧
    Ready (start team32) 0 team32 (.trap (a1 (.s 1))) ∧ 15 < ((start team32).uni team32 (.s 1)).toNat ∧
    MayTry (start team0) 0 team0 (.illegalInstruction 0 (Instr.standing .nop)) ∧ team0.role = .free ∧ team0.ctl.cover = none :=
  ⟨⟨rfl, rfl, rfl, rfl, rfl, rfl, by decide, by decide +kernel⟩, ⟨rfl, rfl, rfl, rfl, rfl, rfl⟩, rdy _ (by decide +kernel), by decide +kernel,
    ready_of rfl (by decide +kernel), by decide +kernel, mayTry (by decide +kernel), rfl, rfl⟩

/-- A trapped team 1 of the block, its record, and the team that handles it. -/
def rec0 (kind : Nat) : TrapRec := { tenant := 0, grid := 0, party := .team 1, kind := kind, code := 0x20, pc := 0x1000, mask := 3, rpc := 0x1000 }
def teamT : Team := { team0 with index := 1, st := .trapped }
def teamH (kind : Nat) (x : DWord) : Team :=
  { team0 with regs := { sreg := [(1, x)] }, handler := some { trap := rec0 kind, rpc := 0x1004, rmask := 3 } }
def hrec0 (kind : Nat) : HandlerRec := { trap := rec0 kind, rpc := 0x1004, rmask := 3 }
def sHand (kind : Nat) (x : DWord) : State :=
  { start (teamH kind x) with
    teams := [(0, teamH kind x), (1, teamT)], nextId := 4
    reqs := [(3, { team := 1, kind := .load 4 false, dst := .v 1 1, words := [0], entry := some 2, elems := [{ lane := 0, addr := 0, st := .parked 0x20 }] })] }
theorem handles (kind : Nat) (x : DWord) : Handles (sHand kind x) 0 (teamH kind x) (hrec0 kind) 1 teamT := ⟨rfl, rfl, by decide, rfl⟩

theorem witness_trapReturns : Ready (sHand 0 0) 0 (teamH 0 0) (.rett (a1 .zero)) ∧ Handles (sHand 0 0) 0 (teamH 0 0) (hrec0 0) 1 teamT ∧
    (sHand 0 0).uni (teamH 0 0) .zero = 0 ∧ (hrec0 0).trap.kind = 0 ∧ teamT.st = .trapped ∧
    Ready (sHand 1 10) 0 (teamH 1 10) (.rettRel (a1 (.s 1))) ∧ Ready (sHand 1 10) 0 (teamH 1 10) (.rettDrop (a1 (.s 1))) ∧
    Handles (sHand 1 10) 0 (teamH 1 10) (hrec0 1) 1 teamT ∧ (sHand 1 10).uni (teamH 1 10) (.s 1) = BitVec.ofNat 64 (8 + 2) ∧
    ((sHand 1 10).entryReq 1 2).map Prod.fst = some 3 ∧
    (∀ r ∈ (sHand 1 10).reqs, (r.2.elems.map Elem.lane).Nodup) ∧ (∃ l ∈ runU.lanes, ∃ c a, l.st = .stopped c a) ∧ (sHand 1 10).entryRecorded 1 2 = false ∧ (sHand 1 10).teamSaved 1 = false ∧
    team0.handler = none ∧ Ready (start team0) 0 team0 (.rett (a1 .zero)) ∧ Ready (start team0) 0 team0 (.rettRel (a1 (.s 1))) ∧
    Ready (start team0) 0 team0 (.rettDrop (a1 (.s 1))) ∧ Ready (sHand 1 0) 0 (teamH 1 0) (.rettRel (a1 (.s 1))) ∧
    Ready (sHand 1 0) 0 (teamH 1 0) (.rettDrop (a1 (.s 1))) ∧ (sHand 1 0).uni (teamH 1 0) (.s 1) = 0 :=
  ⟨ready_of rfl (by decide +kernel), handles 0 0, by decide +kernel, rfl, rfl, ready_of rfl (by decide +kernel), ready_of rfl (by decide +kernel),
    handles 1 10, by decide +kernel, by decide +kernel, by decide, ⟨_, .tail _ (.head _), _, _, rfl⟩, by decide +kernel,
    by decide +kernel, rfl, rdy _ (by decide +kernel),
    rdy _ (by decide +kernel), rdy _ (by decide +kernel), ready_of rfl (by decide +kernel), ready_of rfl (by decide +kernel), by decide +kernel⟩

/-- Teams whose s1 and s2 are given. -/
def teamS (x y : DWord) : Team := { team0 with regs := { sreg := [(1, x), (2, y)] } }
def teamTerm (x y : DWord) : Team :=
  { teamS x y with handler := some { trap := { rec0 0 with term := true }, rpc := 0x1000, rmask := 3 } }
def usgReq : Req := { team := 0, kind := .usg 0 0x40, dst := .s 3, words := [] }

theorem witness_systemInstructions : Ready (start team0) 0 team0 (.sysr false (.s 3) (src .zero)) ∧
    ((start team0).sysRead team0 0).isSome = true ∧ Ready (start (teamS 5 0)) 0 (teamS 5 0) (.sysr false (.s 3) (src (.s 1))) ∧
    (start (teamS 5 0)).sysRead (teamS 5 0) ((start (teamS 5 0)).uni (teamS 5 0) (.s 1)) = none ∧
    SysWrite (.sysw (ab (.s 1) (.s 2))) (ab (.s 1) (.s 2)) ∧ SysWrite (.rpcWrite (ab (.lit 16) (.s 2))) (ab (.lit 16) (.s 2)) ∧
    SysWrite (.rmaskWrite (ab (.lit 256) (.s 2))) (ab (.lit 256) (.s 2)) ∧
    Ready (start (teamS 0 5)) 0 (teamS 0 5) (.sysw (ab (.s 1) (.s 2))) ∧
    Ready (start (teamTerm 16 4)) 0 (teamTerm 16 4) (.rpcWrite (ab (.lit 16) (.s 2))) ∧
    Ready (start (teamTerm 16 4)) 0 (teamTerm 16 4) (.rmaskWrite (ab (.lit 256) (.s 2))) ∧
    Ready (start (teamS 1 5)) 0 (teamS 1 5) (.sysw (ab (.s 1) (.s 2))) ∧ Ready (start (teamS 16 5)) 0 (teamS 16 5) (.sysw (ab (.s 1) (.s 2))) ∧
    Ready (start (teamS 0 3)) 0 (teamS 0 3) (.ptlb (ab (.s 1) (.s 2))) ∧ Ready (start (teamS 0 7)) 0 (teamS 0 7) (.ptlb (ab (.s 1) (.s 2))) ∧
    Ready (start (teamS 0 4)) 0 (teamS 0 4) (.ptlb (ab (.s 1) (.s 2))) ∧
    Ready (start (teamS 0x10000000000000 0)) 0 (teamS 0x10000000000000 0) (.ptlb (ab (.s 1) (.s 2))) ∧
    (start { team0 with hold := .ptlb 0 3 }).team? 0 = some { team0 with hold := .ptlb 0 3 } ∧
    Ready (start (teamS 4 0)) 0 (teamS 4 0) (.usg false (.s 3) (src (.s 1))) ∧ Ready (start (teamS 0x4000000080 0)) 0 (teamS 0x4000000080 0) (.usg false (.s 3) (src (.s 1))) ∧
    (start (teamS 0x4000000080 0)).areaBad ((start (teamS 0x4000000080 0)).frame (teamS 0x4000000080 0)) (BitVec.ofNat 32 (0x4000000080 / 2 ^ 32)) = none ∧
    (start team0).areaBad ((start team0).frame team0) 0x44 = some 0x24 ∧ Ready (start (teamS 0x4400000080 0)) 0 (teamS 0x4400000080 0) (.usg false (.s 3) (src (.s 1))) ∧
    Ready (start (teamS 5 0)) 0 (teamS 5 0) (.usg false (.s 3) (src (.s 1))) ∧
    { start team0 with reqs := [(1, usgReq)] }.reqs.get? 1 = some usgReq :=
  ⟨rdy _ (by decide +kernel), by decide +kernel, ready_of rfl (by decide +kernel), by decide +kernel, .sysw _, .rpcWrite _, .rmaskWrite _,
    ready_of rfl (by decide +kernel), ready_of rfl (by decide +kernel), ready_of rfl (by decide +kernel), ready_of rfl (by decide +kernel),
    ready_of rfl (by decide +kernel), ready_of rfl (by decide +kernel), ready_of rfl (by decide +kernel), ready_of rfl (by decide +kernel),
    ready_of rfl (by decide +kernel), rfl, ready_of rfl (by decide +kernel), ready_of rfl (by decide +kernel), by decide +kernel,
    by decide +kernel, ready_of rfl (by decide +kernel), ready_of rfl (by decide +kernel), by decide +kernel⟩

/-- Teams whose v1, v2 or v3 stand otherwise, of another role, and under a prefix. -/
def teamFlag (n : Nat) (x : Flag) : Team := { team0 with regs := { team0.regs with flag := [(32 * n, x)] } }
def gated0 : Instr := .iadd (dab (.v 1) (.v 2) (.v 3))

/-- A load of v2 that a plain rett has left parked. -/
def reqLeft : Req :=
  { team := 0, kind := .value, dst := .v 2 1, words := [0], entry := some 0, renew := true
    elems := [{ lane := 3, addr := 0x40, st := .parked 0x21 }] }

theorem witness_checksBeforeIssue : Gated gated0 ∧ MayTry (start team0) 0 team0 gated0 ∧ placeTrap team0 gated0.standing = none ∧
    (start team0).vtosWord team0 gated0 = [] ∧
    (MayTry (start { team0 with vregs := 2 }) 0 { team0 with vregs := 2 } gated0 ∧ ∃ r ∈ (usesOf gated0).all, r.beyond { team0 with vregs := 2 } = true) ∧
    (∀ r ∈ (usesOf gated0).all, r.beyond team0 = false) ∧
    (MayTry (start (teamFlag 2 .poisoned)) 0 (teamFlag 2 .poisoned) gated0 ∧
      ∃ p ∈ (usesOf gated0).reads, p.1.state (teamFlag 2 .poisoned) (teamFlag 2 .poisoned).swept = .poisoned) ∧
    (MayTry (start (teamFlag 2 .empty)) 0 (teamFlag 2 .empty) gated0 ∧
      ∃ p ∈ (usesOf gated0).reads, p.1.state (teamFlag 2 .empty) (teamFlag 2 .empty).swept = .empty) ∧
    (∃ p ∈ (usesOf (.iadd { ext := true, d := .v 1, a := ⟨.v 2, true⟩, b := src (.v 3) })).reads,
      p.2 = true ∧ p.1.state (teamFlag 2 .empty) (teamFlag 2 .empty).swept = .empty) ∧
    (MayTry (start (teamFlag 1 .empty)) 0 (teamFlag 1 .empty) gated0 ∧
      ∃ r ∈ (usesOf gated0).writes, r.anyEmpty (teamFlag 1 .empty) (teamFlag 1 .empty).swept = true) ∧
    MayTry (start team0) 0 team0 (.mclr 0) ∧
    MayTry (start { team0 with role := .copy }) 0 { team0 with role := .copy } gated0 ∧
    MayTry (start { team0 with ctl := { ctl0 with cover := some cover0 } }) 0 { team0 with ctl := { ctl0 with cover := some cover0 } }
      (.jmp { ext := false, off := 2 }) ∧
    (startStream stream0).cur = .stream 0 ∧ (startStream stream0).block? 0 = some (bx stream0) ∧ (startStream stream0).stepWaits 0 = false ∧
    (start (teamFlag 2 .empty)).owesTraps 0 = false ∧
    State.waitedEntries { start (teamFlag 2 .empty) with reqs := [(5, reqLeft)] } 0 (teamFlag 2 .empty) gated0 = [5] :=
  ⟨.iadd _, mayTry (by decide +kernel), by decide +kernel, rfl, ⟨mayTry (by decide +kernel), by decide +kernel⟩, by decide +kernel,
    ⟨mayTry (by decide +kernel), by decide +kernel⟩, ⟨mayTry (by decide +kernel), by decide +kernel⟩, by decide +kernel,
    ⟨mayTry (by decide +kernel), by decide +kernel⟩, mayTry (by decide +kernel), mayTry (by decide +kernel), mayTry (by decide +kernel), rfl, rfl,
    by decide +kernel, by decide +kernel, by decide +kernel⟩

/-- A team all of whose lanes have exited, and the end of its grid. -/
def teamOut : Team := { team0 with ctl := { ctl0 with mask := 0, exited := Mask.below 32 } }
def gridX (o : Owner) : Grid := { grid0 with owner := o }
def sEnd (g : Grid) (live : Bool) : State :=
  { start team0 with blocks := [(0, { block0 with st := if live then .placed else .ended })], grids := [(0, g)] }
def walk0 : Walk := { cluster := 0, tenant := 0, va := 0x5000, pages := [0x100, 0x101] }
def sWalk (own : Bool) : State :=
  { mapped (start team0) with walks := [(9, walk0)], rot := if own then [(0, 0x8000), (5, 0x8000), (0x100, 0xC000), (0x101, 0xC000)] else [] }

/-- A team of quarter 1 with all of quarter 0 for its spill slots, and a grid that waits for quarter 0. -/
def teamL : Team := { team0 with quarter := 1, lanes := 256, spill := 256, lease := some 0 }
def sLease : State :=
  { start teamL with
    blocks := [(0, { block0 with quarters := [1], scratch := 0, stream := none })]
    grids := [(0, grid0), (1, { grid0 with number := 1, placed := 0, launch := { launch0 with kernel := { launch0.kernel with scratch := 0 } } })]
    partitions := [(0, { quarters := [0], tenants := [(0, 0)] })] }

theorem witness_teamsAndGridsEnd :
    ((start teamOut).team? 0 = some teamOut ∧ teamOut.block = 0 ∧ (start teamOut).block? 0 = some block0 ∧ block0.st = .placed ∧ AllOut teamOut) ∧
    NothingLeft (start teamOut) 0 teamOut ∧ LastOf (start teamOut) 0 0 ∧ (start teamOut).owesTraps 0 = false ∧
    (∃ r ∈ { start teamOut with reqs := [(1, req0)] }.reqs, r.2.team = 0) ∧ { start teamOut with reqs := [(1, req0)] }.owesTraps 0 = false ∧
    NothingLeft (start { teamOut with atomErr := some flag0 }) 0 { teamOut with atomErr := some flag0 } ∧
    NothingLeft (start { teamOut with engErr := some flag0 }) 0 { teamOut with engErr := some flag0 } ∧
    ((sEnd (gridX (.host 1 7)) false).grid? 0 = some (gridX (.host 1 7)) ∧ (gridX (.host 1 7)).ended = false ∧
      (gridX (.host 1 7)).launch.nblk ≤ (gridX (.host 1 7)).placed ∧ (sEnd (gridX (.host 1 7)) false).children 0 = [] ∧
      (sEnd (gridX (.host 1 7)) false).msgs = [] ∧ (sEnd (gridX (.host 1 7)) false).recordsWait 0 = false ∧
      (sEnd (gridX (.host 1 7)) false).liveBlocks 0 = [] ∧ (sEnd (gridX (.host 1 7)) true).liveBlocks 0 ≠ []) ∧
    ((sEnd (gridX (.child 9 0 (some 3))) false).children 0 = [] ∧ (sEnd (gridX (.child 9 0 (some 3))) false).recordsWait 0 = false ∧
      (sEnd (gridX (.child 9 0 (some 3))) false).liveBlocks 0 = [] ∧ (sEnd (gridX (.child 9 0 (some 3))) false).team? 0 = some team0) ∧
    ((sEnd (gridX (.host 1 7)) false).gridCmds 0 = false ∧ ∃ e ∈ (sCmd (cmd0 copy0)).cmds, ∃ b, (sCmd (cmd0 copy0)).block? e.2.block = some b ∧ b.grid = 0) ∧
    (start team0).team? 0 = some team0 ∧ team0.ctl.buf < 16 ∧
    (teamL.lease = some 0 ∧ sLease.team? 0 = some teamL ∧ sLease.lenderNeeds 0 = true ∧ (start teamL).lenderNeeds 0 = false) ∧
    team0.st ≠ .retired ∧ (∀ own, (sWalk own).walks.find? (fun e => e.2.cluster == 0 && e.2.tenant == 0 && e.2.va == 0x5000) = some (9, walk0)) ∧
    ((sWalk true).walk 0 0x5000).map (fun l => (l.size, l.pa, l.pages)) = some (2 ^ 30, 0, [0x101, 0x100]) ∧
    (∀ p ∈ [0x100, 0x101, 0x101, 0x100, 5], (sWalk true).owns 0 p = true) ∧ (sWalk false).owns 0 0x100 = false :=
  ⟨⟨rfl, rfl, rfl, rfl, ⟨rfl, rfl, by decide +kernel⟩⟩, ⟨rfl, rfl, by decide +kernel, by decide +kernel, by decide +kernel⟩, fun e he hk => by
      simp only [start, List.mem_singleton] at he; exact absurd (by rw [he]) hk, by decide +kernel, ⟨_, .head _, rfl⟩, by decide +kernel,
    ⟨rfl, rfl, by decide +kernel, by decide +kernel, by decide +kernel⟩, ⟨rfl, rfl, by decide +kernel, by decide +kernel, by decide +kernel⟩,
    ⟨rfl, rfl, by decide, by decide +kernel, rfl, by decide +kernel, by decide +kernel, by decide +kernel⟩,
    ⟨by decide +kernel, by decide +kernel, by decide +kernel, rfl⟩,
    ⟨by decide +kernel, ⟨_, .head _, _, rfl, rfl⟩⟩, rfl, by decide, ⟨rfl, rfl, by decide +kernel, by decide +kernel⟩, by decide, fun own => by cases own <;> decide +kernel, by decide +kernel,
    by decide +kernel, by decide +kernel⟩

/-- Tenants with records and events, and choices of a place. -/
def sRec (n : Nat) : State :=
  { withHandler (start team0) with arising := [rec0 0], tenants := [(0, { records := List.replicate n (rec0 0) })] }
def sEvent (s : State) (rings : Option Rings) : State :=
  { s with sysEvents := [(0, 0xE0, 0x40)], fns := [(1, { rings := rings })] }
def choice0 : PlaceChoice := { quarters := [0], p := 0 }
def msg0 : Msg := { cluster := 0, grid := 0, h := 0, payload := [7] }
def ring0 : Rings := { k := 4, sq := 0x8000000000000, cq := 0x8000000001000 }

theorem witness_recordsAndEvents :
    (sRec 256).arising.find? (fun r => r.tenant == 0) = some (rec0 0) ∧ ((sRec 256).tenant? 0).map (fun t => t.records.length) = some 256 ∧
    ((sRec 255).tenant? 0).map (fun t => t.records.length) = some 255 ∧
    (sEvent (withHandler (start team0)) none).eventGrid 0 = some (0, gridH) ∧ (sEvent (withHandler (start team0)) none).arising = [] ∧
    (sEvent (start team0) (some ring0)).eventGrid 0 = none ∧ ((sEvent (start team0) (some ring0)).fn 1).rings.isSome = true ∧
    ((sEvent (start team0) none).fn 1).rings = none ∧ (sEvent (start team0) none).eventGrid 0 = none ∧
    (sRec 1).checkpointing = false ∧ (sRec 1).handlers 0 < 64 ∧ ((sRec 1).tenant? 0).map Tenant.records = some [rec0 0] ∧ (rec0 0).kind = 0 ∧
    ((sRec 1).handlerSpawn (rec0 0)).isSome = true ∧ (sRec 1).handlerPlaceOk (rec0 0) choice0 = true ∧
    { withHandler (start team0) with msgs := [msg0] }.msgPlaceOk 0 choice0 msg0 = true ∧
    { withHandler (start team0) with msgs := [msg0] }.grid? 0 = some gridH ∧ gridH.launch.amsg[msg0.h]? = some kernel0 :=
  ⟨by decide +kernel, by decide +kernel, by decide +kernel, by decide +kernel, rfl, by decide +kernel, by decide +kernel, by decide +kernel,
    by decide +kernel, rfl, by decide +kernel, by decide +kernel, rfl, by decide +kernel, by decide +kernel, by decide +kernel, rfl, rfl⟩

/-- A grid that waits for its first block, and states of it. -/
def gridP : Grid := { grid0 with placed := 0 }
def sPlace (g : Grid) : State := { start team0 with teams := [], blocks := [], grids := [(0, g)] }
def gridStarved : Grid := { gridP with passed := 64 }
def gridGang : Grid := { gridP with launch := { launch0 with gang := true } }

theorem witness_blocksPlaced : Waits (sPlace gridP) 0 gridP ∧ (∀ e ∈ (sPlace gridP).heads 0, e.2.passed < 64) ∧
    (sPlace gridP).nextGrid 0 gridP = true ∧ (sPlace gridP).placeOk 0 (gridP.launch.spawn 0 0) choice0 = true ∧
    Waits (sPlace gridStarved) 0 gridStarved ∧ 64 ≤ gridStarved.passed ∧ (∀ e ∈ (sPlace gridStarved).heads 0, 64 ≤ e.2.passed → e.1 = 0) ∧
    (sPlace gridStarved).placeOk 0 (gridStarved.launch.spawn 0 0) choice0 = true ∧ (∃ e ∈ (sPlace gridStarved).heads 0, 64 ≤ e.2.passed) ∧
    { sPlace gridP with checkpointing := true }.checkpointing = true ∧
    (sPlace gridP).placeOk 0 (gridP.launch.spawn 0 0) { choice0 with p := 1 } = false ∧ (sPlace gridGang).grid? 0 = some gridGang ∧
    gridGang.launch.gang = true ∧ gridGang.placed < gridGang.launch.nblk :=
  ⟨⟨rfl, by decide +kernel, rfl⟩, by decide +kernel, by decide +kernel, by decide +kernel, ⟨rfl, by decide +kernel, rfl⟩, by decide,
    by decide +kernel, by decide +kernel, by decide +kernel, rfl, by decide +kernel, rfl, rfl, by decide⟩

/-- Partitions of two tenants' slices. -/
def part0 (p : Partition) : State := { start team0 with partitions := [(0, p)], tenants := [(0, {}), (1, {})] }
def slice0 (turn closing : Option Nat) (d : Int) : Partition :=
  { quarters := [0, 1, 2, 3], tenants := [(0, d), (1, 0)], shared := true, turn := turn, closing := closing
    start := nowOf State.reset }
theorem elapsed0 (p : Partition) (h : p.start = nowOf State.reset) : ((nowOf (part0 p) - p.start).toNat : Int) = 0 := by
  have e : nowOf (part0 p) = nowOf State.reset := rfl
  rw [h, e]
  simp

def grid3 : Grid := { gridP with launch := { launch0 with cls := 3, kernel := { launch0.kernel with scratch := 0 } } }
def blockPre : Block := { grid := 0, index := 0, quarters := [0], scratch := 0x10000, stream := some { pc := 0x2000 } }
def sPre : State :=
  { start team0 with grids := [(0, grid0), (1, grid3)], blocks := [(0, blockPre)], teams := []
                     partitions := [(0, { quarters := [0], tenants := [(0, 0)] })] }

theorem witness_slicesAndPreemption :
    ((part0 (slice0 (some 0) none 5)).partitions.get? 0 = some (slice0 (some 0) none 5) ∧ (slice0 (some 0) none 5).turn = some 0 ∧
      (part0 (slice0 (some 0) none 5)).runsOn (slice0 (some 0) none 5) 0 = true ∧
      ((nowOf (part0 (slice0 (some 0) none 5)) - (slice0 (some 0) none 5).start).toNat : Int) < (slice0 (some 0) none 5).deficit 0) ∧
    ((part0 (slice0 (some 1) none 5)).runsOn (slice0 (some 1) none 5) 1 = false ∧ ((part0 (slice0 (some 1) none 5)).partitions.map Prod.fst).Nodup ∧
      (slice0 (some 0) none 0).deficit 0 ≤ ((nowOf (part0 (slice0 (some 0) none 0)) - (slice0 (some 0) none 0).start).toNat : Int)) ∧
    ((slice0 none none 5).shared = true ∧ (slice0 none none 5).turn = none ∧ (slice0 none none 5).closing = none ∧
      (part0 (slice0 none none 5)).checkpointing = false ∧ (part0 (slice0 none none 5)).nextTurn (slice0 none none 5) = some 0 ∧
      (part0 (slice0 none none 5)).tenant? 0 = some {}) ∧
    ((part0 (slice0 none (some 0) 5)).sliceSaved (slice0 none (some 0) 5) = false ∧ (slice0 none (some 0) 5).closing = some 0 ∧
      ∃ e ∈ (slice0 none (some 0) 5).tenants, e.1 = 0) ∧
    (sPre.grid? 1 = some grid3 ∧ sPre.block? 0 = some blockPre ∧ sPre.checkpointing = false ∧ (∃ e ∈ sPre.heads 0, e.1 = 1) ∧ grid3.launch.cls = 3 ∧
      sPre.gridFits 1 grid3 = false ∧ sPre.givesRoom 1 grid3 0 blockPre = true ∧
      (∀ e ∈ sPre.blocks, sPre.givesRoom 1 grid3 e.1 e.2 = true → e.2.age ≤ blockPre.age)) ∧
    grid0.launch.cls ≠ 3 :=
  ⟨⟨rfl, rfl, by decide +kernel, by rw [elapsed0 _ rfl]; decide⟩, ⟨by decide +kernel, by decide, by rw [elapsed0 _ rfl]; decide⟩,
    ⟨rfl, rfl, rfl, rfl, by decide +kernel, rfl⟩, ⟨by decide +kernel, rfl, ⟨_, .head _, rfl⟩⟩,
    ⟨rfl, rfl, rfl, by decide +kernel, rfl, by decide +kernel, by decide +kernel, by decide +kernel⟩, by decide⟩

/-- A block being saved, and one saved with a byte of its scratchpad. -/
def sSave (st : BlockSt) : State := { start team0 with blocks := [(0, { block0 with st := st })] }
def blockS : Block := { block0 with st := .saved, saved := [(0, [(4, 9)], [])] }
/-- Its packet has crossed the fabric. -/
def pktS : Packet := { owner := .restore 0, cls := 3, tenant := 0, cluster := 0, line := 0, route := [], flits := 1, left := 1 }
def sSaved : State := { start team0 with blocks := [(0, blockS)], fabric := [(2, pktS)], nextId := 3 }

theorem arrives_saved : sSaved.arrives (.restore 0) = true := by
  have hl : sSaved.packets = [(2, pktS)] := by decide +kernel
  have hp : sSaved.packetOf (.restore 0) = some (2, pktS) := by decide +kernel
  have hw : sSaved.waitingChan (channelOf 0) = [(2, pktS)] := by
    simp [State.waitingChan, hl, pktS, State.staysNear, State.needsSlot]
  have hr : pktS.route = [] := rfl
  have hn : sSaved.needsSlot pktS = false := rfl
  have ht : sSaved.channelTakes 2 pktS = true := by
    simp only [State.channelTakes, show channelOf pktS.line = channelOf 0 from rfl, hw]
    rfl
  simp [State.arrives, hp, hr, hn, ht]

theorem witness_savesAndRestores :
    ((sSave .saving).block? 0 = some { block0 with st := .saving } ∧ (sSave .saving).saveWaits 0 = false ∧ ((sSave .saving).liveTeams 0).Nodup ∧
      (sSave .saving).team? 0 = some team0 ∧ team0.arend = none ∧ team0.openLanes = []) ∧
    { sSave .saving with msteps := [(3, { step0 with running := true })] }.saveWaits 0 = true ∧ Restorable sSaved 0 blockS ∧
    { block0 with st := .saving }.st ≠ .saved :=
  ⟨⟨rfl, by decide +kernel, by decide +kernel, rfl, rfl, by decide +kernel⟩, by decide +kernel,
    ⟨rfl, rfl, by decide +kernel, by decide +kernel, arrives_saved, by decide, by decide, by decide +kernel, by decide +kernel, fun k hk T hT => by
      have e : sSaved.liveTeams 0 = [0] := by decide +kernel
      rw [e] at hk
      cases List.mem_singleton.1 hk
      cases (show some team0 = some T from hT)
      rfl⟩, by decide⟩

/-- An error that a check gives. -/
theorem error_of {ε α : Type} {e : Except ε α} (h : (match e with | .ok _ => false | .error _ => true) = true) : ∃ c, e = .error c := by
  cases e with
  | ok p => simp at h
  | error c => exact ⟨c, rfl⟩

/-- A command entry of function `fn` with tag 7: its opcode, and its argument fields as byte offset and value. -/
def entry (fn op : Nat) (args : List (Nat × Nat)) : CmdEntry :=
  { fn := fn, bits := BitVec.ofNat 512 (op + fn * 2 ^ 16 + 7 * 2 ^ 32 + args.foldl (fun n a => n + a.2 * 2 ^ (8 * a.1)) 0) }

/-- A state whose function of an entry has it next in its queue. -/
def given (s : State) (e : CmdEntry) : State := { s with fns := [(e.fn, { queue := [e.bits] })] }

/-- A command of a constructor that HostCmd lists, in the state that has it next. -/
theorem accepted {s : State} {i : Instr} {e : CmdEntry} {op : Nat} {who : Who} {uses : List (Nat × Nat)} (h : HostCmd i e op who uses)
    (g : (decide (e.opcode = op) && (if who = .physical then e.fn == 0 else if who = .virtual then e.fn != 0 else true) && e.onlyUses uses &&
      (given s e).mayServe e && e.tag != 0xFFFFFFFF && e.get 2 2 == e.fn) = true) : Accepted (given s e) i e := by
  simp only [Bool.and_eq_true, decide_eq_true_eq, bne_iff_ne, ne_eq, beq_iff_eq] at g
  obtain ⟨⟨⟨⟨⟨g1, g2⟩, g3⟩, g4⟩, g5⟩, g6⟩ := g
  refine ⟨⟨op, who, uses, h, g1, fun w => ?_, fun w => ?_, ?_⟩, g4, g5, g6⟩
  · simpa [w] using g2
  · simpa [w] using g2
  · intro j hj hz
    simp only [CmdEntry.onlyUses, List.all_eq_true, List.mem_range, Bool.or_eq_true, List.any_eq_true, Bool.and_eq_true, decide_eq_true_eq,
      beq_iff_eq] at g3
    exact (g3 j hj).resolve_right hz

def power0 (w : Nat) : CmdEntry := entry 0 0x0E [(8, w)]

theorem witness_hostCommandChecks : HostCmd (.powerCap (power0 2000)) (power0 2000) 0x0E .physical [(8, 2)] ∧ (power0 2000).opcode = 0x0E ∧
    (given (start team0) (power0 2000)).mayServe (power0 2000) = true ∧ (start team0).mayServe (power0 2000) = false ∧
    (entry 1 0x0E [(8, 2000)]).fn ≠ 0 ∧ (given (start team0) (entry 1 0x0E [(8, 2000)])).mayServe (entry 1 0x0E [(8, 2000)]) = true ∧
    (given (start team0) (entry 0 0x21 [])).mayServe (entry 0 0x21 []) = true ∧
    ((power0 2000).get 2 2 = (power0 2000).fn ∧ ¬Unused (entry 0 0x0E [(10, 1)]) [(8, 2)]) ∧
    (given (start team0) (entry 0 0x7F [])).mayServe (entry 0 0x7F []) = true ∧
    (∀ i op who uses, HostCmd i (entry 0 0x7F []) op who uses → (entry 0 0x7F []).opcode ≠ op) := by
  refine ⟨.powerCap _, by decide +kernel, by decide +kernel, by decide +kernel, by decide, by decide +kernel, by decide +kernel,
    ⟨by decide +kernel, fun h => ?_⟩, by decide +kernel, fun i op who uses h => ?_⟩
  · obtain ⟨u, hu, h1, h2⟩ := h 2 (by decide) (by decide +kernel)
    rw [List.mem_singleton] at hu
    subst hu
    simp at h2
  · have e : (entry 0 0x7F []).opcode = 0x7F := by decide +kernel
    rw [e]
    cases h <;> decide

/-- TENANT_MAKE of a tenant: W, U, F, Q, PTROOT, QBASE and QN. -/
def make (id w : Nat) : CmdEntry := entry 0 0x01 [(8, id), (10, w), (12, 12000), (18, 64), (32, 0), (34, 1)]
def set (sel : Nat) (w : Nat) : CmdEntry := entry 0 0x02 [(8, 0), (10, w), (36, sel)]
def bare : State := State.reset
def one : Tenant := { qn := 1 }
def sOne : State := { bare with tenants := [(0, { qn := 1, groups := [group0] })] }
def groupE : CmdEntry := entry 0 0x07 [(8, 0), (10, 1)]
def groupM : CmdEntry := entry 0 0x06 [(8, 0), (10, 1), (12, 1), (16, 0x8000000000000)]
def assignE : CmdEntry := entry 0 0x04 [(8, 0), (10, 0), (12, 4), (14, 1), (16, 1), (24, 0x8000000000000)]
def withdrawE (q : Nat) : CmdEntry := entry 0 0x04 [(8, 1), (10, 0), (12, q), (14, 1)]
def teardownE : CmdEntry := entry 0 0x03 [(8, 0)]
/-- Block 0 has granted granules of quarter 3, and a piece of one of its commands is to write there or elsewhere. -/
def sGrantee (off : Nat) : State :=
  { sCmd (cmdP { piece0 with dst := [(.spm 0 off, 0)] }) with blocks := [], grants := [{ cluster := 0, block := 0, core := 0, first := 12288, run := 1 }] }

theorem witness_tenantCommands :
    (Accepted (given bare (make 0 1)) (.tenantMake (make 0 1)) (make 0 1) ∧ (make 0 1).get 8 2 ≤ 1023 ∧ (given bare (make 0 1)).tenant? 0 = none ∧
      Ranged { w := 1, u := 12000, f := 0, q := 64, nearQuota := 0, ptroot := 0, qbase := 0, qn := 1, key := Config.drawKey 0 } ∧
      Accepted (given bare (make 1024 1)) (.tenantMake (make 1024 1)) (make 1024 1) ∧ 1023 < (make 1024 1).get 8 2 ∧
      Accepted (given bare (make 0 0)) (.tenantMake (make 0 0)) (make 0 0) ∧ (make 0 0).get 10 1 < 1) ∧
    (Accepted (given sOne (set 1 9)) (.tenantSet (set 1 9)) (set 1 9) ∧ ((given sOne (set 1 9)).tenant? 0).isSome = true ∧
      (set 1 9).get 36 2 / 2 ^ 0 % 2 = 1 ∧ ¬(set 1 9).get 36 2 / 2 ^ 1 % 2 = 1 ∧ Accepted (given sOne (set 1 0)) (.tenantSet (set 1 0)) (set 1 0)) ∧
    (Accepted (given (start team0) groupM) (.groupMake groupM) groupM ∧ (given (start team0) groupM).group? 0 1 = none ∧
      1 ≤ groupM.get 12 4 ∧ hostAddr (groupM.get 16 8)) ∧
    (Accepted (given sOne groupE) (.groupEnd groupE) groupE ∧ ((given sOne groupE).group? 0 1).isSome = true ∧
      (given sOne groupE).groupBusy 0 1 = false ∧ (given { sOne with cmds := [(5, cmdC)] } groupE).groupBusy 0 1 = true ∧
      Accepted (given { sOne with cmds := [(5, cmdC)] } groupE) (.groupEnd groupE) groupE) ∧
    (Accepted (given (start team0) assignE) (.partitionAssign assignE) assignE ∧ (given (start team0) assignE).tenantList 0x8000000000000 1 = [0] ∧
      (∀ y ∈ (given (start team0) assignE).partitions, y.1 ≠ 0 → ∀ q ∈ y.2.quarters, ¬(4 ≤ q ∧ q < 5))) ∧
    (Accepted (given (start team0) (withdrawE 0)) (.partitionWithdraw (withdrawE 0)) (withdrawE 0) ∧
      (∃ b ∈ (given (start team0) (withdrawE 0)).blocks, b.2.live = true ∧ ∃ q ∈ b.2.quarters, 0 ≤ q ∧ q < 1) ∧
      Accepted (given (sPlace gridP) (withdrawE 3)) (.partitionWithdraw (withdrawE 3)) (withdrawE 3) ∧ (sPlace gridP).blocks = [] ∧
      (∀ b ∈ (sPlace gridP).partitions, (3 : Nat) ∈ b.2.quarters) ∧ (∀ q, 3 ≤ q → q < 4 → (given (sPlace gridP) (withdrawE 3)).quarterBusy q = false) ∧
      Accepted (given (sGrantee 0xC0000) (withdrawE 3)) (.partitionWithdraw (withdrawE 3)) (withdrawE 3) ∧
      (given (sGrantee 0xC0000) (withdrawE 3)).quarterBusy 3 = true ∧ (given (sGrantee 0xC0040) (withdrawE 3)).quarterBusy 3 = false) ∧
    Accepted (given (start team0) teardownE) (.teardown teardownE) teardownE ∧
    (∀ x ∈ (given (start team0) teardownE).stripes, x.2.moving = false) := by
  refine ⟨⟨accepted (.tenantMake _) (by decide +kernel), by decide +kernel, rfl, by unfold Ranged; decide +kernel,
      accepted (.tenantMake _) (by decide +kernel), by decide +kernel, accepted (.tenantMake _) (by decide +kernel), by decide +kernel⟩,
    ⟨accepted (.tenantSet _) (by decide +kernel), by decide +kernel, by decide +kernel, by decide +kernel,
      accepted (.tenantSet _) (by decide +kernel)⟩,
    ⟨accepted (.groupMake _) (by decide +kernel), by decide +kernel, by decide +kernel, by unfold hostAddr; decide +kernel⟩,
    ⟨accepted (.groupEnd _) (by decide +kernel), rfl, by decide +kernel, by decide +kernel, accepted (.groupEnd _) (by decide +kernel)⟩,
    ⟨accepted (.assign _ (by decide +kernel)) (by decide +kernel), by decide +kernel, by decide +kernel⟩,
    ⟨accepted (.withdraw _ (by decide +kernel)) (by decide +kernel), by decide +kernel,
      accepted (.withdraw _ (by decide +kernel)) (by decide +kernel), rfl, by decide, fun q h1 h2 => by
        obtain rfl : q = 3 := by omega
        decide +kernel,
      accepted (.withdraw _ (by decide +kernel)) (by decide +kernel), by decide +kernel, by decide +kernel⟩,
    accepted (.teardown _) (by decide +kernel), by decide +kernel⟩

def pageE (base n ten : Nat) : CmdEntry := entry 0 0x05 [(8, base), (16, n), (20, ten), (22, 0)]
def resetE (c : Nat) : CmdEntry := entry 0 0x08 [(8, c)]
def fnResetE (fn f : Nat) : CmdEntry := entry fn 0x09 [(8, f)]
/-- PAGE_OWN in progress on page 0x100, with and without a walk that uses it. -/
def sOwn (w : Table Walk) : State :=
  { start team0 with pageChange := some (0x100, 1, 0), walks := w, fns := [(0, { running := some (pageE 0x100000 1 0) })] }

/-- The same with a global atomic, or a piece of a copy, translated to the page. -/
def sOwnAtom : State := { sOwn [] with reqs := [(1, { reqG (.gatom .add 4 .home) false with elems := [{ lane := 0, addr := 0x40, pa := 0x100040 }] })] }
def sOwnPiece : State := { sOwn [] with cmds := [(5, cmdP { piece0 with src := [.phys 0x100040] })] }

theorem witness_pagesAndResets : Accepted (given (start team0) (pageE 0x1000 1 0)) (.pageOwn (pageE 0x1000 1 0)) (pageE 0x1000 1 0) ∧
    ((given (start team0) (pageE 0x1000 1 0)).fn 0).running = none ∧ ((given (start team0) (pageE 0x1000 1 0)).tenant? 0).isSome = true ∧
    (pageE 0x1000 1 0).get 8 8 % 4096 = 0 ∧ (pageE 0x1000 1 0).get 16 4 = 1 ∧
    Accepted (given (start team0) (pageE 0x1000 0 0)) (.pageOwn (pageE 0x1000 0 0)) (pageE 0x1000 0 0) ∧ (pageE 0x1000 0 0).get 16 4 < 1 ∧
    (∃ w ∈ (sOwn [(9, walk0)]).walks, ∃ p ∈ w.2.pages, 0x100 ≤ p ∧ p < 0x101) ∧ (∀ w ∈ (sOwn []).walks, ∀ p ∈ w.2.pages, ¬(0x100 ≤ p ∧ p < 0x101)) ∧
    ((sOwn []).fn 0).running = some (pageE 0x100000 1 0) ∧ (pageE 0x100000 1 0).opcode = 5 ∧ (sOwn []).pagesBusy 0x100 1 = false ∧
    (∃ r ∈ sOwnAtom.reqs, (∃ op w pl, r.2.kind = .gatom op w pl) ∧ ∃ x ∈ r.2.elems, x.st = .transit ∧ x.pa / 4096 = 0x100) ∧
    (∃ c ∈ sOwnPiece.cmds, ∃ p ∈ c.2.pending, ∃ pa, .phys pa ∈ p.src ∧ pa / 4096 = 0x100) ∧
    Accepted (given (start team0) (pageE (2 ^ 51) 1 0)) (.pageOwn (pageE (2 ^ 51) 1 0)) (pageE (2 ^ 51) 1 0) ∧
    (pageE (2 ^ 51) 1 0).get 8 8 = 2 ^ 51 ∧ (start team0).checkpointing = false ∧ { start team0 with checkpointing := true }.checkpointing = true ∧
    ((start team0).blocks.map Prod.fst).Nodup ∧
    Accepted (given (start team0) (resetE 31)) (.clusterReset (resetE 31)) (resetE 31) ∧ (resetE 31).get 8 1 ≤ 31 ∧
    Accepted (given (start team0) (resetE 32)) (.clusterReset (resetE 32)) (resetE 32) ∧ 31 < (resetE 32).get 8 1 ∧
    Accepted (given (start team0) (fnResetE 1 2)) (.fnReset (fnResetE 1 2)) (fnResetE 1 2) ∧ (fnResetE 1 2).get 8 2 ≠ 1 ∧
    Accepted (given (start team0) (fnResetE 0 0)) (.fnReset (fnResetE 0 0)) (fnResetE 0 0) ∧ (fnResetE 0 0).get 8 2 < 1 ∧
    Accepted (given (start team0) (fnResetE 1 1)) (.fnReset (fnResetE 1 1)) (fnResetE 1 1) ∧
    ((given (start team0) (fnResetE 1 1)).tenant? 0).isSome = true :=
  ⟨accepted (.pageOwn _) (by decide +kernel), by decide +kernel, by decide +kernel, by decide +kernel, by decide +kernel,
    accepted (.pageOwn _) (by decide +kernel), by decide +kernel, by decide, by decide, rfl, by decide +kernel, by decide +kernel,
    ⟨_, .head _, ⟨_, _, _, rfl⟩, _, .head _, rfl, by decide⟩, ⟨_, .head _, _, .head _, 0x100040, .head _, by decide⟩,
    accepted (.pageOwn _) (by decide +kernel), by decide +kernel, rfl, rfl, by decide,
    accepted (.clusterReset _) (by decide +kernel), by decide +kernel, accepted (.clusterReset _) (by decide +kernel), by decide +kernel,
    accepted (.fnReset _) (by decide +kernel), by decide +kernel, accepted (.fnReset _) (by decide +kernel), by decide +kernel,
    accepted (.fnReset _) (by decide +kernel), by decide +kernel⟩

/-- LAUNCH of function 1 with the record at an address, and the other commands on a grid. -/
def launchE (q a : Nat) : CmdEntry := entry 1 0x20 [(8, q), (16, a)]
def cancelE (tag : Nat) : CmdEntry := entry 1 0x21 [(8, tag)]
def holdE (op tag : Nat) : CmdEntry := entry 0 op [(8, 1), (12, tag)]
def moveE (op len : Nat) : CmdEntry := entry 1 op [(8, 0x8000000000000), (16, 0x4000), (24, len)]
/-- Tenant 0 with its pages at their own addresses, its tables at 0, and a launch record of 32 lanes at 0x10000. -/
def sRecord : State :=
  { start team0 with
    tenants := [(0, { qn := 1 })]
    dram := [(0, 0x01), (1, 0x10), (0x1000, 0x0F), (0x10001, 0x10), (0x10009, 0x10), (0x10010, 64), (0x1001C, 32), (0x1001E, 1),
             (0x10020, 8), (0x10022, 8), (0x10028, 1), (0x10052, 1)]
    rot := [(0, 0xC000), (1, 0xC000), (4, 0x8000), (16, 0x8000)] }
/-- Reading a launch record does not look at the grids. -/
theorem walkFrom_grids (s : State) (g : Table Grid) (va t : Nat) (ps : List Nat) (n : Nat) : ({ s with grids := g } : State).walkFrom va t ps n = s.walkFrom va t ps n := by
  induction n generalizing t ps with
  | zero => rfl
  | succ n ih => simp only [State.walkFrom, ih]; rfl
theorem engineAddr_grids (s : State) (g : Table Grid) (c tn va : Nat) : ({ s with grids := g } : State).engineAddr c tn va .read = s.engineAddr c tn va .read := by
  simp only [State.engineAddr, State.translate, State.leafFor, State.walk, walkFrom_grids]; rfl
theorem engineRun_grids (s : State) (g : Table Grid) (c tn n va : Nat) : ({ s with grids := g } : State).engineRun c tn va .read n = s.engineRun c tn va .read n := by
  induction n generalizing va with
  | zero => rfl
  | succ n ih => simp only [State.engineRun, ih, engineAddr_grids]
theorem tenantRead_grids (s : State) (g : Table Grid) (tn va n : Nat) : ({ s with grids := g } : State).tenantRead tn va n = s.tenantRead tn va n := by
  simp only [State.tenantRead, State.engineRead, engineRun_grids]; rfl
theorem readLaunch_grids (s : State) (g : Table Grid) (tn a : Nat) : ({ s with grids := g } : State).readLaunch tn a = s.readLaunch tn a := by
  have k (l : List Nat) : ({ s with grids := g } : State).readKernels tn l = s.readKernels tn l := by
    induction l with
    | nil => rfl
    | cons a r ih => simp only [State.readKernels, tenantRead_grids, ih]
  simp only [State.readLaunch, State.readTable, tenantRead_grids, k]
/-- A queue of 64 grids takes no other. -/
theorem full_refuses (s : State) (tn q x : Nat) (l : Launch) (h : 64 ≤ s.queueLength tn q) : s.launchStatus tn q x l ≠ 0 := by
  unfold State.launchStatus
  split_ifs <;> decide
theorem record0 : ∃ r, (given sRecord (launchE 0 0x10000)).readLaunch 0 0x10000 = .ok r ∧
    decide ((given sRecord (launchE 0 0x10000)).launchStatus 0 0 r.1 r.2 = 0) = true :=
  ok_of (e := (given sRecord (launchE 0 0x10000)).readLaunch 0 0x10000)
    (fun r => decide ((given sRecord (launchE 0 0x10000)).launchStatus 0 0 r.1 r.2 = 0)) (by decide +kernel)
/-- The same with 64 grids in its queue. -/
def sQueueFull : State := { given sRecord (launchE 0 0x10000) with grids := (List.range 64).map (fun n => (n, gridP)) }
theorem record1 : ∃ x l, sQueueFull.readLaunch 0 0x10000 = .ok (x, l) ∧ sQueueFull.launchStatus 0 0 x l ≠ 0 := by
  obtain ⟨⟨x, l⟩, h, -⟩ := record0
  exact ⟨x, l, (readLaunch_grids _ _ _ _).trans h, full_refuses _ _ _ _ _ (by decide +kernel)⟩

theorem witness_gridCommands :
    (Accepted (given bare (launchE 0 0)) (.launch (launchE 0 0)) (launchE 0 0) ∧ (given bare (launchE 0 0)).tenant? 0 = none ∧
      Accepted (given sOne (launchE 1 0)) (.launch (launchE 1 0)) (launchE 1 0) ∧
      Accepted (given sOne (launchE 0 0x10000)) (.launch (launchE 0 0x10000)) (launchE 0 0x10000) ∧
      (∃ st, (given sOne (launchE 0 0x10000)).readLaunch 0 0x10000 = .error st) ∧
      Accepted (given sRecord (launchE 0 0x10000)) (.launch (launchE 0 0x10000)) (launchE 0 0x10000) ∧
      (∃ r, (given sRecord (launchE 0 0x10000)).readLaunch 0 0x10000 = .ok r ∧
        decide ((given sRecord (launchE 0 0x10000)).launchStatus 0 0 r.1 r.2 = 0) = true) ∧
      ∃ x l, sQueueFull.readLaunch 0 0x10000 = .ok (x, l) ∧ sQueueFull.launchStatus 0 0 x l ≠ 0) ∧
    (Accepted (given (start team0) (cancelE 7)) (.cancel (cancelE 7)) (cancelE 7) ∧
      (given (start team0) (cancelE 7)).taggedGrid 1 (BitVec.ofNat 32 ((cancelE 7).get 8 4)) = some 0 ∧
      Accepted (given (start team0) (cancelE 8)) (.cancel (cancelE 8)) (cancelE 8) ∧
      (given (start team0) (cancelE 8)).taggedGrid 1 (BitVec.ofNat 32 ((cancelE 8).get 8 4)) = none) ∧
    (Accepted (given (start team0) (holdE 0x0F 7)) (.suspend (holdE 0x0F 7)) (holdE 0x0F 7) ∧
      (∃ b ∈ (((given (start team0) (holdE 0x0F 7)).family [0] 10).flatMap (given (start team0) (holdE 0x0F 7)).liveBlocks),
        (given (start team0) (holdE 0x0F 7)).residentBlock b = true) ∧
      Accepted (given (start team0) (holdE 0x10 7)) (.resume (holdE 0x10 7)) (holdE 0x10 7) ∧
      Accepted (given (start team0) (holdE 0x10 8)) (.resume (holdE 0x10 8)) (holdE 0x10 8)) ∧
    (Accepted (given sOne (moveE 0x22 0)) (.memWrite (moveE 0x22 0)) (moveE 0x22 0) ∧ (moveE 0x22 0).get 24 4 < 1 ∧
      Accepted (given sRecord (moveE 0x22 64)) (.memWrite (moveE 0x22 64)) (moveE 0x22 64) ∧
      ((given sRecord (moveE 0x22 64)).fn 1).done = 0 ∧ ((given sRecord (moveE 0x22 64)).fn 1).bad = none ∧
      (given sRecord (moveE 0x22 64)).physPoisoned 0x8000000000000 64 = false ∧
      (∃ s1, (given sRecord (moveE 0x22 64)).engineWrite hostCluster 0 0x4000 (Memory.bytes (given sRecord (moveE 0x22 64)).host 0x8000000000000 64)
        false false = .ok s1 ∧ true = true) ∧
      Accepted (given sRecord (moveE 0x23 65)) (.memRead (moveE 0x23 65)) (moveE 0x23 65) ∧
      (∃ r, (given sRecord (moveE 0x23 65)).engineRead hostCluster 0 0x4000 64 = .ok r ∧ (!r.2) = true) ∧
      (∃ st, (given sOne (moveE 0x22 64)).engineRead hostCluster 0 0x4000 64 = .error st)) :=
  ⟨⟨accepted (.launch _) (by decide +kernel), rfl, accepted (.launch _) (by decide +kernel), accepted (.launch _) (by decide +kernel),
      error_of (by decide +kernel), accepted (.launch _) (by decide +kernel),
      record0, record1⟩,
    ⟨accepted (.cancel _) (by decide +kernel), by decide +kernel, accepted (.cancel _) (by decide +kernel), by decide +kernel⟩,
    ⟨accepted (.suspend _) (by decide +kernel), by decide +kernel, accepted (.resume _) (by decide +kernel),
      accepted (.resume _) (by decide +kernel)⟩,
    ⟨accepted (.memWrite _) (by decide +kernel), by decide +kernel, accepted (.memWrite _) (by decide +kernel),
      by decide +kernel, by decide +kernel, by decide +kernel, ok_of (fun _ => true) (by decide +kernel), accepted (.memRead _) (by decide +kernel), ok_of (fun r : List Byte × Bool => !r.2) (by decide +kernel), error_of (by decide +kernel)⟩⟩

def attestE (a : Nat) : CmdEntry := entry 0 0x0C [(40, a)]
def fwE (n : Nat) : CmdEntry := entry 0 0x0D [(8, 0x8000000000000), (16, n)]
def checkE : CmdEntry := entry 0 0x0A []
def restoreE : CmdEntry := entry 0 0x0B []
def running (s : State) (e : CmdEntry) : State := { s with fns := [(0, { running := some e })], checkpointing := e.opcode == 0x0A, restoring := e.opcode == 0x0B }

/-- An image that this part's root has signed, and one signed by another. -/
def ownImage : Image := { bare.image with identity := rootIdentity, signer := rootIdentity }
def otherImage : Image := { ownImage with signer := rootIdentity + 1 }
def sTier (i : Image) : State := { bare with tier := some i }

theorem other_signer : otherImage.signer ≠ rootIdentity := by
  show rootIdentity + 1 ≠ rootIdentity
  generalize rootIdentity = x
  intro h
  have := congrArg BitVec.toNat h
  simp [BitVec.toNat_add] at this
  omega

theorem witness_rootCommands : Accepted (given bare (attestE 0)) (.attest (attestE 0)) (attestE 0) ∧ ¬hostAddr ((attestE 0).get 40 8) ∧
    Accepted (given bare (attestE 0x8000000000040)) (.attest (attestE 0x8000000000040)) (attestE 0x8000000000040) ∧
    hostAddr ((attestE 0x8000000000040).get 40 8) ∧ (attestE 0x8000000000040).get 40 8 % 64 = 0 ∧
    Accepted (given bare (fwE 0)) (.fwWrite (fwE 0)) (fwE 0) ∧ Accepted (given bare (fwE 1)) (.fwWrite (fwE 1)) (fwE 1) ∧ (fwE 1).get 16 4 = 1 ∧
    (∀ w ∈ [1199, 1200, 2800, 2801], Accepted (given bare (power0 w)) (.powerCap (power0 w)) (power0 w) ∧ (power0 w).get 8 2 = w) ∧
    Accepted (given (start team0) checkE) (.checkpoint checkE) checkE ∧ (running (start team0) checkE).checkpointing = true ∧
    (∃ b ∈ (running (start team0) checkE).blocks, b.2.st = .placed ∨ b.2.st = .saving) ∧ (running sSaved checkE).quiesced = true ∧
    Accepted (given sOne restoreE) (.restore restoreE) restoreE ∧ (given sOne restoreE).tenants ≠ [] ∧
    Accepted (given bare restoreE) (.restore restoreE) restoreE ∧ (given bare restoreE).tier = none ∧
    (∀ i ∈ [ownImage, otherImage], Accepted (given (sTier i) restoreE) (.restore restoreE) restoreE ∧ (given (sTier i) restoreE).tenants = [] ∧
      (given (sTier i) restoreE).tier = some i) ∧ ownImage.identity = rootIdentity ∧ ownImage.signer = rootIdentity ∧
    otherImage.signer ≠ rootIdentity ∧
    (running (sTier ownImage) restoreE).restoring = true ∧ (running (sTier ownImage) restoreE).tier = some ownImage ∧ restoreE.opcode = 0x0B := by
  refine ⟨accepted (.attest _) (by decide +kernel), by unfold hostAddr; decide +kernel, accepted (.attest _) (by decide +kernel),
    by unfold hostAddr; decide +kernel, by decide +kernel, accepted (.fwWrite _) (by decide +kernel), accepted (.fwWrite _) (by decide +kernel),
    by decide +kernel, fun w hw => ?_, accepted (.checkpoint _) (by decide +kernel), by decide +kernel, ⟨_, .head _, .inl rfl⟩, by decide +kernel,
    accepted (.restore _) (by decide +kernel), by decide, accepted (.restore _) (by decide +kernel), rfl,
    fun i hi => ?_, rfl, rfl, other_signer, by decide +kernel, rfl, by decide +kernel⟩
  rotate_left
  · simp only [List.mem_cons, List.not_mem_nil, or_false] at hi
    rcases hi with rfl | rfl <;> exact ⟨accepted (.restore _) (by decide +kernel), rfl, rfl⟩
  simp only [List.mem_cons, List.not_mem_nil, or_false] at hw
  rcases hw with rfl | rfl | rfl | rfl <;> exact ⟨accepted (.powerCap _) (by decide +kernel), by decide +kernel⟩

/-- Function 1 with a ring pair, and what it owes. -/
def done0 : Completion := ⟨7, 0, 0, 5⟩
def sRing (r : Rings) : State := { start team0 with fns := [(1, { rings := some r, owed := [done0] })] }
/-- A doorbell packet of function 1 on port 0: its destination device, type, kind, index and number of flits. -/
def header (device type kind index n : Nat) : BitVec 256 :=
  BitVec.ofNat 256 (1 + n * 2 ^ 16 + device % 2 ^ 16 * 2 ^ 40 + type * 2 ^ 56 + kind * 2 ^ 64 + index * 2 ^ 96)

theorem header_fields (d type kind index n : Nat) (ht : type < 2 ^ 6) (hk : kind < 2 ^ 8) (hi : index < 2 ^ 32) (hn : n < 2 ^ 8) :
    (header d type kind index n).toNat / 2 ^ 16 % 2 ^ 8 = n ∧ (header d type kind index n).toNat / 2 ^ 40 % 2 ^ 16 = d % 2 ^ 16 ∧
      (header d type kind index n).toNat / 2 ^ 56 % 2 ^ 6 = type ∧ (header d type kind index n).toNat / 2 ^ 64 % 2 ^ 8 = kind := by
  have hd : d % 2 ^ 16 < 2 ^ 16 := Nat.mod_lt _ (by decide)
  unfold header
  generalize d % 2 ^ 16 = D at *
  have h : (BitVec.ofNat 256 (1 + n * 2 ^ 16 + D * 2 ^ 40 + type * 2 ^ 56 + kind * 2 ^ 64 + index * 2 ^ 96)).toNat =
      1 + n * 2 ^ 16 + D * 2 ^ 40 + type * 2 ^ 56 + kind * 2 ^ 64 + index * 2 ^ 96 := by
    rw [BitVec.toNat_ofNat]
    exact Nat.mod_eq_of_lt (by omega)
  rw [h]
  omega
/-- A launch of function 1 that has been entered and not yet reported. -/
def sOwes : State := { start team0 with grids := [(0, grid0)] }
def sPort (p : Port) : State := { start team0 with ports := [(0, p)] }
def hostPort (h : BitVec 256) : Port := { st := .up true, flits := [h] }

theorem witness_ringsAndPackets : (∀ r, ((start team0).fn 1).rings = some r → 2 ^ r.k ≤ 0) ∧ ((sRing ring0).fn 1).rings = some ring0 ∧ 2 ^ ring0.k ≤ 16 ∧
    15 < 2 ^ ring0.k ∧ ring0.read < 2 ^ ring0.k ∧ (1 ≤ 1024 ∧ 4 ≤ ring0.k ∧ ring0.sq.toNat % 4096 = 0 ∧ hostAddr (ring0.cq.toNat + 16 * 2 ^ 4 - 1)) ∧
    ((start team0).fn 1).idle = true ∧ ((sRing ring0).fn 1).owed = [done0] ∧ (ring0.write + 1) % 2 ^ ring0.k ≠ ring0.head ∧
    (({ ring0 with write := 15 } : Rings).write + 1) % 2 ^ ring0.k = ring0.head ∧
    (start team0).launchOwed 2 = false ∧ (∃ g ∈ sOwes.grids, g.2.ended = false ∧ ∃ tag, g.2.owner = .host 1 tag) ∧
    (∀ d t k, ((sPort (hostPort (header d t k 0 1))).port 0).flits = header d t k 0 1 :: []) ∧ 1 ≤ ([] : List (BitVec 256)).length + 1 ∧
    (∀ t ∈ [0, 2, 7], ∀ k ∈ [0, 1, 2, 3], (header Config.device t k 0 1).toNat / 2 ^ 16 % 2 ^ 8 = 1 ∧
      (header Config.device t k 0 1).toNat / 2 ^ 40 % 2 ^ 16 = Config.device % 2 ^ 16 ∧
      (header Config.device t k 0 1).toNat / 2 ^ 56 % 2 ^ 6 = t ∧ (header Config.device t k 0 1).toNat / 2 ^ 64 % 2 ^ 8 = k) ∧
    (header (Config.device + 1) 2 0 0 1).toNat / 2 ^ 40 % 2 ^ 16 ≠ Config.device % 2 ^ 16 ∧
    ((sPort (hostPort (header Config.device 2 0 0 1))).port 0).st = .up true ∧ ((sPort { flits := [header Config.device 2 0 0 1] }).port 0).st ≠ .up true := by
  refine ⟨nofun, rfl, by decide, by decide, by decide, by unfold hostAddr; decide +kernel, by decide +kernel, rfl, by decide, by decide, by decide +kernel,
    ⟨_, .head _, rfl, _, rfl⟩, fun _ _ _ => rfl, by decide, fun t ht k hk => ?_, ?_, rfl, nofun⟩
  · refine header_fields _ _ _ _ _ ?_ ?_ (by decide) (by decide)
    · simp only [List.mem_cons, List.not_mem_nil, or_false] at ht
      omega
    · simp only [List.mem_cons, List.not_mem_nil, or_false] at hk
      omega
  · rw [(header_fields (Config.device + 1) 2 0 0 1 (by decide) (by decide) (by decide) (by decide)).2.1]
    omega

/-- Frames and ports. -/
def frame0 (kind : BitVec 4) (seq : Byte) : Sys2Proof.Frame := { kind := kind, seq := seq, ack := 0, flits := List.replicate 20 0 }

theorem witness_linkFrames : Up ((sPort { st := .up true }).port 0) ∧ (frame0 0 0).kind = 0 ∧ (frame0 0 0).seq = ((sPort { st := .up true }).port 0).accept ∧
    (frame0 0 1).seq ≠ ((sPort { st := .up true }).port 0).accept ∧ 2 < (frame0 3 0).kind ∧ (frame0 1 0).kind = 1 ∧
    (frame0 0 3).seq = (3 : Byte) ∧ (∀ g ∈ [frame0 0 4], g.seq ≠ (3 : Byte)) ∧ ((sPort { st := .up true, retries := 15 }).port 0).retries < 16 ∧
    16 ≤ ((sPort { st := .up true, retries := 16 }).port 0).retries ∧ ¬Up ((sPort {}).port 0) ∧ (sPort {}).hostPorts 0 < 4 ∧
    4 ≤ { start team0 with ports := [(1, { st := .up true }), (2, { st := .up true }), (3, { st := .up true }), (4, { st := .up true })] }.hostPorts 0 ∧
    ((sPort { st := .training }).port 0).st = .training ∧ (∀ k q, (frame0 k q).flits.length = 20) ∧ { frame0 0 0 with flits := [] }.flits.length ≠ 20 ∧
    ((sPort { st := .up true, sendq := [7] }).port 0).sendq ≠ [] ∧ ((sPort { st := .up true, sendq := [7] }).port 0).window.length < 128 ∧
    128 ≤ ((sPort { st := .up true, sendq := [7], window := List.replicate 128 (frame0 0 0) }).port 0).window.length :=
  ⟨⟨true, rfl⟩, rfl, rfl, by decide +kernel, by decide, rfl, rfl, by decide, by decide +kernel, by decide +kernel, (fun ⟨_, h⟩ => by cases h),
    by decide +kernel, by decide +kernel, rfl, fun _ _ => rfl, by decide, by decide, by decide, by decide +kernel⟩

/-- Two packets that wait at crosspoint 4, of class 3 from input 4 and of class 0 from input 5. -/
def pktX (lane cls input : Nat) : Packet :=
  { owner := .elem 1 lane, cls := cls, tenant := 0, cluster := 0, line := 1, route := [(4, input)], flits := 1, left := 1 }
def reqX : Req := { reqG (.gatom .add 4 .home) false with elems := [{ lane := 0, addr := 0x40, pa := 0x40 }, { lane := 1, addr := 0x40, pa := 0x40 }] }
def cross (n : Nat) : State :=
  { start teamE with reqs := [(1, reqX)], fabric := [(2, pktX 0 3 4), (3, pktX 1 0 5)], crosspoints := [(4, { since := n })], channels := [(0, {})] }
def sOff : State := { bare with powerSt := .off }

theorem witness_crosspoints : (∀ n, (cross n).waitingAt 4 = [(2, pktX 0 3 4)] ++ (3, pktX 1 0 5) :: []) ∧
    (∃ v ∈ [(2, pktX 0 3 4), (3, pktX 1 0 5)], (pktX 1 0 5).cls < v.2.cls) ∧
    (∀ u ∈ [(2, pktX 0 3 4)], ∀ v ∈ [(2, pktX 0 3 4), (3, pktX 1 0 5)], v.2.cls ≤ u.2.cls) ∧ ((cross 62).xp 4).since < 63 ∧
    63 ≤ ((cross 63).xp 4).since ∧ (cross 62).waitingAt 4 = [] ++ (2, pktX 0 3 4) :: [(3, pktX 1 0 5)] ∧ (cross 62).forcedAt 4 = false ∧
    (pktX 1 0 5).cls < (pktX 0 3 4).cls :=
  ⟨fun _ => rfl, by decide, by decide, by decide, by decide, rfl, by decide +kernel, by decide⟩

/-- An atomic at its line's home slice that holds no slot yet, in a channel whose other slots its tenant holds or does not. -/
def sSlot (n : Nat) : State :=
  { sAtom (.gatom .add 4 .home) false with
    fabric := (2, { pktG with slot := false }) :: (List.range n).map (fun j => (3 + j, pktG)) }

theorem witness_channels : (sSlot 0).fabric.get? 2 = some { pktG with slot := false } ∧ (sSlot 0).needsSlot { pktG with slot := false } = true ∧
    (∃ tn, (sSlot 0).tenant? 0 = some tn ∧ 32 * tn.f / 256 = 0) ∧
    ((sSlot 0).packets.filter (fun q => q.2.slot && channelOf q.2.line == channelOf 1)).length = 0 ∧
    1 ≤ ((sSlot 1).packets.filter (fun q => q.2.slot && channelOf q.2.line == channelOf 1)).length ∧
    (cross 0).channels.get? 0 = some {} ∧ (∀ n, (start team0).waitingChan n = []) ∧
    (∀ s x, s = ({ sAtom .value true with tenants := [(0, { f := 256 })], channels := [(channelOf 1, x)] } : State) → x = { served := [(1, 1)] } →
      ∃ p ∈ s.waitingChan (channelOf 1), ∃ tn, s.tenant? p.2.tenant = some tn ∧ 256 * x.servedOf p.2.tenant < tn.f * x.total) ∧
    (sAtom .value true).channelTakes 2 pktG = true := by
  have hw (x : Channel) : ({ sAtom .value true with tenants := [(0, { f := 256 })], channels := [(channelOf 1, x)] } : State).waitingChan (channelOf 1) =
      [(2, pktG)] := by
    simp [State.waitingChan, State.packets, State.pktAlive, sAtom, pktG, reqG, start, Table.get?, State.staysNear, State.needsSlot]
  refine ⟨rfl, by decide +kernel, ⟨_, rfl, by decide⟩, ?_, ?_, rfl, fun _ => rfl, ?_, takes_alone _ (.inr rfl) _⟩
  · simp [sSlot, State.packets, pktG]
  · simp [sSlot, State.packets, State.pktAlive, sAtom, pktG, reqG, start, Table.get?]
  · rintro s x rfl rfl
    exact ⟨(2, pktG), by rw [hw]; exact .head _, _, rfl, by decide⟩

theorem witness_arbitrationAndPower : bare.checkpointing = false ∧ { bare with checkpointing := true }.checkpointing = true ∧
    sOff.powerSt = .off ∧ bare.powerSt ≠ .off ∧ (some ((0x01 : Byte), (2 : Byte)) = some (0x01, 2)) ∧ StageFault 0x20 0x70 ∧ ¬StageFault 0x20 0x80 ∧
    StageFault 0x21 5 ∧ (0x22 : Byte) ≠ 0x01 ∧ ¬StageFault 0x22 0 ∧ (∀ c d, (none : Option (Byte × Byte)) = some (c, d) → StageFault c d) ∧ (3 : Nat) ≠ 0 := by
  unfold StageFault
  exact ⟨rfl, rfl, rfl, by decide, rfl, by decide, by decide, by decide, by decide, by decide, nofun, by decide⟩

theorem witness_stepKeepsInv : Inv State.reset ∧ ∃ s', step State.reset = .next s' :=
  ⟨⟨by decide +kernel, nofun, by decide +kernel⟩, _, by
    have h : State.reset.cands = [] := by decide +kernel
    simp only [step, State.advanceOnce, h]
    rfl⟩

theorem witness_decodeEncode : (gated0.enc?.isSome = true ∧ gated0.wf = true) ∧ [(0x01479022 : Word)].length = wordCount 0x01479022 ∧
    decodeWords [0x01479022] = .ok (.iadd64 { ext := false, d := .v 10, a := src (.v 12), b := src (.v 14) }) := by decide +kernel

/-- The words of `iadd64 v10, v12, v14` at the pc of the team of `withFetchWord`, and of `mend` at the pc of the stream. -/
def sFetch : State := State.reset.withFetchWord 32 0x01479022
def sFetchS : State := State.reset.withFetchWord 32 0x3B300000

def fetched (d : Decoded) (i : Instr) : Bool := match d with | .ok j => j == i | .trap _ _ => false
theorem fetched_ok {d : Decoded} {i : Instr} (h : fetched d i = true) : d = .ok i := by
  cases d with
  | ok j => simpa [fetched] using h
  | trap _ _ => simp [fetched] at h

theorem witness_stepRunsDecoded : sFetch.powerSt = .on none ∧ sFetch.cands = [.agent (.team 0)] ∧ sFetch.team? 0 = some probeTeam ∧
    ({ sFetch with draws := sFetch.draws + 1 } : State).fetch probeTeam.cluster (sFetch.tenantIdOf probeTeam) probeTeam.ctl.pc =
      .ok (.iadd64 { ext := false, d := .v 10, a := src (.v 12), b := src (.v 14) }) ∧
    State.reset.cands = [] ∧ sFetchS.cands = [.agent (.stream 0)] ∧
    ({ sFetchS with draws := sFetchS.draws + 1 } : State).fetch 0 0 0x1000 = .ok .mend ∧
    (∀ f, sOff.powerSt ≠ .on f) ∧ (∀ f p r, sOff.inputs ≠ .powerGood f p :: r) ∧ (∀ r, sOff.inputs ≠ .powerLoss :: r) :=
  ⟨by decide +kernel, by decide +kernel, by decide +kernel, fetched_ok (by decide +kernel), by decide +kernel, by decide +kernel,
    fetched_ok (by decide +kernel), nofun, nofun, nofun⟩

/-! ### Witnesses of single clauses -/

theorem witness_floatFunctions : (finite32 0x40000000 ∧ fixed32 0x40000000 ≠ 0 ∧ neg32 0x40000000 = false) ∧ neg32 0xC0000000 = true ∧
    isNan32 0x7FC00000 ∧ (¬finite32 0x7F800000 ∧ ¬isNan32 0x7F800000) ∧ (0x1FF : Word).toNat % 256 = 255 ∧ (0x7F : Word).toNat % 256 ≠ 255 := by
  decide +kernel
/-- 2.0 is the power 2^150 of the smallest subnormal and an integer; 1.5 is neither. -/
theorem witness_floatTranscendentals : fixed32 0x40000000 = (2 : Int) * 2 ^ 149 ∧ abs32 0x40000000 = 2 ^ 150 ∧ finite32 0x3FC00000 ∧
    fixed32 0x3FC00000 ≠ 0 ∧ fixed32 0x3FC00000 % 2 ^ 149 ≠ 0 ∧ abs32 0x3FC00000 = 3 * 2 ^ 148 := by decide +kernel
theorem witness_floatConversions : (∃ L, narrow .e4m3 = some L ∧ L.nan.isSome = true ∧ L.inf = none ∧ L.Finite 0x7E ∧ L.Nan 0x7F) ∧
    (∃ L, narrow .e5m2 = some L ∧ L.inf = some 0x7C ∧ L.Infinite 0x7C) ∧ (∃ L, narrow .e2m1 = some L ∧ L.nan = none) ∧
    wholes .s8 = some (8, true) ∧ (finite32 0x3F800000 ∧ abs32 0x3F800000 ≠ 0) ∧ abs32 0x80000000 = 0 ∧ slotBits .e2m1 = some 4 ∧ 4 * (7 + 1) ≤ 32 ∧
    (0xFF : Word).toNat % 256 = 255 :=
  ⟨⟨_, rfl, by decide +kernel⟩, ⟨_, rfl, by decide +kernel⟩, ⟨_, rfl, rfl⟩, by decide +kernel⟩
/-- Signs and specials of FP16 and FP32; a dot product's; and the product of infinity and 0. -/
theorem witness_floatArithmetic : Summing fF32 single ∧ (∃ L, Summing (halfFmt .f16) L ∧ narrow .f16 = some L ∧ L.Infinite 0x7C00 ∧ L.Nan 0x7E00 ∧
      L.Signals 0x7D00 ∧ L.Finite 0x3C00 ∧ BadProduct L 0x7C00 0 ∧ InfProduct L 0x7C00 0x3C00) ∧
    DotForm (dot4Fmt .e5m2) .e5m2 4 8 ∧ (∀ j, j < 2 → (fun _ => ((0 : Nat), ({} : FFlags))) j = (0, {})) ∧
    (∃ L, narrow .e5m2 = some L ∧ BadProduct L 0x7C 0 ∧ InfProduct L 0x7C 0x3C ∧ (L.neg 0x7C ^^ L.neg 0x3C) = false ∧ L.Nan 0x7F) ∧
    (single.Infinite 0xFF800000 ∧ neg32 0xFF800000 = true) ∧ ElemFinite .e5m2 0x3C :=
  ⟨.single, ⟨_, .half .f16 _ rfl, rfl, by decide +kernel⟩, .dot4 _ _ rfl, fun _ _ => rfl, ⟨_, rfl, by decide +kernel⟩, by decide +kernel,
    fun L h => by cases h; decide⟩

/-- Two lanes of a load that read the same word. -/
def reqTwo : Req :=
  { team := 0, kind := .load 4 false, dst := .v 1 1, words := [0]
    elems := [{ lane := 0, addr := 0x40, st := .landing }, { lane := 1, addr := 0x40, st := .landing }] }
def sTwoLanes : State := { start team0 with reqs := [(1, reqTwo)], nextId := 2 }

theorem witness_nearLoads_shared : Landing sTwoLanes 1 0 0 reqTwo { lane := 0, addr := 0x40, st := .landing } team0 (.spm 0 0x40 false) ∧
    reqTwo.words ≠ [] ∧ (reqTwo.elems.map Elem.lane).Nodup ∧
    (∃ x ∈ reqTwo.elems, x.lane ≠ 0 ∧ x.lane / 32 = 0 / 32 ∧ x.st = .landing ∧ x.landed = [] ∧
      elemPlace (sTwoLanes.frame team0) reqTwo.kind x = .ok (.spm 0 0x40 false)) ∧ sharedWord (.spm 0 0x40 false) (.spm 0 0x40 false) 4 :=
  ⟨⟨rfl, rfl, .inl (by decide +kernel), by decide, by decide +kernel, rfl, by decide +kernel, by decide +kernel, by decide +kernel,
      by decide +kernel⟩, by decide, by decide, ⟨_, .tail _ (.head _), by decide +kernel⟩, 0, 0x40, 0x40, false, false, rfl, rfl, rfl⟩

/-- A store checked against a grant whose block has ended since. -/
def reqGranted : Req := { reqL (.store 4) 0x10000000 with words := [] }
def sOutlived : State :=
  { sLand (.store 4) 0x10000000 with
    reqs := [(1, reqGranted)], blocks := [(0, { block0 with st := .ended, stream := none })]
    grants := [{ cluster := 0, block := 0, core := 0, first := 0, run := 1 }] }

theorem witness_nearStores_ended : (∃ e l, Landing sOutlived 1 0 0 reqGranted e team0 l) ∧ NearWrites reqGranted.kind 4 ∧
    sOutlived.residentBlock 0 = false :=
  ⟨⟨_, _, ⟨rfl, rfl, .inr (by decide +kernel), by decide, rfl, rfl, rfl, by decide +kernel, by decide +kernel, by decide +kernel⟩⟩, .store 4,
    by decide +kernel⟩

/-- A register of cause words that an access still owes. -/
def emptyCr (t : Team) : Team := { t with regs := { t.regs with sflag := [(0, .empty)] } }
def lsEnd : List (Nat × Outcome) := [(0, .waiting)]

theorem witness_regionCommit_waits :
    (AtCommit (start (emptyCr (atEnd rDoomed lsEnd))) 0 (emptyCr (atEnd rDoomed lsEnd)) lsEnd 0 rDoomed none ∧
      AbortsWith (start (emptyCr (atEnd rDoomed lsEnd))) (emptyCr (atEnd rDoomed lsEnd)) rDoomed none 7 1 ∧
      (emptyCr (atEnd rDoomed lsEnd)).regs.sflg rDoomed.cr = .empty) ∧
    ((start (emptyCr (atEnd rDoomed [(0, .aborted 7 1)]))).team? 0 = some (emptyCr (atEnd rDoomed [(0, .aborted 7 1)])) ∧
      (emptyCr (atEnd rDoomed [(0, .aborted 7 1)])).arend = some [(0, .aborted 7 1)] ∧
      ∃ r, (emptyCr (atEnd rDoomed [(0, .aborted 7 1)])).regionOf 0 = some r ∧
        (emptyCr (atEnd rDoomed [(0, .aborted 7 1)])).regs.sflg r.cr = .empty) ∧
    (atEnd rMoves [(0, .second [9])]).regs.sflg rMoves.cr ≠ .empty ∧ (atEnd rDoomed [(1, .committed), (0, .waiting)]).regs.sflg rDoomed.cr ≠ .empty := by
  refine ⟨⟨?_, .inl rfl, by decide +kernel⟩, ⟨rfl, rfl, _, rfl, by decide +kernel⟩, by decide +kernel, by decide +kernel⟩
  exact ⟨rfl, rfl, ⟨_, rfl, rfl⟩, rfl, by decide, rfl⟩

theorem witness_atomics_forms : AtomicForm (.gatom .add .home .w (rmw (.v 1) (.v 4) (.v 3))) .add .home .w (.v 1 1) (.v 4, 0) (.v 3) .zero false ∧
    AtomicForm (.gred .add .home .d (stArgs (.v 4) (.v 6))) .add .home .d .none (.v 4, 0) (.v 6) .zero true ∧
    Ready (start team0) 0 team0 (.gred .add .home .d (stArgs (.v 4) (.v 6))) ∧ (start team0).queueUse 0 < 8 ∧ team0.active ≠ [] :=
  ⟨.gatom _ _ _ _ _ rfl, .gred _ _ _ _, ready_of rfl (by decide +kernel), by decide +kernel, by decide +kernel⟩

/-- A team whose eight entries are taken, and an element that arrives; an entry released before its good elements have landed; and
16-byte elements that replay word by word. -/
def sFullQueue : State :=
  { start teamE with
    reqs := (List.range 8).map (fun n => (n, { reqP (.load 4 false) with entry := some n, released := false })) ++ [(8, reqW (.load 4 false))], nextId := 9 }
def reqPart : Req := { reqP (.load 4 false) with elems := [elemP, { elemP with lane := 1, st := .landing }] }

theorem witness_elementsArrive_waits :
    (sFullQueue.reqs.get? 8 = some (reqW (.load 4 false)) ∧ (reqW (.load 4 false)).flying? 0 = some elemW ∧ elemW.st = .transit ∧
      (reqW (.load 4 false)).entry = none ∧ 8 ≤ (sFullQueue.entries 0).length) ∧
    ({ start teamE with reqs := [(1, reqPart)] }.reqs.find? (fun e => e.2.team == 0 && e.2.entry == some 2 && e.2.released) = some (1, reqPart) ∧
      reqPart.kind.near = true ∧ ∃ x ∈ reqPart.elems, x.flying = true) ∧
    (∀ k ∈ [ReqKind.load 16 false, .store 16], Replaying (sPark k) 0 2 1 (reqP k) elemP teamE 16 (.spm 0 0 false)) ∧
    elemP.landed.length < 3 ∧ elemP.landed.Nodup := by
  refine ⟨⟨by decide +kernel, by decide +kernel, rfl, rfl, by decide +kernel⟩, ⟨by decide +kernel, rfl, _, .tail _ (.head _), rfl⟩, ?_, by decide,
    by decide⟩
  intro k hk
  simp only [List.mem_cons, List.not_mem_nil, or_false] at hk
  rcases hk with rfl | rfl <;> exact ⟨by decide +kernel, rfl, ⟨_, rfl, rfl⟩, by decide +kernel, by decide +kernel, by decide +kernel, rfl⟩

theorem witness_termWords_traps : teamTag.active.filter (fun n => decide (10 ≤ ((start teamTag).word teamTag n (.v 4)).toNat % 16)) = 0 :: [] := by
  decide +kernel

/-- A step of one activation element on a dense context, and on a sparse one. -/
def ctxSparse : Context := { latch0.ctx with sparse := true }

theorem witness_matrixSteps_products : ∀ c ∈ [latch0.ctx, ctxSparse], ([(0, c, c.image.toArray)] : List (Nat × Context × Array Byte)).map Prod.fst = [0] ∧
    c.fmt = .e4m3 ∧ (wholes (fmtOf c.fmt)).isSome = (wholes (fmtOf stepRead.map.fmt)).isSome ∧ 0 < stepRead.map.kc ∧
    0 = (stepRead.x + 0) / depthOf c.fmt := by decide +kernel

theorem witness_matrixReads_waits : StreamReady (sStep { step0 with running := true }) 0 (bx stream1) stream1 (.mrd .f32 .rn 8 (src (.lit 0)) 0 0) ∧
    (sStep { step0 with running := true }).stepOn 0 0 MStep.tiles = true ∧ streamSource (.lit 0) = true ∧
    (sStep { step0 with running := true }).tileOk (bx stream1) 0 = true ∧
    (sStep { step0 with running := true }).rdCheck .f32 ((bx stream1).streamFrame 0) (bx stream1) 0 128
      (((sStep { step0 with running := true }).streamSrc (bx stream1) (.lit 0)).setWidth 32 + BitVec.ofInt 32 (0 : BitVec 21).toInt) = .ok () :=
  ⟨⟨rfl, rfl, rfl, ⟨rfl, rfl⟩, rfl, by decide +kernel, rfl⟩, by decide +kernel, rfl, by decide +kernel, by decide +kernel⟩

/-- Ranks 0 and 1 of a collective. -/
def ranks2 : List RankData := [⟨0, #[1], #[]⟩, ⟨1, #[2], #[]⟩]

theorem witness_collectives_results : (∀ i < ranks2.length, (ranks2[i]?).map RankData.rank = some i) ∧ (∃ r ∈ ranks2, r.rank = 1) ∧
    PlainFmt .bf16 16 ∧ Segment .redsc 64 ranks2.length 1 (1 * (64 / 2)) (64 / 2) ∧ Segment .allred 64 ranks2.length 1 0 64 ∧
    (∃ L, MxFmt .e2m3 6 L 3 2) ∧ 1 * (64 / 2) % 32 = 0 ∧ 64 / 2 % 32 = 0 :=
  ⟨by decide, ⟨_, .tail _ (.head _), rfl⟩, .bf16, .redsc _ _ _, .allred _ _ _, ⟨_, .e2m3 _ rfl⟩, rfl, rfl⟩

/-- A packet alone in the fabric has arrived where its route has ended. -/
theorem arrives_only {s : State} {p : Packet} {o : PktOwner} (hl : s.packets = [(2, p)]) (hp : s.packetOf o = some (2, p)) (hr : p.route = [])
    (hn : s.needsSlot p = false) (hs : s.staysNear p = false) : s.arrives o = true := by
  have hw : s.waitingChan (channelOf p.line) = [(2, p)] := by simp [State.waitingChan, hl, hr, hn, hs]
  have ht : s.channelTakes 2 p = true := by
    simp [State.channelTakes, hw, topClass, lowerPacket]
  simp [State.arrives, hp, hr, hn, ht]

theorem witness_commandsLand_begins : ∀ xp, (sCmd (cmdP piece0)).spent xp (cmdP piece0).cluster = 0 := fun _ => rfl

/-- A child's launcher with a store on its way, and a child that awaits it. -/
def sAfter : State :=
  { sChild 9 with reqs := [(1, reqL (.store 4) 0x40)], grids := [(0, { gridW false with after := [1] }), (1, { gridW false with after := [] })] }
/-- A child of 17 teams on one quarter breaks R23 there. -/
def widestSpm : Memory := [(0x48, 1), (0x4C, 32), (0x4E, 17), (0x50, 8), (0x52, 8), (0x58, 1)]
def childAt (m : Memory) : Launch :=
  childLaunchOf launch0 (leNat (({ sChild 9 with spm := m } : State).nearBytes (({ sChild 9 with spm := m } : State).frame team0) 0x40 64).1)

theorem witness_workListsAndChildren_waits :
    (childOk (childAt widestSpm) = true ∧ (childAt widestSpm).quarterOk = false ∧ (childAt childSpm).quarterOk = true ∧
      Ready { sChild 9 with spm := widestSpm } 0 team0 (.childLaunch (.s 3) (src (.s 2)))) ∧
    (sAfter.reqs.get? 1 = some (reqL (.store 4) 0x40) ∧ (∃ e ∈ (reqL (.store 4) 0x40).elems, e.flying = true)) ∧
    (∀ n ∈ ({ gridW false with after := [] } : Grid).after, ∀ r, sAfter.reqs.get? n = some r → ∀ e ∈ r.elems, e.flying = false) ∧
    (sAfter.grid? 0 = some { gridW false with after := [1] } ∧ (sAfter.grids.map Prod.fst).Nodup ∧ sAfter.launchSeen { gridW false with after := [1] } = false) :=
  ⟨⟨by decide +kernel, by decide +kernel, by decide +kernel, ready_of rfl (by decide +kernel)⟩, ⟨rfl, _, .head _, rfl⟩, nofun,
    ⟨rfl, by decide, by decide +kernel⟩⟩

/-- A handler of a stream's trap, where the stream owes no other or one. -/
def hStream : HandlerRec := { trap := { rec0 0 with party := .stream 0 }, rpc := 0x1004, rmask := 0 }
def teamStream : Team := { team0 with handler := some hStream }
def sStreamHand (n : Nat) : State := { start teamStream with blocks := [(0, bx { stream0 with halted := true, owed := n })] }
def hMoved : HandlerRec := { hrec0 0 with trap := { rec0 0 with term := true, moved := true }, rpc := 0x1000 }

theorem witness_trapReturns_streams : (∀ n, (sStreamHand n).block? 0 = some (bx { stream0 with halted := true, owed := n })) ∧
    (∀ n ∈ [0, 1], Ready (sStreamHand n) 0 teamStream (.rett (a1 .zero))) ∧ teamStream.handler = some hStream ∧
    hStream.trap.party = .stream 0 ∧ (sStreamHand 0).uni teamStream .zero = 0 ∧ hStream.rpc ≠ hStream.trap.rpc ∧
    ({ hStream with rpc := 0x1000 } : HandlerRec).rpc = hStream.trap.rpc ∧ (hMoved.rpc = hMoved.trap.rpc ∧ hMoved.trap.term = true ∧ hMoved.trap.moved = true) := by
  refine ⟨fun _ => rfl, fun n hn => ?_, rfl, rfl, by decide +kernel, by decide, rfl, rfl, rfl, rfl⟩
  simp only [List.mem_cons, List.not_mem_nil, or_false] at hn
  rcases hn with rfl | rfl <;> exact ready_of rfl (by decide +kernel)

/-- A packet of class 3 alone in the fabric, of a report, and of a block that is saved. -/
def pktT (o : PktOwner) (route : List (Nat × Nat)) : Packet := { pktS with owner := o, route := route }
def sReport : State := { start team0 with reqs := [(1, usgReq)], fabric := [(2, pktT (.report 1) [])], nextId := 3 }
def sSaving (route : List (Nat × Nat)) : State := { sSave .saving with fabric := [(2, pktT (.save 0) route)], nextId := 3 }

theorem witness_systemInstructions_reports : sReport.reqs.get? 1 = some usgReq ∧ sReport.arrives (.report 1) = true ∧
    (∃ b, sReport.block? 0 = some b ∧ b.st = .placed) :=
  ⟨rfl, arrives_only (p := pktT (.report 1) []) (by decide +kernel) (by decide +kernel) rfl rfl rfl, _, rfl, rfl⟩
theorem witness_savesAndRestores_phases : (sSave .saving).packetOf (.save 0) = none ∧ (∀ xp, (sSave .saving).spent xp block0.cluster = 0) ∧
    (((sSaving [(0, 4)]).packetOf (.save 0)).isSome = true ∧ (sSaving [(0, 4)]).arrives (.save 0) = false ∧ (sSaving [(0, 4)]).saveWaits 0 = false) ∧
    ((sSaving []).arrives (.save 0) = true ∧ (sSaving []).saveWaits 0 = false ∧ ((sSaving []).liveTeams 0).Nodup) :=
  ⟨rfl, fun _ => rfl, ⟨by decide +kernel, by decide +kernel, by decide +kernel⟩,
    ⟨arrives_only (p := pktT (.save 0) []) (by decide +kernel) (by decide +kernel) rfl rfl rfl, by decide +kernel, by decide +kernel⟩⟩

/-- A launch waits in queue 0 of a tenant whose queues are to be 1 alone. -/
def sQueued : State := { sOne with grids := [(0, gridP)] }
def setQueues : CmdEntry := entry 0 0x02 [(8, 0), (32, 1), (34, 1), (36, 64)]
def groupOf (n : Nat) (a : Nat) : CmdEntry := entry 0 0x06 [(8, 0), (10, 2), (12, n), (16, a)]
def assignTo (id n w : Nat) : CmdEntry := entry 0 0x04 [(8, 0), (10, id), (12, 100), (14, n), (16, w), (24, 0x8000000000000)]

theorem witness_tenantCommands_refused :
    (Accepted (given sQueued setQueues) (.tenantSet setQueues) setQueues ∧ (given sQueued setQueues).tenant? 0 = some { qn := 1, groups := [group0] } ∧
      setQueues.get 36 2 / 2 ^ 6 % 2 = 1 ∧ setQueues.get 32 2 = 1 ∧ (given sQueued setQueues).queueLength 0 0 ≠ 0) ∧
    (Accepted (given bare (set 1 9)) (.tenantSet (set 1 9)) (set 1 9) ∧ (given bare (set 1 9)).tenant? 0 = none) ∧
    (Accepted (given bare groupE) (.groupEnd groupE) groupE ∧ (given bare groupE).tenant? 0 = none) ∧
    (Accepted (given bare teardownE) (.teardown teardownE) teardownE ∧ (given bare teardownE).tenant? 0 = none) ∧
    (Accepted (given sOne groupM) (.groupMake groupM) groupM ∧ ((given sOne groupM).group? 0 1).isSome = true) ∧
    (∀ n ∈ [0, 4097], Accepted (given sOne (groupOf n 0x8000000000000)) (.groupMake (groupOf n 0x8000000000000)) (groupOf n 0x8000000000000)) ∧
    (groupOf 0 0x8000000000000).get 12 4 < 1 ∧ 4096 < (groupOf 4097 0x8000000000000).get 12 4 ∧
    (Accepted (given sOne (groupOf 1 0)) (.groupMake (groupOf 1 0)) (groupOf 1 0) ∧ ¬hostAddr ((groupOf 1 0).get 16 8)) := by
  refine ⟨⟨accepted (.tenantSet _) (by decide +kernel), rfl, by decide +kernel, by decide +kernel, by decide +kernel⟩,
    ⟨accepted (.tenantSet _) (by decide +kernel), rfl⟩, ⟨accepted (.groupEnd _) (by decide +kernel), rfl⟩,
    ⟨accepted (.teardown _) (by decide +kernel), rfl⟩, ⟨accepted (.groupMake _) (by decide +kernel), rfl⟩, fun n hn => ?_, by decide +kernel,
    by decide +kernel, accepted (.groupMake _) (by decide +kernel), by unfold hostAddr; decide +kernel⟩
  simp only [List.mem_cons, List.not_mem_nil, or_false] at hn
  rcases hn with rfl | rfl <;> exact accepted (.groupMake _) (by decide +kernel)

/-- Partition 0 of the one tenant, of two tenants, and no partition 1. -/
def sShared : State := { start team0 with partitions := [(0, { quarters := [0], tenants := [(0, 0), (1, 0)], shared := true })] }

theorem witness_tenantCommands_partitions :
    (Accepted (given (start team0) (assignTo 0 0 1)) (.partitionAssign (assignTo 0 0 1)) (assignTo 0 0 1) ∧ ¬1 ≤ (assignTo 0 0 1).get 14 2) ∧
    (Accepted (given bare (assignTo 0 1 1)) (.partitionAssign (assignTo 0 1 1)) (assignTo 0 1 1) ∧ (given bare (assignTo 0 1 1)).tenant? 0 = none) ∧
    (∀ e ∈ [assignTo 0 1 1, assignTo 2047 1 1], e.get 8 1 = 0 ∧ e.get 10 2 ≤ 2047 ∧ 1 ≤ e.get 14 2 ∧ e.get 12 2 + e.get 14 2 ≤ 2048 ∧ e.get 16 2 = 1 ∧
      hostAddr (e.get 24 8) ∧ hostAddr (e.get 24 8 + 2 * e.get 16 2 - 1)) ∧
    Memory.read (start team0).host 0x8000000000000 2 = 0 ∧ ((start team0).tenant? 0).isSome = true ∧ (∀ y ∈ (start team0).partitions, ∀ q ∈ y.2.quarters, ¬(100 ≤ q ∧ q < 101)) ∧
    (∃ p, (start team0).partitions.get? 0 = some p ∧ p.tenants.map Prod.fst = [0]) ∧
    (∃ p, sShared.partitions.get? 0 = some p ∧ p.tenants.map Prod.fst ≠ [0]) ∧ (start team0).partitions.get? 2047 = none ∧
    Accepted (given sShared (assignTo 0 1 1)) (.partitionAssign (assignTo 0 1 1)) (assignTo 0 1 1) ∧
    Accepted (given (start team0) (assignTo 2047 1 1)) (.partitionAssign (assignTo 2047 1 1)) (assignTo 2047 1 1) := by
  unfold hostAddr
  refine ⟨⟨accepted (.assign _ (by decide +kernel)) (by decide +kernel), by decide +kernel⟩,
    ⟨accepted (.assign _ (by decide +kernel)) (by decide +kernel), rfl⟩, by decide +kernel, by decide +kernel, by decide +kernel, by decide +kernel,
    ⟨_, rfl, by decide +kernel⟩, ⟨_, rfl, by decide⟩, by decide +kernel, accepted (.assign _ (by decide +kernel)) (by decide +kernel),
    accepted (.assign _ (by decide +kernel)) (by decide +kernel)⟩

/-- A launch whose code another global atomic of its tenant is to write. -/
def sCode (es : List Elem) : State := { start team0 with reqs := [(1, { reqG (.gatom .add 4 .home) false with elems := es })] }
/-- A block of another grid than the suspended one. -/
def sTwoGrids : State :=
  { start team0 with grids := [(0, grid0), (1, { grid0 with owner := .host 1 9, number := 1 })], blocks := [(0, { block0 with grid := 1 })] }
def sSaved0 : State := { sSaved with grids := [(0, { grid0 with suspended := true })] }
/-- A copy between host memory and a tenant's that has gone on for 64 bytes, and met poison there. -/
def sGone (e : CmdEntry) : State := { sRecord with fns := [(1, { running := some e, done := 64, bad := some 0 })] }

/-- A command that goes on is accepted again. -/
theorem gone {i : Instr} {op : Nat} {uses : List (Nat × Nat)} (e : CmdEntry) (hf : e.fn = 1) (h : HostCmd i e op .virtual uses)
    (g : (decide (e.opcode = op) && e.onlyUses uses && (sGone e).mayServe e && e.tag != 0xFFFFFFFF && e.get 2 2 == e.fn) = true) :
    Accepted (sGone e) i e := by
  simp only [Bool.and_eq_true, decide_eq_true_eq, bne_iff_ne, ne_eq, beq_iff_eq] at g
  obtain ⟨⟨⟨⟨g1, g3⟩, g4⟩, g5⟩, g6⟩ := g
  refine ⟨⟨op, .virtual, uses, h, g1, nofun, fun _ => by rw [hf]; decide, ?_⟩, g4, g5, g6⟩
  intro j hj hz
  simp only [CmdEntry.onlyUses, List.all_eq_true, List.mem_range, Bool.or_eq_true, List.any_eq_true, Bool.and_eq_true, decide_eq_true_eq,
    beq_iff_eq] at g3
  exact (g3 j hj).resolve_right hz

theorem witness_gridCommands_waits :
    ((sCode [{ lane := 0, addr := 0x1000, pa := 0x40 }]).codeBusy 0 { launch0 with code := 0x1000, codeLen := 64 } = true ∧
      (sCode [{ lane := 0, addr := 0x1040, pa := 0x40 }]).codeBusy 0 { launch0 with code := 0x1000, codeLen := 64 } = false) ∧
    (∃ r, (given sRecord (launchE 0 0x10000)).readLaunch 0 0x10000 = .ok r ∧
      (decide ((given sRecord (launchE 0 0x10000)).launchStatus 0 0 r.1 r.2 = 0) && !(given sRecord (launchE 0 0x10000)).codeBusy 0 r.2) = true) ∧
    (OfFamily (start team0) 0 0 ∧ ((start team0).blocks.map Prod.fst).Nodup ∧ ∃ b x, (start team0).block? b = some x ∧ OfFamily (start team0) 0 x.grid ∧ x.st = .placed) ∧
    (Accepted (given sTwoGrids (holdE 0x0F 7)) (.suspend (holdE 0x0F 7)) (holdE 0x0F 7) ∧
      (given sTwoGrids (holdE 0x0F 7)).taggedGrid 1 7 = some 0 ∧ ¬OfFamily (given sTwoGrids (holdE 0x0F 7)) 0 1) ∧
    (Accepted (given (start team0) (holdE 0x0F 8)) (.suspend (holdE 0x0F 8)) (holdE 0x0F 8) ∧
      (given (start team0) (holdE 0x0F 8)).taggedGrid 1 8 = none ∧ ((given (start team0) (holdE 0x0F 8)).fn 0).running = none) ∧
    (sSaved0.block? 0 = some blockS ∧ sSaved0.grid? 0 = some { grid0 with suspended := true }) ∧
    (∀ e ∈ [moveE 0x22 65, moveE 0x23 65], ((sGone e).fn 1).done < 65 ∧ ((sGone e).fn 1).done ≠ 0 ∧ ((sGone e).fn 1).bad ≠ none) ∧
    Accepted (sGone (moveE 0x22 65)) (.memWrite (moveE 0x22 65)) (moveE 0x22 65) ∧ Accepted (sGone (moveE 0x23 65)) (.memRead (moveE 0x23 65)) (moveE 0x23 65) := by
  have lone : ∀ c n, Descends (given sTwoGrids (holdE 0x0F 7)) 0 c n → c = 0 := by
    intro c n h
    induction h with
    | self => rfl
    | child p c n _ hc ih =>
      subst ih
      exact absurd hc (by have e : (given sTwoGrids (holdE 0x0F 7)).children 0 = [] := by decide +kernel
                          rw [e]; exact List.not_mem_nil)
  refine ⟨⟨by decide +kernel, by decide +kernel⟩,
    ok_of (fun r : Nat × Launch => decide ((given sRecord (launchE 0 0x10000)).launchStatus 0 0 r.1 r.2 = 0) && !(given sRecord (launchE 0 0x10000)).codeBusy 0 r.2)
      (by decide +kernel), ⟨⟨0, by decide, .self⟩, by decide, 0, block0, rfl, ⟨0, by decide, .self⟩, rfl⟩,
    ⟨accepted (.suspend _) (by decide +kernel), by decide +kernel, fun ⟨n, _, h⟩ => absurd (lone _ _ h) (by decide)⟩,
    ⟨accepted (.suspend _) (by decide +kernel), by decide +kernel, by decide +kernel⟩, ⟨rfl, rfl⟩, ?_, ?_, ?_⟩
  · intro e he
    simp only [List.mem_cons, List.not_mem_nil, or_false] at he
    rcases he with rfl | rfl <;> exact ⟨by decide, by decide, by decide⟩
  · exact gone _ rfl (.memWrite _) (by decide +kernel)
  · exact gone _ rfl (.memRead _) (by decide +kernel)

/-- The packet of a port's flits on its way, and arrived. -/
def sLink (h : BitVec 256) (line : Nat) (route : List (Nat × Nat)) : State :=
  { sPort (hostPort h) with fabric := [(2, { pktT (.link 0) route with line := line })], nextId := 3 }

theorem witness_ringsAndPackets_fabric : (∀ n ∈ [0, 129], (header Config.device 2 0 0 n).toNat / 2 ^ 16 % 2 ^ 8 = n) ∧
    ((header Config.device 2 0 0 2).toNat / 2 ^ 16 % 2 ^ 8 = 2 ∧ ([] : List (BitVec 256)).length + 1 < 2) ∧
    (∀ h, (sPort (hostPort h)).packetOf (.link 0) = none) ∧
    (∀ h line, (sLink h line [(0, 4)]).packetOf (.link 0) = some (2, { pktT (.link 0) [(0, 4)] with line := line }) ∧ (sLink h line [(0, 4)]).arrives (.link 0) = false) ∧
    (∀ h line, (sLink h line []).packetOf (.link 0) = some (2, { pktT (.link 0) [] with line := line }) ∧ (sLink h line []).arrives (.link 0) = true) ∧
    (∀ h, ((sPort (hostPort h)).ports.map Prod.fst).Nodup ∧ ∃ m p up, (sPort (hostPort h)).ports.get? m = some p ∧ p.st = .up up) := by
  refine ⟨fun n hn => ?_, ⟨(header_fields _ _ _ _ _ (by decide) (by decide) (by decide) (by decide)).1, by decide⟩, fun _ => rfl,
    fun _ _ => ⟨rfl, rfl⟩, fun _ _ => ⟨rfl, rfl⟩, fun _ => ⟨by simp [sPort], 0, _, true, rfl, rfl⟩⟩
  simp only [List.mem_cons, List.not_mem_nil, or_false] at hn
  rcases hn with rfl | rfl <;> exact (header_fields _ _ _ _ _ (by decide) (by decide) (by decide) (by decide)).1

/-- A port in training with a collective that spans devices in flight. -/
def sTraining : State := { sColl with ports := [(0, { st := .training })] }

theorem witness_linkFrames_down : (sTraining.port 0).st = .training ∧ sTraining.cmds.get? 5 = some cmdC ∧ sTraining.remoteColl cmdC = true ∧ cmdC.stop = none ∧
    ∃ op m rop src dst count root ssc dsc, cmdC.kind = .coll op m rop 1 src dst count root ssc dsc :=
  ⟨rfl, rfl, by
    show ([(Config.device, 0), (Config.device + 1, 0)] : List (Nat × Nat)).any (fun r => r.1 != Config.device) = true
    simp, rfl, _, _, _, _, _, _, _, _, _, rfl⟩

/-- At a channel a packet of class 3 waits beside one of class 0. -/
def pktTop : Packet := pktT (.save 0) []
def pktLow : Packet := { pktS with owner := .piece 5 0, cls := 0 }
def sChan : State :=
  { start team0 with
    blocks := [(0, { block0 with st := .saving })], cmds := [(5, cmdP piece0)], fabric := [(2, pktTop), (3, pktLow)], nextId := 6 }

theorem witness_channels_classes : sChan.waitingChan (channelOf 0) = [(2, pktTop), (3, pktLow)] ∧ sChan.channelTakes 2 pktTop = true := by
  have hl : sChan.packets = [(2, pktTop), (3, pktLow)] := by decide +kernel
  have hw : sChan.waitingChan (channelOf 0) = [(2, pktTop), (3, pktLow)] := by
    simp only [State.waitingChan, hl]
    simp [pktTop, pktLow, pktT, pktS, State.staysNear, State.needsSlot]
  refine ⟨hw, ?_⟩
  simp only [State.channelTakes, show channelOf pktTop.line = channelOf 0 from rfl, hw]
  rfl

/-! ### Single steps -/

/-- The value of lane `n`'s v register `d` of team 0 after an instruction of a team whose lane 0 holds values. -/
def laneAfter (lane : List (Nat × Word)) (i : Instr) (d : Nat) : Option Word :=
  match exec i (start { team0 with regs := { team0.regs with lane := lane } }) with
  | .next t => (t.team? 0).map (fun T => T.regs.word 0 d)
  | _ => none
/-- The value of s3 of team 0 after an instruction of a team whose s1 and s2 hold values. -/
def uniAfter (x y : DWord) (i : Instr) : Option DWord :=
  match exec i (start (teamS x y)) with
  | .next t => (t.team? 0).map (fun T => T.regs.s 3)
  | _ => none

/-- R84: the sum modulo 2^32. -/
theorem test_iadd_wraps : laneAfter [(2, 0xFFFFFFFF), (3, 2)] (.iadd (dab (.v 1) (.v 2) (.v 3))) 1 = some 1 := by decide +kernel
/-- R84: a − b, not b − a. -/
theorem test_isub_order : laneAfter [(2, 1), (3, 2)] (.isub (dab (.v 1) (.v 2) (.v 3))) 1 = some 0xFFFFFFFF := by decide +kernel
/-- R84: a signed comparison and an unsigned one. -/
theorem test_icmp_signed : laneAfter [(2, 0xFFFFFFFF), (3, 0)] (.icmp .lt .s (dab (.v 1) (.v 2) (.v 3))) 1 = some 1 ∧
    laneAfter [(2, 0xFFFFFFFF), (3, 0)] (.icmp .lt .u (dab (.v 1) (.v 2) (.v 3))) 1 = some 0 := by decide +kernel
/-- R155, R158: 1.5 + 1.5 = 3, and the reciprocal of 3 rounds to the nearest. -/
theorem test_fadd : laneAfter [(2, 0x3FC00000), (3, 0x3FC00000)] (.fadd .rn (dab (.v 1) (.v 2) (.v 3))) 1 = some 0x40400000 := by
  decide +kernel
theorem test_frcp : laneAfter [(2, 0x40400000)] (.frcp .rn (da (.v 1) (.v 2))) 1 = some 0x3EAAAAAB := by
  decide +kernel
/-- R94: uniform arithmetic is of 64 bits. -/
theorem test_sadd_carries : uniAfter 0xFFFFFFFF 1 (.sadd (dab (.s 3) (.s 1) (.s 2))) = some 0x100000000 := by decide +kernel
/-- R107: a byte store writes the low byte of its value, when its element lands, and no other byte. -/
theorem test_st_byte : (match exec (.st .b { stArgs (.v 2) (.v 3) with x := 0 })
      (start { team0 with ctl := { ctl0 with mask := 1 }, regs := { team0.regs with lane := [(2, 5), (3, 0x1AB)] } }) with
    | .next t => (match exec (.window1ElementArrive 1 0) t with
      | .next u => (match exec (.window1ElementArrive 1 0) u with
        | .next v => some (Memory.byte t.spm 5, Memory.byte v.spm 5, Memory.byte v.spm 6)
        | _ => none)
      | _ => none)
    | _ => none) = some (0, 0xAB, 0) := by decide +kernel

end Sys2Proof.Tests
end

section
/-! SUPPORT. Every step keeps the invariant of the whole machine (R8, R382).

The invariant speaks of six fields of the state: the three memories, the persistent tier's image, the clock and the cap. Most
operations change none of them, so the invariant holds after such an operation exactly when it holds before: those facts are
equivalences, tagged for `simp`. The operations that write memory, or set the tier, the clock or the cap, keep it: those
facts are implications. The lemmas follow the files of the model. -/

namespace Sys2Proof

/-! ### Canonical memories -/

/-- Entries left out of a table leave it canonical. -/
theorem Sparse.wfFrom_filter {α : Type} [DecidableEq α] {d : α} {p : Nat × α → Bool} {m : Sparse α} :
    ∀ {lo}, wfFrom d lo m = true → wfFrom d lo (m.filter p) = true := by
  induction m with
  | nil => intro lo h; exact h
  | cons e r ih =>
    obtain ⟨k, x⟩ := e
    intro lo h
    simp only [wfFrom, Bool.and_eq_true, decide_eq_true_eq] at h
    obtain ⟨⟨hlo, hx⟩, hr⟩ := h
    by_cases hp : p (k, x) = true
    · simp [wfFrom, hp, hlo, hx, ih hr]
    · simpa [hp] using wfFrom_mono d _ (by omega) (ih hr)

theorem Memory.wf_filter {m : Memory} {p : Nat × Byte → Bool} (h : wf m = true) : wf (m.filter p) = true :=
  Sparse.wfFrom_filter h

end Sys2Proof

namespace Sys2Proof.Machine

open Sys2Proof.Claims

/-! ### The fields the invariant speaks of -/

@[simp] theorem inv_update (s : State) cur draws inputs nextId clock cycle dramPoison hostPoison spmPoison corrected rot tlb walks lines
    bars grants stripes setSeq teams blocks grids tenants partitions fns reqs cmds msteps latches mreads segments msgs arising
    sysEvents pageChange fabric crosspoints channels quadLast ports droppedPackets droppedDoorbells powerSt ready faultPin
    faultCause faultDetail imageA imageB activeB bootedB rollback checkpointing restoring heldResets usage :
    Inv { s with
      cur := cur, draws := draws, inputs := inputs, nextId := nextId, clock := clock, cycle := cycle, dramPoison := dramPoison
      hostPoison := hostPoison, spmPoison := spmPoison, corrected := corrected, rot := rot, tlb := tlb, walks := walks
      lines := lines, bars := bars, grants := grants, stripes := stripes, setSeq := setSeq, teams := teams, blocks := blocks
      grids := grids, tenants := tenants, partitions := partitions, fns := fns, reqs := reqs, cmds := cmds, msteps := msteps
      latches := latches, mreads := mreads, segments := segments, msgs := msgs, arising := arising, sysEvents := sysEvents
      pageChange := pageChange, fabric := fabric, crosspoints := crosspoints, channels := channels, quadLast := quadLast
      ports := ports, droppedPackets := droppedPackets, droppedDoorbells := droppedDoorbells, powerSt := powerSt
      ready := ready, faultPin := faultPin, faultCause := faultCause, faultDetail := faultDetail, imageA := imageA
      imageB := imageB, activeB := activeB, bootedB := bootedB, rollback := rollback, checkpointing := checkpointing
      restoring := restoring, heldResets := heldResets, usage := usage } ↔ Inv s := Iff.rfl

theorem inv_iff {s : State} : Inv s ↔ Memory.wf s.dram = true ∧ Memory.wf s.host = true ∧ Memory.wf s.spm = true ∧
    (∀ i, s.tier = some i → Memory.wf i.dram = true) ∧
    (600 ≤ s.mhz ∧ s.mhz ≤ 1200 ∧ s.mhz % 100 = 0) ∧ 1200 ≤ s.cap ∧ s.cap ≤ 2800 := by
  simp [Claims.Inv, State.memWf, State.powerWf, and_assoc, and_left_comm]

section
variable {s : State} (h : Inv s)
include h

theorem dram_wf_of_inv : Memory.wf s.dram = true := (inv_iff.mp h).1

theorem host_wf_of_inv : Memory.wf s.host = true := (inv_iff.mp h).2.1

theorem spm_wf_of_inv : Memory.wf s.spm = true := (inv_iff.mp h).2.2.1

theorem tier_wf_of_inv {i : Image} (hi : s.tier = some i) : Memory.wf i.dram = true := by
  obtain ⟨-, -, -, ht, -⟩ := inv_iff.mp h
  exact ht i hi

theorem mhz_bounds_of_inv : 600 ≤ s.mhz ∧ s.mhz ≤ 1200 ∧ s.mhz % 100 = 0 := by
  obtain ⟨-, -, -, -, hf, -⟩ := inv_iff.mp h
  exact hf

/-- A state that differs in its DRAM, and in what the invariant does not speak of. -/
theorem inv_of_dram {t : State} (hm : Memory.wf t.dram = true) (hh : t.host = s.host) (hs : t.spm = s.spm)
    (ht : t.tier = s.tier) (hf : t.mhz = s.mhz) (hc : t.cap = s.cap) : Inv t := by
  simpa [inv_iff, hm, hh, hs, ht, hf, hc] using (inv_iff.mp h).2

/-- A state that differs in host memory, and in what the invariant does not speak of. -/
theorem inv_of_host {t : State} (hm : Memory.wf t.host = true) (hd : t.dram = s.dram) (hs : t.spm = s.spm)
    (ht : t.tier = s.tier) (hf : t.mhz = s.mhz) (hc : t.cap = s.cap) : Inv t := by
  obtain ⟨hd', -, hr⟩ := inv_iff.mp h
  simpa [inv_iff, hm, hd, hs, ht, hf, hc, hd'] using hr

/-- A state that differs in its scratchpads, and in what the invariant does not speak of. -/
theorem inv_of_spm {t : State} (hm : Memory.wf t.spm = true) (hd : t.dram = s.dram) (hh : t.host = s.host)
    (ht : t.tier = s.tier) (hf : t.mhz = s.mhz) (hc : t.cap = s.cap) : Inv t := by
  obtain ⟨hd', hh', -, hr⟩ := inv_iff.mp h
  simpa [inv_iff, hm, hd, hh, ht, hf, hc, hd', hh'] using hr

theorem inv_setTier {o : Option Image} (ho : ∀ i, o = some i → Memory.wf i.dram = true) : Inv { s with tier := o } := by
  obtain ⟨hd, hh, hs, -, hp⟩ := inv_iff.mp h
  exact inv_iff.mpr ⟨hd, hh, hs, ho, hp⟩

theorem inv_setMhz {n : Nat} (hn : 600 ≤ n ∧ n ≤ 1200 ∧ n % 100 = 0) : Inv { s with mhz := n } := by
  obtain ⟨hd, hh, hs, ht, -, hc⟩ := inv_iff.mp h
  exact inv_iff.mpr ⟨hd, hh, hs, ht, hn, hc⟩

theorem inv_setCap {n : Nat} (hn : 1200 ≤ n ∧ n ≤ 2800) : Inv { s with cap := n } := by
  obtain ⟨hd, hh, hs, ht, hf, -⟩ := inv_iff.mp h
  exact inv_iff.mpr ⟨hd, hh, hs, ht, hf, hn⟩

end

/-! ### Outcomes -/

/-- The state an instruction's own effect leaves, if it leaves one, meets the invariant. -/
def InvEffect : Effect → Prop
  | .done s | .jump s => Inv s
  | _ => True

/-- The next state, if there is one, meets the invariant. -/
def InvOut : Out → Prop
  | .next s => Inv s
  | _ => True

/-- The state a host command leaves, if it leaves one, meets the invariant. -/
def InvAnswer : Answer → Prop
  | .complete s _ _ _ | .entered s | .begun s => Inv s
  | .wait => True

section
variable {s : State} {p : Prop} [Decidable p]

@[simp] theorem invEffect_done : InvEffect (.done s) ↔ Inv s := Iff.rfl
@[simp] theorem invEffect_jump : InvEffect (.jump s) ↔ Inv s := Iff.rfl
@[simp] theorem invEffect_trap {t : Trap} : InvEffect (.trap t) := trivial
@[simp] theorem invEffect_wait : InvEffect .wait := trivial
@[simp] theorem invOut_next : InvOut (.next s) ↔ Inv s := Iff.rfl
@[simp] theorem invAnswer_complete {b : Byte} {d : DWord} {l : Byte} : InvAnswer (.complete s b d l) ↔ Inv s := Iff.rfl
@[simp] theorem invAnswer_ok : InvAnswer (.ok s) ↔ Inv s := Iff.rfl
@[simp] theorem invAnswer_refuse {b : Byte} : InvAnswer (.refuse s b) ↔ Inv s := Iff.rfl
@[simp] theorem invAnswer_entered : InvAnswer (.entered s) ↔ Inv s := Iff.rfl
@[simp] theorem invAnswer_begun : InvAnswer (.begun s) ↔ Inv s := Iff.rfl
@[simp] theorem invAnswer_wait : InvAnswer .wait := trivial

@[simp] theorem inv_ite {a b : State} : Inv (if p then a else b) ↔ if p then Claims.Inv a else Claims.Inv b := by split <;> rfl
@[simp] theorem invEffect_ite {a b : Effect} : InvEffect (if p then a else b) ↔ if p then InvEffect a else InvEffect b := by
  split <;> rfl
@[simp] theorem invOut_ite {a b : Out} : InvOut (if p then a else b) ↔ if p then InvOut a else InvOut b := by split <;> rfl
@[simp] theorem invAnswer_ite {a b : Answer} : InvAnswer (if p then a else b) ↔ if p then InvAnswer a else InvAnswer b := by
  split <;> rfl

/-- A pass over a list keeps the invariant when its step does. -/
theorem inv_foldl {α : Type} {f : State → α → State} (hf : ∀ (s : State) a, Inv s → Inv (f s a)) {l : List α} (h : Inv s) :
    Inv (l.foldl f s) := by
  induction l generalizing s with
  | nil => exact h
  | cons a r ih => exact ih (hf s a h)

end

end Sys2Proof.Machine
end

section
namespace Sys2Proof.Machine

open Sys2Proof.Claims

variable {s : State}

/-! ### Operations over the state, and traps -/

@[simp] theorem inv_readCycle : Inv s.readCycle.2 ↔ Inv s := Iff.rfl
@[simp] theorem inv_fresh : Inv s.fresh.2 ↔ Inv s := Iff.rfl
@[simp] theorem inv_setTeam {k : Nat} {t : Team} : Inv (s.setTeam k t) ↔ Inv s := Iff.rfl
@[simp] theorem inv_setBlock {b : Nat} {x : Block} : Inv (s.setBlock b x) ↔ Inv s := Iff.rfl
@[simp] theorem inv_setTenant {n : Nat} {t : Tenant} : Inv (s.setTenant n t) ↔ Inv s := Iff.rfl
@[simp] theorem inv_modTeam {k : Nat} {f : Team → Team} : Inv (s.modTeam k f) ↔ Inv s := Iff.rfl
@[simp] theorem inv_modBlock {b : Nat} {f : Block → Block} : Inv (s.modBlock b f) ↔ Inv s := Iff.rfl
@[simp] theorem inv_modTenant {n : Nat} {f : Tenant → Tenant} : Inv (s.modTenant n f) ↔ Inv s := Iff.rfl

@[simp] theorem inv_sweepGrants : Inv s.sweepGrants ↔ Inv s := by simp [State.sweepGrants]

@[simp] theorem inv_freeBlock {b : Nat} : Inv (s.freeBlock b) ↔ Inv s := Iff.rfl

@[simp] theorem inv_freeBlocks {bs : List Nat} : Inv (s.freeBlocks bs) ↔ Inv s := by
  induction bs generalizing s with
  | nil => rfl
  | cons b r ih => simp [State.freeBlocks, ih]

@[simp] theorem inv_killTeams {bs : List Nat} : Inv (s.killTeams bs) ↔ Inv s := Iff.rfl
@[simp] theorem inv_cutCmds {bs : List Nat} : Inv (s.cutCmds bs) ↔ Inv s := Iff.rfl

@[simp] theorem inv_endGrid {g : Nat} {st : Byte} : Inv (s.endGrid g st) ↔ Inv s := by
  unfold State.endGrid
  split <;> simp

@[simp] theorem inv_endGrids {st : Byte} {gs : List Nat} : Inv (s.endGrids st gs) ↔ Inv s := by
  induction gs generalizing s with
  | nil => rfl
  | cons g r ih => simp [State.endGrids, ih]

@[simp] theorem inv_enqueue {r : TrapRec} : Inv (s.enqueue r) ↔ Inv s := by
  unfold State.enqueue
  split <;> simp

@[simp] theorem inv_raise {g : Nat} {b : Bool} {r : TrapRec} : Inv (s.raise g b r) ↔ Inv s := by
  unfold State.raise
  split <;> simp

@[simp] theorem inv_takeTrap {k kind : Nat} {tr : Trap} : Inv (s.takeTrap k kind tr) ↔ Inv s := by
  unfold State.takeTrap
  split
  · rfl
  · exact inv_raise

@[simp] theorem inv_takeStreamTrap {b size : Nat} {tr : Trap} {retry : Bool} :
    Inv (s.takeStreamTrap b size tr retry) ↔ Inv s := by
  unfold State.takeStreamTrap
  split
  · rfl
  · split <;> simp

@[simp] theorem inv_resumeParty {r : HandlerRec} {size : Nat} : Inv (s.resumeParty r size) ↔ Inv s := by
  unfold State.resumeParty
  split
  · split
    · split <;> rfl
    · rfl
  · rfl
  · rfl

/-! ### Issuing -/

@[simp] theorem invOut_notReady : InvOut s.notReady ↔ Inv s := Iff.rfl

@[simp] theorem inv_entryTrap {r : Req} {n : Nat} : Inv (s.entryTrap r n) ↔ Inv s := by
  unfold State.entryTrap
  split <;> simp

@[simp] theorem inv_renewTraps {k : Nat} {ns : List Nat} : Inv (s.renewTraps k ns) ↔ Inv s := by
  induction ns generalizing s with
  | nil => rfl
  | cons n r ih =>
    rw [State.renewTraps, ih]
    split
    · split <;> simp
    · rfl

@[simp] theorem invOut_await {k : Nat} {t : Team} {i : Instr} : InvOut (s.await k t i) ↔ Inv s := by
  unfold State.await
  split <;> simp

@[simp] theorem inv_setStream {b : Nat} {m : Stream} : Inv (s.setStream b m) ↔ Inv s := Iff.rfl
@[simp] theorem inv_advanceStream {b n : Nat} : Inv (s.advanceStream b n) ↔ Inv s := Iff.rfl

theorem invOut_settle (h : Inv s) {k : Nat} {i : Instr} {e : Effect} (he : InvEffect e) : InvOut (s.settle k i e) := by
  cases e with
  | done s' => exact he
  | jump s' => exact he
  | trap t => simpa [State.settle] using h
  | wait => exact h

theorem invOut_issueTeam (h : Inv s) {k : Nat} {i : Instr} {body : Nat → Team → State → Effect}
    (hb : ∀ k t (s : State), Inv s → InvEffect (body k t s)) : InvOut (s.issueTeam k i body) := by
  unfold State.issueTeam
  split
  · exact h
  · split
    · simpa using h
    · simpa using h
    · split
      · exact h
      · exact invOut_settle h (hb _ _ _ h)

theorem invOut_issueStream (h : Inv s) {b : Nat} {i : Instr} {body : Nat → Block → Stream → State → Effect}
    (hb : ∀ b x m (s : State), Inv s → InvEffect (body b x m s)) : InvOut (s.issueStream b i body) := by
  unfold State.issueStream
  split
  · exact h
  · next x _ =>
    split
    · exact h
    · next m _ =>
      have he := hb b x m s h
      split
      · exact h
      · split
        · simpa using h
        · revert he
          cases body b x m s <;> simp [h]

theorem invOut_issue (h : Inv s) {i : Instr} {body : Nat → Team → State → Effect}
    (hb : ∀ k t (s : State), Inv s → InvEffect (body k t s)) : InvOut (s.issue i body) := by
  unfold State.issue
  split
  · exact invOut_issueTeam h hb
  · exact invOut_issueStream h fun _ _ _ _ _ => trivial
  · exact h

theorem invOut_issueS (h : Inv s) {i : Instr} {body : Nat → Block → Stream → State → Effect}
    (hb : ∀ b x m (s : State), Inv s → InvEffect (body b x m s)) : InvOut (s.issueS i body) := by
  unfold State.issueS
  split
  · exact invOut_issueTeam h fun _ _ _ _ => trivial
  · exact invOut_issueStream h hb
  · exact h

theorem invOut_issueBoth (h : Inv s) {i : Instr} {team : Nat → Team → State → Effect}
    {stream : Nat → Block → Stream → State → Effect} (ht : ∀ k t (s : State), Inv s → InvEffect (team k t s))
    (hs : ∀ b x m (s : State), Inv s → InvEffect (stream b x m s)) : InvOut (s.issueBoth i team stream) := by
  unfold State.issueBoth
  split
  · exact invOut_issueTeam h ht
  · exact invOut_issueStream h hs
  · exact h

/-! ### Global memory -/

@[simp] theorem inv_noteWalk {c n va : Nat} : Inv (s.noteWalk c n va) ↔ Inv s := by
  unfold State.noteWalk
  split <;> simp

theorem inv_setPhysByte (h : Inv s) {pa : Nat} {b : Byte} : Inv (s.setPhysByte pa b) := by
  unfold State.setPhysByte
  split
  · exact inv_of_host h (Memory.wf_setByte _ _ _ (host_wf_of_inv h)) rfl rfl rfl rfl rfl
  · exact inv_of_dram h (Memory.wf_setByte _ _ _ (dram_wf_of_inv h)) rfl rfl rfl rfl rfl

theorem inv_physWrite (h : Inv s) {pa n v : Nat} : Inv (s.physWrite pa n v) := by
  unfold State.physWrite
  split
  · exact inv_of_host h (Memory.wf_write _ _ _ _ (host_wf_of_inv h)) rfl rfl rfl rfl rfl
  · exact inv_of_dram h (Memory.wf_write _ _ _ _ (dram_wf_of_inv h)) rfl rfl rfl rfl rfl

@[simp] theorem inv_setPhysPoison {pa : Nat} {p : Bool} : Inv (s.setPhysPoison pa p) ↔ Inv s := by
  simp [State.setPhysPoison]

theorem inv_poisonLine (h : Inv s) {pa : Nat} : Inv (s.poisonLine pa) :=
  inv_foldl (fun _ _ h => inv_setPhysPoison.mpr h) h

theorem inv_physStore (h : Inv s) {l : List (Nat × Byte)} : Inv (s.physStore l) := by
  induction l generalizing s with
  | nil => exact h
  | cons e r ih => exact ih (inv_setPhysByte h)

theorem inv_enginePoison (h : Inv s) {pas : List Nat} {p : Bool} : Inv (s.enginePoison pas p) := by
  unfold State.enginePoison
  split
  · exact inv_foldl (fun _ _ h => inv_poisonLine h) h
  · exact inv_foldl (fun _ _ h => inv_setPhysPoison.mpr h) h

theorem inv_engineWrite (h : Inv s) {c n va : Nat} {bs : List Byte} {p b : Bool} {s' : State}
    (e : s.engineWrite c n va bs p b = .ok s') : Inv s' := by
  unfold State.engineWrite at e
  split at e
  · cases e
  · cases e
    exact inv_enginePoison (inv_physStore h)

/-! ### The fabric -/

@[simp] theorem inv_touchLine {pa die : Nat} {p : Place} : Inv (s.touchLine pa die p) ↔ Inv s := Iff.rfl

@[simp] theorem inv_injectOn {o : PktOwner} {c t cl l n : Nat} {r : List (Nat × Nat)} :
    Inv (s.injectOn o c t cl l n r) ↔ Inv s := by
  simp [State.injectOn]

@[simp] theorem inv_inject {o : PktOwner} {c t cl d l : Nat} : Inv (s.inject o c t cl d l) ↔ Inv s := inv_injectOn

@[simp] theorem inv_injectTop {o : PktOwner} {t c : Nat} : Inv (s.injectTop o t c) ↔ Inv s := inv_inject

@[simp] theorem inv_grantFlit {xp id n : Nat} {p : Packet} : Inv (s.grantFlit xp id p n) ↔ Inv s := Iff.rfl

@[simp] theorem inv_grantTop {xp : Nat} : Inv (s.grantTop xp) ↔ Inv s := by
  unfold State.grantTop
  split
  · rfl
  · split <;> simp

@[simp] theorem inv_leaveFabric {o : PktOwner} : Inv (s.leaveFabric o) ↔ Inv s := by
  unfold State.leaveFabric
  split <;> simp

@[simp] theorem inv_takeSlot {id : Nat} {p : Packet} : Inv (s.takeSlot id p) ↔ Inv s := by simp [State.takeSlot]

theorem invOut_execCrosspointForcedGrant (h : Inv s) {xp : Nat} : InvOut (execCrosspointForcedGrant xp s) := by
  unfold execCrosspointForcedGrant
  split <;> simp [h]

theorem invOut_execChannelFloorWindow (h : Inv s) {ch : Nat} : InvOut (execChannelFloorWindow ch s) := by
  unfold execChannelFloorWindow
  split <;> simp [h]

end Sys2Proof.Machine
end

section
namespace Sys2Proof.Machine

open Sys2Proof.Claims

variable {s : State}

/-! ### Lane instructions -/

theorem invOut_lane1 (h : Inv s) {i : Instr} {f : DA} {g : Word → Word} : InvOut (lane1 i f g s) :=
  invOut_issue h fun _ _ _ h => h

theorem invOut_lane2 (h : Inv s) {i : Instr} {f : DAB} {g : Word → Word → Word} : InvOut (lane2 i f g s) :=
  invOut_issue h fun _ _ _ h => h

theorem invOut_lane3 (h : Inv s) {i : Instr} {f : DABC} {g : Word → Word → Word → Word} : InvOut (lane3 i f g s) :=
  invOut_issue h fun _ _ _ h => h

theorem invOut_lane2Tagged (h : Inv s) {i : Instr} {f : DAB} {g : Word → Word → Word}
    {tag : Option Tag → Option Tag → Word → Word → Option Tag} : InvOut (lane2Tagged i f g tag s) :=
  invOut_issue h fun _ _ _ h => h

/-! ### Near memory -/

theorem inv_nearWrite (h : Inv s) {k : Nat} {l : NearLoc} {size v : Nat} : Inv (s.nearWrite k l size v) := by
  cases l with
  | spm core off w1 =>
    exact inv_of_spm h (Memory.wf_write _ _ _ _ (spm_wf_of_inv h)) rfl rfl rfl rfl rfl
  | priv lane off => exact h

theorem inv_nearAct (h : Inv s) {k : Nat} {kind : ReqKind} {dst : Dst} {e : Elem} {l : NearLoc} :
    Inv (s.nearAct k kind dst e l).1 := by
  unfold State.nearAct
  split
  · exact h
  · exact h
  · exact inv_nearWrite h
  · exact inv_nearWrite h
  · split
    · simpa using h
    · exact inv_nearWrite h
  · exact h

theorem inv_nearUnit (h : Inv s) {k : Nat} {kind : ReqKind} {dst : Dst} {e : Elem} {l : NearLoc} {w : Nat} :
    Inv (s.nearUnit k kind dst e l w).1 := by
  unfold State.nearUnit
  split
  · exact inv_nearAct h
  · dsimp only
    split
    · exact h
    · exact inv_nearWrite h
    · exact h

@[simp] theorem inv_park {k : Nat} {e : Elem} {c : Byte} : Inv (s.park k e c).1 ↔ Inv s := Iff.rfl

@[simp] theorem inv_nearIssue1 {k : Nat} {f : Frame} {kind : ReqKind} {e : Elem} :
    Inv (s.nearIssue1 k f kind e).1 ↔ Inv s := by
  unfold State.nearIssue1
  split <;> simp

@[simp] theorem inv_nearIssueAll {k : Nat} {f : Frame} {kind : ReqKind} {es : List Elem} :
    Inv (s.nearIssueAll k f kind es).1 ↔ Inv s := by
  induction es generalizing s with
  | nil => rfl
  | cons e r ih => exact ih.trans inv_nearIssue1

@[simp] theorem inv_tidy {n : Nat} : Inv (s.tidy n) ↔ Inv s := by
  unfold State.tidy
  split <;> simp

@[simp] theorem inv_formEntry {n : Nat} : Inv (s.formEntry n) ↔ Inv s := by
  unfold State.formEntry
  split <;> simp

@[simp] theorem inv_addReq {r : Req} : Inv (s.addReq r) ↔ Inv s := by
  simp [State.addReq, State.fresh]

theorem invEffect_waitOn (h : Inv s) {k : Nat} : InvEffect (s.waitOn k) := by simp [State.waitOn, h]

theorem invEffect_nearBody (h : Inv s) {kind : ReqKind} {dst : Dst} {es : List Elem} {k : Nat} {t : Team} :
    InvEffect (nearBody kind dst es k t s) := by
  unfold nearBody
  split
  · exact invEffect_waitOn h
  · exact inv_addReq.mpr (inv_nearIssueAll.mpr h)

@[simp] theorem inv_returnReady {n : Nat} : Inv (s.returnReady n) ↔ Inv s := by
  unfold State.returnReady
  split <;> simp

theorem inv_replayUnit (h : Inv s) {k : Nat} {kind : ReqKind} {dst : Dst} {e : Elem} {l : NearLoc} :
    Inv (s.replayUnit k kind dst e l).1 := by
  unfold State.replayUnit
  split
  · exact inv_nearUnit h
  · exact inv_nearUnit h
  · exact inv_nearUnit (s := { s with draws := s.draws + 1 }) h

theorem inv_nearReplay (h : Inv s) {k : Nat} {f : Frame} {kind : ReqKind} {dst : Dst} {e : Elem} :
    Inv (s.nearReplay k f kind dst e).1 := by
  unfold State.nearReplay
  split
  · exact h
  · split
    · exact inv_replayUnit h
    · exact h
  · exact inv_replayUnit h

theorem invOut_execLds (h : Inv s) {z : WD} {f : LdArgs} : InvOut (execLds z f s) :=
  invOut_issue h fun k t s h => by
    dsimp only
    split
    · trivial
    · split <;> simp [h]

theorem invOut_execSts (h : Inv s) {z : WD} {f : StArgs} : InvOut (execSts z f s) :=
  invOut_issue h fun k t s h => by
    dsimp only
    split <;> simp [h]

theorem invOut_execSpl (h : Inv s) {f : AB} : InvOut (execSpl f s) :=
  invOut_issue h fun k t s h => by simp [h]

theorem invOut_execFil (h : Inv s) {f : DA} : InvOut (execFil f s) :=
  invOut_issue h fun k t s h => by
    dsimp only
    split
    · trivial
    · split <;> simp [h]

@[simp] theorem inv_grantStep {t : Team} {a : DWord} {b : Opnd} {n : Nat} : Inv (s.grantStep t a b n).2 ↔ Inv s := by
  unfold State.grantStep
  split
  · rfl
  · split
    · rfl
    · simp [apply_ite Prod.snd]

@[simp] theorem inv_returnStep {t : Team} {a : DWord} {b : Opnd} {n : Nat} : Inv (s.returnStep t a b n).2 ↔ Inv s := by
  unfold State.returnStep
  split
  · rfl
  · split
    · rfl
    · simp [apply_ite Prod.snd]

theorem invOut_execLsget (h : Inv s) {n : BitVec 10} {f : DAB} : InvOut (execLsget n f s) :=
  invOut_issue h fun _ _ _ h => inv_grantStep.mpr h

theorem invOut_execLsret (h : Inv s) {n : BitVec 10} {f : DAB} : InvOut (execLsret n f s) :=
  invOut_issue h fun k t s h => by simp [grantBody, h]

/-! ### The control stacks -/

section
variable {a : Area} {c : CStack} {n : Nat} {s' : State} {p : State × CStack}

theorem inv_writeImage (h : Inv s) {x : Nat} (e : s.writeImage a n x = .ok s') : Inv s' := by
  unfold State.writeImage at e
  split at e <;> cases e
  exact inv_enginePoison (inv_physStore h)

theorem inv_writeImages {l : List Entry} : ∀ {s : State} {n : Nat}, Inv s → s.writeImages a n l = .ok s' → Inv s' := by
  induction l with
  | nil => intro s n h e; cases e; exact h
  | cons x r ih =>
    intro s n h e
    unfold State.writeImages at e
    split at e
    · cases e
    · next e1 => exact ih (inv_writeImage h e1) e

theorem inv_stackSet (h : Inv s) {x : Entry} (e : s.stackSet a c n x = .ok p) : Inv p.1 := by
  unfold State.stackSet at e
  split at e
  · split at e <;> cases e
    next e1 => exact inv_writeImage h e1
  · cases e
    exact h

theorem inv_stackRoom (h : Inv s) (e : s.stackRoom a c = .ok p) : Inv p.1 := by
  unfold State.stackRoom at e
  split at e
  · split at e
    · cases e
    · split at e <;> cases e
      next e1 => exact inv_writeImages h e1
  · cases e
    exact h

theorem inv_stackPush (h : Inv s) {x : Entry} (e : s.stackPush a c x = .ok p) : Inv p.1 := by
  unfold State.stackPush at e
  split at e <;> cases e
  next e1 => exact (inv_stackRoom h e1 :)

theorem inv_shiftUp {m : Nat} : ∀ {s : State}, Inv s → s.shiftUp a n m = .ok s' → Inv s' := by
  induction m with
  | zero => intro s h e; cases e; exact h
  | succ m ih =>
    intro s h e
    unfold State.shiftUp at e
    split at e
    · cases e
    · split at e
      · cases e
      · next e1 => exact ih (inv_writeImage h e1) e

theorem inv_shiftDown {m : Nat} : ∀ {s : State} {n : Nat}, Inv s → s.shiftDown a n m = .ok s' → Inv s' := by
  induction m with
  | zero => intro s n h e; cases e; exact h
  | succ m ih =>
    intro s n h e
    unfold State.shiftDown at e
    split at e
    · cases e
    · split at e
      · cases e
      · next e1 => exact ih (inv_writeImage h e1) e

theorem inv_slotInsert (h : Inv s) {x : Entry} (e : s.slotInsert a c n x = .ok p) : Inv p.1 := by
  unfold State.slotInsert at e
  extract_lets up put at e
  have hput : ∀ m s1, put m = .ok s1 → Inv s1 := fun m s1 e => by
    unfold put at e
    split at e
    · cases e
    · next e1 => exact inv_writeImage (inv_shiftUp h e1) e
  split at e
  · split at e <;> cases e
    next e1 => exact hput _ _ e1
  · split at e
    · cases e
    · split at e <;> cases e
      next e1 => exact hput _ _ e1

theorem inv_stackInsert (h : Inv s) {x : Entry} (e : s.stackInsert a c n x = .ok p) : Inv p.1 := by
  unfold State.stackInsert at e
  split at e
  · cases e
  · dsimp only at e
    split at e
    · cases e
    · next s1 c1 e1 =>
      have h1 : Inv s1 := by
        split at e1
        · cases e1
          exact h
        · split at e1 <;> cases e1
          next e2 => exact inv_writeImages h e2
      split at e
      · exact inv_slotInsert h1 e
      · cases e
        exact h1

theorem inv_stackRemove (h : Inv s) (e : s.stackRemove a c n = .ok p) : Inv p.1 := by
  unfold State.stackRemove at e
  split at e
  · split at e <;> cases e
    next e1 => exact inv_shiftDown h e1
  · split at e <;> cases e
    exact h

end

/-! ### Control instructions -/

section
variable {w w' : Work}

theorem inv_pushDs (h : Inv w.s) {x : Entry} (e : w.pushDs x = .ok w') : Inv w'.s := by
  unfold Work.pushDs at e
  split at e <;> cases e
  next e1 => exact inv_stackPush h e1

theorem inv_pushRs (h : Inv w.s) {x : Entry} (e : w.pushRs x = .ok w') : Inv w'.s := by
  unfold Work.pushRs at e
  split at e <;> cases e
  next e1 => exact inv_stackPush h e1

/-- Resuming reads the stacks and writes nothing. -/
theorem resumeFrom_s {n : Nat} : ∀ {w : Work}, w.resumeFrom n = .ok w' → w'.s = w.s := by
  induction n with
  | zero => intro w e; cases e; rfl
  | succ n ih =>
    intro w e
    unfold Work.resumeFrom at e
    extract_lets atCall at e
    split at e
    · split at e
      · cases e
      · extract_lets left at e
        split at e
        · exact (ih e :)
        · cases e; rfl
      · exact (ih e :)
    · split at e
      · cases e
      · cases e; rfl
      · split at e
        split at e
        · exact (ih e :)
        · cases e; rfl

theorem inv_resume (e : w.resume = .ok w') (h : Inv w.s) : Inv w'.s := by
  rw [resumeFrom_s e]
  exact h

theorem invEffect_controlEffect {k : Nat} {next : DWord} {r : Except Trap Work} (hr : ∀ w, r = .ok w → Inv w.s) :
    InvEffect (controlEffect k next r) := by
  cases r with
  | error t => trivial
  | ok w => exact hr w rfl

theorem invOut_control (h : Inv s) {i : Instr} {bad : Option Byte} {f : Team → State → DWord → Except Trap Work}
    (hf : ∀ t (s : State) next w, Inv s → f t s next = .ok w → Inv w.s) : InvOut (s.control i bad f) :=
  invOut_issue h fun k t s h => by
    split
    · trivial
    · exact invEffect_controlEffect fun w e => hf _ _ _ w h e

theorem inv_moveTo (h : Inv s) {t : Team} {pc : DWord} (e : moveTo t s pc = .ok w) : Inv w.s := by
  cases e
  exact h

theorem inv_pushPaths {l : List (DWord × List Nat)} : ∀ {w : Work}, Inv w.s → w.pushPaths l = .ok w' → Inv w'.s := by
  induction l with
  | nil => intro w h e; cases e; exact h
  | cons x r ih =>
    intro w h e
    unfold Work.pushPaths at e
    split at e
    · cases e
    · next e1 => exact ih (inv_pushDs h e1) e

theorem invOut_execJmpInd (h : Inv s) {f : A1} : InvOut (execJmpInd f s) :=
  invOut_control h fun t s next w h e => by
    dsimp only at e
    split at e
    · cases e
    · split at e
      · exact inv_moveTo h e
      · split at e
        · cases e
        · split at e <;> cases e
          next e1 => exact (inv_pushPaths (w := s.work t) h e1 :)

theorem inv_branch (h : Inv s) {t : Team} {next dest : DWord} {m : Mask} (e : branch t s next dest m = .ok w) : Inv w.s := by
  unfold branch at e
  dsimp only at e
  split at e
  · cases e; exact h
  · split at e
    · cases e; exact h
    · split at e <;> cases e
      next e1 => exact (inv_pushDs (w := s.work t) h e1 :)

theorem invOut_branchOn (h : Inv s) {i : Instr} {f : Cbr} {b : Bool} : InvOut (branchOn i f b s) :=
  invOut_issue h fun k t s h => by
    dsimp only
    split
    · trivial
    · next e => exact inv_branch h e

theorem inv_callTo (h : Inv s) {t : Team} {next dest : DWord} (e : callTo t s next dest = .ok w) : Inv w.s := by
  unfold callTo at e
  dsimp only at e
  split at e <;> cases e
  next e1 => exact (inv_pushRs (w := s.work t) h e1 :)

theorem invOut_execCallInd (h : Inv s) {f : A1} : InvOut (execCallInd f s) :=
  invOut_control h fun t s next w h e => by
    dsimp only at e
    split at e
    · cases e
    · exact inv_callTo h e

theorem invOut_execRet (h : Inv s) : InvOut (execRet s) :=
  invOut_control h fun t s next w h e => by
    dsimp only at e
    split at e
    · split at e
      · cases e
      · next e1 =>
        split at e <;> cases e
        exact inv_resume e1 h
    · cases e

theorem invOut_execSbar (h : Inv s) {f : Cbr} : InvOut (execSbar f s) :=
  invOut_control h fun t s next w h e => by
    dsimp only at e
    split at e <;> cases e
    next e1 => exact (inv_pushDs (w := s.work t) h e1 :)

theorem inv_arrive (h : Inv w.s) {n : Nat} {x : Entry} (e : w.arrive n x = .ok w') : Inv w'.s := by
  unfold Work.arrive at e
  split at e
  · dsimp only at e
    split at e
    · split at e <;> cases e
      next e1 => exact inv_stackRemove h e1
    · split at e <;> cases e
      next e1 => exact inv_stackSet h e1
  · cases e
    exact h

theorem invOut_execSarr (h : Inv s) : InvOut (execSarr s) :=
  invOut_control h fun t s next w h e => by
    dsimp only at e
    split at e
    · cases e
    · cases e
      exact h
    · split at e
      · cases e
      · next e1 =>
        have h1 := inv_arrive (w := s.work t) h e1
        split at e
        · exact inv_resume e h1
        · cases e
          exact h1

theorem inv_breakOut {m : Mask} {l : List (Nat × Entry)} : ∀ {w : Work}, Inv w.s → w.breakOut m l = .ok w' → Inv w'.s := by
  induction l with
  | nil => intro w h e; cases e; exact h
  | cons x r ih =>
    intro w h e
    obtain ⟨n, y⟩ := x
    cases y with
    | barrier rpc enr arr t =>
      simp only [Work.breakOut] at e
      split at e
      · cases e
      · next e1 => exact ih (inv_stackSet h e1) e
    | path pc m => exact ih h e
    | ret pc d m arr => exact ih h e

theorem inv_dropEmpty {m : Mask} {l : List (Nat × Entry)} : ∀ {w : Work}, Inv w.s → w.dropEmpty m l = .ok w' → Inv w'.s := by
  induction l with
  | nil => intro w h e; cases e; exact h
  | cons x r ih =>
    intro w h e
    obtain ⟨n, y⟩ := x
    cases y with
    | barrier rpc enr arr t =>
      simp only [Work.dropEmpty] at e
      split at e
      · split at e
        · cases e
        · next e1 => exact ih (inv_stackRemove h e1) e
      · exact ih h e
    | path pc m => exact ih h e
    | ret pc d m arr => exact ih h e

theorem invOut_execBrk (h : Inv s) {ext : Bool} {n : BitVec 6} {off : BitVec 21} : InvOut (execBrk ext n off s) :=
  invOut_control h fun t s next w h e => by
    dsimp only at e
    split at e
    · cases e
    · split at e
      · cases e
      · split at e
        · cases e
        · next e1 =>
          have h1 := inv_breakOut (w := s.work t) h e1
          split at e
          · cases e
          · next e2 =>
            have h2 := inv_stackInsert h1 e2
            split at e
            · cases e
            · next e3 => exact inv_resume e (inv_dropEmpty (by exact h2) e3 :)

theorem invOut_execYield (h : Inv s) {f : Jump} : InvOut (execYield f s) :=
  invOut_issue h fun k t s h => by
    dsimp only
    split
    · trivial
    · split <;> simp [h]

end

end Sys2Proof.Machine
end

section
namespace Sys2Proof.Machine

open Sys2Proof.Claims

variable {s : State}

/-! ### Regions -/

theorem invOut_execArbeg (h : Inv s) {d : Opnd} {x : BitVec 21} : InvOut (execArbeg d x s) :=
  invOut_issue h fun k t s h => by simp [h]

theorem invOut_execArrng (h : Inv s) {f : AB} : InvOut (execArrng f s) :=
  invOut_issue h fun k t s h => by simp [h]

@[simp] theorem inv_arldLane {k n : Nat} {g : DWord} : Inv (s.arldLane k n g).1 ↔ Inv s := by
  unfold State.arldLane
  split
  · rfl
  · split
    · rfl
    · dsimp only
      split
      · rfl
      · split
        · rfl
        · split <;> rfl

@[simp] theorem inv_arldAll {k : Nat} {l : List (Nat × DWord)} : Inv (s.arldAll k l).1 ↔ Inv s := by
  induction l generalizing s with
  | nil => rfl
  | cons e r ih => exact ih.trans inv_arldLane

theorem invOut_execArld (h : Inv s) {f : LdArgs} : InvOut (execArld f s) :=
  invOut_issue h fun k t s h => by
    dsimp only
    split
    · trivial
    · exact inv_addReq.mpr (inv_arldAll.mpr h)

@[simp] theorem inv_readInput {k : Nat} {e : Elem} : Inv (s.readInput k e).1 ↔ Inv s := by
  unfold State.readInput
  split
  · dsimp only
    split <;> rfl
  · rfl

theorem invOut_execArst (h : Inv s) {f : StArgs} : InvOut (execArst f s) :=
  invOut_issue h fun k t s h => by simp [h]

theorem invOut_execArstIx (h : Inv s) {sc : BitVec 2} {a b c : Src} {x : BitVec 21} : InvOut (execArstIx sc a b c x s) :=
  invOut_issue h fun k t s h => by simp [h]

theorem invOut_execArabt (h : Inv s) {f : A1} : InvOut (execArabt f s) :=
  invOut_issue h fun k t s h => by simp [h]

theorem inv_arendPaths {w w' : Work} (h : Inv w.s) {next : DWord} {kept : List Nat} {gone : List (Nat × DWord)}
    (e : arendPaths w next kept gone = .ok w') : Inv w'.s := by
  unfold arendPaths at e
  dsimp only at e
  split at e
  · split at e <;> cases e
    next e1 => exact (inv_pushPaths h e1 :)
  · split at e
    · cases e
      exact h
    · split at e <;> cases e
      next e1 => exact (inv_pushPaths h e1 :)

theorem invOut_execArend (h : Inv s) : InvOut (execArend s) :=
  invOut_issue h fun k t s h => by
    split
    · trivial
    · split <;> simp [h]

theorem inv_writeWords (h : Inv s) {l : List (Nat × Word)} : Inv (s.writeWords l) := by
  induction l generalizing s with
  | nil => exact h
  | cons e r ih => exact ih (inv_setPhysPoison.mpr (inv_physWrite h))

theorem inv_commitLane (h : Inv s) {t : Team} {n : Nat} {l : Option (List Nat)} : Inv (s.commitLane t n l).1 := by
  unfold State.commitLane
  split
  · exact h
  · split
    · exact h
    · split
      · exact h
      · exact inv_writeWords h
      · exact h

theorem inv_arendFinish (h : Inv s) {k : Nat} {t : Team} {ls : List (Nat × Outcome)} : Inv (s.arendFinish k t ls) := by
  unfold State.arendFinish
  dsimp only
  split
  · simpa using h
  · next e => exact (inv_arendPaths (w := s.work t) h e :)

theorem invOut_execRegionCommit (h : Inv s) {k : Nat} : InvOut (execRegionCommit k s) := by
  unfold execRegionCommit
  split
  · exact h
  · split
    · exact h
    · extract_lets runs settle
      have hsettle : ∀ n (r : State × Outcome), Inv r.1 → InvOut (settle n r) := fun n r hr => by
        unfold settle
        dsimp only
        split <;> simp [hr, inv_arendFinish]
      split
      · simp [h, inv_arendFinish]
      · exact hsettle _ _ (inv_commitLane h)
      · simp [h, hsettle, inv_commitLane]

/-! ### Atomics and the elements in flight -/

@[simp] theorem inv_gatomIssue1 {k : Nat} {t : Team} {n : Nat} {e : Elem} : Inv (s.gatomIssue1 k t n e).1 ↔ Inv s := by
  unfold State.gatomIssue1
  dsimp only
  split
  · rfl
  · exact inv_noteWalk

@[simp] theorem inv_gatomIssueAll {k : Nat} {t : Team} {n : Nat} {es : List Elem} :
    Inv (s.gatomIssueAll k t n es).1 ↔ Inv s := by
  induction es generalizing s with
  | nil => rfl
  | cons e r ih => exact ih.trans inv_gatomIssue1

theorem invEffect_gatomBody (h : Inv s) {op : AOp} {l : Place} {z : WD} {b : Bool} {dst : Dst} {es : List Elem} {k : Nat}
    {t : Team} : InvEffect (gatomBody op l z b dst es k t s) := by
  unfold gatomBody
  split
  · exact invEffect_waitOn h
  · exact inv_addReq.mpr (inv_gatomIssueAll.mpr h)

theorem inv_gatomAct (h : Inv s) {k : Nat} {op : AOp} {n : Nat} {dst : Dst} {e : Elem} :
    Inv (s.gatomAct k op n dst e).1 := by
  unfold State.gatomAct
  split
  · simpa using h
  · exact inv_physWrite h

@[simp] theorem inv_arrive1 {k : Nat} {f : Frame} {kind : ReqKind} {e : Elem} : Inv (s.arrive1 k f kind e).1 ↔ Inv s := by
  unfold State.arrive1
  split
  · split <;> rfl
  · rfl

theorem inv_land1 (h : Inv s) {f : Frame} {n : Nat} {r : Req} {e : Elem} {w : Nat} : Inv (s.land1 f n r e w).1 := by
  unfold State.land1
  split
  · split
    · exact inv_nearUnit h
    · exact h
  · exact h

theorem inv_landAll (h : Inv s) {f : Frame} {n : Nat} {r : Req} {w : Nat} {es : List Elem} :
    Inv (s.landAll f n r w es).1 := by
  induction es generalizing s with
  | nil => exact h
  | cons e es ih => exact ih (inv_land1 h)

theorem invOut_execWindow1ElementArrive (h : Inv s) {req elem : Nat} : InvOut (execWindow1ElementArrive req elem s) := by
  unfold execWindow1ElementArrive
  split
  · exact h
  · split
    · split
      · exact h
      · dsimp only
        simp only [invOut_next, inv_sweepGrants, inv_tidy, inv_formEntry, inv_update]
        split
        · exact inv_arrive1.mpr h
        · exact inv_landAll h
    · exact h

theorem inv_replay1 (h : Inv s) {k : Nat} {t : Team} {n : Nat} {r : Req} {e : Elem} {p : State × Elem}
    (he : s.replay1 k t n r e = some p) : Inv p.1 := by
  unfold State.replay1 at he
  split at he
  · split at he
    next s1 e1 h1 =>
    have hs1 : Inv (s1, e1).1 := by
      rw [← h1]
      exact inv_gatomIssue1.mpr h
    split at he
    · cases he
      exact hs1
    · split at he <;> cases he
      exact inv_gatomAct (inv_touchLine.mpr hs1)
  · cases he
    exact inv_nearReplay h

theorem inv_replayNext (h : Inv s) {n : Nat} {r : Req} {t : Team} : Inv (s.replayNext n r t) := by
  unfold State.replayNext
  split
  · exact h
  · split
    · exact h
    · next e => simpa using inv_replay1 h e

theorem invOut_execParkedElementReplay (h : Inv s) {k e : Nat} : InvOut (execParkedElementReplay k e s) := by
  unfold execParkedElementReplay
  split <;> simp [h, inv_replayNext]

@[simp] theorem inv_injectElem {n l : Nat} : Inv (s.injectElem n l) ↔ Inv s := by
  unfold State.injectElem
  split
  · rfl
  · split <;> simp

@[simp] theorem inv_slotElem {n l : Nat} : Inv (s.slotElem n l) ↔ Inv s := by
  unfold State.slotElem
  split
  · split <;> simp
  · rfl

theorem invOut_execGlobalAtomicExecute (h : Inv s) {req elem : Nat} : InvOut (execGlobalAtomicExecute req elem s) := by
  unfold execGlobalAtomicExecute
  split
  · exact h
  · split
    · split
      · exact h
      · exact inv_tidy.mpr (inv_gatomAct (inv_touchLine.mpr (inv_leaveFabric.mpr h)))
    · split
      · exact h
      · exact inv_readInput.mpr (inv_leaveFabric.mpr h)
    · exact h

theorem invOut_execProducerReturn (h : Inv s) {req w : Nat} : InvOut (execProducerReturn req w s) := by
  unfold execProducerReturn
  split
  · exact h
  · dsimp only
    split
    · exact h
    · split <;> simp [h]

/-! ### The matrix engine -/

theorem invEffect_loadWeights (h : Inv s) {m : MFmt} {sp tr : Bool} {qm : BitVec 16} {a b : Opnd} {n : Nat} {x : Block}
    {st : Stream} : InvEffect (loadWeights m sp tr qm a b n x st s) := by
  unfold loadWeights
  dsimp only
  split
  · trivial
  · split
    · trivial
    · split
      · trivial
      · exact h

theorem invOut_execMwldLatch (h : Inv s) {n : Nat} : InvOut (execMwldLatch n s) := by
  unfold execMwldLatch
  split <;> simp [h]

theorem invOut_execMamap (h : Inv s) {map : Fin 8} {m : MFmt} {tr : Bool} {stride : BitVec 7} {kc : BitVec 8} {a b : Src} :
    InvOut (execMamap map m tr stride kc a b s) :=
  invOut_issueS h fun b x m s h => by simp [h]

theorem invOut_execMclr (h : Inv s) {tile : Fin 64} : InvOut (execMclr tile s) :=
  invOut_issueS h fun b x m s h => by simp [h]

theorem invOut_execMfuse (h : Inv s) {ext : Bool} {e : BitVec 4} : InvOut (execMfuse ext e s) :=
  invOut_issueS h fun b x m s h => by simp [h]

theorem invOut_execMloop (h : Inv s) {f : Cbr} : InvOut (execMloop f s) :=
  invOut_issueS h fun b x m s h => by
    dsimp only
    split <;> simp [h]

@[simp] theorem inv_passOver {id : Nat} {m : MStep} : Inv (s.passOver id m) ↔ Inv s := Iff.rfl

theorem inv_startStep (h : Inv s) {n : Nat} {x : Block} {id : Nat} {m : MStep} {s' : State}
    (e : s.startStep n x id m = .ok s') : Inv s' := by
  unfold State.startStep at e
  dsimp only at e
  split at e <;> cases e
  exact h

theorem invEffect_stepBody (h : Inv s) {a : StepArgs} {n : Nat} {x : Block} {st : Stream} :
    InvEffect (stepBody a n x st s) := by
  unfold stepBody
  dsimp only
  split
  · trivial
  · split
    · trivial
    · split
      · split
        · trivial
        · next e => exact inv_startStep (by exact h) e
      · exact h

@[simp] theorem inv_grantStep1 {id : Nat} {m : MStep} : Inv (s.grantStep1 id m) ↔ Inv s := by
  unfold State.grantStep1
  dsimp only
  split
  · rfl
  · split
    · rfl
    · split
      · simp
      · split
        · simp
        · next e =>
          unfold State.startStep at e
          dsimp only at e
          split at e <;> cases e
          rfl

@[simp] theorem inv_grantSteps {n : Nat} : Inv (s.grantSteps n) ↔ Inv s := by
  induction n generalizing s with
  | zero => rfl
  | succ n ih =>
    unfold State.grantSteps
    split <;> simp [ih]

theorem invOut_execMatrixStepEnd (h : Inv s) {n : Nat} : InvOut (execMatrixStepEnd n s) := by
  unfold execMatrixStepEnd
  split <;> simp [h, State.failStep, State.endStep]

theorem invOut_execMatrixStarvationGrant (h : Inv s) {n : Nat} : InvOut (execMatrixStarvationGrant n s) := by
  unfold execMatrixStarvationGrant
  split <;> simp [h]

theorem invOut_execMrd (h : Inv s) {m : RdFmt} {r : Rm} {stride : BitVec 7} {a : Src} {tile : Fin 64} {x : BitVec 21} :
    InvOut (execMrd m r stride a tile x s) := by
  apply invOut_issueBoth h
  · intro k t s h
    dsimp only
    split
    · trivial
    · split
      · trivial
      · split
        · trivial
        · exact h
  · intro b x m s h
    dsimp only
    split
    · trivial
    · split
      · trivial
      · split
        · trivial
        · split
          · trivial
          · exact h

theorem invOut_execMtov (h : Inv s) {d : Opnd} {tile : Fin 64} {b : Src} : InvOut (execMtov d tile b s) :=
  invOut_issue h fun k t s h => by
    dsimp only
    split <;> simp [h, laneBody]

/-! ### Barriers, fences and streams -/

theorem inv_setBar (h : Inv s) {r : BarRef} {b : Barrier} : Inv (s.setBar r b) := by
  unfold State.setBar
  split
  · exact h
  · exact inv_nearWrite h

theorem inv_barOp (h : Inv s) {f : Frame} {v : DWord} {op : Barrier → BarHold → Bool → Except Trap Barrier} {s' : State}
    (e : s.barOp f v op = .ok s') : Inv s' := by
  unfold State.barOp at e
  split at e
  · cases e
  · dsimp only at e
    split at e <;> cases e
    exact inv_setBar h

@[simp] theorem inv_trapTeams {ks : List Nat} : Inv (s.trapTeams ks) ↔ Inv s := by
  induction ks generalizing s with
  | nil => rfl
  | cons k r ih => simp [State.trapTeams, ih]

@[simp] theorem inv_trapStreams {bs : List Nat} : Inv (s.trapStreams bs) ↔ Inv s := by
  induction bs generalizing s with
  | nil => rfl
  | cons b r ih => simp [State.trapStreams, ih]

@[simp] theorem inv_trapWaits {b key : Nat} : Inv (s.trapWaits b key) ↔ Inv s := by simp [State.trapWaits]

theorem invEffect_doneOr_barOp (h : Inv s) {f : Frame} {v : DWord} {op : Barrier → BarHold → Bool → Except Trap Barrier} :
    InvEffect (doneOr (s.barOp f v op)) := by
  unfold doneOr
  split
  · trivial
  · next e => exact inv_barOp h e

theorem invOut_execBarInit (h : Inv s) {f : StArgs} : InvOut (execBarInit f s) :=
  invOut_issue h fun k t s h => by
    split
    · trivial
    · next e =>
      have h1 := inv_barOp h e
      split <;> simp [h1]

theorem invOut_execBarWait (h : Inv s) {f : StArgs} : InvOut (execBarWait f s) :=
  invOut_issue h fun k t s h => by
    split <;> simp [h]

theorem inv_owedTrap {k : Nat} {t : Team} {kind : Nat} {s' : State} (e : s.owedTrap k t kind = some s') :
    Inv s' ↔ Inv s := by
  unfold State.owedTrap at e
  split at e <;> cases e <;> simp

theorem invEffect_fenced (h : Inv s) {k : Nat} {t : Team} {c : Scope} {go : Effect} (hg : InvEffect go) :
    InvEffect (s.fenced k t c go) := by
  unfold State.fenced
  split
  · next e => exact (inv_owedTrap e).mpr h
  · simp [invEffect_waitOn h, hg]

theorem invOut_execBarArr (h : Inv s) {l : Bool} {f : StArgs} : InvOut (execBarArr l f s) :=
  invOut_issue h fun _ _ _ h => invEffect_fenced h (invEffect_doneOr_barOp h)

theorem invOut_execGbar (h : Inv s) : InvOut (execGbar s) :=
  invOut_issue h fun k t s h => by simp [h, invEffect_fenced]

theorem invOut_execCwait (h : Inv s) {c : CClass} {ext : Bool} {n : BitVec 14} : InvOut (execCwait c ext n s) :=
  invOut_issue h fun k t s h => by simp [h]

theorem invOut_execMbarArr (h : Inv s) {f : A1} : InvOut (execMbarArr f s) :=
  invOut_issueS h fun b x m s h => by simp [invEffect_doneOr_barOp h]

theorem invOut_execMbarWait (h : Inv s) {a b : Src} : InvOut (execMbarWait a b s) :=
  invOut_issueS h fun b x m s h => by
    split <;> simp [h]

@[simp] theorem inv_endBlock {b : Nat} : Inv (s.endBlock b) ↔ Inv s := by
  unfold State.endBlock
  split <;> simp

theorem invOut_execMend (h : Inv s) : InvOut (execMend s) :=
  invOut_issueS h fun b x m s h => by simp [h]

theorem inv_storeRows (h : Inv s) {core : Nat} {l : List (Nat × List Byte)} : Inv (s.storeRows core l) := by
  induction l generalizing s with
  | nil => exact h
  | cons e r ih =>
    exact ih (inv_of_spm h (Memory.wf_writeBytes _ _ _ (spm_wf_of_inv h)) rfl rfl rfl rfl rfl)

theorem invOut_execMrdComplete (h : Inv s) {n : Nat} : InvOut (execMrdComplete n s) := by
  unfold execMrdComplete
  split
  · exact h
  · dsimp only
    split <;> simp [inv_storeRows h]

end Sys2Proof.Machine
end

section
namespace Sys2Proof.Machine

open Sys2Proof.Claims

variable {s : State}

/-! ### Engine commands -/

theorem inv_modCredit (h : Inv s) {c : Credit} {f : Barrier → Barrier} : Inv (s.modCredit c f) := by
  unfold State.modCredit
  dsimp only
  split
  · exact inv_setBar h
  · exact h

theorem inv_modCredits (h : Inv s) {f : Barrier → Barrier} {l : List Credit} : Inv (s.modCredits f l) := by
  induction l generalizing s with
  | nil => exact h
  | cons c r ih => exact ih (inv_modCredit h)

theorem invEffect_issueCmd (h : Inv s) {k : Nat} {t : Team} {c : CClass} {kind : CmdKind} {d : Opnd} {cs : List Credit}
    {p : Option Nat} : InvEffect (s.issueCmd k t c kind d cs p) := by
  unfold State.issueCmd
  split
  · trivial
  · split
    · trivial
    · simp [State.fresh, inv_modCredits, h]

theorem invOut_execCpy (h : Inv s) {dir : Dir} {bar : Option (Fin 64)} {d : Opnd} {a b : Src} {len : BitVec 21} :
    InvOut (execCpy dir bar d a b len s) :=
  invOut_issue h fun k t s h => by
    dsimp only
    split
    · trivial
    · split
      · trivial
      · exact invEffect_issueCmd h

theorem invOut_execCpy2 (h : Inv s) {dir : Dir} {bar : Option (Fin 64)} {d : Opnd} {a b c : Src} :
    InvOut (execCpy2 dir bar d a b c s) :=
  invOut_issue h fun k t s h => by
    dsimp only
    split
    · trivial
    · split
      · trivial
      · split
        · trivial
        · split
          · trivial
          · exact invEffect_issueCmd h

theorem invOut_execCpyx (h : Inv s) {sc : Bool} {rlen : BitVec 10} {bar : Option (Fin 64)} {d : Opnd} {a b c : Src}
    {n : BitVec 21} : InvOut (execCpyx sc rlen bar d a b c n s) :=
  invOut_issue h fun k t s h => by
    dsimp only
    split
    · trivial
    · split
      · trivial
      · exact invEffect_issueCmd h

theorem invOut_execCpyxH (h : Inv s) {rlen : BitVec 10} {bar : Option (Fin 64)} {d : Opnd} {a b : Src} {n : Fin 16} :
    InvOut (execCpyxH rlen bar d a b n s) :=
  invOut_issue h fun k t s h => by
    dsimp only
    split
    · trivial
    · split
      · trivial
      · split
        · trivial
        · split
          · trivial
          · exact invEffect_issueCmd h

theorem invOut_execCpym (h : Inv s) {near : Bool} {bar : Option (Fin 64)} {d : Opnd} {a b c : Src} {len : BitVec 21} :
    InvOut (execCpym near bar d a b c len s) :=
  invOut_issue h fun k t s h => by
    dsimp only
    split
    · trivial
    · split
      · trivial
      · split
        · trivial
        · split
          · trivial
          · exact invEffect_issueCmd h

theorem inv_setPloc (h : Inv s) {l : PLoc} {b : Byte} : Inv (s.setPloc l b) := by
  unfold State.setPloc
  split
  · exact inv_of_spm h (Memory.wf_setByte _ _ _ (spm_wf_of_inv h)) rfl rfl rfl rfl rfl
  · exact inv_setPhysByte h
  · exact h

theorem inv_poisonPloc (h : Inv s) {l : PLoc} : Inv (s.poisonPloc l) := by
  unfold State.poisonPloc
  split
  · exact h
  · exact inv_poisonLine h
  · exact h

@[simp] theorem inv_mendPloc {l : PLoc} : Inv (s.mendPloc l) ↔ Inv s := by
  unfold State.mendPloc
  split <;> simp

theorem inv_storePlocs (h : Inv s) {l : List (PLoc × Byte)} : Inv (s.storePlocs l) := by
  induction l generalizing s with
  | nil => exact h
  | cons e r ih => exact ih (inv_setPloc h)

theorem inv_poisonPlocs (h : Inv s) {l : List PLoc} : Inv (s.poisonPlocs l) := by
  induction l generalizing s with
  | nil => exact h
  | cons e r ih => exact ih (inv_poisonPloc h)

theorem inv_mendPlocs (h : Inv s) {l : List PLoc} : Inv (s.mendPlocs l) := by
  induction l generalizing s with
  | nil => exact h
  | cons e r ih => exact ih (inv_mendPloc.mpr h)

theorem inv_writePiece (h : Inv s) {p : Piece} {now : List (PLoc × Nat)} {skip : List PLoc} :
    Inv (s.writePiece p now skip) := by
  simp [State.writePiece, inv_poisonPlocs, inv_mendPlocs, inv_storePlocs h]

theorem inv_creditNow (h : Inv s) {c : Cmd} {now : List (PLoc × Nat)} {l : List Credit} : Inv (s.creditNow c now l) := by
  induction l generalizing s with
  | nil => exact h
  | cons x r ih => exact ih (inv_modCredit h)

theorem inv_land (h : Inv s) {id : Nat} {c : Cmd} {p : Piece} {n : Nat} : Inv (s.land id c p n) := by
  unfold State.land
  extract_lets now skip left rest low c1 s1 s2
  have h1 : Inv s1 := inv_writePiece h
  have h2 : Inv s2 := inv_creditNow (by exact h1)
  split <;> simp [h2]

theorem inv_movePiece (h : Inv s) {id : Nat} {c : Cmd} {p : Piece} {n : Nat} : Inv (s.movePiece id c p n) := by
  simp [State.movePiece, h, inv_land]

@[simp] theorem inv_checkStep {id : Nat} {c : Cmd} {reg : Nat} {x : BitVec 512} {poss : List Nat} {done : Nat} :
    Inv (s.checkStep id c reg x poss done) ↔ Inv s := by
  unfold State.checkStep
  extract_lets put row poison
  have hput : ∀ c1, Inv (put c1) ↔ Inv s := fun _ => Iff.rfl
  split
  · split <;> simp [hput]
  · split <;> simp [hput]

@[simp] theorem inv_beginPiece {id : Nat} {c : Cmd} {p : Piece} : Inv (s.beginPiece id c p) ↔ Inv s := by
  unfold State.beginPiece
  dsimp only
  split <;> simp

theorem inv_stepPiece (h : Inv s) {id : Nat} {c : Cmd} {p : Piece} {n : Nat} : Inv (s.stepPiece id c p n) := by
  simp [State.stepPiece, h, inv_movePiece]

theorem inv_moveOne (h : Inv s) {id : Nat} {c : Cmd} {ps : List Piece} : Inv (s.moveOne id c ps) := by
  unfold State.moveOne
  dsimp only
  split <;> simp [h, inv_stepPiece]

theorem invOut_execEnginePieceLand (h : Inv s) {cmd : Nat} : InvOut (execEnginePieceLand cmd s) := by
  unfold execEnginePieceLand
  split
  · exact h
  · split
    · simp [h, inv_moveOne]
    · split <;> simp [h, inv_moveOne]

theorem inv_complete (h : Inv s) {id : Nat} {c : Cmd} {st : Byte} {v : Nat} : Inv (s.complete id c st v) :=
  inv_modCredits (s := { s with cmds := s.cmds.del id }) h

theorem inv_msgComplete (h : Inv s) {id : Nat} {c : Cmd} {cl n : Nat} {l : List Byte} : Inv (s.msgComplete id c cl n l) := by
  unfold State.msgComplete
  split
  · exact h
  · split <;> simp [h, inv_complete]

/-! ### Collectives, messages and futures -/

theorem invOut_execColl (h : Inv s) {op : CollOp} {m : CollFmt} {rop : CollRop} {bar : Option (Fin 64)} {d : Opnd}
    {a b : Src} : InvOut (execColl op m rop bar d a b s) :=
  invOut_issue h fun k t s h => by
    dsimp only
    split
    · trivial
    · split
      · trivial
      · split
        · trivial
        · split
          · trivial
          · split
            · trivial
            · split
              · trivial
              · exact invEffect_issueCmd h

@[simp] theorem inv_stopAll {st : Byte × Nat} {l : List (Nat × Cmd)} : Inv (s.stopAll st l) ↔ Inv s := by
  induction l generalizing s with
  | nil => rfl
  | cons e r ih => simp [State.stopAll, ih]

@[simp] theorem inv_giveResults {key : CollKey} {rs : List RankData} {p : Bool} {l : List (Nat × Nat × Cmd)} :
    Inv (s.giveResults key rs p l) ↔ Inv s := by
  induction l generalizing s with
  | nil => rfl
  | cons e r ih => simp [State.giveResults, ih]

theorem invOut_execCollMatch (h : Inv s) {n g : Nat} {remote : List RemoteRank} : InvOut (execCollMatch n g remote s) := by
  unfold execCollMatch
  split
  · exact h
  · dsimp only
    split
    · exact h
    · split
      · exact h
      · split
        · simpa using h
        · split
          · exact h
          · split <;> simpa using h

@[simp] theorem inv_peerReset {p : Cmd → Bool} : Inv (s.peerReset p) ↔ Inv s := Iff.rfl

theorem invOut_execAmsg (h : Inv s) {d : Opnd} {a b c : Src} {len : BitVec 21} : InvOut (execAmsg d a b c len s) :=
  invOut_issue h fun k t s h => by
    dsimp only
    split
    · trivial
    · split
      · trivial
      · exact invEffect_fenced h (invEffect_issueCmd h)

@[simp] theorem inv_cancelCmd {id : Nat} {c : Cmd} : Inv (s.cancelCmd id c) ↔ Inv s := by
  unfold State.cancelCmd
  dsimp only
  split <;> simp

theorem invOut_execFcan (h : Inv s) {tok ext : Bool} {a : Opnd} : InvOut (execFcan tok ext a s) :=
  invOut_issue h fun k t s h => by
    dsimp only
    split <;> simp [h]

/-! ### Placement -/

@[simp] theorem inv_leaseTeams {ks : List Nat} : Inv (s.leaseTeams ks) ↔ Inv s := by
  induction ks generalizing s with
  | nil => rfl
  | cons k r ih => simp [State.leaseTeams, ih]

@[simp] theorem inv_startTeams {w : Spawn} {b : Nat} {qs : List Nat} {t n : Nat} :
    Inv (s.startTeams w b qs t n) ↔ Inv s := by
  induction n generalizing s t with
  | zero => rfl
  | succ n ih => exact ih.trans inv_fresh

theorem inv_clearSpm (h : Inv s) {core off n : Nat} : Inv (s.clearSpm core off n) :=
  inv_of_spm h (Memory.wf_filter (spm_wf_of_inv h)) rfl rfl rfl rfl rfl

theorem inv_fillParts (h : Inv s) {p n : Nat} {img : List Byte} {cores : List Nat} : Inv (s.fillParts p n img cores) := by
  induction cores generalizing s with
  | nil => exact h
  | cons c r ih =>
    have h1 : Inv (s.clearSpm c p n) := inv_clearSpm h
    exact ih (inv_of_spm h1 (Memory.wf_writeBytes _ _ _ (spm_wf_of_inv h1)) rfl rfl rfl rfl rfl)

theorem inv_spawn (h : Inv s) {n : Nat} {w : Spawn} {c : PlaceChoice} : Inv (s.spawn n w c) := by
  simp [State.spawn, State.fresh, h, inv_fillParts]

/-! ### Work lists and child launch -/

theorem invOut_execWlpush (h : Inv s) {l : BitVec 6} {f : DAB} : InvOut (execWlpush l f s) :=
  invOut_issue h fun k t s h => by simp [h, invEffect_fenced, invEffect_issueCmd]

@[simp] theorem inv_setItems {g l c : Nat} {xs : List DWord} : Inv (s.setItems g l c xs) ↔ Inv s := Iff.rfl

@[simp] theorem inv_appendAll {g l : Nat} {items : List (Nat × DWord)} {cs : List Nat} :
    Inv (s.appendAll g l items cs) ↔ Inv s := by
  induction cs generalizing s with
  | nil => rfl
  | cons c r ih => simp [State.appendAll, ih]

theorem invOut_execWlpushAppend (h : Inv s) {n : Nat} : InvOut (execWlpushAppend n s) := by
  unfold execWlpushAppend
  split
  · exact h
  · split
    · split
      · exact h
      · simp [h, inv_complete]
    · exact h

theorem inv_putItems {k : Nat} {f : Frame} {xs : List DWord} : ∀ {s : State} {a : Word}, Inv s → Inv (s.putItems k f a xs) := by
  induction xs with
  | nil => intro s a h; exact h
  | cons x r ih =>
    intro s a h
    refine ih ?_
    split
    · exact inv_nearWrite h
    · exact h

theorem invOut_execWlpull (h : Inv s) {f : DA} : InvOut (execWlpull f s) :=
  invOut_issue h fun k t s h => by
    dsimp only
    split <;> simp [h]

theorem invOut_execWlpullServe (h : Inv s) {k : Nat} : InvOut (execWlpullServe k s) := by
  unfold execWlpullServe
  split
  · exact h
  · split
    · simp [h, inv_putItems]
    · exact h

theorem invOut_execWlsteal (h : Inv s) {f : DAB} : InvOut (execWlsteal f s) :=
  invOut_issue h fun k t s h => by
    dsimp only
    split <;> simp [h, inv_putItems]

theorem invOut_execEndOfWork (h : Inv s) {g : Nat} : InvOut (execEndOfWork g s) := by
  unfold execEndOfWork
  split <;> simp [h]

@[simp] theorem inv_enterGrid {g : Grid} : Inv (s.enterGrid g) ↔ Inv s := Iff.rfl

theorem invOut_execChildLaunch (h : Inv s) {d : Opnd} {a : Src} : InvOut (execChildLaunch d a s) :=
  invOut_issue h fun k t s h => by
    dsimp only
    split
    · trivial
    · split
      · trivial
      · split
        · trivial
        · simp [h]

/-! ### Near rows -/

theorem invEffect_promoteBody (h : Inv s) {d a : Opnd} {kind : DWord → CmdKind} {k : Nat} {t : Team} :
    InvEffect (promoteBody d a kind k t s) := by
  simp [promoteBody, invEffect_issueCmd h]

theorem inv_takeUp (h : Inv s) {id : Nat} {c : Cmd} : Inv (s.takeUp id c) := by
  unfold State.takeUp
  split
  · exact h
  · exact inv_complete (by exact h)
  · exact inv_complete (by exact h)
  · exact h
  · exact h

@[simp] theorem inv_raiseSystem {n : Nat} {c : Byte} {a : DWord} : Inv (s.raiseSystem n c a) ↔ Inv s := Iff.rfl

@[simp] theorem inv_putOut {n : Nat} {v : Option Nat} : Inv (s.putOut n v) ↔ Inv s := by
  unfold State.putOut
  split
  · rfl
  · dsimp only
    split <;> simp

theorem invOut_execPromoteMoveComplete (h : Inv s) {cmd : Nat} : InvOut (execPromoteMoveComplete cmd s) := by
  unfold execPromoteMoveComplete
  split
  · exact h
  · split
    · exact inv_complete (by exact inv_putOut.mpr h)
    · exact h

theorem invOut_execDemoteComplete (h : Inv s) {cmd : Nat} : InvOut (execDemoteComplete cmd s) := by
  unfold execDemoteComplete
  split
  · exact h
  · split
    · exact inv_complete (by exact h)
    · exact h

theorem invOut_execLclass (h : Inv s) {f : DA} : InvOut (execLclass f s) :=
  invOut_issue h fun k t s h => by
    dsimp only
    split
    · exact h
    · split <;> simp [h, uniBody]

theorem invOut_execEngineCommandComplete (h : Inv s) {cmd : Nat} : InvOut (execEngineCommandComplete cmd s) := by
  unfold execEngineCommandComplete
  split
  · exact h
  · split
    · exact h
    · split <;> simp [h, inv_complete, inv_msgComplete, inv_takeUp]

end Sys2Proof.Machine
end

section
namespace Sys2Proof.Machine

open Sys2Proof.Claims

variable {s : State}

/-! ### System instructions -/

@[simp] theorem inv_settleEntry {k n : Nat} {op : Settle} : Inv (s.settleEntry k n op) ↔ Inv s := by
  unfold State.settleEntry
  split
  · rfl
  · split <;> simp

@[simp] theorem inv_settleOrRecord {k n : Nat} {op : Settle} : Inv (s.settleOrRecord k n op) ↔ Inv s := by
  simp [State.settleOrRecord]

theorem invEffect_rettBody (h : Inv s) {op : Settle} {e : DWord} {k : Nat} {t : Team} : InvEffect (rettBody op e k t s) := by
  unfold rettBody
  split
  · trivial
  · dsimp only
    split
    · simp [h]
    · split <;> simp [h]

theorem inv_sysRead {t : Team} {n x : DWord} {s' : State} (e : s.sysRead t n = some (x, s')) : Inv s' ↔ Inv s := by
  have h : ∀ y ∈ s.sysRead t n, (Inv y.2 ↔ Inv s) := by
    unfold State.sysRead
    repeat' split
    all_goals simp
  exact h _ e

theorem invOut_execSysr (h : Inv s) {ext : Bool} {d : Opnd} {b : Src} : InvOut (execSysr ext d b s) :=
  invOut_issue h fun k t s h => by
    dsimp only
    split
    · trivial
    · trivial
    · next e _ => exact inv_addReq.mpr ((inv_sysRead e).mpr h)

theorem invEffect_sysWriteBody (h : Inv s) {f : AB} {k : Nat} {t : Team} : InvEffect (sysWriteBody f k t s) := by
  unfold sysWriteBody
  split <;> simp [h]

theorem invOut_execTrap (h : Inv s) {f : A1} : InvOut (execTrap f s) :=
  invOut_issue h fun k t s h => by simp

theorem invOut_execPtlb (h : Inv s) {f : AB} : InvOut (execPtlb f s) :=
  invOut_issue h fun k t s h => by simp [h]

theorem invOut_execPtlbComplete (h : Inv s) {k : Nat} : InvOut (execPtlbComplete k s) := by
  unfold execPtlbComplete
  split
  · exact h
  · split <;> exact h

theorem invOut_execUsg (h : Inv s) {ext : Bool} {d : Opnd} {b : Src} : InvOut (execUsg ext d b s) :=
  invOut_issue h fun k t s h => by
    dsimp only
    split
    · trivial
    · split
      · trivial
      · split
        · split <;> simp [h]
        · exact inv_addReq.mpr h

theorem invOut_execUsgReportComplete (h : Inv s) {cmd : Nat} : InvOut (execUsgReportComplete cmd s) := by
  unfold execUsgReportComplete
  split
  · exact h
  · split
    · split
      · exact h
      · split
        · simpa using h
        · split
          · exact h
          · have h1 : Inv (s.leaveFabric (.report cmd)) := inv_leaveFabric.mpr h
            simp only [invOut_next, inv_modTeam]
            refine inv_of_spm h1 ?_ rfl rfl rfl rfl rfl
            dsimp only
            exact Memory.wf_writeBytes _ _ _ (spm_wf_of_inv h1)
    · exact h

theorem invOut_execIllegalInstruction (h : Inv s) {c : Byte} {p : Standing} : InvOut (execIllegalInstruction c p s) := by
  unfold execIllegalInstruction
  split
  · exact h
  · split
    · exact h
    · split
      · exact h
      · split <;> simpa using h
  · split
    · exact h
    · split <;> simp [h]

/-! ### Endings, records and events -/

theorem invOut_execTranslationWalk (h : Inv s) {c n va : Nat} : InvOut (execTranslationWalk c n va s) := by
  unfold execTranslationWalk
  split
  · exact h
  · dsimp only
    split <;> simp [h]

theorem invOut_execFetchFill (h : Inv s) {k : Nat} : InvOut (execFetchFill k s) := by
  unfold execFetchFill
  split <;> simp [h]

theorem invOut_execTeamRetire (h : Inv s) {k : Nat} : InvOut (execTeamRetire k s) := by
  unfold execTeamRetire
  split
  · exact h
  · split
    · exact h
    · split
      · simpa using h
      · split
        · exact h
        · split
          · next e => exact (inv_owedTrap e).mpr h
          · simpa using h

@[simp] theorem inv_owe {n : Nat} {c : Completion} : Inv (s.owe n c) ↔ Inv s := Iff.rfl

@[simp] theorem inv_reportGrid {g : Grid} : Inv (s.reportGrid g) ↔ Inv s := by
  unfold State.reportGrid
  split <;> simp

theorem invOut_execGridEnd (h : Inv s) {g : Nat} : InvOut (execGridEnd g s) := by
  unfold execGridEnd
  split <;> simp [h]

theorem invOut_execTrapRecordEnqueue (h : Inv s) {n : Nat} : InvOut (execTrapRecordEnqueue n s) := by
  unfold execTrapRecordEnqueue
  split <;> simp [h]

@[simp] theorem inv_reportEvents {n : Nat} {es : List SysEvent} : Inv (s.reportEvents n es) ↔ Inv s := by
  induction es generalizing s with
  | nil => rfl
  | cons e r ih => simp [State.reportEvents, ih]

@[simp] theorem inv_deliverEvent {n : Nat} {c : Byte} {a : DWord} : Inv (s.deliverEvent n c a) ↔ Inv s := by
  unfold State.deliverEvent
  split
  · rfl
  · split
    · exact inv_enqueue
    · simp

theorem invOut_execSystemEvent (h : Inv s) {n : Nat} {c : Byte} {a : DWord} : InvOut (execSystemEvent n c a s) := by
  simp [execSystemEvent, h]

/-! ### The distributor -/

@[simp] theorem inv_passGrids {n c m : Nat} : Inv (s.passGrids n c m) ↔ Inv s := Iff.rfl

theorem invOut_execHandlerTeamStart (h : Inv s) {n : Nat} {p : PlaceChoice} : InvOut (execHandlerTeamStart n p s) := by
  unfold execHandlerTeamStart
  split
  · exact h
  · split
    · exact h
    · split
      · exact h
      · split <;> simp [h, inv_spawn]

theorem invOut_execAmsgDeliver (h : Inv s) {c : Nat} {p : PlaceChoice} : InvOut (execAmsgDeliver c p s) := by
  unfold execAmsgDeliver
  split
  · exact h
  · split
    · exact h
    · split <;> simp [h, inv_spawn]

theorem inv_placeNext {n id : Nat} {l : Launch} {s' : State} {m : Nat} : ∀ {s : State} {i : Nat} {p : PlaceChoice}, Inv s →
    s.placeNext n id l i p m = some s' → Inv s' := by
  induction m with
  | zero => intro s i p h e; cases e; exact h
  | succ m ih =>
    intro s i p h e
    unfold State.placeNext at e
    dsimp only at e
    split at e
    · cases e
    · exact ih (by simpa using inv_spawn h) e

theorem inv_placeGrid (h : Inv s) {id : Nat} {g : Grid} {p : PlaceChoice} {s' : State} (e : s.placeGrid id g p = some s') :
    Inv s' := by
  unfold State.placeGrid at e
  split at e <;> cases e
  next e1 => exact (inv_placeNext h e1 :)

theorem inv_placeGrid_getD (h : Inv s) {id : Nat} {g : Grid} {p : PlaceChoice} : Inv ((s.placeGrid id g p).getD s) := by
  cases e : s.placeGrid id g p with
  | none => exact h
  | some s1 => exact inv_placeGrid h e

theorem invOut_execBlockPlace (h : Inv s) {g : Nat} {p : PlaceChoice} : InvOut (execBlockPlace g p s) := by
  unfold execBlockPlace
  split <;> simp [h, inv_placeGrid_getD]

theorem invOut_execDistributorStarvation (h : Inv s) {g : Nat} {p : PlaceChoice} :
    InvOut (execDistributorStarvation g p s) := by
  unfold execDistributorStarvation
  split <;> simp [h, inv_placeGrid_getD]

/-! ### Float instructions -/

theorem invEffect_floatBody (h : Inv s) {d : Opnd} {g : Nat → Word × FFlags} {k : Nat} {t : Team} :
    InvEffect (floatBody d g k t s) := by
  unfold floatBody
  dsimp only
  split <;> simp [h]

theorem invEffect_floatDrawBody (h : Inv s) {d : Opnd} {n : Nat} {g : Nat → Word → Word × FFlags} {k : Nat} {t : Team} :
    InvEffect (floatDrawBody d n g k t s) := by
  have h1 := invEffect_floatBody h (d := d) (g := fun n => g n (t.fp.state n)) (k := k) (t := t)
  unfold floatDrawBody
  split
  · next e =>
    rw [e] at h1
    simpa using h1
  · exact h1

theorem invOut_float1 (h : Inv s) {i : Instr} {f : DA} {g : Word → Word × FFlags} : InvOut (float1 i f g s) :=
  invOut_issue h fun _ _ _ h => invEffect_floatBody h

theorem invOut_float2 (h : Inv s) {i : Instr} {f : DAB} {g : Word → Word → Word × FFlags} : InvOut (float2 i f g s) :=
  invOut_issue h fun _ _ _ h => invEffect_floatBody h

theorem invOut_float3 (h : Inv s) {i : Instr} {f : DABC} {g : Word → Word → Word → Word × FFlags} :
    InvOut (float3 i f g s) :=
  invOut_issue h fun _ _ _ h => invEffect_floatBody h

/-! ### Sparse handles -/

theorem invOut_execHld (h : Inv s) {n : Fin 16} {a : Src} : InvOut (execHld n a s) :=
  invOut_issue h fun k t s h => by simp [h]

theorem invOut_execHldComplete (h : Inv s) {n : Nat} : InvOut (execHldComplete n s) := by
  unfold execHldComplete
  split
  · exact h
  · split <;> simp [h]

theorem invOut_execHset (h : Inv s) {n : Fin 16} {j : Fin 6} {a : Src} : InvOut (execHset n j a s) :=
  invOut_issue h fun k t s h => by
    dsimp only
    split
    · trivial
    · split
      · trivial
      · split
        · exact h
        · split
          · trivial
          · exact h

theorem invOut_execHchkWalk (h : Inv s) {d : Opnd} {n : Fin 16} : InvOut (execHchkWalk d n s) :=
  invOut_issue h fun k t s h => by
    split
    · trivial
    · trivial
    · exact invEffect_issueCmd h

end Sys2Proof.Machine
end

section
namespace Sys2Proof.Machine

open Sys2Proof.Claims

/-! ### A lane's walk -/

/-- The walker after a step, whether the step answered or halted. -/
def walkEnd {α : Type} : EStateM.Result Halt Walker α → Walker
  | .ok _ w => w
  | .error _ w => w

/-- The walk keeps the invariant of the machine it works on. -/
def InvWalk {α : Type} (m : TM α) : Prop := ∀ w : Walker, Inv w.s → Inv (walkEnd (m w)).s

section
variable {α β : Type}

theorem invWalk_pure {a : α} : InvWalk (pure a) := fun _ h => h

theorem invWalk_stop {c : Byte} : InvWalk (stop c : TM α) := fun _ h => h

theorem invWalk_bind {m : TM α} {f : α → TM β} (hm : InvWalk m) (hf : ∀ a, InvWalk (f a)) : InvWalk (m >>= f) := by
  intro w h
  have h1 := hm w h
  show Inv (walkEnd (EStateM.bind m f w)).s
  unfold EStateM.bind
  split
  · next a w1 e =>
    rw [e] at h1
    exact hf a w1 h1
  · next e =>
    rw [e] at h1
    exact h1

/-- The walker that a walk reads is one of a machine that meets the invariant. -/
theorem invWalk_get_bind {f : Walker → TM β} (hf : ∀ w : Walker, Inv w.s → InvWalk (f w)) : InvWalk (get >>= f) :=
  fun w h => hf w h w h

theorem invWalk_set {w : Walker} (h : Inv w.s) : InvWalk (set w) := fun _ _ => h

theorem invWalk_modify {f : Walker → Walker} (hf : (fun w => (f w).s) = Walker.s) : InvWalk (modify f) := fun w h => by
  show Inv ((fun w => (f w).s) w)
  rw [hf]
  exact h

end

theorem invWalk_checkTerm {x : DWord} : InvWalk (checkTerm x) := fun w h => by
  unfold checkTerm
  split <;> exact h

theorem invWalk_accessCell {a : Word} {act : NearLoc → TM DWord} (ha : ∀ l, InvWalk (act l)) :
    InvWalk (accessCell a act) := fun w h => by
  unfold accessCell
  split
  · exact h
  · split
    · exact h
    · split
      · exact h
      · next l _ =>
        split
        · exact h
        · have h1 := ha l { w with budget := w.budget - 1 } h
          split <;> next e =>
            rw [e] at h1
            exact h1

theorem invWalk_readCell {a : Word} : InvWalk (readCell a) := by
  unfold readCell
  refine invWalk_get_bind fun w _ => invWalk_bind (invWalk_accessCell fun l v h => ?_) fun x =>
    invWalk_bind (invWalk_modify rfl) fun _ => invWalk_pure
  split
  · exact h
  · split
    · exact h
    · split <;> exact h

theorem invWalk_writeCell {a : Word} {x : DWord} : InvWalk (writeCell a x) := by
  unfold writeCell
  exact invWalk_bind (invWalk_accessCell fun l v h => inv_nearWrite h) fun _ => invWalk_pure

theorem invWalk_derefFrom {n : Nat} : ∀ {x : DWord} {cell : Option Word}, InvWalk (derefFrom x cell n) := by
  induction n with
  | zero => exact invWalk_stop
  | succ n ih =>
    unfold derefFrom
    grind [invWalk_bind, invWalk_get_bind, invWalk_pure, invWalk_stop, invWalk_readCell, invWalk_checkTerm]

theorem invWalk_derefTerm {x : DWord} : InvWalk (derefTerm x) := invWalk_derefFrom

theorem invWalk_pushTrail {e : DWord} : InvWalk (pushTrail e) := by
  unfold pushTrail
  grind [invWalk_bind, invWalk_get_bind, invWalk_pure, invWalk_stop, invWalk_modify, invWalk_writeCell]

theorem invWalk_bindVar {v : Deref} {x : DWord} : InvWalk (bindVar v x) := by
  unfold bindVar
  grind [invWalk_bind, invWalk_get_bind, invWalk_pure, invWalk_modify, invWalk_writeCell, invWalk_pushTrail]

theorem invWalk_undoEntry {e : DWord} : InvWalk (undoEntry e) := by
  unfold undoEntry
  grind [invWalk_bind, invWalk_get_bind, invWalk_stop, invWalk_writeCell]

theorem invWalk_writeSpill {j : Nat} {p q : Word} {n : Nat} : InvWalk (writeSpill j p q n) := by
  unfold writeSpill
  grind [invWalk_bind, invWalk_get_bind, invWalk_writeCell]

theorem invWalk_pushWalk {p q : Word} {n : Nat} : InvWalk (pushWalk p q n) := by
  unfold pushWalk
  grind [invWalk_bind, invWalk_get_bind, invWalk_pure, invWalk_stop, invWalk_set, invWalk_modify, invWalk_writeSpill]

theorem invWalk_nextPair {o : Bool} : InvWalk (nextPair o) := by
  unfold nextPair
  grind [invWalk_bind, invWalk_get_bind, invWalk_pure, invWalk_set, invWalk_modify, invWalk_readCell,
    invWalk_writeSpill]

theorem invWalk_dropTo {d : Nat} : InvWalk (dropTo d) := invWalk_modify (by funext w; split <;> rfl)

theorem invWalk_readFun {a : Word} : InvWalk (readFun a) := by
  unfold readFun
  grind [invWalk_bind, invWalk_pure, invWalk_stop, invWalk_readCell, invWalk_checkTerm]

theorem invWalk_occursCell : InvWalk occursCell := fun w h => by
  unfold occursCell
  split <;> exact h

theorem invWalk_pushArgs {x : DWord} : InvWalk (pushArgs x) := by
  unfold pushArgs
  grind [invWalk_bind, invWalk_pure, invWalk_readFun, invWalk_occursCell, invWalk_pushWalk]

theorem invWalk_occursFrom {v : Deref} {base : Nat} {n : Nat} : InvWalk (occursFrom v base n) := by
  induction n with
  | zero => exact invWalk_stop
  | succ n ih =>
    unfold occursFrom
    grind [invWalk_bind, invWalk_get_bind, invWalk_pure, invWalk_stop, invWalk_readCell, invWalk_nextPair,
      invWalk_derefTerm, invWalk_dropTo, invWalk_pushArgs]

theorem invWalk_bindValue {oc : Bool} {v : Deref} {y : DWord} : InvWalk (bindValue oc v y) := by
  unfold bindValue
  grind [invWalk_bind, invWalk_get_bind, invWalk_pure, invWalk_pushArgs, invWalk_occursFrom, invWalk_bindVar]

theorem invWalk_unifyPair {oc : Bool} {x y : DWord} : InvWalk (unifyPair oc x y) := by
  unfold unifyPair
  refine invWalk_bind invWalk_derefTerm fun dx => invWalk_bind invWalk_derefTerm fun dy => ?_
  split
  · grind [invWalk_bind, invWalk_pure, invWalk_stop, invWalk_readCell, invWalk_checkTerm, invWalk_pushWalk]
  · exact invWalk_bindValue
  · exact invWalk_bindValue
  · grind [invWalk_bind, invWalk_pure, invWalk_bindVar]

theorem invWalk_unifyFrom {oc : Bool} {n : Nat} : InvWalk (unifyFrom oc n) := by
  induction n with
  | zero => exact invWalk_stop
  | succ n ih =>
    unfold unifyFrom
    grind [invWalk_bind, invWalk_get_bind, invWalk_pure, invWalk_stop, invWalk_readCell, invWalk_nextPair,
      invWalk_unifyPair]

theorem invWalk_unifyTerms {oc : Bool} {a b : DWord} : InvWalk (unifyTerms oc a b) := by
  unfold unifyTerms
  grind [invWalk_bind, invWalk_pure, invWalk_unifyPair, invWalk_unifyFrom]

theorem invWalk_bindTerms {a b : DWord} : InvWalk (bindTerms a b) := by
  unfold bindTerms
  grind [invWalk_bind, invWalk_pure, invWalk_stop, invWalk_derefTerm, invWalk_bindVar]

theorem invWalk_makeVar {p : Word} : InvWalk (makeVar p) := by
  unfold makeVar
  grind [invWalk_bind, invWalk_pure, invWalk_writeCell]

theorem invWalk_makeHeapVar : InvWalk (makeHeapVar) := by
  unfold makeHeapVar
  grind [invWalk_bind, invWalk_get_bind, invWalk_stop, invWalk_modify, invWalk_makeVar]

theorem invWalk_makeCvar {a k : Word} : InvWalk (makeCvar a k) := by
  unfold makeCvar
  grind [invWalk_bind, invWalk_get_bind, invWalk_pure, invWalk_stop, invWalk_modify, invWalk_writeCell]

theorem invWalk_freshCells {n : Nat} : ∀ {p : Word}, InvWalk (freshCells p n) := by
  induction n with
  | zero => exact invWalk_pure
  | succ n ih =>
    unfold freshCells
    grind [invWalk_bind, invWalk_writeCell]

theorem invWalk_makeStr {n a : Word} : InvWalk (makeStr n a) := by
  unfold makeStr
  grind [invWalk_bind, invWalk_get_bind, invWalk_pure, invWalk_stop, invWalk_modify, invWalk_writeCell,
    invWalk_freshCells]

theorem invWalk_getArg {a : DWord} {k : Word} : InvWalk (getArg a k) := by
  unfold getArg
  grind [invWalk_bind, invWalk_pure, invWalk_stop, invWalk_checkTerm, invWalk_readFun]

theorem invWalk_untrailFrom {c : Bool} {m : Nat} {n : Nat} : InvWalk (untrailFrom c m n) := by
  induction n with
  | zero => exact invWalk_pure
  | succ n ih =>
    unfold untrailFrom
    grind [invWalk_bind, invWalk_get_bind, invWalk_pure, invWalk_set, invWalk_readCell, invWalk_checkTerm,
      invWalk_undoEntry]

theorem invWalk_untrailTo {c : Bool} {b m : Nat} : InvWalk (untrailTo c b m) := by
  unfold untrailTo
  grind [invWalk_bind, invWalk_get_bind, invWalk_pure, invWalk_stop, invWalk_untrailFrom]

theorem invWalk_writeRecord {l : List DWord} : ∀ {r : Word}, InvWalk (writeRecord r l) := by
  induction l with
  | nil => exact invWalk_pure
  | cons x l ih => exact invWalk_bind invWalk_writeCell fun _ => ih

theorem invWalk_choicePush {a c : DWord} : InvWalk (choicePush a c) := by
  unfold choicePush
  grind [invWalk_bind, invWalk_get_bind, invWalk_pure, invWalk_stop, invWalk_modify, invWalk_writeRecord]

theorem invWalk_choiceBack {b : Nat} {a : Option DWord} : InvWalk (choiceBack b a) := by
  unfold choiceBack
  refine invWalk_get_bind fun w _ => ?_
  extract_lets r back
  have hback : ∀ u, InvWalk (back u) := fun _ =>
    invWalk_bind invWalk_readCell fun m => invWalk_bind invWalk_untrailTo fun _ => invWalk_bind invWalk_readCell fun ht =>
      invWalk_bind invWalk_readCell fun ct => invWalk_bind (invWalk_modify rfl) fun _ => by
        split
        · exact invWalk_writeCell
        · exact invWalk_bind invWalk_readCell fun p => invWalk_modify rfl
  split
  · exact invWalk_bind invWalk_stop hback
  · exact hback ()

theorem invWalk_cutTo {a : Word} : InvWalk (cutTo a) := by
  unfold cutTo
  grind [invWalk_bind, invWalk_get_bind, invWalk_stop, invWalk_set]

theorem invWalk_setColumn {a : Word} : InvWalk (setColumn a) := by
  unfold setColumn
  grind [invWalk_bind, invWalk_pure, invWalk_stop, invWalk_modify]

theorem invWalk_noValue {m : TM Unit} (h : InvWalk m) : InvWalk (noValue m) := invWalk_bind h fun _ => invWalk_pure

theorem invWalk_walk {op : TermOp} {t : Team} {n : Nat} {a b : DWord} : InvWalk (op.walk t n a b) := by
  cases op with
  | deref => exact invWalk_bind invWalk_derefTerm fun _ => invWalk_pure
  | unify oc => exact invWalk_bind invWalk_unifyTerms fun _ => invWalk_pure
  | bind => exact invWalk_noValue invWalk_bindTerms
  | mkvar => exact invWalk_makeVar
  | mkvarH => exact invWalk_makeHeapVar
  | mkcvar => exact invWalk_makeCvar
  | mkstr => exact invWalk_makeStr
  | getarg => exact invWalk_getArg
  | untrail => exact invWalk_noValue invWalk_untrailTo
  | bcol => exact invWalk_noValue invWalk_setColumn
  | cpush alt cont => exact invWalk_noValue invWalk_choicePush
  | cnext alt => exact invWalk_noValue invWalk_choiceBack
  | clast => exact invWalk_noValue invWalk_choiceBack
  | cut => exact invWalk_noValue invWalk_cutTo

/-! ### Term instructions -/

section
variable {s : State}

theorem inv_walkLane (h : Inv s) {k : Nat} {t : Team} {op : TermOp} {l : TermLane} {n : Nat} :
    Inv (s.walkLane k t op l n).1 := by
  have h1 := invWalk_walk (op := op) (t := t) (n := l.lane) (a := l.a) (b := l.b) (s.walker k t op l n) h
  unfold State.walkLane
  split <;> next e =>
    rw [e] at h1
    exact h1

theorem inv_undoLane (h : Inv s) {k : Nat} {t : Team} {op : TermOp} {l : TermLane} {es : List DWord}
    {why : Option (Byte × DWord)} : Inv (s.undoLane k t op l es why).1 := by
  unfold State.undoLane
  split
  · exact h
  · next e r =>
    have h1 := invWalk_undoEntry (e := e) (s.walker k t op { l with log := [] } 1) h
    dsimp only
    split <;> next e =>
      rw [e] at h1
      exact h1

theorem invEffect_termEffect (h : Inv s) {k : Nat} {rs : List (Nat × Ran)} : InvEffect (termEffect k rs s) := by
  unfold termEffect
  split <;> simp [h]

theorem invOut_startTerm (h : Inv s) {i : Instr} {op : Team → TermOp} {d : Opnd}
    {ops : State → Team → Nat → DWord × DWord} : InvOut (startTerm i op d ops s) :=
  invOut_issue h fun _ _ _ h => h

@[simp] theorem inv_produce {k : Nat} {t : Team} {kind : ReqKind} {dst : Dst} {es : List Elem} :
    Inv (s.produce k t kind dst es) ↔ Inv s := by
  unfold State.produce
  split
  · rfl
  · split <;> simp

theorem inv_endTerm (h : Inv s) {k : Nat} {t : Team} {r : TermRun} : Inv (s.endTerm k t r) := by
  unfold State.endTerm
  extract_lets s1 dst s2
  have h2 : Inv s2 := by
    unfold s2
    split <;> simp [s1, h]
  have h3 := invEffect_termEffect h2 (k := k) (rs := r.rans)
  split
  · next e =>
    rw [e] at h3
    exact h3
  · next e =>
    rw [e] at h3
    exact h3
  · exact h2

@[simp] theorem inv_endReread {k : Nat} {r : TermRun} {n : Nat} : Inv (s.endReread k r n) ↔ Inv s := by
  unfold State.endReread
  dsimp only
  split <;> simp

@[simp] theorem inv_produceAt {k : Nat} {t : Team} {r : TermRun} {pc : DWord} : Inv (s.produceAt k t r pc) ↔ Inv s := by
  unfold State.produceAt
  dsimp only
  split
  · rfl
  · split <;> simp

@[simp] theorem inv_endMoved {k : Nat} {t : Team} {r : TermRun} {pc : DWord} : Inv (s.endMoved k t r pc) ↔ Inv s := by
  unfold State.endMoved
  split
  · simp
  · dsimp only
    split <;> simp

theorem invOut_execTermLane (h : Inv s) {k n : Nat} : InvOut (execTermLane k n s) := by
  unfold execTermLane
  split
  · exact h
  · split
    · exact h
    · split
      · exact h
      · extract_lets saving s0
        split
        next s1 l1 e =>
        have h1 : Inv (s1, l1).1 := by
          rw [← e]
          split
          · split
            · exact h
            · exact inv_walkLane (s := s0) h
          · exact inv_undoLane (s := s0) h
          · exact h
        dsimp only
        split
        · exact h1
        · split
          · simpa using h1
          · simpa using h1
          · exact inv_endTerm (by exact h1)

theorem invOut_execTmk (h : Inv s) {f : DAB} : InvOut (execTmk f s) :=
  invOut_issue h fun _ _ _ h => invEffect_termEffect (by exact h)

end

end Sys2Proof.Machine
end

section
namespace Sys2Proof.Machine

open Sys2Proof.Claims

variable {s : State}

/-! ### Slices, saving and restoring -/

@[simp] theorem inv_preempt {bs : List Nat} : Inv (s.preempt bs) ↔ Inv s := Iff.rfl

@[simp] theorem inv_settleSlices {l : List (Nat × Partition)} : Inv (s.settleSlices l) ↔ Inv s := by
  induction l generalizing s with
  | nil => rfl
  | cons e r ih =>
    unfold State.settleSlices
    split
    · exact ih.trans inv_readCycle
    · exact ih

theorem invOut_execSliceEnd (h : Inv s) {n : Nat} : InvOut (execSliceEnd n s) := by
  unfold execSliceEnd
  split
  · exact h
  · split <;> simp [h]

theorem invOut_execSliceStart (h : Inv s) {n : Nat} : InvOut (execSliceStart n s) := by
  unfold execSliceStart
  split <;> simp [h]

theorem invOut_execPreemptForClass3 (h : Inv s) {g b : Nat} : InvOut (execPreemptForClass3 g b s) := by
  unfold execPreemptForClass3
  split <;> simp [h]

@[simp] theorem inv_saveTeam {k : Nat} : Inv (s.saveTeam k) ↔ Inv s := by
  unfold State.saveTeam
  split
  · rfl
  · dsimp only
    split
    · rfl
    · split <;> rfl

@[simp] theorem inv_saveTeams {ks : List Nat} : Inv (s.saveTeams ks) ↔ Inv s := by
  induction ks generalizing s with
  | nil => rfl
  | cons k r ih => simp [State.saveTeams, ih]

theorem invOut_execBlockSave (h : Inv s) {b : Nat} : InvOut (execBlockSave b s) := by
  unfold execBlockSave
  split <;> simp [h]

/-- Bytes written one by one keep a memory canonical. -/
theorem wf_foldl_setByte {lo : Nat} {l : Memory} : ∀ {m : Memory}, Memory.wf m = true →
    Memory.wf (l.foldl (fun m e => Memory.setByte m (lo + e.1) e.2) m) = true := by
  induction l with
  | nil => intro m h; exact h
  | cons e r ih => intro m h; exact ih (Memory.wf_setByte _ _ _ h)

theorem inv_putPart (h : Inv s) {b : Block} {p : Nat × Memory × Sparse Bool} : Inv (s.putPart b p) := by
  have h1 : Inv (s.clearSpm p.1 b.p b.scratch) := inv_clearSpm h
  exact inv_of_spm h1 (wf_foldl_setByte (spm_wf_of_inv h1)) rfl rfl rfl rfl rfl

theorem inv_putParts (h : Inv s) {b : Block} {l : List (Nat × Memory × Sparse Bool)} : Inv (s.putParts b l) := by
  induction l generalizing s with
  | nil => exact h
  | cons p r ih => exact ih (inv_putPart h)

theorem inv_replayEntry {k n : Nat} {s' : State} {m : Nat} : ∀ {s : State}, Inv s → s.replayEntry k n m = some s' → Inv s' := by
  induction m with
  | zero => intro s h e; cases e; exact h
  | succ m ih =>
    intro s h e
    unfold State.replayEntry at e
    split at e
    · split at e
      · cases e
        exact h
      · dsimp only at e
        split at e
        · cases e
        · exact ih (inv_replayNext h) e
    · cases e
      exact h

theorem inv_applyRecorded {k : Nat} {s' : State} {l : List (Nat × Bool)} :
    ∀ {s : State}, Inv s → s.applyRecorded k l = some s' → Inv s' := by
  induction l with
  | nil => intro s h e; cases e; exact h
  | cons x r ih =>
    intro s h e
    unfold State.applyRecorded at e
    split at e
    · exact ih h e
    · split at e
      · cases e
      · next e1 => exact ih (inv_replayEntry (inv_settleEntry.mpr h) e1) e

@[simp] theorem inv_reread1 {t : Team} {r : Req} {e : Elem} : Inv (s.reread1 t r e).1 ↔ Inv s := by
  unfold State.reread1
  split
  · rfl
  · split
    · rfl
    · split
      · next e1 => exact inv_sysRead e1
      · rfl
    · rfl

@[simp] theorem inv_rereadAll {t : Team} {r : Req} {es : List Elem} : Inv (s.rereadAll t r es).1 ↔ Inv s := by
  induction es generalizing s with
  | nil => rfl
  | cons e es ih => exact ih.trans inv_reread1

@[simp] theorem inv_reissueAll {k : Nat} {t : Team} {l : List (Nat × Req)} : Inv (s.reissueAll k t l) ↔ Inv s := by
  induction l generalizing s with
  | nil => rfl
  | cons e r ih =>
    unfold State.reissueAll
    split
    · exact ih
    · exact ih.trans inv_rereadAll

theorem inv_restoreTeam (h : Inv s) {k : Nat} {s' : State} (e : s.restoreTeam k = some s') : Inv s' := by
  unfold State.restoreTeam at e
  split at e
  · cases e
    exact h
  · dsimp only at e
    split at e <;> cases e
    next e1 => exact inv_reissueAll.mpr (inv_applyRecorded (by exact h) e1)

theorem inv_restoreTeams {s' : State} {ks : List Nat} : ∀ {s : State}, Inv s → s.restoreTeams ks = some s' → Inv s' := by
  induction ks with
  | nil => intro s h e; cases e; exact h
  | cons k r ih =>
    intro s h e
    unfold State.restoreTeams at e
    split at e
    · cases e
    · next e1 => exact ih (inv_restoreTeam h e1) e

@[simp] theorem inv_poisonTeams {ks : List Nat} {l : List (Nat × Nat × Nat)} : Inv (s.poisonTeams ks l).1 ↔ Inv s := by
  induction l generalizing s with
  | nil => rfl
  | cons e r ih =>
    unfold State.poisonTeams
    split
    · exact ih
    · exact ih

@[simp] theorem inv_poisonParts {b : Block} {l : List (Nat × Nat)} : Inv (s.poisonParts b l).1 ↔ Inv s := by
  induction l generalizing s with
  | nil => rfl
  | cons e r ih =>
    unfold State.poisonParts
    split
    · exact ih
    · exact ih

@[simp] theorem inv_saveErrors {b : Block} {ks : List Nat} : Inv (s.saveErrors b ks) ↔ Inv s := by
  simp [State.saveErrors]

@[simp] theorem inv_takeLeases {l : List (Nat × Option Nat)} : Inv (s.takeLeases l) ↔ Inv s := by
  induction l generalizing s with
  | nil => rfl
  | cons e r ih => simp [State.takeLeases, ih]

@[simp] theorem inv_dropLeases {ks : List Nat} : Inv (s.dropLeases ks).2 ↔ Inv s := Iff.rfl

theorem invOut_execBlockRestore (h : Inv s) {b : Nat} : InvOut (execBlockRestore b s) := by
  unfold execBlockRestore
  split
  · exact h
  · split
    · exact h
    · split
      · simpa using h
      · split
        · exact h
        · dsimp only
          split
          · simpa using h
          · next e => exact inv_restoreTeams (by simp [inv_putParts, h]) e

theorem invOut_execSpillLeaseRevoke (h : Inv s) {k : Nat} : InvOut (execSpillLeaseRevoke k s) := by
  unfold execSpillLeaseRevoke
  split
  · exact h
  · split <;> simp [h]

/-! ### Host commands -/

@[simp] theorem inv_beginCmd {e : CmdEntry} : Inv (s.beginCmd e) ↔ Inv s := by simp [State.beginCmd]

theorem invOut_answer (h : Inv s) {e : CmdEntry} {a : Answer} (ha : InvAnswer a) : InvOut (s.answer e a) := by
  cases a with
  | complete s1 st v l => exact ha
  | entered s1 => exact ha
  | begun s1 => exact inv_beginCmd.mpr ha
  | wait => exact h

theorem invOut_command (h : Inv s) {op : Nat} {e : CmdEntry} {who : Who} {uses : List (Nat × Nat)} {body : State → Answer}
    (hb : InvAnswer (body s)) : InvOut (s.command op e who uses body) := by
  unfold State.command
  split
  · exact h
  · split
    · exact invOut_answer h (by exact h)
    · exact invOut_answer h hb

section
variable {e : CmdEntry}

theorem invOut_execUnassignedCommand (h : Inv s) : InvOut (execUnassignedCommand e s) := by
  unfold execUnassignedCommand
  split
  · exact h
  · exact invOut_answer h (by exact h)

theorem invOut_execTenantMake (h : Inv s) : InvOut (execTenantMake e s) :=
  invOut_command h <| by simp [h]

theorem invOut_execTenantSet (h : Inv s) : InvOut (execTenantSet e s) :=
  invOut_command h <| by
    dsimp only
    split <;> simp [h]

theorem inv_clearPartitions (h : Inv s) {n : Nat} : Inv (s.clearPartitions n) :=
  inv_of_spm h (Memory.wf_filter (spm_wf_of_inv h)) rfl rfl rfl rfl rfl

theorem inv_fnReset (h : Inv s) {n : Nat} : Inv (s.fnReset n) := by
  simp [State.fnReset, h, inv_clearPartitions]

theorem invOut_execFnReset (h : Inv s) : InvOut (execFnReset e s) :=
  invOut_command h <| by simp [h, inv_fnReset]

@[simp] theorem inv_truncate {c : Nat} : Inv (s.truncate c) ↔ Inv s := Iff.rfl

@[simp] theorem inv_resetCluster {c : Nat} : Inv (s.resetCluster c) ↔ Inv s := by simp [State.resetCluster]

theorem invOut_execClusterReset (h : Inv s) : InvOut (execClusterReset e s) :=
  invOut_command h <| by simp [h]

theorem invOut_execClusterInternalFault (h : Inv s) {c : Nat} : InvOut (execClusterInternalFault c s) := by
  simp [execClusterInternalFault, h]

@[simp] theorem inv_demoteAll {p : Nat → Bool} : Inv (s.demoteAll p) ↔ Inv s := Iff.rfl

theorem invOut_execPageOwn (h : Inv s) : InvOut (execPageOwn e s) :=
  invOut_command h <| by simp [h]

theorem invOut_execPageOwnAck (h : Inv s) {n : Nat} : InvOut (execPageOwnAck n s) := by
  unfold execPageOwnAck
  split
  · dsimp only
    split
    · exact h
    · exact invOut_answer (by exact h) (by exact h)
  · exact h

@[simp] theorem inv_leavePartitions {n : Nat} : Inv (s.leavePartitions n) ↔ Inv s := Iff.rfl

theorem invOut_execTeardown (h : Inv s) : InvOut (execTeardown e s) :=
  invOut_command h <| by simp [h, inv_fnReset]

theorem invOut_execPartitionAssign (h : Inv s) : InvOut (execPartitionAssign e s) := by
  unfold execPartitionAssign
  split
  · exact h
  · refine invOut_command h ?_
    dsimp only
    split
    · exact h
    · split
      · exact h
      · split <;> simp [h]

@[simp] theorem inv_endGrants {qs : List Nat} : Inv (s.endGrants qs) ↔ Inv s := by
  induction qs generalizing s with
  | nil => rfl
  | cons q r ih => simp [State.endGrants, ih]

theorem invOut_execPartitionWithdraw (h : Inv s) : InvOut (execPartitionWithdraw e s) := by
  unfold execPartitionWithdraw
  split
  · exact h
  · refine invOut_command h ?_
    dsimp only
    split <;> simp [h]

theorem invOut_execGroupMake (h : Inv s) : InvOut (execGroupMake e s) :=
  invOut_command h <| by
    dsimp only
    split <;> simp [h]

theorem invOut_execGroupEnd (h : Inv s) : InvOut (execGroupEnd e s) :=
  invOut_command h <| by
    dsimp only
    split <;> simp [h]

/-! ### Host commands that run grids and move memory -/

theorem invOut_execLaunch (h : Inv s) : InvOut (execLaunch e s) :=
  invOut_command h <| by
    dsimp only
    split
    · exact h
    · split
      · exact h
      · split <;> simp [h]

theorem invOut_execCancel (h : Inv s) : InvOut (execCancel e s) :=
  invOut_command h <| by
    split <;> simp [h]

@[simp] theorem inv_setSuspended {gs : List Nat} {x : Bool} : Inv (s.setSuspended gs x) ↔ Inv s := Iff.rfl

theorem invOut_execSuspend (h : Inv s) : InvOut (execSuspend e s) :=
  invOut_command h <| by
    dsimp only
    split <;> simp [h]

theorem invOut_execResume (h : Inv s) : InvOut (execResume e s) :=
  invOut_command h <| by
    split <;> simp [h]

theorem invAnswer_memStep (h : Inv s) {b : Bool} : InvAnswer (s.memStep e b) := by
  unfold State.memStep
  extract_lets f host va len o n next
  split
  · exact h
  · have hnext : ∀ (s1 : State) bad, Inv s1 → InvAnswer (next s1 bad) := fun s1 bad h1 => by simp [next, h1]
    split
    · split
      · exact h
      · next e1 => exact hnext _ _ (inv_engineWrite h e1)
    · split
      · exact h
      · refine hnext _ _ (inv_enginePoison ?_)
        exact inv_of_host h (Memory.wf_writeBytes _ _ _ (host_wf_of_inv h)) rfl rfl rfl rfl rfl

theorem invOut_execAttest (h : Inv s) : InvOut (execAttest e s) :=
  invOut_command h <| by
    dsimp only
    split
    · exact h
    · refine inv_of_host h ?_ rfl rfl rfl rfl rfl
      dsimp only
      exact Memory.wf_writeBytes _ _ _ (host_wf_of_inv h)

theorem invOut_execFwWrite (h : Inv s) : InvOut (execFwWrite e s) :=
  invOut_command h <| by
    dsimp only
    split
    · exact h
    · simp [h]

/-- POWER_CAP refuses a cap outside its bounds (R382). -/
theorem invOut_execPowerCap (h : Inv s) : InvOut (execPowerCap e s) :=
  invOut_command h <| by
    dsimp only
    split
    · exact h
    · exact inv_setCap h (by omega)

theorem invOut_execCheckpoint (h : Inv s) : InvOut (execCheckpoint e s) :=
  invOut_command h <| by
    dsimp only
    split
    · trivial
    · exact inv_setTier (s := { s with checkpointing := true }) h (by simp)

@[simp] theorem inv_resetClusters {cs : List Nat} : Inv (s.resetClusters cs) ↔ Inv s := by
  induction cs generalizing s with
  | nil => rfl
  | cons c r ih => simp [State.resetClusters, ih]

/-- The image that a checkpoint writes holds the DRAM as it stands. -/
theorem invOut_execCheckpointComplete (h : Inv s) : InvOut (execCheckpointComplete s) := by
  unfold execCheckpointComplete
  split
  · split
    · exact h
    · extract_lets s1
      have h1 : Inv s1 := inv_setTier (s := s) h (by
        intro i hi
        cases hi
        exact dram_wf_of_inv h)
      exact invOut_answer (inv_resetClusters.mpr h1) (by exact inv_resetClusters.mpr h1)
  · exact h

theorem invOut_execRestore (h : Inv s) : InvOut (execRestore e s) :=
  invOut_command h <| by
    split
    · trivial
    · split
      · exact h
      · split <;> simp [h]

theorem invOut_execRestoreComplete (h : Inv s) : InvOut (execRestoreComplete s) := by
  unfold execRestoreComplete
  split
  · next i _ hi =>
    split
    · exact h
    · extract_lets ps s1
      have h1 : Inv s1 := inv_of_dram h (tier_wf_of_inv h hi) rfl rfl rfl rfl rfl
      exact invOut_answer h1 (by exact h1)
  · exact h

end

/-! ### Rings and links -/

@[simp] theorem inv_dropDoorbell : Inv s.dropDoorbell ↔ Inv s := Iff.rfl

@[simp] theorem inv_moveTail {n i : Nat} : Inv (s.moveTail n i) ↔ Inv s := by
  unfold State.moveTail
  dsimp only
  split <;> simp

@[simp] theorem inv_moveHead {n i : Nat} : Inv (s.moveHead n i) ↔ Inv s := by
  unfold State.moveHead
  dsimp only
  split <;> simp

@[simp] theorem inv_setRings {n k : Nat} {sq cq : DWord} : Inv (s.setRings n k sq cq) ↔ Inv s := by
  unfold State.setRings
  dsimp only
  split
  · rfl
  · split
    · rfl
    · split <;> simp

@[simp] theorem inv_sendHost {k n : Nat} : Inv (s.sendHost k n) ↔ Inv s := by
  unfold State.sendHost
  split <;> simp

theorem invOut_execCompletionWrite (h : Inv s) {n : Nat} : InvOut (execCompletionWrite n s) := by
  unfold execCompletionWrite
  dsimp only
  split
  · split
    · exact h
    · refine inv_sendHost.mpr (inv_of_host h ?_ rfl rfl rfl rfl rfl)
      dsimp only
      exact Memory.wf_write _ _ _ _ (host_wf_of_inv h)
  · exact h

@[simp] theorem inv_setPort {n : Nat} {p : Port} : Inv (s.setPort n p) ↔ Inv s := Iff.rfl

theorem invOut_execLinkTraining (h : Inv s) {n : Nat} {b c : Bool} : InvOut (execLinkTraining n b c s) := by
  simp [execLinkTraining, h]

@[simp] theorem inv_sendFrame {n : Nat} : Inv (s.sendFrame n) ↔ Inv s := by
  unfold State.sendFrame
  split <;> simp

@[simp] theorem inv_transmit {n : Nat} : Inv (s.transmit n) ↔ Inv s := by simp [State.transmit]

theorem invOut_execFrameReceive (h : Inv s) {n : Nat} {f : Sys2Proof.Frame} {c : Bool} : InvOut (execFrameReceive n f c s) := by
  simp [execFrameReceive, h]

theorem invOut_execFrameIdle (h : Inv s) {n : Nat} {f : Sys2Proof.Frame} : InvOut (execFrameIdle n f s) := by
  simp [execFrameIdle, h]

theorem invOut_execRetryRequest (h : Inv s) {n : Nat} {a : Byte} : InvOut (execRetryRequest n a s) := by
  simp [execRetryRequest, h]

theorem invOut_execPortRetrain (h : Inv s) {n : Nat} : InvOut (execPortRetrain n s) := by
  simp [execPortRetrain, h]

theorem invOut_execPortDown (h : Inv s) {n : Nat} : InvOut (execPortDown n s) := by
  simp [execPortDown, h]

@[simp] theorem inv_ringBell {f : BitVec 256} : Inv (s.ringBell f) ↔ Inv s := by simp [State.ringBell]

@[simp] theorem inv_injectLink {n : Nat} {f : BitVec 256} : Inv (s.injectLink n f) ↔ Inv s := inv_injectOn

@[simp] theorem inv_pktEffect {b : Bool} {n : Nat} {fs : List (BitVec 256)} {f : BitVec 256} :
    Inv (s.pktEffect b n fs f) ↔ Inv s := by
  simp [State.pktEffect]

theorem invOut_execPacketReceive (h : Inv s) {n : Nat} : InvOut (execPacketReceive n s) := by
  unfold execPacketReceive
  dsimp only
  split
  · exact h
  · split
    · exact h
    · split
      · exact h
      · split <;> simp [h]

/-! ### Power and heat -/

/-- The clock falls by a step and not below 600 MHz (R382). -/
theorem invOut_execThermalThrottle (h : Inv s) : InvOut (execThermalThrottle s) := by
  have hf := mhz_bounds_of_inv h
  exact inv_setMhz h (by omega)

/-- The clock rises by a step and not above 1,200 MHz (R382). -/
theorem invOut_execClockRecover (h : Inv s) : InvOut (execClockRecover s) := by
  have hf := mhz_bounds_of_inv h
  exact inv_setMhz h (by omega)

/-- What outlives a loss of power is canonical still, and the rest is as at reset. -/
theorem inv_lasting (h : Inv s) : Inv s.lasting := by
  obtain ⟨-, hh, -, ht, -⟩ := inv_iff.mp h
  exact inv_iff.mpr ⟨rfl, hh, rfl, ht, (by decide : 600 ≤ 1200 ∧ 1200 ≤ 1200 ∧ 1200 % 100 = 0),
    (by decide : 1200 ≤ 2800 ∧ 2800 ≤ 2800)⟩

theorem invOut_execPowerLoss (h : Inv s) : InvOut (execPowerLoss s) := by
  refine inv_setTier (s := s.lasting) (inv_lasting h) ?_
  intro i hi
  split at hi
  · cases hi
  · exact tier_wf_of_inv h hi

theorem inv_boot {s' : State} (e : s.boot = some s') : Inv s' ↔ Inv s := by
  unfold State.boot at e
  extract_lets img v at e
  split at e
  · cases e
    rfl
  · split at e <;> cases e
    rfl

@[simp] theorem inv_failStage {c d : Byte} : Inv (s.failStage c d) ↔ Inv s := Iff.rfl

theorem invOut_execPowerGood (h : Inv s) {f : Option (Byte × Byte)} {p : BitVec 16} : InvOut (execPowerGood f p s) := by
  unfold execPowerGood
  split
  · exact h
  · extract_lets s1 s0
    have hl := inv_lasting h
    have h0 : Inv s0 := hl
    split
    · exact h0
    · exact h0
    · next e _ => exact (inv_boot e).mpr h0
    · next e _ => simp [inv_boot e, h0]

/-! ### Uniform instructions -/

theorem invOut_uni1 (h : Inv s) {i : Instr} {f : DA} {g : DWord → DWord} : InvOut (uni1 i f g s) :=
  invOut_issue h fun _ _ _ h => h

theorem invOut_uni2 (h : Inv s) {i : Instr} {f : DAB} {g : DWord → DWord → DWord} : InvOut (uni2 i f g s) :=
  invOut_issue h fun _ _ _ h => h

theorem invOut_execVtos (h : Inv s) {f : DAB} : InvOut (execVtos f s) :=
  invOut_issue h fun k t s h => by simp [uniBody, h]

end Sys2Proof.Machine
end

section
/-! SUPPORT. Every instruction and event, every move of the part, and so every step keeps the invariant. -/

namespace Sys2Proof.Machine
open Sys2Proof.Claims

variable {s : State}

/-- Every arm of `exec`, by its body: the arms that share a body share the rule for it. -/
theorem invOut_exec (h : Inv s) (i : Instr) : InvOut (exec i s) := by
  unfold exec
  cases i with
  | mov | movi | iadd64 | shfl | shflx | bcast | ballot | vany | vall | scan | cdet | vcomb | ttag | tval | tis
    | tmark | ftest | hget | hchkReport | smovi | ssel | sred | pblk => exact invOut_issue h fun _ _ _ h => h
  | mprio => exact invOut_issueS h fun _ _ _ _ h => h
  | nop => exact invOut_issueBoth h (fun _ _ _ h => h) fun _ _ _ _ h => h
  | ineg | iabs | clz | popc | brev | not | fclass => exact invOut_lane1 h
  | imul | imulhS | imulhU | iminS | iminU | imaxS | imaxU | shl | shr | sar | rotl | and | or | xor | andn | bfxU
    | bfxS => exact invOut_lane2 h
  | sel | imad | bfi => exact invOut_lane3 h
  | iadd | isub | icmp => exact invOut_lane2Tagged h
  | frcp | frsq | fsqrt | fexp2 | flog2 | frnd | fcvtToF32 => exact invOut_float1 h
  | fadd | fsub | fmul | fmin | fmax | fcmp | h2add | h2mul | fscl | funpack => exact invOut_float2 h
  | ffma | h2fma | dot4 | dot8 => exact invOut_float3 h
  | fcvtFromF32 | fpack => exact invOut_issue h fun _ _ _ h => invEffect_floatDrawBody h
  | smov => exact invOut_uni1 h
  | sadd | ssub | smul | sand | sor | sxor | sshl | sshr | scmp => exact invOut_uni2 h
  | ld | st | ldq | stq | cmpst | exld | satom => exact invOut_issue h fun _ _ _ h => invEffect_nearBody h
  | gatom | gred => exact invOut_issue h fun _ _ _ h => invEffect_gatomBody h
  | deref | unify | unifyOc | bind | mkvar | mkvarH | mkcvar | mkstr | getarg | untrail | bcol | cpush | cnext
    | cut | clast => exact invOut_startTerm h
  | jmp | brsNz | brsZ => exact invOut_control h fun _ _ _ _ h e => inv_moveTo h e
  | brc | brcF => exact invOut_branchOn h
  | call => exact invOut_control h fun _ _ _ _ h e => inv_callTo h e
  | exit => exact invOut_control h fun _ _ _ _ h e => inv_resume e h
  | mwld | mwldT => exact invOut_issueS h fun _ _ _ _ h => invEffect_loadWeights h
  | mmul | mmsp => exact invOut_issueS h fun _ _ _ _ h => invEffect_stepBody h
  | barExp => exact invOut_issue h fun _ _ _ h => invEffect_doneOr_barOp h
  | fence => exact invOut_issue h fun _ _ _ h => invEffect_fenced h h
  | prom | promPin | dem => exact invOut_issue h fun _ _ _ h => invEffect_promoteBody h
  | rett | rettRel | rettDrop => exact invOut_issue h fun _ _ _ h => invEffect_rettBody h
  | sysw | rpcWrite | rmaskWrite => exact invOut_issue h fun _ _ _ h => invEffect_sysWriteBody h
  | memWrite | memRead => exact invOut_command h (invAnswer_memStep h)
  | thermalTrip => exact h
  | doorbellSubmissionTail => exact inv_moveTail.mpr h
  | doorbellCompletionHead => exact inv_moveHead.mpr h
  | doorbellRingSetup => exact inv_setRings.mpr h
  | lds => exact invOut_execLds h
  | sts => exact invOut_execSts h
  | spl => exact invOut_execSpl h
  | fil => exact invOut_execFil h
  | lsget => exact invOut_execLsget h
  | lsret => exact invOut_execLsret h
  | tmk => exact invOut_execTmk h
  | jmpInd => exact invOut_execJmpInd h
  | callInd => exact invOut_execCallInd h
  | sbar => exact invOut_execSbar h
  | brk => exact invOut_execBrk h
  | yield => exact invOut_execYield h
  | mamap => exact invOut_execMamap h
  | mclr => exact invOut_execMclr h
  | mrd => exact invOut_execMrd h
  | mtov => exact invOut_execMtov h
  | mfuse => exact invOut_execMfuse h
  | mbarArr => exact invOut_execMbarArr h
  | mbarWait => exact invOut_execMbarWait h
  | mloop => exact invOut_execMloop h
  | cpy => exact invOut_execCpy h
  | cpy2 => exact invOut_execCpy2 h
  | cpyx => exact invOut_execCpyx h
  | cpyxH => exact invOut_execCpyxH h
  | cpym => exact invOut_execCpym h
  | coll => exact invOut_execColl h
  | amsg => exact invOut_execAmsg h
  | fcan => exact invOut_execFcan h
  | wlpush => exact invOut_execWlpush h
  | wlpull => exact invOut_execWlpull h
  | wlsteal => exact invOut_execWlsteal h
  | childLaunch => exact invOut_execChildLaunch h
  | hld => exact invOut_execHld h
  | hset => exact invOut_execHset h
  | hchkWalk => exact invOut_execHchkWalk h
  | barInit => exact invOut_execBarInit h
  | barArr => exact invOut_execBarArr h
  | barWait => exact invOut_execBarWait h
  | cwait => exact invOut_execCwait h
  | arbeg => exact invOut_execArbeg h
  | arrng => exact invOut_execArrng h
  | arld => exact invOut_execArld h
  | arst => exact invOut_execArst h
  | arstIx => exact invOut_execArstIx h
  | arabt => exact invOut_execArabt h
  | lclass => exact invOut_execLclass h
  | vtos => exact invOut_execVtos h
  | sysr => exact invOut_execSysr h
  | trap => exact invOut_execTrap h
  | ptlb => exact invOut_execPtlb h
  | usg => exact invOut_execUsg h
  | producerReturn => exact invOut_execProducerReturn h
  | window1ElementArrive => exact invOut_execWindow1ElementArrive h
  | parkedElementReplay => exact invOut_execParkedElementReplay h
  | globalAtomicExecute => exact invOut_execGlobalAtomicExecute h
  | translationWalk => exact invOut_execTranslationWalk h
  | enginePieceLand => exact invOut_execEnginePieceLand h
  | engineCommandComplete => exact invOut_execEngineCommandComplete h
  | collMatch => exact invOut_execCollMatch h
  | amsgDeliver => exact invOut_execAmsgDeliver h
  | matrixStepEnd => exact invOut_execMatrixStepEnd h
  | matrixStarvationGrant => exact invOut_execMatrixStarvationGrant h
  | mwldLatch => exact invOut_execMwldLatch h
  | regionCommit => exact invOut_execRegionCommit h
  | promoteMoveComplete => exact invOut_execPromoteMoveComplete h
  | demoteComplete => exact invOut_execDemoteComplete h
  | hldComplete => exact invOut_execHldComplete h
  | wlpushAppend => exact invOut_execWlpushAppend h
  | wlpullServe => exact invOut_execWlpullServe h
  | endOfWork => exact invOut_execEndOfWork h
  | teamRetire => exact invOut_execTeamRetire h
  | gridEnd => exact invOut_execGridEnd h
  | blockPlace => exact invOut_execBlockPlace h
  | distributorStarvation => exact invOut_execDistributorStarvation h
  | handlerTeamStart => exact invOut_execHandlerTeamStart h
  | trapRecordEnqueue => exact invOut_execTrapRecordEnqueue h
  | systemEvent => exact invOut_execSystemEvent h
  | spillLeaseRevoke => exact invOut_execSpillLeaseRevoke h
  | fetchFill => exact invOut_execFetchFill h
  | sliceEnd => exact invOut_execSliceEnd h
  | sliceStart => exact invOut_execSliceStart h
  | preemptForClass3 => exact invOut_execPreemptForClass3 h
  | blockSave => exact invOut_execBlockSave h
  | blockRestore => exact invOut_execBlockRestore h
  | packetReceive => exact invOut_execPacketReceive h
  | completionWrite => exact invOut_execCompletionWrite h
  | unassignedCommand => exact invOut_execUnassignedCommand h
  | tenantMake => exact invOut_execTenantMake h
  | tenantSet => exact invOut_execTenantSet h
  | teardown => exact invOut_execTeardown h
  | partitionAssign => exact invOut_execPartitionAssign h
  | partitionWithdraw => exact invOut_execPartitionWithdraw h
  | pageOwn => exact invOut_execPageOwn h
  | pageOwnAck => exact invOut_execPageOwnAck h
  | groupMake => exact invOut_execGroupMake h
  | groupEnd => exact invOut_execGroupEnd h
  | clusterReset => exact invOut_execClusterReset h
  | fnReset => exact invOut_execFnReset h
  | checkpoint => exact invOut_execCheckpoint h
  | restore => exact invOut_execRestore h
  | attest => exact invOut_execAttest h
  | fwWrite => exact invOut_execFwWrite h
  | powerCap => exact invOut_execPowerCap h
  | suspend => exact invOut_execSuspend h
  | resume => exact invOut_execResume h
  | launch => exact invOut_execLaunch h
  | cancel => exact invOut_execCancel h
  | usgReportComplete => exact invOut_execUsgReportComplete h
  | illegalInstruction => exact invOut_execIllegalInstruction h
  | ptlbComplete => exact invOut_execPtlbComplete h
  | mrdComplete => exact invOut_execMrdComplete h
  | ret => exact invOut_execRet h
  | sarr => exact invOut_execSarr h
  | mend => exact invOut_execMend h
  | gbar => exact invOut_execGbar h
  | arend => exact invOut_execArend h
  | powerLoss => exact invOut_execPowerLoss h
  | thermalThrottle => exact invOut_execThermalThrottle h
  | clockRecover => exact invOut_execClockRecover h
  | checkpointComplete => exact invOut_execCheckpointComplete h
  | restoreComplete => exact invOut_execRestoreComplete h
  | powerGood => exact invOut_execPowerGood h
  | linkTraining => exact invOut_execLinkTraining h
  | frameReceive => exact invOut_execFrameReceive h
  | frameIdle => exact invOut_execFrameIdle h
  | retryRequest => exact invOut_execRetryRequest h
  | portDown => exact invOut_execPortDown h
  | portRetrain => exact invOut_execPortRetrain h
  | crosspointForcedGrant => exact invOut_execCrosspointForcedGrant h
  | channelFloorWindow => exact invOut_execChannelFloorWindow h
  | clusterInternalFault => exact invOut_execClusterInternalFault h

/-! ### The moves of the part -/

@[simp] theorem inv_corrects : Inv s.corrects ↔ Inv s := Iff.rfl

@[simp] theorem inv_counted {i : Instr} : Inv (s.counted i) ↔ Inv s := by
  unfold State.counted
  split <;> simp

@[simp] theorem inv_grant {a : Agent} : Inv (s.grant a) ↔ Inv s := by
  unfold State.grant
  split
  · split <;> simp
  · exact Iff.rfl

theorem invOut_run (h : Inv s) (c : Cand) : InvOut (s.run c) := by
  cases c with
  | agent a =>
    unfold State.run
    dsimp only
    split
    · exact invOut_exec (by simpa using h) _
    · exact h
  | event i => exact invOut_exec (inv_counted.mpr h) i
  | input i => exact invOut_exec (by exact h) i
  | lane k lane => exact invOut_execTermLane (inv_corrects.mpr h)
  | inject n lane => exact inv_injectElem.mpr h
  | grant xp => exact inv_grantTop.mpr h
  | forced xp => exact invOut_execCrosspointForcedGrant h
  | window ch => exact invOut_execChannelFloorWindow h
  | slot n lane => exact inv_slotElem.mpr h
  | retrain port => exact invOut_execPortRetrain h
  | send port => exact inv_sendFrame.mpr h
  | transmit port => exact inv_transmit.mpr h

theorem invOut_step (h : Inv s) : InvOut (step s) := by
  unfold step State.advanceOnce
  split
  · split
    · exact h
    · exact invOut_run (by exact h) _
    · exact invOut_run (by exact h) _
  · split
    · exact invOut_execPowerGood (by exact h)
    · exact invOut_execPowerLoss (by exact h)
    · trivial

/-- Settles O56: whatever moves next, an instruction, an event or a smaller move of the part, keeps the invariant. -/
theorem stepKeepsInv : Obligations.StepKeepsInv := by
  unfold Obligations.StepKeepsInv
  intro s s' h e
  have ho := invOut_step h
  rw [e] at ho
  exact ho

end Sys2Proof.Machine
end

section
/-! SUPPORT. Decoding words: an arst whose words are not those it encodes as (R309), and the spec's examples (R52 to R78).

R309 gives arst the fields IX in MOD[2] and SC, the scale, in MOD[1:0]. Where IX is 0 the row of arst takes every SC and the
record of arst keeps none, so that of the four encodings of one arst only the one with SC = 0 is what it encodes as. -/

namespace Sys2Proof.Decoding

/-- `arst [v2], v1` in the extended form, with IX = 0 and SC = `sc` (R54, R309). -/
def arstWords (sc : BitVec 2) : List Word := [0x7E300000 ||| sc.setWidth 32, 0x00081101, 0]

/-- The instruction `arst [v2], v1`, whose record has no place for a scale. -/
def arstInstr : Instr := .arst { ext := true, a := ⟨.v 2, false⟩, b := ⟨.v 1, false⟩, x := 0 }

/-- An arst with IX = 0 decodes to one instruction, whatever its scale. -/
theorem decodeWords_arstWords (sc : BitVec 2) : decodeWords (arstWords sc) = .ok arstInstr := by
  revert sc
  decide

/-- That instruction encodes with the scale 0. -/
theorem encode_arstInstr : encode arstInstr = arstWords 0 := by decide

/-- Refutes O57: the words of `arst [v2], v1` with SC = 1 are decoded, and the instruction encodes with SC = 0. -/
theorem not_decodeEncode : ¬ Obligations.DecodeEncode := by
  unfold Obligations.DecodeEncode
  rintro ⟨-, encode_of_decode⟩
  have hdecode : decodeWords [0x7E300001, 0x00081101, 0] = .ok arstInstr := decodeWords_arstWords 1
  obtain ⟨-, -, hencode⟩ := encode_of_decode [0x7E300001, 0x00081101, 0] arstInstr (by decide) hdecode
  have hscale : arstWords 0 = [0x7E300001, 0x00081101, 0] := encode_arstInstr.symm.trans hencode
  exact absurd hscale (by decide)

/-- Settles O60: each example is a closed list of words, and the decoder evaluates it. -/
theorem decodeWords : Obligations.DecodeWords := by
  unfold Obligations.DecodeWords
  exact ⟨rfl, rfl, rfl, rfl, rfl, rfl, rfl, rfl, rfl, rfl, rfl, rfl, rfl⟩

end Sys2Proof.Decoding
end

section
/-! SUPPORT. A step of the part is a step of one that could happen, and an agent's step runs what its words decode to (R27, R52). -/

namespace Sys2Proof.Machine

/-! ### The choice of a step -/

section
variable {s : State} {f : Option (Byte × Byte)} (hp : s.powerSt = .on f)
include hp

/-- With power on, a step is one of those that could happen. -/
theorem step_of_cands (hc : s.cands ≠ []) : ∃ c ∈ s.cands, step s = ({ s with draws := s.draws + 1 } : State).run c := by
  unfold step State.advanceOnce
  split
  · split
    · next h => exact absurd h hc
    · next c h => exact ⟨c, by rw [h]; exact List.mem_singleton_self c, rfl⟩
    · next c cs _ h =>
      have hlt : (s.choose (cs.length + 1)).1 < (c :: cs).length := Nat.mod_lt _ (Nat.succ_pos _)
      refine ⟨(c :: cs)[(s.choose (cs.length + 1)).1], by rw [h]; exact List.getElem_mem hlt, ?_⟩
      dsimp only
      rw [List.getElem?_eq_getElem hlt, Option.getD_some]
      rfl
  · next h => exact absurd hp (h f)

theorem step_of_no_cands (hc : s.cands = []) : step s = .next { s with draws := s.draws + 1 } := by
  simp [step, State.advanceOnce, hp, hc]

theorem step_of_single_cand {c : Cand} (hc : s.cands = [c]) : step s = ({ s with draws := s.draws + 1 } : State).run c := by
  simp [step, State.advanceOnce, hp, hc]

end

/-- With every clock stopped, and no event of power to come, the step is a fault (R382). -/
theorem step_of_no_clock {s : State} (hp : ∀ f, s.powerSt ≠ .on f) (hg : ∀ f p r, s.inputs ≠ .powerGood f p :: r)
    (hl : ∀ r, s.inputs ≠ .powerLoss :: r) : step s = .fault .noClock := by
  unfold step State.advanceOnce
  split
  · next h => exact absurd h (hp _)
  · split
    · next h => exact absurd h (hg _ _ _)
    · next h => exact absurd h (hl _)
    · rfl

/-! ### The step of an agent -/

/-- Counting the errors of an instruction's reads changes the count alone, and not that of an instruction without reads (R117). -/
theorem counted_eq (s : State) (i : Instr) :
    ∃ n, s.counted i = { s with corrected := s.corrected + n } ∧ (readsSpm i = false → n = 0) := by
  unfold State.counted
  split
  · next h => exact ⟨Config.corrected s.draws, rfl, fun h' => by simp [h] at h'⟩
  · exact ⟨0, rfl, fun _ => rfl⟩

/-- The issue slot goes to a team: its stamp may change, and of the others nothing does (R27). -/
theorem grant_team_eq {s : State} {k : Nat} {T : Team} (hT : s.team? k = some T) :
    (s.grant (.team k)).cur = .team k ∧
    s.grant (.team k) = { s with
      cur := (s.grant (.team k)).cur, clock := (s.grant (.team k)).clock, teams := (s.grant (.team k)).teams } ∧
    (∃ stamp, (s.grant (.team k)).team? k = some { T with stamp := stamp }) ∧
    ∀ j, j ≠ k → (s.grant (.team k)).team? j = s.team? j := by
  unfold State.grant
  dsimp only
  split
  · next h =>
    simp only [Bool.and_eq_true, beq_iff_eq] at h
    exact ⟨h.1, rfl, ⟨T.stamp, hT⟩, fun _ _ => rfl⟩
  · refine ⟨rfl, rfl, ⟨s.clock + 1, ?_⟩, fun j hj => team?_modTeam_ne s _ hj⟩
    exact (team?_modTeam s k _).trans (by rw [hT]; rfl)

/-! ### Fetching an instruction -/

theorem fetchWords_ok {s : State} {c tn : Nat} : ∀ (ws : List Word) (pc : DWord),
    (∀ j w, ws[j]? = some w → s.fetchWord c tn (pc + 4 * BitVec.ofNat 64 j) = .ok w) →
    s.fetchWords c tn pc ws.length = .ok ws
  | [], _, _ => rfl
  | w :: ws, pc, h => by
    have h0 : s.fetchWord c tn pc = .ok w := by simpa using h 0 w rfl
    have hr : s.fetchWords c tn (pc + 4) ws.length = .ok ws := by
      refine fetchWords_ok ws (pc + 4) fun j x hj => ?_
      have hpc : pc + 4 + 4 * BitVec.ofNat 64 j = pc + 4 * BitVec.ofNat 64 (j + 1) := by
        rw [BitVec.ofNat_add, BitVec.mul_add, BitVec.add_assoc, BitVec.add_comm 4]
        rfl
      rw [hpc]
      exact h (j + 1) x hj
    rw [List.length_cons, State.fetchWords, h0]
    dsimp only
    rw [hr]

/-- Settles O59: the step is chosen among `cands`, and the step of an agent grants it the slot, counts and runs `exec`. -/
theorem stepRunsDecoded : Obligations.StepRunsDecoded := by
  unfold Obligations.StepRunsDecoded
  refine ⟨fun s f hp hc => step_of_cands hp hc, fun s f hp hc => step_of_no_cands hp hc, ?_, ?_, ?_,
    fun s hp hg hl => step_of_no_clock hp hg hl⟩
  · intro s f k T i hp hc hT hfetch
    let s0 : State := { s with draws := s.draws + 1 }
    have hT0 : s0.team? k = some T := hT
    obtain ⟨hcur, heq, hteam, hothers⟩ := grant_team_eq hT0
    obtain ⟨n, hn, hreads⟩ := counted_eq (s0.grant (.team k)) i
    refine ⟨s0.grant (.team k), hcur, heq, hteam, hothers, n, ?_, hreads⟩
    have hnext : s0.nextInstr (.team k) = some i := by
      simp only [State.nextInstr, hT0]
      rw [show s0.tenantIdOf T = s.tenantIdOf T from rfl, hfetch]
    have hcorr : (s0.grant (.team k)).corrected = s.corrected := by rw [heq]
    calc step s = s0.run (.agent (.team k)) := step_of_single_cand hp hc
      _ = exec i ((s0.grant (.team k)).counted i) := by rw [State.run, hnext]
      _ = _ := by rw [hn, hcorr]
  · intro s f b x m i hp hc hb hm hfetch
    let s0 : State := { s with draws := s.draws + 1 }
    obtain ⟨n, hn, hreads⟩ := counted_eq (s0.grant (.stream b)) i
    refine ⟨n, ?_, hreads⟩
    have hnext : s0.nextInstr (.stream b) = some i := by
      simp only [State.nextInstr, show s0.block? b = some x from hb, hm]
      rw [show s0.tenantOfGrid x.grid = s.tenantOfGrid x.grid from rfl, hfetch]
    calc step s = s0.run (.agent (.stream b)) := step_of_single_cand hp hc
      _ = exec i ((s0.grant (.stream b)).counted i) := by rw [State.run, hnext]
      _ = _ := by rw [hn]; rfl
  · intro s c tn pc w0 ws h0 hlen hws
    have hr := fetchWords_ok ws (pc + 4) hws
    have hcount : wordCount w0 - 1 = ws.length := by omega
    simp only [State.fetch, h0, hcount, hr]

end Sys2Proof.Machine
end

section
/-! SUPPORT. One grid, one block and one team of two active lanes: the concrete states of the refutations below.

The grid has no handler, so a trap of its team ends it (R372), and its tenant has no page tables. -/

namespace Sys2Proof.Machine

open Sys2Proof.Claims

/-- A team of 32 lanes with lanes 0 and 1 on its path. -/
def loneTeam : Team :=
  { block := 0, index := 0, quarter := 0, lanes := 32, vregs := 64, sregs := 32, ctl := { pc := 0x1000, mask := 3 } }

/-- The team's block, on the four quarters of one core. -/
def loneBlock : Block := { grid := 0, index := 0, quarters := [0, 1, 2, 3], scratch := 0x10000 }

/-- The block's grid, placed. -/
def loneGrid : Grid :=
  { tenant := 0, queue := 0, number := 0, launch := { kernel := { entry := 0x1000 } }, owner := .host 1 7, placed := 1 }

/-- The state of that grid, with the turn at its team. -/
def loneState (t : Team) : State :=
  { State.reset with
    cur := .team 0, nextId := 1, teams := [(0, t)], blocks := [(0, loneBlock)], grids := [(0, loneGrid)]
    tenants := [(0, {})], partitions := [(0, { quarters := [0, 1, 2, 3], tenants := [(0, 0)] })] }

/-- A check that evaluates to true on what an instruction leaves holds of the state that a statement names. -/
theorem check_of_exec {i : Instr} {s t : State} {p : State → Bool} (h : (match exec i s with | .next t => p t | _ => false) = true)
    (ht : exec i s = .next t) : p t = true := by
  rwa [ht] at h

end Sys2Proof.Machine
end

section
/-! SUPPORT. A landing request of a kind and size that no instruction makes: an lds of 16 bytes (R108). -/

namespace Sys2Proof.Machine

open Sys2Proof.Claims

/-- An lds of 16 bytes from core 0. R108 has only words and dwords, but a request's kind can hold any size. -/
def wideLds : ReqKind := .lds 0 0x40 16

/-- Its one element, checked, of which no word has landed. -/
def wideElem : Elem := { lane := 0, addr := 0x40, val := 9, st := .landing }

def wideReq : Req := { team := 0, kind := wideLds, dst := .v 1 1, words := [0], elems := [wideElem] }

def wideState : State := { loneState loneTeam with reqs := [(1, wideReq)], nextId := 2 }

/-- Word 0 of its element may land. -/
theorem landing_wideLds : Landing wideState 1 0 0 wideReq wideElem loneTeam (.spm 0 0x40 false) where
  req := rfl
  team := rfl
  lands := .inl (by decide +kernel)
  lane := by decide
  elem := by decide +kernel
  checked := rfl
  place := by decide +kernel
  turn := by decide +kernel
  unit := by decide +kernel
  clean := by decide +kernel

/-- The landing of a word of 16 bytes is written for ld and st, and leaves every other element as it was. -/
theorem req_of_land_wideLds {t : State} (ht : exec (landEvent 1 0 0) wideState = .next t) : t.reqs.get? 1 = some wideReq := by
  simpa using check_of_exec (p := fun t => t.reqs.get? 1 == some wideReq) (by decide +kernel) ht

/-- Refutes O7: the clause for an element of 16 bytes takes in the kind `lds` at size 16, whose word never lands. -/
theorem not_nearLoads : ¬ Obligations.NearLoads := by
  unfold Obligations.NearLoads
  rintro ⟨-, -, lands, -⟩
  obtain ⟨t, r', hexec, -, hreq, -, e', he', -, -, hwide⟩ :=
    lands _ _ _ _ _ _ _ _ 16 landing_wideLds (.lds 0 0x40 16) (by decide)
  obtain rfl : wideReq = r' := Option.some.inj ((req_of_land_wideLds hexec).symm.trans hreq)
  obtain rfl : e' = wideElem := List.mem_singleton.mp he'
  obtain ⟨-, hlanded⟩ := hwide rfl
  exact absurd hlanded (by decide)

end Sys2Proof.Machine
end

section
/-! SUPPORT. An atomic whose elements park ends a grid without a handler, and its request with it (R112, R372). -/

namespace Sys2Proof.Machine

open Sys2Proof.Claims

/-- `gatom.add v1, [v4], v3`: its tenant has no page tables, so each element is refused with 0x31. -/
def refusedGatom : Instr :=
  .gatom .add .home .w { ext := true, d := .v 1, a := ⟨.v 4, false⟩, b := ⟨.v 3, false⟩, c := ⟨.zero, false⟩, x := 0 }

theorem ready_refusedGatom : Ready (loneState loneTeam) 0 loneTeam refusedGatom where
  cur := rfl
  team := rfl
  running := rfl
  mask := by decide +kernel
  active := by decide +kernel
  free := ⟨rfl, rfl, rfl, by decide +kernel, loneBlock, rfl, rfl⟩
  place := by decide +kernel
  alloc := by decide +kernel
  reads := by decide +kernel
  writes := by decide +kernel
  lane := by decide +kernel

/-- Both elements park, their one trap finds no handler, and the grid ends with everything its team had in flight. -/
theorem reqs_of_refusedGatom {t : State} (ht : exec refusedGatom (loneState loneTeam) = .next t) : t.reqs = [] := by
  simpa using check_of_exec (p := fun t => t.reqs == []) (by decide +kernel) ht

/-- Refutes O20: no request is left of an atomic whose refused element ends its grid. -/
theorem not_atomics : ¬ Obligations.Atomics := by
  unfold Obligations.Atomics
  rintro ⟨⟨⟨-, -, -, leaves⟩, -⟩, -⟩
  obtain ⟨t, id, r, hexec, -, hreq, -⟩ := leaves _ _ _ _ _ _ _ _ _ _ _ _ (.gatom .add .home .w _ _ rfl)
    ready_refusedGatom (by decide +kernel) (by decide +kernel)
  rw [reqs_of_refusedGatom hexec] at hreq
  exact nomatch hreq

end Sys2Proof.Machine
end

section
/-! SUPPORT. A team saved with a region open owes a cause word to a register that is still empty (R319, log 117): what fills the
register is the cause word, and not the status or value that completes. -/

namespace Sys2Proof.Machine

open Sys2Proof.Claims

/-- The cause word 5 waits for s3, the register of a future that has not completed. -/
def owedTeam : Team := { loneTeam with causes := [(3, 5)], regs := { sflag := [(3, .empty)] } }

/-- A push of no item in flight, with its future in s3. -/
def owedPush : Cmd := { team := 0, block := 0, core := 0, tenant := 0, cls := .wl, kind := .push 0 [], future := some 3 }

def overGrid : Grid := { loneGrid with endOfWork := true }

/-- The push's work list has ended. -/
def pushState : State := { loneState owedTeam with cmds := [(1, owedPush)], nextId := 2, grids := [(0, overGrid)] }

/-- The push completes, and s3 takes the cause word. -/
theorem s3_of_owedPush {t : State} {T : Team} (ht : exec (.wlpushAppend 1) pushState = .next t) (hT : t.team? 0 = some T) :
    T.regs.s 3 = 5 := by
  have h := check_of_exec (p := fun t => (t.team? 0).any (fun T => T.regs.s 3 == 5)) (by decide +kernel) ht
  simpa [hT] using h

/-- Refutes O37: a push's future holds a cause word, and not status 0x0C. -/
theorem not_workListsAndChildren : ¬ Obligations.WorkListsAndChildren := by
  unfold Obligations.WorkListsAndChildren
  rintro ⟨push, -⟩
  obtain ⟨ended, -, -⟩ := push pushState 1 owedPush 0 [] loneBlock overGrid owedTeam rfl rfl rfl rfl rfl rfl
  obtain ⟨t, T, hexec, hteam, ⟨-, -, -, holds, -⟩, -⟩ := ended rfl
  obtain ⟨hs, -⟩ := holds 3 rfl
  exact absurd ((s3_of_owedPush hexec hteam).symm.trans hs) (by decide)

/-! ### A child's end -/

/-- A second grid, in which all blocks are placed and none is live, launched by the team as its child with its future in s3. -/
def childGrid : Grid := { loneGrid with owner := .child 0 0 (some 3) }

def childState : State := { loneState owedTeam with grids := [(0, loneGrid), (1, childGrid)], nextId := 2 }

/-- The child ends, and s3 takes the cause word. -/
theorem s3_of_childEnd {t : State} {T : Team} (ht : exec (.gridEnd 1) childState = .next t) (hT : t.team? 0 = some T) :
    T.regs.s 3 = 5 := by
  have h := check_of_exec (p := fun t => (t.team? 0).any (fun T => T.regs.s 3 == 5)) (by decide +kernel) ht
  simpa [hT] using h

/-- Refutes O43: a child's future holds a cause word, and not status 0. -/
theorem not_teamsAndGridsEnd : ¬ Obligations.TeamsAndGridsEnd := by
  unfold Obligations.TeamsAndGridsEnd
  rintro ⟨-, ends, -⟩
  obtain ⟨-, ended⟩ := ends childState 1 childGrid rfl rfl (.inr (by decide)) (by decide +kernel) (by decide) (by decide +kernel)
  obtain ⟨t, hexec, -, -, -, reported⟩ := ended (by decide +kernel) (by decide +kernel)
  obtain ⟨T, hteam, hs, -⟩ := reported 0 0 3 owedTeam rfl rfl (by decide)
  exact absurd ((s3_of_childEnd hexec hteam).symm.trans (hs 3)) (by decide)

end Sys2Proof.Machine
end

section
/-! SUPPORT. The gate before an instruction's own effect (R42, R43, R51, R78): what a team that may try an instruction comes to. -/

namespace Sys2Proof.Machine

open Sys2Proof.Claims

variable {s : State} {k : Nat} {T : Team} {i : Instr}

/-! ### The register checks of a fresh instruction -/

/-- A mask with a lane sweeps a word. -/
theorem sweep_ne_nil {m : Mask} (h : m ≠ 0) : Mask.sweep m ≠ [] := by
  intro hs
  refine h (BitVec.eq_of_getLsbD_eq fun j hj => ?_)
  have hw : Mask.word m (j / 32) = 0 := by
    by_contra hne
    have : j / 32 ∈ Mask.sweep m := by
      simp only [Mask.sweep, List.mem_filter, List.mem_range, decide_eq_true_eq]
      exact ⟨by omega, hne⟩
    simp [hs] at this
  have hz := congrArg (fun x => BitVec.getLsbD x (j % 32)) hw
  simpa [Mask.word, Nat.div_add_mod, Nat.mod_lt] using hz

/-- The checks' order, where no term instruction is reissued and a word is swept. -/
theorem regCheck_fresh {u : Uses} (hr : T.ctl.resume = none) (hs : T.swept ≠ []) :
    regCheck T u =
      if ∃ r ∈ u.all, r.beyond T = true then .trap 0x11
      else if ∃ p ∈ u.reads, p.1.state T T.swept = .poisoned then .trap 0x12
      else if ∃ p ∈ u.reads, p.2 = true ∧ p.1.state T T.swept = .empty then .trap 0x10
      else if (∃ p ∈ u.reads, p.1.state T T.swept = .empty) ∨ ∃ r ∈ u.writes, r.anyEmpty T T.swept = true then .wait
      else .go := by
  simp only [regCheck, List.isEmpty_eq_false_iff.mpr hs, Bool.false_eq_true, if_false]
  exact if_congr (by simp) rfl (if_congr (by simp [hr]) rfl (if_congr (by simp [hr]) rfl (if_congr (by simp [hr]) rfl rfl)))

/-! ### The place's checks -/

theorem placeTrap_of_copyRole {p : Standing} (hp : p.team = true) (hr : T.role = .copy) (hc : p.copyRole = false) :
    placeTrap T p = some 0x08 := by
  simp [placeTrap, hp, hr, hc]

theorem placeTrap_of_cover {p : Standing} (hp : p.team = true) (hr : T.role ≠ .copy) (hv : T.ctl.cover.isSome = true)
    (hc : p.cover = false) : placeTrap T p = some 0x06 := by
  simp [placeTrap, hp, hr, hv, hc]

/-! ### What a team that may try an instruction comes to -/

theorem mayIssue_of_mayTry (h : MayTry s k T i) : s.mayIssue k T = true :=
  mayIssue_of_free h.free h.running h.mask

section
variable (h : MayTry s k T i) (body : Nat → Team → State → Effect)
include h

/-- An instruction that may not stand where it stands is trapped. -/
theorem issueTeam_of_placeTrap {c : Byte} (hp : placeTrap T i.standing = some c) :
    s.issueTeam k i body = .next (s.takeTrap k 0 { code := c }) := by
  simp [State.issueTeam, h.team, State.gate, mayIssue_of_mayTry h, hp]

/-- An instruction whose registers are refused is trapped. -/
theorem issue_of_regTrap {c : Byte} (hp : placeTrap T i.standing = none)
    (hc : regCheck T (usesOf i) (s.vtosWord T i) = .trap c) : s.issue i body = .next (s.takeTrap k 0 { code := c }) := by
  simp [State.issue, h.cur, State.issueTeam, h.team, State.gate, mayIssue_of_mayTry h, hp, hc]

/-- An instruction whose registers are awaited waits. -/
theorem issue_of_regWait (hp : placeTrap T i.standing = none)
    (hc : regCheck T (usesOf i) (s.vtosWord T i) = .wait) : s.issue i body = s.await k T i := by
  simp [State.issue, h.cur, State.issueTeam, h.team, State.gate, mayIssue_of_mayTry h, hp, hc]

end

/-- A team that owes no trap of an entry waits with nothing changed. -/
theorem await_of_not_owesTraps (h : s.owesTraps k = false) : s.await k T i = s.notReady := by
  simp [State.await, State.waitedEntries, h]

/-- A team that waits on parked entries raises their traps anew. -/
theorem await_of_waitedEntries (h : s.waitedEntries k T i ≠ []) :
    s.await k T i = .next (s.renewTraps k (s.waitedEntries k T i)) := by
  unfold State.await
  split
  · contradiction
  · rfl

/-- The instructions that stand for all issue by the common path. -/
theorem exec_of_gated (h : Gated i) : ∃ body, ∀ s, exec i s = s.issue i body := by
  cases h with
  | iadd f => exact ⟨_, fun _ => rfl⟩
  | sadd f => exact ⟨_, fun _ => rfl⟩
  | ld z f => exact ⟨_, fun _ => rfl⟩
  | brc f => exact ⟨_, fun _ => rfl⟩
  | cpy dir bar d a b len => exact ⟨_, fun _ => rfl⟩

/-- The register checks, in their order, for an instruction that issues by the common path. -/
theorem gated_checks (hg : Gated i) (h : MayTry s k T i) (hp : placeTrap T i.standing = none) (hv : s.vtosWord T i = []) :
    ((∃ r ∈ (usesOf i).all, r.beyond T = true) → Traps i s k 0x11) ∧
    ((∀ r ∈ (usesOf i).all, r.beyond T = false) →
      ((∃ p ∈ (usesOf i).reads, p.1.state T T.swept = .poisoned) → Traps i s k 0x12) ∧
      ((∀ p ∈ (usesOf i).reads, p.1.state T T.swept ≠ .poisoned) →
        ((∃ p ∈ (usesOf i).reads, p.2 = true ∧ p.1.state T T.swept = .empty) → Traps i s k 0x10) ∧
        ((∀ p ∈ (usesOf i).reads, p.2 = true → p.1.state T T.swept ≠ .empty) →
          (∃ p ∈ (usesOf i).reads, p.1.state T T.swept = .empty) ∨ (∃ r ∈ (usesOf i).writes, r.anyEmpty T T.swept = true) →
          exec i s = s.await k T i))) := by
  obtain ⟨body, hb⟩ := exec_of_gated hg
  have hc := regCheck_fresh (u := usesOf i) h.fresh (sweep_ne_nil h.active)
  have trap {c : Byte} (ht : regCheck T (usesOf i) = .trap c) : Traps i s k c :=
    (hb s).trans (issue_of_regTrap h body hp (by rw [hv, ht]))
  refine ⟨fun hb => trap (by rw [hc, if_pos hb]), fun hn => ?_⟩
  have hn : ¬∃ r ∈ (usesOf i).all, r.beyond T = true := fun ⟨r, hr, hb⟩ => by simp [hn r hr] at hb
  refine ⟨fun hp => trap (by rw [hc, if_neg hn, if_pos hp]), fun hpo => ?_⟩
  have hpo : ¬∃ p ∈ (usesOf i).reads, p.1.state T T.swept = .poisoned := fun ⟨p, hp, he⟩ => hpo p hp he
  refine ⟨fun ht => trap (by rw [hc, if_neg hn, if_neg hpo, if_pos ht]), fun ht hw => ?_⟩
  have ht : ¬∃ p ∈ (usesOf i).reads, p.2 = true ∧ p.1.state T T.swept = .empty := fun ⟨p, hp, hb, he⟩ => ht p hp hb he
  exact (hb s).trans (issue_of_regWait h body hp (by rw [hv, hc, if_neg hn, if_neg hpo, if_neg ht, if_pos hw]))

/-- Settles O42: a fresh instruction passes the gate's checks in their order, each the last to say anything. -/
theorem checksBeforeIssue : Obligations.ChecksBeforeIssue := by
  unfold Obligations.ChecksBeforeIssue
  refine ⟨fun s k T i hg h hp hv => ?_, fun s k T tile h => ?_, fun s k T f h hr => ?_, fun s k T f h hr hc => ?_,
    fun s b x m f hcur hb hx hh he hp hw => ?_⟩
  · obtain ⟨hbeyond, hrest⟩ := gated_checks hg h hp hv
    refine ⟨hbeyond, fun hn => ?_⟩
    obtain ⟨hpoison, hrest⟩ := hrest hn
    refine ⟨hpoison, fun hpo => ?_⟩
    obtain ⟨htbit, hwaits⟩ := hrest hpo
    refine ⟨htbit, fun ht hw => ⟨fun ho => ?_, fun es hes hne => ?_⟩⟩
    · exact (hwaits ht hw).trans (await_of_not_owesTraps ho)
    · subst hes
      exact (hwaits ht hw).trans (await_of_waitedEntries hne)
  · show s.issueS _ _ = _
    rw [State.issueS, h.cur]
    exact issueTeam_of_placeTrap h _ rfl
  · show s.issue _ _ = _
    rw [State.issue, h.cur]
    exact issueTeam_of_placeTrap h _ (placeTrap_of_copyRole rfl hr rfl)
  · show s.issue _ _ = _
    rw [State.issue, h.cur]
    exact issueTeam_of_placeTrap h _ (placeTrap_of_cover rfl hr hc rfl)
  · show s.issue _ _ = _
    simp [State.issue, hcur, State.issueStream, hb, hx, streamMayIssue, hh, he, hp, hw]

end Sys2Proof.Machine
end

section
/-! SUPPORT. What a return leaves in a team's registers (R41, R45): the lanes of one mask word that landed, their tags, and the
flags of the destination in that word. -/

namespace Sys2Proof.Machine

open Sys2Proof.Claims

/-! ### Reading what a pass over a list has left -/

section
variable {σ α β ν : Type} {f : σ → α → σ} {read : σ → β}

/-- A pass none of whose steps touches what is read. -/
theorem read_foldl_of_untouched {l : List α} (h : ∀ a ∈ l, ∀ s, read (f s a) = read s) (s : σ) : read (l.foldl f s) = read s := by
  induction l generalizing s with
  | nil => rfl
  | cons a l ih =>
    rw [List.foldl_cons, ih fun b hb => h b (List.mem_cons_of_mem a hb)]
    exact h a List.mem_cons_self s

/-- A pass of which one step alone, told by its key, touches what is read. -/
theorem read_foldl_of_mem {key : α → ν} {l : List α} {a : α} {v : β} (ha : a ∈ l) (hl : (l.map key).Nodup)
    (hv : ∀ s, read (f s a) = v) (ho : ∀ b, key b ≠ key a → ∀ s, read (f s b) = read s) (s : σ) : read (l.foldl f s) = v := by
  induction l generalizing s with
  | nil => cases ha
  | cons b l ih =>
    obtain ⟨hb, hl⟩ := List.nodup_cons.mp hl
    rcases List.mem_cons.mp ha with rfl | ha
    · have hrest := read_foldl_of_untouched (f := f) (read := read) (l := l)
        (fun c hc => ho c fun e => hb (e ▸ List.mem_map_of_mem hc))
      rw [List.foldl_cons, hrest, hv]
    · exact ih ha hl _

end

/-! ### One write -/

theorem tagOf_setTag (r : Regs) (i n j m : Nat) (g : Option Tag) (hn : n < 512) (hm : m < 512) :
    (r.setTag i n g).tagOf j m = if j = i ∧ m = n then g else r.tagOf j m := by
  simp only [Regs.tagOf, Regs.setTag, Sparse.get_set, laneKey_inj hm hn]

@[simp] theorem tagOf_setWord (r : Regs) (i n : Nat) (x : Word) (j m : Nat) : (r.setWord i n x).tagOf j m = r.tagOf j m := rfl
@[simp] theorem tagOf_setVflag (r : Regs) (v w : Nat) (f : Flag) (j m : Nat) : (r.setVflag v w f).tagOf j m = r.tagOf j m := rfl
@[simp] theorem vflag_setTag (r : Regs) (i n : Nat) (g : Option Tag) (v w : Nat) : (r.setTag i n g).vflag v w = r.vflag v w := rfl

/-! ### One lane's registers of a destination -/

theorem word_putDst {r : Regs} {i b m j c : Nat} {x : BitVec 128} (hb : b + c ≤ 512) (hm : m < 512) :
    (r.putDst i b x c).word j m =
      if j = i ∧ b ≤ m ∧ m < b + c then (x >>> (32 * (m - b))).setWidth 32 else r.word j m := by
  induction c generalizing r b x with
  | zero => rw [Regs.putDst, if_neg (by omega)]
  | succ c ih =>
    rw [Regs.putDst, ih (by omega), word_setTag, word_setWord _ _ _ _ _ _ (by omega) hm]
    by_cases hj : j = i
    · by_cases hmb : m = b
      · simp [hj, hmb]
      · by_cases hin : b + 1 ≤ m ∧ m < b + 1 + c
        · have hsh : 32 + 32 * (m - (b + 1)) = 32 * (m - b) := by omega
          rw [if_pos ⟨hj, hin⟩, if_pos (by omega), ← BitVec.shiftRight_add, hsh]
        · rw [if_neg (by omega), if_neg (by omega), if_neg (by omega)]
    · simp [hj]

theorem tagOf_putDst {r : Regs} {i b m j c : Nat} {x : BitVec 128} (hb : b + c ≤ 512) (hm : m < 512) :
    (r.putDst i b x c).tagOf j m = if j = i ∧ b ≤ m ∧ m < b + c then none else r.tagOf j m := by
  induction c generalizing r b x with
  | zero => rw [Regs.putDst, if_neg (by omega)]
  | succ c ih =>
    rw [Regs.putDst, ih (by omega), tagOf_setTag _ _ _ _ _ _ (by omega) hm, tagOf_setWord, ← ite_or]
    exact if_congr (by omega) rfl rfl

theorem putDst_rest {r : Regs} {i b c : Nat} {x : BitVec 128} : ∃ l g, r.putDst i b x c = { r with lane := l, tag := g } := by
  induction c generalizing r b x with
  | zero => exact ⟨_, _, rfl⟩
  | succ c ih => obtain ⟨l, g, h⟩ := ih (r := _); exact ⟨l, g, h⟩

/-! ### The flags of a destination -/

theorem vflag_setDstFlag {r : Regs} {b w c v x : Nat} {f : Flag} (hw : w < 32) (hx : x < 32) :
    (r.setDstFlag b w f c).vflag v x = if b ≤ v ∧ v < b + c ∧ x = w then f else r.vflag v x := by
  induction c generalizing r b with
  | zero => rw [Regs.setDstFlag, if_neg (by omega)]
  | succ c ih =>
    rw [Regs.setDstFlag, ih, vflag_setVflag _ _ _ _ _ _ hw hx, ← ite_or]
    exact if_congr (by omega) rfl rfl

theorem setDstFlag_rest {r : Regs} {b w c : Nat} {f : Flag} : ∃ g, r.setDstFlag b w f c = { r with flag := g } := by
  induction c generalizing r b with
  | zero => exact ⟨_, rfl⟩
  | succ c ih => obtain ⟨g, h⟩ := ih (r := _); exact ⟨g, h⟩

/-! ### The lanes of one mask word -/

/-- One element's part in the return of a mask word. -/
def Regs.putElem (kind : ReqKind) (b c w : Nat) (r : Regs) (e : Elem) : Regs :=
  if e.lane / 32 = w && e.st == .done then r.putDst e.lane b (kind.extend e.got) c else r

theorem putWord_eq_foldl {kind : ReqKind} {b c w : Nat} {es : List Elem} {r : Regs} :
    r.putWord kind b c w es = es.foldl (Regs.putElem kind b c w) r := by
  induction es generalizing r with
  | nil => rfl
  | cons e es ih => exact ih

section
variable {kind : ReqKind} {b c w n m : Nat} {es : List Elem} {r : Regs} {e : Elem}

theorem word_putElem (hb : b + c ≤ 512) (hm : m < 512) : (Regs.putElem kind b c w r e).word n m =
    if (e.lane / 32 = w ∧ e.st = .done) ∧ n = e.lane ∧ b ≤ m ∧ m < b + c then (kind.extend e.got >>> (32 * (m - b))).setWidth 32
    else r.word n m := by
  by_cases h : e.lane / 32 = w ∧ e.st = .done
  · simp [Regs.putElem, h, word_putDst hb hm]
  · simp [Regs.putElem, h]

theorem tagOf_putElem (hb : b + c ≤ 512) (hm : m < 512) : (Regs.putElem kind b c w r e).tagOf n m =
    if (e.lane / 32 = w ∧ e.st = .done) ∧ n = e.lane ∧ b ≤ m ∧ m < b + c then none else r.tagOf n m := by
  by_cases h : e.lane / 32 = w ∧ e.st = .done
  · simp [Regs.putElem, h, tagOf_putDst hb hm]
  · simp [Regs.putElem, h]

/-- A lane that landed holds its element's value. -/
theorem word_putWord_of_done {j : Nat} (hb : b + c ≤ 512) (he : e ∈ es) (hl : (es.map Elem.lane).Nodup) (hw : e.lane / 32 = w)
    (hd : e.st = .done) (hj : j < c) :
    (r.putWord kind b c w es).word e.lane (b + j) = (kind.extend e.got >>> (32 * j)).setWidth 32 := by
  rw [putWord_eq_foldl]
  refine read_foldl_of_mem (read := fun r => Regs.word r e.lane (b + j)) he hl (fun r => ?_) (fun d hd r => ?_) r
  · rw [word_putElem hb (by omega), if_pos ⟨⟨hw, hd⟩, rfl, by omega⟩, Nat.add_sub_cancel_left]
  · rw [word_putElem hb (by omega), if_neg fun h => hd h.2.1.symm]

theorem tagOf_putWord_of_done {j : Nat} (hb : b + c ≤ 512) (he : e ∈ es) (hl : (es.map Elem.lane).Nodup) (hw : e.lane / 32 = w)
    (hd : e.st = .done) (hj : j < c) : (r.putWord kind b c w es).tagOf e.lane (b + j) = none := by
  rw [putWord_eq_foldl]
  refine read_foldl_of_mem (read := fun r => Regs.tagOf r e.lane (b + j)) he hl (fun r => ?_) (fun d hd r => ?_) r
  · rw [tagOf_putElem hb (by omega), if_pos ⟨⟨hw, hd⟩, rfl, by omega⟩]
  · rw [tagOf_putElem hb (by omega), if_neg fun h => hd h.2.1.symm]

/-- Every other register of every lane is as before. -/
theorem word_putWord_of_not (hb : b + c ≤ 512) (hm : m < 512)
    (h : ¬(n / 32 = w ∧ b ≤ m ∧ m < b + c ∧ ∃ e ∈ es, e.lane = n ∧ e.st = .done)) :
    (r.putWord kind b c w es).word n m = r.word n m := by
  rw [putWord_eq_foldl]
  refine read_foldl_of_untouched (read := fun r => Regs.word r n m) (fun e he r => ?_) r
  rw [word_putElem hb hm, if_neg]
  rintro ⟨⟨hw, hd⟩, rfl, hlo, hhi⟩
  exact h ⟨hw, hlo, hhi, e, he, rfl, hd⟩

theorem tagOf_putWord_of_not (hb : b + c ≤ 512) (hm : m < 512)
    (h : ¬(n / 32 = w ∧ b ≤ m ∧ m < b + c ∧ ∃ e ∈ es, e.lane = n)) :
    (r.putWord kind b c w es).tagOf n m = r.tagOf n m := by
  rw [putWord_eq_foldl]
  refine read_foldl_of_untouched (read := fun r => Regs.tagOf r n m) (fun e he r => ?_) r
  rw [tagOf_putElem hb hm, if_neg]
  rintro ⟨⟨hw, -⟩, rfl, hlo, hhi⟩
  exact h ⟨hw, hlo, hhi, e, he, rfl⟩

theorem putWord_rest : ∃ l g, r.putWord kind b c w es = { r with lane := l, tag := g } := by
  induction es generalizing r with
  | nil => exact ⟨_, _, rfl⟩
  | cons e es ih =>
    obtain ⟨l, g, h⟩ : ∃ l g, Regs.putElem kind b c w r e = { r with lane := l, tag := g } := by
      unfold Regs.putElem
      split
      · exact putDst_rest
      · exact ⟨_, _, rfl⟩
    obtain ⟨l', g', h'⟩ := ih (r := Regs.putElem kind b c w r e)
    exact ⟨l', g', h'.trans (by rw [h])⟩

end

/-! ### The tags of an arld's inputs (R312, R313) -/

/-- The tag that an element of an arld gives its lane's register: that of its input, where the lane's region is not doomed. -/
def Team.inputTag (t : Team) (w : Nat) (e : Elem) : Bool :=
  e.lane / 32 == w && e.exp != 0 && ((t.regionOf e.lane).map (fun g => g.doom.isNone)).getD false

/-- One element's part in the tagging. -/
def Team.tagElem (t : Team) (v w : Nat) (r : Regs) (e : Elem) : Regs :=
  if t.inputTag w e then r.setTag e.lane v (some (.val (Fin.ofNat 4 (e.exp.toNat - 1)) 0)) else r

theorem tagInputs_eq_foldl {v w : Nat} {es : List Elem} {t : Team} :
    t.tagInputs v w es = { t with regs := es.foldl (t.tagElem v w) t.regs } := by
  induction es generalizing t with
  | nil => rfl
  | cons e es ih =>
    rw [Team.tagInputs, ih, List.foldl_cons, Team.tagElem]
    cases h : t.inputTag w e <;> simp only [Team.inputTag] at h <;> simp only [h] <;> rfl

theorem tagOf_tagElem {t : Team} {v w n m : Nat} {r : Regs} {e : Elem} (hv : v < 512) (hm : m < 512) :
    (t.tagElem v w r e).tagOf n m = if t.inputTag w e = true ∧ n = e.lane ∧ m = v then
      some (.val (Fin.ofNat 4 (e.exp.toNat - 1)) 0) else r.tagOf n m := by
  cases h : t.inputTag w e <;> simp [Team.tagElem, h, tagOf_setTag _ _ _ _ _ _ hv hm]

section
variable {t : Team} {v w n m : Nat} {es : List Elem} {r : Regs} {e : Elem}

theorem tagElem_rest : ∃ g, t.tagElem v w r e = { r with tag := g } := by
  unfold Team.tagElem
  split <;> exact ⟨_, rfl⟩

theorem tagElems_rest : ∃ g, es.foldl (t.tagElem v w) r = { r with tag := g } := by
  induction es generalizing r with
  | nil => exact ⟨_, rfl⟩
  | cons e es ih =>
    obtain ⟨g, h⟩ := tagElem_rest (t := t) (v := v) (w := w) (r := r) (e := e)
    obtain ⟨g', h'⟩ := ih (r := t.tagElem v w r e)
    exact ⟨g', h'.trans (by rw [h])⟩

/-- A lane with an element of the word has its input's tag, or the tag it had. -/
theorem tagOf_tagElems_of_mem (hv : v < 512) (he : e ∈ es) (hl : (es.map Elem.lane).Nodup) :
    (es.foldl (t.tagElem v w) r).tagOf e.lane v =
      if t.inputTag w e = true then some (.val (Fin.ofNat 4 (e.exp.toNat - 1)) 0) else r.tagOf e.lane v := by
  have other (d : Elem) (hd : d.lane ≠ e.lane) (r : Regs) : (t.tagElem v w r d).tagOf e.lane v = r.tagOf e.lane v := by
    rw [tagOf_tagElem hv hv, if_neg fun h => hd h.2.1.symm]
  split
  case isTrue h =>
    refine read_foldl_of_mem (read := fun r => Regs.tagOf r e.lane v) he hl (fun r => ?_) other r
    rw [tagOf_tagElem hv hv, if_pos ⟨h, rfl, rfl⟩]
  case isFalse h =>
    refine read_foldl_of_untouched (read := fun r => Regs.tagOf r e.lane v) (fun d hd r => ?_) r
    by_cases hde : d.lane = e.lane
    · obtain rfl : d = e := List.inj_on_of_nodup_map hl hd he hde
      rw [tagOf_tagElem hv hv, if_neg fun h' => h h'.1]
    · exact other d hde r

theorem tagOf_tagElems_of_not (hv : v < 512) (hm : m < 512) (h : ¬(n / 32 = w ∧ m = v ∧ ∃ e ∈ es, e.lane = n)) :
    (es.foldl (t.tagElem v w) r).tagOf n m = r.tagOf n m := by
  refine read_foldl_of_untouched (read := fun r => Regs.tagOf r n m) (fun e he r => ?_) r
  rw [tagOf_tagElem hv hm, if_neg]
  rintro ⟨hi, rfl, hmv⟩
  have hw : e.lane / 32 = w := by
    simp only [Team.inputTag, Bool.and_eq_true, beq_iff_eq] at hi
    exact hi.1.1
  exact h ⟨hw, hmv, e, he, rfl⟩

end

/-! ### The return of a mask word -/

/-- The flag that a mask word's return leaves. -/
def Req.returnFlag (r : Req) (w : Nat) : Flag := if (r.inWord w).any (fun e => e.st == .poisoned) then .poisoned else .full

/-- The registers after a mask word's return, without the tags of an arld's inputs. -/
def Req.returnRegs (r : Req) (b c w : Nat) (u : Regs) : Regs :=
  (u.putWord r.kind b c w r.elems).setDstFlag b w (r.returnFlag w) c

/-- The registers after a mask word's return. -/
def Team.returned (t : Team) (r : Req) (b c w : Nat) : Regs :=
  if r.arld then r.elems.foldl (t.tagElem b w) (r.returnRegs b c w t.regs) else r.returnRegs b c w t.regs

/-- A request that is tidied is left, or gone where nothing of it is left. -/
theorem tidy_reqs (s : State) (n : Nat) : ∃ q, s.tidy n = { s with reqs := q } ∧
    (∀ j, j ≠ n → q.get? j = s.reqs.get? j) ∧
    ∀ r, s.reqs.get? n = some r → q.get? n = some r ∨ q.get? n = none ∧ r.idle = true := by
  unfold State.tidy
  split
  case h_1 r hr =>
    split
    case isTrue hi =>
      refine ⟨_, rfl, fun j hj => Table.get?_del_ne _ hj, fun r' hr' => .inr ⟨Table.get?_del_same _ _, ?_⟩⟩
      exact Option.some.inj (hr.symm.trans hr') ▸ hi
    case isFalse => exact ⟨_, rfl, fun _ _ => rfl, fun r' hr' => .inl hr'⟩
  case h_2 => exact ⟨_, rfl, fun _ _ => rfl, fun r' hr' => .inl hr'⟩

/-- What a return does to its state: the team's registers, and the request's words. -/
theorem exec_producerReturn_v {s : State} {id w b c : Nat} {r : Req} (hr : s.reqs.get? id = some r) (hw : w ∈ r.words)
    (hset : ∀ e ∈ r.elems, e.lane / 32 = w → e.settled = true) (hs : s.returns r = true) (hd : r.dst = .v b c) :
    exec (.producerReturn id w) s = .next (State.tidy
      { s.modTeam r.team (fun t => { t with regs := t.returned r b c w }) with
        reqs := s.reqs.put id { r with words := r.words.erase w } } id) := by
  have hin : (r.inWord w).all Elem.settled = true :=
    List.all_eq_true.mpr fun e he => by
      obtain ⟨he, hew⟩ := List.mem_filter.mp he
      exact hset e he (by simpa using hew)
  have hput : (fun t : Team => if r.arld then (t.returnWord r w).tagInputs b w r.elems else t.returnWord r w) =
      fun t => { t with regs := t.returned r b c w } := by
    funext t
    cases ha : r.arld <;> simp only [Team.returned, Team.returnWord, hd, ha, tagInputs_eq_foldl] <;> rfl
  show execProducerReturn id w s = _
  simp [execProducerReturn, hr, hw, hin, hs, hd, hput]

section
variable {t : Team} {r : Req} {b c w n m v x : Nat} {u : Regs}

theorem returnFlag_eq : r.returnFlag w = if ∃ e ∈ r.elems, e.lane / 32 = w ∧ e.st = .poisoned then .poisoned else .full :=
  if_congr (by simp [Req.inWord]) rfl rfl

/-- The tags of an arld's inputs are all that an arld's return adds. -/
theorem returned_eq : ∃ g, t.returned r b c w = { r.returnRegs b c w t.regs with tag := g } := by
  unfold Team.returned
  split
  · exact tagElems_rest
  · exact ⟨_, rfl⟩

theorem returnRegs_rest : ∃ l f g, r.returnRegs b c w u = { u with lane := l, flag := f, tag := g } := by
  obtain ⟨l, g, hp⟩ := putWord_rest (kind := r.kind) (b := b) (c := c) (w := w) (es := r.elems) (r := u)
  obtain ⟨f, hf⟩ := setDstFlag_rest (r := u.putWord r.kind b c w r.elems) (b := b) (w := w) (c := c) (f := r.returnFlag w)
  exact ⟨l, f, g, by rw [Req.returnRegs, hf, hp]⟩

theorem returned_rest : ∃ l f g, t.returned r b c w = { t.regs with lane := l, flag := f, tag := g } := by
  obtain ⟨g, h⟩ := returned_eq (t := t) (r := r) (b := b) (c := c) (w := w)
  obtain ⟨l, f, g', h'⟩ := returnRegs_rest (r := r) (b := b) (c := c) (w := w) (u := t.regs)
  exact ⟨l, f, g, by rw [h, h']⟩

/-- Setting the flags of a return changes no value and no tag. -/
theorem returnRegs_lane : (r.returnRegs b c w u).lane = (u.putWord r.kind b c w r.elems).lane ∧
    (r.returnRegs b c w u).tag = (u.putWord r.kind b c w r.elems).tag := by
  obtain ⟨f, hf⟩ := setDstFlag_rest (r := u.putWord r.kind b c w r.elems) (b := b) (w := w) (c := c) (f := r.returnFlag w)
  rw [Req.returnRegs, hf]
  exact ⟨rfl, rfl⟩

theorem word_returned : (t.returned r b c w).word n m = (t.regs.putWord r.kind b c w r.elems).word n m := by
  obtain ⟨g, h⟩ := returned_eq (t := t) (r := r) (b := b) (c := c) (w := w)
  simp only [Regs.word, h, returnRegs_lane]

theorem vflag_returned (hw : w < 32) (hx : x < 32) : (t.returned r b c w).vflag v x =
    if b ≤ v ∧ v < b + c ∧ x = w then r.returnFlag w else t.regs.vflag v x := by
  obtain ⟨g, h⟩ := returned_eq (t := t) (r := r) (b := b) (c := c) (w := w)
  obtain ⟨l, g', hp⟩ := putWord_rest (kind := r.kind) (b := b) (c := c) (w := w) (es := r.elems) (r := t.regs)
  calc (t.returned r b c w).vflag v x
      = (r.returnRegs b c w t.regs).vflag v x := by rw [h]; rfl
    _ = if b ≤ v ∧ v < b + c ∧ x = w then r.returnFlag w else (t.regs.putWord r.kind b c w r.elems).vflag v x :=
        vflag_setDstFlag hw hx
    _ = _ := by rw [hp]; rfl

/-- The tag of a lane's register that the return does not name. -/
theorem tagOf_returned_of_not (hr : Returning r c) (hb : b + c ≤ 512) (hm : m < 512)
    (h : ¬(n / 32 = w ∧ b ≤ m ∧ m < b + c ∧ ∃ e ∈ r.elems, e.lane = n)) :
    (t.returned r b c w).tagOf n m = t.regs.tagOf n m := by
  have hdata : (r.returnRegs b c w t.regs).tagOf n m = t.regs.tagOf n m := by
    rw [Regs.tagOf, returnRegs_lane.2]
    exact tagOf_putWord_of_not hb hm h
  rcases hr with ⟨size, sg, -, ha⟩ | ⟨-, ha, rfl⟩
  · simpa [Team.returned, ha] using hdata
  · simp only [Team.returned, ha, if_true]
    rw [tagOf_tagElems_of_not (by omega) hm fun ⟨hw, hv, he⟩ => h ⟨hw, by omega, by omega, he⟩, hdata]

/-- The tag of a lane that landed. -/
theorem tagOf_returned_of_done {e : Elem} {j : Nat} (hr : Returning r c) (hb : b + c ≤ 512) (he : e ∈ r.elems)
    (hl : (r.elems.map Elem.lane).Nodup) (hw : e.lane / 32 = w) (hd : e.st = .done) (hj : j < c) :
    (t.returned r b c w).tagOf e.lane (b + j) = returnTag r t e := by
  have hdata : (r.returnRegs b c w t.regs).tagOf e.lane (b + j) = none := by
    rw [Regs.tagOf, returnRegs_lane.2]
    exact tagOf_putWord_of_done hb he hl hw hd hj
  rcases hr with ⟨size, sg, -, ha⟩ | ⟨-, ha, rfl⟩
  · simpa [Team.returned, returnTag, ha] using hdata
  · obtain rfl : j = 0 := by omega
    have hi : t.inputTag w e = true ↔ e.exp ≠ 0 ∧ ∃ g, t.regionOf e.lane = some g ∧ g.doom = none := by
      cases hg : t.regionOf e.lane <;> simp [Team.inputTag, hw, hg]
    simp only [Team.returned, ha, if_true, Nat.add_zero, returnTag, true_and] at hdata ⊢
    rw [tagOf_tagElems_of_mem (by omega) he hl, hdata]
    exact if_congr hi rfl rfl

end

/-- Settles O8: the return writes the word's lanes one by one, each of them once, as its lanes are distinct. -/
theorem loadReturns : Obligations.LoadReturns := by
  unfold Obligations.LoadReturns
  rintro s id r _ T w b c hr rfl hT hret hd hb hw hword hl hset hs
  obtain ⟨q, hq, hother, hself⟩ := tidy_reqs
    { s.modTeam r.team (fun t => { t with regs := t.returned r b c w }) with
      reqs := s.reqs.put id { r with words := r.words.erase w } } id
  obtain ⟨l, f, g, hrest⟩ := returned_rest (t := T) (r := r) (b := b) (c := c) (w := w)
  refine ⟨_, { T with regs := T.returned r b c w }, exec_producerReturn_v hr hword hset hs hd, ?_⟩
  rw [hq]
  refine ⟨?_, rfl, rfl, ?_, ?_, ?_, by rw [hrest], by rw [hrest], by rw [hrest], ?_, ?_, ?_, ?_⟩
  · exact (team?_modTeam _ _ _).trans (by rw [hT]; rfl)
  · intro j hj
    exact team?_modTeam_ne _ _ hj
  · intro j hj
    exact (hother j hj).trans (Table.get?_put_ne _ _ hj)
  · exact hself _ (Table.get?_put_same _ _ _)
  · intro e he hew hst j hj
    exact ⟨word_returned.trans (word_putWord_of_done (by omega) he hl hew hst hj),
      tagOf_returned_of_done hret (by omega) he hl hew hst hj⟩
  · intro n m hm hn
    exact word_returned.trans (word_putWord_of_not (by omega) hm hn)
  · intro n m hm hn
    exact tagOf_returned_of_not hret (by omega) hm hn
  · intro v x hx
    exact (vflag_returned hw hx).trans (by rw [returnFlag_eq])

end Sys2Proof.Machine
end

section
/-! SUPPORT. Accesses of a whole team (R108) and of spill slots (R47, R110): the one request each leaves, and the slots. -/

namespace Sys2Proof.Machine

open Sys2Proof.Claims

/-- The state in which a ready team's instruction has its effect: its team has pinned what it reads. -/
abbrev State.issued (s : State) (k : Nat) (T : Team) (i : Instr) : State := s.setTeam k (T.pinned i)

/-! ### A request that cannot park -/

/-- A request of which something is left, of a kind that no entry is formed of, takes the next number. -/
theorem addReq_of_unqueued {s : State} {r : Req} (hi : r.idle = false) (hq : r.kind.queued = false) :
    s.addReq r = { s with nextId := s.nextId + 1, reqs := s.reqs.put s.nextId r } := by
  simp [State.addReq, hi, State.fresh, State.formEntry, hq]

section
variable {s s0 : State} {k : Nat} {T V : Team} {i : Instr} {body : Nat → Team → State → Effect}

/-- An instruction whose effect is one such request, made in a state `s0` that differs from its own in its team. -/
theorem exec_addReq {r : Req} (h : Ready s k T i) (hx : exec i s = s.issue i body) (hi : r.idle = false) (hq : r.kind.queued = false)
    (hb : body k (T.pinned i) (s.issued k T i) = .done (s0.addReq r)) (hV : s0.team? k = some V)
    (hn : s0.nextId = s.nextId) (hm : SameMemory s s0) :
    ∃ t, exec i s = .next t ∧ t.team? k = some (V.advance i.size) ∧ t.reqs.get? s.nextId = some r ∧ SameMemory s t := by
  refine ⟨(s0.addReq r).advance k i.size, by rw [hx, issue_of_ready h, hb]; rfl, ?_, ?_, ?_⟩
  · rw [addReq_of_unqueued hi hq, team?_advance]
    exact congrArg _ hV
  · rw [addReq_of_unqueued hi hq, ← hn]
    exact Table.get?_put_same _ _ _
  · rw [addReq_of_unqueued hi hq]
    exact hm

/-- An instruction whose effect is what it does to its team. -/
theorem exec_setTeam (h : Ready s k T i) (hx : exec i s = s.issue i body) (hb : body k (T.pinned i) (s.issued k T i) = .done s0)
    (hV : s0.team? k = some V) (hm : SameMemory s s0) :
    ∃ t, exec i s = .next t ∧ t.team? k = some (V.advance i.size) ∧ SameMemory s t := by
  refine ⟨s0.advance k i.size, by rw [hx, issue_of_ready h, hb]; rfl, ?_, hm⟩
  rw [team?_advance, hV]
  rfl

theorem sameMemory_setTeam : SameMemory s (s.setTeam k V) := ⟨fun _ => rfl, fun _ => rfl, fun _ => rfl⟩

end

/-! ### lds and sts -/

theorem frame_pinned (s : State) (k : Nat) (U t : Team) (i : Instr) : (s.setTeam k U).frame (t.pinned i) = s.frame t := by
  obtain ⟨g, h⟩ := pinned_eq t i
  rw [h]
  rfl

/-- The address of an access of the whole team (R106, R108). -/
def State.wholeCheck (s : State) (T : Team) (z : WD) (a : Opnd) (x : BitVec 21) : Except Byte NearLoc :=
  s.nearCheck (s.frame T) none ((s.uni T a).setWidth 32 + BitVec.ofInt 32 x.toInt) (bytesWD z)

theorem wdSize_eq (z : WD) : wdSize z = bytesWD z := by cases z <;> rfl

/-- It is checked in the state and for the team that the instruction found. -/
theorem wholeCheck_pinned {s : State} {k : Nat} {U T : Team} {i : Instr} {a : Opnd} {x : BitVec 21} {z : WD} {c : Except Byte NearLoc}
    (h : s.wholeCheck T z a x = c) :
    (s.setTeam k U).nearCheck ((s.setTeam k U).frame (T.pinned i)) none ((s.setTeam k U).uniAddr (T.pinned i) a x) (bytesWD z) = c := by
  rw [frame_pinned, State.uniAddr, uni_pinned]
  exact h

theorem uniReq_idle {k : Nat} {t : Team} {kind : ReqKind} {e : Word} {v : DWord} {d : Dst} : (uniReq k t kind e v d).idle = false := by
  simp [uniReq, Req.idle, Elem.settled]

theorem uniDst_of_none {d : Opnd} (h : d.sNum = none) : uniDst d = .none := by
  cases d <;> first | rfl | cases h

section
variable {s : State} {k : Nat} {T : Team} {z : WD}

theorem exec_lds_of_s {f : LdArgs} {q : Fin 192} {core off : Nat} {w : Bool} (h : Ready s k T (.lds z f)) (hd : f.d = .s q)
    (hc : s.wholeCheck T z f.a.op f.x = .ok (.spm core off w)) :
    ∃ t T' r e, exec (.lds z f) s = .next t ∧ t.team? k = some T' ∧ Past (.lds z f) T T' ∧
      (∀ m, T'.regs.sflg m = if m = q.val then .empty else T.regs.sflg m) ∧ T'.regs.lane = T.regs.lane ∧ T'.regs.sreg = T.regs.sreg ∧
      t.reqs.get? s.nextId = some r ∧ r.team = k ∧ r.kind = .lds core off (bytesWD z) ∧ r.dst = .s q ∧ r.words ≠ [] ∧
      r.elems = [e] ∧ e.st = .landing ∧ SameMemory s t := by
  obtain ⟨t, ht, hteam, hreq, hmem⟩ := exec_addReq
    (s0 := (s.issued k T (.lds z f)).setTeam k ((T.pinned (.lds z f)).markEmpty (.s q))) h rfl
    (uniReq_idle (kind := .lds core off (bytesWD z)) (d := .s q)) rfl
    (by simp only [wdSize_eq, wholeCheck_pinned hc, hd, uniDst]; rfl) (team?_setTeam _ _ _) rfl sameMemory_setTeam
  obtain ⟨g, hg⟩ := pinned_eq T (.lds z f)
  refine ⟨t, _, _, _, ht, hteam, ?_, fun m => ?_, ?_, ?_, hreq, rfl, rfl, rfl, by simp [uniReq], rfl, rfl, hmem⟩ <;> rw [hg]
  · rfl
  · exact sflg_setSflg _ _ _ _
  · rfl
  · rfl

theorem exec_lds_of_none {f : LdArgs} {l : NearLoc} (h : Ready s k T (.lds z f)) (hd : f.d.sNum = none)
    (hc : s.wholeCheck T z f.a.op f.x = .ok l) :
    ∃ t T', exec (.lds z f) s = .next t ∧ t.team? k = some T' ∧ Past (.lds z f) T T' ∧ T'.regs = T.regs ∧ SameMemory s t := by
  obtain ⟨t, ht, hteam, hmem⟩ := exec_setTeam (s0 := s.issued k T (.lds z f)) h rfl
    (by simp only [wdSize_eq, wholeCheck_pinned hc, uniDst_of_none hd]) (team?_setTeam _ _ _)
    sameMemory_setTeam
  obtain ⟨g, hg⟩ := pinned_eq T (.lds z f)
  refine ⟨t, _, ht, hteam, ?_, ?_, hmem⟩ <;> rw [hg] <;> rfl

theorem exec_sts {f : StArgs} {core off : Nat} {w : Bool} (h : Ready s k T (.sts z f))
    (hc : s.wholeCheck T z f.a.op f.x = .ok (.spm core off w)) :
    ∃ t T' r e, exec (.sts z f) s = .next t ∧ t.team? k = some T' ∧ Past (.sts z f) T T' ∧ T'.regs = T.regs ∧ SameMemory s t ∧
      t.reqs.get? s.nextId = some r ∧ r.team = k ∧ r.kind = .sts core off (bytesWD z) ∧ r.elems = [e] ∧ e.st = .landing ∧
      e.val = (s.uni T f.b.op).setWidth 128 := by
  obtain ⟨t, ht, hteam, hreq, hmem⟩ := exec_addReq (s0 := s.issued k T (.sts z f)) h rfl
    (uniReq_idle (kind := .sts core off (bytesWD z)) (d := .none)) rfl
    (by simp only [wdSize_eq, wholeCheck_pinned hc]; rfl) (team?_setTeam _ _ _) rfl sameMemory_setTeam
  obtain ⟨g, hg⟩ := pinned_eq T (.sts z f)
  refine ⟨t, _, _, _, ht, hteam, ?_, ?_, hmem, hreq, rfl, rfl, rfl, rfl, ?_⟩
  · rw [hg]; rfl
  · rw [hg]; rfl
  · exact congrArg (BitVec.setWidth 128) (uni_pinned _ _ _ _ _ _)

/-- A refused address is a precise trap. -/
theorem exec_lds_refused {f : LdArgs} {c : Byte} (h : Ready s k T (.lds z f)) (hc : s.wholeCheck T z f.a.op f.x = .error c) :
    ∃ tr : Trap, tr.code = c ∧ tr.mask = none ∧ exec (.lds z f) s = .next (s.takeTrap k 0 tr) :=
  ⟨{ code := c, addr := _ }, rfl, rfl, (issue_of_ready h _).trans (by simp only [wdSize_eq, wholeCheck_pinned hc]; rfl)⟩

theorem exec_sts_refused {f : StArgs} {c : Byte} (h : Ready s k T (.sts z f)) (hc : s.wholeCheck T z f.a.op f.x = .error c) :
    ∃ tr : Trap, tr.code = c ∧ tr.mask = none ∧ exec (.sts z f) s = .next (s.takeTrap k 0 tr) :=
  ⟨{ code := c, addr := _ }, rfl, rfl, (issue_of_ready h _).trans (by simp only [wdSize_eq, wholeCheck_pinned hc]; rfl)⟩

end

/-! ### Slots -/

theorem slotKey_inj {i j a b : Nat} (ha : a < 256) (hb : b < 256) : slotKey i a = slotKey j b ↔ i = j ∧ a = b := by
  unfold slotKey
  omega

theorem setSlots_eq_foldl {l : List (Nat × Word)} {t : Team} : t.setSlots l = l.foldl (fun t e => t.setSlot e.1 e.2) t := by
  induction l generalizing t with
  | nil => rfl
  | cons e l ih => exact ih

theorem setSlots_rest {l : List (Nat × Word)} {t : Team} : ∃ a b, t.setSlots l = { t with slots := a, slotPoison := b } := by
  induction l generalizing t with
  | nil => exact ⟨_, _, rfl⟩
  | cons e l ih => exact ih (t := t.setSlot e.1 e.2)

/-- A slot written once holds what was written. -/
theorem slots_setSlots_of_mem {l : List (Nat × Word)} {t : Team} {e : Nat × Word} (he : e ∈ l) (hl : (l.map Prod.fst).Nodup) :
    Sparse.get 0 (t.setSlots l).slots e.1 = e.2 := by
  rw [setSlots_eq_foldl]
  refine read_foldl_of_mem (read := fun t : Team => Sparse.get 0 t.slots e.1) he hl (fun t => ?_) (fun d hd t => ?_) t
  · simp [Team.setSlot, Sparse.get_set]
  · simp [Team.setSlot, Sparse.get_set, Ne.symm hd]

theorem slots_setSlots_of_not_mem {l : List (Nat × Word)} {t : Team} {a : Nat} (ha : ∀ e ∈ l, a ≠ e.1) :
    Sparse.get 0 (t.setSlots l).slots a = Sparse.get 0 t.slots a := by
  rw [setSlots_eq_foldl]
  refine read_foldl_of_untouched (read := fun t : Team => Sparse.get 0 t.slots a) (fun e he t => ?_) t
  simp [Team.setSlot, Sparse.get_set, ha e he]

/-! ### spl and fil -/

section
variable {s : State} {k : Nat} {T : Team}

theorem slotsOk_pinned {U : Team} {i : Instr} {a : Opnd} :
    (s.setTeam k U).slotsOk (T.pinned i) a = true ↔ ∀ n ∈ T.active, (s.word T n a).toNat < T.spill := by
  obtain ⟨g, hg⟩ := pinned_eq T i
  have hs : (T.pinned i).spill = T.spill := by rw [hg]
  simp [State.slotsOk, hs]

/-- The slots an spl writes, and their words. -/
def State.splWrites (s : State) (T : Team) (f : AB) : List (Nat × Word) :=
  T.active.map (fun n => (slotKey n (s.word T n f.a.op).toNat, s.word T n f.b.op))

/-- Lanes of distinct numbers have distinct slots, where the spill area fits the key. -/
theorem splWrites_nodup {f : AB} (h : ∀ n ∈ T.active, (s.word T n f.a.op).toNat < 256) : ((s.splWrites T f).map Prod.fst).Nodup := by
  rw [State.splWrites, List.map_map]
  exact (active_nodup T).map_on fun i hi j hj e => ((slotKey_inj (h i hi) (h j hj)).mp e).1

theorem exec_spl {f : AB} (h : Ready s k T (.spl f)) (hT : T.spill ≤ 256) (hs : ∀ n ∈ T.active, (s.word T n f.a.op).toNat < T.spill) :
    ∃ t T', exec (.spl f) s = .next t ∧ t.team? k = some T' ∧ Past (.spl f) T T' ∧ T'.regs = T.regs ∧ SameMemory s t ∧
      (∀ n ∈ T.active, Sparse.get 0 T'.slots (slotKey n (s.word T n f.a.op).toNat) = s.word T n f.b.op) ∧
      ∀ a, (∀ n ∈ T.active, a ≠ slotKey n (s.word T n f.a.op).toNat) → Sparse.get 0 T'.slots a = Sparse.get 0 T.slots a := by
  obtain ⟨t, ht, hteam, hmem⟩ := exec_setTeam 
    (s0 := (s.issued k T (.spl f)).setTeam k ((T.pinned (.spl f)).setSlots (s.splWrites T f))) h rfl
    (by simp [slotsOk_pinned.mpr hs, State.splWrites]) (team?_setTeam _ _ _) sameMemory_setTeam
  obtain ⟨g, hg⟩ := pinned_eq T (.spl f)
  obtain ⟨a, b, hset⟩ := setSlots_rest (l := s.splWrites T f) (t := T.pinned (.spl f))
  refine ⟨t, _, ht, hteam, ?_, ?_, hmem, fun n hn => ?_, fun a ha => ?_⟩
  · rw [hset, hg]; rfl
  · rw [hset, hg]; rfl
  · exact slots_setSlots_of_mem (e := (slotKey n (s.word T n f.a.op).toNat, s.word T n f.b.op)) (List.mem_map_of_mem hn)
      (splWrites_nodup fun n hn => by have := hs n hn; omega)
  · refine (slots_setSlots_of_not_mem fun e he => ?_).trans (by rw [hg])
    obtain ⟨n, hn, rfl⟩ := List.mem_map.mp he
    exact ha n hn

/-- The request of a fil: what its slots hold, poisoned where they are. -/
def State.filReq (s : State) (k : Nat) (T : Team) (f : DA) (v : Fin 256) : Req :=
  { team := k, gen := T.gen, kind := .fil, dst := .v v 1, words := T.swept, pc := T.ctl.pc
    elems := T.active.map (fun n =>
      let key := slotKey n (s.word T n f.a.op).toNat
      { lane := n, addr := BitVec.ofNat 64 key, got := (Sparse.get 0 T.slots key).setWidth 128
        st := if Sparse.get false T.slotPoison key then .poisoned else .done }) }

theorem filReq_idle {f : DA} {v : Fin 256} (h : T.amask ≠ 0) : (s.filReq k T f v).idle = false := by
  have hs : T.swept ≠ [] := sweep_ne_nil h
  simp [State.filReq, Req.idle, hs]

/-- It is the same in the state and for the team that the instruction has its effect in. -/
theorem filReq_pinned {i : Instr} {f : DA} {v : Fin 256} : (s.issued k T i).filReq k (T.pinned i) f v = s.filReq k T f v := by
  simp only [State.filReq, State.issued, word_pinned]
  obtain ⟨g, hg⟩ := pinned_eq T i
  rw [hg]
  rfl

/-- A destination of one register is emptied in the words swept. -/
theorem markEmpty_v_one {v : Nat} : T.markEmpty (.v v 1) = { T with regs := T.regs.setVflags v .empty T.swept } := rfl

theorem exec_fil_of_v {f : DA} {v : Fin 256} (h : Ready s k T (.fil f)) (hd : f.d = .v v)
    (hs : ∀ n ∈ T.active, (s.word T n f.a.op).toNat < T.spill) :
    ∃ t T' r, exec (.fil f) s = .next t ∧ t.team? k = some T' ∧ Past (.fil f) T T' ∧ Emptied T T' f.d 1 ∧ SameValues T T' ∧
      SameMemory s t ∧ t.reqs.get? s.nextId = some r ∧ r.dst = .v v 1 ∧ r.words = T.swept ∧
      r.elems.map (fun e => (e.lane, e.got)) =
        T.active.map (fun n => (n, (Sparse.get 0 T.slots (slotKey n (s.word T n f.a.op).toNat)).setWidth 128)) := by
  obtain ⟨t, ht, hteam, hreq, hmem⟩ := exec_addReq
    (s0 := (s.issued k T (.fil f)).setTeam k ((T.pinned (.fil f)).markEmpty (.v v 1))) (r := s.filReq k T f v) h rfl
    (filReq_idle h.active) rfl
    (by rw [← filReq_pinned (i := .fil f)]; simp only [slotsOk_pinned.mpr hs, hd, loadDst]; rfl)
    (team?_setTeam _ _ _) rfl sameMemory_setTeam
  obtain ⟨g, hg⟩ := pinned_eq T (.fil f)
  rw [hg, markEmpty_v_one] at hteam
  obtain ⟨hsreg, hsflag, hh⟩ := setVflags_rest v .empty T.swept T.regs
  refine ⟨t, _, _, ht, hteam, rfl, fun u w hw => ?_, ⟨fun n m => word_setVflags _ _ _ _ _ _, hsreg, hsflag, hh⟩, hmem, hreq, rfl, rfl, ?_⟩
  · rw [hd]
    exact (vflag_setVflags v .empty T.swept T.regs u w (swept_lt T) hw).trans (if_congr
      ⟨fun ⟨hu, hm⟩ => ⟨by omega, by omega, hm⟩, fun ⟨hlo, hhi, hm⟩ => ⟨by omega, hm⟩⟩ rfl rfl)
  · simp [State.filReq, Function.comp_def]

theorem exec_fil_of_not_v {f : DA} (h : Ready s k T (.fil f)) (hd : ∀ v, f.d ≠ .v v)
    (hs : ∀ n ∈ T.active, (s.word T n f.a.op).toNat < T.spill) :
    ∃ t T', exec (.fil f) s = .next t ∧ t.team? k = some T' ∧ Past (.fil f) T T' ∧ T'.regs = T.regs ∧ SameMemory s t := by
  have hdst : loadDst f.d 1 = .none := by
    unfold loadDst
    split
    · exact absurd ‹_› (hd _)
    · rfl
  obtain ⟨t, ht, hteam, hmem⟩ := exec_setTeam (s0 := s.issued k T (.fil f)) h rfl (by simp only [slotsOk_pinned.mpr hs, hdst]; rfl) (team?_setTeam _ _ _)
    sameMemory_setTeam
  obtain ⟨g, hg⟩ := pinned_eq T (.fil f)
  refine ⟨t, _, ht, hteam, ?_, ?_, hmem⟩ <;> rw [hg] <;> rfl

/-- A slot index at or beyond the spill area is a precise trap. -/
theorem exec_slots_refused {i : Instr} {a : Opnd} (hi : (∃ f, i = .spl f ∧ a = f.a.op) ∨ (∃ f, i = .fil f ∧ a = f.a.op))
    (h : Ready s k T i) (hs : ∃ n ∈ T.active, T.spill ≤ (s.word T n a).toNat) :
    exec i s = .next (s.takeTrap k 0 { code := 0x13 }) := by
  have hno (U : Team) : (s.setTeam k U).slotsOk (T.pinned i) a = false := by
    rw [Bool.eq_false_iff]
    intro hok
    obtain ⟨n, hn, hge⟩ := hs
    have := slotsOk_pinned.mp hok n hn
    omega
  rcases hi with ⟨f, rfl, rfl⟩ | ⟨f, rfl, rfl⟩
  · exact (issue_of_ready h _).trans (by simp only [hno]; rfl)
  · exact (issue_of_ready h _).trans (by simp only [hno]; rfl)

end

/-- Settles O10: each of the four leaves one request that cannot park, or writes its team's slots, or is a precise trap. -/
theorem uniformAccessesAndSpills : Obligations.UniformAccessesAndSpills := by
  unfold Obligations.UniformAccessesAndSpills
  exact ⟨⟨fun s k T z f core off w q => exec_lds_of_s, fun s k T z f l => exec_lds_of_none, fun s k T z f core off w => exec_sts,
    fun s k T z f c => exec_lds_refused, fun s k T z f c => exec_sts_refused⟩,
    fun s k T f => exec_spl, fun s k T f v => exec_fil_of_v, fun s k T f => exec_fil_of_not_v,
    fun s k T i a => exec_slots_refused⟩

end Sys2Proof.Machine
end

section
/-! SUPPORT. Placing blocks (R21, R35, R350): what a spawn puts in place, and when the distributor places. -/

namespace Sys2Proof.Machine

open Sys2Proof.Claims

variable {s : State} {w : Spawn} {b tenant : Nat} {c : PlaceChoice}

/-! ### A spawn -/

theorem fillParts_rest {p n : Nat} {img : List Byte} {cores : List Nat} :
    ∃ m q, s.fillParts p n img cores = { s with spm := m, spmPoison := q } := by
  induction cores generalizing s with
  | nil => exact ⟨_, _, rfl⟩
  | cons core r ih => obtain ⟨m, q, h⟩ := ih (s := _); exact ⟨m, q, h⟩

/-- A team below the next id stays as it was. -/
theorem startTeams_team?_lt {qs : List Nat} {t n j : Nat} (h : j < s.nextId) : (s.startTeams w b qs t n).team? j = s.team? j := by
  induction n generalizing s t with
  | zero => rfl
  | succ n ih =>
    refine (ih (Nat.lt_succ_of_lt h)).trans ?_
    exact Table.get?_put_ne _ _ (Nat.ne_of_lt h)

/-- The teams take the ids that follow, in order. -/
theorem startTeams_team? {qs : List Nat} {t n i : Nat} (h : i < n) :
    (s.startTeams w b qs t n).team? (s.nextId + i) = some (w.team b ((qs[(t + i) % w.span]?).getD 0) (t + i)) := by
  induction n generalizing s t i with
  | zero => omega
  | succ n ih =>
    cases i with
    | zero =>
      rw [Nat.add_zero, Nat.add_zero, State.startTeams]
      exact (startTeams_team?_lt (Nat.lt_succ_self s.nextId)).trans (Table.get?_put_same _ _ _)
    | succ i =>
      have hid : s.nextId + (i + 1) = s.nextId + 1 + i := by omega
      have ht : t + (i + 1) = t + 1 + i := by omega
      rw [hid, ht]
      exact ih (Nat.lt_of_succ_lt_succ h)

theorem startTeams_rest {qs : List Nat} {t n : Nat} : ∃ ts id, s.startTeams w b qs t n = { s with teams := ts, nextId := id } := by
  induction n generalizing s t with
  | zero => exact ⟨_, _, rfl⟩
  | succ n ih => obtain ⟨ts, id, h⟩ := ih (s := _) (t := t + 1); exact ⟨ts, id, h⟩

/-- Leasing changes the leases of teams alone. -/
theorem leaseTeams_team? {ks : List Nat} {j : Nat} {T : Team} (h : s.team? j = some T) :
    ∃ q, (s.leaseTeams ks).team? j = some { T with lease := q } := by
  induction ks generalizing s T with
  | nil => exact ⟨T.lease, h⟩
  | cons k r ih =>
    by_cases hk : j = k
    · subst hk
      exact ih (s := s.modTeam j _) (T := { T with lease := s.leaseFor T }) (by rw [team?_modTeam, h]; rfl)
    · exact ih (s := s.modTeam k _) (by rw [team?_modTeam_ne _ _ hk, h])

theorem leaseTeams_rest {ks : List Nat} : ∃ ts, s.leaseTeams ks = { s with teams := ts } := by
  induction ks generalizing s with
  | nil => exact ⟨_, rfl⟩
  | cons k r ih => obtain ⟨ts, h⟩ := ih (s := _); exact ⟨ts, h⟩

/-- The block that a spawn puts in place under an id. -/
def Spawn.block (w : Spawn) (c : PlaceChoice) (b : Nat) : Block :=
  { grid := w.grid, index := w.index, quarters := c.quarters, p := c.p, scratch := w.kernel.scratch, nteams := w.teams
    lanes := w.kernel.lanes, cls := w.cls, isHandler := w.hrec.isSome, age := b
    stream := w.stream.map (fun pc => { pc := pc, cls := w.cls }) }

/-- A spawn puts its block in place, starts its teams from the next id on, and leases their spill areas. -/
theorem spawn_eq : ∃ (s3 : State) (ks : List Nat), s.spawn tenant w c = (s3.startTeams w s.nextId c.quarters 0 w.teams).leaseTeams ks ∧
    s3.nextId = s.nextId + 1 ∧ s3.blocks = s.blocks.put s.nextId (w.block c s.nextId) := by
  obtain ⟨m, q, h⟩ := fillParts_rest (s := s.fresh.2) (p := c.p) (n := w.kernel.scratch)
    (img := s.fresh.2.sdata (clusterOf (c.quarters.headD 0)) tenant w.kernel) (cores := (c.quarters.map coreOf).eraseDups)
  unfold State.spawn
  dsimp only
  rw [h]
  exact ⟨_, _, rfl, rfl, rfl⟩

/-- The block takes the next id. -/
theorem spawn_block? : (s.spawn tenant w c).block? s.nextId = some (w.block c s.nextId) := by
  obtain ⟨s3, ks, h, -, hb⟩ := spawn_eq (s := s) (tenant := tenant) (w := w) (c := c)
  obtain ⟨ts, hl⟩ := leaseTeams_rest (s := s3.startTeams w s.nextId c.quarters 0 w.teams) (ks := ks)
  obtain ⟨ts', id, hs⟩ := startTeams_rest (s := s3) (w := w) (b := s.nextId) (qs := c.quarters) (t := 0) (n := w.teams)
  rw [h, hl, hs, State.block?, hb]
  exact Table.get?_put_same _ _ _

/-- Its teams take the ids after it, in order. -/
theorem spawn_team? {j : Nat} (hj : j < w.teams) : ∃ l, (s.spawn tenant w c).team? (s.nextId + 1 + j) =
    some { w.team s.nextId (c.quarters.getD (j % w.span) 0) j with lease := l } := by
  obtain ⟨s3, ks, h, hid, -⟩ := spawn_eq (s := s) (tenant := tenant) (w := w) (c := c)
  rw [h, ← hid]
  exact leaseTeams_team? (by simpa using startTeams_team? (t := 0) hj)

/-! ### One placement of a grid -/

section
variable {g : Nat} {x : Grid}

/-- What a grid's next placement by a choice leaves. -/
def State.placedNext (s : State) (g : Nat) (x : Grid) (c : PlaceChoice) : State :=
  let s1 := s.spawn x.tenant (x.launch.spawn g x.placed) c
  ((State.passGrids { s1 with draws := s1.draws + 1 } x.tenant x.launch.cls 1).setGrid g
    { x with placed := x.placed + 1, passed := 0 }).modTenant x.tenant (fun t => { t with lastQueue := some x.queue })

/-- A grid that is no gang places one block where the choice serves. -/
theorem placeGrid_of_placeOk (hg : x.launch.gang = false) (hp : s.placeOk x.tenant (x.launch.spawn g x.placed) c = true) :
    s.placeGrid g x c = some (s.placedNext g x c) := by
  simp [State.placeGrid, State.placeNext, Grid.batch, hg, hp, State.placedNext]

/-- It places none where the choice does not serve. -/
theorem placeGrid_of_not_placeOk (hg : x.launch.gang = false) (hp : s.placeOk x.tenant (x.launch.spawn g x.placed) c = false) :
    s.placeGrid g x c = none := by
  simp [State.placeGrid, State.placeNext, Grid.batch, hg, hp]

/-- The block, its teams and its grid after a placement. -/
theorem placedAt_placedNext : PlacedAt s g x c (s.placedNext g x c) := by
  refine ⟨Table.get?_put_same _ _ _, ⟨_, spawn_block?, rfl, rfl, rfl, rfl, rfl, rfl⟩, fun j hj => ?_⟩
  obtain ⟨l, hT⟩ := spawn_team? (s := s) (tenant := x.tenant) (w := x.launch.spawn g x.placed) (c := c) hj
  refine ⟨_, hT, rfl, rfl, rfl, rfl, rfl, rfl, rfl, rfl, fun _ _ => rfl, fun ha m => ?_, rfl, rfl, fun hr => ?_⟩
  · simp [Spawn.team, Launch.spawn, ha, argRegs, Regs.s, Sparse.get]
  · simp [Spawn.team, Launch.spawn, hr, teamRole, teamRole.go]

/-- A gang places all its blocks, or nothing. -/
theorem placeGrid_grid? {t : State} (hg : x.launch.gang = true) (hn : x.placed < x.launch.nblk) (h : s.placeGrid g x c = some t) :
    t.grid? g = some { x with placed := x.launch.nblk, passed := 0 } := by
  have hb : x.placed + x.batch = x.launch.nblk := by
    rw [Grid.batch, if_pos hg]
    omega
  unfold State.placeGrid at h
  split at h
  · cases h
  · obtain rfl := Option.some.inj h
    rw [hb]
    exact Table.get?_put_same _ _ _

/-! ### When the distributor places -/

theorem starvedGrid_eq_false_iff : s.starvedGrid tenant = false ↔ ∀ e ∈ s.heads tenant, e.2.passed < 64 := by
  simp [State.starvedGrid, Grid.starved]

theorem exec_blockPlace_of_turn (hx : s.grid? g = some x) (hp : s.placeable g x = true) (hs : s.starvedGrid x.tenant = false)
    (hn : s.nextGrid g x = true) : exec (.blockPlace g c) s = .next ((s.placeGrid g x c).getD s) := by
  show execBlockPlace g c s = _
  simp [execBlockPlace, hx, hp, hs, hn]

/-- Out of its turn a grid places nothing. -/
theorem exec_blockPlace_of_not_turn (hx : s.grid? g = some x)
    (h : s.placeable g x = false ∨ s.starvedGrid x.tenant = true ∨ s.nextGrid g x = false) : exec (.blockPlace g c) s = .next s := by
  show execBlockPlace g c s = _
  simp only [execBlockPlace, hx]
  exact if_pos (by simpa [or_assoc] using h)

/-- In either case a placement by the choice is all that an instruction of the distributor can do. -/
theorem exec_blockPlace_cases (hx : s.grid? g = some x) :
    exec (.blockPlace g c) s = .next s ∨ exec (.blockPlace g c) s = .next ((s.placeGrid g x c).getD s) := by
  show execBlockPlace g c s = _ ∨ execBlockPlace g c s = _
  simp only [execBlockPlace, hx]
  split
  · exact .inl rfl
  · exact .inr rfl

theorem exec_distributorStarvation_cases (hx : s.grid? g = some x) : exec (.distributorStarvation g c) s = .next s ∨
    exec (.distributorStarvation g c) s = .next ((s.placeGrid g x c).getD s) := by
  show execDistributorStarvation g c s = _ ∨ execDistributorStarvation g c s = _
  simp only [execDistributorStarvation, hx]
  split
  · exact .inl rfl
  · exact .inr rfl

/-- The one starved grid of its tenant goes before every other. -/
theorem exec_distributorStarvation_of_first (hx : s.grid? g = some x) (hp : s.placeable g x = true) (hs : 64 ≤ x.passed)
    (hf : ∀ e ∈ s.heads x.tenant, 64 ≤ e.2.passed → e.1 = g) :
    exec (.distributorStarvation g c) s = .next ((s.placeGrid g x c).getD s) := by
  have hfirst : ((s.heads x.tenant).filter (fun e => e.2.starved)).all (fun e => e.1 == g || s.gridBefore (g, x) e) = true := by
    refine List.all_eq_true.mpr fun e he => ?_
    obtain ⟨he, hst⟩ := List.mem_filter.mp he
    simp [hf e he (of_decide_eq_true hst)]
  show execDistributorStarvation g c s = _
  simp only [execDistributorStarvation, hx, hp, hfirst]
  exact if_neg (by simpa [Grid.starved] using hs)

end

/-- Settles O45: the distributor's turn is told by its guards, and a placement is one spawn, or a gang's. -/
theorem blocksPlaced : Obligations.BlocksPlaced := by
  unfold Obligations.BlocksPlaced
  refine ⟨fun s g x c h hq hn hp => ?_, fun s g x c h hs hf hp => ?_, fun s g x c hx h => ?_, fun s g x c hx hg hp => ?_,
    fun s g x c hx hg hn => ?_⟩
  · refine ⟨_, ?_, placedAt_placedNext⟩
    rw [exec_blockPlace_of_turn h.grid h.next (starvedGrid_eq_false_iff.mpr hq) hn, placeGrid_of_placeOk h.single hp]
    rfl
  · refine ⟨_, ?_, placedAt_placedNext⟩
    rw [exec_distributorStarvation_of_first h.grid h.next hs hf, placeGrid_of_placeOk h.single hp]
    rfl
  · refine exec_blockPlace_of_not_turn hx ?_
    rcases h with ⟨e, he, hp⟩ | hn | hc
    · exact .inr (.inl (List.any_eq_true.mpr ⟨e, he, decide_eq_true hp⟩))
    · exact .inr (.inr hn)
    · exact .inl (by simp [State.placeable, hc])
  · have hnone := placeGrid_of_not_placeOk (s := s) (g := g) (c := c) hg hp
    constructor
    · rcases exec_blockPlace_cases (c := c) hx with h | h <;> simp [h, hnone]
    · rcases exec_distributorStarvation_cases (c := c) hx with h | h <;> simp [h, hnone]
  · rcases exec_blockPlace_cases (c := c) hx with h | h
    · exact .inl h
    · cases ht : s.placeGrid g x c with
      | none => exact .inl (by simp [h, ht])
      | some t => exact .inr ⟨t, by simp [h, ht], placeGrid_grid? hg hn ht⟩

end Sys2Proof.Machine
end

section
/-! SUPPORT. One round of a lane's commit (R321): the rules of the statement, and what the round computes. -/

namespace Sys2Proof.Machine

open Sys2Proof.Claims

/-! ### Conditions and values -/

theorem condHolds_iff {n : Nat} {c : Cond} {g : Sign} {a b : BitVec n} : condHolds c g a b = true ↔ holds c g a b := by
  cases c <;> cases g <;>
    simp [condHolds, holds, BitVec.slt, BitVec.sle, BitVec.ult, BitVec.ule, BitVec.toInt_inj, BitVec.toNat_inj]

theorem valueAt_eq (f : List Word) (k : Fin 4) : valueAt f k = inputOf f k := (List.getD_eq_getElem?_getD ..).symm

theorem recAddr_eq (f : List Word) (a : RecAddr) : recAddr f a = addrWith f a := by
  cases a with
  | direct g => rfl
  | indexed base sc k c =>
    apply BitVec.eq_of_toNat_eq
    have hlt : (inputOf f k + c).toNat < 2 ^ 64 := lt_trans (BitVec.isLt _) (by decide)
    simp [recAddr, addrWith, valueAt_eq, Nat.shiftLeft_eq]

theorem recWord_eq (f : List Word) (v : RecVal) : recWord f v = wordWith f v := by
  cases v with
  | word x => rfl
  | input k c => simp [recWord, wordWith, valueAt_eq]

/-! ### Translating a list of addresses -/

section
variable {s : State} {T : Team} {want : Want} {gs : List DWord} {pas : List Nat} {c : Byte}

/-- The addresses of a list, checked in order. -/
def State.checkAddrs (s : State) (T : Team) (want : Want) : List DWord → Except Byte (List Nat)
  | [] => .ok []
  | g :: r =>
    match s.gcheck T.cluster (s.tenantIdOf T) g 4 want with
    | .error c => .error c
    | .ok pa =>
      match State.checkAddrs s T want r with
      | .error c => .error c
      | .ok l => .ok (pa :: l)

theorem storeAddrs_eq : s.storeAddrs T gs = s.checkAddrs T (writing T) gs := by
  induction gs with
  | nil => rfl
  | cons g r ih => rw [State.storeAddrs, ih]; rfl

theorem inputAddrs_eq {is : List Input} : s.inputAddrs T is = s.checkAddrs T .read (is.map Input.addr) := by
  induction is with
  | nil => rfl
  | cons i r ih => rw [State.inputAddrs, ih]; rfl

theorem checkAddrs_of_translated (h : Translated s T want gs pas) : s.checkAddrs T want gs = .ok pas := by
  induction h with
  | nil => rfl
  | cons hg _ ih => simp [State.checkAddrs, hg, ih]

/-- The first refused address gives its code. -/
theorem checkAddrs_of_refused (h : CommitRefused s T want gs c) : s.checkAddrs T want gs = .error c := by
  obtain ⟨before, g, after, pas, rfl, hb, hg⟩ := h
  induction hb with
  | nil => simp [State.checkAddrs, hg]
  | cons hg' _ ih => simp [State.checkAddrs, hg', ih]

end

/-! ### The checks on fresh values -/

/-- The first item of a list that fails a test, found with its index. -/
theorem find?_range_zip_some {α : Type} {p : α → Bool} {l : List α} {m n : Nat} {a : α} (hm : l.length ≤ m) (ha : l[n]? = some a)
    (hp : p a = true) (hb : ∀ x ∈ l.take n, p x = false) : ((List.range m).zip l).find? (fun e => p e.2) = some (n, a) := by
  obtain ⟨hn, rfl⟩ := List.getElem?_eq_some_iff.mp ha
  refine List.find?_eq_some_iff_getElem.mpr ⟨hp, n, by simp; omega, by simp, fun j hj => ?_⟩
  have : l[j] ∈ l.take n := List.mem_take_iff_getElem.mpr ⟨j, by omega, rfl⟩
  simp [hb _ this]

theorem find?_range_zip_none {α : Type} {p : α → Bool} {l : List α} {m : Nat} (hb : ∀ x ∈ l, p x = false) :
    ((List.range m).zip l).find? (fun e => p e.2) = none :=
  List.find?_eq_none.mpr fun e he => by simp [hb e.2 (List.of_mem_zip he).2]

section
variable {r : Region} {f : List Word}

theorem inputKept_iff {i : Input} {x : Word} : InputKept i x ↔ (i.pinned && i.v != x) = false := by
  simp [InputKept]

theorem constrained_iff {j : Constraint} : Constrained j f ↔ (!j.ok f) = false := by
  unfold Constrained Constraint.ok
  rw [valueAt_eq]
  cases j.left <;> cases j.b <;> simp [← condHolds_iff]

/-- An indexed record. -/
def indexed : RecAddr → Bool
  | .indexed .. => true
  | .direct _ => false

theorem recordRange_iff {a : RecAddr} : RecordRange r f a ↔ (indexed a && !r.inRange (recAddr f a)) = false := by
  cases a <;> simp [RecordRange, IsIndexed, indexed, Region.inRange, recAddr_eq]

/-- The check of one record, and of those after it. -/
theorem recordFault_cons {a : RecAddr} {v : RecVal} {rest : List (RecAddr × RecVal)} {n : Nat} :
    r.recordFault f ((a, v) :: rest) n = if indexed a && !r.inRange (recAddr f a) then some (6, BitVec.ofNat 8 n)
      else if (addrWith f a).toNat % 4 ≠ 0 then some (4, 0x34) else r.recordFault f rest (n + 1) := by
  rw [← recAddr_eq]
  cases a <;> rfl

/-- A record that passes leaves the check to those after it. -/
theorem recordFault_of_fine {a : RecAddr} {v : RecVal} {rest : List (RecAddr × RecVal)} {n : Nat} (h : RecordFine r f a) :
    r.recordFault f ((a, v) :: rest) n = r.recordFault f rest (n + 1) := by
  obtain ⟨hr, ha⟩ := h
  simp [recordFault_cons, recordRange_iff.mp hr, ha]

theorem recordFault_of_not_range {a : RecAddr} {v : RecVal} {rest : List (RecAddr × RecVal)} {n : Nat} (h : ¬RecordRange r f a) :
    r.recordFault f ((a, v) :: rest) n = some (6, BitVec.ofNat 8 n) := by
  rw [recordRange_iff, Bool.not_eq_false] at h
  rw [recordFault_cons, if_pos h]

theorem recordFault_of_not_aligned {a : RecAddr} {v : RecVal} {rest : List (RecAddr × RecVal)} {n : Nat} (hr : RecordRange r f a)
    (ha : (addrWith f a).toNat % 4 ≠ 0) : r.recordFault f ((a, v) :: rest) n = some (4, 0x34) := by
  simp [recordFault_cons, recordRange_iff.mp hr, ha]

/-- Records that pass leave the check to the first that does not. -/
theorem recordFault_drop {es : List (RecAddr × RecVal)} {m n : Nat} (hn : n ≤ es.length) (h : ∀ e ∈ es.take n, RecordFine r f e.1) :
    r.recordFault f es m = r.recordFault f (es.drop n) (m + n) := by
  induction n generalizing es m with
  | zero => rfl
  | succ n ih =>
    cases es with
    | nil => simp at hn
    | cons e es =>
      rw [recordFault_of_fine (h e (by simp)), ih (by simpa using hn) (fun d hd => h d (by simp [hd])), List.drop_succ_cons]
      congr 1
      omega

/-- The fresh values pass every check. -/
theorem fault_of_sound (h : CommitSound r f) (hf : f.length = r.inputs.length) : r.fault f = none := by
  obtain ⟨hi, hc, hr⟩ := h
  have hz : (r.inputs.zip f).length = r.inputs.length := by simp [hf]
  rw [InputsTo, List.take_of_length_le hz.le] at hi
  rw [ConstraintsTo, List.take_of_length_le le_rfl] at hc
  unfold Region.fault
  rw [find?_range_zip_none (p := fun e : Input × Word => e.1.pinned && e.1.v != e.2) fun e he => inputKept_iff.mp (hi e he)]
  simp only
  rw [find?_range_zip_none (p := fun j : Constraint => !j.ok f) fun j hj => constrained_iff.mp (hc j hj)]
  simp only
  rw [recordFault_drop le_rfl hr, List.drop_length]
  rfl

/-- The first check that the fresh values fail gives the fault. -/
theorem fault_of_commitFault {c d : Byte} (h : CommitFault r f c d) (hf : f.length = r.inputs.length) : r.fault f = some (c, d) := by
  have hz : (r.inputs.zip f).length = r.inputs.length := by simp [hf]
  have inputs (hi : InputsTo r f r.inputs.length) : ((List.range r.inputs.length).zip (r.inputs.zip f)).find?
      (fun e => e.2.1.pinned && e.2.1.v != e.2.2) = none := by
    rw [InputsTo, List.take_of_length_le hz.le] at hi
    exact find?_range_zip_none (p := fun e : Input × Word => e.1.pinned && e.1.v != e.2) fun e he => inputKept_iff.mp (hi e he)
  have constraints (hc : ConstraintsTo r f r.constraints.length) : ((List.range r.constraints.length).zip r.constraints).find?
      (fun e => !e.2.ok f) = none := by
    rw [ConstraintsTo, List.take_of_length_le le_rfl] at hc
    exact find?_range_zip_none (p := fun j : Constraint => !j.ok f) fun j hj => constrained_iff.mp (hc j hj)
  have records {n : Nat} {e : RecAddr × RecVal} (he : r.records[n]? = some e) (hb : RecordsTo r f n) :
      r.recordFault f r.records 0 = r.recordFault f (e :: r.records.drop (n + 1)) n := by
    obtain ⟨hn, rfl⟩ := List.getElem?_eq_some_iff.mp he
    rw [recordFault_drop hn.le hb, Nat.zero_add, ← List.getElem_cons_drop hn]
  unfold Region.fault
  cases h with
  | pinned n i x hi hk hb =>
    rw [find?_range_zip_some (p := fun e : Input × Word => e.1.pinned && e.1.v != e.2) hz.le hi
      (by simpa [inputKept_iff] using hk) fun e he => inputKept_iff.mp (hb e he)]
  | constraint n j hi hj hk hb =>
    simp only [inputs hi]
    rw [find?_range_zip_some (p := fun j : Constraint => !j.ok f) le_rfl hj
      (by simpa [constrained_iff] using hk) fun e he => constrained_iff.mp (hb e he)]
  | range n e hi hc he hk hb =>
    simp only [inputs hi, constraints hc, records he hb]
    exact recordFault_of_not_range hk
  | align n e hi hc he hr ha hb =>
    simp only [inputs hi, constraints hc, records he hb]
    exact recordFault_of_not_aligned hr ha

end

/-! ### The round -/

section
variable {s : State} {T : Team} {r : Region}

/-- What a round comes to once it has its lines, and its inputs' addresses: its checks, in order. -/
def State.lockedRound (s : State) (T : Team) (r : Region) (second : Option (List Nat)) (ins locked : List Nat) : Commit :=
  if ins.any (fun pa => s.physPoisoned pa 4) then .abort 4 0xE0
  else match r.fault (wordsAt s ins) with
    | some e => .abort e.1 e.2
    | none =>
      match s.checkAddrs T (writing T) (storesWith r (wordsAt s ins)) with
      | .error c => .abort 4 c
      | .ok pas =>
        if pas.any (fun pa => !locked.contains (pa / 64)) then
          if second.isSome then .abort 8 0 else .again (pas.map (· / 64))
        else .write (pas.zip (r.records.map (fun e => wordWith (wordsAt s ins) e.2)))

section
variable {second : Option (List Nat)} {ins locked : List Nat}

theorem commitRound_of_locks (h : Locks s T r second ins locked) :
    s.commitRound T r second = s.lockedRound T r second ins locked := by
  unfold State.commitRound
  simp only [storeAddrs_eq, inputAddrs_eq, recAddr_eq, recWord_eq]
  cases h with
  | first ts ins ht hi =>
    have hts := checkAddrs_of_translated ht
    have hins := checkAddrs_of_translated hi
    simp only [storesWith, inputAddresses] at hts hins
    simp only [Option.isSome_none, Bool.false_eq_true, if_false, hts, hins]
    rfl
  | second ls ins hi =>
    have hins := checkAddrs_of_translated hi
    simp only [inputAddresses] at hins
    simp only [Option.isSome_some, if_true, hins]
    rfl

variable (hp : ∀ pa ∈ ins, s.physPoisoned pa 4 = false)
include hp

/-- Without an error in its inputs a round comes to the fault of their values, if there is one. -/
theorem lockedRound_of_fault {e : Byte × Byte} (he : r.fault (wordsAt s ins) = some e) :
    s.lockedRound T r second ins locked = .abort e.1 e.2 := by
  rw [State.lockedRound, if_neg (by simpa using hp), he]

theorem lockedRound_of_refused {c : Byte} (he : r.fault (wordsAt s ins) = none)
    (hc : CommitRefused s T (writing T) (storesWith r (wordsAt s ins)) c) : s.lockedRound T r second ins locked = .abort 4 c := by
  rw [State.lockedRound, if_neg (by simpa using hp), he]
  simp only [checkAddrs_of_refused hc]

theorem lockedRound_of_translated {pas : List Nat} (he : r.fault (wordsAt s ins) = none)
    (ht : Translated s T (writing T) (storesWith r (wordsAt s ins)) pas) : s.lockedRound T r second ins locked =
      if ∃ pa ∈ pas, pa / 64 ∉ locked then if second.isSome then .abort 8 0 else .again (pas.map (· / 64))
      else .write (pas.zip (r.records.map (fun e => wordWith (wordsAt s ins) e.2))) := by
  rw [State.lockedRound, if_neg (by simpa using hp), he]
  simp only [checkAddrs_of_translated ht]
  exact if_congr (by simp) rfl rfl

end

theorem inputs_length {second : Option (List Nat)} {ins locked : List Nat} (h : Locks s T r second ins locked) :
    (wordsAt s ins).length = r.inputs.length := by
  have hi : Translated s T .read (inputAddresses r) ins := by cases h <;> assumption
  simpa [wordsAt, inputAddresses] using hi.length_eq.symm

/-- A round comes to what the rules say. -/
theorem commitRound_of_rule {second : Option (List Nat)} {o : Commit} (h : CommitRule s T r second o) :
    s.commitRound T r second = o := by
  cases h with
  | store c h =>
    have hc := checkAddrs_of_refused h
    simp only [storesWith] at hc
    unfold State.commitRound
    simp only [storeAddrs_eq, recAddr_eq, Option.isSome_none, Bool.false_eq_true, if_false, hc]
  | input _ c hs hi =>
    have hc := checkAddrs_of_refused hi
    simp only [inputAddresses] at hc
    unfold State.commitRound
    simp only [storeAddrs_eq, inputAddrs_eq, recAddr_eq]
    cases second with
    | none =>
      obtain ⟨ts, ht⟩ := hs rfl
      have hts := checkAddrs_of_translated ht
      simp only [storesWith] at hts
      simp only [Option.isSome_none, Bool.false_eq_true, if_false, hts, hc]
    | some ls => simp only [Option.isSome_some, if_true, hc]
  | error _ ins locked hl hp =>
    rw [commitRound_of_locks hl, State.lockedRound, if_pos (List.any_eq_true.mpr hp)]
  | fault _ ins locked c d hl hp hf =>
    rw [commitRound_of_locks hl, lockedRound_of_fault hp (fault_of_commitFault hf (inputs_length hl))]
  | address _ ins locked c hl hp hs hc =>
    rw [commitRound_of_locks hl, lockedRound_of_refused hp (fault_of_sound hs (inputs_length hl)) hc]
  | again ins locked pas hl hp hs ht hn =>
    rw [commitRound_of_locks hl, lockedRound_of_translated hp (fault_of_sound hs (inputs_length hl)) ht, if_pos hn]
    rfl
  | unsettled ls ins locked pas hl hp hs ht hn =>
    rw [commitRound_of_locks hl, lockedRound_of_translated hp (fault_of_sound hs (inputs_length hl)) ht, if_pos hn]
    rfl
  | write _ ins locked pas hl hp hs ht hn =>
    rw [commitRound_of_locks hl, lockedRound_of_translated hp (fault_of_sound hs (inputs_length hl)) ht, if_neg]
    rintro ⟨pa, hpa, hnot⟩
    exact hnot (hn pa hpa)

end

end Sys2Proof.Machine
end

section
/-! SUPPORT. An arend and the event that settles its lanes (R43, R319, R320): what the event leaves while lanes are left, and what
with the last. -/

namespace Sys2Proof.Machine

open Sys2Proof.Claims

variable {s : State} {k : Nat} {T : Team}

/-! ### The writes of a commit -/

theorem writeWords_rest {ws : List (Nat × Word)} : ∃ d h p q, s.writeWords ws =
    { s with dram := d, host := h, dramPoison := p, hostPoison := q } := by
  induction ws generalizing s with
  | nil => exact ⟨_, _, _, _, rfl⟩
  | cons e r ih =>
    obtain ⟨pa, x⟩ := e
    obtain ⟨d', h', p', q', hw⟩ : ∃ d h p q, (s.physWrite pa 4 x.toNat).setPhysPoison pa false =
        { s with dram := d, host := h, dramPoison := p, hostPoison := q } := by
      unfold State.physWrite State.setPhysPoison
      split
      · exact ⟨_, _, _, _, rfl⟩
      · exact ⟨_, _, _, _, rfl⟩
    obtain ⟨d, h, p, q, hr⟩ := ih (s := (s.physWrite pa 4 x.toNat).setPhysPoison pa false)
    exact ⟨d, h, p, q, hr.trans (by rw [hw])⟩

/-- A record's word reads back at its place. -/
theorem read_writeWords_one {pa : Nat} {x : Word} :
    Memory.read (if 2 ^ 51 ≤ pa then (s.writeWords [(pa, x)]).host else (s.writeWords [(pa, x)]).dram) pa 4 = x.toNat := by
  have hx : x.toNat % 256 ^ 4 = x.toNat := Nat.mod_eq_of_lt (lt_of_lt_of_le x.isLt (by decide))
  by_cases h : 2 ^ 51 ≤ pa
  · have hp : Config.hostBase ≤ pa := h
    simp only [if_pos h, State.writeWords, State.physWrite, State.setPhysPoison, Memory.read_write_same, hx]
  · have hp : ¬Config.hostBase ≤ pa := h
    simp only [if_neg h, State.writeWords, State.physWrite, State.setPhysPoison, Memory.read_write_same, hx]

/-! ### The outcome of a lane -/

section
variable {n : Nat} {r : Region} {w : Option (List Nat)}

theorem commitLane_of_aborts {c d : Byte} (hr : T.regionOf n = some r) (h : AbortsWith s T r w c d) :
    s.commitLane T n w = (s, .aborted c d) := by
  rcases h with hd | ⟨hd, hc⟩
  · simp [State.commitLane, hr, hd]
  · simp [State.commitLane, hr, hd, commitRound_of_rule hc]

theorem commitLane_of_again {lines : List Nat} (hr : T.regionOf n = some r) (hd : r.doom = none)
    (h : CommitRule s T r w (.again lines)) : s.commitLane T n w = (s, .second lines) := by
  simp [State.commitLane, hr, hd, commitRound_of_rule h]

theorem commitLane_of_write {ws : List (Nat × Word)} (hr : T.regionOf n = some r) (hd : r.doom = none)
    (h : CommitRule s T r w (.write ws)) : s.commitLane T n w = (s.writeWords ws, .committed) := by
  simp [State.commitLane, hr, hd, commitRound_of_rule h]

end

/-! ### The event -/

/-- A team whose arend has its lanes so. -/
def Team.withArend (T : Team) (ls : List (Nat × Outcome)) : Team := { T with arend := some ls }

/-- The state with the team's arend so. -/
def State.withArend (s : State) (k : Nat) (ls : List (Nat × Outcome)) : State := s.modTeam k (fun u => u.withArend ls)

theorem team?_withArend {ls : List (Nat × Outcome)} (h : s.team? k = some T) : (s.withArend k ls).team? k = some (T.withArend ls) := by
  rw [State.withArend, team?_modTeam, h]
  rfl

section
variable {ls : List (Nat × Outcome)} {n : Nat} {r : Region} {w : Option (List Nat)} {s1 : State} {o : Outcome}
  (h : AtCommit s k T ls n r w) (hc : s.commitLane T n w = (s1, o))
include h hc

/-- While lanes are left, the event settles one. -/
theorem exec_commit_more (hm : nextCommit (settled ls n o) ≠ none) :
    exec (.regionCommit k) s = .next (s1.withArend k (settled ls n o)) := by
  obtain ⟨b, hb, hp⟩ := h.block
  obtain ⟨e, he⟩ := Option.ne_none_iff_exists'.mp hm
  simp only [settled] at he
  show execRegionCommit k s = _
  cases w with
  | none => simp [execRegionCommit, h.team, h.arend, h.next, h.running, hb, hp, hc, he, State.withArend, Team.withArend, settled]
  | some l => simp [execRegionCommit, h.team, h.arend, h.next, hc, he, State.withArend, Team.withArend, settled]

/-- With the last lane the arend completes, or waits for the register of a cause word. -/
theorem exec_commit_last (hT : s1.team? k = some T) (hm : nextCommit (settled ls n o) = none) :
    exec (.regionCommit k) s = .next (if T.causeWaits (settled ls n o) = true then s1.withArend k (settled ls n o)
      else (s1.withArend k (settled ls n o)).arendFinish k (T.withArend (settled ls n o)) (settled ls n o)) := by
  obtain ⟨b, hb, hp⟩ := h.block
  have hruns : (T.st == .running && ((s.block? T.block).map (fun b => b.st == .placed)).getD false) = true := by
    simp [h.running, hb, hp]
  have hU := team?_withArend (ls := settled ls n o) hT
  have hw : (T.withArend (settled ls n o)).causeWaits (settled ls n o) = T.causeWaits (settled ls n o) := rfl
  simp only [settled, State.withArend, Team.withArend] at hm hU hw ⊢
  show execRegionCommit k s = _
  cases w with
  | none =>
    simp only [execRegionCommit, h.team, h.arend, h.next, hruns, hc, hm, hU, hw]
    by_cases hcw : T.causeWaits (ls.map (fun e => if e.1 = n then (n, o) else e)) = true <;> simp [hcw]
  | some l =>
    simp only [execRegionCommit, h.team, h.arend, h.next, hruns, hc, hm, hU, hw]
    by_cases hcw : T.causeWaits (ls.map (fun e => if e.1 = n then (n, o) else e)) = true <;> simp [hcw]

end

/-- An arend whose lanes are all settled waits while the register of a cause word is empty. -/
theorem exec_commit_waits {ls : List (Nat × Outcome)} (hT : s.team? k = some T) (ha : T.arend = some ls) (hn : nextCommit ls = none)
    (hw : T.causeWaits ls = true) : exec (.regionCommit k) s = .next s := by
  show execRegionCommit k s = _
  simp [execRegionCommit, hT, ha, hn, hw]

/-! ### What an arend leaves -/

theorem setRegions_rest {ls : List Nat} {r : Option Region} :
    ∃ g f, T.setRegions r ls = { T with region := g, regs := { T.regs with tag := f } } := by
  induction ls generalizing T with
  | nil => exact ⟨_, _, rfl⟩
  | cons i ls ih => obtain ⟨g, f, h⟩ := ih (T := _); exact ⟨g, f, h⟩

/-- The lanes named have the region given, and the others what they had. -/
theorem regionOf_setRegions {ls : List Nat} {r : Option Region} {j : Nat} :
    (T.setRegions r ls).regionOf j = if j ∈ ls then r else T.regionOf j := by
  induction ls generalizing T with
  | nil => simp [Team.setRegions]
  | cons i ls ih =>
    have hset : ({ T.setRegion i r with regs := T.regs.clearTags i } : Team).regionOf j = if j = i then r else T.regionOf j :=
      Sparse.get_set ..
    rw [Team.setRegions, ih, hset, ← ite_or]
    exact if_congr (by simp [or_comm]) rfl rfl

/-- The team after an arend: on its new path, with the cause words of its aborted lanes, and out of the regions of its lanes. -/
def Team.leftArend (T : Team) (w : Work) (next : DWord) (ls : List (Nat × Outcome)) : Team :=
  { ((Team.causeWords { T with ctl := { T.ctl.goto w.pc next with mask := w.m, exited := w.x, ds := w.ds, rs := w.rs } }
      (ls.filterMap abortOf)).setRegions none (ls.map Prod.fst)) with arend := none }

/-- The lanes an arend lets go on. -/
def keptOf (ls : List (Nat × Outcome)) : List Nat := (ls.filter (fun e => e.2 == .committed)).map Prod.fst

/-- The lanes it aborts, with their fallbacks. -/
def goneOf (T : Team) (ls : List (Nat × Outcome)) : List (Nat × DWord) := (ls.filterMap abortOf).map (fun e => (e.1, T.fallback e.1))

/-- Where the paths after an arend can be formed, it completes. -/
theorem arendFinish_of_paths {ls : List (Nat × Outcome)} {w : Work} (hT : s.team? k = some T)
    (hw : arendPaths (s.work T) (T.ctl.pc + 4) (keptOf ls) (goneOf T ls) = .ok w) (hs : w.s = s) :
    (s.arendFinish k T ls).team? k = some (T.leftArend w (T.ctl.pc + 4) ls) ∧
      ∃ ts, s.arendFinish k T ls = { s with teams := ts } := by
  have hsize : BitVec.ofNat 64 (Instr.size .arend) = 4 := by decide +kernel
  simp only [keptOf, goneOf] at hw
  unfold State.arendFinish
  simp only [hsize, hw]
  constructor
  · rw [team?_modTeam, Work.commit, hs, team?_modTeam, hT]
    rfl
  · exact ⟨_, by rw [Work.commit, hs]; rfl⟩

end Sys2Proof.Machine
end

section
/-! SUPPORT. What an arend leaves of its team (R320): its path, its regions and its cause words; and the obligation. -/

namespace Sys2Proof.Machine

open Sys2Proof.Claims

variable {s : State} {k : Nat} {T : Team}

/-! ### The paths after an arend -/

theorem pushDs_of_room {w : Work} {e : Entry} (h : w.ds.hw.length < 16) : w.pushDs e = .ok { w with ds := pushed w.ds e } := by
  have hn : ¬16 ≤ w.ds.hw.length := by omega
  simp [Work.pushDs, State.stackPush, State.stackRoom, hn, pushed]

theorem pushPaths_of_room {w : Work} {gs : List (DWord × List Nat)} (h : w.ds.hw.length + gs.length ≤ 16) :
    ∃ w1, w.pushPaths gs = .ok w1 := by
  induction gs generalizing w with
  | nil => exact ⟨w, rfl⟩
  | cons g gs ih =>
    rw [List.length_cons] at h
    rw [Work.pushPaths, pushDs_of_room (by omega)]
    exact ih (by simp [pushed]; omega)

theorem groupLanes_length {l : List (Nat × DWord)} {gs : List (DWord × List Nat)} :
    (groupLanes l gs).length ≤ gs.length + l.length := by
  induction l generalizing gs with
  | nil => simp [groupLanes]
  | cons e l ih =>
    rw [groupLanes, List.length_cons]
    split
    · exact ih.trans (by simp)
    · exact ih.trans (by simp; omega)

section
variable {w : Work} {next a : DWord} {n m : Nat} {kept : List Nat}

theorem arendPaths_of_kept (hk : kept ≠ []) :
    arendPaths w next kept [] = .ok { w with m := Mask.ofLanes kept, pc := next } := by
  simp [arendPaths, groupLanes, Work.pushPaths, hk]

theorem arendPaths_of_gone : arendPaths w next [] [(n, a)] = .ok { w with m := Mask.ofLanes [n], pc := a } := by
  simp [arendPaths, groupLanes, Work.pushPaths]

theorem arendPaths_of_both (h : w.ds.hw.length < 16) : arendPaths w next [m] [(n, a)] =
    .ok { w with ds := pushed w.ds (.path a (Mask.ofLanes [n])), m := Mask.ofLanes [m], pc := next } := by
  simp [arendPaths, groupLanes, Work.pushPaths, pushDs_of_room h]

end

/-! ### The team after an arend -/

theorem causeWords_rest {l : List (Nat × Byte × Byte)} :
    ∃ a b q, T.causeWords l = { T with regs := { T.regs with sreg := a, sflag := b }, causes := q } := by
  induction l with
  | nil => exact ⟨_, _, _, rfl⟩
  | cons e l ih =>
    obtain ⟨n, c, d⟩ := e
    obtain ⟨a, b, q, h⟩ := ih
    rw [Team.causeWords, h]
    simp only
    split
    · unfold Team.giveCause
      split
      · exact ⟨_, _, _, rfl⟩
      · exact ⟨_, _, _, rfl⟩
    · exact ⟨_, _, _, rfl⟩

/-- One aborted lane's cause word fills its register. -/
theorem causeWords_one {n : Nat} {c d : Byte} {r : Region} (hr : T.regionOf n = some r) (he : T.regs.sflg r.cr ≠ .empty) :
    T.causeWords [(n, c, d)] = { T with regs := (T.regs.setS r.cr (causeWord n c d)).setSflg r.cr .full } := by
  simp [Team.causeWords, hr, Team.giveCause, he]

section
variable {w : Work} {next : DWord} {ls : List (Nat × Outcome)}

theorem leftArend_rest : ∃ g f a b q, T.leftArend w next ls = { T with
    ctl := { T.ctl.goto w.pc next with mask := w.m, exited := w.x, ds := w.ds, rs := w.rs }
    region := g, regs := { T.regs with sreg := a, sflag := b, tag := f }, causes := q, arend := none } := by
  unfold Team.leftArend
  obtain ⟨a, b, q, hc⟩ := causeWords_rest
    (T := { T with ctl := { T.ctl.goto w.pc next with mask := w.m, exited := w.x, ds := w.ds, rs := w.rs } }) (l := ls.filterMap abortOf)
  rw [hc]
  obtain ⟨g, f, hs⟩ := setRegions_rest (ls := ls.map Prod.fst) (r := none) (T := { T with
    ctl := { T.ctl.goto w.pc next with mask := w.m, exited := w.x, ds := w.ds, rs := w.rs }
    regs := { T.regs with sreg := a, sflag := b }, causes := q })
  rw [hs]
  exact ⟨g, f, a, b, q, rfl⟩

theorem regionOf_leftArend {j : Nat} : (T.leftArend w next ls).regionOf j = if j ∈ ls.map Prod.fst then none else T.regionOf j := by
  obtain ⟨a, b, q, hc⟩ := causeWords_rest
    (T := { T with ctl := { T.ctl.goto w.pc next with mask := w.m, exited := w.x, ds := w.ds, rs := w.rs } }) (l := ls.filterMap abortOf)
  refine (regionOf_setRegions (j := j)).trans ?_
  rw [hc]
  rfl

/-- What an arend leaves of its team but registers' cause words. -/
theorem leftArend_fields : (T.leftArend w next ls).arend = none ∧ (T.leftArend w next ls).ctl.pc = w.pc ∧
    (T.leftArend w next ls).ctl.mask = w.m ∧ (T.leftArend w next ls).ctl.ds = w.ds ∧
    (T.leftArend w next ls).regs.lane = T.regs.lane := by
  obtain ⟨g, f, a, b, q, h⟩ := leftArend_rest (T := T) (w := w) (next := next) (ls := ls)
  rw [h]
  exact ⟨rfl, rfl, rfl, rfl, rfl⟩

/-- With no lane aborted no s register changes. -/
theorem sreg_leftArend (hg : ls.filterMap abortOf = []) : (T.leftArend w next ls).regs.sreg = T.regs.sreg := by
  unfold Team.leftArend
  rw [hg, Team.causeWords]
  obtain ⟨g, f, hs⟩ := setRegions_rest (ls := ls.map Prod.fst) (r := none)
    (T := { T with ctl := { T.ctl.goto w.pc next with mask := w.m, exited := w.x, ds := w.ds, rs := w.rs } })
  rw [hs]

/-- The register of the one aborted lane holds its cause word. -/
theorem s_leftArend {n : Nat} {c d : Byte} {r : Region} (hg : ls.filterMap abortOf = [(n, c, d)]) (hr : T.regionOf n = some r)
    (he : T.regs.sflg r.cr ≠ .empty) : (T.leftArend w next ls).regs.s r.cr = causeWord n c d ∧
      (T.leftArend w next ls).regs.sflg r.cr = .full := by
  have hc := causeWords_one (c := c) (d := d)
    (T := { T with ctl := { T.ctl.goto w.pc next with mask := w.m, exited := w.x, ds := w.ds, rs := w.rs } }) hr he
  unfold Team.leftArend
  rw [hg, hc]
  obtain ⟨g, f, hs⟩ := setRegions_rest (ls := ls.map Prod.fst) (r := none) (T := { T with
    ctl := { T.ctl.goto w.pc next with mask := w.m, exited := w.x, ds := w.ds, rs := w.rs }
    regs := (T.regs.setS r.cr (causeWord n c d)).setSflg r.cr .full })
  rw [hs]
  exact ⟨(s_setS _ _ _ _).trans (if_pos rfl), 
    (sflg_setSflg (T.regs.setS r.cr (causeWord n c d)) r.cr r.cr .full).trans (if_pos rfl)⟩

end

/-- What the team `T'` is after an arend of team `T`, with its lanes settled so, on the path `v`. -/
structure ArendDone (T : Team) (v : Work) (ls : List (Nat × Outcome)) (T' : Team) : Prop where
  arend : T'.arend = none
  pc : T'.ctl.pc = v.pc
  mask : T'.ctl.mask = v.m
  ds : T'.ctl.ds = v.ds
  lane : T'.regs.lane = T.regs.lane
  region : ∀ j, T'.regionOf j = if j ∈ ls.map Prod.fst then none else T.regionOf j
  kept : ls.filterMap abortOf = [] → T'.regs.sreg = T.regs.sreg
  cause : ∀ n c d r, ls.filterMap abortOf = [(n, c, d)] → T.regionOf n = some r → T.regs.sflg r.cr ≠ .empty →
    T'.regs.s r.cr = causeWord n c d ∧ T'.regs.sflg r.cr = .full

theorem arendDone_leftArend {v : Work} {next : DWord} {ls : List (Nat × Outcome)} :
    ArendDone T v ls ((T.withArend ls).leftArend v next ls) := by
  obtain ⟨hend, hpc, hmask, hds, hlane⟩ := leftArend_fields (T := T.withArend ls) (w := v) (next := next) (ls := ls)
  exact ⟨hend, hpc, hmask, hds, hlane, fun j => regionOf_leftArend, fun hg => sreg_leftArend hg,
    fun n c d r hg hr he => s_leftArend hg hr he⟩

/-! ### The lanes of an arend -/

section
variable {ls : List (Nat × Outcome)} {n : Nat} {o o' : Outcome}

theorem mem_settled (h : (n, o') ∈ ls) : (n, o) ∈ settled ls n o :=
  List.mem_map.mpr ⟨(n, o'), h, if_pos rfl⟩

theorem settled_lanes : (settled ls n o).map Prod.fst = ls.map Prod.fst := by
  rw [settled, List.map_map]
  refine List.map_congr_left fun e _ => ?_
  by_cases h : e.1 = n <;> simp [h]

/-- Among lanes that are all settled none is next. -/
theorem nextCommit_of_committed (h : ∀ e ∈ ls, e.2 = .committed) : nextCommit ls = none :=
  List.find?_eq_none.mpr fun e he => by simp [h e he]

theorem aborts_of_committed (h : ∀ e ∈ ls, e.2 = .committed) : ls.filterMap abortOf = [] :=
  List.filterMap_eq_nil_iff.mpr fun e he => by
    obtain ⟨m, o⟩ := e
    obtain rfl : o = .committed := h _ he
    rfl

theorem kept_of_committed (h : ∀ e ∈ ls, e.2 = .committed) : keptOf ls = ls.map Prod.fst := by
  rw [keptOf, List.filter_eq_self.mpr fun e he => by simp [h e he]]

theorem mem_of_next {second : Option (List Nat)} {r : Region} (h : AtCommit s k T ls n r second) : ∃ o, (n, o) ∈ ls :=
  ⟨_, List.mem_of_find?_eq_some h.next⟩

end

/-! ### arend -/

theorem pinned_arend : T.pinned .arend = T := by
  have hpins : pinsOf .arend = [] := by decide +kernel
  have hnone (ns : List Nat) : T.pinLanes [] ns = T := by
    induction ns with
    | nil => rfl
    | cons n ns ih => exact ih
  rw [Team.pinned, hpins, hnone, ite_self]

/-- Inside a region, with room for its fallbacks and no input outstanding, an arend holds its team. -/
theorem exec_arend (h : Ready s k T .arend) (hin : Inside T) (hroom : T.ctl.ds.hw.length + T.active.length ≤ 16)
    (ho : s.arldOut k = false) :
    exec .arend s = .next ((s.setTeam k T).setTeam k (T.withArend (T.active.map (fun n => (n, Outcome.waiting))))) := by
  have hout : T.outside = false := by
    rw [Team.outside, List.any_eq_false]
    intro n hn
    obtain ⟨r, hr⟩ := Option.isSome_iff_exists.mp (hin n hn)
    simp [hr]
  obtain ⟨w, hw⟩ : ∃ w, (s.setTeam k T).arendFits T = .ok w := by
    refine pushPaths_of_room (le_trans (Nat.add_le_add_left groupLanes_length _) ?_)
    simpa [State.work] using hroom
  have ho' : (s.setTeam k T).arldOut k = false := ho
  refine (issue_of_ready h _).trans ?_
  simp only [pinned_arend, hout, hw, ho']
  rfl

/-! ### The event's cases -/

theorem causeWaits_one {ls : List (Nat × Outcome)} {n : Nat} {c d : Byte} {r : Region} (hg : ls.filterMap abortOf = [(n, c, d)])
    (hr : T.regionOf n = some r) : T.causeWaits ls = (T.regs.sflg r.cr == .empty) := by
  simp [Team.causeWaits, hg, hr]

theorem team?_writeWords {ws : List (Nat × Word)} : (s.writeWords ws).team? k = s.team? k := by
  obtain ⟨d, h, p, q, hw⟩ := writeWords_rest (s := s) (ws := ws)
  rw [hw]
  rfl

theorem spm_writeWords {ws : List (Nat × Word)} : (s.writeWords ws).spm = s.spm := by
  obtain ⟨d, h, p, q, hw⟩ := writeWords_rest (s := s) (ws := ws)
  rw [hw]

/-- The lane that an event settles, as its arend has it. -/
def pendingLane (n : Nat) (w : Option (List Nat)) : Nat × Outcome :=
  (n, match w with
    | none => .waiting
    | some l => .second l)

section
variable {ls ls1 : List (Nat × Outcome)} {n : Nat} {r : Region} {w : Option (List Nat)} {s1 : State} {o : Outcome}

/-- With the last lane settled, and no cause word waiting, the team takes the paths that are formed. -/
theorem exec_commit_finish {v : Work} (h : AtCommit s k T ls n r w) (hc : s.commitLane T n w = (s1, o)) (hT : s1.team? k = some T)
    (hls : settled ls n o = ls1) (hm : nextCommit ls1 = none) (hw : T.causeWaits ls1 = false)
    (hv : arendPaths ((s1.withArend k ls1).work (T.withArend ls1)) (T.ctl.pc + 4) (keptOf ls1) (goneOf T ls1) = .ok v)
    (hs : v.s = s1.withArend k ls1) :
    ∃ t T', exec (.regionCommit k) s = .next t ∧ t.team? k = some T' ∧ ArendDone T v ls1 T' ∧ ∃ ts, t = { s1 with teams := ts } := by
  subst hls
  obtain ⟨hteam, ts, ht⟩ := arendFinish_of_paths (team?_withArend hT) hv hs
  exact ⟨_, _, (exec_commit_last h hc hT hm).trans (by rw [hw]; rfl), hteam, arendDone_leftArend, ts, ht⟩

/-- With its last lane committed, a team whose lanes have all committed goes on with them. -/
theorem exec_commit_all {ws : List (Nat × Word)} (h : AtCommit s k T ls n r w) (hd : r.doom = none)
    (hc : CommitRule s T r w (.write ws)) (hall : ∀ e ∈ settled ls n .committed, e.2 = .committed) :
    Leads (.regionCommit k) s k (fun t T' => T'.arend = none ∧ T'.ctl.pc = T.ctl.pc + 4 ∧
      T'.ctl.mask = Mask.ofLanes (ls.map Prod.fst) ∧ T'.ctl.ds = T.ctl.ds ∧ (∀ e ∈ ls, T'.regionOf e.1 = none) ∧
      (∀ m, (∀ e ∈ ls, e.1 ≠ m) → T'.regionOf m = T.regionOf m) ∧ T'.regs.lane = T.regs.lane ∧ T'.regs.sreg = T.regs.sreg ∧
      t.spm = s.spm ∧ SameGlobal (s.writeWords ws) t) := by
  obtain ⟨o, ho⟩ := mem_of_next h
  have hgone := aborts_of_committed hall
  have hkept : keptOf (settled ls n .committed) = ls.map Prod.fst := by rw [kept_of_committed hall, settled_lanes]
  obtain ⟨t, T', hex, hteam, hdone, ts, rfl⟩ := exec_commit_finish h (commitLane_of_write h.region hd hc)
    (team?_writeWords.trans h.team) rfl (nextCommit_of_committed hall) (by simp [Team.causeWaits, hgone])
    (by rw [hkept, goneOf, hgone]; exact arendPaths_of_kept (List.ne_nil_of_mem (List.mem_map_of_mem ho))) rfl
  refine ⟨_, T', hex, hteam, hdone.arend, hdone.pc, hdone.mask, hdone.ds, fun e he => ?_, fun m hm => ?_, hdone.lane,
    hdone.kept hgone, spm_writeWords, fun _ => rfl, fun _ => rfl⟩
  · rw [hdone.region, settled_lanes, if_pos (List.mem_map_of_mem he)]
  · rw [hdone.region, settled_lanes, if_neg]
    rintro hmem
    obtain ⟨e, he, hem⟩ := List.mem_map.mp hmem
    exact hm e he hem

section
variable {c d : Byte} (ha : AbortsWith s T r w c d)
include ha

/-- An aborted lane, alone, whose register is empty is settled, and waits. -/
theorem exec_commit_abort_waits (h : AtCommit s k T [pendingLane n w] n r w) (he : T.regs.sflg r.cr = .empty) :
    exec (.regionCommit k) s = .next (s.withArend k [(n, .aborted c d)]) := by
  have hls : settled [pendingLane n w] n (.aborted c d) = [(n, .aborted c d)] := by simp [settled, pendingLane]
  have hex := exec_commit_last h (commitLane_of_aborts h.region ha) h.team (by rw [hls]; rfl)
  rw [hls] at hex
  rw [hex, if_pos (by rw [causeWaits_one rfl h.region, he]; rfl)]

/-- An aborted lane, alone: the team goes on at its fallback, its register with the cause word. -/
theorem exec_commit_abort_one (h : AtCommit s k T [pendingLane n w] n r w) (he : T.regs.sflg r.cr ≠ .empty) :
    Leads (.regionCommit k) s k (fun t T' => T'.arend = none ∧ T'.ctl.pc = r.fb ∧ T'.ctl.mask = Mask.ofLanes [n] ∧
      T'.regs.s r.cr = BitVec.ofNat 64 (n % 256 * 2 ^ 16 + d.toNat * 256 + c.toNat) ∧ T'.regs.sflg r.cr = .full ∧
      T'.regionOf n = none ∧ T'.regs.lane = T.regs.lane ∧ SameMemory s t) := by
  have hgone : [(n, Outcome.aborted c d)].filterMap abortOf = [(n, c, d)] := rfl
  have hfb : T.fallback n = r.fb := by simp [Team.fallback, h.region]
  obtain ⟨t, T', hex, hteam, hdone, ts, rfl⟩ := exec_commit_finish (ls1 := [(n, .aborted c d)]) h
    (commitLane_of_aborts h.region ha) h.team (by simp [settled, pendingLane]) rfl
    (by rw [causeWaits_one hgone h.region]; simpa using he) (by rw [goneOf, hgone]; exact arendPaths_of_gone) rfl
  obtain ⟨hs, hf⟩ := hdone.cause n c d r hgone h.region he
  exact ⟨_, T', hex, hteam, hdone.arend, hdone.pc.trans hfb, hdone.mask, hs, hf, by rw [hdone.region]; simp, hdone.lane,
    fun _ => rfl, fun _ => rfl, fun _ => rfl⟩

/-- An aborted lane beside a committed one: it waits at its fallback. -/
theorem exec_commit_abort_beside {m : Nat} (h : AtCommit s k T [(m, .committed), pendingLane n w] n r w) (hne : m ≠ n)
    (he : T.regs.sflg r.cr ≠ .empty) (hroom : T.ctl.ds.hw.length < 16) :
    Leads (.regionCommit k) s k (fun t T' => T'.arend = none ∧ T'.ctl.pc = T.ctl.pc + 4 ∧ T'.ctl.mask = Mask.ofLanes [m] ∧
      T'.ctl.ds = pushed T.ctl.ds (.path r.fb (Mask.ofLanes [n])) ∧
      T'.regs.s r.cr = BitVec.ofNat 64 (n % 256 * 2 ^ 16 + d.toNat * 256 + c.toNat) ∧ T'.regionOf m = none ∧
      T'.regionOf n = none ∧ SameMemory s t) := by
  have hgone : [(m, Outcome.committed), (n, .aborted c d)].filterMap abortOf = [(n, c, d)] := rfl
  have hfb : T.fallback n = r.fb := by simp [Team.fallback, h.region]
  obtain ⟨t, T', hex, hteam, hdone, ts, rfl⟩ := exec_commit_finish (ls1 := [(m, .committed), (n, .aborted c d)]) h
    (commitLane_of_aborts h.region ha) h.team (by simp [settled, pendingLane, hne]) rfl
    (by rw [causeWaits_one hgone h.region]; simpa using he) (by rw [goneOf, hgone]; exact arendPaths_of_both hroom) rfl
  obtain ⟨hs, hf⟩ := hdone.cause n c d r hgone h.region he
  refine ⟨_, T', hex, hteam, hdone.arend, hdone.pc, hdone.mask, hdone.ds.trans ?_, hs, by rw [hdone.region]; simp,
    by rw [hdone.region]; simp, fun _ => rfl, fun _ => rfl, fun _ => rfl⟩
  exact congrArg (fun a => pushed T.ctl.ds (.path a (Mask.ofLanes [n]))) hfb

end

end

/-- Settles O18: a round comes to what R321's rules say, and the event of the last lane forms the paths that go on. -/
theorem regionCommit : Obligations.RegionCommit := by
  unfold Obligations.RegionCommit
  refine ⟨fun s k T h hin hroom ho => ?_, fun s k T ls n r w c d h ha hm => ?_, fun s k T ls n r w lines h hd hc => ?_,
    fun s k T ls n r w ws h hd hc hm => ?_, fun s k T ls n r w ws => exec_commit_all, fun s k T n r w c d h ha he => ?_,
    fun s k T n c d hT ha hr => ?_, fun s k T n r w c d h ha => exec_commit_abort_one ha h,
    fun s k T m n r w c d h hne ha => exec_commit_abort_beside ha h hne,
    fun s pa x ws => ⟨read_writeWords_one, rfl⟩⟩
  · exact ⟨_, _, exec_arend h hin hroom ho, team?_setTeam _ _ _, rfl,
      onlyTeam_trans (onlyTeam_setTeam s k T) (onlyTeam_setTeam _ k _), fun _ => rfl, fun _ => rfl, fun _ => rfl⟩
  · exact ⟨_, _, exec_commit_more h (commitLane_of_aborts h.region ha) hm, team?_withArend h.team, rfl,
      fun _ => rfl, fun _ => rfl, fun _ => rfl⟩
  · obtain ⟨o, ho⟩ := mem_of_next h
    have hm : nextCommit (settled ls n (.second lines)) ≠ none := fun hnone =>
      absurd rfl (List.find?_eq_none.mp hnone _ (mem_settled ho))
    exact ⟨_, _, exec_commit_more h (commitLane_of_again h.region hd hc) hm, team?_withArend h.team, rfl,
      fun _ => rfl, fun _ => rfl, fun _ => rfl⟩
  · exact ⟨_, _, exec_commit_more h (commitLane_of_write h.region hd hc) hm, team?_withArend (team?_writeWords.trans h.team), rfl,
      spm_writeWords, fun _ => rfl, fun _ => rfl⟩
  · exact ⟨_, _, exec_commit_abort_waits ha h he, team?_withArend h.team, rfl, fun _ => rfl, fun _ => rfl, fun _ => rfl⟩
  · obtain ⟨r, hr, he⟩ := hr
    exact exec_commit_waits hT ha rfl (by rw [causeWaits_one rfl hr, he]; rfl)

end Sys2Proof.Machine
end

section
/-! SUPPORT. Term words and a lane's walk (R170, R177, R180): the claims' words are the model's, and what one access of a lane
comes to. -/

namespace Sys2Proof.Machine

open Sys2Proof.Claims

/-! ### Term words (R170, R180) -/

theorem tagOf_eq_tagNum (w : DWord) : tagOf w = tagNum w :=
  Nat.mod_eq_of_lt (by have := w.isLt; omega)

theorem refTo_eq_refWord (p : Word) : refTo p = refWord p :=
  BitVec.eq_of_toNat_eq (by simp [refTo, termOf, refWord])

theorem termOf_one_eq_cvarWord (p : Word) : termOf 1 p = cvarWord p.toNat := by
  have hp : cvarWord p.toNat = BitVec.ofNat 64 (1 * 2 ^ 60) ||| p.setWidth 64 := by simp [cvarWord, mkTerm]
  rw [hp]
  refine BitVec.eq_of_toNat_eq ?_
  have hlt := p.isLt
  have h := Nat.two_pow_add_eq_or_of_lt (i := 60) (b := p.toNat) (by omega) 1
  rw [Nat.mul_one] at h
  simp only [termOf, BitVec.toNat_or, BitVec.toNat_ofNat, BitVec.toNat_setWidth, Nat.one_mul]
  rw [Nat.mod_eq_of_lt (a := p.toNat) (by omega), Nat.mod_eq_of_lt (a := 2 ^ 60) (by omega), Nat.mod_eq_of_lt (by omega), h]

theorem entryOf_eq_entryAddr (c : TermCtx) (p : Word) : entryOf c p = entryAddr c p := by
  have h : BitVec.ofNat 32 (8 * p.toNat) = 8 * p := BitVec.eq_of_toNat_eq (by simp)
  rw [entryOf, entryAddr, h]

/-- A sound word passes the check of a word that is dispatched on. -/
theorem termCheck_of_sound {w : DWord} (h : Sound w) : termCheck w = none := by
  obtain ⟨htag, hfun, hnil, hrest⟩ := h
  have hu : unnamedClear w = true := by
    unfold unnamedClear
    rw [tagOf_eq_tagNum]
    split
    · rfl
    · next h6 => simpa [field] using hfun h6
    · next h8 => simpa [field] using hnil h8
    · next h3 h6 h8 => simpa [field] using hrest h3 h6 h8
  simp only [termCheck, tagOf_eq_tagNum, hu]
  rw [if_neg (by omega), if_neg (by omega), if_pos trivial]

/-! ### What a walk answers -/

/-- A step of a lane's walk does not stop the lane; where it answers, and does not wait for its next access, `P` holds of the
answer and the lane after it. -/
def Yields {α : Type} (m : TM α) (w : Walker) (P : α → Walker → Prop) : Prop :=
  match m w with
  | .ok x v => P x v
  | .error .pause _ => True
  | .error (.stop _) _ => False

section
variable {α β : Type} {w : Walker}

theorem yields_pure {x : α} {P : α → Walker → Prop} (h : P x w) : Yields (pure x) w P := h

theorem yields_bind {m : TM α} {f : α → TM β} {P : β → Walker → Prop} (h : Yields m w (fun x v => Yields (f x) v P)) :
    Yields (m >>= f) w P := by
  simp only [Yields, bind, EStateM.bind] at h ⊢
  revert h
  rcases m w with ⟨x, v⟩ | ⟨_ | _, v⟩
  · exact id
  · exact id
  · exact fun _ => trivial

theorem yields_get {P : Walker → Walker → Prop} (h : P w w) : Yields get w P := h

theorem yields_set {v : Walker} {P : PUnit → Walker → Prop} (h : P ⟨⟩ v) : Yields (set v) w P := h

theorem yields_modify {g : Walker → Walker} {P : PUnit → Walker → Prop} (h : P ⟨⟩ (g w)) : Yields (modify g) w P := h

/-- A lane passes a check that would stop it. -/
theorem yields_guard {p : Prop} [Decidable p] {e : Byte} {f : Unit → TM β} {P : β → Walker → Prop} (hp : ¬p)
    (h : Yields (f ()) w P) : Yields (if p then stop e >>= f else f ()) w P := by
  rwa [if_neg hp]

theorem yields_checkTerm {x : DWord} {P : Unit → Walker → Prop} (hx : Sound x) (h : P () w) : Yields (checkTerm x) w P := by
  simpa [Yields, checkTerm, termCheck_of_sound hx] using h

/-- The value of a walk that answers. -/
theorem Yields.of_ok {m : TM α} {P : α → Walker → Prop} {x : α} {v : Walker} (h : Yields m w P) (hm : m w = .ok x v) : P x v := by
  simpa [Yields, hm] using h

end

/-! ### Memory as a lane finds it -/

/-- A team that has no near access in flight is not held back by one. -/
theorem homeBusy_of_settled {s : State} {k : Nat} (h : s.nearOut k = false) (l : NearLoc) (b : Nat) : s.homeBusy k l b = false := by
  unfold State.homeBusy
  split
  · rfl
  next t _ =>
    rw [List.any_eq_false]
    intro r hr
    have hq := List.any_eq_false.1 h r hr
    simp only [Bool.and_eq_true, not_and, Bool.not_eq_true] at hq ⊢
    intro hk
    rw [List.any_eq_false]
    intro e he
    have hn : (r.2.kind.near && e.flying) = false := by
      by_cases hk2 : r.2.kind.near = true
      · simp [List.any_eq_false.1 (hq ⟨hk.1, hk2⟩) e he]
      · simp [hk2]
    simp [flyingPlace, hn]

/-- `t` is `s` but for near memory, with its errors, and the free choices made. -/
structure OnlyNear (k : Nat) (s t : State) : Prop where
  rest : t = { s with spm := t.spm, spmPoison := t.spmPoison, teams := t.teams, draws := t.draws }
  team : ∀ T, s.team? k = some T → ∃ m, t.team? k = some { T with privMem := m }

theorem onlyNear_draws (k : Nat) (s : State) (d : Nat) : OnlyNear k s { s with draws := d } :=
  ⟨rfl, fun T h => ⟨T.privMem, h⟩⟩

section
variable {s t : State} {k : Nat} (h : OnlyNear k s t)
include h

theorem OnlyNear.frame (T : Team) : t.frame T = s.frame T := by rw [h.rest]; rfl

theorem OnlyNear.nearOut : t.nearOut k = s.nearOut k := by rw [h.rest]; rfl

theorem OnlyNear.trans {u : State} (hu : OnlyNear k t u) : OnlyNear k s u := by
  refine ⟨by rw [hu.rest, h.rest], fun T hT => ?_⟩
  obtain ⟨m, hm⟩ := h.team T hT
  obtain ⟨m', hm'⟩ := hu.team _ hm
  exact ⟨m', hm'⟩

end

theorem onlyNear_nearWrite (s : State) (k : Nat) (l : NearLoc) (n v : Nat) : OnlyNear k s (s.nearWrite k l n v) := by
  cases l with
  | spm core off w1 => exact ⟨rfl, fun T h => ⟨T.privMem, h⟩⟩
  | priv lane off =>
    refine ⟨rfl, fun T h => ⟨Memory.write T.privMem (privKey lane off) n v, ?_⟩⟩
    rw [State.nearWrite, team?_modTeam, h]
    rfl

theorem nearWrite_draws (s : State) (k d : Nat) (l : NearLoc) (n v : Nat) :
    ({ s with draws := d } : State).nearWrite k l n v = { s.nearWrite k l n v with draws := d } := by
  cases l <;> rfl

theorem onlyNear_writeCells {k n : Nat} {T : Team} : ∀ {xs : List (Word × DWord)} {s t : State},
    writeCells k T n s xs = some t → OnlyNear k s t
  | [], s, t, h => by
    obtain rfl := Option.some.inj h
    exact onlyNear_draws k s s.draws
  | (a, x) :: xs, s, t, h => by
    unfold writeCells at h
    split at h
    next l _ => exact (onlyNear_nearWrite s k l 8 x.toNat).trans (onlyNear_writeCells h)
    next => cases h

end Sys2Proof.Machine
end

section
/-! SUPPORT. A lane's walk (R177, R182): what its accesses, and a dereference, answer. -/

namespace Sys2Proof.Machine

open Sys2Proof.Claims

/-- Lane `n` of team `k` is at work with limited reads, from the memory of `s0` on: memory is that of `s` by now, its context `c`,
`r` reads are made, and the walk stack, all in hardware, is `st`. -/
structure Walks (s0 : State) (k : Nat) (T : Team) (n : Nat) (s : State) (c : TermCtx) (r : Nat) (st : List (Word × Word × Nat))
    (w : Walker) : Prop where
  near : OnlyNear k s0 s
  settled : s0.nearOut k = false
  state : ∃ d, w.s = { s with draws := d }
  team : w.k = k
  frame : w.f = s0.frame T
  lane : w.lane = n
  ctx : w.ctx = c
  bounded : w.bounded = (T.tstride != 0)
  trail : w.tl = limit T.trail T.tstride n
  limited : w.limited = true
  reads : w.reads = r
  stack : w.hw = st
  unspilled : w.spilled = 0
  fresh : w.past = []

section
variable {s0 s : State} {k n r : Nat} {T : Team} {c : TermCtx} {st : List (Word × Word × Nat)} {w : Walker}

/-! ### One access (R177) -/

/-- A dword without an error has none in its first word. -/
theorem nearPoisoned_first {l : NearLoc} (h : s.nearPoisoned l 8 = false) : s.nearPoisoned l 4 = false := by
  cases l with
  | spm core off w1 => exact List.any_eq_false.2 fun j hj => List.any_eq_false.1 h j (List.mem_range.2 (by have := List.mem_range.1 hj; omega))
  | priv lane off => rfl

section
variable (h : Walks s0 k T n s c r st w)
include h

theorem Walks.nearCheck (a : Word) : w.s.nearCheck w.f (some w.lane) a 8 = s.nearCheck (s.frame T) (some n) a 8 := by
  obtain ⟨d, hd⟩ := h.state
  rw [hd, h.frame, h.lane, h.near.frame]
  rfl

theorem Walks.homeBusy (l : NearLoc) (b : Nat) : w.s.homeBusy w.k l b = false := by
  obtain ⟨d, hd⟩ := h.state
  refine homeBusy_of_settled ?_ l b
  rw [hd, h.team]
  exact h.near.nearOut.trans h.settled

theorem yields_accessCell {a : Word} {l : NearLoc} {act : NearLoc → TM DWord} {P : DWord → Walker → Prop}
    (hc : s.nearCheck (s.frame T) (some n) a 8 = .ok l)
    (hact : ∀ v, Walks s0 k T n s c r st v → Yields (act l) v (fun x u => P x { u with news := x :: u.news })) :
    Yields (accessCell a act) w P := by
  unfold Yields accessCell
  rw [h.fresh]
  by_cases hb : w.budget = 0
  · simp [hb]
  simp only [if_neg hb, h.nearCheck, hc, h.homeBusy, Bool.false_eq_true, if_false]
  have hact := hact { w with past := [], budget := w.budget - 1 } { h with fresh := rfl }
  unfold Yields at hact
  generalize act l _ = e at hact ⊢
  rcases e with ⟨x, v⟩ | ⟨_ | _, v⟩
  · exact hact
  · exact hact
  · trivial

theorem yields_readCell {a : Word} {x : DWord} {P : DWord → Walker → Prop} (hx : cellAt s k T n a = some x) (hr : r < 2 ^ 20)
    (hP : ∀ v, Walks s0 k T n s c (r + 1) st v → P x v) : Yields (readCell a) w P := by
  unfold cellAt at hx
  split at hx
  next l hc =>
    split at hx
    · cases hx
    next hp =>
      refine yields_bind (yields_get (yields_bind (yields_accessCell h hc fun v hv => ?_)))
      obtain ⟨d, hd⟩ := hv.state
      have hlim : (v.limited && decide (walkLimit ≤ v.reads)) = false := by
        rw [hv.reads, decide_eq_false (by unfold walkLimit; omega), Bool.and_false]
      have h8 : v.s.nearPoisoned l 8 = false := by rw [hd]; exact Bool.eq_false_of_not_eq_true hp
      have h4 := nearPoisoned_first h8
      have hval : BitVec.ofNat 64 (v.s.nearRead v.k l 8) = x := by rw [hd, hv.team]; exact Option.some.inj hx
      simp only [Yields, hlim, h4, h8, hval, Bool.false_eq_true, if_false]
      exact hP _ { hv with reads := congrArg (· + 1) h.reads }
  next => cases hx

theorem yields_writeCell {a : Word} {x : DWord} {xs : List (Word × DWord)} {s' : State} {P : Unit → Walker → Prop}
    (hx : writeCells k T n s ((a, x) :: xs) = some s')
    (hP : ∀ s1 v, writeCells k T n s1 xs = some s' → Walks s0 k T n s1 c r st v → P () v) : Yields (writeCell a x) w P := by
  unfold writeCells at hx
  split at hx
  next l hc =>
    refine yields_bind (yields_accessCell h hc fun v hv => ?_)
    obtain ⟨d, hd⟩ := hv.state
    exact hP _ _ hx { hv with
      near := hv.near.trans (onlyNear_nearWrite s k l 8 x.toNat)
      state := ⟨d, by simp only [hd, hv.team, nearWrite_draws]⟩ }
  next => cases hx

end

/-! ### Dereferencing (R182) -/

theorem yields_derefFrom {x : DWord} {cell : Option Word} {d : Deref} {i : Nat} (hd : Derefs (cellAt s k T n) c x cell d i)
    {P : Deref → Walker → Prop} : ∀ {r fuel : Nat} {w : Walker}, Walks s0 k T n s c r st w → r + i ≤ 2 ^ 20 → i < fuel →
      (∀ v, Walks s0 k T n s c (r + i) st v → P d v) → Yields (derefFrom x cell fuel) w P := by
  have hfuel : ∀ {i fuel : Nat}, i < fuel → ∃ m, fuel = m + 1 := fun h => Nat.exists_eq_succ_of_ne_zero (by omega)
  induction hd with
  | self x cell hs ht hx =>
    intro r fuel w h hr hf hP
    obtain ⟨fuel, rfl⟩ := hfuel hf
    refine yields_bind (yields_checkTerm hs ?_)
    rw [if_pos ((tagOf_eq_tagNum x).trans ht)]
    refine yields_bind (yields_readCell h hx (by omega) fun v hv => ?_)
    rw [if_pos rfl]
    exact yields_pure (hP v hv)
  | link x cell y d i hs ht hx hne _ ih =>
    intro r fuel w h hr hf hP
    obtain ⟨fuel, rfl⟩ := hfuel hf
    refine yields_bind (yields_checkTerm hs ?_)
    rw [if_pos ((tagOf_eq_tagNum x).trans ht)]
    refine yields_bind (yields_readCell h hx (by omega) fun v hv => ?_)
    rw [if_neg hne]
    exact ih hv (by omega) (by omega) fun u hu => hP u (by rwa [Nat.add_right_comm, Nat.add_assoc] at hu)
  | unbound x cell hs ht hlt hx =>
    intro r fuel w h hr hf hP
    obtain ⟨fuel, rfl⟩ := hfuel hf
    refine yields_bind (yields_checkTerm hs ?_)
    rw [if_neg (by rw [tagOf_eq_tagNum]; omega), if_pos ((tagOf_eq_tagNum x).trans ht)]
    refine yields_bind (yields_get (yields_guard (by rw [h.ctx]; exact Nat.not_le.2 hlt) ?_))
    rw [h.ctx, ← entryOf_eq_entryAddr]
    refine yields_bind (yields_readCell h hx (by omega) fun v hv => ?_)
    rw [if_pos (show emptyEntry = unbWord from rfl)]
    simp only [refTo_eq_refWord] at hP
    exact yields_pure (hP v hv)
  | bound x cell y d i hs ht hlt hx hy _ ih =>
    intro r fuel w h hr hf hP
    obtain ⟨fuel, rfl⟩ := hfuel hf
    refine yields_bind (yields_checkTerm hs ?_)
    rw [if_neg (by rw [tagOf_eq_tagNum]; omega), if_pos ((tagOf_eq_tagNum x).trans ht)]
    refine yields_bind (yields_get (yields_guard (by rw [h.ctx]; exact Nat.not_le.2 hlt) ?_))
    rw [h.ctx, ← entryOf_eq_entryAddr]
    refine yields_bind (yields_readCell h hx (by omega) fun v hv => ?_)
    rw [if_neg (by rintro rfl; exact hy (by decide))]
    refine yields_guard (by rwa [tagOf_eq_tagNum]) ?_
    exact ih hv (by omega) (by omega) fun u hu => hP u (by rwa [Nat.add_right_comm, Nat.add_assoc] at hu)
  | value x cell hs h0 h1 =>
    intro r fuel w h hr hf hP
    obtain ⟨fuel, rfl⟩ := hfuel hf
    refine yields_bind (yields_checkTerm hs ?_)
    rw [if_neg (by rwa [tagOf_eq_tagNum]), if_neg (by rwa [tagOf_eq_tagNum])]
    exact yields_pure (hP w h)

theorem yields_derefTerm {x : DWord} {d : Deref} {i : Nat} {P : Deref → Walker → Prop} (h : Walks s0 k T n s c r st w)
    (hd : Derefs (cellAt s k T n) c x none d i) (hr : r + i ≤ 2 ^ 20) (hP : ∀ v, Walks s0 k T n s c (r + i) st v → P d v) :
    Yields (derefTerm x) w P :=
  yields_derefFrom hd h hr (by unfold walkLimit; omega) hP

end

end Sys2Proof.Machine
end

section
/-! SUPPORT. Binding and the occurs check in a lane's walk (R173, R183 to R186). -/

namespace Sys2Proof.Machine

open Sys2Proof.Claims

theorem same_iff (d e : Deref) : d.same e = true ↔ sameVar d e := by
  cases d <;> cases e <;> simp [Deref.same, sameVar]

theorem younger_iff (d e : Deref) : younger d e = true ↔ youngerThan d e := by
  cases d <;> cases e <;> simp [younger, youngerThan, BitVec.ult]

theorem not_limit_lt {base stride n top : Nat} (h : Within base stride n top) :
    ¬((stride != 0 && decide (limit base stride n < top)) = true) := by
  simp only [Bool.and_eq_true, bne_iff_ne, decide_eq_true_eq, not_and, Nat.not_lt]
  intro hs
  rw [limit, if_neg hs]
  exact h hs

section
variable {s0 s s' : State} {k n r : Nat} {T : Team} {c c' : TermCtx} {st : List (Word × Word × Nat)} {w : Walker}

/-! ### Binding (R173, R183) -/

section
variable (h : Walks s0 k T n s c r st w) {P : Unit → Walker → Prop}
include h

theorem yields_pushTrail {e : DWord} (hl : Within T.trail T.tstride n (c.tt.toNat + 8))
    (hx : writeCells k T n s [(c.tt, e)] = some s') (hP : ∀ v, Walks s0 k T n s' { c with tt := c.tt + 8 } r st v → P () v) :
    Yields (pushTrail e) w P := by
  refine yields_bind (yields_get (yields_guard (by rw [h.bounded, h.trail, h.ctx]; exact not_limit_lt hl) ?_))
  rw [h.ctx]
  refine yields_bind (yields_writeCell h hx fun s1 v hs hv => yields_modify ?_)
  obtain rfl := Option.some.inj hs
  exact hP _ { hv with ctx := by rw [hv.ctx] }

theorem yields_bindVar {v : Deref} {x : DWord} (hb : Binds k T n s c v x s' c') (hP : ∀ u, Walks s0 k T n s' c' r st u → P () u) :
    Yields (bindVar v x) w P := by
  obtain ⟨cell, log, hv, hl, hx, rfl⟩ := hb
  have logs : ∀ {s1 : State} {u : Walker}, writeCells k T n s1 [(c.tt, log)] = some s' → Walks s0 k T n s1 c r st u →
      Yields (modify (fun w => { w with bound := log :: w.bound }) >>= fun _ => pushTrail log) u P := fun {s1 u} hs hu =>
    yields_bind (yields_modify (yields_pushTrail (w := { u with bound := log :: u.bound }) { hu with } hl hs hP))
  cases v with
  | ref p =>
    obtain ⟨rfl, rfl⟩ := Prod.mk.inj (Option.some.inj hv)
    rw [refTo_eq_refWord] at hx logs
    exact yields_bind (yields_writeCell h hx fun s1 u hs hu => logs hs hu)
  | cvar p y =>
    obtain ⟨rfl, rfl⟩ := Prod.mk.inj (Option.some.inj hv)
    rw [termOf_one_eq_cvarWord] at hx logs
    rw [entryOf_eq_entryAddr] at hx
    refine yields_bind (yields_get ?_)
    rw [h.ctx]
    exact yields_bind (yields_writeCell h hx fun s1 u hs hu => logs hs hu)
  | value y => cases hv

/-! ### The walk stack (R186) -/

theorem yields_pushWalk {p q : Word} {m : Nat} (hd : st.length < 64) (hP : ∀ v, Walks s0 k T n s c r ((p, q, m) :: st) v → P () v) :
    Yields (pushWalk p q m) w P := by
  refine yields_bind (yields_get ?_)
  rw [if_pos (by rw [h.stack]; exact hd)]
  exact yields_set (hP _ { h with stack := by rw [h.stack] })

theorem yields_readFun {a : Word} {f : DWord} {Q : DWord → Walker → Prop} (hx : cellAt s k T n a = some f) (hs : Sound f)
    (ht : tagNum f = 6) (hr : r < 2 ^ 20) (hQ : ∀ v, Walks s0 k T n s c (r + 1) st v → Q f v) : Yields (readFun a) w Q := by
  refine yields_bind (yields_readCell h hx hr fun v hv => yields_bind (yields_checkTerm hs ?_))
  rw [if_pos ((tagOf_eq_tagNum f).trans ht)]
  exact yields_pure (hQ v hv)

theorem yields_occursCell {Q : Word → Walker → Prop} (hQ : ∀ x v, Walks s0 k T n s c r st v → Q x v) : Yields occursCell w Q := by
  obtain ⟨d, hd⟩ := h.state
  unfold Yields occursCell
  rw [h.fresh]
  exact hQ _ _ { h with state := ⟨d + 1, by simp only [hd]⟩, fresh := rfl }

end

/-! ### The occurs check (R185) -/

/-- A run of cells that the occurs check walks, without the second cell of its entry, which no rule names. -/
def runOfEntry (e : Word × Word × Nat) : Word × Nat := (e.1, e.2.2)

theorem yields_pushArgs {y : DWord} {args : List (Word × Nat)} {j : Nat} {P : Unit → Walker → Prop}
    (ha : ArgCells (cellAt s k T n) y args j) (h : Walks s0 k T n s c r st w) (hr : r + j ≤ 2 ^ 20) (hd : args.length + st.length ≤ 64)
    (hP : ∀ es v, es.map runOfEntry = args → Walks s0 k T n s c (r + j) (es ++ st) v → P () v) : Yields (pushArgs y) w P := by
  unfold pushArgs
  cases ha with
  | str f ht hx hs h6 =>
    rw [if_pos ((tagOf_eq_tagNum y).trans ht)]
    refine yields_bind (yields_readFun h hx hs h6 (by omega) fun v hv => ?_)
    by_cases h0 : arity f = 0
    · rw [if_pos h0] at hP
      rw [if_neg (by rw [show arityOf f = arity f from rfl, h0]; omega)]
      exact yields_pure (hP [] v rfl hv)
    · rw [if_neg h0] at hd hP
      rw [if_pos (show 0 < arityOf f from Nat.pos_of_ne_zero h0)]
      exact yields_bind (yields_occursCell hv fun q u hu => yields_pushWalk hu (by simp at hd; omega) fun z hz =>
        hP [(payload y + 8, q, arityOf f)] z rfl hz)
  | list ht =>
    rw [if_neg (by rw [tagOf_eq_tagNum]; omega), if_pos ((tagOf_eq_tagNum y).trans ht)]
    exact yields_bind (yields_occursCell h fun q u hu => yields_pushWalk hu (by simp at hd; omega) fun z hz =>
      hP [(payload y, q, 2)] z rfl hz)
  | none h5 h7 =>
    rw [if_neg (by rwa [tagOf_eq_tagNum]), if_neg (by rwa [tagOf_eq_tagNum])]
    exact yields_pure (hP [] w rfl h)

/-- The next entry is taken off the stack in hardware. -/
theorem yields_nextPair {p q : Word} {m : Nat} {occ : Bool} {P : Word × Word → Walker → Prop} (h : Walks s0 k T n s c r ((p, q, m) :: st) w)
    (hP : ∀ v, Walks s0 k T n s c r ((if m ≤ 1 then [] else [(p + 8, if occ then q else q + 8, m - 1)]) ++ st) v → P (p, q) v) :
    Yields (nextPair occ) w P := by
  refine yields_bind (yields_get ?_)
  rw [if_neg (by rw [h.unspilled]; exact Nat.lt_irrefl 0), h.stack]
  by_cases hm : m ≤ 1
  · simp only [if_pos hm] at hP ⊢
    exact yields_bind (yields_set (yields_pure (hP _ { h with stack := rfl })))
  · simp only [if_neg hm] at hP ⊢
    exact yields_bind (yields_set (yields_pure (hP _ { h with stack := rfl })))

theorem yields_dropTo {es : List (Word × Word × Nat)} {P : Unit → Walker → Prop} (h : Walks s0 k T n s c r (es ++ st) w)
    (hd : st.length ≤ 64) (hP : ∀ v, Walks s0 k T n s c r st v → P () v) : Yields (dropTo st.length) w P := by
  refine yields_modify ?_
  rw [if_pos hd]
  exact hP _ { h with stack := by rw [h.stack]; simp, unspilled := rfl }

/-- What the occurs check of a variable does with a dereferenced word, before the cells that remain. -/
def occursWith (v : Deref) (base fuel : Nat) (d : Deref) : TM Bool := do
  if d.same v then
    dropTo base
    return true
  match d with
  | .value y => pushArgs y
  | _ => pure ()
  occursFrom v base fuel

/-- A step of the occurs check takes the next cell and dereferences what it reads there. -/
theorem yields_occursFrom_cell {v d : Deref} {es : List (Word × Word × Nat)} {p q : Word} {m fuel i : Nat} {x : DWord}
    {P : Bool → Walker → Prop} (h : Walks s0 k T n s c r ((p, q, m) :: es ++ st) w) (hx : cellAt s k T n p = some x)
    (hd : Derefs (cellAt s k T n) c x none d i) (hr : r + 1 + i ≤ 2 ^ 20)
    (hP : ∀ es' u, es'.map runOfEntry = cellsLeft p m ++ es.map runOfEntry → Walks s0 k T n s c (r + 1 + i) (es' ++ st) u →
      Yields (occursWith v st.length fuel d) u P) :
    Yields (occursFrom v st.length (fuel + 1)) w P := by
  refine yields_bind (yields_get ?_)
  rw [if_neg (by simp [Walker.depth, h.stack]; omega)]
  refine yields_bind (yields_nextPair h fun u hu => yields_bind (yields_readCell hu hx (by omega) fun u hu =>
    yields_bind (yields_derefTerm hu hd hr fun u hu => ?_)))
  refine hP ((if m ≤ 1 then [] else [(p + 8, q, m - 1)]) ++ es) u ?_ (by simpa using hu)
  unfold cellsLeft
  split <;> rfl

theorem yields_occursFrom {v : Deref} {ps : List (Word × Nat)} {i : Nat} {b : Bool}
    (ho : Occurs (cellAt s k T n) c v st.length ps i b) (hd : st.length ≤ 64) {P : Bool → Walker → Prop} :
    ∀ {r fuel : Nat} {es : List (Word × Word × Nat)} {w : Walker}, es.map runOfEntry = ps → Walks s0 k T n s c r (es ++ st) w →
      r + i ≤ 2 ^ 20 → i < fuel → (∀ u, Walks s0 k T n s c (r + i) st u → P b u) → Yields (occursFrom v st.length fuel) w P := by
  have hfuel : ∀ {i fuel : Nat}, i < fuel → ∃ m, fuel = m + 1 := fun h => Nat.exists_eq_succ_of_ne_zero (by omega)
  induction ho with
  | none =>
    intro r fuel es w hes h hr hf hP
    obtain ⟨fuel, rfl⟩ := hfuel hf
    obtain rfl := List.map_eq_nil_iff.1 hes
    refine yields_bind (yields_get ?_)
    rw [if_pos (by simp [Walker.depth, h.stack, h.unspilled])]
    exact yields_pure (hP w h)
  | found p m ps x d i hx hdx hv =>
    intro r fuel es w hes h hr hf hP
    obtain ⟨fuel, rfl⟩ := hfuel hf
    obtain ⟨⟨p, q, m⟩, es, rfl, he, rfl⟩ := List.map_eq_cons_iff.1 hes
    obtain ⟨rfl, rfl⟩ := Prod.mk.inj he
    refine yields_occursFrom_cell h hx hdx (by omega) fun es' u _ hu => ?_
    unfold occursWith
    rw [if_pos ((same_iff d v).2 hv)]
    exact yields_bind (yields_dropTo hu hd fun z hz => yields_pure (hP z (by rwa [Nat.add_assoc] at hz)))
  | value p m ps x y i args j r' b hx hdx ha hl _ ih =>
    intro r fuel es w hes h hr hf hP
    obtain ⟨fuel, rfl⟩ := hfuel hf
    obtain ⟨⟨p, q, m⟩, es, rfl, he, rfl⟩ := List.map_eq_cons_iff.1 hes
    obtain ⟨rfl, rfl⟩ := Prod.mk.inj he
    refine yields_occursFrom_cell h hx hdx (by omega) fun es' u hes' hu => ?_
    have hlen : es'.length = (cellsLeft p m ++ es.map runOfEntry).length := by rw [← hes', List.length_map]
    unfold occursWith
    rw [if_neg (by rw [same_iff]; exact id)]
    refine yields_bind (yields_pushArgs ha hu (by omega) (by simp at hl hlen ⊢; omega) fun fs z hfs hz => ?_)
    exact ih (es := fs ++ es') (by rw [List.map_append, hfs, hes', List.append_assoc]) (by rwa [List.append_assoc]) (by omega)
      (by omega) fun u hu => hP u (by rwa [show r + 1 + i + j + r' = r + (1 + i + j + r') by omega] at hu)
  | other p m ps x d i r' b hx hdx hnv hns _ ih =>
    intro r fuel es w hes h hr hf hP
    obtain ⟨fuel, rfl⟩ := hfuel hf
    obtain ⟨⟨p, q, m⟩, es, rfl, he, rfl⟩ := List.map_eq_cons_iff.1 hes
    obtain ⟨rfl, rfl⟩ := Prod.mk.inj he
    refine yields_occursFrom_cell h hx hdx (by omega) fun es' u hes' hu => ?_
    have hgo := ih hes' hu (by omega) (fuel := fuel) (by omega)
      fun u hu => hP u (by rwa [show r + 1 + i + r' = r + (1 + i + r') by omega] at hu)
    unfold occursWith
    rw [if_neg (by rwa [same_iff])]
    cases d with
    | value y => exact absurd rfl (hnv y)
    | ref p => exact hgo
    | cvar p y => exact hgo

/-! ### Binding to a value (R183, R185) -/

theorem yields_bindValue {oc b : Bool} {v : Deref} {y : DWord} {i : Nat} {P : Bool → Walker → Prop}
    (hb : BindsValue oc k T n s c st.length v y s' c' i b) (h : Walks s0 k T n s c r st w) (hd : st.length ≤ 64)
    (hr : r + i ≤ 2 ^ 20) (hP : ∀ u, Walks s0 k T n s' c' (r + i) st u → P b u) : Yields (bindValue oc v y) w P := by
  have hdepth : w.depth = st.length := by simp [Walker.depth, h.stack, h.unspilled]
  have hcheck : (oc && (tagOf y == 5 || tagOf y == 7)) = true ↔ oc = true ∧ (tagNum y = 5 ∨ tagNum y = 7) := by
    simp [tagOf_eq_tagNum]
  have binds : ∀ {q : Nat} {u : Walker}, Binds k T n s c v y s' c' → Walks s0 k T n s c q st u →
      (∀ u, Walks s0 k T n s' c' q st u → P true u) → Yields (bindVar v y >>= fun _ => pure true) u P := fun hv hu hQ =>
    yields_bind (yields_bindVar hu hv fun z hz => yields_pure (hQ z hz))
  unfold bindValue
  cases hb with
  | plain _ _ hn hv =>
    rw [if_neg (by rw [hcheck]; exact fun ⟨ho, ht⟩ => by have := hn ho; omega)]
    exact binds hv h hP
  | checked args i q _ _ ho ht ha hl hoc hv =>
    rw [if_pos (hcheck.2 ⟨ho, ht⟩)]
    refine yields_bind (yields_get (yields_bind (yields_pushArgs ha h (by omega) (by omega) fun es u hes hu => ?_)))
    rw [hdepth]
    refine yields_bind (yields_occursFrom hoc hd hes hu (by omega) (by unfold walkLimit; omega) fun u hu => ?_)
    exact binds hv hu fun z hz => hP z (by rwa [Nat.add_assoc] at hz)
  | refused args i q ho ht ha hl hoc =>
    rw [if_pos (hcheck.2 ⟨ho, ht⟩)]
    refine yields_bind (yields_get (yields_bind (yields_pushArgs ha h (by omega) (by omega) fun es u hes hu => ?_)))
    rw [hdepth]
    refine yields_bind (yields_occursFrom hoc hd hes hu (by omega) (by unfold walkLimit; omega) fun u hu => ?_)
    exact yields_pure (hP u (by rwa [Nat.add_assoc] at hu))

end

end Sys2Proof.Machine
end

section
/-! SUPPORT. Unification and getarg in a lane's walk (R183 to R186, R188). -/

namespace Sys2Proof.Machine

open Sys2Proof.Claims

theorem not_value_of_sameVar {d e : Deref} (h : sameVar d e) : (∀ z, d ≠ .value z) ∧ ∀ z, e ≠ .value z := by
  cases d <;> cases e <;> simp_all [sameVar]

section
variable {s0 s s' : State} {k n r i j : Nat} {T : Team} {c c' : TermCtx} {st : List (Word × Word × Nat)} {w : Walker}

/-! ### One pair of words (R183, R184) -/

theorem yields_derefs {x y : DWord} {d e : Deref} {β : Type} {f : Deref → Deref → TM β} {P : β → Walker → Prop}
    (h : Walks s0 k T n s c r st w) (hx : Derefs (cellAt s k T n) c x none d i) (hy : Derefs (cellAt s k T n) c y none e j)
    (hr : r + (i + j) ≤ 2 ^ 20) (hP : ∀ u, Walks s0 k T n s c (r + (i + j)) st u → Yields (f d e) u P) :
    Yields (derefTerm x >>= fun d => derefTerm y >>= fun e => f d e) w P :=
  yields_bind (yields_derefTerm h hx (by omega) fun u hu => yields_bind (yields_derefTerm hu hy (by omega) fun v hv =>
    hP v (by rwa [Nat.add_assoc] at hv)))

section
variable {oc : Bool} {x y : DWord} {P : Bool → Walker → Prop} (h : Walks s0 k T n s c r st w)
include h

section
variable {d : Deref} {v : DWord} (hd : ∀ z, d ≠ .value z) (hr : r + (i + j) ≤ 2 ^ 20)
  (hP : ∀ u, Walks s0 k T n s c (r + (i + j)) st u → Yields (bindValue oc d v) u P)
include hd hr hP

theorem yields_unifyPair_left (hx : Derefs (cellAt s k T n) c x none d i) (hy : Derefs (cellAt s k T n) c y none (.value v) j) :
    Yields (unifyPair oc x y) w P := by
  refine yields_derefs h hx hy hr fun u hu => ?_
  cases d with
  | value z => exact absurd rfl (hd z)
  | ref p => exact hP u hu
  | cvar p z => exact hP u hu

theorem yields_unifyPair_right (hx : Derefs (cellAt s k T n) c x none (.value v) i) (hy : Derefs (cellAt s k T n) c y none d j) :
    Yields (unifyPair oc x y) w P := by
  refine yields_derefs h hx hy hr fun u hu => ?_
  cases d with
  | value z => exact absurd rfl (hd z)
  | ref p => exact hP u hu
  | cvar p z => exact hP u hu

end

/-- What unification does with two variables (R184). -/
def unifyVars (d e : Deref) : TM Bool := do
  if d.same e then return true
  if younger d e then bindVar d e.word else bindVar e d.word
  return true

theorem yields_unifyPair_vars {d e : Deref} (hx : Derefs (cellAt s k T n) c x none d i) (hy : Derefs (cellAt s k T n) c y none e j)
    (hd : ∀ z, d ≠ .value z) (he : ∀ z, e ≠ .value z) (hr : r + (i + j) ≤ 2 ^ 20)
    (hP : ∀ u, Walks s0 k T n s c (r + (i + j)) st u → Yields (unifyVars d e) u P) : Yields (unifyPair oc x y) w P := by
  refine yields_derefs h hx hy hr fun u hu => ?_
  have hgo := hP u hu
  cases d with
  | value z => exact absurd rfl (hd z)
  | ref p => cases e with
    | value z => exact absurd rfl (he z)
    | ref q => exact hgo
    | cvar q z => exact hgo
  | cvar p z => cases e with
    | value z => exact absurd rfl (he z)
    | ref q => exact hgo
    | cvar q z => exact hgo

section
variable {v v' : DWord} (hx : Derefs (cellAt s k T n) c x none (.value v) i) (hy : Derefs (cellAt s k T n) c y none (.value v') j)
include hx hy

theorem yields_unifyPair_clash (ht : tagNum v ≠ tagNum v' ∨ v ≠ v' ∧ tagNum v ≠ 8 ∧ tagNum v ≠ 5 ∧ tagNum v ≠ 7)
    (hr : r + (i + j) ≤ 2 ^ 20) (hP : ∀ u, Walks s0 k T n s c (r + (i + j)) st u → P false u) : Yields (unifyPair oc x y) w P := by
  refine yields_derefs h hx hy hr fun u hu => ?_
  simp only [tagOf_eq_tagNum]
  by_cases ht' : tagNum v = tagNum v'
  · obtain ⟨hne, h8, h5, h7⟩ := ht.resolve_left (fun h => h ht')
    rw [if_neg (not_not.2 ht'), if_neg h8, if_neg h5, if_neg h7, beq_false_of_ne hne]
    exact yields_pure (hP u hu)
  · rw [if_pos ht']
    exact yields_pure (hP u hu)

theorem yields_unifyPair_same (ht : tagNum v = tagNum v') (hv : tagNum v = 8 ∨ v = v') (hr : r + (i + j) ≤ 2 ^ 20)
    (hP : ∀ u, Walks s0 k T n s c (r + (i + j)) st u → P true u) : Yields (unifyPair oc x y) w P := by
  refine yields_derefs h hx hy hr fun u hu => ?_
  have hgo : Yields (pure true) u P := yields_pure (hP u hu)
  simp only [tagOf_eq_tagNum, if_neg (not_not.2 ht)]
  by_cases h8 : tagNum v = 8
  · rwa [if_pos h8]
  obtain rfl := hv.resolve_left h8
  simp only [if_neg h8, if_true, beq_self_eq_true]
  by_cases h5 : tagNum v = 5
  · rwa [if_pos h5]
  by_cases h7 : tagNum v = 7
  · rwa [if_neg h5, if_pos h7]
  · rwa [if_neg h5, if_neg h7]

/-- What unification does with the functors of two structures. -/
def unifyFunctors (p q : Word) (f g : DWord) : TM Bool := do
  if f ≠ g then return false
  if 0 < arityOf f then pushWalk (p + 8) (q + 8) (arityOf f)
  return true

theorem yields_unifyPair_structures {f g : DWord} (ht : tagNum v = 5) (ht' : tagNum v' = 5) (hne : v ≠ v')
    (hf : cellAt s k T n (low v) = some f) (hg : cellAt s k T n (low v') = some g) (hsf : Sound f) (hsg : Sound g)
    (h6 : tagNum f = 6) (h6' : tagNum g = 6) (hr : r + (i + j + 2) ≤ 2 ^ 20)
    (hP : ∀ u, Walks s0 k T n s c (r + (i + j + 2)) st u → Yields (unifyFunctors (low v) (low v') f g) u P) :
    Yields (unifyPair oc x y) w P := by
  refine yields_derefs h hx hy (by omega) fun u hu => ?_
  simp only [tagOf_eq_tagNum, ht, ht', ne_eq, not_true_eq_false, if_false, if_neg hne, if_true, Nat.reduceEqDiff]
  refine yields_bind (yields_readCell hu hf (by omega) fun u hu => yields_bind (yields_checkTerm hsf ?_))
  refine yields_bind (yields_readCell hu hg (by omega) fun u hu => yields_bind (yields_checkTerm hsg ?_))
  refine yields_guard (by rw [h6, h6']; simp) ?_
  exact hP u (by rwa [Nat.add_assoc, Nat.add_assoc] at hu)

theorem yields_unifyPair_lists (ht : tagNum v = 7) (ht' : tagNum v' = 7) (hne : v ≠ v') (hl : st.length < 64)
    (hr : r + (i + j) ≤ 2 ^ 20) (hP : ∀ u, Walks s0 k T n s c (r + (i + j)) ((low v, low v', 2) :: st) u → P true u) :
    Yields (unifyPair oc x y) w P := by
  refine yields_derefs h hx hy (by omega) fun u hu => ?_
  simp only [tagOf_eq_tagNum, ht, ht', ne_eq, not_true_eq_false, if_false, if_neg hne, if_true, Nat.reduceEqDiff]
  exact yields_bind (yields_pushWalk hu hl fun z hz => yields_pure (hP z hz))

end

end

theorem yields_unifyFunctors_ne {p q : Word} {f g : DWord} {P : Bool → Walker → Prop} (hne : f ≠ g) (hP : P false w) :
    Yields (unifyFunctors p q f g) w P := by
  unfold unifyFunctors
  rw [if_pos hne]
  exact yields_pure hP

theorem yields_unifyFunctors_same {p q : Word} {f : DWord} {P : Bool → Walker → Prop} (h : Walks s0 k T n s c r st w)
    (hl : arity f ≠ 0 → st.length < 64)
    (hP : ∀ u, Walks s0 k T n s c r (if arity f = 0 then st else (p + 8, q + 8, arity f) :: st) u → P true u) :
    Yields (unifyFunctors p q f f) w P := by
  unfold unifyFunctors
  rw [if_neg (not_not.2 rfl)]
  by_cases h0 : arity f = 0
  · rw [if_pos h0] at hP
    rw [if_neg (show ¬0 < arityOf f by rw [show arityOf f = arity f from rfl, h0]; omega)]
    exact yields_pure (hP w h)
  · rw [if_neg h0] at hP
    rw [if_pos (show 0 < arityOf f from Nat.pos_of_ne_zero h0)]
    exact yields_bind (yields_pushWalk h (hl h0) fun u hu => yields_pure (hP u hu))

theorem yields_unifyVars_same {d e : Deref} {P : Bool → Walker → Prop} (hs : sameVar d e) (hP : P true w) :
    Yields (unifyVars d e) w P := by
  unfold unifyVars
  rw [if_pos ((same_iff d e).2 hs)]
  exact yields_pure hP

theorem yields_unifyVars_binds {d e : Deref} {P : Bool → Walker → Prop} (h : Walks s0 k T n s c r st w) (hs : ¬sameVar d e)
    (hd : youngerThan d e → Binds k T n s c d e.word s' c') (he : ¬youngerThan d e → Binds k T n s c e d.word s' c')
    (hP : ∀ u, Walks s0 k T n s' c' r st u → P true u) : Yields (unifyVars d e) w P := by
  unfold unifyVars
  rw [if_neg (by rwa [same_iff])]
  by_cases hy : younger d e = true
  · rw [if_pos hy]
    exact yields_bind (yields_bindVar h (hd ((younger_iff d e).1 hy)) fun u hu => yields_pure (hP u hu))
  · rw [if_neg hy]
    exact yields_bind (yields_bindVar h (he (by rwa [← younger_iff])) fun u hu => yields_pure (hP u hu))

/-! ### The pairs that wait (R183) -/

/-- Unifying a pair of words, if there is one, and then the pairs that wait. -/
def unifyRest (oc : Bool) (fuel : Nat) : Option (DWord × DWord) → TM Bool
  | none => unifyFrom oc fuel
  | some (x, y) => do
    let ok ← unifyPair oc x y
    if ok then unifyFrom oc fuel else return false

theorem yields_unifyRest {oc b : Bool} {xy : Option (DWord × DWord)} (hu : Unifies oc k T n s c xy st s' c' i b)
    {P : Bool → Walker → Prop} : ∀ {r fuel : Nat} {w : Walker}, Walks s0 k T n s c r st w → st.length ≤ 64 → r + i ≤ 2 ^ 20 →
      i < fuel → (∀ st' u, Walks s0 k T n s' c' (r + i) st' u → P b u) → Yields (unifyRest oc fuel xy) w P := by
  have hfuel : ∀ {i fuel : Nat}, i < fuel → ∃ m, fuel = m + 1 := fun h => Nat.exists_eq_succ_of_ne_zero (by omega)
  induction hu with
  | done s c =>
    intro r fuel w h _ hr hf hP
    obtain ⟨fuel, rfl⟩ := hfuel hf
    refine yields_bind (yields_get ?_)
    rw [if_pos (by simp [Walker.depth, h.stack, h.unspilled])]
    exact yields_pure (hP [] w h)
  | cells s c p q m st x y s' c' i b hx hy _ ih =>
    intro r fuel w h hl hr hf hP
    obtain ⟨fuel, rfl⟩ := hfuel hf
    refine yields_bind (yields_get ?_)
    rw [if_neg (by simp [Walker.depth, h.stack])]
    refine yields_bind (yields_nextPair h fun u hu => yields_bind (yields_readCell hu hx (by omega) fun u hu =>
      yields_bind (yields_readCell hu hy (by omega) fun u hu => ?_)))
    refine ih hu ?_ (by omega) (by omega) fun st' u hu => hP st' u (by rwa [show r + 1 + 1 + i = r + (i + 2) by omega] at hu)
    unfold pairsLeft
    split <;> simp at hl ⊢ <;> omega
  | clash s c x y st v v' i j hx hy ht =>
    intro r fuel w h hl hr hf hP
    exact yields_bind (yields_unifyPair_clash h hx hy ht hr fun u hu => yields_pure (hP st u hu))
  | same s c x y st v v' i j s' c' q b hx hy ht hv _ ih =>
    intro r fuel w h hl hr hf hP
    exact yields_bind (yields_unifyPair_same h hx hy ht hv (by omega) fun u hu =>
      ih hu hl (by omega) (by omega) fun st' u hu => hP st' u (by rwa [Nat.add_assoc] at hu))
  | functors s c x y st v v' i j f g hx hy ht ht' hne hf hg hsf hsg h6 h6' hfg =>
    intro r fuel w h hl hr hf' hP
    exact yields_bind (yields_unifyPair_structures h hx hy ht ht' hne hf hg hsf hsg h6 h6' hr fun u hu =>
      yields_unifyFunctors_ne hfg (yields_pure (hP st u hu)))
  | structures s c x y st v v' i j f s' c' q b hx hy ht ht' hne hf hg hsf h6 hlt _ ih =>
    intro r fuel w h hl hr hf' hP
    refine yields_bind (yields_unifyPair_structures h hx hy ht ht' hne hf hg hsf hsf h6 h6 (by omega) fun u hu =>
      yields_unifyFunctors_same hu hlt fun u hu => ?_)
    refine ih hu ?_ (by omega) (by omega) fun st' u hu => hP st' u (by rwa [Nat.add_assoc] at hu)
    split
    · exact hl
    next h0 => exact hlt h0
  | lists s c x y st v v' i j s' c' q b hx hy ht ht' hne hlt _ ih =>
    intro r fuel w h hl hr hf hP
    exact yields_bind (yields_unifyPair_lists h hx hy ht ht' hne hlt (by omega) fun u hu =>
      ih hu hlt (by omega) (by omega) fun st' u hu => hP st' u (by rwa [Nat.add_assoc] at hu))
  | left s c x y st d v i j s1 c1 q s' c' i' b hx hd hy hb _ ih =>
    intro r fuel w h hl hr hf hP
    exact yields_bind (yields_unifyPair_left h hd (by omega) (fun u hu => yields_bindValue hb hu hl (by omega) fun u hu =>
      ih hu hl (by omega) (by omega) fun st' u hu => hP st' u (by rwa [show r + (i + j) + q + i' = r + (i + j + q + i') by omega] at hu))
      hx hy)
  | right s c x y st d v i j s1 c1 q s' c' i' b hx hy hd hb _ ih =>
    intro r fuel w h hl hr hf hP
    exact yields_bind (yields_unifyPair_right h hd (by omega) (fun u hu => yields_bindValue hb hu hl (by omega) fun u hu =>
      ih hu hl (by omega) (by omega) fun st' u hu => hP st' u (by rwa [show r + (i + j) + q + i' = r + (i + j + q + i') by omega] at hu))
      hx hy)
  | leftRefused s c x y st d v i j q hx hd hy hb =>
    intro r fuel w h hl hr hf hP
    exact yields_bind (yields_unifyPair_left h hd (by omega) (fun u hu => yields_bindValue hb hu hl (by omega) fun u hu =>
      yields_pure (hP st u (by rwa [Nat.add_assoc] at hu))) hx hy)
  | rightRefused s c x y st d v i j q hx hy hd hb =>
    intro r fuel w h hl hr hf hP
    exact yields_bind (yields_unifyPair_right h hd (by omega) (fun u hu => yields_bindValue hb hu hl (by omega) fun u hu =>
      yields_pure (hP st u (by rwa [Nat.add_assoc] at hu))) hx hy)
  | sameVars s c x y st d e i j s' c' q b hx hy hs _ ih =>
    intro r fuel w h hl hr hf hP
    exact yields_bind (yields_unifyPair_vars h hx hy (not_value_of_sameVar hs).1 (not_value_of_sameVar hs).2 (by omega) fun u hu =>
      yields_unifyVars_same hs (ih hu hl (by omega) (by omega) fun st' u hu => hP st' u (by rwa [Nat.add_assoc] at hu)))
  | vars s c x y st d e i j s1 c1 s' c' q b hx hy hd he hns hde hed _ ih =>
    intro r fuel w h hl hr hf hP
    exact yields_bind (yields_unifyPair_vars h hx hy hd he (by omega) fun u hu =>
      yields_unifyVars_binds hu hns hde hed fun u hu =>
        ih hu hl (by omega) (by omega) fun st' u hu => hP st' u (by rwa [Nat.add_assoc] at hu))

/-! ### What a lane does (R182, R183, R188) -/

theorem yields_unifyTerms {oc b : Bool} {x y : DWord} {P : Bool → Walker → Prop} (h : Walks s0 k T n s c 0 [] w)
    (hu : Unifies oc k T n s c (some (x, y)) [] s' c' i b) (hi : i ≤ 2 ^ 20) (hP : ∀ q st v, Walks s0 k T n s' c' q st v → P b v) :
    Yields (unifyTerms oc x y) w P :=
  yields_unifyRest hu h (Nat.zero_le _) (by omega) (by unfold walkLimit; omega) (hP (0 + i))

theorem yields_getArg {x y : DWord} {p : Word} {P : DWord → Walker → Prop} (h : Walks s0 k T n s c 0 [] w) (hs : Sound x)
    (hp : 1 ≤ p.toNat)
    (hx : (tagNum x = 5 ∧ (∃ f, cellAt s k T n (low x) = some f ∧ Sound f ∧ tagNum f = 6 ∧ p.toNat ≤ arity f) ∧
        y = refTo (low x + BitVec.ofNat 32 (8 * p.toNat))) ∨
      (tagNum x = 7 ∧ p.toNat ≤ 2 ∧ y = refTo (low x + BitVec.ofNat 32 (8 * (p.toNat - 1)))))
    (hP : ∀ q v, Walks s0 k T n s c q [] v → P y v) : Yields (getArg x p) w P := by
  have h0 : p ≠ 0 := by rintro rfl; simp at hp
  refine yields_bind (yields_checkTerm hs ?_)
  rcases hx with ⟨h5, ⟨f, hf, hsf, h6, ha⟩, rfl⟩ | ⟨h7, h2, rfl⟩
  · rw [if_pos ((tagOf_eq_tagNum x).trans h5)]
    refine yields_bind (yields_readFun h hf hsf h6 (by omega) fun u hu => ?_)
    refine yields_guard (not_or.2 ⟨h0, Nat.not_lt.2 ha⟩) (yields_pure ?_)
    have he : BitVec.ofNat 32 (8 * p.toNat) = 8 * p := BitVec.eq_of_toNat_eq (by simp)
    rw [refTo_eq_refWord, he] at hP
    exact hP _ u hu
  · rw [if_neg (by rw [tagOf_eq_tagNum]; omega), if_pos ((tagOf_eq_tagNum x).trans h7)]
    refine yields_guard (not_or.2 ⟨h0, Nat.not_lt.2 h2⟩) (yields_pure ?_)
    have he : BitVec.ofNat 32 (8 * (p.toNat - 1)) = 8 * (p - 1) := by bv_omega
    rw [refTo_eq_refWord, he] at hP
    exact hP _ w h

/-- The long-latency term instructions answer what their rule gives, and leave the memory and the context that it leaves. -/
theorem yields_walk {op : TermOp} {d : Opnd} {v m : Nat} {R : TermRule} {x y z : DWord} (hR : LaneDoes k op R)
    (hd : op.dst d = .v v m) (hr : R s0 T n x y s' c z) (hl : op.limited = true → Walks s0 k T n s0 (T.ctx n) 0 [] w) :
    Yields (op.walk T n x y) w (fun a u => a = z ∧ ∃ q st, Walks s0 k T n s' c q st u) := by
  cases hR with
  | deref =>
    obtain ⟨rfl, rfl, e, i, he, hi, rfl⟩ := hr
    exact yields_bind (yields_derefTerm (hl rfl) he (by omega) fun u hu => yields_pure ⟨rfl, _, _, hu⟩)
  | getarg =>
    obtain ⟨rfl, rfl, hs, hj, hx⟩ := hr
    exact yields_getArg (hl rfl) hs hj hx fun q u hu => ⟨rfl, _, _, hu⟩
  | unify oc =>
    obtain ⟨i, b, hu, hi, rfl⟩ := hr
    exact yields_bind (yields_unifyTerms (hl rfl) hu hi fun q st u hu => yields_pure ⟨rfl, _, _, hu⟩)
  | _ => cases hd

end

end Sys2Proof.Machine
end

section
/-! SUPPORT. A step of a team's term instruction (R177, R195, R196): what its lane comes to, and how the instruction ends. -/

namespace Sys2Proof.Machine

open Sys2Proof.Claims

variable {s s1 : State} {k : Nat} {T : Team} {r : TermRun} {l l1 : TermLane} {c : TermCtx} {x : DWord}

/-! ### The step of a lane -/

/-- What a lane at work becomes in a step while its block is placed, and the state after. -/
inductive LaneSteps (s : State) (k : Nat) (t : Team) (op : TermOp) (l : TermLane) : State × TermLane → Prop where
  | walks : l.st = .running → LaneSteps s k t op l (({ s with draws := s.draws + 1 } : State).walkLane k t op l s.laneBudget)
  | undoes (es why) : l.st = .undoing es why →
      LaneSteps s k t op l (({ s with draws := s.draws + 1 } : State).undoLane k t op l es why)

/-- The instruction with what a lane of it has become. -/
def TermRun.withLane (r : TermRun) (l : TermLane) : TermRun :=
  { r with lanes := r.lanes.map (fun m => if m.lane = l.lane then l else m) }

/-- The state of a team's instruction before it ends. -/
def State.setRun (s : State) (k : Nat) (r : TermRun) : State := s.modTeam k (fun u => { u with run := some r })

theorem execTermLane_of_over {p : State × TermLane} (hT : s.team? k = some T) (hrun : T.st = .running)
    (hb : ∃ b, s.block? T.block = some b ∧ b.st = .placed) (hr : T.run = some r) (hf : r.fill = none)
    (hl : r.lanes.find? (fun m => m.lane == l.lane) = some l) (hs : LaneSteps s k T r.op l p) (hlane : p.2.lane = l.lane)
    (ho : (r.withLane p.2).over = true) :
    execTermLane k l.lane s = .next (match r.moved with
      | some pc => (p.1.setRun k (r.withLane p.2)).endMoved k T (r.withLane p.2) pc
      | none => (p.1.setRun k (r.withLane p.2)).endTerm k T (r.withLane p.2)) := by
  obtain ⟨b, hb, hp⟩ := hb
  obtain ⟨op, d, size, lanes, fill, moved⟩ := r
  obtain rfl : fill = none := hf
  have hsave : (!((s.block? T.block).map (fun b => b.st == .placed)).getD false) = false := by simp [hb, hp]
  simp only [TermRun.withLane, hlane] at ho ⊢
  cases hs with
  | walks hst =>
    simp only [execTermLane, hT, hr, hl, hsave, hst, Bool.false_eq_true, if_false, ho, hrun, bne_self_eq_false, Bool.not_true,
      Bool.or_self]
    cases moved <;> rfl
  | undoes es why hst =>
    simp only [execTermLane, hT, hr, hl, hst, Bool.false_eq_true, if_false, ho, hrun, bne_self_eq_false, Bool.not_true,
      Bool.or_self]
    cases moved <;> rfl

/-! ### What the lanes have come to -/

theorem rans_withLane (r : TermRun) (l : TermLane) :
    (r.withLane l).rans = r.lanes.filterMap (fun m => if m.lane = l.lane then l.ran else m.ran) := by
  rw [TermRun.rans, TermRun.withLane, List.filterMap_map]
  exact List.filterMap_congr fun m _ => by simp only [Function.comp]; split <;> rfl

theorem over_withLane (hl : l.ran.isSome = true) (ho : ∀ m ∈ r.lanes, m.lane ≠ l.lane → m.ran.isSome = true) :
    (r.withLane l).over = true := by
  simp only [TermRun.over, TermRun.withLane, List.all_map, List.all_eq_true, Function.comp]
  intro m hm
  split
  · exact hl
  next h => exact ho m hm h

section
variable (ho : ∀ m ∈ r.lanes, m.lane ≠ l.lane → ∃ y, m.st = .done y)
include ho

/-- Where the last lane is done, every lane has its value. -/
theorem rans_withLane_done : (r.withLane { l with st := .done x }).rans = r.lanes.map (fun m => (m.lane, .ok (laneValue l x m))) := by
  rw [rans_withLane, ← List.filterMap_eq_map]
  refine List.filterMap_congr fun m hm => ?_
  simp only [laneValue, Function.comp]
  split
  next h => rw [← h]; rfl
  next h =>
    obtain ⟨y, hy⟩ := ho m hm h
    simp only [TermLane.ran, hy]

theorem over_withLane_done : (r.withLane { l with st := .done x }).over = true :=
  over_withLane rfl fun m hm h => by
    obtain ⟨y, hy⟩ := ho m hm h
    simp only [TermLane.ran, hy, Option.isSome_some]

end

theorem ranStopped_ok {α : Type} (f : α → Nat) (g : α → DWord) : ∀ ms : List α, ranStopped (ms.map (fun m => (f m, .ok (g m)))) = []
  | [] => rfl
  | _ :: ms => ranStopped_ok f g ms

theorem ranElems_ok {α : Type} (f : α → Nat) (g : α → DWord) : ∀ ms : List α,
    (ranElems (ms.map (fun m => (f m, .ok (g m))))).map (fun e => (e.lane, e.got)) = ms.map (fun m => (f m, (g m).setWidth 128))
  | [] => rfl
  | m :: ms => congrArg (List.cons (f m, (g m).setWidth 128)) (ranElems_ok f g ms)

theorem withOperands_values (ls : List TermLane) (es : List Elem) :
    (withOperands ls es).map (fun e => (e.lane, e.got)) = es.map (fun e => (e.lane, e.got)) := by
  rw [withOperands, List.map_map]
  refine List.map_congr_left fun e _ => ?_
  simp only [Function.comp]
  split <;> rfl

/-! ### Results -/

theorem queued_reqKind (op : TermOp) : op.reqKind.queued = false := by cases op <;> rfl

/-- Leaving results touches the requests and their numbering only. -/
theorem produce_eq (s : State) (k : Nat) (t : Team) (op : TermOp) (d : Dst) (es : List Elem) :
    ∃ q m, s.produce k t op.reqKind d es = { s with reqs := q, nextId := m } := by
  unfold State.produce
  split
  · exact ⟨_, _, rfl⟩
  split
  · exact ⟨_, _, rfl⟩
  · by_cases hi : ({ team := k, gen := t.gen, kind := op.reqKind, dst := d, words := dstWords t d, elems := es, pc := t.ctl.pc } : Req).idle = true
    · rw [State.addReq, if_pos hi]
      exact ⟨_, _, rfl⟩
    · rw [addReq_of_unqueued (Bool.eq_false_of_not_eq_true hi) (queued_reqKind op)]
      exact ⟨_, _, rfl⟩

/-- The request that a long-latency term instruction leaves for its destination (R179). -/
def producedReq (k : Nat) (T : Team) (op : TermOp) (d : Dst) (es : List Elem) : Req :=
  { team := k, gen := T.gen, kind := op.reqKind, dst := d, words := dstWords T d, elems := es, pc := T.ctl.pc }

theorem produce_of_fresh {op : TermOp} {v n : Nat} {es : List Elem} (hres : T.ctl.resume = none) (hm : T.amask ≠ 0) :
    s.produce k T op.reqKind (.v v n) es =
      { s with nextId := s.nextId + 1, reqs := s.reqs.put s.nextId (producedReq k T op (.v v n) es) } := by
  have hi : (producedReq k T op (.v v n) es).idle = false := by
    simp [Req.idle, producedReq, dstWords, Team.swept, List.isEmpty_eq_false_iff.mpr (sweep_ne_nil hm)]
  simp only [State.produce, reduceCtorEq, if_false, hres]
  exact addReq_of_unqueued hi (queued_reqKind op)

end Sys2Proof.Machine
end

section
/-! O25 (R40, R173, R177, R179, R182 to R186, R188, R195, R196): the long-latency term instructions. -/

namespace Sys2Proof.Machine

open Sys2Proof.Claims

variable {s s1 : State} {k n v m : Nat} {T : Team} {r : TermRun} {l : TermLane} {c : TermCtx} {x : DWord} {R : TermRule}

/-! ### Issue -/

theorem foldl_setVflags (g : Regs) (v : Nat) {ws : List Nat} (hws : ∀ w ∈ ws, w < 32) (n : Nat) :
    let g' := (List.range n).foldl (fun r j => r.setVflags (v + j) .empty ws) g
    (∀ i j, g'.word i j = g.word i j) ∧ g'.sreg = g.sreg ∧ g'.sflag = g.sflag ∧ g'.h = g.h ∧
      ∀ u w, w < 32 → g'.vflag u w = if v ≤ u ∧ u < v + n ∧ w ∈ ws then Flag.empty else g.vflag u w := by
  induction n with
  | zero => exact ⟨fun _ _ => rfl, rfl, rfl, rfl, fun u w _ => (if_neg (by omega)).symm⟩
  | succ n ih =>
    obtain ⟨hw, hs, hf, hh, hv⟩ := ih
    simp only [List.range_succ, List.foldl_append, List.foldl_cons, List.foldl_nil]
    refine ⟨fun i j => by rw [word_setVflags, hw], (setVflags_rest ..).1.trans hs, (setVflags_rest ..).2.1.trans hf,
      (setVflags_rest ..).2.2.trans hh, fun u w hlt => ?_⟩
    rw [vflag_setVflags _ _ _ _ _ _ hws hlt, hv u w hlt]
    by_cases hu : u = v + n
    · by_cases hm : w ∈ ws <;> simp [hu, hm]
    · rw [if_neg (fun h => hu h.1)]
      exact if_congr (and_congr_right fun _ => and_congr_left fun _ => by omega) rfl rfl

theorem exec_producing {i : Instr} {op : TermOp} {d : Opnd} {v : Fin 256} {c : Nat} {ops : TermOperands}
    (hi : ProducingTerm i op d c ops) (hd : d = .v v) (h : Ready s k T i) (hres : T.ctl.resume = none) :
    exec i s = .next ((s.issued k T i).modTeam k (fun u => { u.markEmpty (.v v c) with run := some (runOf op d i s T ops) })) := by
  obtain ⟨g, hg⟩ := pinned_eq T i
  have hres' : (T.pinned i).ctl.resume = none := by rw [hg]; exact hres
  have hact : (T.pinned i).active = T.active := by rw [hg]; rfl
  cases hi <;>
    (refine (issue_of_ready h _).trans ?_
     simp only [State.settle, hres', hact, Option.isSome_none, Bool.false_eq_true, if_false, TermOp.dst, hd, loadDst, runOf, opTerms,
       termTerm, termWord, dword_pinned, word_pinned, State.issued])

theorem issued_producing {i : Instr} {op : TermOp} {v : Fin 256} {c : Nat} {ops : TermOperands} (hi : ProducingTerm i op (.v v) c ops)
    (h : Ready s k T i) (hres : T.ctl.resume = none) :
    ∃ t T', exec i s = .next t ∧ t.team? k = some T' ∧ T' = { T with run := T'.run, region := T'.region, regs := T'.regs } ∧
      T'.run = some (runOf op (.v v) i s T ops) ∧ Emptied T T' (.v v) c ∧ SameValues T T' ∧ OnlyTeam s t k ∧ SameMemory s t := by
  obtain ⟨g, hg⟩ := pinned_eq T i
  obtain ⟨hw, hs, hf, hh, hv⟩ := foldl_setVflags T.regs v (swept_lt T) c
  refine ⟨_, { (T.pinned i).markEmpty (.v v c) with run := some (runOf op (.v v) i s T ops) }, exec_producing hi rfl h hres,
    ?_, ?_, rfl, ?_, ?_, ⟨rfl, fun j hj => ?_⟩, ⟨fun _ => rfl, fun _ => rfl, fun _ => rfl⟩⟩
  · rw [team?_modTeam, State.issued, team?_setTeam]
    rfl
  · rw [hg]
    rfl
  · rw [hg]
    exact hv
  · rw [hg]
    exact ⟨hw, hs, hf, hh⟩
  · rw [team?_modTeam_ne _ _ hj, State.issued, team?_setTeam_ne _ _ hj]

/-! ### The last lane -/

theorem walks_start (h : LastLane s k T r l) (hl : r.op.limited = true) :
    Walks s k T l.lane s (T.ctx l.lane) 0 [] (({ s with draws := s.draws + 1 } : State).walker k T r.op l s.laneBudget) where
  near := onlyNear_draws k s s.draws
  settled := h.settled
  state := ⟨_, rfl⟩
  team := rfl
  frame := rfl
  lane := rfl
  ctx := rfl
  bounded := rfl
  trail := rfl
  limited := hl
  reads := rfl
  stack := rfl
  unspilled := rfl
  fresh := h.start.2

/-- The last lane's step: memory and context are those of its rule, and its value. -/
theorem walkLane_done (h : LastLane s k T r l) (hR : LaneDoes k r.op R) (hr : R s T l.lane l.a l.b s1 c x) (hd : r.op.dst r.d = .v v n)
    (he : EndsNow s k T r l) :
    OnlyNear k s s1 ∧ ∃ d, ({ s with draws := s.draws + 1 } : State).walkLane k T r.op l s.laneBudget =
      (({ s1 with draws := d } : State).modTeam k (fun u => u.setCtx l.lane c), { l with st := .done x }) := by
  have hy := yields_walk (T := T) (n := l.lane) hR hd hr (walks_start h)
  obtain ⟨y, he⟩ := he
  unfold State.walkLane at he ⊢
  revert he
  rcases hm : r.op.walk T l.lane l.a l.b (({ s with draws := s.draws + 1 } : State).walker k T r.op l s.laneBudget) with
    ⟨a, u⟩ | ⟨_ | _, u⟩
  · intro _
    obtain ⟨rfl, q, st, hu⟩ := hy.of_ok hm
    obtain ⟨d, hd⟩ := hu.state
    refine ⟨hu.near, d, ?_⟩
    dsimp only
    rw [hd, hu.ctx, ← h.start.2]
  · intro he
    cases he
  · intro he
    cases h.start.1.symm.trans he

/-- What an instruction whose lanes all have values leaves: the request for its destination, and the team past it. -/
theorem endTerm_done {ms : List TermLane} {val : TermLane → DWord} (hd : r.op.dst r.d = .v v n) (hres : T.ctl.resume = none)
    (hm : T.amask ≠ 0) (hr : r.rans = ms.map (fun m => (m.lane, .ok (val m)))) :
    s.endTerm k T r = (({ s.modTeam k Team.nextRun with
      nextId := s.nextId + 1
      reqs := s.reqs.put s.nextId (producedReq k T r.op (.v v n) (withOperands r.lanes (ranElems r.rans))) } : State).advance k r.size) := by
  have hstop : stopTrap (ranStopped r.rans) = none := by rw [hr, ranStopped_ok]; rfl
  have hp := produce_of_fresh (s := s.modTeam k Team.nextRun) (k := k) (op := r.op) (v := v) (n := n)
    (es := withOperands r.lanes (ranElems r.rans)) hres hm
  obtain ⟨op, d, size, lanes, fill, moved⟩ := r
  cases op with
  | deref => simp only [State.endTerm, termEffect, hstop, hd, hp]; rfl
  | getarg => simp only [State.endTerm, termEffect, hstop, hd, hp]; rfl
  | unify oc => simp only [State.endTerm, termEffect, hstop, hd, hp]; rfl
  | _ => cases hd

theorem team?_past {U : Team} (h : s.team? k = some U) (f : Team → Team) (r : TermRun) :
    (((s.modTeam k f).setRun k r).modTeam k Team.nextRun).team? k = some { f U with run := (f U).reruns.head?, reruns := (f U).reruns.tail } := by
  rw [team?_modTeam, State.setRun, team?_modTeam, team?_modTeam, h]
  rfl

theorem execTermLane_done (h : LastLane s k T r l) (hR : LaneDoes k r.op R) (hr : R s T l.lane l.a l.b s1 c x)
    (hd : r.op.dst r.d = .v v n) (hres : T.ctl.resume = none) (hmoved : r.moved = none) (he : EndsNow s k T r l) :
    ∃ t T' q, execTermLane k l.lane s = .next t ∧ t.team? k = some T' ∧ T'.run = T.reruns.head? ∧
      T'.ctl = T.ctl.advance r.size ∧ LaneLeft s s1 t k T T' l.lane c ∧ T'.regs = T.regs ∧
      t.reqs.get? s.nextId = some q ∧ q.team = k ∧ q.dst = .v v n ∧ q.words = T.swept ∧
      q.elems.map (fun e => (e.lane, e.got)) = r.lanes.map (fun m => (m.lane, (laneValue l x m).setWidth 128)) := by
  obtain ⟨hnear, d, hw⟩ := walkLane_done h hR hr hd he
  obtain ⟨m, hm⟩ := hnear.team T h.team
  have hrans := rans_withLane_done (x := x) h.others
  have hid : s1.nextId = s.nextId := by rw [hnear.rest]
  have hex := execTermLane_of_over h.team h.running h.block h.run h.fresh h.lane (hw ▸ LaneSteps.walks h.start.1) rfl
    (over_withLane_done h.others)
  rw [hmoved] at hex
  refine ⟨_, (({ T with privMem := m, run := T.reruns.head?, reruns := T.reruns.tail } : Team).setCtx l.lane c).advance r.size,
    producedReq k T r.op (.v v n) (withOperands (r.withLane { l with st := .done x }).lanes (ranElems (r.withLane { l with st := .done x }).rans)),
    hex.trans (congrArg _ (endTerm_done hd hres h.mask hrans)), ?_, rfl, rfl, ?_, rfl, ?_, rfl, rfl, rfl, ?_⟩
  · rw [team?_advance]
    exact congrArg (Option.map (fun t => t.advance r.size)) (team?_past (s := { s1 with draws := d }) hm (fun u => u.setCtx l.lane c) _)
  · refine ⟨?_, fun j hj => ?_, rfl, ?_, _, hm, rfl⟩
    · exact (Sparse.get_set ..).trans (if_pos rfl)
    · exact (Sparse.get_set ..).trans (if_neg hj)
    · rw [SameGlobal, hnear.rest]
      exact ⟨fun _ => rfl, fun _ => rfl⟩
  · rw [← hid]
    exact Table.get?_put_same _ _ _
  · rw [producedReq, withOperands_values, hrans, ranElems_ok]

/-! ### Undoing (R195) -/

/-- A write that its lane may make at once. -/
theorem writeCell_of_check {w : Walker} {a : Word} {y : DWord} {l : NearLoc} (hp : w.past = []) (hb : w.budget ≠ 0)
    (hc : w.s.nearCheck w.f (some w.lane) a 8 = .ok l) (hh : w.s.homeBusy w.k l w.s.nextId = false) :
    ∃ v, writeCell a y w = .ok () v ∧ v.s = w.s.nearWrite w.k l 8 y.toNat := by
  simp only [writeCell, bind, EStateM.bind, accessCell, hp, if_neg hb, hc, hh, Bool.false_eq_true, if_false]
  exact ⟨_, rfl, rfl⟩

theorem undoLane_of_write {op : TermOp} {e : DWord} {es : List DWord} {why : Option (Byte × DWord)} {a : Word} {y : DWord}
    (hq : s.nearOut k = false) (hw : writeCells k T l.lane s [(a, y)] = some s1)
    (he : undoEntry e (s.walker k T op { l with log := [] } 1) = writeCell a y (s.walker k T op { l with log := [] } 1)) :
    s.undoLane k T op l (e :: es) why = (s1, { l with st := .undoing es why }) := by
  unfold writeCells at hw
  split at hw
  next p hc =>
    obtain ⟨v, hv, hs⟩ := writeCell_of_check (y := y) rfl Nat.one_ne_zero hc (homeBusy_of_settled hq p s.nextId)
      (w := s.walker k T op { l with log := [] } 1)
    have hs1 : v.s = s1 := hs.trans (Option.some.inj hw)
    rw [State.undoLane, he, hv, ← hs1]
  next => cases hw

theorem undoLane_cons {op : TermOp} {e : DWord} {es : List DWord} {why : Option (Byte × DWord)} (hq : s.nearOut k = false)
    (hw : (tagNum e = 0 ∧ writeCells k T l.lane s [(low e, e)] = some s1) ∨
      (tagNum e = 1 ∧ writeCells k T l.lane s [(entryOf (T.ctx l.lane) (low e), emptyEntry)] = some s1)) :
    s.undoLane k T op l (e :: es) why = (s1, { l with st := .undoing es why }) := by
  rcases hw with ⟨ht, hw⟩ | ⟨ht, hw⟩
  · refine undoLane_of_write hq hw ?_
    simp only [undoEntry, tagOf_eq_tagNum, ht, if_true]
    rfl
  · refine undoLane_of_write hq hw ?_
    rw [entryOf_eq_entryAddr]
    simp only [undoEntry, tagOf_eq_tagNum, ht, Nat.one_ne_zero, if_false, if_true]
    rfl

/-! ### Stops (R195, R196) -/

theorem stopTrap_cons (p : Nat × Stop) (ps : List (Nat × Stop)) :
    ∃ tr, stopTrap (p :: ps) = some tr ∧ tr.term = true ∧ tr.code = p.2.code ∧
      tr.mask = some (Mask.ofLanes ((p :: ps).map Prod.fst)) := ⟨_, rfl, rfl, rfl, rfl⟩

/-- The lanes of an instruction that have stopped, with their codes. -/
def TermLane.code (m : TermLane) : Option (Nat × Byte) :=
  match m.st with
  | .stopped c _ => some (m.lane, c)
  | _ => none

theorem ranStopped_codes : ∀ ms : List TermLane,
    (ranStopped (ms.filterMap TermLane.ran)).map (fun p => (p.1, p.2.code)) = ms.filterMap TermLane.code
  | [] => rfl
  | m :: ms => by
    have ih := ranStopped_codes ms
    cases h : m.st <;> simp only [List.filterMap_cons, TermLane.ran, TermLane.code, h, ranStopped, List.map_cons, ih]

/-- An instruction that has ended with lanes that stopped raises their trap. -/
theorem endTerm_stopped {tr : Trap} (h : stopTrap (ranStopped r.rans) = some tr) :
    ∃ s', s.endTerm k T r = s'.takeTrap k 0 tr ∧ SameMemory s s' := by
  obtain ⟨op, d, size, lanes, fill, moved⟩ := r
  cases op
  case deref | getarg | unify =>
    simp only [State.endTerm, termEffect, h]
    obtain ⟨q, m, hp⟩ := produce_eq (s.modTeam k Team.nextRun) k T _ _ _
    refine ⟨_, rfl, ?_⟩
    rw [hp]
    exact ⟨fun _ => rfl, fun _ => rfl, fun _ => rfl⟩
  all_goals
    simp only [State.endTerm, termEffect, h]
    exact ⟨_, rfl, fun _ => rfl, fun _ => rfl, fun _ => rfl⟩

theorem endMoved_stopped {tr : Trap} (h : stopTrap (ranStopped r.rans) = some tr) (pc : DWord) :
    s.endMoved k T r pc = s.takeTrap k 0 { tr with pc := some pc } := by rw [State.endMoved, h]

theorem codes_withLane (r : TermRun) (l : TermLane) :
    (r.withLane l).lanes.filterMap TermLane.code = r.lanes.filterMap (fun m => if m.lane = l.lane then l.code else m.code) := by
  rw [TermRun.withLane, List.filterMap_map]
  exact List.filterMap_congr fun m _ => by simp only [Function.comp]; split <;> rfl

theorem execTermLane_stopped {code : Byte} {addr : DWord} {lanes : List (Nat × Byte)} (hT : s.team? k = some T)
    (hrun : T.st = .running) (hb : ∃ b, s.block? T.block = some b ∧ b.st = .placed) (hr : T.run = some r) (hf : r.fill = none)
    (hl : r.lanes.find? (fun m => m.lane == l.lane) = some l) (hst : l.st = .undoing [] (some (code, addr)))
    (ho : ∀ m ∈ r.lanes, m.lane ≠ l.lane → (∃ y, m.st = .done y) ∨ ∃ c a, m.st = .stopped c a)
    (hlanes : lanes = r.lanes.filterMap (fun m => if m.lane = l.lane then some (l.lane, code) else m.code)) :
    ∃ s' tr, execTermLane k l.lane s = .next (s'.takeTrap k 0 tr) ∧ SameMemory s s' ∧ tr.term = true ∧
      some tr.code = (lanes.head?).map Prod.snd ∧ tr.mask = some (Mask.ofLanes (lanes.map Prod.fst)) := by
  have hover : (r.withLane { l with st := .stopped code addr }).over = true := over_withLane rfl fun m hm h => by
    rcases ho m hm h with ⟨y, hy⟩ | ⟨c, a, hc⟩
    · simp only [TermLane.ran, hy, Option.isSome_some]
    · simp only [TermLane.ran, hc, Option.isSome_some]
  have hex := execTermLane_of_over hT hrun hb hr hf hl (.undoes [] _ hst) rfl hover
  have hcodes := (ranStopped_codes _).trans ((codes_withLane r { l with st := .stopped code addr }).trans hlanes.symm)
  have hmem : (l.lane, code) ∈ lanes := by
    rw [hlanes]
    exact List.mem_filterMap.2 ⟨l, List.mem_of_find?_eq_some hl, if_pos rfl⟩
  cases hps : ranStopped (r.withLane { l with st := .stopped code addr }).rans with
  | nil =>
    rw [← hcodes, ← TermRun.rans, hps] at hmem
    cases hmem
  | cons p ps =>
    rw [← TermRun.rans, hps] at hcodes
    obtain ⟨tr, htr, hterm, hcode, hmask⟩ := stopTrap_cons p ps
    rw [← hps] at htr
    have hhead : some p.2.code = (lanes.head?).map Prod.snd := by rw [← hcodes]; rfl
    have hfst : (p :: ps).map Prod.fst = lanes.map Prod.fst := by rw [← hcodes, List.map_map]; rfl
    cases hm : r.moved with
    | some pc =>
      rw [hm] at hex
      exact ⟨_, _, hex.trans (congrArg _ (endMoved_stopped htr pc)), ⟨fun _ => rfl, fun _ => rfl, fun _ => rfl⟩, hterm,
        by rw [← hhead, ← hcode], by rw [← hfst, ← hmask]⟩
    | none =>
      rw [hm] at hex
      obtain ⟨s', hs', hsame⟩ := endTerm_stopped (s := ({ s with draws := s.draws + 1 } : State).setRun k _) (k := k) (T := T) htr
      exact ⟨s', tr, hex.trans (congrArg _ hs'), hsame, hterm, by rw [hcode, hhead], by rw [hmask, hfst]⟩

/-- Settles O25: a lane's walk answers what the rules of R182 to R188 give, as long as it does not wait, and leaves the memory they
leave; a stopped lane's undo is one write; and what the lanes come to is one request, or one trap. -/
theorem termsProduce : Obligations.TermsProduce := by
  unfold Obligations.TermsProduce
  refine ⟨fun s k T i op v c ops hi h hres => issued_producing hi h hres, fun s k T r l R s1 c x v n h hR hr hd hres hmoved he =>
    execTermLane_done h hR hr hd hres hmoved he, fun s k T op l e es why s1 _ hq hw => undoLane_cons hq hw,
    fun s k T r l code addr lanes hT hrun hb hr hf hl hst ho hlanes => ?_⟩
  exact execTermLane_stopped hT hrun hb hr hf hl hst ho hlanes

end Sys2Proof.Machine
end

section
/-! SUPPORT. pblk and its coverage (R65): the mask of each covered instruction, lane by lane, and the path's mask behind the
last. -/

namespace Sys2Proof.Machine

/-! ### Masks by their lanes -/

theorem getLsbD_one {i l : Nat} (hl : l < 1024) : (Mask.one i).getLsbD l = decide (i = l) := by
  rw [Mask.one, BitVec.getLsbD_ofNat, Nat.testBit_two_pow]
  simp [hl]

/-- A lane is in the mask of a list exactly if it is in the list. -/
theorem getLsbD_ofLanes (ns : List Nat) {l : Nat} (hl : l < 1024) : (Mask.ofLanes ns).getLsbD l = decide (l ∈ ns) := by
  induction ns with
  | nil => simp [Mask.ofLanes]
  | cons n r ih => simp [Mask.ofLanes, getLsbD_one hl, ih, eq_comm]

/-! ### The coverage -/

/-- The mask of a covered instruction: the path's lanes that hold the predicate, or the others (R65). -/
theorem getLsbD_coverMask (c : Cover) (j : Nat) {l : Nat} (hl : l < 1024) :
    (c.mask j).getLsbD l = (c.m.getLsbD l && (if c.pat.getLsbD j then c.p.getLsbD l else !c.p.getLsbD l)) := by
  unfold Cover.mask
  split <;> simp [hl]

/-- The mask with which a team's next instruction issues under a live coverage. -/
theorem amask_covered {c : Ctl} {v : Cover} (hv : c.cover = some v) (hr : c.resume = none) : c.amask = v.mask v.next := by
  simp [Ctl.amask, hv, hr]

theorem cover_advance {c : Ctl} {v : Cover} (size : Nat) (hv : c.cover = some v) : (c.advance size).cover = v.after := by
  simp [Ctl.advance, hv]

/-- Behind a covered instruction that is not the last, the next one is covered. -/
theorem amask_advance_inside {c : Ctl} {v : Cover} {size : Nat} (hv : c.cover = some v) (h : v.next < v.n) :
    (c.advance size).amask = v.mask (v.next + 1) :=
  amask_covered (v := { v with next := v.next + 1 }) (by rw [cover_advance size hv, Cover.after, if_pos h]) rfl

/-- Behind the last covered instruction the mask is the path's. -/
theorem amask_advance_last {c : Ctl} {v : Cover} {size : Nat} (hv : c.cover = some v) (h : v.n ≤ v.next) :
    (c.advance size).amask = c.mask := by
  have hc : (c.advance size).cover = none := by rw [cover_advance size hv, Cover.after, if_neg (Nat.not_lt.mpr h)]
  have hr : (c.advance size).resume = none := rfl
  rw [Ctl.amask, hr, hc]
  rfl

/-! ### pblk -/

/-- The lanes that hold a pblk's predicate: active lanes whose register has bit 0. -/
def Team.predicate (t : Team) (p : Nat) : Mask := Mask.ofLanes (t.active.filter (fun i => (t.regs.word i p).getLsbD 0))

theorem getLsbD_predicate (t : Team) (p : Nat) {l : Nat} (hl : l < 1024) :
    (t.predicate p).getLsbD l = (decide (l ∈ t.active) && (t.regs.word l p).getLsbD 0) := by
  rw [Team.predicate, getLsbD_ofLanes _ hl]
  simp [List.mem_filter]

/-- The coverage a pblk starts. -/
def Team.covered (t : Team) (pat : Byte) (n : BitVec 3) (p : Nat) : Cover :=
  { m := t.ctl.mask, p := t.predicate p, pat := pat, n := n.toNat, next := 0 }

theorem onlyTeam_modTeam (s : State) (k : Nat) (f : Team → Team) : OnlyTeam s (s.modTeam k f) k :=
  ⟨rfl, fun _ hj => team?_modTeam_ne _ _ hj⟩

/-- A ready pblk covers what follows it: the team is past it, with the coverage, and nothing else of it changes but pins. -/
theorem execPblk_covers {s : State} {k : Nat} {T : Team} {pat : Byte} {n : BitVec 3} {p : Fin 32} {tb : Bool}
    (h : Ready s k T (.pblk pat n p tb)) :
    ∃ t T', exec (.pblk pat n p tb) s = .next t ∧ t.team? k = some T' ∧ T'.regs = T.regs ∧
      T'.ctl = { T.ctl.advance 4 with cover := some (T.covered pat n p) } ∧ OnlyTeam s t k := by
  refine ⟨_, _, (issue_of_ready h _).trans rfl, (team?_modTeam _ _ _).trans (by rw [team?_setTeam]; rfl), ?_, ?_,
    onlyTeam_trans (onlyTeam_setTeam s k _) (onlyTeam_modTeam _ k _)⟩
  · exact pinned_regs _ _
  · simp [Team.covered, Team.predicate]

/-- Settles O16: pblk sets the coverage whose masks are told lane by lane, and the coverage alone says what is active. -/
theorem prefixCoverage : Obligations.PrefixCoverage := by
  unfold Obligations.PrefixCoverage
  constructor
  · intro s k T pat n p tb h
    obtain ⟨t, T', hex, hT', hregs, hctl, ho⟩ := execPblk_covers h
    refine ⟨t, T', T.covered pat n p, hex, hT', by rw [hctl]; rfl, by rw [hctl]; rfl, by rw [hctl], rfl, rfl, hregs, ho,
      sameMemory_of_only ho, fun j _ l hl => ?_⟩
    rw [getLsbD_coverMask _ _ hl]
    simp only [Team.covered, getLsbD_predicate T p hl]
  · intro c v size hv hr
    exact ⟨amask_covered hv hr, amask_advance_inside hv, amask_advance_last hv⟩

end Sys2Proof.Machine
end

section
/-! SUPPORT. A MEM_READ whose function holds an error offset of 2^52 (R254, R389): a status word has 52 bits for its offset.

No run leaves such an offset, as every copy is of 2^31 bytes at most; but the statement speaks of every state. -/

namespace Sys2Proof.Machine

open Sys2Proof.Claims

/-- MEM_READ of function 1, tag 7: one byte of the tenant's memory at 0x4000, to the first byte of host memory. -/
def byteRead : CmdEntry :=
  { fn := 1, bits := BitVec.ofNat 512 (0x23 + 1 * 2 ^ 16 + 7 * 2 ^ 32 + 2 ^ 51 * 2 ^ 64 + 0x4000 * 2 ^ 128 + 1 * 2 ^ 192) }

/-- The command in progress, its byte still to be copied, with an error noted at offset 2^52. The tenant's tables, in its pages
0 and 1, map the first GiB at its own addresses, and page 4 is the tenant's. -/
def farErrorState : State :=
  { State.reset with
    tenants := [(0, { qn := 1 })]
    dram := [(0, 0x01), (1, 0x10), (0x1000, 0x0F)]
    rot := [(0, 0xC000), (1, 0xC000), (4, 0x8000)]
    fns := [(1, { running := some byteRead, done := 0, bad := some (2 ^ 52) })] }

theorem accepted_byteRead : Accepted farErrorState (.memRead byteRead) byteRead where
  row := ⟨0x23, .virtual, _, .memRead _, by decide +kernel, nofun, by decide, by unfold Unused; decide +kernel⟩
  serves := by decide +kernel
  tag := by decide +kernel
  field := by decide +kernel

theorem byteRead_fields : byteRead.get 8 8 = 2 ^ 51 ∧ byteRead.get 16 8 = 0x4000 ∧ byteRead.get 24 4 = 1 ∧
    farErrorState.fn byteRead.fn = { running := some byteRead, done := 0, bad := some (2 ^ 52) } := by
  decide +kernel

/-- The tenant's byte can be read. -/
theorem engineRead_byteRead : ∃ bs poison, farErrorState.engineRead hostCluster byteRead.tenant 0x4000 1 = .ok (bs, poison) := by
  have h : (match farErrorState.engineRead hostCluster byteRead.tenant 0x4000 1 with | .ok _ => true | .error _ => false) = true := by
    decide +kernel
  split at h
  · next r hr => exact ⟨r.1, r.2, hr⟩
  · cases h

/-- The command completes, and the value it reports has status 5 at offset 0. -/
theorem owed_of_byteRead {t : State} (ht : exec (.memRead byteRead) farErrorState = .next t) :
    (t.fn byteRead.fn).owed = [⟨7, 0, 0, statusOf 0x05 0⟩] := by
  simpa using check_of_exec (p := fun t => (t.fn byteRead.fn).owed == [⟨7, 0, 0, statusOf 0x05 0⟩]) (by decide +kernel) ht

/-- Refutes O51: the value of a copy that is over keeps the low 52 bits of the offset noted, and not the whole of it. -/
theorem not_gridCommands : ¬ Obligations.GridCommands := by
  unfold Obligations.GridCommands
  rintro ⟨-, -, -, copies⟩
  obtain ⟨-, runs⟩ := copies farErrorState _ byteRead (.inr rfl) accepted_byteRead
  obtain ⟨hhost, hva, hlen, hfn⟩ := byteRead_fields
  simp only [hhost, hva, hlen, hfn] at runs
  obtain ⟨-, reads⟩ := runs (by decide +kernel) (by unfold hostAddr; decide) (by unfold hostAddr; decide) (by decide) (by decide)
    (by decide)
  obtain ⟨bs, poison, hread⟩ := engineRead_byteRead
  obtain ⟨-, copied⟩ := reads trivial
  obtain ⟨completes, -⟩ := copied bs poison hread
  obtain ⟨t, hexec, -, howed, -⟩ := completes rfl
  rw [owed_of_byteRead hexec, hfn] at howed
  simp only [reduceCtorEq, and_false, if_false] at howed
  exact absurd howed (by decide +kernel)

end Sys2Proof.Machine
end

section
/-! SUPPORT. The model's values of the lane and uniform instructions (R83 to R91, R94 to R97) are those of the tables. -/

namespace Sys2Proof.Machine

open Sys2Proof.Claims

/-! ### Fields and counts -/

theorem shiftCount_eq (b : Word) : shiftCount b = b.toNat % 32 := by simp [shiftCount, field]
theorem fieldPos_eq (b : Word) : fieldPos b = ctlPos b := by simp [fieldPos, ctlPos, field]
theorem fieldWidth_eq (b : Word) : fieldWidth b = ctlWidth b := by simp [fieldWidth, ctlWidth, field]

theorem getLsbD_zero_iff {n : Nat} (x : BitVec n) : x.getLsbD 0 = true ↔ x.toNat % 2 = 1 := by
  simp [BitVec.getLsbD, Nat.testBit_zero]

/-- The counted bits among the low `n`. -/
theorem cpopNatRec_eq_length {w : Nat} (x : BitVec w) (n : Nat) :
    x.cpopNatRec n 0 = ((List.range n).filter (fun k => x.getLsbD k)).length := by
  induction n with
  | zero => simp
  | succ n ih =>
    rw [BitVec.cpopNatRec_succ, BitVec.cpopNatRec_eq, ih, List.range_succ, List.filter_append, List.length_append]
    cases h : x.getLsbD n <;> simp [h]

theorem popcount_eq_cpop (a : Word) : BitVec.ofNat 32 (popcount a) = a.cpop := by
  rw [BitVec.cpop, cpopNatRec_eq_length, popcount]

theorem clzWord_eq_clz (a : Word) : clzWord a = a.clz := by
  unfold clzWord
  split
  · next h => exact (BitVec.clz_eq_iff_eq_zero.mpr h).symm
  · next h =>
    have lower := BitVec.two_pow_sub_clz_le_toNat_of_ne_zero (by decide) h
    have upper := BitVec.toNat_lt_two_pow_sub_clz (x := a)
    have hlt : a.clz.toNat < 32 := BitVec.clz_lt_iff_ne_zero.mpr h
    have hlog : Nat.log2 a.toNat = 31 - a.clz.toNat := by
      refine (Nat.log2_eq_iff fun h0 => h (BitVec.eq_of_toNat_eq h0)).mpr ⟨lower, ?_⟩
      rwa [show 31 - a.clz.toNat + 1 = 32 - a.clz.toNat by omega]
    rw [hlog, show 31 - (31 - a.clz.toNat) = a.clz.toNat by omega, BitVec.ofNat_toNat, BitVec.setWidth_eq]

/-! ### Signed and unsigned arithmetic (R84) -/

theorem absWord_eq (a : Word) : absWord a = BitVec.ofInt 32 |a.toInt| := by
  unfold absWord
  split
  · next h => rw [abs_of_neg (BitVec.toInt_neg_of_msb_true h), BitVec.ofInt_neg, BitVec.ofInt_toInt]
  · next h => rw [abs_of_nonneg (BitVec.toInt_nonneg_of_msb_false (by simpa using h)), BitVec.ofInt_toInt]

theorem minS_eq {n : Nat} (a b : BitVec n) : minS a b = BitVec.ofInt n (min a.toInt b.toInt) := by
  unfold minS
  split
  · next h => rw [min_eq_left (BitVec.sle_iff_toInt_le.mp h), BitVec.ofInt_toInt]
  · next h => rw [min_eq_right (not_le.mp (mt BitVec.sle_iff_toInt_le.mpr h)).le, BitVec.ofInt_toInt]

theorem maxS_eq {n : Nat} (a b : BitVec n) : maxS a b = BitVec.ofInt n (max a.toInt b.toInt) := by
  unfold maxS
  split
  · next h => rw [max_eq_left (BitVec.sle_iff_toInt_le.mp h), BitVec.ofInt_toInt]
  · next h => rw [max_eq_right (not_le.mp (mt BitVec.sle_iff_toInt_le.mpr h)).le, BitVec.ofInt_toInt]

theorem minU_eq {n : Nat} (a b : BitVec n) : minU a b = BitVec.ofNat n (min a.toNat b.toNat) := by
  unfold minU
  split
  · next h => rw [min_eq_left (BitVec.ule_iff_toNat_le.mp h), BitVec.ofNat_toNat, BitVec.setWidth_eq]
  · next h => rw [min_eq_right (not_le.mp (mt BitVec.ule_iff_toNat_le.mpr h)).le, BitVec.ofNat_toNat, BitVec.setWidth_eq]

theorem maxU_eq {n : Nat} (a b : BitVec n) : maxU a b = BitVec.ofNat n (max a.toNat b.toNat) := by
  unfold maxU
  split
  · next h => rw [max_eq_left (BitVec.ule_iff_toNat_le.mp h), BitVec.ofNat_toNat, BitVec.setWidth_eq]
  · next h => rw [max_eq_right (not_le.mp (mt BitVec.ule_iff_toNat_le.mpr h)).le, BitVec.ofNat_toNat, BitVec.setWidth_eq]

/-- The high word of a 64-bit number that is an integer mod 2^64. -/
theorem highWord_ofInt (x : Int) : ((BitVec.ofInt 64 x) >>> 32).setWidth 32 = BitVec.ofInt 32 (x / 2 ^ 32) := by
  apply BitVec.eq_of_toNat_eq
  simp only [BitVec.toNat_setWidth, BitVec.toNat_ushiftRight, BitVec.toNat_ofInt, Nat.shiftRight_eq_div_pow]
  omega

theorem mulhS_eq (a b : Word) : mulhS a b = ((a.signExtend 64 * b.signExtend 64) >>> 32).setWidth 32 := by
  rw [BitVec.signExtend, BitVec.signExtend, ← BitVec.ofInt_mul, highWord_ofInt, mulhS]

theorem mulhU_eq (a b : Word) : mulhU a b = ((a.setWidth 64 * b.setWidth 64) >>> 32).setWidth 32 := by
  have hprod : a.setWidth 64 * b.setWidth 64 = BitVec.ofInt 64 ((a.toNat * b.toNat : Nat) : Int) := by
    rw [BitVec.ofInt_natCast, BitVec.ofNat_mul, BitVec.ofNat_toNat, BitVec.ofNat_toNat]
  rw [hprod, highWord_ofInt, mulhU, ← BitVec.ofInt_natCast]
  rfl

theorem mul_eq_ofNat {n : Nat} (a b : BitVec n) : a * b = BitVec.ofNat n (a.toNat * b.toNat) := by
  rw [BitVec.ofNat_mul, BitVec.ofNat_toNat, BitVec.ofNat_toNat, BitVec.setWidth_eq, BitVec.setWidth_eq]

theorem sub_eq_ofInt {n : Nat} (a b : BitVec n) : a - b = BitVec.ofInt n (a.toNat - b.toNat) := by
  rw [Int.sub_eq_add_neg, BitVec.ofInt_add, BitVec.ofInt_neg, BitVec.ofInt_natCast, BitVec.ofInt_natCast, BitVec.ofNat_toNat,
    BitVec.ofNat_toNat, BitVec.setWidth_eq, BitVec.setWidth_eq, BitVec.sub_eq_add_neg]

theorem mul_add_eq_ofNat {n : Nat} (a b c : BitVec n) : a * b + c = BitVec.ofNat n (a.toNat * b.toNat + c.toNat) := by
  rw [BitVec.ofNat_add, ← mul_eq_ofNat, BitVec.ofNat_toNat, BitVec.setWidth_eq]

/-! ### Shifts and bit fields (R86, R87, R94) -/

theorem shiftLeft_eq_ofNat {n : Nat} (a : BitVec n) (k : Nat) : a <<< k = BitVec.ofNat n (a.toNat * 2 ^ k) := by
  apply BitVec.eq_of_toNat_eq
  rw [BitVec.toNat_shiftLeft, BitVec.toNat_ofNat, Nat.shiftLeft_eq]

theorem ushiftRight_eq_ofNat {n : Nat} (a : BitVec n) (k : Nat) : a >>> k = BitVec.ofNat n (a.toNat / 2 ^ k) := by
  apply BitVec.eq_of_toNat_eq
  rw [BitVec.toNat_ushiftRight, BitVec.toNat_ofNat, Nat.shiftRight_eq_div_pow,
    Nat.mod_eq_of_lt (lt_of_le_of_lt (Nat.div_le_self _ _) a.isLt)]

theorem sshiftRight_eq_ofInt {n : Nat} (a : BitVec n) (k : Nat) : a.sshiftRight k = BitVec.ofInt n (a.toInt / 2 ^ k) := by
  rw [BitVec.sshiftRight, Int.shiftRight_eq_div_pow]
  norm_cast

theorem rotateLeft_eq (a : Word) {k : Nat} (h : k < 32) :
    a.rotateLeft k = BitVec.ofNat 32 (a.toNat * 2 ^ k) ||| BitVec.ofNat 32 (a.toNat / 2 ^ (32 - k)) := by
  rw [BitVec.rotateLeft, Nat.mod_eq_of_lt h, BitVec.rotateLeftAux, shiftLeft_eq_ofNat, ushiftRight_eq_ofNat]

theorem bfxU_eq (a b : Word) : bfxU a b = BitVec.ofNat 32 (a.toNat / 2 ^ ctlPos b % 2 ^ ctlWidth b) := by
  rw [bfxU, fieldPos_eq, fieldWidth_eq, nfield]

theorem testBit_top {e w : Nat} (h : e < 2 ^ w) (hw : w ≠ 0) : e / 2 ^ (w - 1) = (e.testBit (w - 1)).toNat := by
  obtain ⟨v, rfl⟩ := Nat.exists_eq_succ_of_ne_zero hw
  have hlt : e / 2 ^ v < 2 := Nat.div_lt_of_lt_mul (by rwa [← pow_succ])
  rw [Nat.toNat_testBit, Nat.succ_sub_one, Nat.mod_eq_of_lt hlt]

theorem bfxS_eq (a b : Word) : bfxS a b =
    let w := ctlWidth b
    let e := a.toNat / 2 ^ ctlPos b % 2 ^ w
    if w = 0 then 0 else BitVec.ofInt 32 ((e : Int) - 2 ^ w * (e / 2 ^ (w - 1) : Nat)) := by
  simp only [bfxS, fieldPos_eq, fieldWidth_eq, nfield]
  split
  · rfl
  · next hw =>
    rw [testBit_top (Nat.mod_lt _ (by positivity)) hw]
    split
    · next h => simp [h]
    · next h => simp only [h, Bool.toNat_false, Nat.cast_zero, mul_zero, sub_zero, BitVec.ofInt_natCast]

theorem bfi_eq (a b c : Word) : bfi a b c =
    let m := BitVec.ofNat 32 ((2 ^ ctlWidth b - 1) * 2 ^ ctlPos b)
    (c &&& ~~~m) ||| (BitVec.ofNat 32 (a.toNat * 2 ^ ctlPos b) &&& m) := by
  simp only [bfi, fieldPos_eq, fieldWidth_eq]

end Sys2Proof.Machine
end

section
/-! SUPPORT. Lane results leave float status as it was and, in a team without regions and tags, regions and tags too (R313). -/

namespace Sys2Proof.Machine

open Sys2Proof.Claims

/-! ### Pinning -/

/-- A team of which nothing but regions has changed, and not even these where it has none: some inputs are pinned. -/
def OnlyPinned (T U : Team) : Prop := ∃ g, U = { T with region := g } ∧ (T.region = [] → g = [])

theorem pinLane_of_no_region {t : Team} (h : t.region = []) (n : Nat) (os : List Opnd) : t.pinLane n os = t := by
  have hn : t.regionOf n = none := by rw [Team.regionOf, h]; rfl
  unfold Team.pinLane
  induction os with
  | nil => rfl
  | cons o os ih =>
    rw [List.foldl_cons, hn]
    cases t.tagOf n o <;> exact ih

theorem pinLanes_of_no_region {t : Team} (h : t.region = []) (os : List Opnd) (ns : List Nat) : t.pinLanes os ns = t := by
  induction ns with
  | nil => rfl
  | cons n ns ih => rw [Team.pinLanes, pinLane_of_no_region h, ih]

theorem OnlyPinned.pinLanes {T U : Team} (h : OnlyPinned T U) (os : List Opnd) (ns : List Nat) :
    OnlyPinned T (U.pinLanes os ns) := by
  obtain ⟨g, rfl, hg⟩ := h
  obtain ⟨g', hg'⟩ := pinLanes_eq os ns { T with region := g }
  refine ⟨g', hg', fun h0 => ?_⟩
  rw [pinLanes_of_no_region (hg h0)] at hg'
  exact (congrArg Team.region hg').symm.trans (hg h0)

theorem onlyPinned_pinned (T : Team) (i : Instr) : OnlyPinned T (T.pinned i) := by
  unfold Team.pinned
  have hT : OnlyPinned T T := ⟨T.region, rfl, id⟩
  split
  · exact hT
  · exact hT.pinLanes _ _

/-! ### Tags -/

theorem tagOf_of_untagged {t : Team} (h : t.regs.tag = []) (n : Nat) (o : Opnd) : t.tagOf n o = none := by
  unfold Team.tagOf Regs.tagOf
  rw [h]
  cases laneNum o <;> rfl

theorem setTag_none_of_untagged {r : Regs} (h : r.tag = []) (i n : Nat) : (r.setTag i n none).tag = [] := by
  rw [Regs.setTag, h]
  rfl

theorem putLane_none_of_untagged {r : Regs} (h : r.tag = []) (i : Nat) (d : Opnd) (x : Word) :
    (r.putLane i d x none).tag = [] := by
  cases d with
  | v n => exact setTag_none_of_untagged h i _
  | o n => exact setTag_none_of_untagged h i _
  | _ => exact h

theorem push_none_of_untagged {r : Regs} (h : r.tag = []) (i : Nat) (x : Word) : (r.push i x none).tag = [] := by
  have hr (n : Nat) : r.tagOf i n = none := by rw [Regs.tagOf, h]; rfl
  simp only [Regs.push, hr]
  refine setTag_none_of_untagged ?_ i 256
  exact setTag_none_of_untagged (setTag_none_of_untagged (setTag_none_of_untagged h i 259) i 258) i 257

theorem putResults_of_untagged (d : Opnd) (rs : List (Nat × Word × Option Tag)) (hrs : ∀ e ∈ rs, e.2.2 = none) {r : Regs}
    (h : r.tag = []) : (r.putResults d rs).tag = [] := by
  induction rs generalizing r with
  | nil => exact h
  | cons e rs ih =>
    obtain ⟨i, x, g⟩ := e
    obtain ⟨he, hrest⟩ := List.forall_mem_cons.mp hrs
    obtain rfl : g = none := he
    exact ih hrest (push_none_of_untagged (putLane_none_of_untagged h i d x) i x)

theorem tag_setVflags (v : Nat) (f : Flag) (ws : List Nat) (r : Regs) : (r.setVflags v f ws).tag = r.tag := by
  induction ws generalizing r with
  | nil => rfl
  | cons w ws ih => rw [Regs.setVflags, ih]; rfl

theorem tag_fillLane (r : Regs) (d : Opnd) (c : Nat) (ws : List Nat) : (r.fillLane d c ws).tag = r.tag := by
  cases d with
  | v n =>
    rw [Regs.fillLane]
    generalize List.range c = l
    induction l generalizing r with
    | nil => rfl
    | cons j l ih => rw [List.foldl_cons, ih, tag_setVflags]
  | _ => rfl

/-! ### Lane results, issued by a ready team -/

theorem keepsRest_laneResults {T U : Team} (hU : OnlyPinned T U) (d : Opnd) (rs : List (Nat × Word × Option Tag)) (size : Nat)
    (hrs : T.regs.tag = [] → ∀ e ∈ rs, e.2.2 = none) : KeepsRest T ((U.laneResults d rs).advance size) := by
  obtain ⟨g, rfl, hg⟩ := hU
  refine ⟨rfl, fun hr ht => ⟨hg hr, ?_⟩⟩
  rw [Team.advance_regs, Team.laneResults_regs, tag_fillLane]
  exact putResults_of_untagged d rs (hrs ht) ht

/-- A ready team's lane results complete, and keep the rest. -/
theorem laneResults_done {s : State} {k : Nat} {T U : Team} {i : Instr} (h : Ready s k T i) (hU : OnlyPinned T U) (d : Opnd)
    (body : Nat → Team → State → Effect) (val : Nat → Word) (tag : Nat → Option Tag)
    (htag : T.regs.tag = [] → ∀ n, tag n = none)
    (hb : body k (T.pinned i) (s.setTeam k (T.pinned i)) =
      .done ((s.setTeam k (T.pinned i)).setTeam k (U.laneResults d (T.active.map (fun n => (n, val n, tag n)))))) :
    ∃ t T', s.issue i body = .next t ∧ LaneDone s k T i d val t T' ∧ KeepsRest T T' := by
  have ⟨g, hg, _⟩ := hU
  refine ⟨_, _, by rw [issue_of_ready h, hb]; rfl, laneDone_of s k T (T.pinned i) U i d val tag ⟨g, T.fp, hg⟩,
    keepsRest_laneResults hU d _ _ fun ht e he => ?_⟩
  obtain ⟨n, -, rfl⟩ := List.mem_map.mp he
  exact htag ht n

/-- An instruction of a ready team completes with the rule's value in every active lane, and keeps the rest. -/
def Completes (i : Instr) (r : LaneRule) : Prop :=
  ∀ s k T, Ready s k T i → ∃ t T', exec i s = .next t ∧ LaneDone s k T i r.1 (r.2 s T) t T' ∧ KeepsRest T T'

theorem completes_laneBody {i : Instr} {d : Opnd} {body : Nat → Team → State → Effect} {val : State → Team → Nat → Word}
    (he : ∀ s, exec i s = s.issue i body)
    (hb : ∀ s k T, body k (T.pinned i) (s.setTeam k (T.pinned i)) =
      laneBody d (val s T) k (T.pinned i) (s.setTeam k (T.pinned i))) : Completes i (d, val) := by
  intro s k T h
  rw [he]
  refine laneResults_done h (onlyPinned_pinned T i) d _ _ (fun _ => none) (fun _ _ => rfl) ?_
  rw [hb, laneBody, pinned_active]

theorem completes_lane1 {i : Instr} {f : DA} (g : Word → Word) {g' : Word → Word} (he : ∀ s, exec i s = lane1 i f g s)
    (hg : ∀ a, g a = g' a) : Completes i (of1 f g') :=
  completes_laneBody he fun s k T => by simp only [hg, word_pinned]

theorem completes_lane2 {i : Instr} {f : DAB} (g : Word → Word → Word) {g' : Word → Word → Word}
    (he : ∀ s, exec i s = lane2 i f g s)
    (hg : ∀ a b, g a b = g' a b) : Completes i (of2 f g') :=
  completes_laneBody he fun s k T => by simp only [hg, word_pinned]

theorem completes_lane3 {i : Instr} {f : DABC} (g : Word → Word → Word → Word) {g' : Word → Word → Word → Word}
    (he : ∀ s, exec i s = lane3 i f g s) (hg : ∀ a b c, g a b c = g' a b c) : Completes i (of3 f g') :=
  completes_laneBody he fun s k T => by simp only [hg, word_pinned]

theorem completes_tagBody {i : Instr} {d : Opnd} {os : List Opnd} {body : Nat → Team → State → Effect}
    {val : State → Team → Nat → Word} {tag : State → Team → Nat → Option Tag} (he : ∀ s, exec i s = s.issue i body)
    (htag : ∀ s (T : Team), T.regs.tag = [] → ∀ n, tag s T n = none)
    (hb : ∀ s k T, body k (T.pinned i) (s.setTeam k (T.pinned i)) =
      tagBody d os (val s T) (tag s T) k (T.pinned i) (s.setTeam k (T.pinned i))) : Completes i (d, val) := by
  intro s k T h
  rw [he]
  refine laneResults_done h ((onlyPinned_pinned T i).pinLanes os (T.active.filter fun n => (tag s T n).isNone)) d _ _ (tag s T)
    (htag s T) ?_
  rw [hb, tagBody, pinned_active]

@[simp] theorem tagOf_pinned (T : Team) (i : Instr) (n : Nat) (o : Opnd) : (T.pinned i).tagOf n o = T.tagOf n o := by
  unfold Team.tagOf
  rw [pinned_regs]

theorem completes_lane2Tagged {i : Instr} {f : DAB} (g : Word → Word → Word) {g' : Word → Word → Word}
    (q : Option Tag → Option Tag → Word → Word → Option Tag) (he : ∀ s, exec i s = lane2Tagged i f g q s)
    (hg : ∀ a b, g a b = g' a b) (hq : ∀ a b, q none none a b = none) : Completes i (of2 f g') :=
  completes_tagBody (os := [f.a.op, f.b.op])
    (tag := fun s T n => q (T.tagOf n f.a.op) (T.tagOf n f.b.op) (s.word T n f.a.op) (s.word T n f.b.op)) he
    (fun s T ht n => by rw [tagOf_of_untagged ht, tagOf_of_untagged ht, hq])
    fun s k T => by simp only [hg, word_pinned, tagOf_pinned]

theorem completes_moveBody {i : Instr} {f : DAB} {body : Nat → Team → State → Effect} {src : State → Team → Nat → Nat}
    (he : ∀ s, exec i s = s.issue i body)
    (hb : ∀ s k T, body k (T.pinned i) (s.setTeam k (T.pinned i)) =
      moveBody f (src s T) k (T.pinned i) (s.setTeam k (T.pinned i))) :
    Completes i (f.d, fun s T n => s.word T (src s T n) f.a.op) := by
  intro s k T h
  rw [he]
  refine laneResults_done h (((onlyPinned_pinned T i).pinLanes [f.b.op] T.active).pinLanes [f.a.op] (T.active.map (src s T)))
    f.d _ _ (fun _ => none) (fun _ _ => rfl) ?_
  simp only [hb, moveBody, pinned_active, word_pinned]

end Sys2Proof.Machine
end

section
/-! O1 (R83, R84, R86, R87, R89): lane moves, arithmetic, shifts, logic, bit fields and exchanges. -/

namespace Sys2Proof.Machine

open Sys2Proof.Claims

/-! ### The rules, form by form -/

theorem completes_of_arithRule {i : Instr} {r : LaneRule} (hr : ArithRule i r) : Completes i r := by
  cases hr with
  | mov f =>
    exact completes_tagBody (os := [f.a.op]) (tag := fun _ T n => valueTag (T.tagOf n f.a.op)) (fun _ => rfl)
      (fun _ T ht n => by rw [tagOf_of_untagged ht]; rfl) fun s k T => by simp only [word_pinned, tagOf_pinned]
  | movi f => exact completes_laneBody (body := laneBody f.d fun _ => f.imm.signExtend 32) (fun _ => rfl) fun _ _ _ => rfl
  | sel f =>
    exact completes_lane3 (fun a b c => if a.getLsbD 0 then b else c) (fun _ => rfl) fun a b c => by
      simp only [getLsbD_zero_iff]
  | iadd f => exact completes_lane2Tagged (· + ·) addTag (fun _ => rfl) BitVec.add_def fun _ _ => rfl
  | isub f => exact completes_lane2Tagged (· - ·) (fun ta tb _ b => subTag ta tb b) (fun _ => rfl) sub_eq_ofInt fun _ _ => rfl
  | ineg f => exact completes_lane1 (fun a => -a) (fun _ => rfl) fun a => by rw [BitVec.ofInt_neg, BitVec.ofInt_toInt]
  | iabs f => exact completes_lane1 absWord (fun _ => rfl) absWord_eq
  | imul f => exact completes_lane2 (· * ·) (fun _ => rfl) mul_eq_ofNat
  | imulhS f => exact completes_lane2 mulhS (fun _ => rfl) mulhS_eq
  | imulhU f => exact completes_lane2 mulhU (fun _ => rfl) mulhU_eq
  | imad f => exact completes_lane3 (fun a b c => a * b + c) (fun _ => rfl) mul_add_eq_ofNat
  | iminS f => exact completes_lane2 minS (fun _ => rfl) minS_eq
  | iminU f => exact completes_lane2 minU (fun _ => rfl) minU_eq
  | imaxS f => exact completes_lane2 maxS (fun _ => rfl) maxS_eq
  | imaxU f => exact completes_lane2 maxU (fun _ => rfl) maxU_eq

theorem completes_of_logicRule {i : Instr} {r : LaneRule} (hr : LogicRule i r) : Completes i r := by
  cases hr with
  | shl f =>
    exact completes_lane2 (fun a b => a <<< shiftCount b) (fun _ => rfl) fun a b => by
      rw [shiftCount_eq, shiftLeft_eq_ofNat]
  | shr f =>
    exact completes_lane2 (fun a b => a >>> shiftCount b) (fun _ => rfl) fun a b => by
      rw [shiftCount_eq, ushiftRight_eq_ofNat]
  | sar f =>
    exact completes_lane2 (fun a b => a.sshiftRight (shiftCount b)) (fun _ => rfl) fun a b => by
      rw [shiftCount_eq, sshiftRight_eq_ofInt]
  | rotl f =>
    exact completes_lane2 (fun a b => a.rotateLeft (shiftCount b)) (fun _ => rfl) fun a b => by
      rw [shiftCount_eq, rotateLeft_eq a (Nat.mod_lt _ (by decide))]
  | clz f => exact completes_lane1 clzWord (fun _ => rfl) clzWord_eq_clz
  | popc f => exact completes_lane1 (fun a => BitVec.ofNat 32 (popcount a)) (fun _ => rfl) popcount_eq_cpop
  | brev f => exact completes_lane1 BitVec.reverse (fun _ => rfl) fun _ => rfl
  | and f => exact completes_lane2 (· &&& ·) (fun _ => rfl) fun _ _ => rfl
  | or f => exact completes_lane2 (· ||| ·) (fun _ => rfl) fun _ _ => rfl
  | xor f => exact completes_lane2 (· ^^^ ·) (fun _ => rfl) fun _ _ => rfl
  | andn f => exact completes_lane2 (fun a b => a &&& ~~~b) (fun _ => rfl) fun _ _ => rfl
  | not f => exact completes_lane1 (fun a => ~~~a) (fun _ => rfl) fun _ => rfl
  | bfxU f => exact completes_lane2 bfxU (fun _ => rfl) bfxU_eq
  | bfxS f => exact completes_lane2 bfxS (fun _ => rfl) bfxS_eq
  | bfi f => exact completes_lane3 bfi (fun _ => rfl) bfi_eq

theorem mem_active_iff (t : Team) (j : Nat) : j ∈ t.active ↔ j < t.lanes ∧ t.amask.getLsbD j = true := by
  rw [Team.active, Mask.lanes, List.mem_filter, List.mem_range]

theorem sourceLane_eq (t : Team) (n j : Nat) : t.sourceLane n j = from? t n j := by
  simp only [Team.sourceLane, from?, mem_active_iff, Bool.and_eq_true, decide_eq_true_eq]

@[simp] theorem sourceLane_pinned (T : Team) (i : Instr) (n j : Nat) : (T.pinned i).sourceLane n j = from? T n j := by
  rw [sourceLane_eq, from?, from?, pinned_active]

theorem completes_of_exchangeRule {i : Instr} {r : LaneRule} (hr : ExchangeRule i r) : Completes i r := by
  cases hr with
  | shfl f =>
    exact completes_moveBody (src := fun s T n => from? T n (s.word T n f.b.op).toNat) (fun _ => rfl)
      fun s k T => by simp only [word_pinned, sourceLane_pinned]
  | shflx f =>
    have hb (b : Word) : field b 0 10 = b.toNat % 1024 := by simp [field]
    exact completes_moveBody (src := fun s T n => from? T n (n ^^^ (s.word T n f.b.op).toNat % 1024)) (fun _ => rfl)
      fun s k T => by simp only [word_pinned, sourceLane_pinned, hb]
  | bcast f =>
    exact completes_moveBody (src := fun s T n => from? T n (s.word T n f.b.op).toNat) (fun _ => rfl)
      fun s k T => by simp only [word_pinned, sourceLane_pinned]

/-- Settles O1: each form issues a shared lane body, with the table's value in every active lane. -/
theorem laneResults : Obligations.LaneResults := by
  unfold Obligations.LaneResults
  exact ⟨fun s k T _ _ _ hr h => completes_of_arithRule hr s k T h, fun s k T _ _ _ hr h => completes_of_logicRule hr s k T h,
    fun s k T _ _ _ hr h => completes_of_exchangeRule hr s k T h⟩

end Sys2Proof.Machine
end

section
/-! O2 (R85, R88, R90, R91): votes, scans, compares and 64-bit adds. -/

namespace Sys2Proof.Machine

open Sys2Proof.Claims

/-! ### Votes (R90) -/

@[simp] theorem votes_pinned (s : State) (k : Nat) (U T : Team) (i : Instr) (a : Opnd) :
    (s.setTeam k U).votes (T.pinned i) a = s.votes T a := by
  simp only [State.votes, pinned_active, word_pinned]

theorem predWord_eq {b : Bool} {p : Prop} [Decidable p] (h : b = true ↔ p) : predWord b = if p then 1 else 0 :=
  if_congr h rfl rfl

theorem ballotWord_bit (s : State) (T : Team) (a : Opnd) {n j : Nat} (hn : n < 1024) (hj : j < 32) :
    (Mask.word (Mask.ofLanes (s.votes T a)) (n / 32)).getLsbD j =
      (decide (32 * (n / 32) + j ∈ T.active) && (s.word T (32 * (n / 32) + j) a).getLsbD 0) := by
  have hl : 32 * (n / 32) + j < 1024 := by omega
  rw [Mask.word, BitVec.getLsbD_setWidth, BitVec.getLsbD_ushiftRight, getLsbD_ofLanes _ hl, State.votes]
  simp [hj, List.mem_filter]

theorem any_votes_iff (s : State) (T : Team) (a : Opnd) :
    (!(s.votes T a).isEmpty) = true ↔ ∃ j ∈ T.active, (s.word T j a).getLsbD 0 = true := by
  simp [State.votes, List.filter_eq_nil_iff]

theorem all_votes_iff (s : State) (T : Team) (a : Opnd) :
    ((s.votes T a).length == T.active.length) = true ↔ ∀ j ∈ T.active, (s.word T j a).getLsbD 0 = true := by
  rw [beq_iff_eq, State.votes, List.length_filter_eq_length_iff]

section
variable {s : State} {k : Nat} {T : Team} {f : DA}

theorem ballot_done (h : Ready s k T (.ballot f)) : ∃ t T', exec (.ballot f) s = .next t ∧
    LaneDone s k T (.ballot f) f.d (fun n => Mask.word (Mask.ofLanes (s.votes T f.a.op)) (n / 32)) t T' :=
  laneBody_done h f.d _ _ (by simp only [votes_pinned])

theorem vany_done (h : Ready s k T (.vany f)) : ∃ t T', exec (.vany f) s = .next t ∧ LaneDone s k T (.vany f) f.d
    (fun _ => if ∃ j ∈ T.active, (s.word T j f.a.op).getLsbD 0 = true then 1 else 0) t T' :=
  laneBody_done h f.d _ _ (by simp only [votes_pinned, predWord_eq (any_votes_iff s T f.a.op)])

theorem vall_done (h : Ready s k T (.vall f)) : ∃ t T', exec (.vall f) s = .next t ∧ LaneDone s k T (.vall f) f.d
    (fun _ => if ∀ j ∈ T.active, (s.word T j f.a.op).getLsbD 0 = true then 1 else 0) t T' :=
  laneBody_done h f.d _ _ (by simp only [votes_pinned, pinned_active, predWord_eq (all_votes_iff s T f.a.op)])

end

/-! ### Scans (R91) -/

theorem active_ascending (T : Team) : T.active.Pairwise (· < ·) := List.pairwise_lt_range.filter _

theorem scanOp_eq_scanRule (o : ScanOp) (x y : Word) : scanOp o x y = scanRule o x y := by
  cases o with
  | addIncl | addExcl => rfl
  | maxSIncl | maxSExcl => exact maxS_eq x y
  | maxUIncl | maxUExcl => exact maxU_eq x y

theorem scanIdentity_eq_scanStart (o : ScanOp) : scanIdentity o = scanStart o := by cases o <;> rfl

theorem scanTakes_iff (o : ScanOp) (n m : Nat) :
    scanTakes o n m = true ↔ m < n ∨ m = n ∧ scanExclusive o = false := by
  cases o <;> simp [scanTakes, scanExclusive, Nat.le_iff_lt_or_eq]

/-- The lanes that count towards the lowest lane: itself, or none. -/
theorem filter_scanTakes_head (o : ScanOp) {n : Nat} {ns : List Nat} (h : ∀ m ∈ ns, n < m) :
    (n :: ns).filter (scanTakes o n) = if scanExclusive o then [] else [n] := by
  have hrest : ns.filter (scanTakes o n) = [] := by
    refine List.filter_eq_nil_iff.mpr fun m hm => ?_
    rw [scanTakes_iff]
    have := h m hm
    omega
  rw [List.filter_cons, hrest]
  simp only [scanTakes_iff, lt_irrefl, false_or, true_and]
  cases scanExclusive o <;> rfl

/-- The running reduction over ascending lanes gives each lane the reduction of those that count towards it. -/
theorem scanFrom_eq_map (o : ScanOp) (w : Nat → Word) (acc : Word) {ns : List Nat} (h : ns.Pairwise (· < ·)) :
    scanFrom o acc (ns.map (fun n => (n, w n))) =
      ns.map (fun n => (n, ((ns.filter (scanTakes o n)).map w).foldl (scanRule o) acc)) := by
  induction ns generalizing acc with
  | nil => rfl
  | cons n ns ih =>
    obtain ⟨hn, hns⟩ := List.pairwise_cons.mp h
    rw [List.map_cons, scanFrom, ih _ hns, List.map_cons, filter_scanTakes_head o hn, scanOp_eq_scanRule]
    congr 1
    · cases scanExclusive o <;> rfl
    · refine List.map_congr_left fun m hm => ?_
      have hnm : scanTakes o m n = true := (scanTakes_iff o m n).mpr (.inl (hn m hm))
      rw [List.filter_cons_of_pos hnm]
      rfl

theorem scan_done {s : State} {k : Nat} {T : Team} {o : ScanOp} {f : DA} (h : Ready s k T (.scan o f)) :
    ∃ t T', exec (.scan o f) s = .next t ∧ LaneDone s k T (.scan o f) f.d
      (fun n => ((T.active.filter (scanTakes o n)).map (fun m => s.word T m f.a.op)).foldl (scanRule o) (scanStart o)) t T' ∧
      KeepsRest T T' := by
  refine laneResults_done h (onlyPinned_pinned T (.scan o f)) f.d _ _ (fun _ => none) (fun _ _ => rfl) ?_
  simp only [pinned_active, word_pinned, scanFrom_eq_map o _ _ (active_ascending T), scanIdentity_eq_scanStart, List.map_map]
  rfl

/-! ### Comparisons and 64-bit sums (R85, R88) -/

theorem icmp_done {s : State} {k : Nat} {T : Team} {c : Cond} {g : Sign} {f : DAB} (h : Ready s k T (.icmp c g f)) :
    ∃ t T', exec (.icmp c g f) s = .next t ∧ LaneDone s k T (.icmp c g f) f.d
      (fun n => predWord (condHolds c g (s.word T n f.a.op) (s.word T n f.b.op))) t T' :=
  lane2Tagged_done h f (fun a b => predWord (condHolds c g a b)) (cmpTag c g)

theorem iadd64_done {s : State} {k : Nat} {T : Team} {f : DAB} (h : Ready s k T (.iadd64 f)) :
    ∃ t T', exec (.iadd64 f) s = .next t ∧ PairDone s k T (.iadd64 f) f.d
      (fun n => BitVec.ofNat 64 ((s.dword T n f.a.op).toNat + (s.dword T n f.b.op).toNat)) t T' := by
  refine ⟨_, _, ?_, pairDone_of s k T (T.pinned (.iadd64 f)) (T.pinned (.iadd64 f)) (.iadd64 f) f.d _ (pinned_eq T _)⟩
  change s.issue (.iadd64 f) _ = _
  rw [issue_of_ready h]
  simp only [pinned_active, dword_pinned, BitVec.add_def]
  rfl

/-- Settles O2: each instruction issues a shared body whose value in a lane is the statement's. -/
theorem laneReductions : Obligations.LaneReductions := by
  unfold Obligations.LaneReductions
  refine ⟨fun s k T f => ⟨fun h => ?_, vany_done, vall_done⟩, fun s k T o f h => ?_, fun s k T c g f h => ?_,
    fun _ _ _ _ => iadd64_done⟩
  · obtain ⟨t, T', hexec, hdone⟩ := ballot_done h
    exact ⟨t, T', _, hexec, hdone, fun n hn j hj => ballotWord_bit s T f.a.op hn hj⟩
  · obtain ⟨t, T', hexec, hdone, -⟩ := scan_done h
    exact ⟨t, T', hexec, hdone⟩
  · obtain ⟨t, T', hexec, hdone⟩ := icmp_done h
    refine ⟨t, T', _, hexec, hdone, fun n => ⟨fun hc => ?_, fun hc => ?_⟩⟩
    · exact if_pos (condHolds_iff.mpr hc)
    · exact if_neg (mt condHolds_iff.mp hc)

end Sys2Proof.Machine
end

section
/-! O3 (R94 to R97): uniform instructions. -/

namespace Sys2Proof.Machine

open Sys2Proof.Claims

/-! ### Moves, arithmetic, logic, shifts and select (R94, R95, R97) -/

/-- A uniform instruction of a ready team completes with the rule's value. -/
def UniCompletes (i : Instr) (r : Opnd × (State → Team → DWord)) : Prop :=
  ∀ s k T, Ready s k T i → ∃ t T', exec i s = .next t ∧ UniDone s k T i r.1 (r.2 s T) t T'

theorem uniCompletes_uniBody {i : Instr} {d : Opnd} (body : Nat → Team → State → Effect) {val : State → Team → DWord}
    (he : ∀ s, exec i s = s.issue i body)
    (hb : ∀ s k T, body k (T.pinned i) (s.setTeam k (T.pinned i)) =
      uniBody d (val s T) k (T.pinned i) (s.setTeam k (T.pinned i))) : UniCompletes i (d, val) := by
  intro s k T h
  rw [he]
  exact uniResult_done h d _ body (T.pinned i) (pinned_eq T i) (by rw [hb, uniBody])

theorem uniCompletes_uni2 {i : Instr} {f : DAB} (g : DWord → DWord → DWord) {g' : DWord → DWord → DWord}
    (he : ∀ s, exec i s = uni2 i f g s) (hg : ∀ a b, g a b = g' a b) :
    UniCompletes i (f.d, fun s T => g' (s.uni T f.a.op) (s.uni T f.b.op)) :=
  uniCompletes_uniBody _ he fun s k T => by simp only [hg, uni_pinned]

theorem uniCompletes_of_uniRule {i : Instr} {r : Opnd × (State → Team → DWord)} (hr : UniRule i r) : UniCompletes i r := by
  have hcount (b : DWord) : field b 0 6 = b.toNat % 64 := by simp [field]
  cases hr with
  | smov f =>
    exact uniCompletes_uniBody (fun k t s => uniBody f.d (s.uni t f.a.op) k t s) (fun _ => rfl) fun s k T => by
      simp only [uni_pinned]
  | smovi f => exact uniCompletes_uniBody (uniBody f.d (f.imm.signExtend 64)) (fun _ => rfl) fun _ _ _ => rfl
  | sadd f => exact uniCompletes_uni2 (· + ·) (fun _ => rfl) BitVec.add_def
  | ssub f => exact uniCompletes_uni2 (· - ·) (fun _ => rfl) sub_eq_ofInt
  | smul f => exact uniCompletes_uni2 (· * ·) (fun _ => rfl) mul_eq_ofNat
  | sand f => exact uniCompletes_uni2 (· &&& ·) (fun _ => rfl) fun _ _ => rfl
  | sor f => exact uniCompletes_uni2 (· ||| ·) (fun _ => rfl) fun _ _ => rfl
  | sxor f => exact uniCompletes_uni2 (· ^^^ ·) (fun _ => rfl) fun _ _ => rfl
  | sshl f =>
    exact uniCompletes_uniBody (fun k t s => uniBody f.d (s.uni t f.a.op <<< field (s.uni t f.b.op) 0 6) k t s)
      (fun _ => rfl) fun s k T => by simp only [uni_pinned, hcount, shiftLeft_eq_ofNat]
  | sshr f =>
    exact uniCompletes_uniBody (fun k t s => uniBody f.d (s.uni t f.a.op >>> field (s.uni t f.b.op) 0 6) k t s)
      (fun _ => rfl) fun s k T => by simp only [uni_pinned, hcount, ushiftRight_eq_ofNat]
  | ssel f =>
    exact uniCompletes_uniBody
      (fun k t s => uniBody f.d (if (s.uni t f.a.op).getLsbD 0 then s.uni t f.b.op else s.uni t f.c.op) k t s)
      (fun _ => rfl) fun s k T => by simp only [uni_pinned, getLsbD_zero_iff]

/-! ### From lanes to one value (R96, R97) -/

theorem pinned_lanes (T : Team) (i : Instr) : (T.pinned i).lanes = T.lanes := by
  obtain ⟨g, h⟩ := pinned_eq T i
  rw [h]

theorem vtos_done {s : State} {k : Nat} {T : Team} {f : DAB} (h : Ready s k T (.vtos f)) :
    ∃ t T', exec (.vtos f) s = .next t ∧ UniDone s k T (.vtos f) f.d
      (let j := (s.uni T f.b.op).toNat % 2 ^ 32; if j < T.lanes then (s.word T j f.a.op).setWidth 64 else 0) t T' := by
  have hj (b : DWord) : field b 0 32 = b.toNat % 2 ^ 32 := by simp [field]
  by_cases hlane : (s.uni T f.b.op).toNat % 2 ^ 32 < T.lanes
  · obtain ⟨g, hg, -⟩ := (onlyPinned_pinned T (.vtos f)).pinLanes [f.a.op] [(s.uni T f.b.op).toNat % 2 ^ 32]
    refine uniResult_done h f.d _ _ ((T.pinned (.vtos f)).pinLanes [f.a.op] [(s.uni T f.b.op).toNat % 2 ^ 32]) ⟨g, hg⟩ ?_
    simp only [uni_pinned, hj, pinned_lanes, word_pinned, if_pos hlane]
  · refine uniResult_done h f.d _ _ (T.pinned (.vtos f)) (pinned_eq T _) ?_
    simp only [uni_pinned, hj, pinned_lanes, uniBody, if_neg hlane]

theorem ropOp_eq_redRule (r : Rop) (x y : DWord) : ropOp r x y = redRule r x y := by
  cases r with
  | minS => exact minS_eq x y
  | minU => exact minU_eq x y
  | maxS => exact maxS_eq x y
  | maxU => exact maxU_eq x y
  | add | and | or | xor => rfl

theorem ropWiden_eq_redWiden (r : Rop) (x : Word) : ropWiden r x = redWiden r x := by cases r <;> rfl

theorem ropReduce_eq_foldl (r : Rop) (w : Nat → Word) (n : Nat) (ns : List Nat) :
    ropReduce r ((n :: ns).map w) = (ns.map (fun m => redWiden r (w m))).foldl (redRule r) (redWiden r (w n)) := by
  rw [List.map_cons, ropReduce, List.foldl_map, List.foldl_map]
  simp only [ropOp_eq_redRule, ropWiden_eq_redWiden]

theorem sred_done {s : State} {k : Nat} {T : Team} {r : Rop} {f : DA} {n : Nat} {ns : List Nat} (h : Ready s k T (.sred r f))
    (hactive : T.active = n :: ns) : ∃ t T', exec (.sred r f) s = .next t ∧ UniDone s k T (.sred r f) f.d
      ((ns.map (fun m => redWiden r (s.word T m f.a.op))).foldl (redRule r) (redWiden r (s.word T n f.a.op))) t T' := by
  refine uniResult_done h f.d _ _ (T.pinned (.sred r f)) (pinned_eq T _) ?_
  simp only [pinned_active, word_pinned, hactive, ropReduce_eq_foldl, uniBody]

theorem scmp_done {s : State} {k : Nat} {T : Team} {c : Cond} {g : Sign} {f : DAB} (h : Ready s k T (.scmp c g f)) :
    ∃ t T', exec (.scmp c g f) s = .next t ∧ UniDone s k T (.scmp c g f) f.d
      (if condHolds c g (s.uni T f.a.op) (s.uni T f.b.op) then 1 else 0) t T' :=
  uni2_done h f fun a b => if condHolds c g a b then 1 else 0

/-- Settles O3: each instruction issues the shared uniform body with the statement's value. -/
theorem uniformInstructions : Obligations.UniformInstructions := by
  unfold Obligations.UniformInstructions
  refine ⟨fun s k T _ _ _ hr h => uniCompletes_of_uniRule hr s k T h, ⟨fun s k T c g f h => ?_, fun _ _ _ _ => vtos_done⟩,
    fun _ _ _ _ _ _ _ => sred_done⟩
  obtain ⟨t, T', hexec, hdone⟩ := scmp_done h
  exact ⟨t, T', _, hexec, hdone, fun hc => if_pos (condHolds_iff.mpr hc), fun hc => if_neg (mt condHolds_iff.mp hc)⟩

end Sys2Proof.Machine
end

section
/-! SUPPORT. A landing request of a kind and size that no instruction makes: an sts of 16 bytes (R108). -/

namespace Sys2Proof.Machine

open Sys2Proof.Claims

/-- A request for an sts of 16 bytes, with the checked element of `wideElem`: R108 has words and dwords alone, but a request's
kind can hold any size. -/
def wideStsReq : Req := { team := 0, kind := .sts 0 0x40 16, elems := [wideElem] }

def wideStsState : State := { loneState loneTeam with reqs := [(1, wideStsReq)], nextId := 2 }

/-- Word 0 of its element may land. -/
theorem landing_wideSts : Landing wideStsState 1 0 0 wideStsReq wideElem loneTeam (.spm 0 0x40 false) where
  req := rfl
  team := rfl
  lands := .inl (by decide +kernel)
  lane := by decide
  elem := by decide +kernel
  checked := rfl
  place := by decide +kernel
  turn := by decide +kernel
  unit := by decide +kernel
  clean := by decide +kernel

/-- The landing of a word of 16 bytes is written for ld and st: the sts leaves the scratchpad's zeros. -/
theorem read_of_land_wideSts {t : State} (ht : exec (landEvent 1 0 0) wideStsState = .next t) :
    Memory.read t.spm (spmKey 0 0x40) 4 = 0 := by
  simpa using check_of_exec (p := fun t => Memory.read t.spm (spmKey 0 0x40) 4 == 0) (by decide +kernel) ht

/-- Refutes O9: the clause for an element that lands takes in the kind `sts` at size 16, whose value 9 is never written. -/
theorem not_nearStores : ¬ Obligations.NearStores := by
  unfold Obligations.NearStores
  rintro ⟨-, -, lands⟩
  obtain ⟨t, hexec, -, -, -, hread, -⟩ := lands _ _ _ _ _ _ _ _ 16 landing_wideSts (.sts 0 0x40 16)
  exact absurd ((read_of_land_wideSts hexec).symm.trans hread) (by decide)

end Sys2Proof.Machine
end

section
/-! SUPPORT. Tables that list a number twice. `Table.put` leaves one entry of its number, so a search of the whole table differs
before and after it. The statements speak of any state, and name no hypothesis that each number stands once. -/

namespace Sys2Proof.Machine

open Sys2Proof.Claims

/-! ### Teams (R104) -/

/-- The lone team, which names team 1 of its own block in s1 and a window 1 address in s2. -/
def askingTeam : Team := { loneTeam with regs := { sreg := [(1, 0x100000000), (2, 0x10000000)] } }

/-- Number 0 stands for the team, and once more for a team of index 1. -/
def twinState : State := { loneState askingTeam with teams := [(0, askingTeam), (0, { loneTeam with index := 1 })] }

/-- The operands of `lsget s3, s2, s1`. -/
def askingArgs : DAB := { ext := false, d := .s 3, a := ⟨.s 2, false⟩, b := ⟨.s 1, false⟩ }

theorem ready_lsget_twinState : Ready twinState 0 askingTeam (.lsget 0 askingArgs) where
  cur := rfl
  team := rfl
  running := rfl
  mask := by decide +kernel
  active := by decide +kernel
  free := ⟨rfl, rfl, rfl, by decide +kernel, loneBlock, rfl, rfl⟩
  place := by decide +kernel
  alloc := by decide +kernel
  reads := by decide +kernel
  writes := by decide +kernel
  lane := by decide +kernel

/-- Before the issue the block that s1 names is live. -/
theorem grantee_twinState : twinState.grantee askingTeam (.s 1) = some (0, loneBlock) := by decide +kernel

/-- The issue has put the team at number 0, and the lsget finds no team of index 1 and so no grantee. -/
theorem s3_of_lsget_twinState {t : State} {T : Team} (ht : exec (.lsget 0 askingArgs) twinState = .next t)
    (hT : t.team? 0 = some T) : T.regs.s 3 = 4 := by
  have h := check_of_exec (p := fun t => (t.team? 0).any (fun T => T.regs.s 3 == 4)) (by decide +kernel) ht
  simpa [hT] using h

/-- With a live grantee the status is not 4. -/
theorem status_le_of_getRule {s : State} {T : Team} {a : Word} {p : Nat × Block} {n st : Nat} {gs : List Grant}
    (h : GetRule s T a (some p) n st gs) : st ≤ 3 := by
  cases h with
  | grantee _ hnone => cases hnone
  | address | reach | outside | held | full | granted => decide

/-- Refutes O12: the lsget answers 4, no live grantee, for a block that is live. -/
theorem not_clusterGrants : ¬ Obligations.ClusterGrants := by
  unfold Obligations.ClusterGrants
  rintro ⟨get, -⟩
  obtain ⟨t, T, st, hexec, -, hteam, -, -, -, hs, -, hrule⟩ := get _ _ _ _ _ ready_lsget_twinState
  have hle : st ≤ 3 := status_le_of_getRule (grantee_twinState ▸ hrule)
  have hst : (4 : DWord) = BitVec.ofNat 64 st := (s3_of_lsget_twinState hexec hteam).symm.trans (hs 3)
  interval_cases st <;> exact absurd hst (by decide)

/-! ### Requests (R112, R113) -/

/-- An element for core 1, where its block has neither an allocation nor a grant. -/
def strayElem : Elem := { lane := 0, addr := 0x11000000 }

/-- A store with that element alone. -/
def strayStore : Req := { team := 0, kind := .store 4, elems := [strayElem] }

/-- A grid with a handler. -/
def handledGrid : Grid := { loneGrid with launch := { loneGrid.launch with handler := some {} } }

/-- Number 1 stands for the store, and once more for a request with entry 0. -/
def twinReqsState : State :=
  { loneState loneTeam with
    grids := [(0, handledGrid)], reqs := [(1, strayStore), (1, { strayStore with entry := some 0 })], nextId := 2 }

theorem arriving_strayElem : Arriving twinReqsState 1 0 strayStore strayElem loneTeam 1 0 where
  req := rfl
  team := rfl
  resident := by decide +kernel
  lane := by decide
  near := rfl
  elem := by decide +kernel
  sent := rfl
  place := by decide +kernel
  clean := by decide +kernel
  room := by decide +kernel

/-- Before the element arrives, entry 0 is in use. -/
theorem freeEntry_twinReqsState : twinReqsState.freeEntry 0 = 1 := by decide +kernel

/-- Its request has been put at number 1 when its entry is formed, and entry 0 is free. -/
theorem entry_of_strayElem {t : State} {r : Req} (ht : exec (.window1ElementArrive 1 0) twinReqsState = .next t)
    (hr : t.reqs.get? 1 = some r) : r.entry = some 0 := by
  have h := check_of_exec (p := fun t => (t.reqs.get? 1).any (fun r => r.entry == some 0)) (by decide +kernel) ht
  simpa [hr] using h

/-- Refutes O22: the element's entry is 0, and not the entry that was free before. -/
theorem not_elementsArrive : ¬ Obligations.ElementsArrive := by
  unfold Obligations.ElementsArrive
  rintro ⟨⟨-, -, parks⟩, -⟩
  obtain ⟨t, r, -, -, hexec, -, hreq, hentry, -⟩ := parks _ _ _ _ _ _ _ _ handledGrid {} arriving_strayElem rfl
    (by decide +kernel) rfl (by decide +kernel) (by decide +kernel) (by decide +kernel) rfl rfl (by decide +kernel)
    (by decide) (by decide +kernel)
  rw [entry_of_strayElem hexec hreq] at hentry
  exact absurd (hentry.trans (congrArg some freeEntry_twinReqsState)) (by decide)

end Sys2Proof.Machine
end

section
/-! O21 (R134, R137, R140, R312): a global atomic element, or an input of an arld, takes effect at its slice. -/

namespace Sys2Proof.Machine

open Sys2Proof.Claims

/-! ### The operation of an atomic (R129, R132) -/

theorem atomicWord_eq_rule (p : AOp) (old b c : Word) : atomicWord p old b c = atomicRule p old b c := by
  cases p with
  | add => exact BitVec.eq_of_toNat_eq (by simp [atomicWord, atomicRule])
  | minS => exact minS_eq old b
  | minU => exact minU_eq old b
  | maxS => exact maxS_eq old b
  | maxU => exact maxU_eq old b
  | fadd | fmin | fmax => simp [atomicWord, atomicRule]
  | and | or | xor | xchg | cas => rfl

theorem atomicDWord_eq_rule (p : AOp) (old b c : DWord) : atomicDWord p old b c = atomicRule p old b c := by
  cases p with
  | add => exact BitVec.eq_of_toNat_eq (by simp [atomicDWord, atomicRule])
  | minS => exact minS_eq old b
  | minU => exact minU_eq old b
  | maxS => exact maxS_eq old b
  | maxU => exact maxU_eq old b
  | fadd | fmin | fmax => simp [atomicDWord, atomicRule]
  | and | or | xor | xchg | cas => rfl

/-- The number that an atomic element of a size writes over the old one. -/
def Elem.atomicValue (e : Elem) (op : AOp) (size old : Nat) : Nat :=
  if size = 4 then (atomicRule (w := 32) op (BitVec.ofNat 32 old) (e.val.setWidth 32) (e.exp.setWidth 32)).toNat
  else (atomicRule (w := 64) op (BitVec.ofNat 64 old) (e.val.setWidth 64) e.exp).toNat

theorem atomicValue_lt (e : Elem) (op : AOp) {size : Nat} (old : Nat) (h : size = 4 ∨ size = 8) :
    e.atomicValue op size old < 256 ^ size := by
  obtain rfl | rfl := h <;> exact BitVec.isLt _

/-! ### Physical memory after a write -/

theorem physWrite_rest (s : State) (pa n v : Nat) : ∃ d h, s.physWrite pa n v = { s with dram := d, host := h } := by
  unfold State.physWrite
  split <;> exact ⟨_, _, rfl⟩

theorem physRead_physWrite_same (s : State) (pa n v : Nat) : (s.physWrite pa n v).physRead pa n = v % 256 ^ n := by
  unfold State.physRead State.physWrite
  by_cases h : Config.hostBase ≤ pa
  · simp only [if_pos h, Memory.read_write_same]
  · simp only [if_neg h, Memory.read_write_same]

theorem physByte_physWrite_outside (s : State) {pa n v a : Nat} (ha : a < pa ∨ pa + n ≤ a) :
    (s.physWrite pa n v).physByte a = s.physByte a := by
  unfold State.physByte State.physWrite
  by_cases h : Config.hostBase ≤ pa
  · simp only [if_pos h, Memory.byte_write_outside _ _ _ _ _ ha]
  · simp only [if_neg h, Memory.byte_write_outside _ _ _ _ _ ha]

/-! ### An element and its request -/

theorem transit?_eq_some {r : Req} {n : Nat} {e : Elem} (h : r.transit? n = some e) : e ∈ r.elems ∧ e.lane = n ∧ e.st = .transit := by
  have hp := List.find?_some h
  simp only [Bool.and_eq_true, beq_iff_eq] at hp
  exact ⟨List.mem_of_find?_eq_some h, hp⟩

theorem mem_setElem {r : Req} {e e' : Elem} (he : e ∈ r.elems) (hl : e.lane = e'.lane) : e' ∈ (r.setElem e').elems :=
  List.mem_map.mpr ⟨e, he, if_pos hl⟩

/-- A request whose words have not all returned is not forgotten. -/
theorem tidy_of_words {s : State} {n : Nat} {r : Req} (hr : s.reqs.get? n = some r) (hw : r.words ≠ []) : s.tidy n = s := by
  simp [State.tidy, hr, Req.idle, hw]

/-! ### At the slice -/

/-- The state in which an element that its slice takes up acts: it has left the fabric, and its line has moved. -/
def State.atSlice (s : State) (o : PktOwner) (pa die : Nat) (place : Place) : State := (s.leaveFabric o).touchLine pa die place

theorem leaveFabric_rest (s : State) (o : PktOwner) : ∃ f c, s.leaveFabric o = { s with fabric := f, channels := c } := by
  unfold State.leaveFabric
  split
  · exact ⟨_, _, rfl⟩
  · dsimp only
    split <;> exact ⟨_, _, rfl⟩

theorem atSlice_rest (s : State) (o : PktOwner) (pa die : Nat) (place : Place) :
    ∃ f c l, s.atSlice o pa die place = { s with fabric := f, channels := c, lines := l } := by
  obtain ⟨f, c, h⟩ := leaveFabric_rest s o
  exact ⟨f, c, _, by rw [State.atSlice, h]; rfl⟩

theorem gatomAct_of_poisoned {s : State} {k : Nat} {op : AOp} {size : Nat} {dst : Dst} {e : Elem}
    (h : s.physPoisoned e.pa size = true) : ∃ ts, s.gatomAct k op size dst e = ({ s with teams := ts }, { e with st := .poisoned }) := by
  unfold State.gatomAct
  rw [if_pos h]
  split <;> exact ⟨_, rfl⟩

theorem gatomAct_of_clean {s : State} {k : Nat} {op : AOp} {size : Nat} {dst : Dst} {e : Elem}
    (h : s.physPoisoned e.pa size = false) : s.gatomAct k op size dst e =
      (s.physWrite e.pa size (e.atomicValue op size (s.physRead e.pa size)),
        { e with got := BitVec.ofNat 128 (s.physRead e.pa size), st := .done }) := by
  simp only [State.gatomAct, h, Bool.false_eq_true, if_false, atomicWord_eq_rule, atomicDWord_eq_rule]
  rfl

section
variable {s : State} {id n : Nat} {r : Req} {e : Elem} {T : Team} {op : AOp} {size : Nat} {place : Place}

theorem exec_globalAtomicExecute_gatom (hr : s.reqs.get? id = some r) (hk : r.kind = .gatom op size place) (hT : s.team? r.team = some T)
    (he : r.transit? n = some e) (hfirst : s.lineFirst id r e = true) (harr : s.arrives (.elem id n) = true) {s1 : State} {e1 : Elem}
    (hact : (s.atSlice (.elem id n) e.pa (dieOf T.quarter) place).gatomAct r.team op size r.dst e = (s1, e1)) :
    exec (.globalAtomicExecute id n) s = .next (State.tidy { s1 with reqs := s1.reqs.put id (r.setElem e1) } id) := by
  unfold State.atSlice at hact
  change execGlobalAtomicExecute id n s = _
  simp [execGlobalAtomicExecute, hr, hk, hT, he, hfirst, harr, hact]

/-- An element that meets an uncorrectable error changes no memory (R140). -/
theorem globalAtomic_of_poisoned (hr : s.reqs.get? id = some r) (hk : r.kind = .gatom op size place) (hT : s.team? r.team = some T)
    (he : r.transit? n = some e) (hfirst : s.lineFirst id r e = true) (harr : s.arrives (.elem id n) = true)
    (hp : s.physPoisoned e.pa size = true) :
    ∃ t, exec (.globalAtomicExecute id n) s = .next t ∧ t.spm = s.spm ∧ t.dram = s.dram ∧ t.host = s.host := by
  obtain ⟨f, c, l, hs⟩ := atSlice_rest s (.elem id n) e.pa (dieOf T.quarter) place
  obtain ⟨ts, hact⟩ := gatomAct_of_poisoned (s := s.atSlice (.elem id n) e.pa (dieOf T.quarter) place) (k := r.team) (op := op)
    (dst := r.dst) (by rw [hs]; exact hp)
  obtain ⟨q, ht, -⟩ := tidy_reqs _ id
  refine ⟨_, (exec_globalAtomicExecute_gatom hr hk hT he hfirst harr hact).trans (congrArg _ ht), ?_⟩
  rw [hs]
  exact ⟨rfl, rfl, rfl⟩

/-- An element that meets none writes its operation's value at its address, and keeps the old one (R134). -/
theorem globalAtomic_of_clean (hr : s.reqs.get? id = some r) (hk : r.kind = .gatom op size place) (hT : s.team? r.team = some T)
    (he : r.transit? n = some e) (hfirst : s.lineFirst id r e = true) (harr : s.arrives (.elem id n) = true)
    (hsize : size = 4 ∨ size = 8) (hp : s.physPoisoned e.pa size = false) :
    ∃ t, exec (.globalAtomicExecute id n) s = .next t ∧ t.spm = s.spm ∧
      t.physRead e.pa size = e.atomicValue op size (s.physRead e.pa size) ∧
      (∀ a, a < e.pa ∨ e.pa + size ≤ a → t.physByte a = s.physByte a) ∧
      (r.words ≠ [] → ∃ r', t.reqs.get? id = some r' ∧ ∃ e' ∈ r'.elems, e'.lane = n ∧ e'.st = .done ∧
        e'.got = BitVec.ofNat 128 (s.physRead e.pa size)) := by
  obtain ⟨hmem, hlane, -⟩ := transit?_eq_some he
  obtain ⟨f, c, l, hs⟩ := atSlice_rest s (.elem id n) e.pa (dieOf T.quarter) place
  have hact := gatomAct_of_clean (s := s.atSlice (.elem id n) e.pa (dieOf T.quarter) place) (k := r.team) (op := op)
    (dst := r.dst) (e := e) (size := size) (by rw [hs]; exact hp)
  rw [show (s.atSlice (.elem id n) e.pa (dieOf T.quarter) place).physRead e.pa size = s.physRead e.pa size by rw [hs]; rfl] at hact
  have hexec := exec_globalAtomicExecute_gatom hr hk hT he hfirst harr hact
  obtain ⟨q, ht, -⟩ := tidy_reqs _ id
  obtain ⟨d, h, hw⟩ := physWrite_rest (s.atSlice (.elem id n) e.pa (dieOf T.quarter) place) e.pa size
    (e.atomicValue op size (s.physRead e.pa size))
  refine ⟨_, hexec, ?_, ?_, fun a ha => ?_, fun hwords => ?_⟩
  · rw [ht, hw, hs]
  · rw [ht]
    exact (physRead_physWrite_same _ _ _ _).trans (Nat.mod_eq_of_lt (atomicValue_lt e op _ hsize))
  · rw [ht]
    exact (physByte_physWrite_outside _ ha).trans (by rw [hs]; rfl)
  · rw [tidy_of_words (r := r.setElem { e with got := BitVec.ofNat 128 (s.physRead e.pa size), st := .done })
      (Table.get?_put_same _ _ _) hwords]
    exact ⟨_, Table.get?_put_same _ _ _, _, mem_setElem hmem rfl, hlane, rfl, rfl⟩

/-! ### An input of an arld (R312) -/

/-- A region with a value read for the input of a number, from 1 on; 0 numbers none. -/
def Region.putInput (g : Region) (m : DWord) (x : Word) : Region :=
  if m = 0 then g else { g with inputs := g.inputs.modify (m.toNat - 1) (fun i => { i with v := x }) }

theorem putInput_rest (g : Region) (m : DWord) (x : Word) : ∃ is, g.putInput m x = { g with inputs := is } := by
  unfold Region.putInput
  split <;> exact ⟨_, rfl⟩

theorem value_putInput {g : Region} {m : DWord} {x : Word} {j : Nat} (hj : j < g.inputs.length) :
    ((g.putInput m x).inputs[j]?).map Input.v = if m ≠ 0 ∧ j = m.toNat - 1 then some x else (g.inputs[j]?).map Input.v := by
  unfold Region.putInput
  by_cases hm : m = 0
  · simp [hm]
  · rw [if_neg hm, List.getElem?_modify, List.getElem?_eq_getElem hj]
    by_cases hjm : m.toNat - 1 = j
    · simp only [if_pos hjm, if_pos (show m ≠ 0 ∧ j = m.toNat - 1 from ⟨hm, hjm.symm⟩)]
      rfl
    · simp only [if_neg hjm, if_neg (show ¬(m ≠ 0 ∧ j = m.toNat - 1) from fun h => hjm h.2.symm)]
      rfl

theorem regionOf_setRegion_same (t : Team) (n : Nat) (g : Option Region) : (t.setRegion n g).regionOf n = g :=
  Sparse.get_set_same none t.region n g

theorem readInput_of_clean {k : Nat} (hst : e.st = .transit) (hp : s.physPoisoned e.pa 4 = false) :
    s.readInput k e = (s.modTeam k (fun t => t.setRegion e.lane
        ((t.regionOf e.lane).map (fun g => g.putInput e.exp (BitVec.ofNat 32 (s.physRead e.pa 4))))),
      { e with got := (BitVec.ofNat 32 (s.physRead e.pa 4)).setWidth 128, st := .done }) := by
  simp only [State.readInput, hst, hp, Bool.false_eq_true, if_false]
  rfl

theorem exec_globalAtomicExecute_arld (hr : s.reqs.get? id = some r) (hk : r.kind = .value) (ha : r.arld = true)
    (hT : s.team? r.team = some T) (he : r.transit? n = some e) (harr : s.arrives (.elem id n) = true) {s1 : State} {e1 : Elem}
    (hread : (s.leaveFabric (.elem id n)).readInput r.team e = (s1, e1)) :
    exec (.globalAtomicExecute id n) s = .next { s1 with reqs := s1.reqs.put id (r.setElem e1) } := by
  change execGlobalAtomicExecute id n s = _
  simp [execGlobalAtomicExecute, hr, hk, ha, hT, he, harr, hread]

/-- The input is its region's, and its element's. -/
theorem arldInput_of_clean {g : Region} (hr : s.reqs.get? id = some r) (hk : r.kind = .value) (ha : r.arld = true)
    (hT : s.team? r.team = some T) (he : r.transit? n = some e) (harr : s.arrives (.elem id n) = true)
    (hp : s.physPoisoned e.pa 4 = false) (hg : T.regionOf n = some g) :
    ∃ t T' r', exec (.globalAtomicExecute id n) s = .next t ∧ SameMemory s t ∧ t.reqs.get? id = some r' ∧
      (∃ e' ∈ r'.elems, e'.lane = n ∧ e'.st = .done ∧ e'.got = (BitVec.ofNat 32 (s.physRead e.pa 4)).setWidth 128) ∧
      t.team? r.team = some T' ∧ T'.regionOf n = some (g.putInput e.exp (BitVec.ofNat 32 (s.physRead e.pa 4))) := by
  obtain ⟨hmem, rfl, hst⟩ := transit?_eq_some he
  obtain ⟨f, c, hs⟩ := leaveFabric_rest s (.elem id e.lane)
  have hread := readInput_of_clean (s := s.leaveFabric (.elem id e.lane)) (k := r.team) hst (by rw [hs]; exact hp)
  rw [show (s.leaveFabric (.elem id e.lane)).physRead e.pa 4 = s.physRead e.pa 4 by rw [hs]; rfl] at hread
  refine ⟨_, T.setRegion e.lane (some (g.putInput e.exp (BitVec.ofNat 32 (s.physRead e.pa 4)))), _,
    exec_globalAtomicExecute_arld hr hk ha hT he harr hread,
    by rw [hs]; exact ⟨fun _ => rfl, fun _ => rfl, fun _ => rfl⟩, Table.get?_put_same _ _ _,
    ⟨_, mem_setElem hmem rfl, rfl, rfl, rfl⟩, ?_, regionOf_setRegion_same T e.lane _⟩
  refine (Table.get?_mod_same (s.leaveFabric (.elem id e.lane)).teams r.team _).trans ?_
  rw [show (s.leaveFabric (.elem id e.lane)).teams.get? r.team = some T by rw [hs]; exact hT, Option.map_some, hg]
  rfl

end

/-- Settles O21: the slice's element acts on memory by the rule of its operation, and an arld's reads its region's input. -/
theorem globalAtomicActs : Obligations.GlobalAtomicActs := by
  unfold Obligations.GlobalAtomicActs
  refine ⟨fun s id n r e T op size place hr hk hT he hfirst harr hsize => ?_, fun s id n r e T g hr hk ha hT he harr hp hg => ?_⟩
  · by_cases hp : s.physPoisoned e.pa size = true
    · obtain ⟨t, hexec, hspm, hdram, hhost⟩ := globalAtomic_of_poisoned hr hk hT he hfirst harr hp
      exact ⟨t, hexec, hspm, fun _ => ⟨hdram, hhost⟩, fun h => absurd (hp.symm.trans h) (by decide)⟩
    · obtain ⟨t, hexec, hspm, hread, hout, hreq⟩ := globalAtomic_of_clean hr hk hT he hfirst harr hsize (by simpa using hp)
      refine ⟨t, hexec, hspm, fun h => absurd h hp, fun _ => ⟨fun h4 => ?_, fun h8 => ?_, hout, hreq⟩⟩
      · subst h4
        exact hread
      · subst h8
        exact hread
  · obtain ⟨t, T', r', hexec, hmem, hreq, ⟨e', he', hlane, hst, hgot⟩, hT', hg'⟩ := arldInput_of_clean hr hk ha hT he harr hp hg
    obtain ⟨is, his⟩ := putInput_rest g e.exp (BitVec.ofNat 32 (s.physRead e.pa 4))
    refine ⟨t, T', r', hexec, hmem, hreq, ⟨e', he', hlane, hst, hgot.trans ?_⟩, hT', _, hg', ?_, ?_, fun j hj => value_putInput hj⟩
    · exact BitVec.eq_of_toNat_eq (by simp)
    · rw [his]
    · rw [his]

end Sys2Proof.Machine
end

section
/-! O55 (R139, R354, R366): the arbitration of crosspoints and memory channels. -/

namespace Sys2Proof.Machine

open Sys2Proof.Claims

/-! ### The highest class, and the oldest packet of a lower one -/

section
variable {ps : Table Packet} {m : Nat}

theorem foldl_max_cls_le_iff {c : Nat} : ps.foldl (fun m p => max m p.2.cls) c ≤ m ↔ c ≤ m ∧ ∀ u ∈ ps, u.2.cls ≤ m := by
  induction ps generalizing c with
  | nil => simp
  | cons u ps ih => rw [List.foldl_cons, ih, max_le_iff, List.forall_mem_cons, and_assoc]

theorem topClass_le_iff : topClass ps ≤ m ↔ ∀ u ∈ ps, u.2.cls ≤ m := by simp [topClass, foldl_max_cls_le_iff]

theorem cls_le_topClass {u : Nat × Packet} (h : u ∈ ps) : u.2.cls ≤ topClass ps := topClass_le_iff.mp le_rfl u h

theorem topClass_eq_of_mem {u : Nat × Packet} (hu : u ∈ ps) (h : ∀ v ∈ ps, v.2.cls ≤ u.2.cls) : topClass ps = u.2.cls :=
  le_antisymm (topClass_le_iff.mpr h) (cls_le_topClass hu)

/-- The first packet that another's class exceeds, after packets of the highest class, is the oldest of a lower class. -/
theorem lowerPacket_of_split {e : Nat × Packet} {a b : Table Packet} (hps : ps = a ++ e :: b) (hlow : ∃ v ∈ ps, e.2.cls < v.2.cls)
    (htop : ∀ u ∈ a, ∀ v ∈ ps, v.2.cls ≤ u.2.cls) : lowerPacket ps = some e := by
  obtain ⟨v, hv, hlt⟩ := hlow
  refine List.find?_eq_some_iff_append.mpr ⟨decide_eq_true (hlt.trans_le (cls_le_topClass hv)), a, b, hps, fun u hu => ?_⟩
  simpa using topClass_le_iff.mpr (htop u hu)

/-- A packet of the highest class is next where no earlier one of that class has an input granted as long ago, and no later one an
input granted longer ago. -/
theorem next_of_split {x : Crosspoint} {e : Nat × Packet} {a b : Table Packet} (hps : ps = a ++ e :: b)
    (ha : ∀ u ∈ a, u.2.cls < e.2.cls ∨ (u.2.cls = e.2.cls ∧ x.idle u.2.input < x.idle e.2.input))
    (hb : ∀ u ∈ b, u.2.cls < e.2.cls ∨
      (u.2.cls = e.2.cls ∧ (x.idle u.2.input < x.idle e.2.input ∨ u.2.input = e.2.input))) : x.next ps = some e := by
  have he : e ∈ ps := by simp [hps]
  have hcls : ∀ u ∈ ps, u.2.cls ≤ e.2.cls := fun u hu => by
    rw [hps, List.mem_append, List.mem_cons] at hu
    obtain hu | rfl | hu := hu
    · have := ha u hu
      omega
    · exact le_rfl
    · have := hb u hu
      omega
  have htop := topClass_eq_of_mem he hcls
  unfold Crosspoint.next
  refine List.find?_eq_some_iff_append.mpr ⟨List.all_eq_true.mpr fun u hu => ?_, a.filter (fun u => u.2.cls == topClass ps),
    b.filter (fun u => u.2.cls == topClass ps), ?_, fun u hu => ?_⟩
  · obtain ⟨hu, hc⟩ := List.mem_filter.mp hu
    have hc : u.2.cls = e.2.cls := (beq_iff_eq.mp hc).trans htop
    rw [hps, List.mem_append, List.mem_cons] at hu
    simp only [Bool.or_eq_true, Bool.and_eq_true, decide_eq_true_eq, beq_iff_eq]
    obtain hu | rfl | hu := hu
    · have := ha u hu
      omega
    · exact .inr ⟨rfl, le_rfl⟩
    · obtain hlt | ⟨-, hlt | hin⟩ := hb u hu
      · omega
      · exact .inl hlt
      · exact .inr ⟨by rw [hin], hin.ge⟩
  · have hc : (e.2.cls == topClass ps) = true := beq_iff_eq.mpr htop.symm
    rw [← List.filter_cons_of_pos (p := fun u : Nat × Packet => u.2.cls == topClass ps) hc, ← List.filter_append, ← hps]
  · obtain ⟨hu, hc⟩ := List.mem_filter.mp hu
    have hc : u.2.cls = e.2.cls := (beq_iff_eq.mp hc).trans htop
    have hlt : x.idle u.2.input < x.idle e.2.input := by
      have := ha u hu
      omega
    rw [Bool.not_eq_true', List.all_eq_false]
    refine ⟨e, List.mem_filter.mpr ⟨he, beq_iff_eq.mpr htop.symm⟩, ?_⟩
    simp only [Bool.or_eq_true, Bool.and_eq_true, decide_eq_true_eq, beq_iff_eq]
    omega

end

/-! ### Grants of a crosspoint (R354) -/

theorem granted_grantFlit (s : State) (n id : Nat) (p : Packet) (since : Nat) : Granted s n id p since (s.grantFlit n id p since) := by
  have hxp : (s.grantFlit n id p since).xp n = (s.xp n).grant p.input since := by
    simp [State.xp, State.grantFlit]
  have hfab : (s.grantFlit n id p since).fabric.get? id = some p.cross := Table.get?_put_same _ _ _
  refine ⟨rfl, by rw [hxp]; rfl, by rw [hxp]; rfl, fun h => ?_, fun h => ?_⟩
  · rw [hfab, Packet.cross, if_pos h]
  · rw [hfab, Packet.cross, if_neg (not_lt.mpr h)]

section
variable {s : State} {n id : Nat} {p : Packet}

theorem exec_crosspointForcedGrant_of_lower (hlow : lowerPacket (s.waitingAt n) = some (id, p)) :
    exec (.crosspointForcedGrant n) s = if (s.xp n).since < 63 then .next s else .next (s.grantFlit n id p 0) := by
  change execCrosspointForcedGrant n s = _
  simp only [execCrosspointForcedGrant, hlow]

theorem grantTop_of_forced (hlow : lowerPacket (s.waitingAt n) = some (id, p)) (h : 63 ≤ (s.xp n).since) : s.grantTop n = s := by
  simp [State.grantTop, State.forcedAt, hlow, h]

theorem grantTop_of_next (hf : s.forcedAt n = false) (hn : (s.xp n).next (s.waitingAt n) = some (id, p)) :
    s.grantTop n = s.grantFlit n id p ((s.xp n).since + 1) := by
  simp [State.grantTop, hf, hn]

/-! ### Slots and windows of a channel (R139, R366) -/

theorem slotShare_of_tenant {k : Nat} {tn : Tenant} (h : s.tenant? k = some tn) : s.slotShare k = max 1 (32 * tn.f / 256) := by
  simp [State.slotShare, h]

theorem takeSlot_of_free (hroute : p.route = []) (hslot : p.slot = false) (hneed : s.needsSlot p = true)
    (hfree : s.slotFree (channelOf p.line) p.tenant = true) :
    s.takeSlot id p = { s with fabric := s.fabric.put id { p with slot := true } } := by
  simp [State.takeSlot, hroute, hslot, hneed, hfree]

theorem takeSlot_of_not_free (hfree : s.slotFree (channelOf p.line) p.tenant = false) : s.takeSlot id p = s := by
  simp [State.takeSlot, hfree]

theorem slotFree_iff {ch k : Nat} {tn : Tenant} (ht : s.tenant? k = some tn) : s.slotFree ch k = true ↔
    ((s.packets.filter (fun q => q.2.slot && channelOf q.2.line == ch)).filter (fun q => q.2.tenant == k)).length <
        max 1 (32 * tn.f / 256) ∧
      (s.packets.filter (fun q => q.2.slot && channelOf q.2.line == ch)).length < 32 := by
  simp only [State.slotFree, slotShare_of_tenant ht, Bool.and_eq_true, decide_eq_true_eq]

/-- A tenant that does not exist has no floor to meet. -/
theorem floorMet_iff {c : Channel} {k : Nat} :
    s.floorMet c k = true ↔ ∀ tn, s.tenant? k = some tn → tn.f * c.total ≤ 256 * c.servedOf k := by
  unfold State.floorMet
  cases s.tenant? k <;> simp

theorem floorMet_eq_false_iff {c : Channel} {k : Nat} :
    s.floorMet c k = false ↔ ∃ tn, s.tenant? k = some tn ∧ 256 * c.servedOf k < tn.f * c.total := by
  rw [← Bool.not_eq_true, floorMet_iff]
  push Not
  rfl

theorem floorsMet_iff {x : Channel} (hx : s.channels.get? n = some x) :
    s.floorsMet n = true ↔ ∀ u ∈ s.waitingChan n, s.floorMet x u.2.tenant = true := by
  simp [State.floorsMet, State.chan, hx]

theorem exec_channelFloorWindow_of_channel {x : Channel} (hx : s.channels.get? n = some x) : exec (.channelFloorWindow n) s =
    if s.floorsMet n then .next { s with channels := s.channels.put n { x with served := [] } } else .next s := by
  change execChannelFloorWindow n s = _
  simp only [execChannelFloorWindow, hx]

/-- What a channel takes is of the highest class, or is forced, or is below its tenant's floor and not the second ahead of class 3. -/
theorem channelTakes_cases (h : s.channelTakes id p = true) :
    p.cls = topClass (s.waitingChan (channelOf p.line)) ∨ 63 ≤ (s.chan (channelOf p.line)).since ∨
      (s.floorMet (s.chan (channelOf p.line)) p.tenant = false ∧
        (topClass (s.waitingChan (channelOf p.line)) = 3 → (s.chan (channelOf p.line)).ahead = false)) := by
  unfold State.channelTakes at h
  dsimp only at h
  split_ifs at h with htop hforced
  · exact .inl htop
  · exact .inr (.inl hforced)
  · simp only [Bool.and_eq_true, Bool.or_eq_true, Bool.not_eq_true', bne_iff_ne] at h
    exact .inr (.inr ⟨h.1, h.2.resolve_left ∘ not_not_intro⟩)

end

end Sys2Proof.Machine
end

section
/-! O55 (R382, R392 to R394): the clock, power and bring-up, and the statement. -/

namespace Sys2Proof.Machine

open Sys2Proof.Claims

/-! ### Power lost (R394) -/

theorem bare_of_lasting {s t : State} (h : t = { s.lasting with
    ports := t.ports, powerSt := t.powerSt, ready := t.ready, faultPin := t.faultPin, faultCause := t.faultCause,
    faultDetail := t.faultDetail, bootedB := t.bootedB, rollback := t.rollback, tier := t.tier }) : Bare s t := by
  rw [h]
  exact ⟨rfl, rfl, rfl, rfl, rfl, rfl, rfl, rfl, rfl, rfl, rfl, rfl, rfl, rfl, rfl, rfl, rfl⟩

/-! ### Images (R393) -/

/-- The image in one of the two halves of the flash. -/
def State.flash (s : State) (b : Bool) : FwImage := if b then s.imageB else s.imageA

/-- The part at the start of its bring-up: what has outlived the power, with the links that train. -/
def State.poweredUp (s : State) (ports : BitVec 16) : State := { s.lasting with ports := hostTrained ports }

section
variable {s : State} {ports : BitVec 16}

theorem accepted_iff {i : FwImage} : i.accepted s.rollback = true ↔ Accepts s i := by
  simp [FwImage.accepted, Accepts, and_assoc]

theorem boot_of_active (h : Accepts s (s.flash s.activeB)) :
    (s.poweredUp ports).boot = some { s.poweredUp ports with bootedB := s.activeB } :=
  if_pos (accepted_iff.mpr h)

/-- The version of the other image becomes the rollback counter's value: it is not below it. -/
theorem boot_of_other (h : ¬Accepts s (s.flash s.activeB)) (hn : Accepts s (s.flash (!s.activeB))) :
    (s.poweredUp ports).boot = some { s.poweredUp ports with
      bootedB := !s.activeB, rollback := Config.imageVersion (s.flash (!s.activeB)).bytes } := by
  have ⟨_, _, hle⟩ := hn
  have hroll : (if s.rollback.toNat < (Config.imageVersion (s.flash (!s.activeB)).bytes).toNat
      then Config.imageVersion (s.flash (!s.activeB)).bytes else s.rollback) = Config.imageVersion (s.flash (!s.activeB)).bytes := by
    split
    · rfl
    · exact BitVec.eq_of_toNat_eq (by omega)
  refine (if_neg (mt accepted_iff.mp h)).trans ((if_pos (accepted_iff.mpr hn)).trans ?_)
  rw [← hroll]
  rfl

theorem boot_of_none (h : ¬Accepts s (s.flash s.activeB)) (hn : ¬Accepts s (s.flash (!s.activeB))) :
    (s.poweredUp ports).boot = none :=
  (if_neg (mt accepted_iff.mp h)).trans (if_neg (mt accepted_iff.mp hn))

/-! ### Bring-up (R392) -/

theorem stageFails_iff {c d : Byte} : stageFails (c, d) = true ↔ c = 0x01 ∨ StageFault c d := by
  simp [stageFails, StageFault, or_assoc]

theorem ne_one_of_stageFault {c d : Byte} (h : StageFault c d) : c ≠ 0x01 := by
  rintro rfl
  obtain ⟨h, -⟩ | h := h <;> exact absurd h (by decide)

theorem exec_powerGood_of_on {failed : Option (Byte × Byte)} (h : s.powerSt ≠ .off) : exec (.powerGood failed ports) s = .next s :=
  if_pos (by simp [h])

theorem exec_powerGood_of_no_stage {c d : Byte} (hc : c ≠ 0x01) (h : ¬StageFault c d) :
    exec (.powerGood (some (c, d)) ports) s = .next s :=
  if_pos (by simpa using .inr (Bool.eq_false_iff.mpr (mt stageFails_iff.mp (not_or.mpr ⟨hc, h⟩))))

section
variable {failed : Option (Byte × Byte)} {s1 : State} (hoff : s.powerSt = .off)
include hoff

theorem exec_powerGood_of_rom (d : Byte) :
    exec (.powerGood (some (0x01, d)) ports) s = .next ((s.poweredUp ports).failStage 0x01 d) :=
  (if_neg (by simp [hoff, stageFails])).trans rfl

/-- With no image that the root accepts, the fault is that of the image, whatever else of the part fails after its ROM. -/
theorem exec_powerGood_of_no_image (hf : ∀ c d, failed = some (c, d) → StageFault c d) (hb : (s.poweredUp ports).boot = none) :
    exec (.powerGood failed ports) s = .next ((s.poweredUp ports).failStage 0x10 0) := by
  have hgo : failed.any (fun f => !stageFails f) = false := by
    cases failed with
    | none => rfl
    | some f => simp [stageFails_iff.mpr (.inr (hf f.1 f.2 rfl))]
  refine (if_neg (by simp [hoff, hgo])).trans ?_
  rw [show ({ s.lasting with ports := hostTrained ports } : State).boot = none from hb]
  split
  · exact absurd rfl (ne_one_of_stageFault (hf _ _ rfl))
  · rfl
  · contradiction
  · contradiction

theorem exec_powerGood_of_stage {c d : Byte} (hf : StageFault c d) (hb : (s.poweredUp ports).boot = some s1) :
    exec (.powerGood (some (c, d)) ports) s = .next (s1.failStage c d) := by
  refine (if_neg (by simp [hoff, stageFails_iff.mpr (.inr hf)])).trans ?_
  rw [show ({ s.lasting with ports := hostTrained ports } : State).boot = some s1 from hb]
  split
  · next hcd => exact absurd (congrArg Prod.fst (Option.some.inj hcd)) (ne_one_of_stageFault hf)
  · contradiction
  · next hcd hs1 =>
    cases hcd
    cases hs1
    rfl
  · contradiction

theorem exec_powerGood_of_boot (hb : (s.poweredUp ports).boot = some s1) :
    exec (.powerGood none ports) s = if ports = 0 then .next (s1.failStage 0x22 0) else .next s1 := by
  refine (if_neg (by simp [hoff])).trans ?_
  rw [show ({ s.lasting with ports := hostTrained ports } : State).boot = some s1 from hb]

end

/-- A stage that fails in a part whose power has just come. -/
theorem failed_failStage {t : State} (c d : Byte)
    (h : t = { s.poweredUp ports with bootedB := t.bootedB, rollback := t.rollback }) : Failed s c d (t.failStage c d) :=
  ⟨bare_of_lasting (by rw [h]; rfl), rfl, rfl, rfl, rfl, rfl⟩

end

/-- Settles O55: the arbiters' choices by the order of the packets that wait, and power and bring-up by cases of the part's flash. -/
theorem arbitrationAndPower : Obligations.ArbitrationAndPower := by
  unfold Obligations.ArbitrationAndPower
  refine ⟨fun s n id p a b hw hlow htop => ?forced, fun s n id p a b hw hf ha hb => ?top, fun s id p tn _ hroute hslot hneed ht => ?slot,
    fun s n x hx => ⟨fun hmet => ?floorsMet, fun hbelow => ?floorsUnmet⟩, fun s id p h => ?takes, fun s => ⟨rfl, rfl, _, rfl, rfl⟩,
    fun s => ⟨_, rfl, bare_of_lasting rfl, rfl, rfl, fun h => if_pos h, fun h => if_neg (by simp [h])⟩,
    fun s failed ports hoff => ?bringUp, fun s failed ports => exec_powerGood_of_on⟩
  case forced =>
    have hlp := lowerPacket_of_split hw hlow htop
    have hexec := exec_crosspointForcedGrant_of_lower hlp
    exact ⟨fun h => hexec.trans (if_pos h),
      fun h => ⟨⟨_, hexec.trans (if_neg (not_lt.mpr h)), granted_grantFlit s n id p 0⟩, grantTop_of_forced hlp h⟩⟩
  case top =>
    rw [grantTop_of_next hf (next_of_split hw ha hb)]
    exact granted_grantFlit s n id p _
  case slot =>
    refine ⟨fun hown hheld => ?_, fun hfull => takeSlot_of_not_free (Bool.eq_false_iff.mpr fun hfree => ?_)⟩
    · rw [takeSlot_of_free hroute hslot hneed ((slotFree_iff ht).mpr ⟨hown, hheld⟩)]
      exact Table.get?_put_same _ _ _
    · obtain ⟨hown, hheld⟩ := (slotFree_iff ht).mp hfree
      exact hfull.elim (not_le.mpr hown) (not_le.mpr hheld)
  case floorsMet =>
    have hfloors := (floorsMet_iff hx).mpr fun u hu => floorMet_iff.mpr (hmet u hu)
    exact ⟨_, (exec_channelFloorWindow_of_channel hx).trans (if_pos hfloors), rfl, Table.get?_put_same _ _ _⟩
  case floorsUnmet =>
    obtain ⟨u, hu, hlt⟩ := hbelow
    refine (exec_channelFloorWindow_of_channel hx).trans (if_neg fun hfloors => ?_)
    exact absurd (floorMet_eq_false_iff.mpr hlt) (by simp [(floorsMet_iff hx).mp hfloors u hu])
  case takes =>
    obtain htop | hforced | ⟨hbelow, hahead⟩ := channelTakes_cases h
    · exact .inl fun u hu => htop ▸ cls_le_topClass hu
    · exact .inr (.inl hforced)
    · refine .inr (.inr ⟨floorMet_eq_false_iff.mp hbelow, fun ⟨u, hu, h3⟩ hle => hahead ?_⟩)
      exact (topClass_eq_of_mem hu fun v hv => (hle v hv).trans h3.ge).trans h3
  case bringUp =>
    refine ⟨?rom, fun hf ha hn => ?noImage, ?noStage, ?stage, ?noPort, ?active, ?other⟩
    case rom =>
      rintro d rfl
      exact ⟨_, exec_powerGood_of_rom hoff d, failed_failStage 0x01 d rfl⟩
    case noImage => exact ⟨_, exec_powerGood_of_no_image hoff hf (boot_of_none ha hn), failed_failStage 0x10 0 rfl⟩
    case noStage =>
      rintro c d rfl hc hf
      exact exec_powerGood_of_no_stage hc hf
    case stage =>
      rintro c d rfl hf ha
      exact ⟨_, exec_powerGood_of_stage hoff hf (boot_of_active ha), failed_failStage c d rfl⟩
    case noPort =>
      rintro rfl ha hports
      exact ⟨_, (exec_powerGood_of_boot hoff (boot_of_active ha)).trans (if_pos hports), failed_failStage 0x22 0 rfl⟩
    case active =>
      rintro rfl hports ha
      exact ⟨_, (exec_powerGood_of_boot hoff (boot_of_active ha)).trans (if_neg hports), bare_of_lasting rfl, rfl, rfl, rfl, rfl⟩
    case other =>
      rintro rfl hports ha hn
      exact ⟨_, (exec_powerGood_of_boot hoff (boot_of_other ha hn)).trans (if_neg hports), bare_of_lasting rfl, rfl, rfl, rfl, rfl⟩

end Sys2Proof.Machine
end

section
/-! SUPPORT. A format's scale (R143), and rounding a magnitude to the steps of a scale (R148, R149). -/

namespace Sys2Proof.Claims

open Sys2Proof.Machine

/-! ### The scale of a format (R143) -/

section
variable {L : Layout}

/-- The size of a magnitude that is j binades of 2^mant codes and k more: k spacings of 2^j. -/
theorem size_binade {j k : Nat} (hj : j = 0 ∨ 2 ^ L.mant ≤ k) (hk : k ≤ 2 ^ (L.mant + 1)) :
    L.size (j * 2 ^ L.mant + k) = k * 2 ^ j := by
  have hp : 0 < 2 ^ L.mant := Nat.two_pow_pos _
  rw [pow_succ] at hk
  have hdiv : (j * 2 ^ L.mant + k) / 2 ^ L.mant = j + k / 2 ^ L.mant := by
    rw [Nat.add_comm, Nat.add_mul_div_right _ _ hp, Nat.add_comm]
  have hmod : (j * 2 ^ L.mant + k) % 2 ^ L.mant = k % 2 ^ L.mant := by rw [Nat.add_comm, Nat.add_mul_mod_self_right]
  rw [Layout.size, hdiv, hmod]
  obtain hlt | rfl | ⟨hle, hlt⟩ : k < 2 ^ L.mant ∨ k = 2 ^ L.mant * 2 ∨ 2 ^ L.mant ≤ k ∧ k < 2 ^ L.mant * 2 := by omega
  · obtain rfl : j = 0 := by omega
    rw [Nat.div_eq_of_lt hlt]
    simp
  · rw [Nat.mul_div_cancel_left _ hp, Nat.mul_mod_right, if_neg (by omega), Nat.add_zero, show j + 2 - 1 = j + 1 from rfl, pow_succ]
    ring
  · have h1 : k / 2 ^ L.mant = 1 := by
      rw [Nat.div_eq_iff hp]
      omega
    rw [h1, if_neg (by omega), Nat.mod_eq_sub_div_mul, h1, show j + 1 - 1 = j from rfl]
    congr 1
    omega

/-- Every magnitude is j binades and k codes. -/
theorem exists_binade (L : Layout) (m : Nat) :
    ∃ j k, m = j * 2 ^ L.mant + k ∧ (j = 0 ∨ 2 ^ L.mant ≤ k) ∧ k < 2 ^ (L.mant + 1) := by
  have hp : 0 < 2 ^ L.mant := Nat.two_pow_pos _
  have hm := Nat.div_add_mod' m (2 ^ L.mant)
  have hlt := Nat.mod_lt m hp
  rw [pow_succ]
  obtain h0 | ⟨j, hj⟩ : m / 2 ^ L.mant = 0 ∨ ∃ j, m / 2 ^ L.mant = j + 1 := by
    cases m / 2 ^ L.mant
    · exact .inl rfl
    · exact .inr ⟨_, rfl⟩
  · rw [h0] at hm
    exact ⟨0, m, by omega, .inl rfl, by omega⟩
  · rw [hj, Nat.add_mul] at hm
    exact ⟨j, 2 ^ L.mant + m % 2 ^ L.mant, by omega, .inr (by omega), by omega⟩

theorem size_strictMono (L : Layout) : StrictMono L.size := by
  refine strictMono_nat_of_lt_succ fun m => ?_
  obtain ⟨j, k, rfl, hj, hk⟩ := exists_binade L m
  rw [size_binade hj hk.le, Nat.add_assoc, size_binade (hj.imp_right Nat.le_succ_of_le) hk]
  exact Nat.mul_lt_mul_of_pos_right (Nat.lt_succ_self k) (Nat.two_pow_pos j)

@[simp] theorem size_zero (L : Layout) : L.size 0 = 0 := by simp [Layout.size]

@[simp] theorem size_eq_zero_iff {m : Nat} : L.size m = 0 ↔ m = 0 := by
  simpa using (size_strictMono L).injective.eq_iff (a := m) (b := 0)

end

/-! ### Rounding to a scale (R148, R149) -/

section
variable {size : Nat → Nat} {r : Rm} {neg : Bool} {v : ℝ} {draw k m : Nat}

/-- The magnitude v, which lies from step k of a scale to below step k + 1, is rounded to step k + 1. -/
def RoundsUp (size : Nat → Nat) (r : Rm) (neg : Bool) (v : ℝ) (draw k : Nat) : Prop :=
  match r with
  | .rn => (size k : ℝ) + size (k + 1) < 2 * v ∨ ((size k : ℝ) + size (k + 1) = 2 * v ∧ k % 2 = 1)
  | .rz => False
  | .rp => neg = false ∧ (size k : ℝ) < v
  | .rm => neg = true ∧ (size k : ℝ) < v
  | .rs => 2 ^ 16 ≤ ⌊(v - size k) / (size (k + 1) - size k) * 2 ^ 16⌋ + (draw : Int)

/-- What is rounded up lies above its lower step. -/
theorem RoundsUp.lt (hs : StrictMono size) (hd : draw < 2 ^ 16) (hk : (size k : ℝ) ≤ v) (h : RoundsUp size r neg v draw k) :
    (size k : ℝ) < v := by
  have hlt : (size k : ℝ) < size (k + 1) := by exact_mod_cast hs (Nat.lt_succ_self k)
  cases r with
  | rn => rcases h with h | ⟨h, -⟩ <;> linarith
  | rz => exact h.elim
  | rp => exact h.2
  | rm => exact h.2
  | rs =>
    refine hk.lt_of_ne fun he => ?_
    have h' : (2 : Int) ^ 16 ≤ ⌊(v - size k) / (size (k + 1) - size k) * 2 ^ 16⌋ + (draw : Int) := h
    rw [he, sub_self, zero_div, zero_mul, Int.floor_zero] at h'
    omega

/-- Whether v lies nearer to one step than to another, between two steps that follow each other. -/
theorem abs_sub_size_le_of_le (hs : StrictMono size) {n : Nat} (hv : v < size (k + 1)) (hn : k + 1 ≤ n) :
    |v - size (k + 1)| ≤ |v - size n| ∧ (|v - size (k + 1)| = |v - size n| → n = k + 1) := by
  have hle : (size (k + 1) : ℝ) ≤ size n := by exact_mod_cast hs.monotone hn
  rw [abs_of_neg (by linarith), abs_of_neg (by linarith)]
  refine ⟨by linarith, fun he => hs.injective ?_⟩
  exact_mod_cast (show (size n : ℝ) = size (k + 1) by linarith)

theorem abs_sub_size_le_of_ge (hs : StrictMono size) {n : Nat} (hv : (size k : ℝ) ≤ v) (hn : n ≤ k) :
    |v - size k| ≤ |v - size n| ∧ (|v - size k| = |v - size n| → n = k) := by
  have hle : (size n : ℝ) ≤ size k := by exact_mod_cast hs.monotone hn
  rw [abs_of_nonneg (by linarith), abs_of_nonneg (by linarith)]
  refine ⟨by linarith, fun he => hs.injective ?_⟩
  exact_mod_cast (show (size n : ℝ) = size k by linarith)

/-- The nearest step: the upper one where v lies past the middle, or in it and the lower step is odd. -/
theorem roundsOn_rn_succ (hs : StrictMono size) (hk : (size k : ℝ) ≤ v) (hv : v < size (k + 1))
    (hup : RoundsUp size .rn neg v draw k) : RoundsOn size .rn neg v draw (k + 1) := by
  intro n
  have h1 : |v - size (k + 1)| = size (k + 1) - v := by rw [abs_of_neg (by linarith)]; ring
  obtain hn | hn : n ≤ k ∨ k + 1 ≤ n := by omega
  · have ⟨hle, heq⟩ := abs_sub_size_le_of_ge hs hk hn
    rw [abs_of_nonneg (by linarith : 0 ≤ v - (size k : ℝ))] at hle heq
    rw [h1]
    rcases hup with h | ⟨h, hodd⟩
    · exact ⟨by linarith, fun he => by linarith⟩
    · exact ⟨by linarith, fun _ _ => by omega⟩
  · have ⟨hle, heq⟩ := abs_sub_size_le_of_le hs hv hn
    exact ⟨hle, fun he hne => absurd (heq he) hne⟩

theorem roundsOn_rn_self (hs : StrictMono size) (hk : (size k : ℝ) ≤ v) (hv : v < size (k + 1))
    (hup : ¬RoundsUp size .rn neg v draw k) : RoundsOn size .rn neg v draw k := by
  intro n
  have h1 : |v - size k| = v - size k := abs_of_nonneg (by linarith)
  obtain ⟨hlt, htie⟩ := not_or.mp hup
  obtain hn | hn : n ≤ k ∨ k + 1 ≤ n := by omega
  · have ⟨hle, heq⟩ := abs_sub_size_le_of_ge hs hk hn
    exact ⟨hle, fun he hne => absurd (heq he) hne⟩
  · have ⟨hle, heq⟩ := abs_sub_size_le_of_le hs hv hn
    rw [abs_of_neg (by linarith : v - (size (k + 1) : ℝ) < 0)] at hle heq
    rw [h1]
    refine ⟨by linarith, fun he _ => ?_⟩
    by_contra hodd
    exact htie ⟨by linarith, by omega⟩

/-- The step at or above v is the upper one, where v lies above the lower one; the step at or below it is the lower one. -/
theorem above_succ (hs : StrictMono size) (hk : (size k : ℝ) < v) (hv : v < size (k + 1)) :
    v ≤ size (k + 1) ∧ ∀ n < k + 1, (size n : ℝ) < v := by
  refine ⟨hv.le, fun n hn => lt_of_le_of_lt ?_ hk⟩
  exact_mod_cast hs.monotone (Nat.lt_succ_iff.mp hn)

theorem above_self (hs : StrictMono size) (hk : (size k : ℝ) = v) : v ≤ size k ∧ ∀ n < k, (size n : ℝ) < v := by
  refine ⟨hk.ge, fun n hn => ?_⟩
  rw [← hk]
  exact_mod_cast hs hn

open scoped Classical in
/-- A magnitude between two steps that follow each other rounds to the upper or the lower one. -/
theorem roundsOn_ite (hs : StrictMono size) (hk : (size k : ℝ) ≤ v) (hv : v < size (k + 1)) :
    RoundsOn size r neg v draw (if RoundsUp size r neg v draw k then k + 1 else k) := by
  have hdown : ¬(size k : ℝ) < v → (size k : ℝ) = v := fun h => le_antisymm hk (not_lt.mp h)
  split
  next hup =>
    cases r with
    | rn => exact roundsOn_rn_succ hs hk hv hup
    | rz => exact hup.elim
    | rp =>
      obtain ⟨rfl, hlt⟩ := hup
      exact above_succ hs hlt hv
    | rm =>
      obtain ⟨rfl, hlt⟩ := hup
      exact above_succ hs hlt hv
    | rs => exact ⟨k, hk, hv, (if_pos hup).symm⟩
  next hup =>
    cases r with
    | rn => exact roundsOn_rn_self hs hk hv hup
    | rz => exact ⟨hk, hv⟩
    | rp =>
      cases neg with
      | false => exact above_self hs (hdown fun h => hup ⟨rfl, h⟩)
      | true => exact ⟨hk, hv⟩
    | rm =>
      cases neg with
      | false => exact ⟨hk, hv⟩
      | true => exact above_self hs (hdown fun h => hup ⟨rfl, h⟩)
    | rs => exact ⟨k, hk, hv, (if_neg hup).symm⟩

/-- What is rounded differs from the result if it differs from its lower step. -/
theorem ne_rounded_iff (hs : StrictMono size) (hd : draw < 2 ^ 16) (hk : (size k : ℝ) ≤ v) (hv : v < size (k + 1))
    [Decidable (RoundsUp size r neg v draw k)] :
    v ≠ size (if RoundsUp size r neg v draw k then k + 1 else k) ↔ v ≠ size k := by
  split
  next h => exact iff_of_true hv.ne (h.lt hs hd hk).ne'
  next => rfl

/-- A step of the scale rounds to itself. -/
theorem roundsOn_self (hs : StrictMono size) (hd : draw < 2 ^ 16) (n : Nat) : RoundsOn size r neg (size n) draw n := by
  classical
  have h := roundsOn_ite (r := r) (neg := neg) (draw := draw) hs le_rfl (by exact_mod_cast hs (Nat.lt_succ_self n) : (size n : ℝ) < _)
  rwa [if_neg fun hup => lt_irrefl _ (hup.lt hs hd le_rfl)] at h

/-- Without a draw, rounding is to the nearest step, to the step below or to the step above. -/
theorem RoundsOn.nearest_or_below_or_above (hr : r ≠ .rs) (h : RoundsOn size r neg v draw m) :
    (∀ n, |v - size m| ≤ |v - size n|) ∨ ((size m : ℝ) ≤ v ∧ v < size (m + 1)) ∨ (v ≤ size m ∧ ∀ n < m, (size n : ℝ) < v) := by
  cases r with
  | rn => exact .inl fun n => (h n).1
  | rz => exact .inr (.inl h)
  | rp => cases neg with
    | false => exact .inr (.inr h)
    | true => exact .inr (.inl h)
  | rm => cases neg with
    | false => exact .inr (.inl h)
    | true => exact .inr (.inr h)
  | rs => exact absurd rfl hr

/-- Rounding passes no step of the scale. -/
theorem RoundsOn.le_of_le_size (hs : StrictMono size) (hr : r ≠ .rs) (h : RoundsOn size r neg v draw m) {n : Nat} (hv : v ≤ size n) :
    m ≤ n := by
  obtain h | h | h := h.nearest_or_below_or_above hr
  · by_contra hlt
    have hsize : (size n : ℝ) < size m := by exact_mod_cast hs (not_le.mp hlt)
    have h0 := h n
    rw [abs_of_nonpos (by linarith), abs_of_nonpos (by linarith)] at h0
    linarith
  · exact hs.le_iff_le.mp (by exact_mod_cast h.1.trans hv)
  · exact not_lt.mp fun hlt => (h.2 n hlt).not_ge hv

theorem RoundsOn.ge_of_size_le (hs : StrictMono size) (hr : r ≠ .rs) (h : RoundsOn size r neg v draw m) {n : Nat}
    (hv : (size n : ℝ) ≤ v) : n ≤ m := by
  obtain h | h | h := h.nearest_or_below_or_above hr
  · by_contra hlt
    have hsize : (size m : ℝ) < size n := by exact_mod_cast hs (not_le.mp hlt)
    have h0 := h n
    rw [abs_of_nonneg (by linarith), abs_of_nonneg (by linarith)] at h0
    linarith
  · exact Nat.lt_succ_iff.mp (hs.lt_iff_lt.mp (by exact_mod_cast hv.trans_lt h.2))
  · exact hs.le_iff_le.mp (by exact_mod_cast hv.trans h.1)

/-- A magnitude that is a step of the scale rounds to that step and to no other. -/
theorem RoundsOn.eq_of_size_eq (hs : StrictMono size) (hr : r ≠ .rs) {n : Nat} (h : RoundsOn size r neg (size n) draw m) :
    m = n :=
  le_antisymm (h.le_of_le_size hs hr le_rfl) (h.ge_of_size_le hs hr le_rfl)

end
end Sys2Proof.Claims
end

section
/-! SUPPORT. What a magnitude of the model holds, and its rounding to a multiple of a power of two (R148, R149). -/

namespace Sys2Proof.Claims

open Sys2Proof.Machine

/-! ### What a magnitude holds, and its rounding to a multiple of a power of two (R148, R149) -/

/-- The real number w is one that the magnitude may stand for. -/
def Holds (x : Mag) (w : ℝ) : Prop :=
  (x.inexact = false → w = x.mag * 2 ^ x.exp) ∧
    (x.inexact = true → (x.mag : ℝ) * 2 ^ x.exp < w ∧ w < (x.mag + 1) * 2 ^ x.exp)

section
variable {x : Mag} {w : ℝ} {u : Int} {r : Rm} {neg : Bool} {draw : Nat}

theorem holds_exact (mag : Nat) (exp : Int) : Holds { mag := mag, exp := exp } (mag * 2 ^ exp) := ⟨fun _ => rfl, nofun⟩

/-- The part of a unit of its own spacing by which w exceeds the magnitude. -/
theorem Holds.exists_excess (h : Holds x w) :
    ∃ δ : ℝ, w = (x.mag + δ) * 2 ^ x.exp ∧ 0 ≤ δ ∧ δ < 1 ∧ (0 < δ ↔ x.inexact = true) := by
  have hp : (0 : ℝ) < 2 ^ x.exp := by positivity
  obtain ⟨hexact, hinexact⟩ := h
  by_cases hi : x.inexact = true
  · have h := hinexact hi
    refine ⟨w / 2 ^ x.exp - x.mag, by field_simp; ring, ?_, ?_, ?_⟩
    · rw [sub_nonneg, le_div_iff₀ hp]; exact h.1.le
    · rw [sub_lt_iff_lt_add', div_lt_iff₀ hp]; exact h.2
    · rw [sub_pos, lt_div_iff₀ hp]; exact iff_of_true h.1 hi
  · exact ⟨0, by rw [add_zero, hexact (by simpa using hi)], le_rfl, one_pos, iff_of_false (lt_irrefl _) hi⟩

/-- A whole number against a whole number and a part of one. -/
theorem natCast_lt_add_excess_iff {a b : Nat} {δ : ℝ} (h0 : 0 ≤ δ) (h1 : δ < 1) :
    (a : ℝ) < b + δ ↔ a < b ∨ (a = b ∧ 0 < δ) := by
  obtain h | rfl | h := lt_trichotomy a b
  · have : (a : ℝ) + 1 ≤ b := by exact_mod_cast h
    exact iff_of_true (by linarith) (.inl h)
  · simp
  · have : (b : ℝ) + 1 ≤ a := by exact_mod_cast h
    exact iff_of_false (by linarith) (by omega)

theorem natCast_eq_add_excess_iff {a b : Nat} {δ : ℝ} (h0 : 0 ≤ δ) (h1 : δ < 1) : (a : ℝ) = b + δ ↔ a = b ∧ ¬0 < δ := by
  constructor
  · intro h
    have hle : b ≤ a := by exact_mod_cast (show (b : ℝ) ≤ a by linarith)
    have hlt : a < b + 1 := by exact_mod_cast (show (a : ℝ) < b + 1 by linarith)
    obtain rfl : a = b := by omega
    exact ⟨rfl, by linarith⟩
  · rintro ⟨rfl, h⟩
    linarith [le_antisymm (not_lt.mp h) h0]

theorem roundsUp_id_iff {y : ℝ} {k : Nat} : RoundsUp id r neg y draw k ↔ match r with
    | .rn => 1 / 2 < y - k ∨ (y - k = 1 / 2 ∧ k % 2 = 1)
    | .rz => False
    | .rp => neg = false ∧ 0 < y - k
    | .rm => neg = true ∧ 0 < y - k
    | .rs => 2 ^ 16 ≤ ⌊(y - k) * 2 ^ 16⌋ + (draw : Int) := by
  cases r with
  | rn =>
    simp only [RoundsUp, id, Nat.cast_add, Nat.cast_one]
    refine or_congr ⟨fun h => by linarith, fun h => by linarith⟩ (and_congr_left' ⟨fun h => by linarith, fun h => by linarith⟩)
  | rz => rfl
  | rp | rm => simp only [RoundsUp, id, sub_pos]
  | rs => simp [RoundsUp]

/-- Where y stands among the whole numbers, told by a remainder of `rem` of 2^(d + 1) parts, and by whether there is more. -/
structure Stands (y : ℝ) (k rem d : Nat) (more : Bool) : Prop where
  ge : (k : ℝ) ≤ y
  lt : y < k + 1
  pos : 0 < y - k ↔ rem ≠ 0 ∨ more = true
  above : 1 / 2 < y - k ↔ 2 ^ d < rem ∨ (rem = 2 ^ d ∧ more = true)
  half : y - k = 1 / 2 ↔ rem = 2 ^ d ∧ more = false
  floor : more = false → ⌊(y - k) * 2 ^ 16⌋ = ((rem * 2 ^ 16 / 2 ^ (d + 1) : Nat) : Int)

theorem stands_of_excess {y δ : ℝ} {mag d : Nat} {more : Bool} (hy : y = (mag + δ) / 2 ^ (d + 1)) (h0 : 0 ≤ δ) (h1 : δ < 1)
    (hδ : 0 < δ ↔ more = true) : Stands y (mag / 2 ^ (d + 1)) (mag % 2 ^ (d + 1)) d more := by
  have hp : (0 : ℝ) < 2 ^ (d + 1) := by positivity
  have hg : y - (mag / 2 ^ (d + 1) : Nat) = ((mag % 2 ^ (d + 1) : Nat) + δ) / 2 ^ (d + 1) := by
    have hm : (mag : ℝ) = (mag / 2 ^ (d + 1) : Nat) * 2 ^ (d + 1) + (mag % 2 ^ (d + 1) : Nat) := by
      exact_mod_cast (Nat.div_add_mod' mag (2 ^ (d + 1))).symm
    rw [hy, eq_div_iff hp.ne', sub_mul, div_mul_cancel₀ _ hp.ne']
    linarith
  have hlt : ((mag % 2 ^ (d + 1) : Nat) : ℝ) + 1 ≤ 2 ^ (d + 1) := by exact_mod_cast Nat.mod_lt mag (Nat.two_pow_pos _)
  have hhalf : (1 : ℝ) / 2 = (2 ^ d : Nat) / 2 ^ (d + 1) := by
    push_cast
    rw [pow_succ]
    field_simp
  refine ⟨?_, ?_, ?_, ?_, ?_, fun hm => ?_⟩
  · rw [← sub_nonneg, hg]
    positivity
  · rw [← sub_lt_iff_lt_add', hg, div_lt_one hp]
    linarith
  · rw [hg, div_pos_iff_of_pos_right hp, ← Nat.cast_zero (R := ℝ), natCast_lt_add_excess_iff h0 h1, hδ]
    rcases Nat.eq_zero_or_pos (mag % 2 ^ (d + 1)) with h | h
    · simp [h]
    · exact iff_of_true (.inl h) (.inl h.ne')
  · rw [hg, hhalf, div_lt_div_iff_of_pos_right hp, natCast_lt_add_excess_iff h0 h1, hδ, eq_comm (a := 2 ^ d)]
  · rw [hg, hhalf, div_left_inj' hp.ne', eq_comm, natCast_eq_add_excess_iff h0 h1, hδ, eq_comm (a := 2 ^ d), Bool.not_eq_true]
  · have hz : δ = 0 := le_antisymm (not_lt.mp fun h => by simp [hδ.mp h] at hm) h0
    have he : (y - (mag / 2 ^ (d + 1) : Nat)) * 2 ^ 16 = ((mag % 2 ^ (d + 1) * 2 ^ 16 : Nat) : ℝ) / (2 ^ (d + 1) : Nat) := by
      rw [hg, hz, add_zero, div_mul_eq_mul_div]
      push_cast
      norm_num
    rw [he, ← Int.natCast_floor_eq_floor (by positivity), Nat.floor_div_eq_div]

/-- A magnitude that is not at its multiple already: the multiple below and the parts beyond it say how it rounds. -/
theorem roundAt_of_stands {y : ℝ} {d : Nat} (hu : u = x.exp + (d + 1 : Nat))
    (hst : Stands y (x.mag / 2 ^ (d + 1)) (x.mag % 2 ^ (d + 1)) d x.inexact) (hs : r = .rs → x.inexact = false)
    [Decidable (RoundsUp id r neg y draw (x.mag / 2 ^ (d + 1)))] [Decidable (y ≠ (x.mag / 2 ^ (d + 1) : Nat))] :
    x.roundAt u neg r draw =
      (if RoundsUp id r neg y draw (x.mag / 2 ^ (d + 1)) then x.mag / 2 ^ (d + 1) + 1 else x.mag / 2 ^ (d + 1),
        decide (y ≠ (x.mag / 2 ^ (d + 1) : Nat))) := by
  have hin : (x.mag % 2 ^ (d + 1) != 0 || x.inexact) = decide (y ≠ (x.mag / 2 ^ (d + 1) : Nat)) := by
    rw [Bool.eq_iff_iff, decide_eq_true_iff, ← sub_ne_zero, (sub_nonneg.mpr hst.ge).lt_iff_ne'.symm, hst.pos]
    simp
  simp only [Mag.roundAt, hu, show ¬x.exp + (d + 1 : Nat) ≤ x.exp by omega, if_false, add_sub_cancel_left, Int.toNat_natCast,
    Nat.add_sub_cancel, ← hin]
  refine congrArg (·, _) (if_congr ?_ rfl rfl)
  rw [roundsUp_id_iff]
  cases r with
  | rn =>
    simp only [hst.above, hst.half]
    cases x.inexact <;> simp
  | rz => simp
  | rp | rm =>
    simp only [hst.pos]
    cases neg <;> simp
  | rs => 
    simp only [hst.floor (hs rfl)]
    norm_cast
    simp

open scoped Classical in
/-- Rounding to a multiple of 2^u: from the whole multiples below, up or not. -/
theorem roundAt_eq (hx : Holds x w) (hu : x.inexact = true → x.exp < u) (hs : r = .rs → x.inexact = false) (hd : draw < 2 ^ 16) :
    ∃ k : Nat, (k : ℝ) ≤ w * 2 ^ (-u) ∧ w * 2 ^ (-u) < k + 1 ∧
      x.roundAt u neg r draw =
        (if RoundsUp id r neg (w * 2 ^ (-u)) draw k then k + 1 else k, decide (w * 2 ^ (-u) ≠ k)) := by
  obtain ⟨δ, hw, h0, h1, hδ⟩ := hx.exists_excess
  by_cases hle : u ≤ x.exp
  · have hi : x.inexact = false := by
      by_contra h
      exact absurd (hu (by simpa using h)) (not_lt.mpr hle)
    have hz : δ = 0 := le_antisymm (not_lt.mp fun h => by simp [hδ.mp h] at hi) h0
    have hy : w * 2 ^ (-u) = ((x.mag * 2 ^ (x.exp - u).toNat : Nat) : ℝ) := by
      rw [hw, hz, add_zero, mul_assoc, ← zpow_add₀ two_ne_zero, Nat.cast_mul, Nat.cast_pow, Nat.cast_ofNat, ← zpow_natCast,
        Int.toNat_of_nonneg (by omega), sub_eq_add_neg]
    refine ⟨_, hy.ge, hy.trans_lt (lt_add_one _), ?_⟩
    rw [Mag.roundAt, if_pos hle, hy, if_neg fun h => lt_irrefl _ (h.lt strictMono_id hd le_rfl), hi]
    simp
  · obtain ⟨d, hd'⟩ : ∃ d : Nat, u = x.exp + (d + 1 : Nat) := ⟨(u - x.exp - 1).toNat, by omega⟩
    have hy : w * 2 ^ (-u) = (x.mag + δ) / 2 ^ (d + 1) := by
      rw [hw, mul_assoc, ← zpow_add₀ two_ne_zero, hd', show x.exp + -(x.exp + (d + 1 : Nat)) = -((d + 1 : Nat) : Int) by ring,
        zpow_neg, zpow_natCast]
      rfl
    have hst := stands_of_excess hy h0 h1 hδ
    exact ⟨_, hst.ge, hst.lt, roundAt_of_stands hd' hst hs⟩

end
end Sys2Proof.Claims
end

section
/-! SUPPORT. The model's formats have the layouts of the tables, and round to them as the tables say (R143 to R152). -/

namespace Sys2Proof.Claims

open Sys2Proof.Machine

/-! ### The formats of the model and of the tables (R143 to R145) -/

/-- The model's format f has the layout L. -/
structure FormatOf (f : FloatFmt) (L : Layout) : Prop where
  m : f.m = L.mant
  sign : f.sign = L.sign
  bias : f.bias = L.bias
  top : f.top = L.top
  inf : f.inf = L.inf
  nan : f.nan = L.nan
  quiet : f.quiet = decide (15 ≤ L.sign)
  mant_pos : 0 < L.mant
  bias_pos : 0 < L.bias
  mant_lt : L.mant < L.sign
  top_lt : L.top < 2 ^ L.sign
  inf_bounds : ∀ i ∈ L.inf, L.top < i ∧ i < 2 ^ L.sign
  nan_lt : ∀ i ∈ L.nan, i < 2 ^ L.sign

theorem formatOf_single : FormatOf fF32 single := by
  constructor <;> decide

theorem formatOf_narrow {m : Fmt} {L : Layout} (h : narrow m = some L) : ∃ f, fmtKind m = .float f ∧ FormatOf f L := by
  cases m <;> cases h <;> exact ⟨_, rfl, by constructor <;> decide⟩

section
variable {f : FloatFmt} {L : Layout} {x : Mag} {w : ℝ} {r : Rm} {neg : Bool} {t : Sat} {draw : Nat}

theorem least_of_formatOf (hf : FormatOf f L) : f.least = -(L.unit : Int) := by
  have := hf.bias_pos
  rw [FloatFmt.least, Layout.unit, hf.bias, hf.m]
  omega

theorem signed_of_formatOf (hf : FormatOf f L) (neg : Bool) (m : Nat) : f.signed neg m = L.code neg m := by
  rw [FloatFmt.signed, Layout.code, hf.sign]

theorem nanCode_of_formatOf (hf : FormatOf f L) : f.nanCode = L.nan.getD 0 := by rw [FloatFmt.nanCode, hf.nan]

/-! ### Rounding to a format with its range unbounded above (R148) -/

/-- Within a binade the format's steps are whole multiples of the binade's spacing. -/
theorem roundsUp_size_iff {y : ℝ} {j k : Nat} (hm : 0 < L.mant) (hj : j = 0 ∨ 2 ^ L.mant ≤ k) (hk : k < 2 ^ (L.mant + 1)) :
    RoundsUp L.size r neg (y * 2 ^ j) draw (j * 2 ^ L.mant + k) ↔ RoundsUp id r neg y draw k := by
  have hp : (0 : ℝ) < 2 ^ j := by positivity
  have h0 : (L.size (j * 2 ^ L.mant + k) : ℝ) = k * 2 ^ j := by exact_mod_cast size_binade hj hk.le
  have h1 : (L.size (j * 2 ^ L.mant + k + 1) : ℝ) = ((k + 1 : Nat) : ℝ) * 2 ^ j := by
    exact_mod_cast size_binade (k := k + 1) (hj.imp_right Nat.le_succ_of_le) hk
  have hpar : (j * 2 ^ L.mant + k) % 2 = k % 2 := by
    obtain ⟨n, hn⟩ := Nat.exists_eq_succ_of_ne_zero hm.ne'
    rw [hn, pow_succ, ← mul_assoc]
    omega
  cases r with
  | rn =>
    simp only [RoundsUp, id, h0, h1, hpar, ← add_mul, ← mul_assoc, mul_lt_mul_iff_left₀ hp, mul_left_inj' hp.ne']
  | rz => rfl
  | rp | rm => simp only [RoundsUp, id, h0, mul_lt_mul_iff_left₀ hp]
  | rs => simp only [RoundsUp, id, h0, h1, ← sub_mul, mul_div_mul_right _ _ hp.ne']

/-- A magnitude's bits bound what it holds. -/
theorem Holds.bounds (h : Holds x w) (hx : x.mag ≠ 0) :
    (2 : ℝ) ^ (Nat.log2 x.mag + x.exp) ≤ w ∧ w < 2 ^ (Nat.log2 x.mag + x.exp + 1) := by
  obtain ⟨δ, rfl, h0, h1, -⟩ := h.exists_excess
  have hp : (0 : ℝ) < 2 ^ x.exp := by positivity
  have hlo : (2 : ℝ) ^ Nat.log2 x.mag ≤ x.mag := by exact_mod_cast Nat.log2_self_le hx
  have hhi : (x.mag : ℝ) + 1 ≤ 2 ^ (Nat.log2 x.mag + 1) := by exact_mod_cast Nat.lt_log2_self
  rw [add_right_comm, zpow_add₀ two_ne_zero, zpow_add₀ two_ne_zero]
  constructor
  · rw [zpow_natCast]
    gcongr
    linarith
  · rw [show ((Nat.log2 x.mag : Int) + 1) = ((Nat.log2 x.mag + 1 : Nat) : Int) by push_cast; rfl, zpow_natCast]
    gcongr
    linarith

/-- The spacing of a value's binade, or the smallest spacing where that is larger, is one in which the value has mant + 1 bits. -/
theorem binade_of_bounds {l k : Nat} {e u : Int} (h : (2 : ℝ) ^ ((l : Int) + e) ≤ w ∧ w < 2 ^ ((l : Int) + e + 1))
    (hu : u = max ((l : Int) + e - L.mant) (-(L.unit : Int))) (hk : (k : ℝ) ≤ w * 2 ^ (-u)) (hlt : w * 2 ^ (-u) < k + 1) :
    ((u + L.unit).toNat = 0 ∨ 2 ^ L.mant ≤ k) ∧ k < 2 ^ (L.mant + 1) := by
  have hp : (0 : ℝ) < 2 ^ (-u) := by positivity
  constructor
  · by_cases hj : (u + L.unit).toNat = 0
    · exact .inl hj
    · have he : (2 : ℝ) ^ L.mant ≤ w * 2 ^ (-u) := by
        rw [← zpow_natCast, show (L.mant : Int) = (l : Int) + e + -u by omega, zpow_add₀ two_ne_zero]
        gcongr
        exact h.1
      exact .inr (Nat.lt_succ_iff.mp (by exact_mod_cast he.trans_lt hlt))
  · have he : w * 2 ^ (-u) < (2 : ℝ) ^ (L.mant + 1) := by
      calc w * 2 ^ (-u) < 2 ^ ((l : Int) + e + 1) * 2 ^ (-u) := by gcongr; exact h.2
        _ = 2 ^ ((l : Int) + e + 1 + -u) := (zpow_add₀ two_ne_zero _ _).symm
        _ ≤ 2 ^ ((L.mant + 1 : Nat) : Int) := zpow_le_zpow_right₀ one_le_two (by omega)
        _ = 2 ^ (L.mant + 1) := zpow_natCast _ _
    exact_mod_cast hk.trans_lt he

open scoped Classical in
/-- A magnitude of enough bits rounds, before overflow, from the format's step below, up or not. -/
theorem roundMag_eq (hf : FormatOf f L) (hx : Holds x w) (hb : x.inexact = true → 2 ^ (L.mant + 1) ≤ x.mag)
    (hs : r = .rs → x.inexact = false) (hd : draw < 2 ^ 16) :
    ∃ k : Nat, (L.size k : ℝ) ≤ w * 2 ^ L.unit ∧ w * 2 ^ L.unit < L.size (k + 1) ∧
      f.roundMag x neg r draw = (if RoundsUp L.size r neg (w * 2 ^ L.unit) draw k then k + 1 else k,
        decide (w * 2 ^ L.unit ≠ L.size k)) := by
  by_cases h0 : x.mag = 0 ∧ x.inexact = false
  · have hw : w = 0 := by simpa [h0] using hx.1 h0.2
    refine ⟨0, by simp [hw], ?_, ?_⟩
    · have : 0 < L.size 1 := Nat.pos_of_ne_zero (size_eq_zero_iff.not.mpr one_ne_zero)
      simpa [hw] using this
    · rw [FloatFmt.roundMag, if_pos h0, hw, zero_mul, size_zero, if_neg]
      · simp
      · intro h
        simpa using h.lt (size_strictMono L) hd (by simp)
  · have hne : x.mag ≠ 0 := fun h => h0 ⟨h, by
      by_contra hi
      have := hb (by simpa using hi)
      have := Nat.two_pow_pos (L.mant + 1)
      omega⟩
    rw [FloatFmt.roundMag, if_neg h0, hf.m, least_of_formatOf hf]
    obtain ⟨u, hu⟩ : ∃ u, u = max ((Nat.log2 x.mag : Int) + x.exp - L.mant) (-(L.unit : Int)) := ⟨_, rfl⟩
    have hlog (h : x.inexact = true) : L.mant + 1 ≤ Nat.log2 x.mag := (Nat.le_log2 hne).mpr (hb h)
    obtain ⟨k, hk, hlt, hround⟩ := roundAt_eq (neg := neg) hx (fun h => by have := hlog h; omega : _ → x.exp < u) hs hd
    obtain ⟨hj, hk2⟩ := binade_of_bounds (hx.bounds hne) hu hk hlt
    have hpow : w * 2 ^ L.unit = w * 2 ^ (-u) * 2 ^ (u + L.unit).toNat := by
      rw [mul_assoc, ← zpow_natCast, ← zpow_natCast, ← zpow_add₀ two_ne_zero]
      congr 2
      omega
    have hp : (0 : ℝ) < 2 ^ (u + L.unit).toNat := by positivity
    have hsize : (L.size ((u + L.unit).toNat * 2 ^ L.mant + k) : ℝ) = k * 2 ^ (u + L.unit).toNat := by
      exact_mod_cast size_binade hj hk2.le
    have hsize' : (L.size ((u + L.unit).toNat * 2 ^ L.mant + k + 1) : ℝ) = (k + 1) * 2 ^ (u + L.unit).toNat := by
      exact_mod_cast size_binade (k := k + 1) (hj.imp_right Nat.le_succ_of_le) hk2
    refine ⟨(u + L.unit).toNat * 2 ^ L.mant + k, ?_, ?_, ?_⟩
    · rw [hsize, hpow]
      gcongr
    · rw [hsize', hpow]
      gcongr
    · simp only [← hu, hround, hpow, hsize, roundsUp_size_iff hf.mant_pos hj hk2, ne_eq, mul_left_inj' hp.ne', sub_neg_eq_add]
      refine congrArg (·, _) ?_
      split <;> rfl

/-! ### Overflow and flags (R148 to R152) -/

theorem overflow_of_formatOf (hf : FormatOf f L) (neg : Bool) (r : Rm) (t : Sat) :
    ((f.overflow neg r t).1, { of := (f.overflow neg r t).2, nx := true : FFlags }) = overflowOf L r t neg := by
  simp only [FloatFmt.overflow, overflowOf, hf.inf, hf.top, nanCode_of_formatOf hf, signed_of_formatOf hf]
  cases hi : L.inf with
  | none => cases t <;> cases r <;> cases neg <;> simp
  | some i => cases t <;> cases r <;> cases neg <;> simp

/-- The result of a magnitude of enough bits is the one the tables give (R148 to R152). -/
theorem gives_round (hf : FormatOf f L) (hx : Holds x w) (hb : x.inexact = true → 2 ^ (L.mant + 1) ≤ x.mag)
    (hs : r = .rs → x.inexact = false) (hd : draw < 2 ^ 16) :
    Gives L r t neg (w * 2 ^ L.unit) draw (f.round neg x r t draw) := by
  classical
  obtain ⟨k, hk, hlt, hround⟩ := roundMag_eq (neg := neg) hf hx hb hs hd
  refine ⟨_, roundsOn_ite (size_strictMono L) hk hlt, ?_⟩
  have hnx := ne_rounded_iff (r := r) (neg := neg) (size_strictMono L) hd hk hlt
  generalize (if RoundsUp L.size r neg (w * 2 ^ L.unit) draw k then k + 1 else k) = m at hround hnx
  rw [FloatFmt.round, hround, hf.top, hf.m]
  refine ⟨fun h => ?_, fun h => ?_⟩
  · rw [← overflow_of_formatOf hf]
    exact if_pos h
  · simp only [not_lt.mpr h, if_false, signed_of_formatOf hf, hnx]
    simp [and_assoc]

end
end Sys2Proof.Claims
end

section
/-! SUPPORT. The values of codes (R143 to R145), and exact sums of terms rounded once (R148). -/

namespace Sys2Proof.Claims

open Sys2Proof.Machine

/-! ### The values of codes (R143 to R145) -/

section
variable {f : FloatFmt} {L : Layout} {c : Nat} {s : Bool}

theorem testBit_sign (L : Layout) (c : Nat) : c.testBit L.sign = L.neg c := Nat.testBit_eq_decide_div_mod_eq

/-- The value of a code, in the words of the layout. -/
theorem decode_eq (hf : FormatOf f L) (c : Nat) : f.decode c =
    if L.top < L.mag c then
      (if L.inf = some (L.mag c) then .inf (L.neg c) else .nan (decide (15 ≤ L.sign) && !(L.mag c).testBit (L.mant - 1)))
    else if L.mag c / 2 ^ L.mant = 0 then .fin (L.neg c) (L.mag c % 2 ^ L.mant) (1 - (L.bias : Int) - L.mant)
    else .fin (L.neg c) (2 ^ L.mant + L.mag c % 2 ^ L.mant) (((L.mag c / 2 ^ L.mant : Nat) : Int) - L.bias - L.mant) := by
  simp only [FloatFmt.decode, hf.sign, hf.top, hf.m, hf.bias, hf.inf, hf.quiet, testBit_sign, Layout.mag] <;> rfl

/-- A finite code's value: at most mant + 1 bits, and a number of binades above the smallest spacing. -/
theorem decode_of_finite (hf : FormatOf f L) (h : L.Finite c) :
    ∃ m j : Nat, f.decode c = .fin (L.neg c) m ((j : Int) - L.unit) ∧ L.size (L.mag c) = m * 2 ^ j ∧ m < 2 ^ (L.mant + 1) := by
  have hb := hf.bias_pos
  have hlt := Nat.mod_lt (L.mag c) (Nat.two_pow_pos L.mant)
  rw [decode_eq hf, if_neg (not_lt.mpr h)]
  by_cases he : L.mag c / 2 ^ L.mant = 0
  · have hm : L.mag c % 2 ^ L.mant = L.mag c := Nat.mod_eq_of_lt (Nat.lt_of_div_eq_zero (Nat.two_pow_pos _) he)
    refine ⟨L.mag c, 0, ?_, by simp [Layout.size, he], ?_⟩
    · rw [if_pos he]
      refine congrArg₂ (FVal.fin (L.neg c)) hm ?_
      rw [Layout.unit]
      omega
    · rw [pow_succ]
      omega
  · obtain ⟨j, hj⟩ := Nat.exists_eq_succ_of_ne_zero he
    refine ⟨2 ^ L.mant + L.mag c % 2 ^ L.mant, j, ?_, by rw [Layout.size, if_neg he, hj]; rfl, ?_⟩
    · rw [if_neg he, hj, Layout.unit]
      refine congrArg (FVal.fin (L.neg c) _) ?_
      omega
    · rw [pow_succ]
      omega

theorem decode_of_infinite (hf : FormatOf f L) (h : L.Infinite c) : f.decode c = .inf (L.neg c) := by
  rw [decode_eq hf, if_pos (hf.inf_bounds _ h).1, if_pos h]

theorem decode_of_nan (hf : FormatOf f L) (h : L.Nan c) : f.decode c = .nan (decide (L.Signals c)) := by
  have hbit : (L.mag c).testBit (L.mant - 1) = decide (c / 2 ^ (L.mant - 1) % 2 = 1) := by
    rw [Layout.mag, Nat.testBit_mod_two_pow, Nat.testBit_eq_decide_div_mod_eq]
    have := hf.mant_lt
    simp [show L.mant - 1 < L.sign by omega]
  rw [decode_eq hf, if_pos h.1, if_neg h.2, hbit]
  refine congrArg FVal.nan (Bool.eq_iff_iff.mpr ?_)
  simp [h.1, h.2]

/-- A code is finite, infinite or a NaN. -/
theorem finite_or_infinite_or_nan (L : Layout) (c : Nat) : L.Finite c ∨ L.Infinite c ∨ L.Nan c := by
  by_cases h : L.mag c ≤ L.top
  · exact .inl h
  · by_cases hi : L.inf = some (L.mag c)
    · exact .inr (.inl hi)
    · exact .inr (.inr ⟨not_le.mp h, hi⟩)

theorem not_finite_of_infinite (hf : FormatOf f L) (h : L.Infinite c) : ¬L.Finite c := not_le.mpr (hf.inf_bounds _ h).1

theorem isNan_decode_iff (hf : FormatOf f L) : (f.decode c).isNan = true ↔ L.Nan c := by
  obtain h | h | h := finite_or_infinite_or_nan L c
  · obtain ⟨m, j, hd, -⟩ := decode_of_finite hf h
    rw [hd]
    exact iff_of_false nofun fun hn => absurd h (not_le.mpr hn.1)
  · rw [decode_of_infinite hf h]
    exact iff_of_false nofun fun hn => hn.2 h
  · rw [decode_of_nan hf h]
    exact iff_of_true rfl h

theorem signalling_decode_iff (hf : FormatOf f L) : (f.decode c).signalling = true ↔ L.Signals c := by
  obtain h | h | h := finite_or_infinite_or_nan L c
  · obtain ⟨m, j, hd, -⟩ := decode_of_finite hf h
    rw [hd]
    exact iff_of_false nofun fun hn => absurd h (not_le.mpr hn.1.1)
  · rw [decode_of_infinite hf h]
    exact iff_of_false nofun fun hn => hn.1.2 h
  · rw [decode_of_nan hf h]
    exact decide_eq_true_iff

end

/-! ### Exact sums (R148, R155) -/

/-- A real number with a sign. -/
noncomputable def signed (neg : Bool) (x : ℝ) : ℝ := if neg then -x else x

theorem signed_mul (n k : Bool) (x y : ℝ) : signed n x * signed k y = signed (n ^^ k) (x * y) := by
  cases n <;> cases k <;> simp [signed]

theorem signed_mul_right (n : Bool) (x y : ℝ) : signed n x * y = signed n (x * y) := by cases n <;> simp [signed]

theorem signed_not (n : Bool) (x : ℝ) : signed (!n) x = -signed n x := by cases n <;> simp [signed]

/-- The value of a term. -/
noncomputable def termValue (t : Term) : ℝ := signed t.neg (t.mag * 2 ^ t.exp)

theorem at_mul_zpow {t : Term} {e : Int} (h : e ≤ t.exp) : (t.at e : ℝ) * 2 ^ e = termValue t := by
  have hp : ((t.mag * 2 ^ (t.exp - e).toNat : Nat) : ℝ) * 2 ^ e = t.mag * 2 ^ t.exp := by
    rw [Nat.cast_mul, Nat.cast_pow, Nat.cast_ofNat, ← zpow_natCast, Int.toNat_of_nonneg (by omega), mul_assoc,
      ← zpow_add₀ two_ne_zero, sub_add_cancel]
  rw [Term.at, termValue, signed, ← hp]
  cases t.neg <;> simp

theorem leastExp_le {ts : List Term} {t : Term} (h : t ∈ ts) : leastExp ts ≤ t.exp := by
  induction ts with
  | nil => cases h
  | cons u ts ih =>
    cases ts with
    | nil => rw [List.mem_singleton.mp h]; rfl
    | cons u' ts' =>
      rw [leastExp]
      · rcases List.mem_cons.mp h with rfl | h
        · exact min_le_left _ _
        · exact (min_le_right _ _).trans (ih h)
      · simp

theorem foldl_at {ts : List Term} {e : Int} (h : ∀ t ∈ ts, e ≤ t.exp) (a : Int) :
    ((ts.foldl (fun a t => a + t.at e) a : Int) : ℝ) * 2 ^ e = a * 2 ^ e + (ts.map termValue).sum := by
  induction ts generalizing a with
  | nil => simp
  | cons t ts ih =>
    obtain ⟨ht, hts⟩ := List.forall_mem_cons.mp h
    rw [List.foldl_cons, ih hts, List.map_cons, List.sum_cons, Int.cast_add, add_mul, at_mul_zpow ht, add_assoc]

section
variable {f : FloatFmt} {L : Layout} {r : Rm}

/-- The exact sum of terms rounds once; an exact zero takes its sign from the terms and the mode. -/
theorem givesSum_sum (hf : FormatOf f L) (ts : List Term) (r : Rm) :
    GivesSum L r ((ts.map termValue).sum * 2 ^ L.unit) (∀ t ∈ ts, t.neg = true ∧ t.mag = 0) (f.sum ts r) := by
  obtain ⟨z, hz⟩ : ∃ z, z = ts.foldl (fun a t => a + t.at (leastExp ts)) (0 : Int) := ⟨_, rfl⟩
  have hv := foldl_at (fun t => leastExp_le (ts := ts)) 0
  rw [← hz, Int.cast_zero, zero_mul, zero_add] at hv
  obtain ⟨p, hp⟩ : ∃ p : ℝ, p = 2 ^ leastExp ts * 2 ^ L.unit := ⟨_, rfl⟩
  have hpos : 0 < p := by rw [hp]; positivity
  have hround (hne : z ≠ 0) : Gives L r .dflt (decide (z < 0)) ((z.natAbs : ℝ) * p) 0 (f.sum ts r) := by
    rw [FloatFmt.sum, ← hz, if_neg hne, hp, ← mul_assoc]
    exact gives_round hf (holds_exact _ _) nofun (fun _ => rfl) (by decide)
  rw [← hv, mul_assoc, ← hp, GivesSum]
  refine ⟨fun h => ?_, fun h => ?_, fun h => ?_⟩
  · have hlt : 0 < z := by exact_mod_cast (mul_pos_iff_of_pos_right hpos).mp h
    have habs : ((z.natAbs : Nat) : ℝ) = z := by rw [Nat.cast_natAbs, abs_of_pos hlt]
    have hg := hround hlt.ne'
    rwa [habs, decide_eq_false hlt.not_gt] at hg
  · have hlt : z < 0 := by exact_mod_cast (not_le.mp fun h0 => not_le.mpr h (mul_nonneg h0 hpos.le) : (z : ℝ) < 0)
    have habs : ((z.natAbs : Nat) : ℝ) = -z := by rw [Nat.cast_natAbs, abs_of_neg hlt, Int.cast_neg]
    have hg := hround hlt.ne
    rwa [habs, decide_eq_true hlt, neg_mul] at hg
  · have h0 : z = 0 := by exact_mod_cast (mul_eq_zero_iff_right hpos.ne').mp h
    rw [FloatFmt.sum, ← hz, if_pos h0]
    have hall : (ts.all fun t => t.neg && t.mag == 0) = true ↔ ∀ t ∈ ts, t.neg = true ∧ t.mag = 0 := by simp
    simp only [signed_of_formatOf hf]
    refine ⟨fun hm => ?_, fun hm hr => ?_⟩
    · rw [← hall] at hm
      rcases hm with hm | rfl <;> simp [*]
    · rw [← hall] at hm
      simp [hm, hr, Layout.code]

end
end Sys2Proof.Claims
end

section
/-! SUPPORT. Sums of values: invalid ones, those with a NaN or an infinity, and those of finite terms (R155, R165). -/

namespace Sys2Proof.Claims

open Sys2Proof.Machine

/-! ### Sums of values (R148, R155, R165) -/

/-- A term as a value, and as a product. -/
def termVal (t : Term) : FVal := .fin t.neg t.mag t.exp
def termProd (t : Term) : Machine.Prod := .val (termVal t)

/-- A sum is invalid: its operands are, or a product is, or opposite infinities meet. -/
def BadSum (ps : List Machine.Prod) (iv : Bool) : Prop :=
  iv = true ∨ .invalid ∈ ps ∨ (.val (.inf false) ∈ ps ∧ .val (.inf true) ∈ ps)

/-- A sum has a NaN among its values. -/
def NanSum (ps : List Machine.Prod) : Prop := ∃ v : FVal, v.isNan = true ∧ .val v ∈ ps

/-- The values among products. -/
def prodVal : Machine.Prod → Option FVal
  | .val v => some v
  | .invalid => none
def vals (ps : List Machine.Prod) : List FVal := ps.filterMap prodVal

theorem mem_vals_iff {ps : List Machine.Prod} {v : FVal} : v ∈ vals ps ↔ .val v ∈ ps := by
  rw [vals, List.mem_filterMap]
  constructor
  · rintro ⟨p | -, hp, he⟩
    · obtain rfl := Option.some.inj he
      exact hp
    · cases he
  · exact fun h => ⟨_, h, rfl⟩

theorem vals_map_termProd (ts : List Term) : vals (ts.map termProd) = ts.map termVal := by
  rw [vals, List.filterMap_map, ← List.filterMap_eq_map]
  rfl

section
variable {f : FloatFmt} {L : Layout} {r : Rm} {iv : Bool} {ps : List Machine.Prod}

theorem finTerms_map (ts : List Term) : finTerms (ts.map termVal) = ts := by
  induction ts with
  | nil => rfl
  | cons t ts ih => rw [List.map_cons, termVal, finTerms, ih]

theorem sumVals_eq_vals (f : FloatFmt) (ps : List Machine.Prod) (iv : Bool) (r : Rm) : f.sumVals ps iv r =
    if (iv || ps.contains .invalid || ((vals ps).contains (.inf false) && (vals ps).contains (.inf true))) ||
        (vals ps).any FVal.isNan then
      (f.nanCode, { iv := iv || ps.contains .invalid || ((vals ps).contains (.inf false) && (vals ps).contains (.inf true)) })
    else if (vals ps).contains (.inf false) then (f.inf.getD f.top, {})
    else if (vals ps).contains (.inf true) then (f.signed true (f.inf.getD f.top), {})
    else f.sum (finTerms (vals ps)) r := rfl

open scoped Classical in
/-- What a sum of values comes to. -/
theorem sumVals_eq (hf : FormatOf f L) : f.sumVals ps iv r =
    if BadSum ps iv ∨ NanSum ps then (L.nan.getD 0, { iv := decide (BadSum ps iv) })
    else if .val (.inf false) ∈ ps then (L.inf.getD L.top, {})
    else if .val (.inf true) ∈ ps then (L.code true (L.inf.getD L.top), {})
    else f.sum (finTerms (vals ps)) r := by
  have hinf (s : Bool) : (vals ps).contains (.inf s) = decide (.val (.inf s) ∈ ps) := by
    rw [Bool.eq_iff_iff, List.contains_iff_mem, mem_vals_iff, decide_eq_true_iff]
  have hbad : (iv || ps.contains .invalid || (decide (.val (.inf false) ∈ ps) && decide (.val (.inf true) ∈ ps))) =
      decide (BadSum ps iv) := by
    rw [Bool.eq_iff_iff, decide_eq_true_iff]
    simp [BadSum, or_assoc]
  have hnan : (vals ps).any FVal.isNan = decide (NanSum ps) := by
    rw [Bool.eq_iff_iff, List.any_eq_true, decide_eq_true_iff, NanSum]
    simp only [mem_vals_iff, and_comm]
  rw [sumVals_eq_vals]
  simp only [hinf, hbad, hnan, signed_of_formatOf hf, nanCode_of_formatOf hf, hf.inf, hf.top, ← Bool.decide_or,
    decide_eq_true_iff]

/-- An invalid sum, or one with a NaN, is the canonical NaN. -/
theorem quiets_sumVals (hf : FormatOf f L) (h : BadSum ps iv ∨ NanSum ps) :
    Quiets (L.nan.getD 0) (f.sumVals ps iv r) (BadSum ps iv) := by
  classical
  rw [sumVals_eq hf, if_pos h]
  exact ⟨rfl, rfl, decide_eq_true_iff⟩

/-- A sum with an infinity is that infinity. -/
theorem sumVals_of_inf (hf : FormatOf f L) {s : Bool} (hb : ¬BadSum ps iv) (hn : ¬NanSum ps) (h : .val (.inf s) ∈ ps) :
    f.sumVals ps iv r = (L.code s (L.inf.getD L.top), {}) := by
  classical
  rw [sumVals_eq hf, if_neg (not_or.mpr ⟨hb, hn⟩)]
  cases s with
  | false => exact if_pos h
  | true => rw [if_neg fun h' => hb (.inr (.inr ⟨h', h⟩)), if_pos h]

/-- A sum of finite values is that of its terms, rounded once. -/
theorem sumVals_of_terms (hf : FormatOf f L) (ts : List Term) : f.sumVals (ts.map termProd) false r = f.sum ts r := by
  classical
  have hval {v : FVal} (h : .val v ∈ ts.map termProd) : ∃ t ∈ ts, v = termVal t := by
    obtain ⟨t, ht, he⟩ := List.mem_map.mp h
    exact ⟨t, ht, (Machine.Prod.val.inj he).symm⟩
  have hinf (s : Bool) : .val (.inf s) ∉ ts.map termProd := fun h => by
    obtain ⟨t, -, he⟩ := hval h
    cases he
  have hbad : ¬BadSum (ts.map termProd) false := by
    rintro (h | h | h)
    · cases h
    · obtain ⟨t, -, he⟩ := List.mem_map.mp h
      cases he
    · exact hinf _ h.1
  have hnan : ¬NanSum (ts.map termProd) := by
    rintro ⟨v, hv, h⟩
    obtain ⟨t, -, rfl⟩ := hval h
    cases hv
  rw [sumVals_eq hf, if_neg (not_or.mpr ⟨hbad, hnan⟩), if_neg (hinf _), if_neg (hinf _), vals_map_termProd, finTerms_map]

end
end Sys2Proof.Claims
end

section
/-! SUPPORT. Products of codes' values (R155): invalid, infinite, NaNs, or terms. -/

namespace Sys2Proof.Claims

open Sys2Proof.Machine

/-! ### Values and products of codes -/

/-- A code whose value is a term: its sign, its magnitude, and whether that is 0. -/
structure CodeTerm (f : FloatFmt) (L : Layout) (c : Nat) (t : Term) : Prop where
  decode : f.decode c = termVal t
  neg : t.neg = L.neg c
  size : (t.mag : ℝ) * 2 ^ t.exp = L.size (L.mag c) / 2 ^ L.unit
  zero : t.mag = 0 ↔ L.mag c = 0

section
variable {f : FloatFmt} {L : Layout} {a b c : Nat} {s : Bool} {t u : Term}

theorem exists_codeTerm (hf : FormatOf f L) (h : L.Finite c) : ∃ t, CodeTerm f L c t := by
  obtain ⟨m, j, hd, hm, -⟩ := decode_of_finite hf h
  refine ⟨⟨L.neg c, m, (j : Int) - L.unit⟩, hd, rfl, ?_, ?_⟩
  · rw [hm, zpow_sub₀ two_ne_zero, zpow_natCast, zpow_natCast, Nat.cast_mul, Nat.cast_pow, Nat.cast_ofNat, mul_div_assoc]
  · rw [← size_eq_zero_iff (L := L) (m := L.mag c), hm]
    simp

theorem num_eq_signed (L : Layout) (c : Nat) : (L.num c : ℝ) = signed (L.neg c) (L.size (L.mag c)) := by
  rw [Layout.num, signed]
  split <;> simp

theorem CodeTerm.value (h : CodeTerm f L c t) : termValue t = L.num c / 2 ^ L.unit := by
  rw [termValue, h.neg, h.size, num_eq_signed, div_eq_mul_inv, div_eq_mul_inv, signed_mul_right]

/-- What a code decodes to, and of which kind it is. -/
inductive CodeKind (L : Layout) (c : Nat) : FVal → Prop where
  | fin (m : Nat) (e : Int) : (m = 0 ↔ L.mag c = 0) → L.Finite c → ¬L.Infinite c → ¬L.Nan c → CodeKind L c (.fin (L.neg c) m e)
  | inf : ¬L.Finite c → L.Infinite c → ¬L.Nan c → CodeKind L c (.inf (L.neg c))
  | nan (s : Bool) : ¬L.Finite c → ¬L.Infinite c → L.Nan c → CodeKind L c (.nan s)

theorem codeKind_decode (hf : FormatOf f L) (c : Nat) : CodeKind L c (f.decode c) := by
  obtain h | h | h := finite_or_infinite_or_nan L c
  · obtain ⟨⟨n, m, e⟩, hd, rfl, -, hz⟩ := exists_codeTerm hf h
    rw [hd]
    exact .fin m e hz h (fun hi => not_finite_of_infinite hf hi h) fun hn => hn.1.not_ge h
  · rw [decode_of_infinite hf h]
    exact .inf (not_finite_of_infinite hf h) h fun hn => hn.2 h
  · rw [decode_of_nan hf h]
    exact .nan _ h.1.not_ge h.2 h

/-- What the product of two codes' values is: invalid, infinite, a NaN, or the product of two terms. -/
theorem mul_kinds {x y : FVal} (ha : CodeKind L a x) (hb : CodeKind L b y) :
    (x.mul y = .invalid ↔ BadProduct L a b) ∧
    (∀ s, x.mul y = .val (.inf s) ↔ InfProduct L a b ∧ (L.neg a ^^ L.neg b) = s) ∧
    ((∃ v : FVal, v.isNan = true ∧ x.mul y = .val v) ↔ L.Nan a ∨ L.Nan b) := by
  cases ha with
  | fin m e hz h1 h2 h3 => cases hb with
    | fin m' e' hz' h1' h2' h3' => simp [FVal.mul, FVal.isNan, h2, h3, h2', h3']
    | inf h1' h2' h3' =>
      by_cases h0 : m = 0 <;> simp [FVal.mul, FVal.isNan, BadProduct, InfProduct, h0, ← hz, eq_true h1, h2, h3, eq_true h2', h3']
    | nan s' h1' h2' h3' => simp [FVal.mul, FVal.isNan, h2, h3, h2', eq_true h3']
  | inf h1 h2 h3 => cases hb with
    | fin m' e' hz' h1' h2' h3' =>
      by_cases h0 : m' = 0 <;> simp [FVal.mul, FVal.isNan, BadProduct, InfProduct, h0, ← hz', eq_true h2, h3, eq_true h1', h2', h3']
    | inf h1' h2' h3' => simp [FVal.mul, FVal.isNan, BadProduct, InfProduct, h1, eq_true h2, h3, h1', eq_true h2', h3']
    | nan s' h1' h2' h3' => simp [FVal.mul, FVal.isNan, h1, eq_true h2, h3, h1', h2', eq_true h3']
  | nan s h1 h2 h3 => simp [FVal.mul, FVal.isNan, h1, h2, eq_true h3]

end
end Sys2Proof.Claims
end

section
/-! SUPPORT. Sums, differences, products and multiply-adds of finite numbers are exact and rounded once (R155, R164). -/

namespace Sys2Proof.Claims

open Sys2Proof.Machine

/-! ### Kinds of products, and their sums -/

/-- When a product is invalid, an infinity of each sign, and a NaN. -/
structure ProdKind (p : Machine.Prod) (bad : Prop) (inf : Bool → Prop) (nan : Prop) : Prop where
  invalid : p = .invalid ↔ bad
  infinite : ∀ s, p = .val (.inf s) ↔ inf s
  nan : (∃ v : FVal, v.isNan = true ∧ p = .val v) ↔ nan

section
variable {f : FloatFmt} {L : Layout} {a b c : Nat} {x y z : FVal} {r : Rm} {iv : Bool}

theorem prodKind_val (h : CodeKind L a x) : ProdKind (.val x) False (fun s => L.Infinite a ∧ L.neg a = s) (L.Nan a) := by
  refine ⟨iff_of_false nofun id, fun s => ?_, ?_⟩
  · cases h with
    | fin m e _ _ hi _ => exact iff_of_false nofun fun h => hi h.1
    | inf _ hi _ =>
      rw [Prod.val.injEq, FVal.inf.injEq]
      exact (and_iff_right hi).symm
    | nan q _ hi _ => exact iff_of_false nofun fun h => hi h.1
  · cases h with
    | fin m e _ _ _ hn => exact iff_of_false (fun ⟨v, hv, he⟩ => by cases he; cases hv) hn
    | inf _ _ hn => exact iff_of_false (fun ⟨v, hv, he⟩ => by cases he; cases hv) hn
    | nan q _ _ hn => exact iff_of_true ⟨_, rfl, rfl⟩ hn

theorem prodKind_neg (h : CodeKind L a x) : ProdKind (.val x.neg) False (fun s => L.Infinite a ∧ (!L.neg a) = s) (L.Nan a) := by
  refine ⟨iff_of_false nofun id, fun s => ?_, ?_⟩
  · have hx : Machine.Prod.val x.neg = .val (.inf s) ↔ Machine.Prod.val x = .val (.inf !s) := by
      cases x <;> cases s <;> simp [FVal.neg]
    rw [hx, (prodKind_val h).infinite, Bool.eq_not, Bool.not_eq]
  · rw [← (prodKind_val h).nan]
    cases x <;> simp [FVal.neg, FVal.isNan]

theorem prodKind_mul (ha : CodeKind L a x) (hb : CodeKind L b y) :
    ProdKind (x.mul y) (BadProduct L a b) (fun s => InfProduct L a b ∧ (L.neg a ^^ L.neg b) = s) (L.Nan a ∨ L.Nan b) :=
  let ⟨h1, h2, h3⟩ := mul_kinds ha hb
  ⟨h1, h2, h3⟩

section
variable {ι : Type} {l : List ι} {p : ι → Machine.Prod} {q : Machine.Prod} {bad : ι → Prop} {inf : ι → Bool → Prop}
  {nan : ι → Prop} {bq nq : Prop} {iq : Bool → Prop}

theorem badSum_cons_map_iff (hq : ProdKind q bq iq nq) (h : ∀ i ∈ l, ProdKind (p i) (bad i) (inf i) (nan i)) :
    BadSum (q :: l.map p) iv ↔
      iv = true ∨ (bq ∨ ∃ i ∈ l, bad i) ∨ (iq false ∨ ∃ i ∈ l, inf i false) ∧ (iq true ∨ ∃ i ∈ l, inf i true) := by
  have hinf (s : Bool) : .val (.inf s) ∈ l.map p ↔ ∃ i ∈ l, inf i s := by
    rw [List.mem_map]
    exact exists_congr fun i => and_congr_right fun hi => (h i hi).infinite s
  have hbad : .invalid ∈ l.map p ↔ ∃ i ∈ l, bad i := by
    rw [List.mem_map]
    exact exists_congr fun i => and_congr_right fun hi => (h i hi).invalid
  simp only [BadSum, List.mem_cons, eq_comm (b := q), hq.invalid, hq.infinite, hbad, hinf]

theorem nanSum_cons_map_iff (hq : ProdKind q bq iq nq) (h : ∀ i ∈ l, ProdKind (p i) (bad i) (inf i) (nan i)) :
    NanSum (q :: l.map p) ↔ nq ∨ ∃ i ∈ l, nan i := by
  have hmap : NanSum (l.map p) ↔ ∃ i ∈ l, nan i := by
    simp only [NanSum, List.mem_map]
    constructor
    · rintro ⟨v, hv, i, hi, he⟩
      exact ⟨i, hi, (h i hi).nan.mp ⟨v, hv, he⟩⟩
    · rintro ⟨i, hi, hn⟩
      obtain ⟨v, hv, he⟩ := (h i hi).nan.mpr hn
      exact ⟨v, hv, i, hi, he⟩
  rw [← hmap, ← hq.nan]
  simp only [NanSum, List.mem_cons, eq_comm (b := q), and_or_left, exists_or]

end

section
variable {p q : Machine.Prod} {bp bq np nq : Prop} {ip iq : Bool → Prop}

theorem badSum_singleton_iff (hp : ProdKind p bp ip np) : BadSum [p] iv ↔ iv = true ∨ bp ∨ ip false ∧ ip true := by
  simp only [BadSum, List.mem_singleton, eq_comm (b := p), hp.invalid, hp.infinite]

theorem nanSum_singleton_iff (hp : ProdKind p bp ip np) : NanSum [p] ↔ np := by
  rw [← hp.nan]
  simp only [NanSum, List.mem_singleton, eq_comm (b := p)]

theorem badSum_pair_iff (hp : ProdKind p bp ip np) (hq : ProdKind q bq iq nq) :
    BadSum [p, q] iv ↔ iv = true ∨ (bp ∨ bq) ∨ (ip false ∨ iq false) ∧ (ip true ∨ iq true) := by
  simpa using badSum_cons_map_iff (iv := iv) (l := [()]) (p := fun _ => q) hp fun _ _ => hq

theorem nanSum_pair_iff (hp : ProdKind p bp ip np) (hq : ProdKind q bq iq nq) : NanSum [p, q] ↔ np ∨ nq := by
  simpa using nanSum_cons_map_iff (l := [()]) (p := fun _ => q) hp fun _ _ => hq

theorem badSum_signed_iff {A B : Prop} {sa sb : Bool} (hp : ProdKind p bp (fun s => A ∧ sa = s) np)
    (hq : ProdKind q False (fun s => B ∧ sb = s) nq) : BadSum [p, q] iv ↔ iv = true ∨ bp ∨ (A ∧ B ∧ sa ≠ sb) := by
  rw [badSum_pair_iff hp hq]
  cases sa <;> cases sb <;> simp
  all_goals tauto

/-- The sum of two products that are no NaN, one of which is infinite or invalid. -/
theorem sumVals_pair_of_infinite (hf : FormatOf f L) {A B : Prop} {sa sb : Bool} {i : Nat} (hi : L.inf = some i)
    (hp : ProdKind p bp (fun s => A ∧ sa = s) np) (hq : ProdKind q False (fun s => B ∧ sb = s) nq) (hn : ¬(np ∨ nq))
    (h : A ∨ B ∨ bp) [Decidable (bp ∨ (A ∧ B ∧ sa ≠ sb))] [Decidable A] : f.sumVals [p, q] false r =
      if bp ∨ (A ∧ B ∧ sa ≠ sb) then (L.nan.getD 0, { iv := true }) else (L.code (if A then sa else sb) i, {}) := by
  have hbad : BadSum [p, q] false ↔ bp ∨ (A ∧ B ∧ sa ≠ sb) := by
    simpa using badSum_signed_iff (iv := false) hp hq
  have hnan : ¬NanSum [p, q] := by rwa [nanSum_pair_iff hp hq]
  split
  next hb =>
    obtain ⟨h1, h2, h3⟩ := quiets_sumVals (f := f) (r := r) hf (.inl (hbad.mpr hb))
    exact Prod.ext h1 (h2.trans (by rw [h3.mpr (hbad.mpr hb)]))
  next hb =>
    have hmem : .val (.inf (if A then sa else sb)) ∈ [p, q] := by
      split
      next hA => exact List.mem_cons.mpr (.inl ((hp.infinite sa).mpr ⟨hA, rfl⟩).symm)
      next hA =>
        have hB : B := by tauto
        rw [(hq.infinite sb).mpr ⟨hB, rfl⟩]
        simp
    rw [sumVals_of_inf hf (hbad.not.mpr hb) hnan hmem, hi]
    rfl

end

/-! ### Sums, differences, products and multiply-adds of finite numbers (R155, R164) -/

theorem GivesSum.congr {v v' : ℝ} {m m' : Prop} {x : Nat × FFlags} (h : GivesSum L r v m x) (hv : v = v') (hm : m ↔ m') :
    GivesSum L r v' m' x := by
  rwa [← hv, ← propext hm]

theorem Quiets.congr {n : Nat} {p q : Prop} {x : Nat × FFlags} (h : Quiets n x p) (hpq : p ↔ q) : Quiets n x q :=
  ⟨h.1, h.2.1, h.2.2.trans hpq⟩

variable {t u v : Term}

theorem sum_values_eq (ht : CodeTerm f L a t) (hu : CodeTerm f L b u) :
    (termValue t + termValue u) * 2 ^ L.unit = L.num a + L.num b := by
  rw [ht.value, hu.value]
  field_simp

theorem CodeTerm.not_signalling (ht : CodeTerm f L a t) : (f.decode a).signalling = false := by rw [ht.decode]; rfl

/-- The term of a product. -/
def mulTerm (t u : Term) : Term := ⟨t.neg ^^ u.neg, t.mag * u.mag, t.exp + u.exp⟩

theorem mul_eq_termProd (ht : x = termVal t) (hu : y = termVal u) : x.mul y = termProd (mulTerm t u) := by rw [ht, hu]; rfl

theorem size_mulTerm (ht : CodeTerm f L a t) (hu : CodeTerm f L b u) :
    ((mulTerm t u).mag : ℝ) * 2 ^ (mulTerm t u).exp * 2 ^ L.unit = L.size (L.mag a) * L.size (L.mag b) / 2 ^ L.unit := by
  have h : ((mulTerm t u).mag : ℝ) * 2 ^ (mulTerm t u).exp = (t.mag * 2 ^ t.exp) * (u.mag * 2 ^ u.exp) := by
    rw [mulTerm, zpow_add₀ two_ne_zero, Nat.cast_mul]
    ring
  rw [h, ht.size, hu.size]
  field_simp

theorem value_mulTerm (t u : Term) : termValue (mulTerm t u) = termValue t * termValue u := by
  rw [termValue, termValue, termValue, signed_mul, mulTerm, zpow_add₀ two_ne_zero, Nat.cast_mul]
  ring_nf

theorem givesSum_add (hf : FormatOf f L) (ha : L.Finite a) (hb : L.Finite b) (r : Rm) :
    GivesSum L r ((L.num a : ℝ) + L.num b) ((L.mag a = 0 ∧ L.neg a = true) ∧ L.mag b = 0 ∧ L.neg b = true) (f.add a b r) := by
  obtain ⟨t, ht⟩ := exists_codeTerm hf ha
  obtain ⟨u, hu⟩ := exists_codeTerm hf hb
  have he : f.add a b r = f.sum [t, u] r := by
    rw [← sumVals_of_terms hf, FloatFmt.add, ht.not_signalling, hu.not_signalling, ht.decode, hu.decode]
    rfl
  rw [he]
  refine (givesSum_sum hf [t, u] r).congr ?_ ?_
  · simpa using sum_values_eq ht hu
  · simp [ht.neg, ht.zero, hu.neg, hu.zero, and_comm]

theorem givesSum_sub (hf : FormatOf f L) (ha : L.Finite a) (hb : L.Finite b) (r : Rm) :
    GivesSum L r ((L.num a : ℝ) - L.num b) ((L.mag a = 0 ∧ L.neg a = true) ∧ L.mag b = 0 ∧ L.neg b = false) (f.sub a b r) := by
  obtain ⟨t, ht⟩ := exists_codeTerm hf ha
  obtain ⟨u, hu⟩ := exists_codeTerm hf hb
  have he : f.sub a b r = f.sum [t, { u with neg := !u.neg }] r := by
    rw [← sumVals_of_terms hf, FloatFmt.sub, ht.not_signalling, hu.not_signalling, ht.decode, hu.decode]
    rfl
  rw [he]
  refine (givesSum_sum hf _ r).congr ?_ ?_
  · have hn : termValue { u with neg := !u.neg } = -termValue u := signed_not _ _
    rw [List.map_cons, List.map_cons, List.map_nil, List.sum_cons, List.sum_cons, List.sum_nil, add_zero, hn, ht.value, hu.value]
    field_simp
    ring
  · simp [ht.neg, ht.zero, hu.neg, hu.zero, and_comm]

theorem gives_mul (hf : FormatOf f L) (ha : L.Finite a) (hb : L.Finite b) (r : Rm) :
    Gives L r .dflt (L.neg a ^^ L.neg b) ((L.size (L.mag a) : ℝ) * L.size (L.mag b) / 2 ^ L.unit) 0 (f.mul a b r) := by
  obtain ⟨t, ht⟩ := exists_codeTerm hf ha
  obtain ⟨u, hu⟩ := exists_codeTerm hf hb
  have he : f.mul a b r = f.round (mulTerm t u).neg { mag := (mulTerm t u).mag, exp := (mulTerm t u).exp } r := by
    rw [FloatFmt.mul, mul_eq_termProd ht.decode hu.decode]
    rfl
  rw [he, ← size_mulTerm ht hu, ← ht.neg, ← hu.neg]
  exact gives_round hf (holds_exact _ _) nofun (fun _ => rfl) (by decide)

theorem givesSum_fma (hf : FormatOf f L) (ha : L.Finite a) (hb : L.Finite b) (hc : L.Finite c) (r : Rm) :
    GivesSum L r ((L.num a : ℝ) * L.num b / 2 ^ L.unit + L.num c)
      ((L.mag a = 0 ∨ L.mag b = 0) ∧ (L.neg a ^^ L.neg b) = true ∧ L.mag c = 0 ∧ L.neg c = true) (f.fma a b c r) := by
  obtain ⟨t, ht⟩ := exists_codeTerm hf ha
  obtain ⟨u, hu⟩ := exists_codeTerm hf hb
  obtain ⟨v, hv⟩ := exists_codeTerm hf hc
  have he : f.fma a b c r = f.sum [mulTerm t u, v] r := by
    rw [← sumVals_of_terms hf, FloatFmt.fma, ht.not_signalling, hu.not_signalling, hv.not_signalling,
      mul_eq_termProd ht.decode hu.decode, hv.decode]
    rfl
  rw [he]
  refine (givesSum_sum hf _ r).congr ?_ ?_
  · rw [List.map_cons, List.map_cons, List.map_nil, List.sum_cons, List.sum_cons, List.sum_nil, add_zero, value_mulTerm, ht.value,
      hu.value, hv.value]
    field_simp
  · simp [mulTerm, ht.neg, ht.zero, hu.neg, hu.zero, hv.neg, hv.zero]
    tauto

end
end Sys2Proof.Claims
end

section
/-! SUPPORT. NaNs and infinities in sums, differences, products and multiply-adds (R155, R164). -/

namespace Sys2Proof.Claims

open Sys2Proof.Machine

/-! ### NaNs and infinities in sums, differences, products and multiply-adds (R155) -/

section
variable {f : FloatFmt} {L : Layout} {a b c : Nat} {r : Rm}

theorem signals_or_iff (hf : FormatOf f L) :
    ((f.decode a).signalling || (f.decode b).signalling) = true ↔ L.Signals a ∨ L.Signals b := by
  rw [Bool.or_eq_true, signalling_decode_iff hf, signalling_decode_iff hf]

theorem signals_or_or_iff (hf : FormatOf f L) :
    ((f.decode a).signalling || (f.decode b).signalling || (f.decode c).signalling) = true ↔
      L.Signals a ∨ L.Signals b ∨ L.Signals c := by
  rw [Bool.or_eq_true, signals_or_iff hf, signalling_decode_iff hf, or_assoc]

theorem not_badProduct_of_nan (h : L.Nan a ∨ L.Nan b) : ¬BadProduct L a b := by
  rintro (⟨hi, hb, -⟩ | ⟨hi, ha, -⟩)
  · exact h.elim (fun h => h.2 hi) fun h => h.1.not_ge hb
  · exact h.elim (fun h => h.1.not_ge ha) fun h => h.2 hi

theorem not_infProduct_of_nan (h : L.Nan a ∨ L.Nan b) : ¬InfProduct L a b := by
  rintro ⟨⟨hi, hb⟩ | ⟨hi, ha⟩, -⟩
  · exact h.elim (fun h => h.2 hi) hb
  · exact h.elim ha fun h => h.2 hi

theorem quiets_add (hf : FormatOf f L) (h : L.Nan a ∨ L.Nan b) :
    Quiets (L.nan.getD 0) (f.add a b r) (L.Signals a ∨ L.Signals b) := by
  have ha := prodKind_val (codeKind_decode hf a)
  have hb := prodKind_val (codeKind_decode hf b)
  have hno : ¬(L.Infinite a ∧ L.Infinite b ∧ L.neg a ≠ L.neg b) := fun hi => h.elim (·.2 hi.1) (·.2 hi.2.1)
  refine (quiets_sumVals hf (.inr ((nanSum_pair_iff ha hb).mpr h))).congr ?_
  rw [badSum_signed_iff ha hb, signals_or_iff hf, false_or, or_iff_left hno]

theorem quiets_sub (hf : FormatOf f L) (h : L.Nan a ∨ L.Nan b) :
    Quiets (L.nan.getD 0) (f.sub a b r) (L.Signals a ∨ L.Signals b) := by
  have ha := prodKind_val (codeKind_decode hf a)
  have hb := prodKind_neg (codeKind_decode hf b)
  have hno : ¬(L.Infinite a ∧ L.Infinite b ∧ L.neg a ≠ !L.neg b) := fun hi => h.elim (·.2 hi.1) (·.2 hi.2.1)
  refine (quiets_sumVals hf (.inr ((nanSum_pair_iff ha hb).mpr h))).congr ?_
  rw [badSum_signed_iff ha hb, signals_or_iff hf, false_or, or_iff_left hno]

theorem finite_of_mul_eq_fin {x y : FVal} {n : Bool} {m : Nat} {e : Int} (ha : CodeKind L a x) (hb : CodeKind L b y)
    (h : x.mul y = .val (.fin n m e)) : L.Finite a ∧ L.Finite b := by
  cases ha with
  | fin p q _ ha _ _ => cases hb with
    | fin p' q' _ hb _ _ => exact ⟨ha, hb⟩
    | inf => by_cases h0 : p = 0 <;> simp [FVal.mul, h0] at h
    | nan => simp [FVal.mul] at h
  | inf => cases hb with
    | fin p' q' => by_cases h0 : p' = 0 <;> simp [FVal.mul, h0] at h
    | inf => simp [FVal.mul] at h
    | nan => simp [FVal.mul] at h
  | nan => simp [FVal.mul] at h

/-- A product that is not that of two finite numbers is its sum alone. -/
theorem mul_eq_sumVals (hf : FormatOf f L) (h : ¬(L.Finite a ∧ L.Finite b)) :
    f.mul a b r = f.sumVals [(f.decode a).mul (f.decode b)] ((f.decode a).signalling || (f.decode b).signalling) r := by
  rw [FloatFmt.mul]
  split
  next n m e he => exact absurd (finite_of_mul_eq_fin (codeKind_decode hf a) (codeKind_decode hf b) he) h
  next => rfl

theorem badSum_mul_iff (hf : FormatOf f L) {iv : Bool} :
    BadSum [(f.decode a).mul (f.decode b)] iv ↔ iv = true ∨ BadProduct L a b := by
  rw [badSum_singleton_iff (prodKind_mul (codeKind_decode hf a) (codeKind_decode hf b))]
  cases L.neg a ^^ L.neg b <;> simp

theorem nanSum_mul_iff (hf : FormatOf f L) : NanSum [(f.decode a).mul (f.decode b)] ↔ L.Nan a ∨ L.Nan b :=
  nanSum_singleton_iff (prodKind_mul (codeKind_decode hf a) (codeKind_decode hf b))

theorem quiets_mul (hf : FormatOf f L) (h : L.Nan a ∨ L.Nan b) :
    Quiets (L.nan.getD 0) (f.mul a b r) (L.Signals a ∨ L.Signals b) := by
  rw [mul_eq_sumVals hf fun hfin => h.elim (·.1.not_ge hfin.1) (·.1.not_ge hfin.2)]
  refine (quiets_sumVals hf (.inr ((nanSum_mul_iff hf).mpr h))).congr ?_
  rw [badSum_mul_iff hf, signals_or_iff hf, or_iff_left (not_badProduct_of_nan h)]

theorem quiets_fma (hf : FormatOf f L) (h : L.Nan a ∨ L.Nan b ∨ L.Nan c) :
    Quiets (L.nan.getD 0) (f.fma a b c r) (L.Signals a ∨ L.Signals b ∨ L.Signals c ∨ BadProduct L a b) := by
  have hp := prodKind_mul (codeKind_decode hf a) (codeKind_decode hf b)
  have hc := prodKind_val (codeKind_decode hf c)
  have hno : ¬(InfProduct L a b ∧ L.Infinite c ∧ (L.neg a ^^ L.neg b) ≠ L.neg c) := fun ⟨hi, hic, _⟩ =>
    (or_assoc.mpr h).elim (not_infProduct_of_nan · hi) (·.2 hic)
  refine (quiets_sumVals hf (.inr ((nanSum_pair_iff hp hc).mpr (or_assoc.mpr h)))).congr ?_
  rw [badSum_signed_iff hp hc, signals_or_or_iff hf, or_iff_left hno, or_assoc, or_assoc]

/-! ### Infinities -/

theorem not_signalling_of_not_nan (hf : FormatOf f L) (h : ¬L.Nan a) : (f.decode a).signalling = false := by
  rw [← Bool.not_eq_true, signalling_decode_iff hf]
  exact fun hs => h hs.1

section
variable {i : Nat} (hf : FormatOf f L) (hi : L.inf = some i) (ha : ¬L.Nan a) (hb : ¬L.Nan b)
include hf hi ha hb

theorem add_of_infinite (h : L.Infinite a ∨ L.Infinite b) : f.add a b r =
    if L.Infinite a ∧ L.Infinite b ∧ L.neg a ≠ L.neg b then (L.nan.getD 0, { iv := true })
    else (L.code (if L.Infinite a then L.neg a else L.neg b) i, {}) := by
  rw [FloatFmt.add, not_signalling_of_not_nan hf ha, not_signalling_of_not_nan hf hb, Bool.or_self]
  refine (sumVals_pair_of_infinite hf hi (prodKind_val (codeKind_decode hf a)) (prodKind_val (codeKind_decode hf b))
    (not_or.mpr ⟨ha, hb⟩) (h.imp_right .inl)).trans (if_congr ?_ rfl rfl)
  simp

theorem sub_of_infinite (h : L.Infinite a ∨ L.Infinite b) : f.sub a b r =
    if L.Infinite a ∧ L.Infinite b ∧ L.neg a = L.neg b then (L.nan.getD 0, { iv := true })
    else (L.code (if L.Infinite a then L.neg a else !L.neg b) i, {}) := by
  rw [FloatFmt.sub, not_signalling_of_not_nan hf ha, not_signalling_of_not_nan hf hb, Bool.or_self]
  refine (sumVals_pair_of_infinite hf hi (prodKind_val (codeKind_decode hf a)) (prodKind_neg (codeKind_decode hf b))
    (not_or.mpr ⟨ha, hb⟩) (h.imp_right .inl)).trans (if_congr ?_ rfl rfl)
  simp

theorem mul_of_infinite (h : L.Infinite a ∨ L.Infinite b) : f.mul a b r =
    if BadProduct L a b then (L.nan.getD 0, { iv := true }) else (L.code (L.neg a ^^ L.neg b) i, {}) := by
  have hp := prodKind_mul (codeKind_decode hf a) (codeKind_decode hf b)
  rw [mul_eq_sumVals hf fun hfin => h.elim (fun h => not_finite_of_infinite hf h hfin.1) fun h => not_finite_of_infinite hf h hfin.2,
    not_signalling_of_not_nan hf ha, not_signalling_of_not_nan hf hb, Bool.or_self]
  split
  next hbad =>
    have hbs := (badSum_mul_iff hf (iv := false)).mpr (.inr hbad)
    obtain ⟨h1, h2, h3⟩ := quiets_sumVals (f := f) (r := r) hf (.inl hbs)
    exact Prod.ext h1 (h2.trans (by rw [h3.mpr hbs]))
  next hbad =>
    have hinf : InfProduct L a b := ⟨h.imp (⟨·, hb⟩) (⟨·, ha⟩), hbad⟩
    rw [sumVals_of_inf hf ((badSum_mul_iff hf).not.mpr (by simpa using hbad)) ((nanSum_mul_iff hf).not.mpr (not_or.mpr ⟨ha, hb⟩))
      (List.mem_singleton.mpr ((hp.infinite _).mpr ⟨hinf, rfl⟩).symm), hi]
    rfl

theorem fma_of_infinite (hc : ¬L.Nan c) (h : InfProduct L a b ∨ L.Infinite c ∨ BadProduct L a b) : f.fma a b c r =
    if BadProduct L a b ∨ (InfProduct L a b ∧ L.Infinite c ∧ L.neg c ≠ (L.neg a ^^ L.neg b)) then (L.nan.getD 0, { iv := true })
    else (L.code (if L.Infinite c then L.neg c else L.neg a ^^ L.neg b) i, {}) := by
  rw [FloatFmt.fma, not_signalling_of_not_nan hf ha, not_signalling_of_not_nan hf hb, not_signalling_of_not_nan hf hc, Bool.or_self,
    Bool.or_self, sumVals_pair_of_infinite hf hi (prodKind_mul (codeKind_decode hf a) (codeKind_decode hf b))
      (prodKind_val (codeKind_decode hf c)) (not_or.mpr ⟨not_or.mpr ⟨ha, hb⟩, hc⟩) h]
  by_cases hbad : BadProduct L a b ∨ (InfProduct L a b ∧ L.Infinite c ∧ L.neg c ≠ (L.neg a ^^ L.neg b))
  · rw [if_pos hbad, if_pos (hbad.imp_right fun ⟨h1, h2, h3⟩ => ⟨h1, h2, h3.symm⟩)]
  · rw [if_neg hbad, if_neg fun hb => hbad (hb.imp_right fun ⟨h1, h2, h3⟩ => ⟨h1, h2, h3.symm⟩)]
    obtain ⟨hb1, hb2⟩ := not_or.mp hbad
    by_cases hic : L.Infinite c
    · by_cases hip : InfProduct L a b
      · rw [if_pos hip, if_pos hic, show L.neg c = (L.neg a ^^ L.neg b) from not_not.mp fun hne => hb2 ⟨hip, hic, hne⟩]
      · rw [if_neg hip, if_pos hic]
    · rw [if_pos (h.resolve_right (not_or.mpr ⟨hic, hb1⟩)), if_neg hic]

end
end
end Sys2Proof.Claims
end

section
/-! SUPPORT. FP32 words in the words of their layout, and the elements of dot products (R143, R147, R165). -/

namespace Sys2Proof.Claims

open Sys2Proof.Machine

/-! ### FP32 words -/

section
variable {a : Word}

theorem finite32_iff : finite32 a ↔ single.Finite a.toNat := by
  simp only [Layout.Finite, Layout.mag, single]
  omega

theorem isNan32_iff : isNan32 a ↔ single.Nan a.toNat := by
  simp only [Layout.Nan, Layout.mag, single, ne_eq, Option.some.injEq]
  omega

theorem isSnan32_iff : isSnan32 a ↔ single.Signals a.toNat := and_congr isNan32_iff (by simp [single])

theorem infinite_single_iff : single.Infinite a.toNat ↔ ¬finite32 a ∧ ¬isNan32 a := by
  simp only [Layout.Infinite, Layout.mag, single, Option.some.injEq]
  omega

theorem neg32_eq (a : Word) : neg32 a = single.neg a.toNat := by
  have := a.isLt
  rw [neg32, Layout.neg, decide_eq_decide]
  simp only [single]
  omega

theorem size_single_mag (a : Word) : single.size (single.mag a.toNat) =
    if a.toNat / 2 ^ 23 % 256 = 0 then a.toNat % 2 ^ 23
    else (2 ^ 23 + a.toNat % 2 ^ 23) * 2 ^ (a.toNat / 2 ^ 23 % 256 - 1) := by
  have he : a.toNat % 2 ^ 31 / 2 ^ 23 = a.toNat / 2 ^ 23 % 256 := by omega
  have hm : a.toNat % 2 ^ 31 % 2 ^ 23 = a.toNat % 2 ^ 23 := by omega
  simp only [Layout.size, Layout.mag, single, he, hm]
  split <;> omega

theorem fixed32_eq (a : Word) : fixed32 a = single.num a.toNat := by
  rw [Layout.num, ← neg32_eq, size_single_mag, fixed32, neg32]
  by_cases h : a.toNat < 2 ^ 31
  · simp only [h, if_true, decide_eq_false (not_le.mpr h), Bool.false_eq_true, if_false]
  · simp only [h, if_false, decide_eq_true (not_lt.mp h), if_true]

theorem abs32_eq (a : Word) : abs32 a = single.size (single.mag a.toNat) := by
  rw [abs32, fixed32_eq, Layout.num]
  split <;> simp

theorem unit_single : single.unit = 149 := rfl

theorem mag_neg_eq_iff (a : Word) : (single.mag a.toNat = 0 ∧ single.neg a.toNat = true) ↔ a = 0x80000000 := by
  have := a.isLt
  rw [← BitVec.toNat_inj, ← neg32_eq, neg32, decide_eq_true_iff, show (0x80000000 : Word).toNat = 2 ^ 31 from rfl]
  simp only [Layout.mag, single]
  omega

end

/-! ### The formats of sums (R155, R164) -/

theorem formatOf_summing {f : FloatFmt} {L : Layout} (h : Summing f L) : FormatOf f L := by
  cases h with
  | single => exact formatOf_single
  | half m L h => cases m <;> cases h <;> (constructor <;> decide)

/-! ### Both halves of a word (R147, R164) -/

theorem halves_eq {g : Nat → Nat × FFlags} (hg : ∀ j, (g j).1 < 2 ^ 16) :
    (halves g).1.toNat = (g 0).1 + 2 ^ 16 * (g 1).1 ∧
      ∀ j < 5, causeOf j (halves g).2 = (causeOf j (g 0).2 || causeOf j (g 1).2) := by
  have h0 := hg 0
  have h1 := hg 1
  refine ⟨?_, fun j hj => ?_⟩
  · simp only [halves, BitVec.toNat_ofNat]
    omega
  · interval_cases j <;> rfl

theorem half_eq_elemOf (a : Word) (j : Nat) : half a j = elemOf 16 a j := rfl

/-! ### The elements of a dot product (R147, R165) -/

theorem dotForm_cases {k : FmtKind} {f : Fmt} {n w : Nat} (h : DotForm k f n w) :
    (∃ F L, k = .float F ∧ narrow f = some L ∧ FormatOf F L) ∨ (k = .int w true ∧ narrow f = none ∧ wholes f = some (w, true)) := by
  have hfloat {F : FloatFmt} {L : Layout} (hk : k = .float F) (hn : narrow f = some L) (hF : fmtKind f = .float F) :
      ∃ F L, k = .float F ∧ narrow f = some L ∧ FormatOf F L := by
    obtain ⟨F', hF', hL⟩ := formatOf_narrow hn
    obtain rfl : F = F' := FmtKind.float.inj (hF.symm.trans hF')
    exact ⟨F, L, hk, hn, hL⟩
  cases h with
  | dot4 m f hf =>
    subst hf
    cases m with
    | s8 => exact .inr ⟨rfl, rfl, rfl⟩
    | _ => exact .inl (hfloat rfl rfl rfl)
  | dot8 m f hf =>
    subst hf
    cases m with
    | s4 => exact .inr ⟨rfl, rfl, rfl⟩
    | _ => exact .inl (hfloat rfl rfl rfl)

section
variable {k : FmtKind} {f : Fmt} {n w : Nat}

/-- The term of a whole number. -/
def intTerm (z : Int) : Term := ⟨decide (z < 0), z.natAbs, 0⟩

theorem termValue_intTerm (z : Int) : termValue (intTerm z) = z := by
  rw [termValue, intTerm, signed, zpow_zero, mul_one, Nat.cast_natAbs]
  by_cases h : z < 0
  · simp [h, abs_of_neg h]
  · simp [h, abs_of_nonneg (not_lt.mp h)]

/-- The product of two whole numbers is a term whose 0 has no sign. -/
theorem exists_term_ofInts (y z : Int) :
    ∃ t, ((termVal (intTerm y)).mul (termVal (intTerm z))).ofInts = termProd t ∧ termValue t = y * z ∧ ¬(t.neg = true ∧ t.mag = 0) := by
  rw [mul_eq_termProd rfl rfl]
  obtain ⟨q, hq⟩ : ∃ q, q = mulTerm (intTerm y) (intTerm z) := ⟨_, rfl⟩
  have hv : termValue q = y * z := by rw [hq, value_mulTerm, termValue_intTerm, termValue_intTerm]
  rw [← hq]
  obtain ⟨s, _ | m, e⟩ := q
  · exact ⟨⟨false, 0, e⟩, rfl, by rw [← hv]; simp [termValue, signed], by simp⟩
  · exact ⟨⟨s, m + 1, e⟩, rfl, hv, by simp⟩

theorem element_int (w c : Nat) : element (.int w true) c = termVal (intTerm (BitVec.ofNat w c).toInt) := rfl

theorem element_float {F : FloatFmt} {L : Layout} (hF : FormatOf F L) (hn : narrow f = some L) (c : Nat) :
    element (.float F) c = F.decode (codeOf f c) := by
  simp only [element, codeOf, hn, hF.sign]

theorem mul_float (F : FloatFmt) (x y : FVal) : (FmtKind.float F).mul x y = x.mul y := rfl

/-- The product of two elements: invalid, infinite, or a NaN. -/
theorem prodKind_element (h : DotForm k f n w) (x y : Nat) :
    ProdKind (k.mul (element k x) (element k y)) (∃ L, narrow f = some L ∧ BadProduct L (codeOf f x) (codeOf f y))
      (fun s => ∃ L, narrow f = some L ∧ InfProduct L (codeOf f x) (codeOf f y) ∧ (L.neg (codeOf f x) ^^ L.neg (codeOf f y)) = s)
      (ElemNan f (codeOf f x) ∨ ElemNan f (codeOf f y)) := by
  obtain ⟨F, L, rfl, hn, hF⟩ | ⟨rfl, hn, -⟩ := dotForm_cases h
  · have hp := prodKind_mul (codeKind_decode hF (codeOf f x)) (codeKind_decode hF (codeOf f y))
    rw [element_float hF hn, element_float hF hn, mul_float]
    constructor
    · simpa [hn] using hp.invalid
    · simpa [hn] using hp.infinite
    · simpa [hn, ElemNan] using hp.nan
  · obtain ⟨t, ht, -⟩ := exists_term_ofInts (BitVec.ofNat w x).toInt (BitVec.ofNat w y).toInt
    rw [element_int, element_int]
    simp only [FmtKind.mul, ht, hn, ElemNan]
    constructor <;> simp [termProd, termVal, FVal.isNan]

/-- The product of two finite elements. -/
theorem exists_term_element (h : DotForm k f n w) {x y : Nat} (hx : ElemFinite f (codeOf f x)) (hy : ElemFinite f (codeOf f y)) :
    ∃ t, k.mul (element k x) (element k y) = termProd t ∧
      termValue t = (elemNum f (codeOf f x) * elemNum f (codeOf f y) : ℚ) ∧
      ((t.neg = true ∧ t.mag = 0) ↔ MinusProduct f (codeOf f x) (codeOf f y)) := by
  obtain ⟨F, L, rfl, hn, hF⟩ | ⟨rfl, hn, hw⟩ := dotForm_cases h
  · obtain ⟨t, ht⟩ := exists_codeTerm hF (hx L hn)
    obtain ⟨u, hu⟩ := exists_codeTerm hF (hy L hn)
    rw [element_float hF hn, element_float hF hn]
    refine ⟨mulTerm t u, mul_eq_termProd ht.decode hu.decode, ?_, ?_⟩
    · rw [value_mulTerm, ht.value, hu.value]
      simp [elemNum, hn]
    · simp [MinusProduct, hn, mulTerm, ht.neg, ht.zero, hu.neg, hu.zero, and_comm]
  · obtain ⟨t, ht, hv, hz⟩ := exists_term_ofInts (BitVec.ofNat w x).toInt (BitVec.ofNat w y).toInt
    refine ⟨t, ht, ?_, iff_of_false hz (by simp [MinusProduct, hn])⟩
    rw [hv]
    simp [elemNum, hn, hw, codeOf]

/-! ### Dot products (R165) -/

variable {a b c : Word} {r : Rm}

/-- A dot product's products, in the words of the claims. -/
theorem dotProduct_eq (k : FmtKind) (n w : Nat) (a b c : Word) (r : Rm) : dotProduct k n w a b c r =
    fF32.sumVals (.val (fF32.decode c.toNat) ::
      (List.range n).map fun j => k.mul (element k (elemOf w a j)) (element k (elemOf w b j)))
      (fF32.decode c.toNat).signalling r := rfl

theorem givesSum_dotProduct (h : DotForm k f n w) (hc : finite32 c)
    (he : ∀ j < n, ElemFinite f (codeOf f (elemOf w a j)) ∧ ElemFinite f (codeOf f (elemOf w b j))) :
    GivesSum single r ((fixed32 c : ℝ) + (((List.range n).map fun j =>
        elemNum f (codeOf f (elemOf w a j)) * elemNum f (codeOf f (elemOf w b j))).sum : ℚ) * 2 ^ 149)
      (c = 0x80000000 ∧ ∀ j < n, MinusProduct f (codeOf f (elemOf w a j)) (codeOf f (elemOf w b j))) (dotProduct k n w a b c r) := by
  obtain ⟨u, hu⟩ := exists_codeTerm formatOf_single (finite32_iff.mp hc)
  have hterm (j : Nat) : ∃ t, j < n → k.mul (element k (elemOf w a j)) (element k (elemOf w b j)) = termProd t ∧
      termValue t = (elemNum f (codeOf f (elemOf w a j)) * elemNum f (codeOf f (elemOf w b j)) : ℚ) ∧
      ((t.neg = true ∧ t.mag = 0) ↔ MinusProduct f (codeOf f (elemOf w a j)) (codeOf f (elemOf w b j))) := by
    by_cases hj : j < n
    · obtain ⟨t, ht⟩ := exists_term_element h (he j hj).1 (he j hj).2
      exact ⟨t, fun _ => ht⟩
    · exact ⟨intTerm 0, fun h => absurd h hj⟩
  choose t ht using hterm
  have hx : dotProduct k n w a b c r = fF32.sum (u :: (List.range n).map t) r := by
    rw [dotProduct_eq, hu.not_signalling, ← sumVals_of_terms formatOf_single, hu.decode, List.map_cons, List.map_map]
    refine congrArg (fun l => fF32.sumVals (_ :: l) false r) (List.map_congr_left fun j hj => ?_)
    exact (ht j (List.mem_range.mp hj)).1
  rw [hx]
  refine (givesSum_sum formatOf_single _ r).congr ?_ ?_
  · rw [List.map_cons, List.sum_cons, List.map_map, hu.value, fixed32_eq, unit_single, add_mul, div_mul_cancel₀ _ (by positivity),
      Rat.cast_list_sum, List.map_map]
    congr 3
    exact List.map_congr_left fun j hj => (ht j (List.mem_range.mp hj)).2.1
  · rw [List.forall_mem_cons, hu.neg, hu.zero, and_comm (a := single.neg _ = true), mag_neg_eq_iff]
    simp only [List.mem_map, List.mem_range, forall_exists_index, and_imp, forall_apply_eq_imp_iff₂]
    exact and_congr_right fun _ => forall₂_congr fun j hj => (ht j hj).2.2

end
end Sys2Proof.Claims
end

section
/-! O14 (R147, R148, R155, R164, R165): sums and products of FP32, FP16 and BF16, and dot products. -/

namespace Sys2Proof.Claims

open Sys2Proof.Machine

section
variable {k : FmtKind} {f : Fmt} {n w : Nat} {a b c : Word} {r : Rm}

/-- The products of a dot product that are invalid, that are an infinity of a sign, and those of a NaN. -/
def DotBad (f : Fmt) (n w : Nat) (a b : Word) : Prop :=
  ∃ j < n, ∃ L, narrow f = some L ∧ BadProduct L (codeOf f (elemOf w a j)) (codeOf f (elemOf w b j))
def DotInf (f : Fmt) (n w : Nat) (a b c : Word) (s : Bool) : Prop :=
  (single.Infinite c.toNat ∧ neg32 c = s) ∨
    ∃ j < n, ∃ L, narrow f = some L ∧ InfProduct L (codeOf f (elemOf w a j)) (codeOf f (elemOf w b j)) ∧
      (L.neg (codeOf f (elemOf w a j)) ^^ L.neg (codeOf f (elemOf w b j))) = s
def DotNan (f : Fmt) (n w : Nat) (a b c : Word) : Prop :=
  isNan32 c ∨ ∃ j < n, ElemNan f (codeOf f (elemOf w a j)) ∨ ElemNan f (codeOf f (elemOf w b j))

/-- The products of a dot product, C first. -/
def dotProds (k : FmtKind) (n w : Nat) (a b c : Word) : List Machine.Prod :=
  .val (fF32.decode c.toNat) :: (List.range n).map fun j => k.mul (element k (elemOf w a j)) (element k (elemOf w b j))

theorem prodKind_single (c : Word) :
    ProdKind (.val (fF32.decode c.toNat)) False (fun s => single.Infinite c.toNat ∧ neg32 c = s) (isNan32 c) := by
  obtain ⟨hb, hi, hn⟩ := prodKind_val (codeKind_decode formatOf_single c.toNat)
  exact ⟨hb, neg32_eq c ▸ hi, hn.trans isNan32_iff.symm⟩

theorem badSum_dotProds_iff (h : DotForm k f n w) {iv : Bool} :
    BadSum (dotProds k n w a b c) iv ↔ iv = true ∨ DotBad f n w a b ∨ (DotInf f n w a b c true ∧ DotInf f n w a b c false) := by
  rw [dotProds, badSum_cons_map_iff (prodKind_single c) fun j _ => prodKind_element h (elemOf w a j) (elemOf w b j)]
  simp only [List.mem_range, false_or]
  exact or_congr_right (or_congr_right and_comm)

theorem nanSum_dotProds_iff (h : DotForm k f n w) : NanSum (dotProds k n w a b c) ↔ DotNan f n w a b c := by
  rw [dotProds, nanSum_cons_map_iff (prodKind_single c) fun j _ => prodKind_element h (elemOf w a j) (elemOf w b j)]
  simp only [List.mem_range, DotNan]

theorem quiets_dotProduct (h : DotForm k f n w)
    (hx : DotNan f n w a b c ∨ DotBad f n w a b ∨ (DotInf f n w a b c true ∧ DotInf f n w a b c false)) :
    Quiets 0x7FC00000 (dotProduct k n w a b c r)
      (isSnan32 c ∨ DotBad f n w a b ∨ (DotInf f n w a b c true ∧ DotInf f n w a b c false)) := by
  rw [dotProduct_eq]
  refine (quiets_sumVals formatOf_single (ps := dotProds k n w a b c) ?_).congr ?_
  · rw [badSum_dotProds_iff h, nanSum_dotProds_iff h]
    exact hx.symm.imp_left .inr
  · rw [badSum_dotProds_iff h, signalling_decode_iff formatOf_single, isSnan32_iff]

theorem dotProduct_of_inf (h : DotForm k f n w) {s : Bool} (hn : ¬DotNan f n w a b c) (hb : ¬DotBad f n w a b)
    (hs : DotInf f n w a b c s) (hs' : ¬DotInf f n w a b c !s) :
    dotProduct k n w a b c r = (single.code s 0x7F800000, {}) := by
  have hsig : (fF32.decode c.toNat).signalling = false := not_signalling_of_not_nan formatOf_single fun h => hn (.inl (isNan32_iff.mpr h))
  rw [dotProduct_eq, hsig]
  refine sumVals_of_inf formatOf_single (ps := dotProds k n w a b c) ?_ ((nanSum_dotProds_iff h).not.mpr hn) ?_
  · rw [badSum_dotProds_iff h]
    cases s <;> simp_all
  · rw [dotProds, List.mem_cons, List.mem_map]
    refine hs.imp (fun hc => ((prodKind_single c).infinite s).mpr hc |>.symm) fun ⟨j, hj, hp⟩ => ?_
    exact ⟨j, List.mem_range.mpr hj, ((prodKind_element h _ _).infinite s).mpr hp⟩

end

/-- Settles O14: sums of terms are exact and rounded once, and a sum's special values are told by those of its products. -/
theorem floatArithmetic : Obligations.FloatArithmetic := by
  unfold Obligations.FloatArithmetic
  refine ⟨fun f L a b c r hf hr _ _ _ => ?_, fun g hg => halves_eq hg, fun a j _ => half_eq_elemOf a j,
    fun k f n w a b c r h hr => ⟨givesSum_dotProduct h, quiets_dotProduct h, fun hn hb => ⟨?_, ?_⟩⟩⟩
  · have hf' := formatOf_summing hf
    refine ⟨fun ha hb => ⟨givesSum_add hf' ha hb r, givesSum_sub hf' ha hb r, gives_mul hf' ha hb r,
      fun hc => givesSum_fma hf' ha hb hc r⟩, ?_, quiets_fma hf', fun ha hb i hi => ⟨fun h =>
      ⟨add_of_infinite hf' hi ha hb h, sub_of_infinite hf' hi ha hb h, mul_of_infinite hf' hi ha hb h⟩,
      fma_of_infinite hf' hi ha hb⟩⟩
    simp only [List.forall_mem_cons]
    exact ⟨quiets_add hf', quiets_sub hf', quiets_mul hf', nofun⟩
  · exact fun hs hs' => dotProduct_of_inf h hn hb hs hs'
  · exact fun hs hs' => dotProduct_of_inf h hn hb hs hs'

end Sys2Proof.Claims
end

section
/-! SUPPORT. Rounded words of FP32, their order, and exact sums that vanish (R148, R150, R156). -/

namespace Sys2Proof.Claims

open Sys2Proof.Machine

/-! ### Words of a code -/

section
variable {neg : Bool} {m : Nat}

theorem code_single_lt (h : m ≤ 0x7FFFFFFF) : single.code neg m < 2 ^ 32 := by
  cases neg <;> simp only [Layout.code, single, if_true, if_false, Bool.false_eq_true] <;> omega

theorem mag_code_single (h : m ≤ 0x7FFFFFFF) : single.mag (single.code neg m) = m := by
  cases neg <;> simp only [Layout.code, Layout.mag, single, if_true, if_false, Bool.false_eq_true] <;> omega

theorem neg_code_single (h : m ≤ 0x7FFFFFFF) : single.neg (single.code neg m) = neg := by
  cases neg with
  | false => exact decide_eq_false (by simp only [Layout.code, single, if_false, Bool.false_eq_true]; omega)
  | true => exact decide_eq_true (by simp only [Layout.code, single, if_true]; omega)

theorem toNat_code_single (h : m ≤ 0x7FFFFFFF) : (BitVec.ofNat 32 (single.code neg m)).toNat = single.code neg m :=
  Nat.mod_eq_of_lt (code_single_lt h)

/-- The FP32 number of a finite code. -/
theorem finite32_code (h : m ≤ single.top) : finite32 (BitVec.ofNat 32 (single.code neg m)) := by
  have hm : m ≤ 0x7FFFFFFF := h.trans (by decide)
  rw [finite32_iff, toNat_code_single hm, Layout.Finite, mag_code_single hm]
  exact h

theorem neg32_code (h : m ≤ single.top) : neg32 (BitVec.ofNat 32 (single.code neg m)) = neg := by
  have hm : m ≤ 0x7FFFFFFF := h.trans (by decide)
  rw [neg32_eq, toNat_code_single hm, neg_code_single hm]

theorem abs32_code (h : m ≤ single.top) : abs32 (BitVec.ofNat 32 (single.code neg m)) = single.size m := by
  have hm : m ≤ 0x7FFFFFFF := h.trans (by decide)
  rw [abs32_eq, toNat_code_single hm, mag_code_single hm]

end

/-! ### Rounding a whole number of parts of the smallest FP32 number (R148, R150) -/

theorem size_top : ((single.size single.top : Nat) : Int) = most32 := by decide +kernel

theorem size_top_succ : single.size (single.top + 1) = 2 ^ 24 * 2 ^ 253 := by decide +kernel

theorem abs_fixed32 (c : Word) : |fixed32 c| = abs32 c := (Int.natCast_natAbs _).symm

/-- The number's magnitude is a step of the FP32 scale. -/
def IsStep (z : Int) : Prop := ∃ n, |z| = single.size n

theorem isStep_fixed32 (c : Word) : IsStep (fixed32 c) := ⟨single.mag c.toNat, by rw [abs_fixed32, abs32_eq]⟩

theorem IsStep.neg {z : Int} (h : IsStep z) : IsStep (-z) := h.imp fun _ hn => (abs_neg z).trans hn

section
variable {r : Rm} {neg : Bool} {v : Int} {w m : Nat}

/-- Steps against a number of 2^w parts. -/
theorem natCast_le_div_iff (n : Nat) : (n : ℝ) ≤ ((|v| : Int) : ℝ) / 2 ^ w ↔ (n : Int) * 2 ^ w ≤ |v| := by
  rw [le_div_iff₀ (by positivity)]
  exact_mod_cast Iff.rfl

theorem div_le_natCast_iff (n : Nat) : ((|v| : Int) : ℝ) / 2 ^ w ≤ n ↔ |v| ≤ (n : Int) * 2 ^ w := by
  rw [div_le_iff₀ (by positivity)]
  exact_mod_cast Iff.rfl

theorem natCast_lt_div_iff (n : Nat) : (n : ℝ) < ((|v| : Int) : ℝ) / 2 ^ w ↔ (n : Int) * 2 ^ w < |v| :=
  lt_iff_lt_of_le_iff_le (div_le_natCast_iff n)

theorem div_eq_natCast_iff (n : Nat) : ((|v| : Int) : ℝ) / 2 ^ w = n ↔ |v| = (n : Int) * 2 ^ w := by
  rw [le_antisymm_iff, le_antisymm_iff, div_le_natCast_iff, natCast_le_div_iff]

theorem abs_div_sub_natCast (n : Nat) :
    |((|v| : Int) : ℝ) / 2 ^ w - n| * 2 ^ w = ((|(|v| - (n : Int) * 2 ^ w)| : Int) : ℝ) := by
  have hp : (0 : ℝ) < 2 ^ w := by positivity
  rw [← abs_of_pos hp, ← abs_mul, abs_of_pos hp, sub_mul, div_mul_cancel₀ _ hp.ne']
  push_cast
  rfl

/-- A number of the sign of v, or 0 where v is 0, is as far from v as their magnitudes are from one another. -/
theorem abs_sub_signed {x : Int} (hx : 0 ≤ v * x) : |v - x| = |(|v| - |x|)| := by
  rw [← sq_eq_sq_iff_abs_eq_abs, sub_sq, sub_sq, sq_abs, sq_abs, mul_assoc, mul_assoc, ← abs_mul, abs_of_nonneg hx]

/-- What lies at or below v in magnitude lies at or below the step below v. -/
theorem IsStep.abs_le_of_below {z : Int} (hz : IsStep z) (h1 : ((|v| : Int) : ℝ) / 2 ^ w < single.size (m + 1))
    (hle : |z| * 2 ^ w ≤ |v|) : |z| ≤ single.size m := by
  obtain ⟨n, hn⟩ := hz
  rw [hn] at hle ⊢
  have hlt := (size_strictMono single).lt_iff_lt.mp (by exact_mod_cast ((natCast_le_div_iff _).mpr hle).trans_lt h1)
  exact_mod_cast (size_strictMono single).monotone (Nat.lt_succ_iff.mp hlt)

/-- What lies at or above v in magnitude lies at or above the step above v. -/
theorem IsStep.le_abs_of_above {z : Int} (hz : IsStep z) (h1 : ∀ n < m, (single.size n : ℝ) < ((|v| : Int) : ℝ) / 2 ^ w)
    (hle : |v| ≤ |z| * 2 ^ w) : single.size m ≤ |z| := by
  obtain ⟨n, hn⟩ := hz
  rw [hn] at hle ⊢
  by_contra hlt
  have hnm := (size_strictMono single).lt_iff_lt.mp (by exact_mod_cast not_le.mp hlt)
  exact ((natCast_lt_div_iff _).mp (h1 n hnm)).not_ge hle

/-- Toward +∞: the step above in magnitude for a number that is not negative, the step below for one that is not positive. -/
theorem toward_of_above (hv : 0 ≤ v) (h : ((|v| : Int) : ℝ) / 2 ^ w ≤ single.size m ∧
    ∀ n < m, (single.size n : ℝ) < ((|v| : Int) : ℝ) / 2 ^ w) :
    v ≤ single.size m * 2 ^ w ∧ ∀ z, IsStep z → v ≤ z * 2 ^ w → single.size m ≤ z := by
  have hp : (0 : Int) < 2 ^ w := by positivity
  refine ⟨(le_abs_self v).trans ((div_le_natCast_iff _).mp h.1), fun z hz hle => ?_⟩
  have hz0 : 0 ≤ z := nonneg_of_mul_nonneg_left (hv.trans hle) hp
  have := hz.le_abs_of_above h.2 (by rwa [abs_of_nonneg hv, abs_of_nonneg hz0])
  rwa [abs_of_nonneg hz0] at this

theorem toward_of_below (hv : v ≤ 0) (h : (single.size m : ℝ) ≤ ((|v| : Int) : ℝ) / 2 ^ w ∧
    ((|v| : Int) : ℝ) / 2 ^ w < single.size (m + 1)) :
    v ≤ -(single.size m : Int) * 2 ^ w ∧ ∀ z, IsStep z → v ≤ z * 2 ^ w → -(single.size m : Int) ≤ z := by
  have hle := (natCast_le_div_iff _).mp h.1
  rw [abs_of_nonpos hv] at hle
  refine ⟨by rw [neg_mul]; exact le_neg_of_le_neg hle, fun z hz hle => ?_⟩
  obtain hz0 | hz0 := le_total 0 z
  · exact le_trans (neg_nonpos.mpr (Int.natCast_nonneg _)) hz0
  · have := hz.abs_le_of_below h.2 (by rw [abs_of_nonpos hv, abs_of_nonpos hz0, neg_mul]; exact neg_le_neg hle)
    rw [abs_of_nonpos hz0] at this
    exact neg_le_of_neg_le this

theorem fixed32_eq_ite (a : Word) : fixed32 a = if neg32 a then -(abs32 a : Int) else abs32 a := by
  rw [fixed32_eq, Layout.num, neg32_eq, abs32_eq]

theorem code_single_mod_two (neg : Bool) (m : Nat) : single.code neg m % 2 = m % 2 := by
  cases neg with
  | false => rfl
  | true =>
    simp only [Layout.code, single, if_true]
    omega

/-- To the nearest: no finite number is nearer than one of v's sign at the nearest step, and one as near lies at an odd code. -/
theorem near_of_roundsOn_rn (h : RoundsOn single.size .rn neg (((|v| : Int) : ℝ) / 2 ^ w) 0 m) {x : Word}
    (habs : |fixed32 x| = single.size m) (hsign : 0 ≤ v * (fixed32 x * 2 ^ w)) (hpar : x.toNat % 2 = m % 2) (c : Word) :
    |v - fixed32 x * 2 ^ w| ≤ |v - fixed32 c * 2 ^ w| ∧
      (|v - fixed32 x * 2 ^ w| = |v - fixed32 c * 2 ^ w| → fixed32 c ≠ fixed32 x → x.toNat % 2 = 0) := by
  obtain ⟨n, hn⟩ := isStep_fixed32 c
  have hp : (0 : ℝ) < 2 ^ w := by positivity
  have hx : |v - fixed32 x * 2 ^ w| = |(|v| - single.size m * 2 ^ w)| := by
    rw [abs_sub_signed hsign, abs_mul, habs, abs_of_pos (by positivity : (0 : Int) < 2 ^ w)]
  have hc : |(|v| - single.size n * 2 ^ w)| ≤ |v - fixed32 c * 2 ^ w| := by
    rw [← hn, ← abs_of_pos (by positivity : (0 : Int) < 2 ^ w), ← abs_mul, abs_of_pos (by positivity : (0 : Int) < 2 ^ w)]
    exact abs_abs_sub_abs_le _ _
  have hle : |(|v| - single.size m * 2 ^ w)| ≤ |(|v| - single.size n * 2 ^ w)| := by
    exact_mod_cast abs_div_sub_natCast (v := v) (w := w) (single.size m) ▸ abs_div_sub_natCast (v := v) (w := w) (single.size n) ▸
      mul_le_mul_of_nonneg_right (h n).1 hp.le
  refine ⟨hx ▸ hle.trans hc, fun he hne => ?_⟩
  by_cases hnm : n = m
  · exfalso
    have h0 : fixed32 c = -fixed32 x := (abs_eq_abs.mp (hn.trans (hnm ▸ habs.symm))).resolve_left hne
    rw [h0, neg_mul, sub_neg_eq_add] at he
    obtain he | he := abs_eq_abs.mp he
    · have hz : fixed32 x * 2 ^ w = 0 := by omega
      have : fixed32 x = 0 := (mul_eq_zero.mp hz).resolve_right (by positivity)
      exact hne (by rw [h0, this, neg_zero])
    · have hv : v = 0 := by omega
      have hm : m = 0 := Nat.le_zero.mp (RoundsOn.le_of_le_size (size_strictMono single) (by decide : Rm.rn ≠ .rs) h (by simp [hv]))
      have : fixed32 x = 0 := by simpa [hm] using habs
      exact hne (by rw [h0, this, neg_zero])
  · rw [hpar]
    refine (h n).2 ?_ hnm
    have heq : |(|v| - single.size m * 2 ^ w)| = |(|v| - single.size n * 2 ^ w)| := le_antisymm hle (by rw [← hx, he]; exact hc)
    refine mul_right_cancel₀ hp.ne' ?_
    rw [abs_div_sub_natCast, abs_div_sub_natCast, heq]

/-- The value rounded and the number it rounds to have no opposite signs. -/
theorem mul_fixed32_code_nonneg (hm : m ≤ single.top) (hneg : v ≠ 0 → (neg = true ↔ v < 0)) :
    0 ≤ v * (fixed32 (BitVec.ofNat 32 (single.code neg m)) * 2 ^ w) := by
  rw [fixed32_eq_ite, neg32_code hm, abs32_code hm]
  have hsize : (0 : Int) ≤ single.size m * 2 ^ w := by positivity
  by_cases h0 : v = 0
  · simp [h0]
  · cases neg with
    | false => exact mul_nonneg (not_lt.mp ((hneg h0).not.mp nofun)) hsize
    | true => exact mul_nonneg_of_nonpos_of_nonpos ((hneg h0).mp rfl).le (by simp)

/-- The number of sign `neg` whose magnitude v rounds to is what v rounds to. -/
theorem rounded_of_roundsOn (hr : r ≠ .rs) (h : RoundsOn single.size r neg (((|v| : Int) : ℝ) / 2 ^ w) 0 m) (hm : m ≤ single.top)
    (hneg : v ≠ 0 → (neg = true ↔ v < 0)) : Rounded r v w (BitVec.ofNat 32 (single.code neg m)) := by
  obtain ⟨x, hx⟩ : ∃ x, x = BitVec.ofNat 32 (single.code neg m) := ⟨_, rfl⟩
  have hsign : neg32 x = neg := hx ▸ neg32_code hm
  have habs : |fixed32 x| = single.size m := by rw [abs_fixed32, hx, abs32_code hm]
  have hval : fixed32 x = if neg then -(single.size m : Int) else single.size m := by
    rw [fixed32_eq_ite, hsign, hx, abs32_code hm]
  have hv0 : if neg then v ≤ 0 else 0 ≤ v := by
    by_cases h0 : v = 0
    · simp [h0]
    · cases neg with
      | false => exact not_lt.mp ((hneg h0).not.mp nofun)
      | true => exact ((hneg h0).mp rfl).le
  rw [← hx]
  refine ⟨hx ▸ finite32_code hm, fun h0 => ?_, fun c _ => ?_⟩
  · rw [← hneg h0, ← hsign, neg32, decide_eq_true_iff]
  have hc := isStep_fixed32 c
  cases r with
  | rn =>
    exact near_of_roundsOn_rn h habs (hx ▸ mul_fixed32_code_nonneg hm hneg)
      (by rw [hx, toNat_code_single (hm.trans (by decide)), code_single_mod_two]) c
  | rz =>
    rw [habs]
    exact ⟨(natCast_le_div_iff _).mp h.1, hc.abs_le_of_below h.2⟩
  | rp => cases neg with
    | false =>
      obtain ⟨h1, h2⟩ := toward_of_above hv0 h
      exact hval ▸ ⟨h1, h2 _ hc⟩
    | true =>
      obtain ⟨h1, h2⟩ := toward_of_below hv0 h
      exact hval ▸ ⟨h1, h2 _ hc⟩
  | rm =>
    simp only [← abs_neg v] at h
    cases neg with
    | false =>
      obtain ⟨h1, h2⟩ := toward_of_below (neg_nonpos.mpr hv0) h
      refine hval ▸ ⟨by simpa using h1, fun hle => ?_⟩
      have := h2 _ hc.neg (by simpa using hle)
      simpa using this
    | true =>
      obtain ⟨h1, h2⟩ := toward_of_above (neg_nonneg.mpr hv0) h
      refine hval ▸ ⟨by simpa using neg_le_of_neg_le h1, fun hle => ?_⟩
      have := h2 _ hc.neg (by simpa using hle)
      simpa using le_neg_of_le_neg this
  | rs => exact absurd rfl hr

/-! ### Beyond the finite numbers (R150) -/

/-- The mode rounds a value beyond the finite numbers to infinity. -/
def RoundsAway (r : Rm) (v : Int) (w : Nat) : Prop :=
  match r with
  | .rn => (2 ^ 25 - 1) * 2 ^ 252 * 2 ^ w ≤ |v|
  | .rz | .rs => False
  | .rp => 0 < v
  | .rm => v < 0

theorem beyond32_eq [Decidable (RoundsAway r v w)] : beyond32 r v w =
    if v < 0 then (if RoundsAway r v w then 0x7F800000 else 0x7F7FFFFF) ||| 0x80000000
    else if RoundsAway r v w then 0x7F800000 else 0x7F7FFFFF := by
  have hup : (match r with
      | .rn => decide ((2 ^ 25 - 1) * 2 ^ 252 * 2 ^ w ≤ |v|)
      | .rz | .rs => false
      | .rp => decide (0 < v)
      | .rm => decide (v < 0)) = decide (RoundsAway r v w) := by
    cases r with
    | rn | rp | rm => exact decide_eq_decide.mpr Iff.rfl
    | rz | rs => exact (decide_eq_false (p := RoundsAway _ v w) id).symm
  refine (congrArg (fun up : Bool => let x : Word := if up then 0x7F800000 else 0x7F7FFFFF
    if v < 0 then x ||| 0x80000000 else x) hup).trans ?_
  simp only [decide_eq_true_iff]

theorem beyond32_of_away (h : RoundsAway r v w) (hneg : neg = true ↔ v < 0) :
    beyond32 r v w = BitVec.ofNat 32 (single.code neg 0x7F800000) := by
  classical
  rw [beyond32_eq, if_pos h]
  simp only [← hneg]
  cases neg <;> rfl

theorem beyond32_of_not_away (h : ¬RoundsAway r v w) (hneg : neg = true ↔ v < 0) :
    beyond32 r v w = BitVec.ofNat 32 (single.code neg single.top) := by
  classical
  rw [beyond32_eq, if_neg h]
  simp only [← hneg]
  cases neg <;> rfl

/-- Beyond the finite numbers, to the nearest: past the largest one from the middle to the next step on. -/
theorem top_lt_iff_of_rn (h : RoundsOn single.size .rn neg (((|v| : Int) : ℝ) / 2 ^ w) 0 m) (hbig : most32 * 2 ^ w < |v|) :
    single.top < m ↔ (2 ^ 25 - 1) * 2 ^ 252 * 2 ^ w ≤ |v| := by
  obtain ⟨V, hV⟩ : ∃ V : ℝ, V = ((|v| : Int) : ℝ) / 2 ^ w := ⟨_, rfl⟩
  have htop : (single.size single.top : ℝ) < V := by
    rw [hV, natCast_lt_div_iff, size_top]
    exact hbig
  have hmid : (2 ^ 25 - 1) * 2 ^ 252 * 2 ^ w ≤ |v| ↔ (single.size single.top : ℝ) + single.size (single.top + 1) ≤ 2 * V := by
    have he : (single.size single.top : ℝ) + single.size (single.top + 1) = 2 * ((2 ^ 25 - 1) * 2 ^ 252 : Nat) := by
      have h1 : (single.size single.top : ℝ) = (2 ^ 24 - 1) * 2 ^ 253 := by exact_mod_cast size_top
      rw [h1, size_top_succ]
      norm_num
    rw [he, mul_le_mul_iff_right₀ two_pos, hV, natCast_le_div_iff]
    norm_num
  rw [hmid]
  rw [← hV] at h
  have hge : single.top ≤ m := h.ge_of_size_le (size_strictMono single) (by decide) htop.le
  constructor
  · intro hlt
    obtain hle | hle := le_or_gt (single.size (single.top + 1) : ℝ) V
    · linarith
    · have hm : (single.size (single.top + 1) : ℝ) ≤ single.size m := by exact_mod_cast (size_strictMono single).monotone hlt
      have h1 := (h single.top).1
      rw [abs_of_neg (by linarith), abs_of_pos (by linarith)] at h1
      linarith
  · intro hle
    by_contra hlt
    obtain rfl : m = single.top := by omega
    obtain ⟨h1, h2⟩ := h (single.top + 1)
    obtain hle' | hlt' := le_or_gt (single.size (single.top + 1) : ℝ) V
    · have hs : (single.size single.top : ℝ) < single.size (single.top + 1) := by exact_mod_cast size_strictMono single (Nat.lt_succ_self _)
      rw [abs_of_pos (by linarith), abs_of_nonneg (by linarith)] at h1
      linarith
    · rw [abs_of_pos (by linarith), abs_of_neg (by linarith)] at h1 h2
      exact absurd (h2 (by linarith) (by omega)) (by decide)

/-- A value beyond the finite numbers rounds to the largest one, or, in the modes that give an infinity, past it. -/
theorem away_iff_top_lt (hr : r ≠ .rs) (h : RoundsOn single.size r neg (((|v| : Int) : ℝ) / 2 ^ w) 0 m) (hbig : most32 * 2 ^ w < |v|)
    (hneg : neg = true ↔ v < 0) :
    RoundsAway r v w ↔ single.top < m ∧ (r = .rn ∨ (r = .rp ∧ neg = false) ∨ (r = .rm ∧ neg = true)) := by
  have htop : (single.size single.top : ℝ) < ((|v| : Int) : ℝ) / 2 ^ w := by
    rw [natCast_lt_div_iff, size_top]
    exact hbig
  have hv : v ≠ 0 := by
    rintro rfl
    have : 0 < most32 * 2 ^ w := mul_pos (by decide) (by positivity)
    rw [abs_zero] at hbig
    omega
  have hup (h : ((|v| : Int) : ℝ) / 2 ^ w ≤ single.size m) : single.top < m :=
    (size_strictMono single).lt_iff_lt.mp (by exact_mod_cast htop.trans_le h)
  cases r with
  | rn => simp [RoundsAway, top_lt_iff_of_rn h hbig]
  | rz => simp [RoundsAway]
  | rp => cases neg with
    | false =>
      have : ¬v < 0 := hneg.not.mp nofun
      simp only [RoundsAway, hup h.1]
      simp
      omega
    | true => simpa [RoundsAway] using (hneg.mp rfl).le
  | rm => cases neg with
    | false => simpa [RoundsAway] using hneg.not.mp nofun
    | true => simpa [RoundsAway, hup h.1] using hneg.mp rfl
  | rs => exact absurd rfl hr

theorem overflowOf_single (r : Rm) (neg : Bool) : overflowOf single r .dflt neg =
    if r = .rn ∨ (r = .rp ∧ neg = false) ∨ (r = .rm ∧ neg = true) then (single.code neg 0x7F800000, { of := true, nx := true })
    else (single.code neg single.top, { nx := true }) := by
  cases r <;> cases neg <;> rfl

theorem not_finite32_infinity (neg : Bool) : ¬finite32 (BitVec.ofNat 32 (single.code neg 0x7F800000)) := by
  cases neg <;> decide

/-- A value beyond the finite numbers overflows, or rounds to the largest of them. -/
theorem Gives.roundsTo_of_beyond {x : Nat × FFlags} (hr : r ≠ .rs) (h : Gives single r .dflt neg (((|v| : Int) : ℝ) / 2 ^ w) 0 x)
    (hbig : most32 * 2 ^ w < |v|) (hneg : neg = true ↔ v < 0) :
    BitVec.ofNat 32 x.1 = beyond32 r v w ∧ x.2 = { of := !decide (finite32 (BitVec.ofNat 32 x.1)), nx := true } := by
  obtain ⟨m, hm, hover, hin⟩ := h
  have haway := away_iff_top_lt hr hm hbig hneg
  have hfin : finite32 (BitVec.ofNat 32 (single.code neg single.top)) := finite32_code le_rfl
  by_cases hlt : single.top < m
  · rw [hover hlt, overflowOf_single]
    split
    next hinf =>
      rw [beyond32_of_away (haway.mpr ⟨hlt, hinf⟩) hneg]
      exact ⟨rfl, by simp only [decide_eq_false (not_finite32_infinity neg)]; rfl⟩
    next hinf =>
      rw [beyond32_of_not_away (fun h => hinf (haway.mp h).2) hneg]
      exact ⟨rfl, by simp only [decide_eq_true hfin]; rfl⟩
  · have htop : (single.size single.top : ℝ) < ((|v| : Int) : ℝ) / 2 ^ w := by
      rw [natCast_lt_div_iff, size_top]
      exact hbig
    obtain rfl : m = single.top := le_antisymm (not_lt.mp hlt) (hm.ge_of_size_le (size_strictMono single) hr htop.le)
    obtain ⟨hx, hfl, hnx, huf⟩ := hin le_rfl
    have hnuf : x.2.uf = false := by
      rw [← Bool.not_eq_true, huf]
      exact fun h => absurd h.2.2 (by decide)
    rw [beyond32_of_not_away (fun h => hlt (haway.mp h).1) hneg, hx, hfl, hnx.mpr htop.ne', hnuf]
    exact ⟨rfl, by simp only [decide_eq_true hfin]; rfl⟩

/-- A magnitude rounded once is a number rounded once. -/
theorem Gives.roundsTo {x : Nat × FFlags} (hr : r ≠ .rs) (h : Gives single r .dflt neg (((|v| : Int) : ℝ) / 2 ^ w) 0 x)
    (hneg : v ≠ 0 → (neg = true ↔ v < 0)) : RoundsTo r v w (asWord x) := by
  refine ⟨fun hle => ?_, fun hbig => ?_⟩
  · obtain ⟨m, hm, hover, hin⟩ := h
    have hmt : m ≤ single.top := hm.le_of_le_size (size_strictMono single) hr (by rw [div_le_natCast_iff, size_top]; exact hle)
    obtain ⟨hx, hfl, hnx, huf⟩ := hin hmt
    have habs : |fixed32 (BitVec.ofNat 32 (single.code neg m))| = single.size m := by rw [abs_fixed32, abs32_code hmt]
    have hexact : ((|v| : Int) : ℝ) / 2 ^ w = single.size m ↔ fixed32 (BitVec.ofNat 32 (single.code neg m)) * 2 ^ w = v := by
      have hp : (0 : Int) < 2 ^ w := by positivity
      rw [div_eq_natCast_iff, eq_comm (b := v), ← sub_eq_zero, ← sub_eq_zero (a := v), ← abs_eq_zero, ← abs_eq_zero (a := v - _),
        abs_sub_signed (mul_fixed32_code_nonneg hmt hneg), abs_mul, habs, abs_of_pos hp]
    have hsub : m ≠ 0 ∧ m < 2 ^ single.mant ↔ 0 < (single.size m : Int) ∧ (single.size m : Int) < 2 ^ 23 := by
      have h23 : single.size (2 ^ 23) = 2 ^ 23 := by decide +kernel
      have hlt : single.size m < 2 ^ 23 ↔ m < 2 ^ 23 := by rw [← h23, (size_strictMono single).lt_iff_lt, h23]
      rw [Int.natCast_pos, Nat.pos_iff_ne_zero, Ne, Ne, size_eq_zero_iff]
      exact and_congr_right' (hlt.symm.trans (by norm_cast))
    rw [asWord, hx]
    refine ⟨rounded_of_roundsOn hr hm hmt hneg, hfl, hnx.trans hexact.not, huf.trans (and_congr_right' ?_)⟩
    rw [habs]
    exact hsub
  · refine h.roundsTo_of_beyond hr hbig (hneg ?_)
    rintro rfl
    have : 0 < most32 * 2 ^ w := mul_pos (by decide) (by positivity)
    rw [abs_zero] at hbig
    omega

end
end Sys2Proof.Claims
end

section
/-! O6 (R143, R148, R150, R155 to R157): rounded sums and products, NaNs, minima and maxima, and comparisons. -/

namespace Sys2Proof.Claims

open Sys2Proof.Machine

/-! ### Sums and products of finite numbers (R148, R155) -/

section
variable {a b c : Word} {r : Rm}

/-- A zero is rounded to itself. -/
theorem gives_zero (r : Rm) (neg : Bool) : Gives single r .dflt neg 0 0 (single.code neg 0, {}) := by
  have h := gives_round (r := r) (t := .dflt) (neg := neg) (draw := 0) formatOf_single (holds_exact 0 0) nofun (fun _ => rfl) (by decide)
  have he : fF32.round neg { mag := 0, exp := 0 } r .dflt 0 = (single.code neg 0, {}) := by cases neg <;> rfl
  rw [he] at h
  simpa using h

theorem GivesSum.roundsTo {v : Int} {w : Nat} {m : Prop} {x : Nat × FFlags} (hr : r ≠ .rs) (h : GivesSum single r ((v : ℝ) / 2 ^ w) m x) :
    RoundsTo r v w (asWord x) := by
  obtain ⟨hpos, hneg, hzero⟩ := h
  have hp : (0 : ℝ) < 2 ^ w := by positivity
  obtain hv | rfl | hv := lt_trichotomy v 0
  · have hv' : (v : ℝ) < 0 := by exact_mod_cast hv
    refine Gives.roundsTo hr (neg := true) ?_ fun _ => iff_of_true rfl hv
    have := hneg (div_neg_of_neg_of_pos hv' hp)
    rwa [← neg_div, ← abs_of_neg hv', ← Int.cast_abs] at this
  · have hz : x = (single.code true 0, {}) ∨ x = (single.code false 0, {}) := by
      by_cases hm : m ∨ r = .rm
      · exact .inl ((hzero (by simp)).1 hm)
      · exact .inr ((hzero (by simp)).2 (fun h => hm (.inl h)) fun h => hm (.inr h))
    obtain rfl | rfl := hz
    · exact Gives.roundsTo hr (by simpa using gives_zero r true) fun h => absurd rfl h
    · exact Gives.roundsTo hr (by simpa using gives_zero r false) fun h => absurd rfl h
  · have hv' : (0 : ℝ) < v := by exact_mod_cast hv
    refine Gives.roundsTo hr (neg := false) ?_ fun _ => iff_of_false nofun hv.not_gt
    have := hpos (div_pos hv' hp)
    rwa [← abs_of_pos hv', ← Int.cast_abs] at this

theorem roundsTo_add (hr : r ≠ .rs) (ha : finite32 a) (hb : finite32 b) :
    RoundsTo r (fixed32 a + fixed32 b) 0 (asWord (fF32.add a.toNat b.toNat r)) := by
  refine ((givesSum_add formatOf_single (finite32_iff.mp ha) (finite32_iff.mp hb) r).congr ?_ Iff.rfl).roundsTo hr
  rw [fixed32_eq, fixed32_eq]
  push_cast
  ring

theorem roundsTo_sub (hr : r ≠ .rs) (ha : finite32 a) (hb : finite32 b) :
    RoundsTo r (fixed32 a - fixed32 b) 0 (asWord (fF32.sub a.toNat b.toNat r)) := by
  refine ((givesSum_sub formatOf_single (finite32_iff.mp ha) (finite32_iff.mp hb) r).congr ?_ Iff.rfl).roundsTo hr
  rw [fixed32_eq, fixed32_eq]
  push_cast
  ring

theorem roundsTo_fma (hr : r ≠ .rs) (ha : finite32 a) (hb : finite32 b) (hc : finite32 c) :
    RoundsTo r (fixed32 a * fixed32 b + fixed32 c * 2 ^ 149) 149 (asWord (fF32.fma a.toNat b.toNat c.toNat r)) := by
  refine ((givesSum_fma formatOf_single (finite32_iff.mp ha) (finite32_iff.mp hb) (finite32_iff.mp hc) r).congr ?_ Iff.rfl).roundsTo hr
  rw [fixed32_eq, fixed32_eq, fixed32_eq, unit_single]
  rw [Int.cast_add, Int.cast_mul, Int.cast_mul, Int.cast_pow, Int.cast_ofNat, add_div, mul_div_cancel_right₀ _ (by positivity)]

theorem mul_lt_zero_iff_xor {x y : Int} (h : x * y ≠ 0) : (decide (x < 0) ^^ decide (y < 0)) = true ↔ x * y < 0 := by
  obtain ⟨hx, hy⟩ := mul_ne_zero_iff.mp h
  have hxor : (decide (x < 0) ^^ decide (y < 0)) = true ↔ ¬(x < 0 ↔ y < 0) := by
    by_cases h1 : x < 0 <;> by_cases h2 : y < 0 <;> simp [h1, h2]
  rw [mul_neg_iff, hxor]
  omega

theorem neg32_iff (h : fixed32 a ≠ 0) : neg32 a = decide (fixed32 a < 0) := by
  rw [fixed32_eq_ite] at h ⊢
  cases neg32 a
  · simp
  · simp at h ⊢
    omega

theorem roundsTo_mul (hr : r ≠ .rs) (ha : finite32 a) (hb : finite32 b) :
    RoundsTo r (fixed32 a * fixed32 b) 149 (asWord (fF32.mul a.toNat b.toNat r)) := by
  have h := gives_mul formatOf_single (finite32_iff.mp ha) (finite32_iff.mp hb) r
  rw [← abs32_eq, ← abs32_eq, ← neg32_eq, ← neg32_eq, unit_single] at h
  refine Gives.roundsTo hr (neg := neg32 a ^^ neg32 b) ?_ fun h0 => ?_
  · rw [abs_mul, abs_fixed32, abs_fixed32]
    push_cast
    exact h
  · obtain ⟨ha0, hb0⟩ := mul_ne_zero_iff.mp h0
    rw [neg32_iff ha0, neg32_iff hb0, mul_lt_zero_iff_xor h0]

theorem add_of_zero (ha : finite32 a) (hb : finite32 b) (h : fixed32 a + fixed32 b = 0) : (fF32.add a.toNat b.toNat r).1 =
    if r = .rm ∨ (a = 0x80000000 ∧ b = 0x80000000) then 0x80000000 else 0 := by
  obtain ⟨-, -, hz⟩ := givesSum_add formatOf_single (finite32_iff.mp ha) (finite32_iff.mp hb) r
  rw [fixed32_eq, fixed32_eq] at h
  obtain ⟨h1, h2⟩ := hz (by exact_mod_cast h)
  simp only [mag_neg_eq_iff] at h1 h2
  split
  next hm => rw [h1 hm.symm]; rfl
  next hm => rw [h2 (fun h => hm (.inr h)) fun h => hm (.inl h)]

/-! ### NaNs (R155) -/

theorem nan_operands (h : isNan32 a ∨ isNan32 b) : ∀ x ∈ [fF32.add a.toNat b.toNat r, fF32.sub a.toNat b.toNat r, fF32.mul a.toNat b.toNat r,
    fF32.fma a.toNat b.toNat c.toNat r, fF32.fma c.toNat a.toNat b.toNat r],
    x.1 = 0x7FC00000 ∧ (isSnan32 a ∨ isSnan32 b → x.2.iv = true) := by
  rw [isNan32_iff, isNan32_iff] at h
  rw [isSnan32_iff, isSnan32_iff]
  have hq {x : Nat × FFlags} {p : Prop} (hx : Quiets (single.nan.getD 0) x p)
      (hp : single.Signals a.toNat ∨ single.Signals b.toNat → p) :
      x.1 = 0x7FC00000 ∧ (single.Signals a.toNat ∨ single.Signals b.toNat → x.2.iv = true) := ⟨hx.1, fun hs => hx.2.2.mpr (hp hs)⟩
  simp only [List.forall_mem_cons]
  refine ⟨hq (quiets_add formatOf_single h) id, hq (quiets_sub formatOf_single h) id, hq (quiets_mul formatOf_single h) id,
    hq (quiets_fma formatOf_single (h.imp_right .inl)) (Or.imp_right .inl),
    hq (quiets_fma formatOf_single (.inr h)) fun hs => .inr (hs.imp_right .inl), nofun⟩

/-! ### Minimum, maximum and comparison (R156, R157) -/

theorem isNan_decode32 (a : Word) : (fF32.decode a.toNat).isNan = decide (isNan32 a) := by
  rw [Bool.eq_iff_iff, isNan_decode_iff formatOf_single, decide_eq_true_iff, isNan32_iff]

theorem signalling_decode32 (a : Word) : (fF32.decode a.toNat).signalling = decide (isSnan32 a) := by
  rw [Bool.eq_iff_iff, signalling_decode_iff formatOf_single, decide_eq_true_iff, isSnan32_iff]

theorem msb_eq (a : Word) : a.msb = decide (2 ^ 31 ≤ a.toNat) := by
  rw [BitVec.msb_eq_decide]

theorem fvalue_eq (a : Word) : fvalue a = order32 a := by
  have := a.isLt
  rw [fvalue, order32, msb_eq, field]
  by_cases h : a.toNat < 2 ^ 31
  · simp only [h, if_true, decide_eq_false (not_le.mpr h), Bool.false_eq_true, if_false]
    omega
  · simp only [h, if_false, decide_eq_true (not_lt.mp h), if_true]
    omega

theorem fkey_eq (a : Word) : fkey a = order32 a - if a.toNat < 2 ^ 31 then 0 else 1 := by
  have := a.isLt
  rw [fkey, order32, msb_eq, field]
  by_cases h : a.toNat < 2 ^ 31
  · simp only [h, if_true, decide_eq_false (not_le.mpr h), Bool.false_eq_true, if_false]
    omega
  · simp only [h, if_false, decide_eq_true (not_lt.mp h), if_true]
    omega

theorem fminmax_eq (m : Bool) (a b : Word) : fminmax m a b =
    (if isNan32 a ∧ isNan32 b then 0x7FC00000 else if isNan32 a then b else if isNan32 b then a
      else if (if m then fkey b ≤ fkey a else fkey a ≤ fkey b) then a else b, { iv := decide (isSnan32 a ∨ isSnan32 b) }) := by
  simp only [fminmax, isNan_decode32, signalling_decode32, ← Bool.decide_and, ← Bool.decide_or, decide_eq_true_iff]
  cases m <;> simp

theorem fminmax_of_nans (ha : isNan32 a) (hb : isNan32 b) (m : Bool) : (fminmax m a b).1 = 0x7FC00000 := by
  rw [fminmax_eq]
  exact if_pos ⟨ha, hb⟩

theorem fminmax_of_nan_left (ha : isNan32 a) (hb : ¬isNan32 b) (m : Bool) : (fminmax m a b).1 = b := by
  rw [fminmax_eq]
  exact (if_neg fun h => hb h.2).trans (if_pos ha)

theorem fminmax_of_nan_right (ha : ¬isNan32 a) (hb : isNan32 b) (m : Bool) : (fminmax m a b).1 = a := by
  rw [fminmax_eq]
  exact (if_neg fun h => ha h.1).trans ((if_neg ha).trans (if_pos hb))

theorem fmin_of_numbers (ha : ¬isNan32 a) (hb : ¬isNan32 b) : (fminmax false a b).1 = if fkey a ≤ fkey b then a else b := by
  rw [fminmax_eq]
  exact (if_neg fun h => ha h.1).trans ((if_neg ha).trans (if_neg hb))

theorem fmax_of_numbers (ha : ¬isNan32 a) (hb : ¬isNan32 b) : (fminmax true a b).1 = if fkey b ≤ fkey a then a else b := by
  rw [fminmax_eq]
  exact (if_neg fun h => ha h.1).trans ((if_neg ha).trans (if_neg hb))

theorem fkey_lt_fkey (h : order32 a < order32 b) : fkey a < fkey b := by
  rw [fkey_eq, fkey_eq]
  simp only [order32] at h ⊢
  split_ifs at h ⊢ <;> omega

/-- Two words of one order are one word, or the two zeros. -/
theorem eq_or_zeros_of_order_eq (h : order32 a = order32 b) :
    a = b ∨ (a = 0 ∧ b = 0x80000000) ∨ (a = 0x80000000 ∧ b = 0) := by
  rw [← BitVec.toNat_inj, ← BitVec.toNat_inj, ← BitVec.toNat_inj, ← BitVec.toNat_inj, ← BitVec.toNat_inj,
    show (0x80000000 : Word).toNat = 2 ^ 31 from rfl, show (0 : Word).toNat = 0 from rfl]
  simp only [order32] at h
  split_ifs at h <;> omega

/-- The smaller and the larger of two numbers, −0 being below +0. -/
theorem fminmax_order (ha : ¬isNan32 a) (hb : ¬isNan32 b) :
    (order32 a < order32 b → (fminmax false a b).1 = a ∧ (fminmax true a b).1 = b) ∧
    (order32 b < order32 a → (fminmax false a b).1 = b ∧ (fminmax true a b).1 = a) ∧
    (order32 a = order32 b → a ≠ b → (fminmax false a b).1 = 0x80000000 ∧ (fminmax true a b).1 = 0) ∧
    (a = b → (fminmax false a b).1 = a ∧ (fminmax true a b).1 = a) := by
  rw [fmin_of_numbers ha hb, fmax_of_numbers ha hb]
  refine ⟨fun h => ?_, fun h => ?_, fun h hne => ?_, fun h => by simp [h]⟩
  · exact ⟨if_pos (fkey_lt_fkey h).le, if_neg (fkey_lt_fkey h).not_ge⟩
  · exact ⟨if_neg (fkey_lt_fkey h).not_ge, if_pos (fkey_lt_fkey h).le⟩
  · obtain ⟨rfl, rfl⟩ | ⟨rfl, rfl⟩ := (eq_or_zeros_of_order_eq h).resolve_left hne
    · exact ⟨rfl, rfl⟩
    · exact ⟨rfl, rfl⟩

/-- A comparison's relation and its invalid cause, by its condition. -/
theorem fcompare_eq (c : FCond) (a b : Word) : fcompare c a b = match c with
    | .eq => (decide (¬(isNan32 a ∨ isNan32 b) ∧ order32 a = order32 b), { iv := decide (isSnan32 a ∨ isSnan32 b) })
    | .ne => (decide ((isNan32 a ∨ isNan32 b) ∨ order32 a ≠ order32 b), { iv := decide (isSnan32 a ∨ isSnan32 b) })
    | .lt => (decide (¬(isNan32 a ∨ isNan32 b) ∧ order32 a < order32 b), { iv := decide (isNan32 a ∨ isNan32 b) })
    | .le => (decide (¬(isNan32 a ∨ isNan32 b) ∧ order32 a ≤ order32 b), { iv := decide (isNan32 a ∨ isNan32 b) })
    | .gt => (decide (¬(isNan32 a ∨ isNan32 b) ∧ order32 a > order32 b), { iv := decide (isNan32 a ∨ isNan32 b) })
    | .ge => (decide (¬(isNan32 a ∨ isNan32 b) ∧ order32 a ≥ order32 b), { iv := decide (isNan32 a ∨ isNan32 b) })
    | .un => (decide (isNan32 a ∨ isNan32 b), { iv := decide (isSnan32 a ∨ isSnan32 b) })
    | .ord => (decide ¬(isNan32 a ∨ isNan32 b), { iv := decide (isSnan32 a ∨ isSnan32 b) }) := by
  cases c <;> simp only [fcompare, isNan_decode32, signalling_decode32, fvalue_eq, ← Bool.decide_and, ← Bool.decide_or, ← decide_not]

/-- Settles O6: the exact value, rounded once, in FP32; the order of its numbers, and its NaNs. -/
theorem floatCorners : Obligations.FloatCorners := by
  unfold Obligations.FloatCorners
  refine ⟨fun a b c r hr ha hb hc => ⟨roundsTo_add hr ha hb, roundsTo_sub hr ha hb, roundsTo_mul hr ha hb,
    roundsTo_fma hr ha hb hc, add_of_zero ha hb⟩, fun a b c r h => nan_operands h, fun a b => ⟨?_, ?_, ?_, ?_, ?_⟩, fun a b => ?_⟩
  · exact fun ha hb => ⟨fminmax_of_nans ha hb false, fminmax_of_nans ha hb true⟩
  · exact fun ha hb => ⟨fminmax_of_nan_left ha hb false, fminmax_of_nan_left ha hb true⟩
  · exact fun ha hb => ⟨fminmax_of_nan_right ha hb false, fminmax_of_nan_right ha hb true⟩
  · exact fun ha hb => fminmax_order ha hb
  · intro m
    rw [fminmax_eq]
    exact ⟨rfl, decide_eq_true_iff⟩
  · simp only [fcompare_eq, decide_eq_true_iff, List.forall_mem_cons]
    simp [or_assoc]

end
end Sys2Proof.Claims
end

section
/-! SUPPORT. The reciprocal and the roots as magnitudes that hold the exact value (R158). -/

namespace Sys2Proof.Claims

open Sys2Proof.Machine

/-! ### Integer square roots -/

theorem isqrtFrom_spec (x n : Nat) {r : Nat} (h0 : r * r ≤ x) (h1 : x < (r + 2 ^ (n + 1)) * (r + 2 ^ (n + 1))) :
    isqrtFrom x n r * isqrtFrom x n r ≤ x ∧ x < (isqrtFrom x n r + 1) * (isqrtFrom x n r + 1) := by
  induction n generalizing r with
  | zero =>
    rw [isqrtFrom]
    split
    next h => exact ⟨h, h1⟩
    next h => exact ⟨h0, not_le.mp h⟩
  | succ n ih =>
    rw [isqrtFrom]
    split
    next h => exact ih h (by rwa [add_assoc, ← two_mul, ← pow_succ'])
    next h => exact ih h0 (not_le.mp h)

theorem isqrt_eq_sqrt (x : Nat) : isqrt x = Nat.sqrt x := by
  refine Nat.eq_sqrt.mpr (isqrtFrom_spec x _ (by simp) ?_)
  rw [zero_add, ← pow_add]
  exact Nat.lt_log2_self.trans_le (Nat.pow_le_pow_right two_pos (by omega))

/-! ### Quotients and roots (R158) -/

/-- A quotient, cut to a whole number. -/
theorem holds_div {p q : Nat} (hq : q ≠ 0) (e : Int) :
    Holds { mag := p / q, exp := e, inexact := p % q != 0 } ((p : ℝ) / q * 2 ^ e) := by
  have hq' : (0 : ℝ) < q := by exact_mod_cast Nat.pos_of_ne_zero hq
  have hp : (0 : ℝ) < 2 ^ e := by positivity
  have hdiv : (p : ℝ) = (p / q : Nat) * q + (p % q : Nat) := by exact_mod_cast (Nat.div_add_mod' p q).symm
  refine ⟨fun hi => ?_, fun hi => ?_⟩
  · have h : p % q = 0 := by simpa using hi
    rw [hdiv, h, Nat.cast_zero, add_zero, mul_div_cancel_right₀ _ hq'.ne']
  · have hlt : ((p % q : Nat) : ℝ) < q := by exact_mod_cast Nat.mod_lt p (Nat.pos_of_ne_zero hq)
    have hpos : (0 : ℝ) < (p % q : Nat) := by exact_mod_cast Nat.pos_of_ne_zero (bne_iff_ne.mp hi)
    simp only [mul_lt_mul_iff_left₀ hp, lt_div_iff₀ hq', div_lt_iff₀ hq']
    constructor <;> linarith

/-- The root of a quotient, cut to a whole number. -/
theorem holds_sqrt_div {p q : Nat} (hq : q ≠ 0) (e : Int) :
    Holds { mag := isqrt (p / q), exp := e, inexact := isqrt (p / q) * isqrt (p / q) * q != p } (√((p : ℝ) / q) * 2 ^ e) := by
  have hq' : (0 : ℝ) < q := by exact_mod_cast Nat.pos_of_ne_zero hq
  have hp : (0 : ℝ) < 2 ^ e := by positivity
  rw [isqrt_eq_sqrt]
  obtain ⟨s, hs⟩ : ∃ s, s = Nat.sqrt (p / q) := ⟨_, rfl⟩
  have hle : s * s * q ≤ p := (Nat.le_div_iff_mul_le (Nat.pos_of_ne_zero hq)).mp (hs ▸ Nat.sqrt_le _)
  have hlt : p < (s + 1) * (s + 1) * q := (Nat.div_lt_iff_lt_mul (Nat.pos_of_ne_zero hq)).mp (hs ▸ Nat.lt_succ_sqrt _)
  rw [← hs]
  refine ⟨fun hi => ?_, fun hi => ?_⟩
  · have h : s * s * q = p := by simpa using hi
    rw [← h]
    push_cast
    rw [mul_div_cancel_right₀ _ hq'.ne', Real.sqrt_mul_self (Nat.cast_nonneg s)]
  · simp only [mul_lt_mul_iff_left₀ hp]
    constructor
    · rw [Real.lt_sqrt (Nat.cast_nonneg s), lt_div_iff₀ hq', sq]
      exact_mod_cast hle.lt_of_ne (bne_iff_ne.mp hi)
    · rw [Real.sqrt_lt' (by positivity), div_lt_iff₀ hq', sq]
      exact_mod_cast hlt

theorem holds_recipMag {m : Nat} (hm : m ≠ 0) (e : Int) : Holds (recipMag m e) (1 / (m * 2 ^ e)) := by
  obtain ⟨k, hk⟩ : ∃ k, k = Nat.log2 m + 64 := ⟨_, rfl⟩
  have hdef : recipMag m e = { mag := 2 ^ k / m, exp := -e - k, inexact := 2 ^ k % m != 0 } := by rw [recipMag, hk]
  have he : ((2 ^ k : Nat) : ℝ) / m * 2 ^ (-e - (k : Int)) = 1 / (m * 2 ^ e) := by
    rw [zpow_sub₀ two_ne_zero, zpow_neg, zpow_natCast, Nat.cast_pow, Nat.cast_ofNat]
    field_simp
  rw [hdef, ← he]
  exact holds_div hm _

theorem le_recipMag {m : Nat} (hm : m ≠ 0) (e : Int) : 2 ^ 24 ≤ (recipMag m e).mag := by
  have hlt := Nat.lt_log2_self (n := m)
  rw [recipMag, Nat.le_div_iff_mul_le (Nat.pos_of_ne_zero hm)]
  calc 2 ^ 24 * m ≤ 2 ^ 24 * 2 ^ (Nat.log2 m + 1) := Nat.mul_le_mul_left _ hlt.le
    _ = 2 ^ (24 + (Nat.log2 m + 1)) := (pow_add ..).symm
    _ ≤ 2 ^ (Nat.log2 m + 64) := Nat.pow_le_pow_right two_pos (by omega)

/-- A magnitude at an even exponent, as the two roots take it. -/
def evenMag (m : Nat) (e : Int) : Nat := if e % 2 = 0 then m else 2 * m
def halfExp (e : Int) : Int := (if e % 2 = 0 then e else e - 1) / 2

theorem evenMag_mul_zpow (m : Nat) (e : Int) : (evenMag m e : ℝ) * 2 ^ (2 * halfExp e) = m * 2 ^ e := by
  rw [evenMag, halfExp]
  split
  next h => rw [show 2 * (e / 2) = e by omega]
  next h =>
    rw [show 2 * ((e - 1) / 2) = e - 1 by omega, zpow_sub_one₀ two_ne_zero]
    push_cast
    field_simp

theorem evenMag_ne_zero {m : Nat} (hm : m ≠ 0) (e : Int) : evenMag m e ≠ 0 := by
  rw [evenMag]
  split <;> omega

theorem sqrt_zpow_two_mul (n : Int) : √((2 : ℝ) ^ (2 * n)) = 2 ^ n := by
  rw [mul_comm, zpow_mul, zpow_ofNat, Real.sqrt_sq (by positivity)]

theorem holds_sqrtMag (m : Nat) (e : Int) : Holds (sqrtMag m e) (√((m : ℝ) * 2 ^ e)) := by
  obtain ⟨n, hn⟩ : ∃ n, n = evenMag m e * 2 ^ 128 := ⟨_, rfl⟩
  have hdef : sqrtMag m e = { mag := isqrt n, exp := halfExp e - 64, inexact := isqrt n * isqrt n != n } := by
    rw [hn]
    rfl
  have he : √((n : ℝ) / (1 : Nat)) * 2 ^ (halfExp e - 64) = √((m : ℝ) * 2 ^ e) := by
    rw [← evenMag_mul_zpow, hn, Nat.cast_one, div_one, Nat.cast_mul, Real.sqrt_mul (Nat.cast_nonneg _),
      Real.sqrt_mul (Nat.cast_nonneg _), sqrt_zpow_two_mul, Nat.cast_pow, Nat.cast_ofNat,
      show (2 : ℝ) ^ 128 = 2 ^ (2 * (64 : Int)) by norm_num, sqrt_zpow_two_mul, mul_assoc, ← zpow_add₀ two_ne_zero, add_sub_cancel]
  rw [hdef, ← he]
  simpa using holds_sqrt_div (p := n) one_ne_zero (halfExp e - 64)

theorem le_sqrtMag {m : Nat} (hm : m ≠ 0) (e : Int) : 2 ^ 24 ≤ (sqrtMag m e).mag := by
  have h : 2 ^ 24 ≤ isqrt (evenMag m e * 2 ^ 128) := by
    rw [isqrt_eq_sqrt, Nat.le_sqrt]
    have := Nat.pos_of_ne_zero (evenMag_ne_zero hm e)
    omega
  exact h

theorem holds_rsqrtMag {m : Nat} (hm : m ≠ 0) (e : Int) : Holds (rsqrtMag m e) (√(1 / ((m : ℝ) * 2 ^ e))) := by
  obtain ⟨k, hk⟩ : ∃ k, k = Nat.log2 (evenMag m e) + 64 := ⟨_, rfl⟩
  have hdef : rsqrtMag m e = {
      mag := isqrt (2 ^ (2 * k) / evenMag m e)
      exp := -halfExp e - k
      inexact := isqrt (2 ^ (2 * k) / evenMag m e) * isqrt (2 ^ (2 * k) / evenMag m e) * evenMag m e != 2 ^ (2 * k) } := by
    rw [hk]
    rfl
  have hx : 1 / ((m : ℝ) * 2 ^ e) = ((2 ^ (2 * k) : Nat) : ℝ) / evenMag m e * 2 ^ (2 * (-halfExp e - k)) := by
    rw [← evenMag_mul_zpow, mul_sub, zpow_sub₀ two_ne_zero, mul_neg, zpow_neg, Nat.cast_pow, Nat.cast_ofNat,
      show (2 * (k : Int)) = ((2 * k : Nat) : Int) by push_cast; rfl, zpow_natCast]
    field_simp
  rw [hdef, hx, Real.sqrt_mul (by positivity), sqrt_zpow_two_mul]
  exact holds_sqrt_div (evenMag_ne_zero hm e) _

theorem le_rsqrtMag {m : Nat} (hm : m ≠ 0) (e : Int) : 2 ^ 24 ≤ (rsqrtMag m e).mag := by
  have h : 2 ^ 24 ≤ isqrt (2 ^ (2 * (Nat.log2 (evenMag m e) + 64)) / evenMag m e) := by
    have hlt := Nat.lt_log2_self (n := evenMag m e)
    rw [isqrt_eq_sqrt, Nat.le_sqrt, Nat.le_div_iff_mul_le (Nat.pos_of_ne_zero (evenMag_ne_zero hm e)), ← pow_add]
    calc 2 ^ (24 + 24) * evenMag m e ≤ 2 ^ (24 + 24) * 2 ^ (Nat.log2 (evenMag m e) + 1) := Nat.mul_le_mul_left _ hlt.le
      _ = 2 ^ (24 + 24 + (Nat.log2 (evenMag m e) + 1)) := (pow_add ..).symm
      _ ≤ 2 ^ (2 * (Nat.log2 (evenMag m e) + 64)) := Nat.pow_le_pow_right two_pos (by omega)
  exact h

end Sys2Proof.Claims
end

section
/-! O5 (R158, R159, R166): reciprocals, roots, special operands, frnd, fclass and fscl. -/

namespace Sys2Proof.Claims

open Sys2Proof.Machine

/-! ### The values of FP32 words -/

section
variable {a b : Word} {r : Rm}

/-- A finite number: at most 24 bits, and a number of binades above the smallest spacing. -/
theorem exists_decode32 (h : finite32 a) :
    ∃ m j : Nat, fF32.decode a.toNat = .fin (neg32 a) m ((j : Int) - 149) ∧ abs32 a = m * 2 ^ j ∧ m < 2 ^ 24 := by
  rw [neg32_eq, abs32_eq]
  exact decode_of_finite formatOf_single (finite32_iff.mp h)

theorem decode32_of_nan (h : isNan32 a) : fF32.decode a.toNat = .nan (decide (isSnan32 a)) := by
  rw [decode_of_nan formatOf_single (isNan32_iff.mp h)]
  exact congrArg FVal.nan (decide_eq_decide.mpr isSnan32_iff.symm)

theorem decode32_of_infinite (h : ¬finite32 a) (hn : ¬isNan32 a) : fF32.decode a.toNat = .inf (neg32 a) := by
  rw [decode_of_infinite formatOf_single (infinite_single_iff.mpr ⟨h, hn⟩), neg32_eq]

theorem toNat_eq_of_infinite (h : ¬finite32 a) (hn : ¬isNan32 a) : a.toNat = single.code (neg32 a) 0x7F800000 := by
  have := a.isLt
  rw [neg32]
  by_cases h31 : 2 ^ 31 ≤ a.toNat
  · simp only [h31, decide_true, Layout.code, single, if_true]
    omega
  · simp only [h31, decide_false, Layout.code, if_false, Bool.false_eq_true]
    omega

theorem abs32_ne_zero_iff : abs32 a ≠ 0 ↔ fixed32 a ≠ 0 := Int.natAbs_ne_zero

/-- A number's mantissa and exponent, as a real magnitude. -/
theorem mul_zpow_eq_abs32 {m j : Nat} (h : abs32 a = m * 2 ^ j) : (m : ℝ) * 2 ^ ((j : Int) - 149) = abs32 a / 2 ^ 149 := by
  rw [h, zpow_sub₀ two_ne_zero, zpow_natCast]
  push_cast
  norm_num
  ring

/-! ### Exact results -/

/-- A number of at most 24 bits in any binade is a step of the FP32 scale. -/
theorem exists_size_eq (L : Layout) {s : Nat} (hs : s ≤ 2 ^ (L.mant + 1)) (t : Nat) : ∃ m, L.size m = s * 2 ^ t := by
  induction t generalizing s with
  | zero => exact ⟨0 * 2 ^ L.mant + s, size_binade (.inl rfl) hs⟩
  | succ t ih =>
    by_cases h : 2 ^ L.mant ≤ s
    · exact ⟨_, size_binade (.inr h) hs⟩
    · obtain ⟨m, hm⟩ := ih (s := 2 * s) (by rw [pow_succ]; omega)
      exact ⟨m, by rw [hm, pow_succ]; ring⟩

/-- A result that is a step of the scale, no larger than the largest finite number, is that number, and sets no flag. -/
theorem Gives.of_exact {L : Layout} {t : Sat} {neg : Bool} {x : Nat × FFlags} {m : Nat} (hr : r ≠ .rs)
    (h : Gives L r t neg (L.size m) 0 x) (hm : m ≤ L.top) : x = (L.code neg m, {}) := by
  obtain ⟨m', hm', -, hin⟩ := h
  obtain rfl := hm'.eq_of_size_eq (size_strictMono L) hr
  obtain ⟨hx, hfl, hnx, huf⟩ := hin hm
  have hnx' : x.2.nx = false := by simpa using hnx
  have huf' : x.2.uf = false := by
    rw [← Bool.not_eq_true, huf, hnx']
    simp
  exact Prod.ext hx (by rw [hfl, hnx', huf'])

/-- An exact FP32 result: a word of that sign and magnitude. -/
theorem exists_word_of_exact {neg : Bool} {x : Nat × FFlags} {s t : Nat} (hr : r ≠ .rs) (hs : s ≤ 2 ^ 24)
    (hle : s * 2 ^ t ≤ single.size single.top)
    (h : Gives single r .dflt neg ((s * 2 ^ t : Nat) : ℝ) 0 x) :
    ∃ c, x = (c, {}) ∧ c < 2 ^ 32 ∧ finite32 (BitVec.ofNat 32 c) ∧ neg32 (BitVec.ofNat 32 c) = neg ∧
      abs32 (BitVec.ofNat 32 c) = s * 2 ^ t := by
  obtain ⟨m, hm⟩ := exists_size_eq single hs t
  have htop : m ≤ single.top := by
    rw [← (size_strictMono single).le_iff_le, hm]
    exact hle
  rw [← hm] at h ⊢
  exact ⟨_, h.of_exact hr htop, code_single_lt (htop.trans (by decide)), finite32_code htop, neg32_code htop, abs32_code htop⟩

/-! ### The functions of one operand (R158) -/

theorem sqrt_mul_two_pow (x : ℝ) (n : Nat) : √x * 2 ^ n = √(x * 2 ^ (2 * n)) := by
  rw [Real.sqrt_mul' _ (by positivity), mul_comm 2 n, pow_mul, Real.sqrt_sq (by positivity)]

section
variable {m j : Nat} (hd : fF32.decode a.toNat = .fin (neg32 a) m ((j : Int) - 149)) (hm : m ≠ 0) (ha : abs32 a = m * 2 ^ j)
include hd hm

theorem func1_rcp_eq : func1 .rcp a r = fF32.round (neg32 a) (recipMag m ((j : Int) - 149)) r := by
  simp only [func1, hd, if_neg hm]

theorem func1_eq_of_neg (hn : neg32 a = true) {g : Fun1} (hg : g ∈ [Fun1.rsq, .sqrt, .log2]) :
    func1 g a r = (0x7FC00000, { iv := true }) := by
  simp only [List.mem_cons, List.not_mem_nil, or_false] at hg
  obtain rfl | rfl | rfl := hg <;> simp only [func1, hd, if_neg hm, hn, if_true]

theorem func1_rsq_eq (hn : neg32 a = false) : func1 .rsq a r = fF32.round false (rsqrtMag m ((j : Int) - 149)) r := by
  simp only [func1, hd, if_neg hm, hn, Bool.false_eq_true, if_false]

theorem func1_sqrt_eq (hn : neg32 a = false) : func1 .sqrt a r = fF32.round false (sqrtMag m ((j : Int) - 149)) r := by
  simp only [func1, hd, if_neg hm, hn, Bool.false_eq_true, if_false]

include ha

theorem gives_rcp (hr : r ≠ .rs) : Gives single r .dflt (neg32 a) (2 ^ 298 / (abs32 a : ℝ)) 0 (func1 .rcp a r) := by
  have h := gives_round (r := r) (t := .dflt) (neg := neg32 a) formatOf_single (holds_recipMag hm ((j : Int) - 149))
    (fun _ => le_recipMag hm _) (fun h => absurd h hr) (by decide : 0 < 2 ^ 16)
  rw [← func1_rcp_eq hd hm, mul_zpow_eq_abs32 ha, unit_single] at h
  convert h using 1
  rw [one_div_div, div_mul_eq_mul_div, ← pow_add]

theorem gives_rsq (hr : r ≠ .rs) (hn : neg32 a = false) :
    Gives single r .dflt false (√(2 ^ 447 / (abs32 a : ℝ))) 0 (func1 .rsq a r) := by
  have h := gives_round (r := r) (t := .dflt) (neg := false) formatOf_single (holds_rsqrtMag hm ((j : Int) - 149))
    (fun _ => le_rsqrtMag hm _) (fun h => absurd h hr) (by decide : 0 < 2 ^ 16)
  rw [← func1_rsq_eq hd hm hn, mul_zpow_eq_abs32 ha, unit_single, sqrt_mul_two_pow] at h
  convert h using 2
  rw [one_div_div, div_mul_eq_mul_div, ← pow_add]

theorem gives_sqrt (hr : r ≠ .rs) (hn : neg32 a = false) :
    Gives single r .dflt false (√(2 ^ 149 * (abs32 a : ℝ))) 0 (func1 .sqrt a r) := by
  have h := gives_round (r := r) (t := .dflt) (neg := false) formatOf_single (holds_sqrtMag m ((j : Int) - 149))
    (fun _ => le_sqrtMag hm _) (fun h => absurd h hr) (by decide : 0 < 2 ^ 16)
  rw [← func1_sqrt_eq hd hm hn, mul_zpow_eq_abs32 ha, unit_single, sqrt_mul_two_pow] at h
  convert h using 2
  rw [div_mul_eq_mul_div, mul_comm, mul_div_assoc, show (2 : ℝ) ^ (2 * 149) / 2 ^ 149 = 2 ^ 149 by rw [div_eq_iff (by positivity), ← pow_add]]

end

/-- A NaN's function is the canonical NaN. -/
theorem quiets_func1 (g : Fun1) (h : isNan32 a) : Quiets 0x7FC00000 (func1 g a r) (isSnan32 a) := by
  rw [func1, decode32_of_nan h]
  exact ⟨rfl, rfl, decide_eq_true_iff⟩

/-- Minus infinity has no root and no logarithm. -/
theorem func1_of_minus_infinity {g : Fun1} (hg : g ∈ [Fun1.rsq, .sqrt, .log2]) : func1 g 0xFF800000 r = (0x7FC00000, { iv := true }) := by
  simp only [List.mem_cons, List.not_mem_nil, or_false] at hg
  obtain rfl | rfl | rfl := hg <;> rfl

/-! ### Rounding to a whole number, and classes (R159) -/

/-- A finite number rounded to a whole one. -/
theorem fround_of_finite (h : finite32 a) :
    ∃ m x, RoundsOn id r (neg32 a) ((abs32 a : ℝ) / 2 ^ 149) 0 m ∧ fround a r = (x, {}) ∧ x < 2 ^ 32 ∧
      finite32 (BitVec.ofNat 32 x) ∧ neg32 (BitVec.ofNat 32 x) = neg32 a ∧ abs32 (BitVec.ofNat 32 x) = m * 2 ^ 149 := by
  obtain ⟨m, j, hd, ha, hm⟩ := exists_decode32 h
  have hv := mul_zpow_eq_abs32 ha
  by_cases he : (0 : Int) ≤ (j : Int) - 149
  · refine ⟨m * 2 ^ (j - 149), a.toNat, ?_, by simp only [fround, hd, if_pos he], a.isLt, by simpa using h, by simp, ?_⟩
    · have hw : (abs32 a : ℝ) / 2 ^ 149 = (id (m * 2 ^ (j - 149)) : Nat) := by
        rw [← hv, show (j : Int) - 149 = (j - 149 : Nat) by omega, zpow_natCast, id, Nat.cast_mul, Nat.cast_pow, Nat.cast_ofNat]
      rw [hw]
      exact roundsOn_self strictMono_id (by decide) _
    · rw [BitVec.ofNat_toNat, BitVec.setWidth_eq, ha, mul_assoc, ← pow_add]
      congr 2
      omega
  · classical
    obtain ⟨k, hk, hlt, hround⟩ := roundAt_eq (x := { mag := m, exp := (j : Int) - 149 }) (u := 0) (r := r) (neg := neg32 a) (draw := 0)
      (holds_exact _ _) nofun (fun _ => rfl) (by decide)
    rw [neg_zero, zpow_zero, mul_one, hv] at hk hlt hround
    have hon := roundsOn_ite (r := r) (neg := neg32 a) (draw := 0) strictMono_id hk (by simpa using hlt)
    have hbits : k + 1 ≤ 2 ^ 24 := by
      have hle : (k : ℝ) ≤ m := by
        refine hk.trans ?_
        rw [← hv]
        exact mul_le_of_le_one_right (Nat.cast_nonneg m) (zpow_le_one_of_nonpos₀ one_le_two (by omega))
      have : k ≤ m := by exact_mod_cast hle
      omega
    obtain ⟨n, hn, hmn, hle⟩ : ∃ n, (Mag.roundAt { mag := m, exp := (j : Int) - 149 } 0 (neg32 a) r 0).1 = n ∧
        RoundsOn id r (neg32 a) ((abs32 a : ℝ) / 2 ^ 149) 0 n ∧ n ≤ 2 ^ 24 := by
      refine ⟨_, rfl, by rw [hround]; exact hon, ?_⟩
      rw [hround]
      dsimp only
      split <;> omega
    have hg := gives_round (r := .rn) (t := .dflt) (neg := neg32 a) formatOf_single (holds_exact n 0) nofun (fun _ => rfl)
      (by decide : 0 < 2 ^ 16)
    rw [zpow_zero, mul_one, unit_single,
      show (n : ℝ) * 2 ^ 149 = ((n * 2 ^ 149 : Nat) : ℝ) by rw [Nat.cast_mul, Nat.cast_pow, Nat.cast_ofNat]] at hg
    obtain ⟨c, hc, hlt, hfin, hneg, habs⟩ := exists_word_of_exact (by decide) hle
      ((Nat.mul_le_mul_right _ hle).trans (by decide +kernel : 2 ^ 24 * 2 ^ 149 ≤ single.size single.top)) hg
    exact ⟨n, c, hmn, by simp only [fround, hd, if_neg he, hn, hc], hlt, hfin, hneg, habs⟩

theorem quiets_fround (h : isNan32 a) : Quiets 0x7FC00000 (fround a r) (isSnan32 a) := by
  rw [fround, decode32_of_nan h]
  exact ⟨rfl, rfl, decide_eq_true_iff⟩

theorem fround_of_infinite (h : ¬finite32 a) (hn : ¬isNan32 a) : fround a r = (a.toNat, {}) := by
  rw [fround, decode32_of_infinite h hn, toNat_eq_of_infinite h hn]
  rfl

theorem fclassBit_of_finite (h : finite32 a) : fclassBit a = if a.toNat % 2 ^ 31 = 0 then (if neg32 a then 3 else 4)
    else if a.toNat % 2 ^ 31 < 0x00800000 then (if neg32 a then 2 else 5) else if neg32 a then 1 else 6 := by
  have hfin := finite32_iff.mp h
  rw [fclassBit, decode_eq formatOf_single, if_neg (not_lt.mpr hfin), neg32_eq]
  have hmag : single.mag a.toNat = a.toNat % 2 ^ 31 := rfl
  generalize a.toNat % 2 ^ 31 = x at hmag
  rw [hmag]
  by_cases he : x / 2 ^ single.mant = 0
  · have hx : x < 2 ^ 23 := (Nat.div_eq_zero_iff_lt (by decide)).mp he
    rw [if_pos he, show x % 2 ^ single.mant = x from Nat.mod_eq_of_lt hx]
    simp only [hx, if_true, show x < 0x00800000 from hx]
  · have hx : 2 ^ 23 ≤ x := not_lt.mp fun h => he (Nat.div_eq_of_lt h)
    have hx0 : x ≠ 0 := fun h => by simp [h] at hx
    rw [if_neg he]
    simp only [hx0, if_false, show ¬x < 0x00800000 from not_lt.mpr hx, show ¬2 ^ single.mant + x % 2 ^ single.mant = 0 from by positivity,
      show ¬2 ^ single.mant + x % 2 ^ single.mant < 2 ^ 23 from not_lt.mpr (Nat.le_add_right _ _)]

theorem fclassBit_of_nan (h : isNan32 a) : fclassBit a = if isSnan32 a then 8 else 9 := by
  rw [fclassBit, decode32_of_nan h]
  by_cases hs : isSnan32 a
  · rw [decide_eq_true hs, if_pos hs]
  · rw [decide_eq_false hs, if_neg hs]

theorem fclassBit_of_infinite (h : ¬finite32 a) (hn : ¬isNan32 a) : fclassBit a = if neg32 a then 0 else 7 := by
  rw [fclassBit, decode32_of_infinite h hn]
  cases neg32 a <;> rfl

/-! ### Scaling (R166) -/

theorem fscale_of_nan_scale (h : b.toNat % 256 = 255) : fscale a b r = (0x7FC00000, { iv := true }) := by
  have hb : field b 0 8 = 255 := by simpa [field] using h
  rw [fscale, hb]
  rfl

theorem scaleVal_field (h : b.toNat % 256 ≠ 255) : scaleVal (field b 0 8) = .fin false 1 ((b.toNat % 256 : Nat) - 127) := by
  rw [show field b 0 8 = b.toNat % 256 by simp [field], scaleVal, if_neg h]

theorem fscale_of_fin {n : Bool} {m : Nat} {q : Int} (h : b.toNat % 256 ≠ 255) (hd : fF32.decode a.toNat = .fin n m q) :
    fscale a b r = fF32.round n { mag := m, exp := q + ((b.toNat % 256 : Nat) - 127) } r := by
  simp only [fscale, scaleVal_field h, hd]

theorem fscale_of_nan {s : Bool} (h : b.toNat % 256 ≠ 255) (hd : fF32.decode a.toNat = .nan s) :
    fscale a b r = (0x7FC00000, { iv := s }) := by
  simp only [fscale, scaleVal_field h, hd, FVal.toF32]

theorem fscale_of_inf {n : Bool} (h : b.toNat % 256 ≠ 255) (hd : fF32.decode a.toNat = .inf n) : fscale a b r = (finf n, {}) := by
  simp only [fscale, scaleVal_field h, hd, FVal.toF32]

theorem gives_fscale (h : b.toNat % 256 ≠ 255) (hf : finite32 a) :
    Gives single r .dflt (neg32 a) ((abs32 a : ℝ) * 2 ^ (b.toNat % 256) / 2 ^ 127) 0 (fscale a b r) := by
  obtain ⟨m, j, hd, ha, -⟩ := exists_decode32 hf
  have hg := gives_round (r := r) (t := .dflt) (neg := neg32 a) formatOf_single
    (holds_exact m ((j : Int) - 149 + ((b.toNat % 256 : Nat) - 127))) nofun (fun _ => rfl) (by decide : 0 < 2 ^ 16)
  rw [zpow_add₀ two_ne_zero, ← mul_assoc, mul_zpow_eq_abs32 ha, unit_single, zpow_sub₀ two_ne_zero, zpow_natCast] at hg
  rw [fscale_of_fin h hd]
  convert hg using 1
  rw [← zpow_natCast (2 : ℝ) 127]
  field_simp
  rfl

theorem quiets_fscale (h : b.toNat % 256 ≠ 255) (hn : isNan32 a) : Quiets 0x7FC00000 (fscale a b r) (isSnan32 a) := by
  rw [fscale_of_nan h (decode32_of_nan hn)]
  exact ⟨rfl, rfl, decide_eq_true_iff⟩

theorem fscale_of_infinite (h : b.toNat % 256 ≠ 255) (hf : ¬finite32 a) (hn : ¬isNan32 a) : fscale a b r = (a.toNat, {}) := by
  rw [fscale_of_inf h (decode32_of_infinite hf hn), toNat_eq_of_infinite hf hn]
  rfl

/-- Settles O5: recipMag, sqrtMag and rsqrtMag hold the exact values, which one rounding takes to FP32; the rest is by the
classes of the operands. -/
theorem floatFunctions : Obligations.FloatFunctions := by
  unfold Obligations.FloatFunctions
  refine ⟨⟨fun a r hr hf h0 => ?_, fun r => ?_⟩, fun a r hr => ⟨fround_of_finite, quiets_fround, fround_of_infinite⟩, fun a => ?_,
    fun a b r hr => ⟨fscale_of_nan_scale, fun h => ⟨gives_fscale h, quiets_fscale h, fscale_of_infinite h⟩⟩⟩
  · obtain ⟨m, j, hd, ha, -⟩ := exists_decode32 hf
    have hm : m ≠ 0 := fun hm => abs32_ne_zero_iff.mpr h0 (by rw [ha, hm, Nat.zero_mul])
    exact ⟨gives_rcp hd hm ha hr, fun hn => ⟨gives_rsq hd hm ha hr hn, gives_sqrt hd hm ha hr hn⟩,
      fun hn g hg => func1_eq_of_neg hd hm hn hg⟩
  · exact ⟨rfl, rfl, rfl, rfl, rfl, rfl, rfl, rfl, rfl, rfl, rfl, rfl, rfl, rfl, rfl, rfl, rfl,
      fun g hg => func1_of_minus_infinity hg, fun g a => quiets_func1 g⟩
  · dsimp only
    by_cases hn : isNan32 a
    · rw [fclassBit_of_nan hn, if_pos hn]
    · have hs : ¬isSnan32 a := fun h => hn h.1
      rw [if_neg hs, if_neg hn]
      by_cases hf : finite32 a
      · rw [fclassBit_of_finite hf, if_pos (finite32_iff.mp hf |> Nat.lt_succ_of_le : a.toNat % 2 ^ 31 < 0x7F800000)]
      · have hbig : ¬a.toNat % 2 ^ 31 < 0x7F800000 := fun h => hf (finite32_iff.mpr (Nat.le_of_lt_succ h))
        rw [fclassBit_of_infinite hf hn, if_neg (fun h => hbig (by omega) : ¬a.toNat % 2 ^ 31 = 0),
          if_neg (fun h => hbig (h.trans (by decide)) : ¬a.toNat % 2 ^ 31 < 0x00800000), if_neg hbig]

end
end Sys2Proof.Claims
end

section
/-! O11 (R143 to R151, R160 to R163): conversions between float, integer, narrow and packed formats. -/

namespace Sys2Proof.Claims

open Sys2Proof.Machine

/-! ### To a narrow format (R143 to R151) -/

section
variable {f : FloatFmt} {L : Layout} {m : Fmt} {a : Word} {r : Rm} {t : Sat} {draw : Nat} {x : Nat × FFlags} {neg : Bool}

theorem fromF32_float (h : fmtKind m = .float f) : fromF32 m a r t draw =
    (BitVec.ofNat 32 (toFloat f (fF32.decode a.toNat) r t draw).1, (toFloat f (fF32.decode a.toNat) r t draw).2) := by
  simp only [fromF32, h]

theorem sign_le_of_narrow (h : narrow m = some L) : L.sign ≤ 15 := by
  cases m with
  | bf16 | f16 | e4m3 | e5m2 | e2m3 | e3m2 | e2m1 => cases h; decide
  | _ => cases h

/-- A code fits in the format's bits. -/
theorem code_lt (neg : Bool) {n : Nat} (h : n < 2 ^ L.sign) : L.code neg n < 2 ^ (L.sign + 1) := by
  rw [pow_succ]
  cases neg <;> simp only [Layout.code, if_true, if_false, Bool.false_eq_true] <;> omega

theorem nanCode_lt (hf : FormatOf f L) : L.nan.getD 0 < 2 ^ L.sign := by
  cases h : L.nan with
  | none => exact Nat.two_pow_pos _
  | some c => exact hf.nan_lt c h

theorem overflowOf_lt (hf : FormatOf f L) (r : Rm) (t : Sat) (neg : Bool) : (overflowOf L r t neg).1 < 2 ^ (L.sign + 1) := by
  rw [overflowOf]
  split
  · exact code_lt neg hf.top_lt
  · split
    next i hi => exact code_lt neg (hf.inf_bounds i hi).2
    next => exact (nanCode_lt hf).trans (Nat.pow_lt_pow_right one_lt_two (Nat.lt_succ_self _))

theorem Gives.lt {v : ℝ} (hf : FormatOf f L) (h : Gives L r t neg v draw x) : x.1 < 2 ^ (L.sign + 1) := by
  obtain ⟨m, -, hout, hin⟩ := h
  by_cases hm : L.top < m
  · rw [hout hm]
    exact overflowOf_lt hf r t neg
  · rw [(hin (not_lt.mp hm)).1]
    exact code_lt neg ((not_lt.mp hm).trans_lt hf.top_lt)

theorem gives_toFloat (hf : FormatOf f L) (hd : draw < 2 ^ 16) (ha : finite32 a) :
    Gives L r t (neg32 a) ((abs32 a : ℝ) * 2 ^ L.unit / 2 ^ 149) draw (toFloat f (fF32.decode a.toNat) r t draw) := by
  obtain ⟨m, j, hdec, habs, -⟩ := exists_decode32 ha
  have hg := gives_round (r := r) (t := t) (neg := neg32 a) hf (holds_exact m ((j : Int) - 149)) nofun (fun _ => rfl) hd
  rw [mul_zpow_eq_abs32 habs, div_mul_eq_mul_div] at hg
  rw [hdec]
  exact hg

theorem toFloat_of_nan (hf : FormatOf f L) (ha : isNan32 a) : toFloat f (fF32.decode a.toNat) r t draw =
    (L.nan.getD 0, { iv := decide (isSnan32 a) || L.nan.isNone }) := by
  rw [decode32_of_nan ha, toFloat, nanCode_of_formatOf hf, hf.nan]

/-- What an infinity gives in a narrow format (R151). -/
def infinityOf (L : Layout) (t : Sat) (neg : Bool) : Nat × FFlags :=
  match L.inf, L.nan with
  | some i, _ => if t = .sat then (L.code neg L.top, { iv := true }) else (L.code neg i, {})
  | none, some c => if t = .nosat then (c, {}) else (L.code neg L.top, { iv := true })
  | none, none => (L.code neg L.top, { iv := true })

theorem toFloat_of_infinite (hf : FormatOf f L) (ha : ¬finite32 a) (hn : ¬isNan32 a) :
    toFloat f (fF32.decode a.toNat) r t draw = infinityOf L t (neg32 a) := by
  simp only [decode32_of_infinite ha hn, toFloat, infinityOf, hf.inf, hf.nan, hf.top, signed_of_formatOf hf]
  cases L.inf <;> cases L.nan <;> cases t <;> rfl

theorem infinityOf_lt (hf : FormatOf f L) (t : Sat) (neg : Bool) : (infinityOf L t neg).1 < 2 ^ (L.sign + 1) := by
  have htop := code_lt neg hf.top_lt
  rw [infinityOf]
  split
  next hi => split; exacts [htop, code_lt neg (hf.inf_bounds _ hi).2]
  next c _ hc => split; exacts [(hf.nan_lt c hc).trans (Nat.pow_lt_pow_right one_lt_two (Nat.lt_succ_self _)), htop]
  · exact htop

/-- The code that a conversion to a narrow format gives fits in the format's bits. -/
theorem toFloat_lt (hf : FormatOf f L) (hd : draw < 2 ^ 16) : (toFloat f (fF32.decode a.toNat) r t draw).1 < 2 ^ (L.sign + 1) := by
  by_cases ha : finite32 a
  · exact (gives_toFloat hf hd ha).lt hf
  by_cases hn : isNan32 a
  · rw [toFloat_of_nan hf hn]
    exact (nanCode_lt hf).trans (Nat.pow_lt_pow_right one_lt_two (Nat.lt_succ_self _))
  · rw [toFloat_of_infinite hf ha hn]
    exact infinityOf_lt hf t _

/-- A conversion to a narrow format. -/
theorem fromF32_narrow (hL : narrow m = some L) (hd : draw < 2 ^ 16) :
    ∃ f, FormatOf f L ∧ (fromF32 m a r t draw).2 = (toFloat f (fF32.decode a.toNat) r t draw).2 ∧
      (fromF32 m a r t draw).1.toNat = (toFloat f (fF32.decode a.toNat) r t draw).1 := by
  obtain ⟨f, hk, hf⟩ := formatOf_narrow hL
  rw [fromF32_float hk]
  refine ⟨f, hf, rfl, Nat.mod_eq_of_lt ((toFloat_lt hf hd).trans_le (Nat.pow_le_pow_right two_pos ?_))⟩
  have := sign_le_of_narrow hL
  omega

theorem narrow_conversion (hL : narrow m = some L) (hd : draw < 2 ^ 16) :
    let x := fromF32 m a r t draw
    x.1.toNat < 2 ^ (L.sign + 1) ∧
    (finite32 a → Gives L r t (neg32 a) ((abs32 a : ℝ) * 2 ^ L.unit / 2 ^ 149) draw (x.1.toNat, x.2)) ∧
    (isNan32 a → Quiets (L.nan.getD 0) (x.1.toNat, x.2) (isSnan32 a ∨ L.nan = none)) ∧
    (¬finite32 a → ¬isNan32 a →
      (∀ i, L.inf = some i → t ≠ .sat → x.1.toNat = L.code (neg32 a) i ∧ x.2 = {}) ∧
      (∀ c, L.inf = none → L.nan = some c → t = .nosat → x.1.toNat = c ∧ x.2 = {}) ∧
      (t = .sat ∨ (L.inf = none ∧ t = .dflt) → x.1.toNat = L.code (neg32 a) L.top ∧ x.2 = { iv := true })) := by
  obtain ⟨f, hf, hflags, hcode⟩ := fromF32_narrow (a := a) (r := r) (t := t) hL hd
  simp only [hflags, hcode]
  refine ⟨toFloat_lt hf hd, gives_toFloat hf hd, fun ha => ?_, fun ha hn => ?_⟩
  · rw [toFloat_of_nan hf ha]
    refine ⟨rfl, rfl, ?_⟩
    rw [Bool.or_eq_true, decide_eq_true_iff, Option.isNone_iff_eq_none]
  · rw [toFloat_of_infinite hf ha hn, infinityOf]
    cases L.inf <;> cases L.nan <;> cases t <;> simp

end

/-! ### To a whole number (R160) -/

section
variable {m : Fmt} {a : Word} {r : Rm} {t : Sat} {draw w : Nat} {sg : Bool}

/-- The bounds of a whole-number format. -/
def lowest (w : Nat) (sg : Bool) : Int := if sg then -2 ^ (w - 1) else 0
def highest (w : Nat) (sg : Bool) : Int := if sg then 2 ^ (w - 1) - 1 else 2 ^ w - 1

theorem lowest_le_highest (w : Nat) (sg : Bool) : lowest w sg ≤ highest w sg := by
  have h1 : (1 : Int) ≤ 2 ^ (w - 1) := one_le_pow₀ (by norm_num)
  have h2 : (1 : Int) ≤ 2 ^ w := one_le_pow₀ (by norm_num)
  cases sg
  · exact Int.sub_nonneg.mpr h2
  · exact (neg_nonpos.mpr (by positivity)).trans (Int.sub_nonneg.mpr h1)

theorem fromF32_whole (h : wholes m = some (w, sg)) : fromF32 m a r t draw = toInteger w sg (fF32.decode a.toNat) r := by
  cases m <;> cases h <;> rfl

/-- A number as a whole number, clamped. -/
theorem toInteger_of_finite (ha : finite32 a) : ∃ k : Nat, RoundsOn id r (neg32 a) ((abs32 a : ℝ) / 2 ^ 149) 0 k ∧
    ∃ nx : Bool, (nx = true ↔ (abs32 a : ℝ) / 2 ^ 149 ≠ k) ∧
      let v : Int := if neg32 a then -k else k
      toInteger w sg (fF32.decode a.toNat) r =
        if v < lowest w sg then (BitVec.ofInt 32 (lowest w sg), { iv := true })
        else if highest w sg < v then (BitVec.ofInt 32 (highest w sg), { iv := true })
        else (BitVec.ofInt 32 v, { nx := nx }) := by
  classical
  obtain ⟨m, j, hdec, habs, -⟩ := exists_decode32 ha
  obtain ⟨k, hk, hlt, hround⟩ := roundAt_eq (x := { mag := m, exp := (j : Int) - 149 }) (u := 0) (r := r) (neg := neg32 a) (draw := 0)
    (holds_exact _ _) nofun (fun _ => rfl) (by decide)
  rw [neg_zero, zpow_zero, mul_one, mul_zpow_eq_abs32 habs] at hk hlt hround
  have hlt' : (abs32 a : ℝ) / 2 ^ 149 < (id (k + 1) : Nat) := by simpa using hlt
  refine ⟨_, roundsOn_ite strictMono_id hk hlt', decide ((abs32 a : ℝ) / 2 ^ 149 ≠ k), ?_, ?_⟩
  · rw [decide_eq_true_iff]
    exact (ne_rounded_iff (r := r) (neg := neg32 a) strictMono_id (by decide) hk hlt').symm
  · simp only [hdec, toInteger, hround, lowest, highest]
    push_cast
    rfl

theorem whole_conversion (h : wholes m = some (w, sg)) :
    let x := fromF32 m a r t draw
    (isNan32 a → x = (0, { iv := true })) ∧
    (¬finite32 a → ¬isNan32 a → x = (BitVec.ofInt 32 (if neg32 a then lowest w sg else highest w sg), { iv := true })) ∧
    (finite32 a → ∃ k : Nat, RoundsOn id r (neg32 a) ((abs32 a : ℝ) / 2 ^ 149) 0 k ∧
      let v : Int := if neg32 a then -k else k
      (v < lowest w sg → x = (BitVec.ofInt 32 (lowest w sg), { iv := true })) ∧
      (highest w sg < v → x = (BitVec.ofInt 32 (highest w sg), { iv := true })) ∧
      (lowest w sg ≤ v → v ≤ highest w sg →
        x.1 = BitVec.ofInt 32 v ∧ x.2 = { nx := x.2.nx } ∧ (x.2.nx = true ↔ (abs32 a : ℝ) / 2 ^ 149 ≠ k))) := by
  rw [fromF32_whole h]
  refine ⟨fun hn => by rw [decode32_of_nan hn]; rfl, fun ha hn => ?_, fun ha => ?_⟩
  · simp only [decode32_of_infinite ha hn, toInteger, lowest, highest]
    push_cast
    rfl
  · obtain ⟨k, hk, nx, hnx, hx⟩ := toInteger_of_finite (w := w) (sg := sg) (r := r) ha
    refine ⟨k, hk, ?_⟩
    rw [hx]
    refine ⟨fun h => if_pos h, fun h => ?_, fun hlo hhi => ?_⟩
    · rw [if_neg (not_lt.mpr ((lowest_le_highest w sg).trans h.le)), if_pos h]
    · rw [if_neg (not_lt.mpr hlo), if_neg (not_lt.mpr hhi)]
      exact ⟨rfl, rfl, hnx⟩

end

/-! ### To and from a scale (R146, R160) -/

section
variable {a : Word} {r : Rm} {t : Sat} {draw : Nat}

theorem fromF32_scale : fromF32 .e8m0 a r t draw =
    (BitVec.ofNat 32 (toScale (fF32.decode a.toNat) r).1, (toScale (fF32.decode a.toNat) r).2) := rfl

theorem finite32_of_abs32_eq_zero (h : abs32 a = 0) : finite32 a := by
  rw [abs32_eq, size_eq_zero_iff] at h
  exact finite32_iff.mpr (h.le.trans (Nat.zero_le _))

theorem strictMono_two_pow : StrictMono (fun j : Nat => 2 ^ j) := pow_right_strictMono₀ one_lt_two

/-- Whether a number rounds to the power of two above it. -/
theorem roundsUp_two_pow_iff {m j k : Nat} (hr : r ≠ .rs) (hk : 2 ^ k ≤ m) :
    RoundsUp (fun j => 2 ^ j) r false ((m * 2 ^ j : Nat) : ℝ) 0 (k + j) ↔ m ≠ 2 ^ k ∧ match r with
      | .rn => 3 * 2 ^ k < 2 * m ∨ (2 * m = 3 * 2 ^ k ∧ (k + j) % 2 = 1)
      | .rp => True
      | _ => False := by
  have hp := Nat.two_pow_pos j
  have hpk := Nat.two_pow_pos k
  cases r with
  | rn =>
    have hlt : 2 ^ (k + j) + 2 ^ (k + j + 1) < 2 * (m * 2 ^ j) ↔ 3 * 2 ^ k < 2 * m := by
      rw [show 2 ^ (k + j) + 2 ^ (k + j + 1) = 3 * 2 ^ k * 2 ^ j by ring, ← mul_assoc, Nat.mul_lt_mul_right hp]
    have heq : 2 ^ (k + j) + 2 ^ (k + j + 1) = 2 * (m * 2 ^ j) ↔ 2 * m = 3 * 2 ^ k := by
      rw [show 2 ^ (k + j) + 2 ^ (k + j + 1) = 3 * 2 ^ k * 2 ^ j by ring, ← mul_assoc, Nat.mul_left_inj hp.ne', eq_comm]
    have hne (h : 3 * 2 ^ k < 2 * m ∨ (2 * m = 3 * 2 ^ k ∧ (k + j) % 2 = 1)) : m ≠ 2 ^ k := by omega
    rw [and_iff_right_of_imp hne, ← hlt, ← heq]
    simp only [RoundsUp]
    norm_cast
  | rz => simp [RoundsUp]
  | rp =>
    have hlt : 2 ^ (k + j) < m * 2 ^ j ↔ m ≠ 2 ^ k := by
      rw [pow_add, Nat.mul_lt_mul_right hp, hk.lt_iff_ne']
    rw [and_true, ← hlt]
    simp only [RoundsUp, true_and]
    norm_cast
  | rm => simp [RoundsUp]
  | rs => exact absurd rfl hr

/-- Whether a scale takes the power of two above a number of leading bit k and exponent e. -/
def scaleUp (r : Rm) (m k : Nat) (e : Int) : Bool := match r with
  | .rn => decide (3 * 2 ^ k < 2 * m) || (2 * m == 3 * 2 ^ k && decide ((k + e + 127) % 2 = 1))
  | .rp => true
  | _ => false

/-- A scale's code before it is clamped. -/
def scaleCode (r : Rm) (m : Nat) (e : Int) : Int :=
  if !(m == 2 ^ Nat.log2 m) && scaleUp r m (Nat.log2 m) e then Nat.log2 m + e + 128 else Nat.log2 m + e + 127

theorem toScale_fin {m : Nat} (hm : m ≠ 0) (neg : Bool) (e : Int) : toScale (.fin neg m e) r =
    ((max 0 (min 254 (scaleCode r m e))).toNat,
      { nx := !(m == 2 ^ Nat.log2 m) || decide (max 0 (min 254 (scaleCode r m e)) ≠ scaleCode r m e) }) := by
  rw [toScale, if_neg hm]
  cases r <;> rfl

open scoped Classical in
theorem scaleCode_eq {m : Nat} (hr : r ≠ .rs) (hm : m ≠ 0) (j : Nat) : scaleCode r m ((j : Int) - 149) =
    ((if RoundsUp (fun j => 2 ^ j) r false ((m * 2 ^ j : Nat) : ℝ) 0 (Nat.log2 m + j) then Nat.log2 m + j + 1
      else Nat.log2 m + j : Nat) : Int) - 22 := by
  have hup : (!(m == 2 ^ Nat.log2 m) && scaleUp r m (Nat.log2 m) ((j : Int) - 149)) = true ↔
      RoundsUp (fun j => 2 ^ j) r false ((m * 2 ^ j : Nat) : ℝ) 0 (Nat.log2 m + j) := by
    rw [roundsUp_two_pow_iff hr (Nat.log2_self_le hm), Bool.and_eq_true, Bool.not_eq_true', beq_eq_false_iff_ne]
    refine and_congr_right fun _ => ?_
    cases r with
    | rn =>
      have hpar : ((Nat.log2 m : Int) + ((j : Int) - 149) + 127) % 2 = 1 ↔ (Nat.log2 m + j) % 2 = 1 := by omega
      simp only [scaleUp, Bool.or_eq_true, Bool.and_eq_true, decide_eq_true_iff, beq_iff_eq, hpar]
    | rp => simp [scaleUp]
    | rz => simp [scaleUp]
    | rm => simp [scaleUp]
    | rs => exact absurd rfl hr
  rw [scaleCode, if_congr hup rfl rfl]
  split
  · push_cast; ring
  · push_cast; ring

/-- A number that is not 0, as a scale. -/
theorem toScale_of_finite (hr : r ≠ .rs) (ha : finite32 a) (h0 : abs32 a ≠ 0) :
    ∃ n : Nat, RoundsOn (fun j => 2 ^ j) r false (abs32 a) 0 n ∧ ∃ nx : Bool, (nx = true ↔ abs32 a ≠ 2 ^ n) ∧
      toScale (fF32.decode a.toNat) r = ((max 0 (min 254 ((n : Int) - 22))).toNat,
        { nx := nx || decide (max 0 (min 254 ((n : Int) - 22)) ≠ (n : Int) - 22) }) := by
  classical
  obtain ⟨m, j, hdec, habs, -⟩ := exists_decode32 ha
  have hm : m ≠ 0 := fun h => h0 (by rw [habs, h, Nat.zero_mul])
  have hle : 2 ^ Nat.log2 m ≤ m := Nat.log2_self_le hm
  have hlt : m < 2 ^ (Nat.log2 m + 1) := Nat.lt_log2_self
  have hx := toScale_fin (r := r) hm (neg32 a) ((j : Int) - 149)
  rw [scaleCode_eq hr hm j, ← habs] at hx
  generalize Nat.log2 m = k at hle hlt hx
  have hlow : ((2 ^ (k + j) : Nat) : ℝ) ≤ (abs32 a : ℝ) := by
    rw [habs, pow_add]
    exact_mod_cast Nat.mul_le_mul_right _ hle
  have hhigh : (abs32 a : ℝ) < ((2 ^ (k + j + 1) : Nat) : ℝ) := by
    rw [habs, Nat.add_right_comm, pow_add]
    exact_mod_cast Nat.mul_lt_mul_of_pos_right hlt (Nat.two_pow_pos j)
  refine ⟨_, roundsOn_ite strictMono_two_pow hlow hhigh, !(m == 2 ^ k), ?_, by rw [hdec, hx]⟩
  have hne := ne_rounded_iff (r := r) (neg := false) strictMono_two_pow (by decide : 0 < 2 ^ 16) hlow hhigh
  rw [Bool.not_eq_true', beq_eq_false_iff_ne, ne_eq, ← Nat.mul_left_inj (Nat.two_pow_pos j).ne', ← pow_add, ← habs]
  exact_mod_cast hne.symm

theorem scale_conversion (hr : r ≠ .rs) :
    let x := fromF32 .e8m0 a r t draw
    (isNan32 a → x.1 = 0xFF ∧ x.2 = { iv := x.2.iv } ∧ (x.2.iv = true ↔ isSnan32 a)) ∧
    (¬finite32 a → ¬isNan32 a → x = (0xFE, { iv := true })) ∧ (abs32 a = 0 → x = (0, {})) ∧
    (finite32 a → abs32 a ≠ 0 → ∃ n : Nat, RoundsOn (fun j => 2 ^ j) r false (abs32 a) 0 n ∧
      (x.1.toNat : Int) = max 0 (min 254 ((n : Int) - 22)) ∧ x.2 = { nx := x.2.nx } ∧
      (x.2.nx = true ↔ abs32 a ≠ 2 ^ n ∨ (n : Int) - 22 < 0 ∨ 254 < (n : Int) - 22)) := by
  rw [fromF32_scale]
  refine ⟨fun hn => ?_, fun ha hn => ?_, fun h0 => ?_, fun ha h0 => ?_⟩
  · rw [decode32_of_nan hn]
    exact ⟨rfl, rfl, decide_eq_true_iff⟩
  · rw [decode32_of_infinite ha hn]
    rfl
  · obtain ⟨m, j, hdec, habs, -⟩ := exists_decode32 (finite32_of_abs32_eq_zero h0)
    have hm : m = 0 := by simpa [h0] using habs.symm
    rw [hdec, hm]
    rfl
  · obtain ⟨n, hn, nx, hnx, hx⟩ := toScale_of_finite hr ha h0
    rw [hx]
    refine ⟨n, hn, ?_, rfl, ?_⟩
    · rw [BitVec.toNat_ofNat]
      omega
    · rw [Bool.or_eq_true, hnx, decide_eq_true_iff]
      refine or_congr_right ?_
      omega

end

/-! ### To FP32 (R161, R162) -/

section
variable {f : FloatFmt} {L : Layout} {m : Fmt} {a : Word} {r : Rm} {w : Nat} {sg : Bool}

theorem toF32_narrow (hL : narrow m = some L) :
    ∃ f, FormatOf f L ∧ toF32 m a r = (f.decode (a.toNat % 2 ^ (L.sign + 1))).toF32 r := by
  obtain ⟨f, hk, hf⟩ := formatOf_narrow hL
  refine ⟨f, hf, ?_⟩
  rw [toF32, hk, element, hf.sign]

/-- A number in FP32, of no more than its bits and its range. -/
theorem toF32_of_exact {n j : Nat} {neg : Bool} (hr : r ≠ .rs) (hn : n ≤ 2 ^ 24) {e : Int} (he : e = (j : Int) - 149)
    (hle : n * 2 ^ j ≤ single.size single.top) :
    ∃ c, (FVal.fin neg n e).toF32 r = (c, {}) ∧ c < 2 ^ 32 ∧ finite32 (BitVec.ofNat 32 c) ∧ neg32 (BitVec.ofNat 32 c) = neg ∧
      abs32 (BitVec.ofNat 32 c) = n * 2 ^ j := by
  have hg := gives_round (r := r) (t := .dflt) (neg := neg) formatOf_single (holds_exact n e) nofun (fun _ => rfl)
    (by decide : 0 < 2 ^ 16)
  have hv : (n : ℝ) * 2 ^ e * 2 ^ single.unit = ((n * 2 ^ j : Nat) : ℝ) := by
    rw [he, unit_single, mul_assoc, ← zpow_natCast, ← zpow_add₀ two_ne_zero, Nat.cast_mul, Nat.cast_pow, Nat.cast_ofNat, ← zpow_natCast]
    congr 2
    omega
  rw [hv] at hg
  exact exists_word_of_exact hr hn hle hg

/-- The largest number of a narrow format is an FP32 number, and its units are whole ones of FP32. -/
theorem size_top_le_of_narrow (hL : narrow m = some L) :
    L.mant + 1 ≤ 24 ∧ L.unit ≤ 149 ∧ L.size L.top * 2 ^ (149 - L.unit) ≤ single.size single.top := by
  cases m with
  | bf16 | f16 | e4m3 | e5m2 | e2m3 | e3m2 | e2m1 => cases hL; decide +kernel
  | _ => cases hL

theorem narrow_to_single (hL : narrow m = some L) (hr : r ≠ .rs) :
    let c := a.toNat % 2 ^ (L.sign + 1)
    let x := toF32 m a r
    (L.Finite c → x.1 < 2 ^ 32 ∧ finite32 (BitVec.ofNat 32 x.1) ∧ neg32 (BitVec.ofNat 32 x.1) = L.neg c ∧
      abs32 (BitVec.ofNat 32 x.1) * 2 ^ L.unit = L.size (L.mag c) * 2 ^ 149 ∧ x.2 = {}) ∧
    (L.Infinite c → x = (if L.neg c then 0xFF800000 else 0x7F800000, {})) ∧ (L.Nan c → Quiets 0x7FC00000 x (L.Signals c)) := by
  obtain ⟨f, hf, hx⟩ := toF32_narrow (a := a) (r := r) hL
  dsimp only
  rw [hx]
  generalize a.toNat % 2 ^ (L.sign + 1) = c
  refine ⟨fun h => ?_, fun h => ?_, fun h => ?_⟩
  · obtain ⟨hmant, hunit, htop⟩ := size_top_le_of_narrow hL
    obtain ⟨n, j, hdec, hsize, hn⟩ := decode_of_finite hf h
    have hsz : n * 2 ^ (j + (149 - L.unit)) = L.size (L.mag c) * 2 ^ (149 - L.unit) := by rw [hsize, pow_add, mul_assoc]
    have hle := (Nat.mul_le_mul_right (2 ^ (149 - L.unit)) ((size_strictMono L).monotone h)).trans htop
    obtain ⟨x, hx, hlt, hfin, hneg, habs⟩ := toF32_of_exact (neg := L.neg c) hr (hn.le.trans (Nat.pow_le_pow_right two_pos hmant))
      (by omega : (j : Int) - L.unit = ((j + (149 - L.unit) : Nat) : Int) - 149) (hsz ▸ hle)
    rw [hdec, hx]
    refine ⟨hlt, hfin, hneg, ?_, rfl⟩
    rw [habs, hsz, mul_assoc, ← pow_add, Nat.sub_add_cancel hunit]
  · rw [decode_of_infinite hf h]
    cases L.neg c <;> rfl
  · rw [decode_of_nan hf h]
    exact ⟨rfl, rfl, decide_eq_true_iff⟩

theorem scale_to_single (hr : r ≠ .rs) : (a.toNat % 256 = 255 → toF32 .e8m0 a r = (0x7FC00000, {})) ∧
    (a.toNat % 256 ≠ 255 → ∃ x, toF32 .e8m0 a r = (x, {}) ∧ x < 2 ^ 31 ∧ abs32 (BitVec.ofNat 32 x) = 2 ^ (a.toNat % 256 + 22)) := by
  have hx : toF32 .e8m0 a r = (scaleVal (a.toNat % 256)).toF32 r := rfl
  rw [hx]
  have hlt : a.toNat % 256 < 256 := Nat.mod_lt _ (by decide)
  generalize a.toNat % 256 = c at hlt
  refine ⟨fun h => by rw [h]; rfl, fun h => ?_⟩
  rw [scaleVal, if_neg h]
  obtain ⟨x, hx, hlt, -, hneg, habs⟩ := toF32_of_exact (n := 1) (neg := false) hr (by decide)
    (by omega : (c : Int) - 127 = ((c + 22 : Nat) : Int) - 149)
    ((Nat.mul_le_mul_left 1 (Nat.pow_le_pow_right two_pos (by omega : c + 22 ≤ 276))).trans (by decide +kernel))
  refine ⟨x, hx, ?_, by rw [habs, Nat.one_mul]⟩
  rw [neg32, decide_eq_false_iff_not, BitVec.toNat_ofNat, Nat.mod_eq_of_lt hlt] at hneg
  exact not_le.mp hneg

theorem whole_to_single (h : wholes m = some (w, sg)) :
    let v : Int := if sg then (BitVec.ofNat w a.toNat).toInt else (BitVec.ofNat w a.toNat).toNat
    r ≠ .rs → Gives single r .dflt (decide (v < 0)) ((v.natAbs : ℝ) * 2 ^ 149) 0 (toF32 m a r) := by
  intro v hr
  have hx : toF32 m a r = (FVal.ofInt v).toF32 r := by cases m <;> cases h <;> rfl
  have hg := gives_round (r := r) (t := .dflt) (neg := decide (v < 0)) formatOf_single (holds_exact v.natAbs 0) nofun (fun _ => rfl)
    (by decide : 0 < 2 ^ 16)
  rw [zpow_zero, mul_one, unit_single] at hg
  rw [hx]
  exact hg

end

/-! ### Packed words (R163) -/

section
variable {m : Fmt} {n k : Nat} {w x : Word}

theorem packWidth_eq (h : slotBits m = some n) : packWidth m = n := by
  cases m <;> cases h <;> rfl

theorem getLsbD_putElement (h : slotBits m = some n) {j : Nat} (hj : j < 32) : (putElement m w k x).getLsbD j =
    if n * k ≤ j ∧ j < n * (k + 1) then x.getLsbD (j - n * k) else w.getLsbD j := by
  rw [putElement, packWidth_eq h, mul_comm k n, mul_add_one]
  simp only [BitVec.getLsbD_or, BitVec.getLsbD_and, BitVec.getLsbD_not, BitVec.getLsbD_ofNat, BitVec.getLsbD_shiftLeft,
    Nat.testBit_mul_two_pow, Nat.testBit_two_pow_sub_one, hj, decide_true, Bool.true_and]
  by_cases hin : n * k ≤ j ∧ j < n * k + n
  · have h1 : decide (n * k ≤ j) = true := decide_eq_true hin.1
    have h2 : decide (j - n * k < n) = true := decide_eq_true (by omega)
    have h3 : decide (j < n * k) = false := decide_eq_false (by omega)
    simp only [if_pos hin, h1, h2, h3, Bool.and_true, Bool.not_true, Bool.and_false, Bool.false_or, Bool.not_false, Bool.true_and]
  · have h1 : (decide (n * k ≤ j) && decide (j - n * k < n)) = false := by
      rw [Bool.and_eq_false_iff, decide_eq_false_iff_not, decide_eq_false_iff_not]
      omega
    simp only [if_neg hin, h1, Bool.and_false, Bool.or_false, Bool.not_false, Bool.and_true]

theorem unpackElement_eq (h : slotBits m = some n) : unpackElement m w k = toF32 m (BitVec.ofNat 32 (elemOf n w k)) .rn := by
  have hlt : elemOf n w k < 2 ^ 32 := by
    refine (Nat.mod_lt _ (Nat.two_pow_pos _)).trans_le (Nat.pow_le_pow_right two_pos ?_)
    cases m <;> cases h <;> decide
  rw [toF32, BitVec.toNat_ofNat, Nat.mod_eq_of_lt hlt, unpackElement, packWidth_eq h, mul_comm k n]
  rfl

end

/-- Settles O11: a number is a mantissa and an exponent, exactly, which one rounding takes to the steps of each format. -/
theorem floatConversions : Obligations.FloatConversions := by
  unfold Obligations.FloatConversions
  exact ⟨⟨fun m L a r t draw hL _ hd => narrow_conversion hL hd, fun m w sg a r t draw h _ => whole_conversion h,
      fun a r t draw hr => scale_conversion hr⟩,
    fun m L a r hL hr => narrow_to_single hL hr, fun a r hr => scale_to_single hr, fun m w sg a r h hr => whole_to_single h hr,
    fun m n w x k h _ => ⟨fun j hj => getLsbD_putElement h hj, unpackElement_eq h⟩⟩

end Sys2Proof.Claims
end

section
/-! SUPPORT. Values that round alike, and inexact ones (R148). -/

namespace Sys2Proof.Claims

open Sys2Proof.Machine

/-! ### Values that round alike (R148) -/

section
variable {size : Nat → Nat} {L : Layout} {r : Rm} {t : Sat} {neg : Bool} {v w : ℝ} {draw k m n : Nat} {x : Nat × FFlags}

/-- Two steps nearest to a magnitude, both even, are one. -/
theorem roundsOn_rn_unique (hs : StrictMono size) (hm : RoundsOn size .rn neg v draw m) (hn : RoundsOn size .rn neg v draw n)
    (hlt : m < n) : False := by
  have he : |v - size m| = |v - size n| := le_antisymm (hm n).1 (hn m).1
  have hm2 := (hm n).2 he hlt.ne'
  have hn2 := (hn m).2 he.symm hlt.ne
  have h1 : (size m : ℝ) < size (m + 1) := by exact_mod_cast hs (Nat.lt_succ_self m)
  have h2 : (size (m + 1) : ℝ) < size n := by exact_mod_cast hs (by omega : m + 1 < n)
  have hnear := (hm (m + 1)).1
  have hmid : v - size m = size n - v := by
    obtain h | h := abs_eq_abs.mp he
    · linarith
    · linarith
  rw [abs_of_pos (by linarith : (0 : ℝ) < v - size m)] at hnear
  obtain h | h := abs_cases (v - size (m + 1)) <;> linarith

/-- Without a draw a magnitude rounds to one step. -/
theorem RoundsOn.unique (hs : StrictMono size) (hr : r ≠ .rs) (hm : RoundsOn size r neg v draw m) (hn : RoundsOn size r neg v draw n) :
    m = n := by
  have hbelow (hm : (size m : ℝ) ≤ v ∧ v < size (m + 1)) (hn : (size n : ℝ) ≤ v ∧ v < size (n + 1)) : m = n := by
    have h1 : size m < size (n + 1) := by exact_mod_cast hm.1.trans_lt hn.2
    have h2 : size n < size (m + 1) := by exact_mod_cast hn.1.trans_lt hm.2
    rw [hs.lt_iff_lt] at h1 h2
    omega
  have habove (hm : v ≤ size m ∧ ∀ n < m, (size n : ℝ) < v) (hn : v ≤ size n ∧ ∀ m < n, (size m : ℝ) < v) : m = n := by
    obtain h | h | h := lt_trichotomy m n
    · exact absurd (hn.2 m h) (not_lt.mpr hm.1)
    · exact h
    · exact absurd (hm.2 n h) (not_lt.mpr hn.1)
  cases r with
  | rn =>
    obtain h | h | h := lt_trichotomy m n
    · exact (roundsOn_rn_unique hs hm hn h).elim
    · exact h
    · exact (roundsOn_rn_unique hs hn hm h).elim
  | rz => exact hbelow hm hn
  | rp => cases neg; exacts [habove hm hn, hbelow hm hn]
  | rm => cases neg; exacts [hbelow hm hn, habove hm hn]
  | rs => exact absurd rfl hr

/-- Two magnitudes on one side of the middle between two steps. -/
structure SameHalf (size : Nat → Nat) (k : Nat) (v w : ℝ) : Prop where
  low : (size k : ℝ) < v ∧ (size k : ℝ) < w
  high : v < size (k + 1) ∧ w < size (k + 1)
  half : (2 * v < size k + size (k + 1) ∧ 2 * w < size k + size (k + 1)) ∨ (size k + size (k + 1) < 2 * v ∧ size k + size (k + 1) < 2 * w)

theorem SameHalf.roundsUp_iff (h : SameHalf size k v w) (hr : r ≠ .rs) :
    RoundsUp size r neg v draw k ↔ RoundsUp size r neg w draw k := by
  obtain ⟨⟨hv, hw⟩, -, hhalf⟩ := h
  cases r with
  | rn =>
    obtain ⟨h1, h2⟩ | ⟨h1, h2⟩ := hhalf
    · exact iff_of_false (fun h => by rcases h with h | ⟨h, -⟩ <;> linarith)
        (fun h => by rcases h with h | ⟨h, -⟩ <;> linarith)
    · exact iff_of_true (.inl h1) (.inl h2)
  | rz => exact Iff.rfl
  | rp => exact and_congr_right fun _ => iff_of_true hv hw
  | rm => exact and_congr_right fun _ => iff_of_true hv hw
  | rs => exact absurd rfl hr

/-- Magnitudes on one side of the middle have one result. -/
theorem Gives.of_sameHalf (h : Gives L r t neg v draw x) (hr : r ≠ .rs) (hh : SameHalf L.size k v w) : Gives L r t neg w draw x := by
  classical
  obtain ⟨m, hm, hout, hin⟩ := h
  have hv := roundsOn_ite (r := r) (neg := neg) (draw := draw) (size_strictMono L) hh.low.1.le hh.high.1
  have hw := roundsOn_ite (r := r) (neg := neg) (draw := draw) (size_strictMono L) hh.low.2.le hh.high.2
  rw [← if_congr (hh.roundsUp_iff hr) rfl rfl, ← hm.unique (size_strictMono L) hr hv] at hw
  have hne {z : ℝ} (h1 : (L.size k : ℝ) < z) (h2 : z < L.size (k + 1)) : z ≠ L.size m := by
    rw [hm.unique (size_strictMono L) hr hv]
    split
    · exact h2.ne
    · exact h1.ne'
  refine ⟨m, hw, hout, fun htop => ?_⟩
  obtain ⟨hx, hfl, hnx, huf⟩ := hin htop
  exact ⟨hx, hfl, hnx.trans (iff_of_true (hne hh.low.1 hh.high.1) (hne hh.low.2 hh.high.2)), huf⟩

/-- Some step is the rounded magnitude. -/
theorem exists_roundsOn (L : Layout) (hv : 0 ≤ v) : ∃ m, RoundsOn L.size r neg v draw m := by
  classical
  have hex : ∃ m : Nat, v < L.size m := by
    obtain ⟨m, hm⟩ := exists_nat_gt v
    exact ⟨m, hm.trans_le (by exact_mod_cast (size_strictMono L).le_apply)⟩
  obtain ⟨k, hk⟩ : ∃ k, Nat.find hex = k + 1 := Nat.exists_eq_succ_of_ne_zero fun h0 => by
    have := Nat.find_spec hex
    rw [h0, size_zero, Nat.cast_zero] at this
    exact absurd this (not_lt.mpr hv)
  have hlow := Nat.find_min hex (by omega : k < Nat.find hex)
  have hhigh := Nat.find_spec hex
  rw [hk] at hhigh
  exact ⟨_, roundsOn_ite (size_strictMono L) (not_lt.mp hlow) hhigh⟩

/-- Magnitudes past the largest finite number have one result. -/
theorem Gives.of_huge (h : Gives L r t neg v draw x) (hr : r ≠ .rs) (hv : (L.size (L.top + 1) : ℝ) ≤ v)
    (hw : (L.size (L.top + 1) : ℝ) ≤ w) :
    Gives L r t neg w draw x := by
  obtain ⟨m, hm, hout, -⟩ := h
  obtain ⟨n, hn⟩ := exists_roundsOn (r := r) (neg := neg) (draw := draw) L ((Nat.cast_nonneg _).trans hw)
  have htop := hn.ge_of_size_le (size_strictMono L) hr hw
  exact ⟨n, hn, fun _ => hout (hm.ge_of_size_le (size_strictMono L) hr hv), fun h => absurd h (not_le.mpr htop)⟩

/-- Magnitudes below half the smallest number have one result. -/
theorem Gives.of_tiny (h : Gives L r t neg v draw x) (hr : r ≠ .rs) (hv : 0 < v ∧ v < 1 / 2) (hw : 0 < w ∧ w < 1 / 2) :
    Gives L r t neg w draw x := by
  have h1 : L.size (0 + 1) = 1 := by
    have := size_binade (L := L) (j := 0) (k := 1) (.inl rfl) Nat.one_le_two_pow
    simpa using this
  refine h.of_sameHalf (k := 0) hr ⟨by simpa using ⟨hv.1, hw.1⟩, ?_, .inl ?_⟩
  · rw [h1]
    constructor <;> push_cast <;> linarith [hv.2, hw.2]
  · rw [h1, size_zero]
    constructor <;> push_cast <;> linarith [hv.2, hw.2]

/-- What lies between two magnitudes is rounded inexactly. -/
theorem nx_round {f : FloatFmt} {y : Mag} (h : y.inexact = true) : (f.round neg y r t draw).2.nx = true := by
  have hround (u : Int) : (y.roundAt u neg r draw).2 = true := by
    rw [Mag.roundAt]
    split
    · exact h
    · simp [h]
  have hmag : (f.roundMag y neg r draw).2 = true := by
    rw [FloatFmt.roundMag, if_neg (by simp [h])]
    exact hround _
  simp only [FloatFmt.round]
  split
  · rfl
  · exact hmag

end
end Sys2Proof.Claims
end

section
/-! SUPPORT. The error of the powers of two (R158). -/

namespace Sys2Proof.Claims

open Sys2Proof.Machine

/-! ### Rounding errors of the powers of two (R158) -/

section
variable {c C a A : ℝ} {i k : ℕ}

/-- The units of the transcendental functions' fractions. -/
noncomputable def ulps : ℝ := 2 ^ fbits

theorem ulps_pos : 0 < ulps := by unfold ulps; positivity

/-- z is at most w, and below it by no more than k parts in 2^192. -/
def WithinParts (k : ℕ) (z w : ℝ) : Prop := z ≤ w ∧ w * (1 - k / ulps) ≤ z

/-- A number less 1 is within one more part. -/
theorem WithinParts.of_floor {z z' w : ℝ} (h : WithinParts k z w) (hw : ulps ≤ w) (hle : z' ≤ z) (hlt : z < z' + 1) :
    WithinParts (k + 1) z' w := by
  refine ⟨hle.trans h.1, ?_⟩
  have h1 : 1 ≤ w / ulps := (one_le_div ulps_pos).mpr hw
  have h2 : w * (1 - ((k + 1 : ℕ) : ℝ) / ulps) = w * (1 - k / ulps) - w / ulps := by push_cast; ring
  rw [h2]
  linarith [h.2]

theorem WithinParts.sqrt (h : WithinParts k c C) (hC : ulps ≤ C) : WithinParts k (√(c * ulps)) (√(C * ulps)) := by
  have hu := ulps_pos
  refine ⟨Real.sqrt_le_sqrt (mul_le_mul_of_nonneg_right h.1 hu.le), ?_⟩
  obtain hk | hk := le_total (1 - k / ulps) 0
  · exact (mul_nonpos_of_nonneg_of_nonpos (Real.sqrt_nonneg _) hk).trans (Real.sqrt_nonneg _)
  · have hk1 : 1 - k / ulps ≤ 1 := sub_le_self _ (by positivity)
    refine Real.le_sqrt_of_sq_le ?_
    have hC0 : 0 ≤ C * ulps := mul_nonneg (hu.le.trans hC) hu.le
    calc (√(C * ulps) * (1 - k / ulps)) ^ 2 = C * ulps * (1 - k / ulps) ^ 2 := by rw [mul_pow, Real.sq_sqrt hC0]
      _ ≤ C * ulps * (1 - k / ulps) := by
        refine mul_le_mul_of_nonneg_left ?_ hC0
        rw [sq]
        exact mul_le_of_le_one_left hk hk1
      _ = C * (1 - k / ulps) * ulps := by ring
      _ ≤ c * ulps := mul_le_mul_of_nonneg_right h.2 hu.le

theorem WithinParts.mul (ha : WithinParts i a A) (hc : WithinParts k c C) (ha0 : 0 ≤ a) (hc0 : 0 ≤ c) (hA : 0 ≤ A) (hC : 0 ≤ C) :
    WithinParts (i + k) (a * c / ulps) (A * C / ulps) := by
  have hu := ulps_pos
  refine ⟨by gcongr; exacts [ha.1, hc.1], ?_⟩
  have hsum : 1 - ((i + k : ℕ) : ℝ) / ulps = 1 - i / ulps - k / ulps := by push_cast; ring
  have hi : 0 ≤ (i : ℝ) / ulps := by positivity
  have hk : 0 ≤ (k : ℝ) / ulps := by positivity
  rw [hsum, div_mul_eq_mul_div]
  refine div_le_div_of_nonneg_right ?_ hu.le
  obtain hneg | hpos := le_total (1 - i / ulps - k / ulps) 0
  · exact (mul_nonpos_of_nonneg_of_nonpos (mul_nonneg hA hC) hneg).trans (mul_nonneg ha0 hc0)
  · calc A * C * (1 - i / ulps - k / ulps) ≤ A * C * ((1 - i / ulps) * (1 - k / ulps)) := by
          refine mul_le_mul_of_nonneg_left ?_ (mul_nonneg hA hC)
          nlinarith [mul_nonneg hi hk]
      _ = A * (1 - i / ulps) * (C * (1 - k / ulps)) := by ring
      _ ≤ a * c := mul_le_mul ha.2 hc.2 (mul_nonneg hC (by linarith)) ha0

/-- The number of units of a power of two, 2^g. -/
noncomputable def upow (g : ℝ) : ℝ := ulps * 2 ^ g

theorem upow_pos (g : ℝ) : 0 < upow g := mul_pos ulps_pos (Real.rpow_pos_of_pos two_pos g)

theorem ulps_le_upow {g : ℝ} (hg : 0 ≤ g) : ulps ≤ upow g :=
  le_mul_of_one_le_right ulps_pos.le (Real.one_le_rpow one_le_two hg)

theorem sqrt_upow (g : ℝ) : √(upow g * ulps) = upow (g / 2) := by
  have hsq : upow g * ulps = upow (g / 2) ^ 2 := by
    rw [upow, upow, mul_pow, ← Real.rpow_natCast (2 ^ (g / 2)), ← Real.rpow_mul zero_le_two]
    norm_num
    ring
  rw [hsq, Real.sqrt_sq (upow_pos _).le]

theorem upow_mul (g h : ℝ) : upow g * upow h / ulps = upow (g + h) := by
  have := ulps_pos.ne'
  rw [upow, upow, upow, Real.rpow_add two_pos]
  field_simp

theorem WithinParts.mono (h : WithinParts i c C) (hC : 0 ≤ C) (hik : i ≤ k) : WithinParts k c C := by
  refine ⟨h.1, h.2.trans' (mul_le_mul_of_nonneg_left (sub_le_sub_left ?_ 1) hC)⟩
  exact div_le_div_of_nonneg_right (by exact_mod_cast hik) ulps_pos.le

theorem natCast_ulps : ((2 ^ fbits : Nat) : ℝ) = ulps := by rw [ulps, Nat.cast_pow, Nat.cast_ofNat]

/-- The next root. -/
theorem withinParts_isqrt {c : Nat} {g : ℝ} (hg : 0 ≤ g) (h : WithinParts k c (upow g)) :
    WithinParts (k + 1) (isqrt (c * 2 ^ fbits)) (upow (g / 2)) := by
  have hs := h.sqrt (ulps_le_upow hg)
  rw [sqrt_upow, ← natCast_ulps, ← Nat.cast_mul] at hs
  rw [isqrt_eq_sqrt]
  exact hs.of_floor (ulps_le_upow (div_nonneg hg zero_le_two)) Real.nat_sqrt_le_real_sqrt Real.real_sqrt_lt_nat_sqrt_succ

/-- The product of a power and a root. -/
theorem withinParts_mul_div {x c : Nat} {g h : ℝ} (hg : 0 ≤ g) (hh : 0 ≤ h) (hx : WithinParts i x (upow g)) (hc : WithinParts k c (upow h)) :
    WithinParts (i + k + 1) ((x * c / 2 ^ fbits : Nat) : ℝ) (upow (g + h)) := by
  have hm := hx.mul hc (Nat.cast_nonneg _) (Nat.cast_nonneg _) (upow_pos g).le (upow_pos h).le
  rw [upow_mul, ← natCast_ulps, ← Nat.cast_mul] at hm
  have hfloor := Nat.lt_succ_floor (((x * c : Nat) : ℝ) / ((2 ^ fbits : Nat) : ℝ))
  rw [Nat.floor_div_eq_div, Nat.cast_succ] at hfloor
  exact hm.of_floor (ulps_le_upow (add_nonneg hg hh)) Nat.cast_div_le hfloor

theorem pow2Frac_of_testBit {n d : Nat} (c x : Nat) (h : n.testBit d = true) : pow2Frac n (d + 1) c x =
    pow2Frac n d (isqrt (c * 2 ^ fbits)) (x * isqrt (c * 2 ^ fbits) / 2 ^ fbits) := by
  simp only [pow2Frac, h, if_true]

theorem pow2Frac_of_not_testBit {n d : Nat} (c x : Nat) (h : n.testBit d = false) : pow2Frac n (d + 1) c x =
    pow2Frac n d (isqrt (c * 2 ^ fbits)) x := by
  simp only [pow2Frac, h, if_false, Bool.false_eq_true]

/-- The product of the roots that a fraction's bits select. -/
theorem withinParts_pow2Frac (n d : Nat) {c x : Nat} {i k : Nat} {g h : ℝ} (hg : 0 ≤ g) (hh : 0 ≤ h)
    (hc : WithinParts i c (upow g)) (hx : WithinParts k x (upow h)) :
    WithinParts (k + d * (i + d + 1)) (pow2Frac n d c x) (upow (h + g * ((n % 2 ^ d : Nat) / 2 ^ d))) := by
  induction d generalizing c x i k g h with
  | zero => simpa [pow2Frac, Nat.mod_one] using hx
  | succ d ih =>
    have hc' := withinParts_isqrt hg hc
    rw [Nat.mod_pow_succ, ← Nat.toNat_testBit]
    have hpow : ((2 : ℝ) ^ d) ≠ 0 := by positivity
    cases hbit : n.testBit d with
    | true =>
      have hw := ih (div_nonneg hg zero_le_two) (add_nonneg hh (div_nonneg hg zero_le_two)) hc'
        (withinParts_mul_div hh (div_nonneg hg zero_le_two) hx hc')
      have hexp : h + g / 2 + g / 2 * ((n % 2 ^ d : Nat) / 2 ^ d) = h + g * ((n % 2 ^ d + 2 ^ d * true.toNat : Nat) / 2 ^ (d + 1)) := by
        simp only [Bool.toNat_true]
        push_cast
        field_simp
        ring
      rw [hexp] at hw
      rw [pow2Frac_of_testBit c x hbit]
      exact hw.mono (upow_pos _).le (by ring_nf; omega)
    | false =>
      have hw := ih (div_nonneg hg zero_le_two) hh hc' hx
      have hexp : h + g / 2 * ((n % 2 ^ d : Nat) / 2 ^ d) = h + g * ((n % 2 ^ d + 2 ^ d * false.toNat : Nat) / 2 ^ (d + 1)) := by
        simp only [Bool.toNat_false]
        push_cast
        field_simp
        ring
      rw [hexp] at hw
      rw [pow2Frac_of_not_testBit c x hbit]
      exact hw.mono (upow_pos _).le (by ring_nf; omega)

end
end Sys2Proof.Claims
end

section
/-! SUPPORT. fexp2 of finite numbers (R158). -/

namespace Sys2Proof.Claims

open Sys2Proof.Machine

/-! ### Powers of two (R158) -/

section
variable {a : Word} {r : Rm} {neg : Bool} {m j d : Nat}

/-- Halfway between two neighbours. -/
theorem holds_half (mag : Nat) (exp : Int) : Holds { mag := mag, exp := exp, inexact := true } (((mag : ℝ) + 1 / 2) * 2 ^ exp) := by
  have hp : (0 : ℝ) < 2 ^ exp := by positivity
  exact ⟨nofun, fun _ => ⟨mul_lt_mul_of_pos_right (by linarith) hp, mul_lt_mul_of_pos_right (by linarith) hp⟩⟩

/-- The rounded value of a magnitude that is exact, or of one between two neighbours. -/
theorem gives_single_exact (mag : Nat) (exp : Int) : Gives single r .dflt neg (mag * 2 ^ exp * 2 ^ 149) 0
    (fF32.round neg { mag := mag, exp := exp } r) :=
  gives_round formatOf_single (holds_exact mag exp) nofun (fun _ => rfl) (by decide)

theorem gives_single_half (hr : r ≠ .rs) {mag : Nat} (hmag : 2 ^ 24 ≤ mag) (exp : Int) :
    Gives single r .dflt neg (((mag : ℝ) + 1 / 2) * 2 ^ exp * 2 ^ 149) 0 (fF32.round neg { mag := mag, exp := exp, inexact := true } r) :=
  gives_round formatOf_single (holds_half mag exp) (fun _ => hmag) (fun h => absurd h hr) (by decide)

/-- A number's mantissa with its sign. -/
def signedInt (neg : Bool) (m : Nat) : Int := if neg then -(m : Int) else m

theorem natAbs_signedInt (neg : Bool) (m : Nat) : (signedInt neg m).natAbs = m := by
  cases neg
  · exact Int.natAbs_natCast m
  · exact Int.natAbs_neg m

theorem fixed32_eq_signedInt (h : abs32 a = m * 2 ^ j) : fixed32 a = signedInt (neg32 a) m * 2 ^ j := by
  rw [fixed32_eq_ite, h, signedInt]
  split <;> push_cast <;> ring

theorem func1_exp2_eq {e : Int} (hd : fF32.decode a.toNat = .fin (neg32 a) m e) (hm : m ≠ 0) :
    func1 .exp2 a r = fF32.round false (exp2Mag (neg32 a) m e) r := by
  simp only [func1, hd, if_neg hm]

/-! #### Of a whole number -/

theorem exp2Mag_natCast (neg : Bool) (m i : Nat) :
    exp2Mag neg m i = { mag := 1, exp := signedInt neg (min (m * 2 ^ min i 16) 1024) } := by
  have hi : (min (i : Int) 16).toNat = min i 16 := by omega
  rw [exp2Mag, if_pos (Int.natCast_nonneg i), hi]
  rfl

/-- Far from 0, the powers of two round as the 1024th does. -/
theorem gives_two_zpow_of_large {z : Int} {x : Nat × FFlags} (hr : r ≠ .rs) (hz : 1024 ≤ z.natAbs)
    (h : Gives single r .dflt false (2 ^ 149 * 2 ^ (signedInt (decide (z < 0)) 1024)) 0 x) :
    Gives single r .dflt false (2 ^ 149 * 2 ^ z) 0 x := by
  by_cases hneg : z < 0
  · have hsmall {y : Int} (hy : y ≤ -1024) : (0 : ℝ) < 2 ^ 149 * 2 ^ y ∧ (2 : ℝ) ^ 149 * 2 ^ y < 1 / 2 := by
      refine ⟨by positivity, ?_⟩
      calc (2 : ℝ) ^ 149 * 2 ^ y ≤ 2 ^ 149 * 2 ^ (-151 : Int) := by
            gcongr
            · exact one_le_two
            · omega
        _ < 1 / 2 := by norm_num
    exact h.of_tiny hr (hsmall (by rw [decide_eq_true hneg]; decide)) (hsmall (by omega))
  · have hlarge {y : Int} (hy : 1024 ≤ y) : (single.size (single.top + 1) : ℝ) ≤ 2 ^ 149 * 2 ^ y := by
      rw [size_top_succ]
      calc ((2 ^ 24 * 2 ^ 253 : Nat) : ℝ) = 2 ^ 149 * 2 ^ (128 : Int) := by push_cast; norm_num
        _ ≤ 2 ^ 149 * 2 ^ y := by
            gcongr
            · exact one_le_two
            · omega
    exact h.of_huge hr (hlarge (by rw [decide_eq_false hneg]; decide)) (hlarge (by omega))

/-- A number of an exponent that is not negative. -/
theorem gives_exp2Mag_natCast (hr : r ≠ .rs) (hm : m ≠ 0) (neg : Bool) (i : Nat) :
    Gives single r .dflt false (2 ^ 149 * 2 ^ (signedInt neg m * 2 ^ i)) 0 (fF32.round false (exp2Mag neg m i) r) := by
  have hg := gives_single_exact (r := r) (neg := false) 1 (signedInt neg (min (m * 2 ^ min i 16) 1024))
  rw [← exp2Mag_natCast, Nat.cast_one, one_mul, mul_comm] at hg
  have hz : signedInt neg m * 2 ^ i = signedInt neg (m * 2 ^ i) := by
    cases neg <;> simp [signedInt]
  rw [hz]
  obtain hle | hgt := le_total (m * 2 ^ i) 1024
  · have hi : i ≤ 10 := by
      by_contra h
      have : 2 ^ 11 ≤ m * 2 ^ i := (Nat.pow_le_pow_right two_pos (by omega)).trans (Nat.le_mul_of_pos_left _ (Nat.pos_of_ne_zero hm))
      omega
    rwa [min_eq_left (by omega : i ≤ 16), min_eq_left hle] at hg
  · have hmin : 1024 ≤ m * 2 ^ min i 16 := by
      obtain h | h := le_total i 16
      · rwa [min_eq_left h]
      · rw [min_eq_right h]
        exact (by decide : 1024 ≤ 2 ^ 16).trans (Nat.le_mul_of_pos_left _ (Nat.pos_of_ne_zero hm))
    rw [min_eq_right hmin] at hg
    refine gives_two_zpow_of_large hr (by rwa [natAbs_signedInt]) ?_
    have hsign : decide (signedInt neg (m * 2 ^ i) < 0) = neg := by
      cases neg with
      | false => exact decide_eq_false (not_lt.mpr (Int.natCast_nonneg _))
      | true => exact decide_eq_true (show -((m * 2 ^ i : Nat) : Int) < 0 by omega)
    rwa [hsign]

/-! #### Of a number with a fraction -/

/-- The function's whole part and fraction, in units of 2^−d. -/
def expWhole (neg : Bool) (m d : Nat) : Int := signedInt neg m / 2 ^ d
def expFrac (neg : Bool) (m d : Nat) : Nat := (signedInt neg m - expWhole neg m d * 2 ^ d).toNat

theorem natCast_expFrac (neg : Bool) (m d : Nat) : (expFrac neg m d : Int) = signedInt neg m % 2 ^ d := by
  rw [expFrac, expWhole, mul_comm, ← Int.emod_def, Int.toNat_of_nonneg (Int.emod_nonneg _ (pow_ne_zero d two_ne_zero))]

theorem signedInt_eq (neg : Bool) (m d : Nat) : signedInt neg m = expWhole neg m d * 2 ^ d + expFrac neg m d := by
  rw [natCast_expFrac, expWhole, Int.ediv_mul_add_emod]

theorem expFrac_lt (neg : Bool) (m d : Nat) : expFrac neg m d < 2 ^ d := by
  have h := Int.emod_lt_of_pos (signedInt neg m) (by positivity : (0 : Int) < 2 ^ d)
  rw [← natCast_expFrac] at h
  exact_mod_cast h

theorem expFrac_eq_zero_iff : expFrac neg m d = 0 ↔ ∃ n : Int, signedInt neg m = n * 2 ^ d := by
  rw [← Int.natCast_eq_zero, natCast_expFrac, ← Int.dvd_iff_emod_eq_zero, dvd_iff_exists_eq_mul_left]

/-- A number near 0. -/
theorem exp2Mag_of_small (h : (Nat.log2 m : Int) - d < -64) (neg : Bool) :
    exp2Mag neg m (-(d : Int)) = { mag := if neg then 2 ^ 128 - 1 else 2 ^ 128, exp := -128, inexact := true } := by
  simp only [exp2Mag, if_neg (by omega : ¬0 ≤ -(d : Int)), if_pos (by omega : (Nat.log2 m : Int) + -(d : Int) < -64)]

theorem exp2Mag_of_whole (hd : d ≠ 0) (h : ¬(Nat.log2 m : Int) - d < -64) (hf : expFrac neg m d = 0) :
    exp2Mag neg m (-(d : Int)) = { mag := 1, exp := expWhole neg m d } := by
  have hf' : ((if neg = true then -(m : Int) else m) - (if neg = true then -(m : Int) else m) / 2 ^ d * 2 ^ d).toNat = 0 := hf
  simp only [exp2Mag, if_neg (by omega : ¬0 ≤ -(d : Int)), if_neg (by omega : ¬(Nat.log2 m : Int) + -(d : Int) < -64), neg_neg,
    Int.toNat_natCast, if_pos hf']
  rfl

theorem exp2Mag_of_frac (hd : d ≠ 0) (h : ¬(Nat.log2 m : Int) - d < -64) (hf : expFrac neg m d ≠ 0) :
    exp2Mag neg m (-(d : Int)) =
      { mag := pow2Frac (expFrac neg m d) d (2 ^ (fbits + 1)) (2 ^ fbits), exp := expWhole neg m d - fbits, inexact := true } := by
  have hf' : ¬((if neg = true then -(m : Int) else m) - (if neg = true then -(m : Int) else m) / 2 ^ d * 2 ^ d).toNat = 0 := hf
  simp only [exp2Mag, if_neg (by omega : ¬0 ≤ -(d : Int)), if_neg (by omega : ¬(Nat.log2 m : Int) + -(d : Int) < -64), neg_neg,
    Int.toNat_natCast, if_neg hf']
  rfl

/-- Between 2^−64 below 0 and as much above it. -/
theorem two_rpow_near_one {y : ℝ} (h : |y| < 1 / 2 ^ 64) :
    (0 < y → 1 < (2 : ℝ) ^ y ∧ (2 : ℝ) ^ y < 1 + 1 / 2 ^ 64) ∧ (y < 0 → (2 : ℝ) ^ y < 1 ∧ 1 - 1 / 2 ^ 64 < (2 : ℝ) ^ y) := by
  have hbound {z : ℝ} (hz : 0 < z) (h : z < 1 / 2 ^ 64) : (2 : ℝ) ^ z < 1 + 1 / 2 ^ 64 := by
    have hb := rpow_one_add_le_one_add_mul_self (by norm_num : (-1 : ℝ) ≤ 1) hz.le (h.le.trans (by norm_num))
    rw [one_add_one_eq_two, mul_one] at hb
    linarith
  refine ⟨fun hy => ⟨Real.one_lt_rpow one_lt_two hy, hbound hy (by rwa [abs_of_pos hy] at h)⟩, fun hy => ⟨?_, ?_⟩⟩
  · exact Real.rpow_lt_one_of_one_lt_of_neg one_lt_two hy
  · have hb := hbound (neg_pos.mpr hy) (by rwa [abs_of_neg hy] at h)
    have hpos : (0 : ℝ) < 2 ^ y := Real.rpow_pos_of_pos two_pos y
    rw [Real.rpow_neg zero_le_two, inv_lt_iff_one_lt_mul₀ hpos] at hb
    nlinarith

theorem size_below_one : single.size 0x3F7FFFFF = 2 ^ 149 - 2 ^ 125 := by decide +kernel
theorem size_one : single.size 0x3F800000 = 2 ^ 149 := by decide +kernel
theorem size_above_one : single.size 0x3F800001 = 2 ^ 149 + 2 ^ 126 := by decide +kernel

theorem sameHalf_above_one {v w : ℝ} (hv : (2 : ℝ) ^ 149 < v ∧ v < 2 ^ 149 + 2 ^ 125) (hw : (2 : ℝ) ^ 149 < w ∧ w < 2 ^ 149 + 2 ^ 125) :
    SameHalf single.size 0x3F800000 v w := by
  have h1 : (single.size 0x3F800000 : ℝ) = 2 ^ 149 := by rw [size_one]; norm_num
  have h2 : (single.size (0x3F800000 + 1) : ℝ) = 2 ^ 149 + 2 ^ 126 := by rw [size_above_one]; norm_num
  refine ⟨by rw [h1]; exact ⟨hv.1, hw.1⟩, ?_, .inl ?_⟩
  · rw [h2]
    constructor <;> linarith [hv.2, hw.2]
  · rw [h1, h2]
    constructor <;> linarith [hv.2, hw.2]

theorem sameHalf_below_one {v w : ℝ} (hv : (2 : ℝ) ^ 149 - 2 ^ 124 < v ∧ v < 2 ^ 149) (hw : (2 : ℝ) ^ 149 - 2 ^ 124 < w ∧ w < 2 ^ 149) :
    SameHalf single.size 0x3F7FFFFF v w := by
  have h1 : (single.size 0x3F7FFFFF : ℝ) = 2 ^ 149 - 2 ^ 125 := by rw [size_below_one]; norm_num
  have h2 : (single.size (0x3F7FFFFF + 1) : ℝ) = 2 ^ 149 := by rw [size_one]; norm_num
  refine ⟨?_, by rw [h2]; exact ⟨hv.2, hw.2⟩, .inr ?_⟩
  · rw [h1]
    constructor <;> linarith [hv.1, hw.1]
  · rw [h1, h2]
    constructor <;> linarith [hv.1, hw.1]

theorem gives_exp2Mag_of_small (hr : r ≠ .rs) (hm : m ≠ 0) (h : (Nat.log2 m : Int) - d < -64) (neg : Bool) :
    Gives single r .dflt false (2 ^ 149 * (2 : ℝ) ^ ((signedInt neg m : ℝ) / 2 ^ d)) 0
      (fF32.round false (exp2Mag neg m (-(d : Int))) r) := by
  have hlt : (m : ℝ) / 2 ^ d < 1 / 2 ^ 64 := by
    rw [div_lt_div_iff₀ (by positivity) (by positivity), one_mul]
    have h1 : m * 2 ^ 64 < 2 ^ (Nat.log2 m + 1) * 2 ^ 64 := Nat.mul_lt_mul_of_pos_right Nat.lt_log2_self (by norm_num)
    rw [← pow_add] at h1
    exact_mod_cast h1.trans_le (Nat.pow_le_pow_right two_pos (by omega : Nat.log2 m + 1 + 64 ≤ d))
  have hpos : 0 < (m : ℝ) / 2 ^ d := by positivity
  rw [exp2Mag_of_small h]
  cases neg with
  | false =>
    have hg := gives_single_half (r := r) (neg := false) hr (by norm_num : 2 ^ 24 ≤ 2 ^ 128) (-128)
    rw [show (((2 ^ 128 : Nat) : ℝ) + 1 / 2) * 2 ^ (-128 : Int) * 2 ^ 149 = 2 ^ 149 + 2 ^ 20 by norm_num] at hg
    obtain ⟨h1, h2⟩ := (two_rpow_near_one (by rwa [abs_of_pos hpos])).1 hpos
    refine hg.of_sameHalf hr (sameHalf_above_one ⟨by norm_num, by norm_num⟩ ?_)
    rw [show signedInt false m = m from rfl, Int.cast_natCast]
    constructor <;> linarith
  | true =>
    have hg := gives_single_half (r := r) (neg := false) hr (by norm_num : 2 ^ 24 ≤ 2 ^ 128 - 1) (-128)
    rw [show (((2 ^ 128 - 1 : Nat) : ℝ) + 1 / 2) * 2 ^ (-128 : Int) * 2 ^ 149 = 2 ^ 149 - 2 ^ 20 by norm_num] at hg
    obtain ⟨h1, h2⟩ := (two_rpow_near_one (by rwa [abs_neg, abs_of_pos hpos])).2 (neg_neg_of_pos hpos)
    refine hg.of_sameHalf hr (sameHalf_below_one ⟨by norm_num, by norm_num⟩ ?_)
    rw [show signedInt true m = -(m : Int) from rfl, Int.cast_neg, Int.cast_natCast, neg_div]
    constructor <;> linarith

theorem WithinParts.abs_add_half_sub_le {k : Nat} {z w : ℝ} (h : WithinParts k z w) (hw : ulps ≤ w) :
    |z + 1 / 2 - w| ≤ w * ((k + 1) / ulps) := by
  obtain ⟨h1, h2⟩ := h
  have hone : 1 ≤ w / ulps := (one_le_div ulps_pos).mpr hw
  have hk : w * (1 - k / ulps) = w - w * (k / ulps) := by ring
  have hk1 : w * ((k + 1) / ulps) = w * (k / ulps) + w / ulps := by ring
  have hk0 : 0 ≤ w * (k / ulps) := mul_nonneg (ulps_pos.le.trans hw) (div_nonneg k.cast_nonneg ulps_pos.le)
  rw [abs_le, hk1]
  constructor <;> linarith

theorem WithinParts.ulps_sub_le {k : Nat} {z w : ℝ} (h : WithinParts k z w) (hw : ulps ≤ w) (hk : (k : ℝ) ≤ ulps) : ulps - k ≤ z :=
  calc ulps - k = ulps * (1 - k / ulps) := by field_simp [ulps_pos.ne']
    _ ≤ w * (1 - k / ulps) := mul_le_mul_of_nonneg_right hw (sub_nonneg.mpr ((div_le_one ulps_pos).mpr hk))
    _ ≤ z := h.2

theorem ulps_eq : ulps = 2 ^ 192 := rfl

theorem withinParts_upow_self (g : ℝ) : WithinParts 0 (upow g) (upow g) := ⟨le_rfl, by simp⟩

/-- The fraction's power of two. -/
theorem withinParts_frac (neg : Bool) (m : Nat) (hd : d ≤ 149) : WithinParts (149 * 150)
    (pow2Frac (expFrac neg m d) d (2 ^ (fbits + 1)) (2 ^ fbits) : Nat) (upow ((expFrac neg m d : ℝ) / 2 ^ d)) := by
  have h1 : ((2 ^ (fbits + 1) : Nat) : ℝ) = upow 1 := by rw [upow, Real.rpow_one, pow_succ, Nat.cast_mul, natCast_ulps, Nat.cast_ofNat]
  have h0 : ((2 ^ fbits : Nat) : ℝ) = upow 0 := by rw [upow, Real.rpow_zero, natCast_ulps, mul_one]
  have hroot : WithinParts 0 ((2 ^ (fbits + 1) : Nat) : ℝ) (upow 1) := by
    rw [h1]
    exact withinParts_upow_self 1
  have hprod : WithinParts 0 ((2 ^ fbits : Nat) : ℝ) (upow 0) := by
    rw [h0]
    exact withinParts_upow_self 0
  have h := withinParts_pow2Frac (expFrac neg m d) d zero_le_one le_rfl hroot hprod
  rw [Nat.mod_eq_of_lt (expFrac_lt neg m d), zero_add, one_mul, zero_add, zero_add] at h
  exact h.mono (upow_pos _).le (Nat.mul_le_mul hd (by omega))

/-- v is within a part in 2^100 of w. -/
def Near (v w : ℝ) : Prop := |v - w| * 2 ^ 100 ≤ |w|

theorem Near.mul_right {v w : ℝ} (h : Near v w) (s : ℝ) : Near (v * s) (w * s) := by
  rw [Near, ← sub_mul, abs_mul, abs_mul, mul_right_comm]
  exact mul_le_mul_of_nonneg_right h (abs_nonneg s)

theorem near_self (w : ℝ) : Near w w := by simp [Near]

theorem gives_exp2Mag_of_frac (hr : r ≠ .rs) (h0 : d ≠ 0) (hd : d ≤ 149) (h : ¬(Nat.log2 m : Int) - d < -64)
    (hf : expFrac neg m d ≠ 0) :
    ∃ v : ℝ, Near v (2 ^ 149 * (2 : ℝ) ^ ((signedInt neg m : ℝ) / 2 ^ d)) ∧
      Gives single r .dflt false v 0 (fF32.round false (exp2Mag neg m (-(d : Int))) r) := by
  have hw := withinParts_frac neg m hd
  have hu := ulps_le_upow (by positivity : 0 ≤ (expFrac neg m d : ℝ) / 2 ^ d)
  have hx : (signedInt neg m : ℝ) / 2 ^ d = (expFrac neg m d : ℝ) / 2 ^ d + expWhole neg m d := by
    rw [signedInt_eq neg m d]
    push_cast
    field_simp
    ring
  rw [exp2Mag_of_frac h0 h hf]
  generalize pow2Frac (expFrac neg m d) d (2 ^ (fbits + 1)) (2 ^ fbits) = z at hw
  have hbig : 2 ^ 24 ≤ z := by
    have h := hw.ulps_sub_le hu (by rw [ulps_eq]; norm_num)
    rw [ulps_eq] at h
    exact_mod_cast (by norm_num : (2 : ℝ) ^ 24 ≤ 2 ^ 192 - (149 * 150 : Nat)).trans h
  refine ⟨_, ?_, gives_single_half hr hbig _⟩
  have hS : (2 : ℝ) ^ 149 * (2 : ℝ) ^ ((signedInt neg m : ℝ) / 2 ^ d) =
      upow ((expFrac neg m d : ℝ) / 2 ^ d) * (2 ^ (expWhole neg m d - fbits) * 2 ^ 149) := by
    have hp : (0 : ℝ) < 2 ^ fbits := by positivity
    rw [hx, Real.rpow_add two_pos, Real.rpow_intCast, upow, ulps, zpow_sub₀ two_ne_zero, zpow_natCast]
    field_simp
  rw [hS, mul_assoc]
  refine Near.mul_right ?_ _
  rw [Near, abs_of_pos (upow_pos _)]
  have hsmall : (((149 * 150 : Nat) : ℝ) + 1) / ulps * 2 ^ 100 ≤ 1 := by
    rw [ulps_eq]
    norm_num
  calc |(z : ℝ) + 1 / 2 - upow ((expFrac neg m d : ℝ) / 2 ^ d)| * 2 ^ 100
      ≤ upow ((expFrac neg m d : ℝ) / 2 ^ d) * ((((149 * 150 : Nat) : ℝ) + 1) / ulps) * 2 ^ 100 :=
        mul_le_mul_of_nonneg_right (hw.abs_add_half_sub_le hu) (by positivity)
    _ ≤ upow ((expFrac neg m d : ℝ) / 2 ^ d) := by
        rw [mul_assoc]
        exact mul_le_of_le_one_right (upow_pos _).le hsmall

/-! #### fexp2 -/

/-- The exponent of a number is negative, or the number is whole. -/
theorem exp2_cases (h : finite32 a) (h0 : fixed32 a ≠ 0) : ∃ m : Nat, m ≠ 0 ∧
    ((∃ i : Nat, fixed32 a = signedInt (neg32 a) m * 2 ^ i * 2 ^ 149 ∧ func1 .exp2 a r = fF32.round false (exp2Mag (neg32 a) m i) r) ∨
      ∃ d : Nat, d ≤ 149 ∧ d ≠ 0 ∧ fixed32 a * 2 ^ d = signedInt (neg32 a) m * 2 ^ 149 ∧
        func1 .exp2 a r = fF32.round false (exp2Mag (neg32 a) m (-(d : Int))) r) := by
  obtain ⟨m, j, hdec, habs, -⟩ := exists_decode32 h
  have hm : m ≠ 0 := fun hm => abs32_ne_zero_iff.mpr h0 (by rw [habs, hm, Nat.zero_mul])
  refine ⟨m, hm, ?_⟩
  rw [fixed32_eq_signedInt habs, func1_exp2_eq hdec hm]
  obtain hj | hj := le_or_gt 149 j
  · exact .inl ⟨j - 149, by rw [mul_assoc, ← pow_add, Nat.sub_add_cancel hj], by rw [Nat.cast_sub hj, Nat.cast_ofNat]⟩
  · refine .inr ⟨149 - j, Nat.sub_le _ _, by omega, by rw [mul_assoc, ← pow_add, Nat.add_sub_cancel' hj.le], ?_⟩
    rw [Nat.cast_sub hj.le, Nat.cast_ofNat, neg_sub]

/-- A number in units of 2^−d is whole where its fraction is 0. -/
theorem fixed32_eq_mul_iff (h : fixed32 a * 2 ^ d = signedInt neg m * 2 ^ 149) (n : Int) :
    fixed32 a = n * 2 ^ 149 ↔ signedInt neg m = n * 2 ^ d := by
  have h1 : (2 : Int) ^ d ≠ 0 := by positivity
  have h2 : (2 : Int) ^ 149 ≠ 0 := by positivity
  rw [← mul_left_inj' h1, h, mul_right_comm, mul_left_inj' h2]

theorem gives_exp2_of_whole (hr : r ≠ .rs) (h : finite32 a) (h0 : fixed32 a ≠ 0) {n : Int} (hn : fixed32 a = n * 2 ^ 149) :
    Gives single r .dflt false (2 ^ 149 * (2 : ℝ) ^ n) 0 (func1 .exp2 a r) := by
  obtain ⟨m, hm, ⟨i, hi, hx⟩ | ⟨d, hd, hd0, hfix, hx⟩⟩ := exp2_cases (r := r) h h0
  · rw [hx, show n = signedInt (neg32 a) m * 2 ^ i from mul_right_cancel₀ (by positivity) (hn.symm.trans hi)]
    exact gives_exp2Mag_natCast hr hm _ i
  · have hn' := (fixed32_eq_mul_iff hfix n).mp hn
    have hlog : d ≤ Nat.log2 m := by
      rw [Nat.le_log2 hm, ← natAbs_signedInt (neg32 a) m, hn', Int.natAbs_mul, Int.natAbs_pow]
      refine Nat.le_mul_of_pos_left _ (Int.natAbs_pos.mpr fun hz => h0 ?_)
      rw [hn, hz, Int.zero_mul]
    have hwhole : expWhole (neg32 a) m d = n := by rw [expWhole, hn', Int.mul_ediv_cancel _ (by positivity)]
    rw [hx, exp2Mag_of_whole hd0 (by omega) (expFrac_eq_zero_iff.mpr ⟨n, hn'⟩), hwhole]
    have hg := gives_single_exact (r := r) (neg := false) 1 n
    rwa [Nat.cast_one, one_mul, mul_comm] at hg

/-- A number that is not whole: its power is inexact. -/
theorem exp2_of_not_whole (h : finite32 a) (h0 : fixed32 a ≠ 0) (hn : ∀ n : Int, fixed32 a ≠ n * 2 ^ 149) :
    ∃ m d : Nat, m ≠ 0 ∧ d ≤ 149 ∧ d ≠ 0 ∧ expFrac (neg32 a) m d ≠ 0 ∧
      (fixed32 a : ℝ) / 2 ^ 149 = (signedInt (neg32 a) m : ℝ) / 2 ^ d ∧
      func1 .exp2 a r = fF32.round false (exp2Mag (neg32 a) m (-(d : Int))) r := by
  obtain ⟨m, hm, ⟨i, hi, -⟩ | ⟨d, hd, hd0, hfix, hx⟩⟩ := exp2_cases (r := r) h h0
  · exact absurd hi (hn _)
  · refine ⟨m, d, hm, hd, hd0, fun hf => ?_, ?_, hx⟩
    · obtain ⟨n, hn'⟩ := expFrac_eq_zero_iff.mp hf
      exact hn n ((fixed32_eq_mul_iff hfix n).mpr hn')
    · rw [div_eq_div_iff (by positivity) (by positivity)]
      exact_mod_cast hfix

theorem gives_exp2 (hr : r ≠ .rs) (h : finite32 a) (h0 : fixed32 a ≠ 0) :
    ∃ v : ℝ, Near v (2 ^ 149 * (2 : ℝ) ^ ((fixed32 a : ℝ) / 2 ^ 149)) ∧ Gives single r .dflt false v 0 (func1 .exp2 a r) := by
  by_cases hn : ∃ n : Int, fixed32 a = n * 2 ^ 149
  · obtain ⟨n, hn⟩ := hn
    refine ⟨_, near_self _, ?_⟩
    have hx : (fixed32 a : ℝ) / 2 ^ 149 = n := by
      rw [div_eq_iff (by positivity)]
      exact_mod_cast hn
    rw [hx, Real.rpow_intCast]
    exact gives_exp2_of_whole hr h h0 hn
  · obtain ⟨m, d, hm, hd, hd0, hf, hval, hx⟩ := exp2_of_not_whole (r := r) h h0 (not_exists.mp hn)
    rw [hval, hx]
    by_cases hsmall : (Nat.log2 m : Int) - d < -64
    · exact ⟨_, near_self _, gives_exp2Mag_of_small hr hm hsmall _⟩
    · exact gives_exp2Mag_of_frac hr hd0 hd hsmall hf

theorem nx_exp2 (h : finite32 a) (h0 : fixed32 a ≠ 0) (hn : ∀ n : Int, fixed32 a ≠ n * 2 ^ 149) : (func1 .exp2 a r).2.nx = true := by
  obtain ⟨m, d, -, -, hd0, hf, -, hx⟩ := exp2_of_not_whole (r := r) h h0 hn
  rw [hx]
  refine nx_round ?_
  by_cases hsmall : (Nat.log2 m : Int) - d < -64
  · rw [exp2Mag_of_small hsmall]
  · rw [exp2Mag_of_frac hd0 hsmall hf]

end
end Sys2Proof.Claims
end

section
/-! O19 (R158): flog2 of finite numbers, and with fexp2's the two functions' one rounding. -/

namespace Sys2Proof.Claims

open Sys2Proof.Machine

/-! ### The bits of a logarithm (R158) -/

section
variable {x : ℝ} {y z n acc : Nat}

/-- The number 1 in units of 2^−384. -/
def unity : Nat := 2 ^ (2 * fbits)

theorem unity_pos : (0 : ℝ) < unity := by exact_mod_cast Nat.two_pow_pos _

theorem two_pow_fbits_le_unity : 2 ^ fbits ≤ unity := by
  rw [unity, two_mul, pow_add]
  exact Nat.le_mul_of_pos_left _ (Nat.two_pow_pos _)

/-- log2 of a number of those units. -/
noncomputable def logOf (x : ℝ) : ℝ := Real.logb 2 (x / unity)

theorem logOf_nonneg (h : (unity : ℝ) ≤ x) : 0 ≤ logOf x :=
  Real.logb_nonneg one_lt_two ((one_le_div unity_pos).mpr h)

theorem logOf_lt_one (h0 : 0 < x) (h : x < 2 * unity) : logOf x < 1 := by
  rw [logOf, Real.logb_lt_iff_lt_rpow one_lt_two (div_pos h0 unity_pos), Real.rpow_one, div_lt_iff₀ unity_pos]
  exact h

/-- The logarithm of a square, and of half a number. -/
theorem logOf_sq (h0 : x ≠ 0) : logOf (x * x / unity) = 2 * logOf x := by
  have hu := unity_pos.ne'
  rw [logOf, logOf, show x * x / unity / unity = (x / unity) ^ 2 by field_simp, Real.logb_pow]
  norm_num

theorem logOf_half (h0 : x ≠ 0) : logOf (x / 2) = logOf x - 1 := by
  have hu := unity_pos.ne'
  rw [logOf, logOf, div_right_comm, Real.logb_div (div_ne_zero h0 hu) two_ne_zero, Real.logb_self_eq_one one_lt_two]

/-- The logarithm of a number that lies between two neighbours. -/
theorem logOf_between (h : unity ≤ z) (h1 : (z : ℝ) ≤ x) (h2 : x < z + 1) : logOf z ≤ logOf x ∧ logOf x ≤ logOf z + 2 / unity := by
  have hu := unity_pos
  have hz : (unity : ℝ) ≤ z := by exact_mod_cast h
  have hz0 : (0 : ℝ) < z := hu.trans_le hz
  have hx0 : 0 < x := hz0.trans_le h1
  refine ⟨Real.logb_le_logb_of_le one_lt_two (div_pos hz0 hu) (div_le_div_of_nonneg_right h1 hu.le), ?_⟩
  have hdiff : logOf x - logOf z = Real.logb 2 (x / z) := by
    rw [logOf, logOf, ← Real.logb_div (div_pos hx0 hu).ne' (div_pos hz0 hu).ne', div_div_div_cancel_right₀ hu.ne']
  have hlog : Real.log (x / z) ≤ 1 / unity :=
    calc Real.log (x / z) ≤ x / z - 1 := Real.log_le_sub_one_of_pos (div_pos hx0 hz0)
      _ ≤ 1 / z := by
        rw [sub_le_iff_le_add, show (1 : ℝ) / z + 1 = (1 + z) / z by rw [add_div, div_self hz0.ne'], div_le_div_iff_of_pos_right hz0]
        linarith
      _ ≤ 1 / unity := one_div_le_one_div_of_le hu hz
  have hlog2 : (1 : ℝ) / 2 ≤ Real.log 2 := by linarith [Real.log_two_gt_d9]
  have hle : Real.logb 2 (x / z) ≤ 2 / unity := by
    rw [Real.logb, div_le_iff₀ (by linarith)]
    refine hlog.trans ?_
    rw [div_mul_eq_mul_div]
    gcongr
    linarith
  linarith

/-- The square of a number, of twice the logarithm. -/
def squared (y : Nat) : Nat := y * y / unity

theorem log2Frac_succ (n y acc : Nat) : log2Frac (n + 1) y acc =
    if 2 * unity ≤ squared y then log2Frac n (squared y / 2) (2 * acc + 1) else log2Frac n (squared y) (2 * acc) := by
  have h : 2 ^ (2 * fbits + 1) = 2 * unity := by rw [unity, pow_succ']
  rw [log2Frac, h]
  rfl

theorem squared_bounds (h1 : unity ≤ y) (h2 : y < 2 * unity) : unity ≤ squared y ∧ squared y < 4 * unity := by
  have hu : 0 < unity := Nat.two_pow_pos _
  refine ⟨(Nat.le_div_iff_mul_le hu).mpr (Nat.mul_le_mul h1 h1), (Nat.div_lt_iff_lt_mul hu).mpr ?_⟩
  nlinarith

theorem squared_between (y : Nat) : (squared y : ℝ) ≤ (y : ℝ) * y / unity ∧ (y : ℝ) * y / unity < squared y + 1 := by
  have hfloor := Nat.lt_succ_floor (((y * y : Nat) : ℝ) / (unity : ℝ))
  rw [Nat.floor_div_eq_div, Nat.cast_succ, Nat.cast_mul] at hfloor
  have hle : ((y * y / unity : Nat) : ℝ) ≤ ((y * y : Nat) : ℝ) / unity := Nat.cast_div_le
  rw [Nat.cast_mul] at hle
  exact ⟨hle, hfloor⟩

/-- The bit of a doubling: what is left, and how far its logarithm is from the true one. -/
theorem exists_bit (h1 : unity ≤ y) (h2 : y < 2 * unity) : ∃ b w : Nat, log2Frac (n + 1) y acc = log2Frac n w (2 * acc + b) ∧
    unity ≤ w ∧ w < 2 * unity ∧ b + logOf w ≤ 2 * logOf y ∧ 2 * logOf y ≤ b + logOf w + 2 / unity := by
  obtain ⟨hlow, hhigh⟩ := squared_bounds h1 h2
  obtain ⟨hle, hlt⟩ := squared_between y
  have hy0 : (y : ℝ) ≠ 0 := by
    have : (unity : ℝ) ≤ y := by exact_mod_cast h1
    exact (unity_pos.trans_le this).ne'
  rw [log2Frac_succ, ← logOf_sq hy0]
  have hx0 : (y : ℝ) * y / unity ≠ 0 := div_ne_zero (mul_ne_zero hy0 hy0) unity_pos.ne'
  generalize (y : ℝ) * y / unity = x at hle hlt hx0
  generalize squared y = z at hlow hhigh hle hlt
  split
  next hz =>
    have hhalf : ((z / 2 : Nat) : ℝ) ≤ x / 2 ∧ x / 2 < ((z / 2 : Nat) : ℝ) + 1 := by
      have h1 : 2 * ((z / 2 : Nat) : ℝ) ≤ z := by exact_mod_cast Nat.mul_div_le z 2
      have h2 : (z : ℝ) + 1 ≤ 2 * ((z / 2 : Nat) : ℝ) + 2 := by exact_mod_cast (by omega : z + 1 ≤ 2 * (z / 2) + 2)
      constructor <;> linarith
    obtain ⟨ha, hb⟩ := logOf_between (by omega : unity ≤ z / 2) hhalf.1 hhalf.2
    rw [logOf_half hx0] at ha hb
    refine ⟨1, z / 2, rfl, by omega, by omega, ?_, ?_⟩
    · push_cast; linarith
    · push_cast; linarith
  next hz =>
    obtain ⟨ha, hb⟩ := logOf_between hlow hle hlt
    refine ⟨0, z, rfl, hlow, not_le.mp hz, ?_, ?_⟩
    · push_cast; linarith
    · push_cast; linarith

/-- The bits so far, and those of the logarithm that is left. -/
theorem log2Frac_bounds (n : Nat) {y acc : Nat} (h1 : unity ≤ y) (h2 : y < 2 * unity) :
    (log2Frac n y acc : ℝ) ≤ 2 ^ n * (acc + logOf y) ∧
      2 ^ n * (acc + logOf y) ≤ log2Frac n y acc + 1 + (2 ^ n - 1) * (2 / unity) := by
  induction n generalizing y acc with
  | zero =>
    have h1' : (unity : ℝ) ≤ y := by exact_mod_cast h1
    have h2' : (y : ℝ) < 2 * unity := by exact_mod_cast h2
    have ha := logOf_nonneg h1'
    have hb := logOf_lt_one (unity_pos.trans_le h1') h2'
    rw [log2Frac]
    constructor <;> norm_num <;> linarith
  | succ n ih =>
    obtain ⟨b, w, hx, hw1, hw2, ha, hb⟩ := exists_bit (n := n) (acc := acc) h1 h2
    obtain ⟨hlow, hhigh⟩ := ih (acc := 2 * acc + b) hw1 hw2
    rw [hx]
    have hp : (0 : ℝ) < 2 ^ n := by positivity
    have hsplit : (2 : ℝ) ^ (n + 1) * (acc + logOf y) = 2 ^ n * (2 * acc + 2 * logOf y) := by ring
    rw [hsplit]
    push_cast at hlow hhigh
    refine ⟨hlow.trans (mul_le_mul_of_nonneg_left (by linarith) hp.le), ?_⟩
    calc (2 : ℝ) ^ n * (2 * acc + 2 * logOf y) ≤ 2 ^ n * (2 * acc + (b + logOf w + 2 / unity)) :=
          mul_le_mul_of_nonneg_left (by linarith) hp.le
      _ = 2 ^ n * (2 * acc + b + logOf w) + 2 ^ n * (2 / unity) := by ring
      _ ≤ _ := by
        rw [pow_succ]
        linarith

end

/-! ### flog2 (R158) -/

section
variable {a : Word} {r : Rm} {m j n : Nat} {e : Int}

/-- The number of leading bit 0 that has a mantissa's bits. -/
def leadOne (m : Nat) : Nat := m * 2 ^ (2 * fbits - Nat.log2 m)

theorem leadOne_bounds (hm : m ≠ 0) (h : m < 2 ^ 24) : unity ≤ leadOne m ∧ leadOne m < 2 * unity := by
  have hk : Nat.log2 m ≤ 2 * fbits := ((Nat.log2_lt hm).mpr h).le.trans (by decide)
  have hp : 0 < 2 ^ (2 * fbits - Nat.log2 m) := Nat.two_pow_pos _
  have hunity : unity = 2 ^ Nat.log2 m * 2 ^ (2 * fbits - Nat.log2 m) := by rw [unity, ← pow_add, Nat.add_sub_cancel' hk]
  have htwo : 2 * unity = 2 ^ (Nat.log2 m + 1) * 2 ^ (2 * fbits - Nat.log2 m) := by rw [hunity, pow_succ']; ring
  rw [htwo, hunity, leadOne]
  exact ⟨Nat.mul_le_mul_right _ (Nat.log2_self_le hm), Nat.mul_lt_mul_of_pos_right Nat.lt_log2_self hp⟩

theorem logOf_leadOne (hm : m ≠ 0) (h : m < 2 ^ 24) : logOf (leadOne m) = Real.logb 2 m - Nat.log2 m := by
  have hk : Nat.log2 m ≤ 2 * fbits := ((Nat.log2_lt hm).mpr h).le.trans (by decide)
  have hm0 : (m : ℝ) ≠ 0 := by exact_mod_cast hm
  have hunity : (unity : ℝ) = 2 ^ Nat.log2 m * 2 ^ (2 * fbits - Nat.log2 m) := by
    rw [unity, ← pow_add, Nat.add_sub_cancel' hk, Nat.cast_pow, Nat.cast_ofNat]
  have hx : (leadOne m : ℝ) / unity = m / 2 ^ Nat.log2 m := by
    rw [hunity, leadOne, Nat.cast_mul, Nat.cast_pow, Nat.cast_ofNat, mul_div_mul_right _ _ (by positivity)]
  rw [logOf, hx, Real.logb_div hm0 (by positivity), Real.logb_pow, Real.logb_self_eq_one one_lt_two, mul_one]

/-- The logarithm in units of 2^−128. -/
def logUnits (m : Nat) (e : Int) : Int := (Nat.log2 m + e) * 2 ^ 128 + log2Frac 128 (leadOne m) 0

theorem log2Mag_of_pow (h : m = 2 ^ Nat.log2 m) (e : Int) :
    log2Mag m e = (decide (Nat.log2 m + e < 0), { mag := (Nat.log2 m + e).natAbs, exp := 0 }) := by
  rw [log2Mag, if_pos h]

theorem log2Mag_of_not_pow (h : m ≠ 2 ^ Nat.log2 m) (e : Int) : log2Mag m e =
    (decide (logUnits m e < 0),
      { mag := (if logUnits m e < 0 then -logUnits m e - 1 else logUnits m e).toNat, exp := -128, inexact := true }) := by
  rw [log2Mag, if_neg h]
  by_cases hv : logUnits m e < 0
  · rw [if_pos hv, decide_eq_true hv]
    exact if_pos hv
  · rw [if_neg hv, decide_eq_false hv]
    exact if_neg hv

/-- The logarithm lies from its units to hardly more than one above. -/
theorem logUnits_bounds (hm : m ≠ 0) (h : m < 2 ^ 24) (e : Int) :
    (logUnits m e : ℝ) ≤ 2 ^ 128 * (Real.logb 2 m + e) ∧ 2 ^ 128 * (Real.logb 2 m + e) ≤ logUnits m e + 3 / 2 := by
  obtain ⟨h1, h2⟩ := leadOne_bounds hm h
  obtain ⟨hlow, hhigh⟩ := log2Frac_bounds 128 (acc := 0) h1 h2
  rw [logOf_leadOne hm h, Nat.cast_zero, zero_add] at hlow hhigh
  have hsmall : ((2 : ℝ) ^ 128 - 1) * (2 / unity) ≤ 1 / 2 := by
    have hbig : ulps ≤ unity := by
      rw [← natCast_ulps]
      exact Nat.cast_le.mpr two_pow_fbits_le_unity
    rw [ulps_eq] at hbig
    rw [mul_div_assoc', div_le_iff₀ unity_pos]
    linarith
  have hcast : (logUnits m e : ℝ) = (Nat.log2 m + e) * 2 ^ 128 + log2Frac 128 (leadOne m) 0 := by
    rw [logUnits]
    push_cast
    ring
  rw [hcast]
  constructor <;> linarith

/-! #### The size of a logarithm -/

/-- A number's logarithm. -/
noncomputable def log32 (a : Word) : ℝ := Real.logb 2 ((abs32 a : ℝ) / 2 ^ 149)

theorem log32_eq (hm : m ≠ 0) (ha : abs32 a = m * 2 ^ j) : log32 a = Real.logb 2 m + ((j : Int) - 149 : Int) := by
  have hm0 : (m : ℝ) ≠ 0 := by exact_mod_cast hm
  rw [log32, ← mul_zpow_eq_abs32 ha, Real.logb_mul hm0 (by positivity), ← Real.rpow_intCast,
    Real.logb_rpow two_pos one_lt_two.ne']

theorem log32_of_pow (ha : abs32 a = 2 ^ n) : log32 a = n - 149 := by
  rw [log32_eq one_ne_zero (by rw [ha, one_mul]), Nat.cast_one, Real.logb_one]
  push_cast
  ring

theorem le_logb_of_ge {x : ℝ} (h : 1 + 1 / 2 ^ 23 ≤ x) : 1 / 2 ^ 24 ≤ Real.logb 2 x := by
  have hx : 0 < x := lt_of_lt_of_le (by norm_num) h
  have hlog : 1 / 2 ^ 24 ≤ Real.log x := by
    refine le_trans ?_ (Real.one_sub_inv_le_log_of_pos hx)
    have hinv : x⁻¹ ≤ (1 + 1 / 2 ^ 23)⁻¹ := inv_anti₀ (by norm_num) h
    refine le_trans ?_ (sub_le_sub_left hinv 1)
    norm_num
  rw [Real.logb, le_div_iff₀ (Real.log_pos one_lt_two)]
  have := Real.log_two_lt_d9
  nlinarith

theorem logb_le_of_le {x : ℝ} (hx : 0 < x) (h : x ≤ 1 - 1 / 2 ^ 24) : Real.logb 2 x ≤ -(1 / 2 ^ 24) := by
  have hlog : Real.log x ≤ -(1 / 2 ^ 24) := (Real.log_le_sub_one_of_pos hx).trans (by linarith)
  rw [Real.logb, div_le_iff₀ (Real.log_pos one_lt_two)]
  have := Real.log_two_lt_d9
  nlinarith

theorem mag_of_not_neg (h : neg32 a = false) : single.mag a.toNat = a.toNat := by
  rw [neg32, decide_eq_false_iff_not, not_le] at h
  exact Nat.mod_eq_of_lt h

/-- A number from 1 up has a code from that of 1. -/
theorem lt_code_one_iff (h : neg32 a = false) : a.toNat < 0x3F800000 ↔ abs32 a < 2 ^ 149 := by
  rw [abs32_eq, mag_of_not_neg h, ← size_one, (size_strictMono single).lt_iff_lt]

/-- The logarithm of a number that is not 1 is not small. -/
theorem log32_of_ne_one (h : neg32 a = false) (h0 : abs32 a ≠ 0) (h1 : abs32 a ≠ 2 ^ 149) :
    (a.toNat < 0x3F800000 → log32 a ≤ -(1 / 2 ^ 24)) ∧ (¬a.toNat < 0x3F800000 → 1 / 2 ^ 24 ≤ log32 a) := by
  have habs : abs32 a = single.size a.toNat := by rw [abs32_eq, mag_of_not_neg h]
  have hpos : 0 < (abs32 a : ℝ) := by exact_mod_cast Nat.pos_of_ne_zero h0
  refine ⟨fun hlt => logb_le_of_le (by positivity) ?_, fun hlt => le_logb_of_ge ?_⟩
  · have hle : abs32 a ≤ 2 ^ 149 - 2 ^ 125 := by
      rw [habs, ← size_below_one]
      exact (size_strictMono single).monotone (by omega)
    have hle' : (abs32 a : ℝ) ≤ 2 ^ 149 - 2 ^ 125 := by
      have : ((2 ^ 149 - 2 ^ 125 : Nat) : ℝ) = 2 ^ 149 - 2 ^ 125 := by norm_num
      rw [← this]
      exact_mod_cast hle
    rw [div_le_iff₀ (by positivity)]
    linarith
  · have hne : a.toNat ≠ 0x3F800000 := fun he => h1 (by rw [habs, he, size_one])
    have hge : 2 ^ 149 + 2 ^ 126 ≤ abs32 a := by
      rw [habs, ← size_above_one]
      exact (size_strictMono single).monotone (by omega)
    have hge' : (2 : ℝ) ^ 149 + 2 ^ 126 ≤ abs32 a := by exact_mod_cast hge
    rw [le_div_iff₀ (by positivity)]
    linarith

/-! #### The function -/

theorem func1_log2_eq (hd : fF32.decode a.toNat = .fin (neg32 a) m e) (hm : m ≠ 0) (hn : neg32 a = false) :
    func1 .log2 a r = fF32.round (log2Mag m e).1 (log2Mag m e).2 r := by
  simp only [func1, hd, if_neg hm, hn, Bool.false_eq_true, if_false]

/-- A mantissa is a power of two where the number is. -/
theorem eq_pow_log2_iff (ha : abs32 a = m * 2 ^ j) : m = 2 ^ Nat.log2 m ↔ ∃ n : Nat, abs32 a = 2 ^ n := by
  constructor
  · intro h
    exact ⟨Nat.log2 m + j, by rw [ha, pow_add, ← h]⟩
  · rintro ⟨n, hn⟩
    obtain ⟨k, -, hk⟩ := (Nat.dvd_prime_pow Nat.prime_two).mp (Dvd.intro _ (ha.symm.trans hn))
    rw [hk, Nat.log2_two_pow]

theorem gives_log2_of_pow (h : finite32 a) (hn : neg32 a = false) (ha : abs32 a = 2 ^ n) :
    Gives single r .dflt (decide (n < 149)) (2 ^ 149 * |(n : ℝ) - 149|) 0 (func1 .log2 a r) := by
  obtain ⟨m, j, hdec, habs, -⟩ := exists_decode32 h
  have hm : m ≠ 0 := fun hm => by
    rw [ha, hm, Nat.zero_mul] at habs
    exact absurd habs (by positivity)
  have hpow := (eq_pow_log2_iff habs).mpr ⟨n, ha⟩
  have hexp : (Nat.log2 m : Int) + ((j : Int) - 149) = n - 149 := by
    have : 2 ^ n = 2 ^ (Nat.log2 m + j) := by rw [← ha, habs, pow_add, ← hpow]
    have := Nat.pow_right_injective le_rfl this
    omega
  rw [func1_log2_eq hdec hm hn, log2Mag_of_pow hpow, hexp]
  have hg := gives_single_exact (r := r) (neg := decide ((n : Int) - 149 < 0)) ((n : Int) - 149).natAbs 0
  rw [zpow_zero, mul_one, Nat.cast_natAbs, mul_comm] at hg
  push_cast at hg
  have hsign : decide ((n : Int) - 149 < 0) = decide (n < 149) := decide_eq_decide.mpr (by omega)
  simpa only [hsign] using hg

/-- A number that is no power of two: the logarithm's units, and the number of them. -/
theorem log2_of_not_pow (h : finite32 a) (hn : neg32 a = false) (h0 : abs32 a ≠ 0) (hp : ∀ n : Nat, abs32 a ≠ 2 ^ n) :
    ∃ v : Int, (v : ℝ) ≤ 2 ^ 128 * log32 a ∧ 2 ^ 128 * log32 a ≤ v + 3 / 2 ∧ func1 .log2 a r = fF32.round (decide (v < 0))
      { mag := (if v < 0 then -v - 1 else v).toNat, exp := -128, inexact := true } r := by
  obtain ⟨m, j, hdec, habs, hlt⟩ := exists_decode32 h
  have hm : m ≠ 0 := fun hm => h0 (by rw [habs, hm, Nat.zero_mul])
  have hpow : m ≠ 2 ^ Nat.log2 m := fun he => by
    obtain ⟨n, hn⟩ := (eq_pow_log2_iff habs).mp he
    exact hp n hn
  obtain ⟨h1, h2⟩ := logUnits_bounds hm hlt ((j : Int) - 149)
  rw [← log32_eq hm habs] at h1 h2
  exact ⟨_, h1, h2, by rw [func1_log2_eq hdec hm hn, log2Mag_of_not_pow hpow]⟩

theorem nx_log2 (h : finite32 a) (hn : neg32 a = false) (h0 : abs32 a ≠ 0) (hp : ∀ n : Nat, abs32 a ≠ 2 ^ n) :
    (func1 .log2 a r).2.nx = true := by
  obtain ⟨v, -, -, hx⟩ := log2_of_not_pow (r := r) h hn h0 hp
  rw [hx]
  exact nx_round rfl

/-- A logarithm's sign, and that it is not small, in its units. -/
theorem logUnits_of_ne_one {v : Int} (hn : neg32 a = false) (h0 : abs32 a ≠ 0) (h1 : abs32 a ≠ 2 ^ 149)
    (hlow : (v : ℝ) ≤ 2 ^ 128 * log32 a) (hhigh : 2 ^ 128 * log32 a ≤ v + 3 / 2) :
    (a.toNat < 0x3F800000 ↔ v < 0) ∧ 2 ^ 24 ≤ (if v < 0 then -v - 1 else v).toNat ∧ 1 / 2 ^ 24 ≤ |log32 a| := by
  obtain ⟨hless, hmore⟩ := log32_of_ne_one hn h0 h1
  by_cases hlt : a.toNat < 0x3F800000
  · have hv : v ≤ -2 ^ 104 := by
      have : (v : ℝ) ≤ -2 ^ 104 := by linarith [hless hlt]
      exact_mod_cast this
    rw [abs_of_neg (lt_of_le_of_lt (hless hlt) (by norm_num)), if_pos (by omega)]
    exact ⟨iff_of_true hlt (by omega), by omega, le_neg_of_le_neg (hless hlt)⟩
  · have hv : 2 ^ 104 - 2 ≤ v := by
      have : (2 : ℝ) ^ 104 - 2 ≤ v := by linarith [hmore hlt]
      exact_mod_cast this
    rw [abs_of_pos (lt_of_lt_of_le (by norm_num) (hmore hlt)), if_neg (by omega)]
    exact ⟨iff_of_false hlt (by omega), by omega, hmore hlt⟩

theorem abs_add_half (v : Int) : |(v : ℝ) + 1 / 2| = ((if v < 0 then -v - 1 else v).toNat : ℝ) + 1 / 2 := by
  have hcast {z : Int} (h : 0 ≤ z) : ((z.toNat : Nat) : ℝ) = z := by exact_mod_cast Int.toNat_of_nonneg h
  split
  next h =>
    have h' : (v : ℝ) ≤ -1 := by exact_mod_cast Int.le_sub_one_of_lt h
    rw [hcast (by omega), abs_of_neg (by linarith)]
    push_cast
    ring
  next h =>
    have h' : (0 : ℝ) ≤ v := by exact_mod_cast not_lt.mp h
    rw [hcast (not_lt.mp h), abs_of_pos (by linarith)]

theorem gives_log2 (hr : r ≠ .rs) (h : finite32 a) (hn : neg32 a = false) (h0 : abs32 a ≠ 0) :
    ∃ v : ℝ, Near v (2 ^ 149 * log32 a) ∧ Gives single r .dflt (decide (a.toNat < 0x3F800000)) |v| 0 (func1 .log2 a r) := by
  by_cases hp : ∃ n : Nat, abs32 a = 2 ^ n
  · obtain ⟨n, hp⟩ := hp
    refine ⟨_, near_self _, ?_⟩
    have hsign : a.toNat < 0x3F800000 ↔ n < 149 := by
      rw [lt_code_one_iff hn, hp, Nat.pow_lt_pow_iff_right one_lt_two]
    rw [log32_of_pow hp, abs_mul, abs_of_pos (by positivity : (0 : ℝ) < 2 ^ 149), decide_eq_decide.mpr hsign]
    exact gives_log2_of_pow h hn hp
  · obtain ⟨v, hlow, hhigh, hx⟩ := log2_of_not_pow (r := r) h hn h0 (not_exists.mp hp)
    obtain ⟨hsign, hbig, hlog⟩ := logUnits_of_ne_one hn h0 (fun he => hp ⟨149, he⟩) hlow hhigh
    refine ⟨((v : ℝ) + 1 / 2) * (2 ^ (-128 : Int) * 2 ^ 149), ?_, ?_⟩
    · rw [show (2 : ℝ) ^ 149 * log32 a = 2 ^ 128 * log32 a * (2 ^ (-128 : Int) * 2 ^ 149) by ring_nf]
      refine Near.mul_right ?_ _
      have hdiff : |(v : ℝ) + 1 / 2 - 2 ^ 128 * log32 a| ≤ 1 := abs_le.mpr ⟨by linarith, by linarith⟩
      rw [Near, abs_mul, abs_of_pos (by positivity : (0 : ℝ) < 2 ^ 128)]
      linarith
    · have hv : |((v : ℝ) + 1 / 2) * (2 ^ (-128 : Int) * 2 ^ 149)| =
          (((if v < 0 then -v - 1 else v).toNat : ℝ) + 1 / 2) * 2 ^ (-128 : Int) * 2 ^ 149 := by
        rw [abs_mul, abs_add_half, abs_of_pos (by positivity : (0 : ℝ) < 2 ^ (-128 : Int) * 2 ^ 149), mul_assoc]
      rw [hx, hv, decide_eq_decide.mpr hsign]
      exact gives_single_half hr hbig _

end

/-- Settles O19: the powers of two are products of roots and the logarithm's bits are those of squares, whose errors add up to
far less than a part in 2^100. -/
theorem floatTranscendentals : Obligations.FloatTranscendentals := by
  unfold Obligations.FloatTranscendentals
  intro a r hr h h0
  have habs := abs32_ne_zero_iff.mpr h0
  refine ⟨⟨?_, fun n hn => gives_exp2_of_whole hr h h0 hn, nx_exp2 h h0⟩, fun hn => ⟨?_, fun n hp => gives_log2_of_pow h hn hp,
    nx_log2 h hn habs⟩⟩
  · obtain ⟨v, hv, hg⟩ := gives_exp2 hr h h0
    exact ⟨v, by rwa [Near, abs_of_pos (by positivity : (0 : ℝ) < 2 ^ 149 * 2 ^ ((fixed32 a : ℝ) / 2 ^ 149))] at hv, hg⟩
  · obtain ⟨v, hv, hg⟩ := gives_log2 hr h hn habs
    exact ⟨v, by rwa [Near, abs_mul, abs_of_pos (by positivity : (0 : ℝ) < 2 ^ 149)] at hv, hg⟩

end Sys2Proof.Claims
end

section
/-! O4 (R149, R152 to R154, R160, R162): float instructions give their results and flags, or trap. -/

namespace Sys2Proof.Claims

open Sys2Proof.Machine

/-! ### The causes of a float instruction (R152, R153) -/

section
variable {T T' : Team} {g : Nat → Word × FFlags} {j n : Nat} {en : BitVec 4}

/-- The causes of the active lanes. -/
def causes (T : Team) (g : Nat → Word × FFlags) : List (Nat × FFlags) := T.active.map fun n => (n, (g n).2)

theorem any_causes_iff : (causes T g).any (fun e => causeOf j e.2) = true ↔ arises T g j := by
  rw [causes, List.any_map, List.any_eq_true]
  rfl

theorem any_causes_of_not (h : ¬arises T g j) : (causes T g).any (fun e => causeOf j e.2) = false :=
  Bool.eq_false_iff.mpr fun hany => h (any_causes_iff.mp hany)

theorem floatTrap_of_quiet (h : Quiet T g) : floatTrap T.fp.enables (causes T g) = none :=
  floatTrap_none _ _ (fun he => any_causes_of_not (h 0 (by decide) he)) (fun he => any_causes_of_not (h 1 (by decide) he))
    (fun he => any_causes_of_not (h 2 (by decide) he)) (fun he => any_causes_of_not (h 3 (by decide) he))

/-- Whether an enabled cause arose, as the float trap asks. -/
def asks (en : BitVec 4) (l : List (Nat × FFlags)) (j : Nat) : Bool := en.getLsbD j && l.any (fun e => causeOf j e.2)

theorem floatTrap_eq (en : BitVec 4) (l : List (Nat × FFlags)) : floatTrap en l =
    if asks en l 0 then some { code := 0x40, mask := some (causeMask (causeOf 0) l) }
    else if asks en l 1 then some { code := 0x41, mask := some (causeMask (causeOf 1) l) }
    else if asks en l 2 then some { code := 0x42, mask := some (causeMask (causeOf 2) l) }
    else if asks en l 3 then some { code := 0x43, mask := some (causeMask (causeOf 3) l) }
    else none := rfl

/-- The trap of the first enabled cause. -/
theorem floatTrap_of_first (hj : j < 4) (he : T.fp.enables.getLsbD j = true) (ha : arises T g j)
    (hfirst : ∀ m < j, T.fp.enables.getLsbD m = true → ¬arises T g m) :
    floatTrap T.fp.enables (causes T g) =
      some { code := BitVec.ofNat 8 (0x40 + j), mask := some (causeMask (causeOf j) (causes T g)) } := by
  have hyes : asks T.fp.enables (causes T g) j = true := by rw [asks, he, any_causes_iff.mpr ha, Bool.true_and]
  have hno (m : Nat) (hm : m < j) : ¬asks T.fp.enables (causes T g) m = true := by
    rw [asks, Bool.and_eq_true, any_causes_iff, not_and]
    exact hfirst m hm
  rw [floatTrap_eq]
  match j, hj with
  | 0, _ => exact if_pos hyes
  | 1, _ => exact (if_neg (hno 0 (by decide))).trans (if_pos hyes)
  | 2, _ => exact (if_neg (hno 0 (by decide))).trans ((if_neg (hno 1 (by decide))).trans (if_pos hyes))
  | 3, _ => exact (if_neg (hno 0 (by decide))).trans ((if_neg (hno 1 (by decide))).trans ((if_neg (hno 2 (by decide))).trans (if_pos hyes)))

theorem getLsbD_causeMask (hn : n < 1024) :
    (causeMask (causeOf j) (causes T g)).getLsbD n = true ↔ n ∈ T.active ∧ causeOf j (g n).2 = true := by
  rw [causeMask, getLsbD_ofLanes _ hn, decide_eq_true_iff, causes, List.filter_map, List.map_map]
  simp only [List.mem_map, List.mem_filter, Function.comp_apply, exists_eq_right]

theorem getLsbD_bits (f : FFlags) (hj : j < 5) : f.bits.getLsbD j = causeOf j f := by
  obtain ⟨h0, h1, h2, h3, h4⟩ := bits_getLsbD f
  match j, hj with
  | 0, _ => exact h0
  | 1, _ => exact h1
  | 2, _ => exact h2
  | 3, _ => exact h3
  | 4, _ => exact h4

theorem causeOf_foldl (l : List (Nat × FFlags)) (hj : j < 5) :
    causeOf j (l.foldl (fun (a : FFlags) e => a.or e.2) {}) = l.any (fun e => causeOf j e.2) := by
  rw [foldl_or]
  match j, hj with
  | 0, _ => rfl
  | 1, _ => rfl
  | 2, _ => rfl
  | 3, _ => rfl
  | 4, _ => rfl

theorem flagsRaised_of (hf : T'.fp.flags = (T.fp.raise (causes T g)).flags) (he : T'.fp.enables = T.fp.enables) : FlagsRaised T T' g := by
  refine ⟨fun j hj => ?_, he⟩
  rw [hf, Fp.raise, BitVec.getLsbD_or, getLsbD_bits _ hj, causeOf_foldl _ hj, Bool.or_eq_true, any_causes_iff]

end

/-! ### The generators (R149) -/

section
variable {f : Fp} {ns : List Nat} {n : Nat} {h : Nat → Word}

theorem setStates_rest (l : List (Nat × Word)) (f : Fp) : (f.setStates l).flags = f.flags ∧ (f.setStates l).enables = f.enables := by
  induction l generalizing f with
  | nil => exact ⟨rfl, rfl⟩
  | cons p l ih => exact ih (f.setState p.1 p.2)

/-- The generators of a list of lanes take their values, and the others keep theirs. -/
theorem state_setStates (ns : List Nat) (f : Fp) :
    (f.setStates (ns.map fun n => (n, h n))).state n = if n ∈ ns then h n else f.state n := by
  induction ns generalizing f with
  | nil => rfl
  | cons m ns ih =>
    rw [List.map_cons, Fp.setStates, ih, Fp.state, Fp.setState, Sparse.get_set]
    by_cases hn : n ∈ ns
    · simp [hn]
    · by_cases hm : n = m
      · simp [hm]
      · simp [hn, hm, Fp.state]

end

/-! ### The bodies of the float instructions -/

section
variable {s : State} {k : Nat} {T : Team} {i : Instr} {d : Opnd} {p : FloatRule} {steps : Nat} {g : Nat → Word × FFlags}

/-- An instruction whose body, where a ready team issues it, is a float body of those results. -/
def IsFloat (s : State) (k : Nat) (T : Team) (i : Instr) (d : Opnd) (g : Nat → Word × FFlags) : Prop :=
  ∃ body, exec i s = s.issue i body ∧
    body k (T.pinned i) (s.setTeam k (T.pinned i)) = floatBody d g k (T.pinned i) (s.setTeam k (T.pinned i))

theorem isFloat_float1 (f : DA) (g : Word → Word × FFlags) (h : exec i s = float1 i f g s) :
    IsFloat s k T i (fl1 f g).1 ((fl1 f g).2 s T) :=
  ⟨_, h, by simp only [word_pinned]; rfl⟩

theorem isFloat_float2 (f : DAB) (g : Word → Word → Word × FFlags) (h : exec i s = float2 i f g s) :
    IsFloat s k T i (fl2 f g).1 ((fl2 f g).2 s T) :=
  ⟨_, h, by simp only [word_pinned]; rfl⟩

theorem isFloat_float3 (f : DABC) (g : Word → Word → Word → Word × FFlags) (h : exec i s = float3 i f g s) :
    IsFloat s k T i (fl3 f g).1 ((fl3 f g).2 s T) :=
  ⟨_, h, by simp only [word_pinned]; rfl⟩

theorem floatBody_of_quiet (d : Opnd) (t : Team) (g : Nat → Word × FFlags) (k : Nat) (s : State)
    (h : floatTrap t.fp.enables (causes t g) = none) : floatBody d g k t s =
      .done (s.setTeam k { t.laneResults d (t.active.map fun n => (n, (g n).1, none)) with fp := t.fp.raise (causes t g) }) := by
  have hfl : (t.active.map fun n => (n, g n)).map (fun r => (r.1, r.2.2)) = causes t g := List.map_map
  have hrs : (t.active.map fun n => (n, g n)).map (fun r => (r.1, r.2.1, (none : Option Tag))) =
      t.active.map fun n => (n, (g n).1, none) := List.map_map
  rw [floatBody]
  dsimp only
  rw [hfl, hrs, h, Team.laneResults_fp]

theorem floatBody_of_trap {tr : Trap} (d : Opnd) (t : Team) (g : Nat → Word × FFlags) (k : Nat) (s : State)
    (h : floatTrap t.fp.enables (causes t g) = some tr) : floatBody d g k t s = .trap tr := by
  have hfl : (t.active.map fun n => (n, g n)).map (fun r => (r.1, r.2.2)) = causes t g := List.map_map
  rw [floatBody]
  dsimp only
  rw [hfl, h]

theorem raise_of_no_causes (f : Fp) (t : Team) (val : Nat → Word) : f.raise (causes t fun n => (val n, {})) = f := by
  have hbits : ((causes t fun n => (val n, {})).foldl (fun (a : FFlags) e => a.or e.2) {}).bits = 0 := by
    rw [foldl_or]
    simp [causes, FFlags.bits]
  rw [Fp.raise, hbits]
  simp

/-- Results without causes. -/
theorem floatBody_of_no_causes (d : Opnd) (val : Nat → Word) (k : Nat) (t : Team) (s : State) :
    floatBody d (fun n => (val n, {})) k t s = laneBody d val k t s := by
  have hq : Quiet t fun n => (val n, {}) := by
    rintro j hj - ⟨n, -, hn⟩
    match j, hj with
    | 0, _ | 1, _ | 2, _ | 3, _ => cases hn
  rw [floatBody_of_quiet d t _ k s (floatTrap_of_quiet hq), raise_of_no_causes]
  rfl

theorem isFloat_fclass (f : DA) (s : State) (k : Nat) (T : Team) :
    IsFloat s k T (.fclass f) f.d (fun n => (BitVec.ofNat 32 (2 ^ fclassBit (s.word T n f.a.op)), {})) := by
  refine ⟨_, rfl, ?_⟩
  rw [floatBody_of_no_causes]
  simp only [word_pinned]

theorem isFloat_of_floatInstr (h : FloatInstr i p) (s : State) (k : Nat) (T : Team) : IsFloat s k T i p.1 (p.2 s T) := by
  cases h with
  | fadd | fsub | fmul | fmin | fmax | fcmp | h2add | h2mul | fscl | funpack => exact isFloat_float2 _ _ rfl
  | ffma | h2fma | dot4 | dot8 => exact isFloat_float3 _ _ rfl
  | frcp | frsq | fsqrt | fexp2 | flog2 | frnd | fcvtToF32 => exact isFloat_float1 _ _ rfl
  | fclass f => exact isFloat_fclass f s k T

/-- An instruction whose body is that of a conversion that may draw. -/
def IsDraw (s : State) (k : Nat) (T : Team) (i : Instr) (d : Opnd) (steps : Nat) (g : Nat → Word × FFlags) : Prop :=
  ∃ body h, exec i s = s.issue i body ∧ (∀ n, h n (T.fp.state n) = g n) ∧
    body k (T.pinned i) (s.setTeam k (T.pinned i)) = floatDrawBody d steps h k (T.pinned i) (s.setTeam k (T.pinned i))

theorem isDraw_of_drawInstr (h : DrawInstr i p steps) (s : State) (k : Nat) (T : Team) : IsDraw s k T i p.1 steps (p.2 s T) := by
  cases h with
  | fcvt m r u f =>
    exact ⟨_, fun n x => fromF32 m (s.word T n f.a.op) r u (rngDraw (rngStep x)), rfl, fun n => rfl, by simp only [word_pinned]⟩
  | fpack m r u p f =>
    exact ⟨_, fun n x => packWord m r u p (s.word T n f.d) (s.word T n f.a.op) (s.word T n f.b.op) x, rfl, fun n => rfl,
      by simp only [word_pinned]⟩

theorem causes_pinned (T : Team) (i : Instr) (g : Nat → Word × FFlags) : causes (T.pinned i) g = causes T g := by
  rw [causes, causes, pinned_active]

theorem floatDrawBody_of_trap {tr : Trap} {h : Nat → Word → Word × FFlags} {t : Team}
    (ht : floatBody d (fun n => h n (t.fp.state n)) k t s = .trap tr) : floatDrawBody d steps h k t s = .trap tr := by
  rw [floatDrawBody, ht]

theorem floatDrawBody_of_done {s' : State} {h : Nat → Word → Word × FFlags} {t : Team}
    (ht : floatBody d (fun n => h n (t.fp.state n)) k t s = .done s') : floatDrawBody d steps h k t s =
      if steps = 0 then .done s' else .done (s'.modTeam k fun u =>
        { u with fp := u.fp.setStates (t.active.map fun n => (n, Nat.repeat rngStep steps (t.fp.state n))) }) := by
  rw [floatDrawBody, ht]

/-- A lane instruction that has completed, of another float status. -/
theorem laneDone_of_fp {val : Nat → Word} {t t' : State} {T' : Team} (h : LaneDone s k T i d val t T') (f : Fp)
    (hT : t'.team? k = some { T' with fp := f }) (ho : OnlyTeam s t' k) : LaneDone s k T i d val t' { T' with fp := f } := by
  obtain ⟨-, hpast, hres, hlanes, hflags, hfiles, hrest, -, -⟩ := h
  refine ⟨hT, hpast, hres, hlanes, hflags, hfiles, ?_, ho, sameMemory_of_only ho⟩
  rw [hrest]

/-- The team with its results and its causes' flags. -/
theorem floatBody_pinned (d : Opnd) (s : State) (k : Nat) (i : Instr) (hq : Quiet T g) :
    ∃ q, floatBody d g k (T.pinned i) (s.setTeam k (T.pinned i)) = .done ((s.setTeam k (T.pinned i)).setTeam k
      (Team.laneResults { T with region := q, fp := T.fp.raise (causes T g) } d (T.active.map fun n => (n, (g n).1, none)))) := by
  obtain ⟨q, hpin⟩ := pinned_eq T i
  refine ⟨q, ?_⟩
  rw [floatBody_of_quiet, pinned_fp, causes_pinned, pinned_active, hpin]
  · rfl
  · rw [pinned_fp, causes_pinned]
    exact floatTrap_of_quiet hq

/-- A conversion that draws: its generators step. -/
theorem floatDraw_done (hr : Ready s k T i) (hd : IsDraw s k T i d steps g) (hq : Quiet T g) :
    ∃ t T', exec i s = .next t ∧ LaneDone s k T i d (fun n => (g n).1) t T' ∧ FlagsRaised T T' g ∧
      ∀ n, rngOf T' n = if n ∈ T.active then rngAfter T n steps else rngOf T n := by
  obtain ⟨body, h, hex, hg, hb⟩ := hd
  obtain rfl : (fun n => h n (T.fp.state n)) = g := funext hg
  obtain ⟨q, hbody⟩ := floatBody_pinned d s k i hq
  have hdraw := floatDrawBody_of_done (steps := steps) (h := h) (by rw [pinned_fp]; exact hbody)
  rw [pinned_fp, pinned_active] at hdraw
  rw [hex, issue_of_ready hr, hb, hdraw]
  have hdone := laneDone_of s k T (T.pinned i) { T with region := q, fp := T.fp.raise (causes T fun n => h n (T.fp.state n)) } i d
    (fun n => (h n (T.fp.state n)).1) (fun _ => none) ⟨_, _, rfl⟩
  by_cases h0 : steps = 0
  · subst h0
    exact ⟨_, _, rfl, hdone, flagsRaised_of rfl rfl, fun n => by split <;> rfl⟩
  · rw [if_neg h0]
    obtain ⟨hflags, henables⟩ := setStates_rest (T.active.map fun n => (n, Nat.repeat rngStep steps (T.fp.state n)))
      (T.fp.raise (causes T fun n => h n (T.fp.state n)))
    refine ⟨_, _, rfl, laneDone_of_fp hdone _ ?_ ?_, flagsRaised_of hflags henables, fun n => state_setStates _ _⟩
    · rw [team?_advance, team?_modTeam, team?_setTeam]
      rfl
    · exact onlyTeam_advance (onlyTeam_trans (onlyTeam_trans (onlyTeam_setTeam _ _ _) (onlyTeam_setTeam _ _ _)) (onlyTeam_modTeam _ _ _))

/-- An enabled cause: a precise trap. -/
theorem floatTrap_taken {j : Nat} (hr : Ready s k T i) (hd : IsFloat s k T i d g ∨ IsDraw s k T i d steps g) (hj : j < 4)
    (he : T.fp.enables.getLsbD j = true) (ha : arises T g j) (hfirst : ∀ m < j, T.fp.enables.getLsbD m = true → ¬arises T g m) :
    ∃ lanes : Mask, exec i s = .next (s.takeTrap k 0 { code := BitVec.ofNat 8 (0x40 + j), mask := some lanes }) ∧
      ∀ n < 1024, lanes.getLsbD n = true ↔ (n ∈ T.active ∧ causeOf j (g n).2 = true) := by
  refine ⟨causeMask (causeOf j) (causes T g), ?_, fun n hn => getLsbD_causeMask hn⟩
  have htrap : floatTrap (T.pinned i).fp.enables (causes (T.pinned i) g) =
      some { code := BitVec.ofNat 8 (0x40 + j), mask := some (causeMask (causeOf j) (causes T g)) } := by
    rw [pinned_fp, causes_pinned]
    exact floatTrap_of_first hj he ha hfirst
  have hbody := floatBody_of_trap d (T.pinned i) g k (s.setTeam k (T.pinned i)) htrap
  obtain ⟨body, hex, hb⟩ | ⟨body, h, hex, hg, hb⟩ := hd
  · rw [hex, issue_of_ready hr, hb, hbody]
    rfl
  · have hg' : (fun n => h n ((T.pinned i).fp.state n)) = g := funext fun n => by rw [pinned_fp, hg]
    rw [hex, issue_of_ready hr, hb, floatDrawBody_of_trap (by rw [hg', hbody])]
    rfl

/-- Settles O4: the body of every float instruction gives its lanes' results and raises their causes, or traps. -/
theorem floatInstructions : Obligations.FloatInstructions := by
  unfold Obligations.FloatInstructions
  refine ⟨⟨fun s k T i d g hi hr hq => ?_, fun s k T i d g steps hi hr hq => floatDraw_done hr (isDraw_of_drawInstr hi s k T) hq⟩,
    fun s k T i d g j hi hr hj he ha hfirst => ?_⟩
  · obtain ⟨body, hex, hb⟩ := isFloat_of_floatInstr hi s k T
    obtain ⟨t, T', ht, hdone, hfp⟩ := floatBody_done hr d body (g s T) hb (floatTrap_of_quiet hq)
    exact ⟨t, T', hex.trans ht, hdone, flagsRaised_of (by rw [hfp]; rfl) (by rw [hfp]; rfl), by rw [hfp]; rfl⟩
  · obtain hi | ⟨steps, hi⟩ := hi
    · exact floatTrap_taken (steps := 0) hr (.inl (isFloat_of_floatInstr hi s k T)) hj he ha hfirst
    · exact floatTrap_taken hr (.inr (isDraw_of_drawInstr hi s k T)) hj he ha hfirst

end
end Sys2Proof.Claims
end
